-- ==== Sys2Proof/Word.lean ====
section
/-! DEFINITION. The word types of the machine: what the manual treats as bits. -/
namespace Sys2Proof

/-- One byte of memory (R4). -/
abbrev Byte := BitVec 8
/-- A 32-bit word: a parcel, an S-word, a lane status word, a lane mask. -/
abbrev Word32 := BitVec 32
/-- A 64-bit word: a scalar register, a lane element, a control register. -/
abbrev Word64 := BitVec 64

end Sys2Proof
end

