-- ==== Sys2Proof/Syntax.lean ====
section
/-! DEFINITION. The instructions: one constructor of Instr for every row of spec/opcode_table.json (65 S-words, 112 V-words, 100 device
events), and the operand forms they carry. Register numbers, field codes and counts are natural numbers that WellFormed bounds;
immediates are bit vectors of the width the encoding gives them. -/
namespace Sys2Proof

/-- TYPE codes 0 to 14 (R113, R129). -/
inductive Ty where
  | i32 | n32 | i64 | n64 | b32 | b64 | x32 | x64 | xb16 | xh16 | k8 | e4 | e5 | i8 | mp16
  deriving DecidableEq, Repr

/-- An operand code (R82). -/
inductive Opnd where
  | v (k : Nat)   -- v0 to v767, codes 0 to 767
  | s (k : Nat)   -- s0 to s127, codes 768 to 895
  | b (k : Nat)   -- b0 to b3, codes 896 to 899
  | zero          -- 900
  | lane          -- 901
  | grp           -- 902
  | stage         -- 903
  deriving DecidableEq, Repr

/-- The common head of a V-word: no-write-back bit N, guard register G, guard sense GS (R81, R83, R84). -/
structure VH where
  n  : Bool
  g  : Nat
  gs : Nat
  deriving DecidableEq, Repr

/-- The memory X word (R87). In atom, hint carries PLACE and form carries AOP (R325, R326). -/
structure MemX where
  stream : Nat
  scope  : Nat
  order  : Nat
  hint   : Nat
  form   : Nat
  off    : BitVec 16
  deriving DecidableEq, Repr

/-- The fields of mloop (R88, R238). MODE and TYPE follow from the two formats (R89). a and b are register numbers: vector
registers where the source bit is false, scalar registers where it is true. c is the increment register, if one is written. -/
structure MloopF where
  stream : Nat
  tile   : Nat
  afmt   : Nat
  bfmt   : Nat
  asrc   : Bool
  bsrc   : Bool
  pair   : Bool
  ksteps : Nat
  a      : Nat
  b      : Nat
  c      : Option Nat
  deriving DecidableEq, Repr

/-- The fields of mdrn (R247). -/
structure MdrnF where
  stream : Nat
  tile   : Nat
  a      : Nat
  mode   : Nat
  amax   : Bool
  bias   : Bool
  act    : Bool
  qnt    : Bool
  qtgt   : Nat
  qscf   : Nat
  glob   : Bool
  row0   : Nat
  nrows  : Nat
  deriving DecidableEq, Repr

/-- The fields of cpy (R90, R332): dst, src and ctl are scalar registers. -/
structure CpyF where
  t      : Ty
  stream : Nat
  scope  : Nat
  order  : Nat
  hint   : Nat
  redop  : Nat
  fe     : Bool
  step   : Bool
  stepid : Nat
  dst    : Nat
  src    : Nat
  ctl    : Nat
  deriving DecidableEq, Repr

/-- A translation the host's IOMMU gives for a page (R428, R429): the page's virtual base, its size as a power of two, its
translated bus address, and the permissions. -/
structure PageMap where
  va   : Nat
  log2 : Nat
  pa   : Nat
  r    : Bool
  w    : Bool
  deriving DecidableEq, Repr

/-- A host's answer to a PRI page request (R430). -/
inductive PriAnswer where
  | success | invalid | failure
  deriving DecidableEq, Repr

/-- What a time measurement asks of the discipline, in nanoseconds (R457): a positive step above 1 ms, or a slewed correction of either sign. -/
inductive TimeFix where
  | step (ns : Nat) (pps : Bool)
  | slew (ns : Int) (pps : Bool)
  deriving DecidableEq, Repr

/-- An access to BAR0 by the host, at an offset (R503). -/
inductive BarAccess where
  | read (off : Nat)
  | write (off : Nat)
  deriving DecidableEq, Repr

/-- What an incoming peer access asks for (R507): a read of bytes, a write, or an atomic by its AOP, type and raw operands. -/
inductive PeerReq where
  | read (n : Nat)
  | write (bytes : List (BitVec 8))
  | atom (aop : Nat) (t : Ty) (b c : Nat)
  deriving DecidableEq, Repr

/-- What comes of an outgoing peer access (R509). -/
inductive PeerAns where
  | done | poisoned | denied | lost
  deriving DecidableEq, Repr

inductive Instr where
  -- scalar arithmetic, R167
  | sadd (d a b : Nat) | ssub (d a b : Nat) | smul (d a b : Nat) | smulh (d a b : Nat) | sdiv (d a b : Nat) | srem (d a b : Nat)
  | sand (d a b : Nat) | sor (d a b : Nat) | sxor (d a b : Nat) | sshl (d a b : Nat) | sshr (d a b : Nat) | ssra (d a b : Nat)
  | smin (d a b : Nat) | smax (d a b : Nat) | sclz (d a : Nat) | spop (d a : Nat) | smov (d a : Nat)
  | smulhN64 (d a b : Nat) | sdivN64 (d a b : Nat) | sremN64 (d a b : Nat) | sminN64 (d a b : Nat) | smaxN64 (d a b : Nat)
  -- scalar immediates, R168 and R169
  | saddImm (d a : Nat) (i : BitVec 12) | sandImm (d a : Nat) (i : BitVec 12) | sorImm (d a : Nat) (i : BitVec 12)
  | sxorImm (d a : Nat) (i : BitVec 12) | sshlImm (d a c : Nat) | sshrImm (d a c : Nat) | ssraImm (d a c : Nat)
  | sli (d : Nat) (i : BitVec 19) | slih (d : Nat) (i : BitVec 19)
  -- compare, select, scalar memory, R170, R171, R336
  | scmp (c d a b : Nat) | ssel (d a b : Nat) | sld (d a : Nat) (i : BitVec 12) | sst (d a : Nat) (i : BitVec 12)
  -- branches, R386 to R388
  | br (o : BitVec 16) | bc (c a : Nat) (o : BitVec 16) | bq (n p : Nat) (o : BitVec 16) | bq3 (p f : Nat) (oa ob : BitVec 10)
  | call (a : Nat) (o : BitVec 16) | ret (a : Nat) | jmpx (d a : Nat)
  -- ordering words, R390 and R98
  | waitc (vm sm as xl : Nat) | venq (c o : Nat)
  -- barriers, R392 and R393
  | nbarImm (c i : Nat) | nbarReg (a i : Nat) | tbar | qbar (m : Nat)
  -- forks and lane ends, R397 to R401
  | split (pen : Bool) (p a v : Nat) (upper : Bool) | take (drain : Bool) (d : Nat) | done | exit | nop
  -- hinges, traps, grace, time, control registers
  | hinge (i : Nat) | mig (d : Nat) (k : Bool) | trap (c : Nat) | tret
  | qpoint | gwait (d : Nat) | gdefer (a b : Nat) | gnum (d : Nat)
  | clock (d : Nat) | mark (snap : Bool) (c : Nat) | crd (d n : Nat) | cwr (a n : Nat)
  -- vector integers, R173
  | vadd (h : VH) (t : Ty) (d : Nat) (a b : Opnd) | vsub (h : VH) (t : Ty) (d : Nat) (a b : Opnd)
  | vmul (h : VH) (t : Ty) (d : Nat) (a b : Opnd) | vmulh (h : VH) (t : Ty) (d : Nat) (a b : Opnd)
  | vmad (h : VH) (t : Ty) (d : Nat) (a b c : Opnd) | vdiv (h : VH) (t : Ty) (d : Nat) (a b : Opnd)
  | vrem (h : VH) (t : Ty) (d : Nat) (a b : Opnd) | vmin (h : VH) (t : Ty) (d : Nat) (a b : Opnd)
  | vmax (h : VH) (t : Ty) (d : Nat) (a b : Opnd) | vabs (h : VH) (t : Ty) (d : Nat) (a : Opnd)
  | vneg (h : VH) (t : Ty) (d : Nat) (a : Opnd) | vclz (h : VH) (t : Ty) (d : Nat) (a : Opnd)
  | vpop (h : VH) (t : Ty) (d : Nat) (a : Opnd)
  -- logic, shifts, fields, moves, compares, R174 to R180
  | vand (h : VH) (t : Ty) (d : Nat) (a b : Opnd) | vor (h : VH) (t : Ty) (d : Nat) (a b : Opnd)
  | vxor (h : VH) (t : Ty) (d : Nat) (a b : Opnd) | vnot (h : VH) (t : Ty) (d : Nat) (a : Opnd)
  | vshl (h : VH) (t : Ty) (d : Nat) (a b : Opnd) | vshr (h : VH) (t : Ty) (d : Nat) (a b : Opnd)
  | vsra (h : VH) (t : Ty) (d : Nat) (a b : Opnd) | vbfe (h : VH) (t : Ty) (d : Nat) (a : Opnd) (pos len : Nat)
  | vbfi (h : VH) (t : Ty) (d : Nat) (a : Opnd) (pos len : Nat) | vsel (h : VH) (t : Ty) (d : Nat) (a b c : Opnd) (p : Nat)
  | vmov (h : VH) (t : Ty) (d : Nat) (a : Opnd) | vmovi (h : VH) (t : Ty) (d : Nat) (x : BitVec 32)
  | vidxRead (h : VH) (t : Ty) (d j off : Nat) | vidxWrite (h : VH) (t : Ty) (j off : Nat) (a : Opnd)
  | vcmp (h : VH) (t : Ty) (p c : Nat) (a b : Opnd)
  -- intervals, R185 to R196
  | xadd (h : VH) (t : Ty) (d : Nat) (a b : Opnd) | xsub (h : VH) (t : Ty) (d : Nat) (a b : Opnd)
  | xmul (h : VH) (t : Ty) (d : Nat) (a b : Opnd) | xfma (h : VH) (t : Ty) (d : Nat) (a b c : Opnd)
  | xdiv (h : VH) (t : Ty) (d : Nat) (a b : Opnd) | xrecip (h : VH) (t : Ty) (d : Nat) (a : Opnd)
  | xsqr (h : VH) (t : Ty) (d : Nat) (a : Opnd) | xsqrt (h : VH) (t : Ty) (d : Nat) (a : Opnd)
  | xabs (h : VH) (t : Ty) (d : Nat) (a : Opnd) | xneg (h : VH) (t : Ty) (d : Nat) (a : Opnd)
  | xmin (h : VH) (t : Ty) (d : Nat) (a b : Opnd) | xmax (h : VH) (t : Ty) (d : Nat) (a b : Opnd)
  | xhull (h : VH) (t : Ty) (d : Nat) (a b : Opnd) | xmeet (h : VH) (t : Ty) (d : Nat) (a b : Opnd)
  | xexp (h : VH) (t : Ty) (d : Nat) (a : Opnd) | xexp2 (h : VH) (t : Ty) (d : Nat) (a : Opnd)
  | xlog (h : VH) (t : Ty) (d : Nat) (a : Opnd) | xlog2 (h : VH) (t : Ty) (d : Nat) (a : Opnd)
  | xsin (h : VH) (t : Ty) (d : Nat) (a : Opnd) | xcos (h : VH) (t : Ty) (d : Nat) (a : Opnd)
  | xtanh (h : VH) (t : Ty) (d : Nat) (a : Opnd)
  | xmid (h : VH) (t : Ty) (d : Nat) (a : Opnd) | xrad (h : VH) (t : Ty) (d : Nat) (a : Opnd)
  | xwid (h : VH) (t : Ty) (d : Nat) (a : Opnd) | xlo (h : VH) (t : Ty) (d : Nat) (a : Opnd)
  | xhi (h : VH) (t : Ty) (d : Nat) (a : Opnd) | xmake (h : VH) (t : Ty) (d : Nat) (a b : Opnd)
  | xcls (h : VH) (t : Ty) (d : Nat) (a : Opnd) | xcmp (h : VH) (t : Ty) (p c : Nat) (a b : Opnd)
  | xdec (h : VH) (op dec : Nat) | xbis (h : VH) (t : Ty) (d : Nat) (a : Opnd) (upper pen : Bool) (p : Nat)
  -- predicates, R199
  | qand (h : VH) (pd pa pb : Nat) | qor (h : VH) (pd pa pb : Nat) | qxor (h : VH) (pd pa pb : Nat) | qnot (h : VH) (pd pa : Nat)
  | qset (h : VH) (pd val : Nat) | qfix (h : VH) (pd pa tgt : Nat) | qmov (h : VH) (pd pa : Nat)
  | qmovToScalar (h : VH) (d pa : Nat) | qmovFromScalar (h : VH) (pd a : Nat)
  -- cross-lane words, R202 to R207
  | vbal (h : VH) (d pa : Nat) | vvote (h : VH) (op pd pa : Nat)
  | vshfIdx (h : VH) (t : Ty) (d : Nat) (a b : Opnd) | vshfXor (h : VH) (t : Ty) (d : Nat) (a : Opnd) (dist : Nat)
  | vshfUp (h : VH) (t : Ty) (d : Nat) (a : Opnd) (dist : Nat) | vshfDn (h : VH) (t : Ty) (d : Nat) (a : Opnd) (dist : Nat)
  | vbcast (h : VH) (t : Ty) (d a : Opnd) (src : Nat) (sel : Option Nat) | vred (h : VH) (op : Nat) (t : Ty) (d a : Opnd)
  -- conversions, R208 to R214
  | cvt (h : VH) (df sf part : Nat) (d : Nat) (a : Opnd) | qnt (h : VH) (tgt scf : Nat) (d : Nat) (a : Opnd)
  | dqnt (h : VH) (tgt scf : Nat) (d : Nat) (a : Opnd)
  -- matrix words, R238
  | mloop (f : MloopF) | mrdy (st : Nat) | mwait (st tile : Nat) (all : Bool) | mzero (st tile : Nat) | mld (st tile a : Nat)
  | mdrn (f : MdrnF) | acrd (h : VH) (st tile d : Nat) (row : Nat ⊕ Nat) | acwr (h : VH) (st tile a : Nat) (row : Nat ⊕ Nat)
  | mpairOn (d : Nat) | mpairOff | mcfg (sel a : Nat)
  -- memory words, R315
  | ldg (h : VH) (t : Ty) (x : MemX) (d : Nat) (a : Opnd) | stg (h : VH) (t : Ty) (x : MemX) (a b : Opnd)
  | lds (h : VH) (t : Ty) (x : MemX) (d : Nat) (a : Opnd) | sts (h : VH) (t : Ty) (x : MemX) (a b : Opnd)
  | ldfeKeep (h : VH) (t : Ty) (x : MemX) (d : Nat) (a : Opnd) | ldfeTake (h : VH) (t : Ty) (x : MemX) (d : Nat) (a : Opnd)
  | stfe (h : VH) (t : Ty) (x : MemX) (a b : Opnd) | pst (h : VH) (t : Ty) (x : MemX) (a b : Opnd) (c : Nat)
  | pfch (h : VH) (x : MemX) (a : Opnd) | drop (h : VH) (x : MemX) (a : Opnd)
  | atom (h : VH) (t : Ty) (x : MemX) (d a b c : Opnd)
  | fence (st scope order : Nat) | fencex (scope order : Nat) (mask : BitVec 16) | cpy (f : CpyF) | cwait (st : Nat)
  -- forks, transactions, lane status
  | spawn (h : VH) (a : Nat) (b : Opnd) | tbegin (h : VH) (st d : Nat) | tcommit (h : VH) (st : Nat) | tabort (h : VH) (code : Nat)
  | tstat (h : VH) (d : Nat) | crdV (h : VH) (d : Nat) | cwrV (h : VH) (a : Opnd)
  -- events of the issue machinery and the engines
  | countedResultWrite (group cls : Nat)
  | matrixKStep (core idx : Nat) | matrixCommandRetire (core idx : Nat) | pairAgreement (core idx : Nat) | mpairJoin (teamA teamB : Nat)
  | copyCommandComplete (core : Nat) | ldfeServe (core granule : Nat)
  | takeFill (group sp : Nat) | takeDrainRelease (ctx : Nat) | groupRelease (group : Nat) | irrevocableTokenGrant (ctx : Nat)
  | graceBoost (ctx : Nat) | graceFreePush (ctx die : Nat) | graceCompletion (ctx : Nat)
  -- launches, bins, pools
  | launchBlockRead (ctx slot : Nat) | queuedLaunchStart (ctx : Nat)
  | launchComplete (ctx : Nat)
  | binTimerExpiry (core bin : Nat) | binFire (core bin : Nat) | binWaitExpiry (core bin : Nat) | ineligibleBinMove (core bin : Nat)
  | binSpill (core bin : Nat) | binRefill (core bin : Nat)
  | stealRequest (ctx die entry : Nat) | stealTransfer (ctx die entry : Nat) | stealRetryTimer (ctx die entry : Nat)
  -- migration, saves, contexts
  | teamMigration (team : Nat) | preemptBudgetExpiry (group : Nat) | teamSave (team : Nat) | teamResume (ctx idx : Nat)
  | contextSave (ctx : Nat) | contextResume (ctx : Nat)
  | sideLogReplay (core idx : Nat)
  -- the home serves a request, R302 and R304
  | getS (line core : Nat) (acq : Bool) (stream : Nat) | getM (line core : Nat) | upg (line core : Nat)
  | putM (line core : Nat) | putO (line core : Nat) | putE (line core : Nat) | push (line core stream : Nat)
  -- the home receives an answer
  | invAck (line core : Nat) | ownerNotice (line core : Nat) | recallData (line core : Nat) | install (line core : Nat) | refuse (line core : Nat)
  -- an L1 receives a message, R301
  | data (line core : Nat) | upgAck (line core : Nat) | inv (line core : Nat) | fwdS (line core : Nat) | fwdM (line core : Nat)
  | fwdPub (line core stream : Nat) | recall (line core : Nat) | fill (line core : Nat) | putAck (line core : Nat)
  | pushDone (line core stream : Nat) | sweep (line core : Nat) | retentionWake (core : Nat)
  -- time limits, errors, and what the host asks of the device
  | issueAgeBound (group sp : Nat) | slackTimeout (req : Nat) | directoryError (line : Nat) | hostHalfData (line half st : Nat)
  | launchItemWrite (ctx slot : Nat) (size : Nat) (item : BitVec 512) | launchSlotStateWrite (ctx slot val : Nat)
  | ctxcfgValidSet (ctx : Nat) (val : BitVec 64) | ctxcfgValidClear (ctx : Nat)
  | priPageRequest | priResponse (ctx page : Nat) (ans : PriAnswer) | atsCompletion (ctx page : Nat) (m : PageMap)
  | atsInvalidationRequest (pasid lo size : Nat) | invalidationCompletion
  | snoopData (line half : Nat) | snoopInvalidate (line half : Nat) | snoopCurrent (line half : Nat)
  | linkLost (line dest link : Nat) | hostLinkDown
  -- peers, host accesses, host registers
  | peerAccessRequest (pa : Nat) (q : PeerReq) | peerResponse (idx : Nat) (ans : PeerAns)
  | hostBar2Access (write : Bool) (pa len : Nat) (bytes : List (BitVec 8)) | bar0BadAccess (acc : BarAccess) (size : Nat)
  | registerWrite (off size : Nat) (val : BitVec 64) | counterClearWrite (off : Nat) (val : BitVec 64) | l2quotaWrite (die : Nat) (val : BitVec 64)
  | keytagWrite (die idx : Nat) (val : BitVec 8) | trcptrHeadWrite (die : Nat) (val : BitVec 64) | secstatClear (val : BitVec 64)
  | snapctlArm | snapctlHosttrig | snapshotLatch | msixUnmask (entry : Nat)
  | mailboxExtend (mr : Nat) (m : List (BitVec 8)) | mailboxAttestation (nonce : List (BitVec 8)) | firmwareUpdate (image : Nat)
  | timeDiscipline (fix : TimeFix) (offset : Nat) | securityAlarm (cause : Nat) | powerOn | bootStageComplete (ok : Bool)
  | islandFrequencyChange (island mhz : Nat) | retentionEntry (core : Nat) | hostLinkRestored | powerRemoved
  deriving DecidableEq, Repr

end Sys2Proof
end

