-- ==== Sys2Proof/WellFormed.lean ====
section
/-! DEFINITION. Well-formed instructions: the field values and operand combinations the encoding tables admit, whatever the group's
allotment and the encoding in use (those two are checked where the word is reached, Decode.lean's legalWord). -/
namespace Sys2Proof

/-- .i32, .n32, .i64, .n64 (R173). -/
def Ty.isInt : Ty → Bool
  | .i32 | .n32 | .i64 | .n64 => true
  | _ => false

/-- TYPE 0 to 5 (R174). -/
def Ty.isWord : Ty → Bool
  | .i32 | .n32 | .i64 | .n64 | .b32 | .b64 => true
  | _ => false

/-- .b32 or .b64. -/
def Ty.isBits : Ty → Bool
  | .b32 | .b64 => true
  | _ => false

/-- TYPE 6 to 9: the interval types (R182). -/
def Ty.isIvl : Ty → Bool
  | .x32 | .x64 | .xb16 | .xh16 => true
  | _ => false

/-- The width w of R172. -/
def Ty.width : Ty → Nat
  | .i32 | .n32 | .b32 => 32
  | _ => 64

/-- The number names a control register (R71). -/
def cregNamed (n : Nat) : Bool :=
  n ≤ 0x002 || (0x004 ≤ n && n ≤ 0x007) || (0x010 ≤ n && n ≤ 0x016) || n == 0x100 || n == 0x101 || (0x110 ≤ n && n ≤ 0x11F)
/-- It names a read-only register (R71). -/
def cregReadOnly (n : Nat) : Bool := 0x010 ≤ n && n ≤ 0x016

/-- A guard that R84 admits. -/
def VH.ok (h : VH) : Bool := h.g < 16 && h.gs < 7 && (h.gs != 0 || h.g == 0)

/-- A guard that R84 admits on a word whose N must be zero (R83). -/
def VH.okNoN (h : VH) : Bool := h.ok && !h.n

/-- An operand code of R82. -/
def Opnd.ok : Opnd → Bool
  | .v k => k < 768
  | .s k => k < 128
  | .b k => k < 4
  | _ => true

/-- Codes 901 to 903, legal with TYPE 0 to 5 only (R82). -/
def Opnd.isSpecial : Opnd → Bool
  | .lane | .grp | .stage => true
  | _ => false

/-- An operand that may stand for an .x64 pair: an even vector or scalar register, a latch below b3, or zero (R62, R65, R82). -/
def Opnd.pairOk : Opnd → Bool
  | .v k => k % 2 == 0
  | .s k => k % 2 == 0
  | .b k => k != 3
  | _ => true

/-- An address operand of R315: a vector register, a scalar or 900. -/
def Opnd.addrOk : Opnd → Bool
  | .v k => k < 768
  | .s k => k < 128
  | .zero => true
  | _ => false

/-- A scalar code or 900. -/
def Opnd.scalarOrZero : Opnd → Bool
  | .s k => k < 128
  | .zero => true
  | _ => false

/-- A source operand under a TYPE (R82, R62, R182). -/
def Opnd.srcOk (t : Ty) (o : Opnd) : Bool :=
  o.ok && (t.isWord || !o.isSpecial) && (t != .x64 || o.pairOk)

/-- A vector destination under a TYPE (R62). -/
def vdstOk (t : Ty) (d : Nat) : Bool := d < 768 && (t != .x64 || d % 2 == 0)

/-- FORM and TYPE agree as R143 gives. -/
def formOk (t : Ty) (form : Nat) : Bool :=
  form == 0 || (form == 1 && (t == .x32 || t == .x64)) || (2 ≤ form && form ≤ 5 && t == .x32)

/-- SCOPE is zero under plain ORDER (R315). -/
def scopeOk (order scope top : Nat) : Bool := scope ≤ top && (order != 0 || scope == 0)

/-- ORDER of a load: plain, acquire, sc (R315). -/
def loadOrder (o : Nat) : Bool := o == 0 || o == 1 || o == 4
/-- ORDER of a store: plain, release, sc (R315). -/
def storeOrder (o : Nat) : Bool := o == 0 || o == 2 || o == 4

/-- TYPE of an atom's AOP (R325). -/
def aopOk (aop : Nat) (t : Ty) : Bool :=
  match aop with
  | 0 => t.isInt || t == .x32 || t == .x64
  | 1 => t.isInt
  | 2 => t.isInt
  | 3 => t.isWord
  | 4 => t.isWord || t == .x32 || t == .x64
  | 5 => t.isWord
  | 6 => t.isBits
  | 7 => t == .b64 || t == .x64
  | _ => false

/-- OP and TYPE of vred (R206). -/
def redOk (op : Nat) (t : Ty) : Bool :=
  match op with
  | 0 => t.isInt
  | 1 => t.isInt
  | 2 => t.isInt
  | 3 => t.isWord
  | 4 => t.isWord
  | 5 => t.isWord
  | 6 => t.isIvl
  | 7 => t.isIvl
  | _ => false

/-- A cvt format code of R208. -/
def cvtFmtOk (f : Nat) : Bool :=
  f ≤ 3 || (6 ≤ f && f ≤ 14) || (16 ≤ f && f ≤ 19)

/-- Values per element of a cvt format (R208). -/
def cvtCount (f : Nat) : Nat :=
  match f with
  | 8 => 2
  | 9 => 2
  | 14 => 2
  | 10 => 8
  | 11 => 8
  | 12 => 8
  | 13 => 8
  | 18 => 4
  | 19 => 4
  | _ => 1

/-- PART is below the ratio of the two counts, and zero where they are equal (R209). -/
def cvtPartOk (df sf part : Nat) : Bool :=
  let cs := cvtCount sf
  let cd := cvtCount df
  if cs == cd then part == 0 else if cd < cs then part < cs / cd else part < cd / cs

/-- A cvt source format that is an integer format (R208). -/
def cvtIntFmt (f : Nat) : Bool := f ≤ 3 || f == 13

/-- The pairings of R89 of matrix formats: 0 k8, 1 e4, 2 e5, 3 i8, 4 bf16, 5 f16, 6 mp16. -/
def mfmtOk (a b : Nat) : Bool :=
  (a ≤ 2 && b ≤ 2) || (a == 3 && b == 3) || ((a == 4 || a == 5) && (b == 4 || b == 5)) || (a == 6 && b == 6)

/-- A matrix operand: a fragment base that is a multiple of 8, or a descriptor pair s1 to s126 (R220, R240). -/
def mopndOk (src : Bool) (k : Nat) : Bool := if src then 1 ≤ k && k ≤ 126 else k < 768 && k % 8 == 0

/-- REDOP and TYPE of cpy (R332). -/
def redopOk (r : Nat) (t : Ty) : Bool :=
  match r with
  | 0 => t == .b64
  | 1 => t.isInt
  | 2 => t.isInt
  | 3 => t.isInt
  | 4 => t == .x32 || t == .x64
  | 5 => t == .x32 || t == .x64
  | _ => false

/-- Two-source vector word with TYPE 0 to 5 or a subset (R173, R174). -/
def v2ok (tys : Ty → Bool) (h : VH) (t : Ty) (d : Nat) (a b : Opnd) : Bool :=
  h.ok && tys t && vdstOk t d && a.srcOk t && b.srcOk t

/-- One-source vector word. -/
def v1ok (tys : Ty → Bool) (h : VH) (t : Ty) (d : Nat) (a : Opnd) : Bool := h.ok && tys t && vdstOk t d && a.srcOk t

/-- Three-source vector word. -/
def v3ok (tys : Ty → Bool) (h : VH) (t : Ty) (d : Nat) (a b c : Opnd) : Bool :=
  h.ok && tys t && vdstOk t d && a.srcOk t && b.srcOk t && c.srcOk t

/-- Field of vbfe and vbfi: 1 ≤ LEN and POS + LEN ≤ w (R175). -/
def bfOk (t : Ty) (pos len : Nat) : Bool := pos < 64 && 1 ≤ len && len < 128 && pos + len ≤ t.width

/-- Stream, scope, order, hint and form bits within their field widths, for a memory word (R87). -/
def MemX.ok (x : MemX) (order : Nat → Bool) (top : Nat) (hint : Nat → Bool) (t : Ty) : Bool :=
  x.stream < 16 && order x.order && scopeOk x.order x.scope top && hint x.hint && formOk t x.form

/-- A plain memory word without ORDER and SCOPE (R315). -/
def MemX.plainOk (x : MemX) (hint : Nat → Bool) (t : Ty) : Bool := x.ok (· == 0) 0 hint t

def loadHint (o h : Nat) : Bool := h == 0 || (h == 1 && o == 0) || h == 2 || h == 3 || h == 4 || h == 6
def storeHint (h : Nat) : Bool := h == 0 || h == 2 || h == 3 || h == 4 || h == 6
def pfchHint (h : Nat) : Bool := h == 0 || h == 1 || h == 3 || h == 4 || h == 6

/-- Bytes of an atom's lane (R325). -/
def atomBytes (t : Ty) : Nat := match t with
  | .i32 | .n32 | .b32 => 4
  | .x64 => 16
  | _ => 8

/-- The operand rules of atom (R325, R337). -/
def atomOk (t : Ty) (x : MemX) (d a b c : Opnd) : Bool :=
  x.stream < 16 && x.order ≤ 4 && scopeOk x.order x.scope 5 && x.hint ≤ 2 && aopOk x.form t && a.addrOk && b.srcOk t && c.srcOk t &&
  (x.form == 7 || c == .zero) &&
  (match d with
   | .v k => vdstOk t k
   | .s k => 1 ≤ k && k ≤ 126 && (t != .x64 || k % 2 == 0) && a.scalarOrZero && b.scalarOrZero && c.scalarOrZero
   | .zero => true
   | _ => false)

/-- Drain fields (R247, R250). -/
def MdrnF.ok (f : MdrnF) : Bool :=
  f.stream < 16 && f.tile < 32 && f.a < 128 && f.mode ≤ 2 && f.qtgt ≤ 2 && f.qscf ≤ 1 && (f.qnt || (f.qtgt == 0 && f.qscf == 0)) &&
  f.row0 < 64 && f.nrows < 64 && f.row0 + f.nrows ≤ 63

def rowOk : Nat ⊕ Nat → Bool
  | .inl r => r < 64
  | .inr k => k < 128

/-- An event row of the table: a step of the device that no word encodes. -/
def Instr.isEvent : Instr → Bool
  | .issueAgeBound _ _ | .countedResultWrite _ _ | .matrixKStep _ _ | .matrixCommandRetire _ _ | .pairAgreement _ _ | .mpairJoin _ _
  | .copyCommandComplete _ | .ldfeServe _ _ | .takeFill _ _ | .takeDrainRelease _ | .groupRelease _ | .irrevocableTokenGrant _
  | .graceBoost _ | .graceFreePush _ _ | .graceCompletion _ | .launchItemWrite _ _ _ _ | .launchBlockRead _ _ | .queuedLaunchStart _
  | .launchComplete _ | .launchSlotStateWrite _ _ _ | .binTimerExpiry _ _ | .binFire _ _ | .binWaitExpiry _ _ | .ineligibleBinMove _ _
  | .binSpill _ _ | .binRefill _ _ | .stealRequest _ _ _ | .stealTransfer _ _ _ | .stealRetryTimer _ _ _ | .slackTimeout _
  | .teamMigration _ | .preemptBudgetExpiry _ | .teamSave _ | .teamResume _ _ | .contextSave _ | .contextResume _ | .ctxcfgValidSet _ _
  | .ctxcfgValidClear _ | .priPageRequest | .priResponse _ _ _ | .atsCompletion _ _ _ | .atsInvalidationRequest _ _ _
  | .invalidationCompletion | .sideLogReplay _ _ | .getS _ _ _ _ | .getM _ _ | .upg _ _ | .putM _ _ | .putO _ _ | .putE _ _ | .push _ _ _
  | .invAck _ _ | .ownerNotice _ _ | .recallData _ _ | .install _ _ | .refuse _ _ | .data _ _ | .upgAck _ _ | .inv _ _ | .fwdS _ _
  | .fwdM _ _ | .fwdPub _ _ _ | .recall _ _ | .fill _ _ | .putAck _ _ | .pushDone _ _ _ | .sweep _ _ | .directoryError _ | .retentionWake _
  | .hostHalfData _ _ _ | .snoopData _ _ | .snoopInvalidate _ _ | .snoopCurrent _ _ | .linkLost _ _ _ | .hostLinkDown
  | .peerAccessRequest _ _ | .peerResponse _ _ | .hostBar2Access _ _ _ _ | .bar0BadAccess _ _ | .registerWrite _ _ _
  | .counterClearWrite _ _ | .l2quotaWrite _ _ | .keytagWrite _ _ _ | .trcptrHeadWrite _ _ | .secstatClear _ | .snapctlArm
  | .snapctlHosttrig | .snapshotLatch | .msixUnmask _ | .mailboxExtend _ _ | .mailboxAttestation _ | .firmwareUpdate _
  | .timeDiscipline _ _ | .securityAlarm _ | .powerOn | .bootStageComplete _ | .islandFrequencyChange _ _ | .retentionEntry _
  | .hostLinkRestored | .powerRemoved => true
  | _ => false

/-- An instruction whose every field the encoding tables admit. Event rows have no encoding; they are well formed as they stand. DESIGN CHOICE
(log 76): B of vshf.idx may be a bypass latch, which R82 makes a source of the L-encoding and the row of R204 does not name. -/
def Instr.wellFormed : Instr → Bool
  | .sadd d a b | .ssub d a b | .smul d a b | .smulh d a b | .sdiv d a b | .srem d a b | .sand d a b | .sor d a b | .sxor d a b
  | .sshl d a b | .sshr d a b | .ssra d a b | .smin d a b | .smax d a b | .smulhN64 d a b | .sdivN64 d a b | .sremN64 d a b
  | .sminN64 d a b | .smaxN64 d a b | .ssel d a b => d < 128 && a < 128 && b < 128
  | .sclz d a | .spop d a | .smov d a => d < 128 && a < 128
  | .saddImm d a _ | .sandImm d a _ | .sorImm d a _ | .sxorImm d a _ | .sld d a _ | .sst d a _ => d < 128 && a < 128
  | .sshlImm d a c | .sshrImm d a c | .ssraImm d a c => d < 128 && a < 128 && c < 64
  | .sli d _ | .slih d _ => d < 128
  | .scmp c d a b => c < 10 && d < 128 && a < 128 && b < 128
  | .br _ => true
  | .bc c a _ => c < 6 && a < 128
  | .bq s p _ => 1 ≤ s && s ≤ 6 && p < 16
  | .bq3 p f _ _ => p < 16 && f < 3
  | .call a _ => a < 128
  | .ret a => a < 128
  | .jmpx d a => d < 128 && a < 128
  | .waitc vm sm as xl => vm < 64 && sm < 64 && as < 64 && xl < 64
  | .venq c o => 1 ≤ c && c ≤ 64 && o < 524288
  | .nbarImm c i => 1 ≤ c && c < 64 && i < 16
  | .nbarReg a i => 1 ≤ a && a < 128 && i < 16
  | .tbar => true
  | .qbar m => m < 32
  | .split pen p a v _ => p < 16 && (pen || p == 0) && a < 128 && v + 6 < 768
  | .take _ d => d < 128
  | .done | .exit | .nop => true
  | .hinge i => i < 65535
  | .mig d _ => d < 128
  | .trap c => c < 1048576
  | .tret | .qpoint => true
  | .gwait d => d < 128
  | .gdefer a b => a < 128 && b < 128
  | .gnum d | .clock d => d < 128
  | .mark _ c => c < 524288
  | .crd d n => d < 128 && cregNamed n
  | .cwr a n => a < 128 && cregNamed n && !cregReadOnly n
  | .vadd h t d a b | .vsub h t d a b | .vmul h t d a b | .vmulh h t d a b | .vdiv h t d a b | .vrem h t d a b | .vmin h t d a b
  | .vmax h t d a b => v2ok Ty.isInt h t d a b
  | .vmad h t d a b c => v3ok Ty.isInt h t d a b c
  | .vabs h t d a => v1ok (fun t => t == .i32 || t == .i64) h t d a
  | .vneg h t d a => v1ok Ty.isInt h t d a
  | .vclz h t d a | .vpop h t d a | .vnot h t d a | .vmov h t d a => v1ok Ty.isWord h t d a
  | .vand h t d a b | .vor h t d a b | .vxor h t d a b | .vshl h t d a b | .vshr h t d a b | .vsra h t d a b => v2ok Ty.isWord h t d a b
  | .vbfe h t d a pos len | .vbfi h t d a pos len => v1ok Ty.isWord h t d a && bfOk t pos len
  | .vsel h t d a b c p => v3ok Ty.isWord h t d a b c && p < 16
  | .vmovi h t d _ => h.ok && t.isWord && d < 768
  | .vidxRead h t d j off => h.ok && t.isBits && d < 768 && j < 4 && off < 1024
  | .vidxWrite h t j off a => h.okNoN && t.isBits && j < 4 && off < 1024 && a.srcOk t
  | .vcmp h t p c a b => h.okNoN && t.isWord && p < 16 && c < 6 && (!t.isBits || c < 2) && a.srcOk t && b.srcOk t
  | .xadd h t d a b | .xsub h t d a b | .xmul h t d a b | .xdiv h t d a b | .xmin h t d a b | .xmax h t d a b | .xhull h t d a b
  | .xmeet h t d a b | .xmake h t d a b => v2ok Ty.isIvl h t d a b
  | .xfma h t d a b c => v3ok Ty.isIvl h t d a b c
  | .xrecip h t d a | .xsqr h t d a | .xsqrt h t d a | .xabs h t d a | .xneg h t d a | .xexp h t d a | .xexp2 h t d a | .xlog h t d a
  | .xlog2 h t d a | .xsin h t d a | .xcos h t d a | .xtanh h t d a | .xmid h t d a | .xrad h t d a | .xwid h t d a | .xlo h t d a
  | .xhi h t d a => v1ok Ty.isIvl h t d a
  | .xcls h t d a => h.ok && t.isIvl && d < 768 && a.srcOk t
  | .xcmp h t p c a b => h.okNoN && (t == .x32 || t == .x64) && p < 16 && c < 9 && a.srcOk t && b.srcOk t
  | .xdec h op dec => h.okNoN && op < 2 && dec < 4
  | .xbis h t d a _ pen p => v1ok Ty.isIvl h t d a && p < 16 && (pen || p == 0) && (!pen || t == .x32 || t == .x64)
  | .qand h pd pa pb | .qor h pd pa pb | .qxor h pd pa pb => h.okNoN && pd < 16 && pa < 16 && pb < 16
  | .qnot h pd pa | .qmov h pd pa => h.okNoN && pd < 16 && pa < 16
  | .qset h pd val => h.okNoN && pd < 16 && val < 3
  | .qfix h pd pa tgt => h.okNoN && pd < 16 && pa < 16 && tgt < 2
  | .qmovToScalar h d pa => h.okNoN && d < 128 && pa < 16
  | .qmovFromScalar h pd a => h.okNoN && pd < 16 && a < 128
  | .vbal h d pa => h.okNoN && 1 ≤ d && d ≤ 126 && pa < 16
  | .vvote h op pd pa => h.okNoN && op < 3 && pd < 16 && pa < 16
  | .vshfIdx h t d a b => v2ok Ty.isBits h t d a b
  | .vshfXor h t d a dist | .vshfUp h t d a dist | .vshfDn h t d a dist => v1ok Ty.isBits h t d a && dist < 32
  | .vbcast h t d a src sel =>
    h.ok && t.isBits && a.srcOk t && src < 32 && (sel.isNone || src == 0) && (sel.all (· < 128)) &&
    (match d with | .v k => k < 768 | .s k => k < 128 && !h.n | _ => false)
  | .vred h op t d a =>
    h.ok && redOk op t && a.srcOk t &&
    (match d with | .v k => vdstOk t k | .s k => k < 128 && !h.n && (t != .x64 || k % 2 == 0) | _ => false)
  | .cvt h df sf part d a =>
    h.ok && cvtFmtOk df && cvtFmtOk sf && cvtPartOk df sf part && d < 768 && (df != 7 || d % 2 == 0) && a.ok &&
    (cvtIntFmt sf || !a.isSpecial) && (sf != 7 || a.pairOk)
  | .qnt h tgt scf d a | .dqnt h tgt scf d a => h.ok && tgt < 3 && scf < 2 && d < 768 && a.srcOk .x32
  | .mloop f =>
    f.stream < 16 && f.tile < 32 && mfmtOk f.afmt f.bfmt && f.ksteps < 4096 && mopndOk f.asrc f.a && mopndOk f.bsrc f.b &&
    f.c.all (· < 128)
  | .mrdy st => st < 16
  | .mwait st tile all => st < 16 && tile < 32 && (!all || tile == 0)
  | .mzero st tile => st < 16 && tile < 32
  | .mld st tile a => st < 16 && tile < 32 && a < 128
  | .mdrn f => f.ok
  | .acrd h st tile d row => h.okNoN && st < 16 && tile < 32 && d < 767 && rowOk row
  | .acwr h st tile a row => h.okNoN && st < 16 && tile < 32 && a < 767 && rowOk row
  | .mpairOn d => d < 128
  | .mpairOff => true
  | .mcfg sel a => sel < 5 && a < 128
  | .ldg h t x d a => h.ok && x.ok loadOrder 5 (loadHint x.order) t && vdstOk t d && a.addrOk
  | .stg h t x a b => h.okNoN && x.ok storeOrder 5 storeHint t && a.addrOk && b.srcOk t
  | .lds h t x d a => h.ok && x.ok loadOrder 2 (· == 0) t && vdstOk t d && a.addrOk
  | .sts h t x a b => h.okNoN && x.ok storeOrder 2 (· == 0) t && a.addrOk && b.srcOk t
  | .ldfeKeep h t x d a => h.ok && x.plainOk (· == 0) t && vdstOk t d && a.addrOk
  | .ldfeTake h t x d a => h.ok && x.plainOk (· == 1) t && vdstOk t d && a.addrOk
  | .stfe h t x a b => h.okNoN && x.plainOk (· == 0) t && a.addrOk && b.srcOk t
  | .pst h t x a b c => h.okNoN && x.ok (fun o => o == 0 || o == 2) 5 (· == 5) t && a.addrOk && b.srcOk t && c < 128
  | .pfch h x a => h.okNoN && x.plainOk pfchHint .b64 && x.form == 0 && a.addrOk
  | .drop h x a => h.okNoN && x.plainOk (· == 0) .b64 && x.form == 0 && a.addrOk
  | .atom h t x d a b c => h.ok && (!h.n || (match d with | .v _ => true | _ => false)) && atomOk t x d a b c
  | .fence st scope order => st < 16 && scope ≤ 5 && 1 ≤ order && order ≤ 4
  | .fencex scope order mask => order ≤ 4 && scopeOk order scope 5 && mask != 0
  | .cpy f =>
    f.stream < 16 && (f.order == 0 || f.order == 2) && scopeOk f.order f.scope 5 && f.hint ≤ 6 && redopOk f.redop f.t &&
    f.stepid < 16384 && (f.step || f.stepid == 0) && f.dst < 128 && f.src < 128 && f.ctl < 128
  | .cwait st => st < 16
  | .spawn h a b => h.okNoN && a + 6 < 768 && (match b with | .v k => k < 768 | .s k => k < 128 | .zero => true | _ => false)
  | .tbegin h st d => h.okNoN && st < 16 && d < 768
  | .tcommit h st => h.okNoN && st < 16
  | .tabort h code => h.okNoN && code < 256
  | .tstat h d => h.okNoN && d < 768
  | .crdV h d => h.okNoN && d < 768
  | .cwrV h a => h.okNoN && a.ok
  | e => e.isEvent

end Sys2Proof
end

