-- ==== Sys2Proof/Decode.lean ====
section
/-! DEFINITION. Decoding words (R77 to R104, R126, R128), total on any bits, rejecting by name; the encoder; the checks that depend on
the encoding in use and on the group's allotment. -/
namespace Sys2Proof

/-- Why a word is not an instruction (R104). -/
inductive DecErr where
  | reservedMajor    -- an S-word major or V-word major with no instruction
  | reservedMinor    -- a MAJOR/MINOR pair with no instruction
  | reservedFn       -- a reserved fn, cond or selector value
  | badType          -- TYPE 15
  | badOperand       -- operand code 904 to 1023
  | badDest          -- a destination of the wrong class
  | unusedField      -- a non-zero unused field, or an operand field other than 900
  | notWellFormed    -- a combination the instruction's description does not accept
  | vInScalar        -- a V-word in the D scalar stream, or an S-word in the lane section (R97)
  | truncated        -- fewer bytes than the word needs
  deriving DecidableEq, Repr

abbrev Dec := Except DecErr

/-- Bits [hi:lo] of a number, as a number (R3). -/
def bits (w hi lo : Nat) : Nat := w / 2 ^ lo % 2 ^ (hi + 1 - lo)

/-- Bit k of a number. -/
def bitAt (w k : Nat) : Bool := w / 2 ^ k % 2 == 1

/-- The parcel starts a V-word (R91, R97). -/
def isVParcel (p : Nat) : Bool := bits p 31 30 == 3

/-- A condition an encoding requires. -/
def need (b : Bool) (e : DecErr) : Dec Unit := if b then .ok () else .error e

/-- A decoded candidate is an instruction when it is well formed. -/
def checked (i : Instr) : Dec Instr := if i.wellFormed then .ok i else .error .notWellFormed

def Ty.ofCode : Nat → Dec Ty
  | 0 => .ok .i32 | 1 => .ok .n32 | 2 => .ok .i64 | 3 => .ok .n64 | 4 => .ok .b32 | 5 => .ok .b64 | 6 => .ok .x32 | 7 => .ok .x64
  | 8 => .ok .xb16 | 9 => .ok .xh16 | 10 => .ok .k8 | 11 => .ok .e4 | 12 => .ok .e5 | 13 => .ok .i8 | 14 => .ok .mp16
  | _ => .error .badType

def Ty.code : Ty → Nat
  | .i32 => 0 | .n32 => 1 | .i64 => 2 | .n64 => 3 | .b32 => 4 | .b64 => 5 | .x32 => 6 | .x64 => 7
  | .xb16 => 8 | .xh16 => 9 | .k8 => 10 | .e4 => 11 | .e5 => 12 | .i8 => 13 | .mp16 => 14

/-- An operand code (R82). -/
def Opnd.ofCode (c : Nat) : Dec Opnd :=
  if c < 768 then .ok (.v c) else if c < 896 then .ok (.s (c - 768)) else if c < 900 then .ok (.b (c - 896))
  else if c = 900 then .ok .zero else if c = 901 then .ok .lane else if c = 902 then .ok .grp else if c = 903 then .ok .stage
  else .error .badOperand

def Opnd.code : Opnd → Nat
  | .v k => k | .s k => 768 + k | .b k => 896 + k | .zero => 900 | .lane => 901 | .grp => 902 | .stage => 903

/-- The S-word decoder (R77, R126, and each word's own rule). -/
def decodeS (w : Nat) : Dec Instr := do
  let sd := bits w 25 19
  let sa := bits w 18 12
  let sb := bits w 11 5
  let fn := bits w 4 0
  let imm := bits w 11 0
  let i12 := BitVec.ofNat 12 imm
  let i19 := BitVec.ofNat 19 (bits w 18 0)
  let o16 := BitVec.ofNat 16 (bits w 15 0)
  let cond := bits w 18 16
  let fn6 := bits w 25 20
  let imm20 := bits w 19 0
  let sr (k : Nat → Nat → Nat → Instr) : Dec Instr := checked (k sd sa sb)
  let un (k : Nat → Nat → Instr) : Dec Instr := do need (sb == 0) .unusedField; checked (k sd sa)
  match bits w 31 26 with
  | 0x01 =>
    match fn with
    | 0 => sr .sadd | 1 => sr .ssub | 2 => sr .smul | 3 => sr .smulh | 4 => sr .sdiv | 5 => sr .srem | 6 => sr .sand | 7 => sr .sor
    | 8 => sr .sxor | 9 => sr .sshl | 10 => sr .sshr | 11 => sr .ssra | 12 => sr .smin | 13 => sr .smax | 14 => un .sclz | 15 => un .spop
    | 16 => un .smov | 17 => sr .smulhN64 | 18 => sr .sdivN64 | 19 => sr .sremN64 | 20 => sr .sminN64 | 21 => sr .smaxN64
    | _ => .error .reservedFn
  | 0x02 => checked (.saddImm sd sa i12)
  | 0x03 => checked (.sandImm sd sa i12)
  | 0x04 => checked (.sorImm sd sa i12)
  | 0x05 => checked (.sxorImm sd sa i12)
  | 0x06 => checked (.sshlImm sd sa imm)
  | 0x07 => checked (.sshrImm sd sa imm)
  | 0x08 => checked (.ssraImm sd sa imm)
  | 0x09 => checked (.sli sd i19)
  | 0x0A => checked (.slih sd i19)
  | 0x0B => checked (.scmp fn sd sa sb)
  | 0x0C => do need (fn == 0) .reservedFn; checked (.ssel sd sa sb)
  | 0x0D => checked (.sld sd sa i12)
  | 0x0E => checked (.sst sd sa i12)
  | 0x10 => do need (sd == 0 && cond == 0) .unusedField; checked (.br o16)
  | 0x11 => checked (.bc cond sd o16)
  | 0x12 => do need (bits w 25 23 == 0) .unusedField; checked (.bq cond (bits w 22 19) o16)
  | 0x13 => checked (.bq3 (bits w 25 22) (bits w 21 20) (BitVec.ofNat 10 (bits w 19 10)) (BitVec.ofNat 10 (bits w 9 0)))
  | 0x14 => do need (cond == 0) .unusedField; checked (.call sd o16)
  | 0x15 =>
    match fn with
    | 0 => do need (sd == 0 && sb == 0) .unusedField; checked (.ret sa)
    | 1 => do need (sb == 0) .unusedField; checked (.jmpx sd sa)
    | _ => .error .reservedFn
  | 0x16 => do need (bits w 1 0 == 0) .unusedField; checked (.waitc fn6 (bits w 19 14) (bits w 13 8) (bits w 7 2))
  | 0x17 => checked (.venq sd (bits w 18 0))
  | 0x18 => do
    need (sd == 0 && bits w 5 4 == 0) .unusedField
    let c := bits w 11 6
    if c == 0 then checked (.nbarReg sa (bits w 3 0)) else do need (sa == 0) .unusedField; checked (.nbarImm c (bits w 3 0))
  | 0x19 =>
    match fn6 with
    | 0 => do need (imm20 == 0) .unusedField; checked .tbar
    | 1 => do need (bits w 19 5 == 0) .unusedField; checked (.qbar (bits w 4 0))
    | _ => .error .reservedFn
  | 0x1A => do
    need (bits w 25 24 == 0 && !bitAt w 0) .unusedField
    checked (.split (bitAt w 23) (bits w 22 19) sa (bits w 11 2) (bitAt w 1))
  | 0x1B =>
    match fn6 with
    | 0 => do need (bits w 19 8 == 0) .unusedField; checked (.take (bitAt w 7) (bits w 6 0))
    | 1 => do need (imm20 == 0) .unusedField; checked .done
    | 2 => do need (imm20 == 0) .unusedField; checked .exit
    | _ => .error .reservedFn
  | 0x1C => do need (fn6 == 0 && imm20 == 0) .unusedField; checked .nop
  | 0x1D => do need (fn6 == 0 && bits w 19 16 == 0) .unusedField; checked (.hinge (bits w 15 0))
  | 0x1E => do need (sa == 0 && bits w 11 1 == 0) .unusedField; checked (.mig sd (bitAt w 0))
  | 0x1F =>
    match fn6 with
    | 0 => checked (.trap imm20)
    | 1 => do need (imm20 == 0) .unusedField; checked .tret
    | _ => .error .reservedFn
  | 0x20 =>
    match fn with
    | 0 => do need (sd == 0 && sa == 0 && sb == 0) .unusedField; checked .qpoint
    | 1 => do need (sa == 0 && sb == 0) .unusedField; checked (.gwait sd)
    | 2 => do need (sd == 0) .unusedField; checked (.gdefer sa sb)
    | 3 => do need (sa == 0 && sb == 0) .unusedField; checked (.gnum sd)
    | _ => .error .reservedFn
  | 0x21 => do need (sa == 0 && sb == 0 && fn == 0) .unusedField; checked (.clock sd)
  | 0x22 => do need (fn6 == 0) .unusedField; checked (.mark (bitAt w 19) (bits w 18 0))
  | 0x2C => do need (sa == 0) .unusedField; checked (.crd sd imm)
  | 0x2D => do need (sd == 0) .unusedField; checked (.cwr sa imm)
  | _ => .error .reservedMajor

/-- The fields of a V-word (R81). -/
structure VF where
  maj : Nat
  ty  : Nat
  d   : Nat
  n   : Bool
  g   : Nat
  gs  : Nat
  a   : Nat
  b   : Nat
  c   : Nat
  mi  : Nat
  x   : Nat
  deriving DecidableEq, Repr

def VF.of (w : Nat) : VF where
  maj := bits w 95 88
  ty := bits w 87 84
  d := bits w 83 74
  n := bitAt w 73
  g := bits w 72 69
  gs := bits w 68 66
  a := bits w 65 56
  b := bits w 55 46
  c := bits w 45 36
  mi := bits w 35 32
  x := bits w 31 0

def VF.h (f : VF) : VH := ⟨f.n, f.g, f.gs⟩

/-- An operand field that the word does not use holds 900 (R82). -/
def unused (c : Nat) : Dec Unit := need (c == 900) .unusedField
/-- A vector register destination. -/
def vreg (c : Nat) : Dec Nat := if c < 768 then .ok c else .error .badDest
/-- A scalar code. -/
def sreg (c : Nat) : Dec Nat := if 768 ≤ c ∧ c < 896 then .ok (c - 768) else .error .badDest
/-- Unused bits of X hold zero (R86). -/
def xzero (x : Nat) : Dec Unit := need (x == 0) .unusedField
/-- A TYPE the word leaves implicit (R114). -/
def tyIs (f : VF) (k : Nat) : Dec Unit := need (f.ty == k) .badType

def shape1 (f : VF) (k : VH → Ty → Nat → Opnd → Instr) : Dec Instr := do
  let t ← Ty.ofCode f.ty; let d ← vreg f.d; let a ← Opnd.ofCode f.a
  unused f.b; unused f.c; xzero f.x; checked (k f.h t d a)

def shape2 (f : VF) (k : VH → Ty → Nat → Opnd → Opnd → Instr) : Dec Instr := do
  let t ← Ty.ofCode f.ty; let d ← vreg f.d; let a ← Opnd.ofCode f.a; let b ← Opnd.ofCode f.b
  unused f.c; xzero f.x; checked (k f.h t d a b)

def shape3 (f : VF) (k : VH → Ty → Nat → Opnd → Opnd → Opnd → Instr) : Dec Instr := do
  let t ← Ty.ofCode f.ty; let d ← vreg f.d; let a ← Opnd.ofCode f.a; let b ← Opnd.ofCode f.b; let c ← Opnd.ofCode f.c
  xzero f.x; checked (k f.h t d a b c)

/-- Predicate words: every operand field 900, X by R198. -/
def shapeQ (f : VF) (k : (pd pa pb sub : Nat) → Dec Instr) : Dec Instr := do
  tyIs f 4; unused f.a; unused f.b; unused f.c; unused f.d; need (bits f.x 31 14 == 0) .unusedField
  k (bits f.x 3 0) (bits f.x 7 4) (bits f.x 11 8) (bits f.x 13 12)

/-- vshf with a distance (R204). -/
def shapeDist (f : VF) (k : VH → Ty → Nat → Opnd → Nat → Instr) : Dec Instr := do
  let t ← Ty.ofCode f.ty; let d ← vreg f.d; let a ← Opnd.ofCode f.a
  unused f.b; unused f.c; need (bits f.x 31 5 == 0) .unusedField; checked (k f.h t d a (bits f.x 4 0))

def memX (x : Nat) : MemX where
  stream := bits x 31 28
  scope := bits x 27 25
  order := bits x 24 22
  hint := bits x 21 19
  form := bits x 18 16
  off := BitVec.ofNat 16 (bits x 15 0)

def shapeLoad (f : VF) (k : VH → Ty → MemX → Nat → Opnd → Instr) : Dec Instr := do
  let t ← Ty.ofCode f.ty; let d ← vreg f.d; let a ← Opnd.ofCode f.a
  unused f.b; unused f.c; checked (k f.h t (memX f.x) d a)

def shapeStore (f : VF) (k : VH → Ty → MemX → Opnd → Opnd → Instr) : Dec Instr := do
  let t ← Ty.ofCode f.ty; unused f.d; let a ← Opnd.ofCode f.a; let b ← Opnd.ofCode f.b
  unused f.c; checked (k f.h t (memX f.x) a b)

def shapeTouch (f : VF) (k : VH → MemX → Opnd → Instr) : Dec Instr := do
  tyIs f 5; unused f.d; let a ← Opnd.ofCode f.a; unused f.b; unused f.c; checked (k f.h (memX f.x) a)

/-- A matrix word carries no guard and no N (R237). -/
def noGuard (f : VF) : Dec Unit := need (!f.n && f.g == 0 && f.gs == 0) .unusedField

def allUnused (f : VF) : Dec Unit := do unused f.d; unused f.a; unused f.b; unused f.c

/-- A matrix operand field of the class its source bit names (R250). -/
def mopnd (src : Bool) (c : Nat) : Dec Nat := if src then sreg c else vreg c

/-- The MODE and TYPE of R89 for a format: (mode, type code). -/
def mfmtMode (fmt : Nat) : Nat × Nat := if fmt = 3 then (2, 0) else if fmt = 6 then (1, 6) else (0, 6)

def decodeMloop (f : VF) : Dec Instr := do
  noGuard f; unused f.d
  let asrc := bitAt f.x 16
  let bsrc := bitAt f.x 15
  let a ← mopnd asrc f.a; let b ← mopnd bsrc f.b
  let c ← if f.c = 900 then pure none else (sreg f.c).map some
  let af := bits f.x 22 20
  need (bits f.x 13 12 == (mfmtMode af).1 && f.ty == (mfmtMode af).2) .badType
  checked (.mloop { stream := bits f.x 31 28, tile := bits f.x 27 23, afmt := af, bfmt := bits f.x 19 17, asrc, bsrc,
                    pair := bitAt f.x 14, ksteps := bits f.x 11 0, a, b, c })

/-- ROWSEL and ROW of acrd and acwr (R238). -/
def rowField (f : VF) : Dec (Nat ⊕ Nat) := do
  need (bits f.x 22 7 == 0) .unusedField
  if bitAt f.x 6 then do need (bits f.x 5 0 == 0) .unusedField; (sreg f.b).map .inr
  else do unused f.b; pure (.inl (bits f.x 5 0))

def decodeMatrix (f : VF) : Dec Instr := do
  let st := bits f.x 31 28
  let tile := bits f.x 27 23
  let low := bits f.x 22 0
  match f.mi with
  | 0 => decodeMloop f
  | 1 => do tyIs f 5; noGuard f; allUnused f; need (low == 0 && tile == 0) .unusedField; checked (.mrdy st)
  | 2 => do tyIs f 5; noGuard f; allUnused f; need (bits f.x 21 0 == 0) .unusedField; checked (.mwait st tile (bitAt f.x 22))
  | 3 => do tyIs f 5; noGuard f; allUnused f; need (low == 0) .unusedField; checked (.mzero st tile)
  | 4 => do tyIs f 5; noGuard f; unused f.d; unused f.b; unused f.c; need (low == 0) .unusedField; checked (.mld st tile (← sreg f.a))
  | 5 => do
    tyIs f 5; noGuard f; unused f.d; unused f.b; unused f.c; need (!bitAt f.x 0) .unusedField
    checked (.mdrn { stream := st, tile, a := (← sreg f.a), mode := bits f.x 22 21, amax := bitAt f.x 20, bias := bitAt f.x 19,
                     act := bitAt f.x 18, qnt := bitAt f.x 17, qtgt := bits f.x 16 15, qscf := bits f.x 14 14, glob := bitAt f.x 13,
                     row0 := bits f.x 12 7, nrows := bits f.x 6 1 })
  | 6 => do tyIs f 5; unused f.a; unused f.c; checked (.acrd f.h st tile (← vreg f.d) (← rowField f))
  | 7 => do tyIs f 5; unused f.d; unused f.c; checked (.acwr f.h st tile (← vreg f.a) (← rowField f))
  | 8 => do
    tyIs f 5; noGuard f; unused f.a; unused f.b; unused f.c; need (st == 0 && tile == 0 && bits f.x 21 0 == 0) .unusedField
    if bitAt f.x 22 then do unused f.d; checked .mpairOff else checked (.mpairOn (← sreg f.d))
  | 9 => do
    tyIs f 5; noGuard f; unused f.d; unused f.b; unused f.c; need (bits f.x 31 3 == 0) .unusedField
    checked (.mcfg (bits f.x 2 0) (← sreg f.a))
  | _ => .error .reservedMinor

def decodeMemory (f : VF) : Dec Instr :=
  match f.mi with
  | 0 => shapeLoad f .ldg
  | 1 => shapeStore f .stg
  | 2 => shapeLoad f .lds
  | 3 => shapeStore f .sts
  | 4 => match bits f.x 21 19 with
    | 0 => shapeLoad f .ldfeKeep
    | 1 => shapeLoad f .ldfeTake
    | _ => .error .reservedFn
  | 5 => shapeStore f .stfe
  | 6 => do
    let t ← Ty.ofCode f.ty; unused f.d; let a ← Opnd.ofCode f.a; let b ← Opnd.ofCode f.b; let c ← sreg f.c
    checked (.pst f.h t (memX f.x) a b c)
  | 7 => shapeTouch f .pfch
  | 8 => shapeTouch f .drop
  | 9 => do
    let t ← Ty.ofCode f.ty; let d ← Opnd.ofCode f.d; let a ← Opnd.ofCode f.a; let b ← Opnd.ofCode f.b; let c ← Opnd.ofCode f.c
    checked (.atom f.h t (memX f.x) d a b c)
  | 10 => do
    tyIs f 5; noGuard f; allUnused f; need (bits f.x 21 0 == 0) .unusedField
    checked (.fence (bits f.x 31 28) (bits f.x 27 25) (bits f.x 24 22))
  | 11 => do
    tyIs f 5; noGuard f; allUnused f; need (bits f.x 31 28 == 0 && bits f.x 21 16 == 0) .unusedField
    checked (.fencex (bits f.x 27 25) (bits f.x 24 22) (BitVec.ofNat 16 (bits f.x 15 0)))
  | 12 => do
    let t ← Ty.ofCode f.ty; noGuard f; unused f.d
    checked (.cpy { t, stream := bits f.x 31 28, scope := bits f.x 27 25, order := bits f.x 24 22, hint := bits f.x 21 19,
                    redop := bits f.x 18 16, fe := bitAt f.x 15, step := bitAt f.x 14, stepid := bits f.x 13 0,
                    dst := (← sreg f.a), src := (← sreg f.b), ctl := (← sreg f.c) })
  | 13 => do tyIs f 5; noGuard f; allUnused f; need (bits f.x 27 0 == 0) .unusedField; checked (.cwait (bits f.x 31 28))
  | _ => .error .reservedMinor

def decodeLane (f : VF) : Dec Instr :=
  match f.mi with
  | 0 => do
    tyIs f 4; let d ← sreg f.d; unused f.a; unused f.b; unused f.c
    need (bits f.x 31 8 == 0 && bits f.x 3 0 == 0) .unusedField; checked (.vbal f.h d (bits f.x 7 4))
  | 1 => shapeQ f fun pd pa pb sub => do need (pb == 0) .unusedField; checked (.vvote f.h sub pd pa)
  | 2 => shape2 f .vshfIdx
  | 3 => shapeDist f .vshfXor
  | 4 => shapeDist f .vshfUp
  | 5 => shapeDist f .vshfDn
  | 6 => do
    let t ← Ty.ofCode f.ty; let d ← Opnd.ofCode f.d; let a ← Opnd.ofCode f.a
    unused f.c; need (bits f.x 31 6 == 0) .unusedField
    if bitAt f.x 5 then do checked (.vbcast f.h t d a (bits f.x 4 0) (some (← sreg f.b)))
    else do unused f.b; checked (.vbcast f.h t d a (bits f.x 4 0) none)
  | 7 => do
    let t ← Ty.ofCode f.ty; let d ← Opnd.ofCode f.d; let a ← Opnd.ofCode f.a
    unused f.b; unused f.c; need (bits f.x 31 4 == 0) .unusedField; checked (.vred f.h (bits f.x 3 0) t d a)
  | _ => .error .reservedMinor

def decodePred (f : VF) : Dec Instr :=
  match f.mi with
  | 0 => shapeQ f fun pd pa pb sub => do need (sub == 0) .reservedFn; checked (.qand f.h pd pa pb)
  | 1 => shapeQ f fun pd pa pb sub => do need (sub == 0) .reservedFn; checked (.qor f.h pd pa pb)
  | 2 => shapeQ f fun pd pa pb sub => do need (sub == 0) .reservedFn; checked (.qxor f.h pd pa pb)
  | 3 => shapeQ f fun pd pa pb sub => do need (sub == 0 && pb == 0) .reservedFn; checked (.qnot f.h pd pa)
  | 4 => shapeQ f fun pd pa pb sub => do need (pa == 0 && pb == 0) .unusedField; checked (.qset f.h pd sub)
  | 5 => shapeQ f fun pd pa pb sub => do need (pb == 0) .unusedField; checked (.qfix f.h pd pa sub)
  | 6 => do
    tyIs f 4; unused f.b; unused f.c; need (bits f.x 31 14 == 0 && bits f.x 11 8 == 0) .unusedField
    let pd := bits f.x 3 0
    let pa := bits f.x 7 4
    match bits f.x 13 12 with
    | 0 => do unused f.d; unused f.a; checked (.qmov f.h pd pa)
    | 1 => do unused f.a; need (pd == 0) .unusedField; checked (.qmovToScalar f.h (← sreg f.d) pa)
    | 2 => do unused f.d; need (pa == 0) .unusedField; checked (.qmovFromScalar f.h pd (← sreg f.a))
    | _ => .error .reservedFn
  | _ => .error .reservedMinor

/-- The fields of qnt and dqnt (R213). -/
def shapeQnt (f : VF) (k : VH → Nat → Nat → Nat → Opnd → Instr) : Dec Instr := do
  tyIs f 6; let d ← vreg f.d; let a ← Opnd.ofCode f.a; unused f.b; unused f.c
  need (bits f.x 31 3 == 0) .unusedField; checked (k f.h (bits f.x 1 0) (bits f.x 2 2) d a)

/-- The V-word decoder (R81, R128, and each word's own rule). w is the 96-bit word, bit 95 most significant. -/
def decodeV (w : Nat) : Dec Instr :=
  let f := VF.of w
  match f.maj with
  | 0xC0 =>
    match f.mi with
    | 0 => shape2 f .vadd | 1 => shape2 f .vsub | 2 => shape2 f .vmul | 3 => shape2 f .vmulh | 4 => shape3 f .vmad | 5 => shape2 f .vdiv
    | 6 => shape2 f .vrem | 7 => shape2 f .vmin | 8 => shape2 f .vmax | 9 => shape1 f .vabs | 10 => shape1 f .vneg | 11 => shape1 f .vclz
    | 12 => shape1 f .vpop | _ => .error .reservedMinor
  | 0xC1 =>
    match f.mi with
    | 0 => shape2 f .vand | 1 => shape2 f .vor | 2 => shape2 f .vxor | 3 => shape1 f .vnot | 4 => shape2 f .vshl | 5 => shape2 f .vshr
    | 6 => shape2 f .vsra
    | 7 => do
      let t ← Ty.ofCode f.ty; let d ← vreg f.d; let a ← Opnd.ofCode f.a; unused f.b; unused f.c
      need (bits f.x 31 15 == 0 && bits f.x 7 6 == 0) .unusedField; checked (.vbfe f.h t d a (bits f.x 5 0) (bits f.x 14 8))
    | 8 => do
      let t ← Ty.ofCode f.ty; let d ← vreg f.d; let a ← Opnd.ofCode f.a; unused f.b; unused f.c
      need (bits f.x 31 15 == 0 && bits f.x 7 6 == 0) .unusedField; checked (.vbfi f.h t d a (bits f.x 5 0) (bits f.x 14 8))
    | 9 => do
      let t ← Ty.ofCode f.ty; let d ← vreg f.d; let a ← Opnd.ofCode f.a; let b ← Opnd.ofCode f.b; let c ← Opnd.ofCode f.c
      need (bits f.x 31 4 == 0) .unusedField; checked (.vsel f.h t d a b c (bits f.x 3 0))
    | 10 => shape1 f .vmov
    | 11 => do
      let t ← Ty.ofCode f.ty; let d ← vreg f.d; unused f.a; unused f.b; unused f.c; checked (.vmovi f.h t d (BitVec.ofNat 32 f.x))
    | 12 => do
      let t ← Ty.ofCode f.ty; unused f.b; unused f.c; need (bits f.x 31 14 == 0 && !bitAt f.x 3) .unusedField
      if bitAt f.x 2 then do unused f.d; checked (.vidxWrite f.h t (bits f.x 1 0) (bits f.x 13 4) (← Opnd.ofCode f.a))
      else do unused f.a; checked (.vidxRead f.h t (← vreg f.d) (bits f.x 1 0) (bits f.x 13 4))
    | 13 => do
      let t ← Ty.ofCode f.ty; unused f.d; let a ← Opnd.ofCode f.a; let b ← Opnd.ofCode f.b; unused f.c
      need (bits f.x 31 8 == 0) .unusedField; checked (.vcmp f.h t (bits f.x 3 0) (bits f.x 7 4) a b)
    | _ => .error .reservedMinor
  | 0xC4 =>
    match f.mi with
    | 0 => shape2 f .xadd | 1 => shape2 f .xsub | 2 => shape2 f .xmul | 3 => shape3 f .xfma | 4 => shape2 f .xdiv | 5 => shape1 f .xrecip
    | 6 => shape1 f .xsqr | 7 => shape1 f .xsqrt | 8 => shape1 f .xabs | 9 => shape1 f .xneg | 10 => shape2 f .xmin | 11 => shape2 f .xmax
    | 12 => shape2 f .xhull | 13 => shape2 f .xmeet | _ => .error .reservedMinor
  | 0xC5 =>
    match f.mi with
    | 0 => shape1 f .xexp | 1 => shape1 f .xexp2 | 2 => shape1 f .xlog | 3 => shape1 f .xlog2 | 4 => shape1 f .xsin | 5 => shape1 f .xcos
    | 6 => shape1 f .xtanh | _ => .error .reservedMinor
  | 0xC6 =>
    match f.mi with
    | 0 => shape1 f .xmid | 1 => shape1 f .xrad | 2 => shape1 f .xwid | 3 => shape1 f .xlo | 4 => shape1 f .xhi | 5 => shape2 f .xmake
    | 6 => shape1 f .xcls
    | 7 => do
      let t ← Ty.ofCode f.ty; unused f.d; let a ← Opnd.ofCode f.a; let b ← Opnd.ofCode f.b; unused f.c
      need (bits f.x 31 8 == 0) .unusedField; checked (.xcmp f.h t (bits f.x 3 0) (bits f.x 7 4) a b)
    | 8 => do
      tyIs f 6; allUnused f; need (bits f.x 31 4 == 0) .unusedField; checked (.xdec f.h (bits f.x 3 2) (bits f.x 1 0))
    | 9 => do
      let t ← Ty.ofCode f.ty; let d ← vreg f.d; let a ← Opnd.ofCode f.a; unused f.b; unused f.c
      need (bits f.x 31 6 == 0) .unusedField; checked (.xbis f.h t d a (bitAt f.x 0) (bitAt f.x 1) (bits f.x 5 2))
    | _ => .error .reservedMinor
  | 0xC8 => decodePred f
  | 0xC9 => decodeLane f
  | 0xCA =>
    match f.mi with
    | 0 => do
      tyIs f 5; let d ← vreg f.d; let a ← Opnd.ofCode f.a; unused f.b; unused f.c
      need (bits f.x 31 19 == 0 && bits f.x 15 13 == 0 && bits f.x 7 5 == 0) .unusedField
      checked (.cvt f.h (bits f.x 4 0) (bits f.x 12 8) (bits f.x 18 16) d a)
    | 1 => shapeQnt f .qnt
    | 2 => shapeQnt f .dqnt
    | _ => .error .reservedMinor
  | 0xD0 => decodeMatrix f
  | 0xD8 => decodeMemory f
  | 0xDC =>
    match f.mi with
    | 0 => do tyIs f 5; unused f.d; unused f.c; xzero f.x; checked (.spawn f.h (← vreg f.a) (← Opnd.ofCode f.b))
    | _ => .error .reservedMinor
  | 0xE0 => do
    tyIs f 4; unused f.a; unused f.b; unused f.c
    match f.mi with
    | 0 => do need (bits f.x 27 0 == 0) .unusedField; checked (.tbegin f.h (bits f.x 31 28) (← vreg f.d))
    | 1 => do unused f.d; need (bits f.x 27 0 == 0) .unusedField; checked (.tcommit f.h (bits f.x 31 28))
    | 2 => do unused f.d; need (bits f.x 31 8 == 0) .unusedField; checked (.tabort f.h (bits f.x 7 0))
    | 3 => do xzero f.x; checked (.tstat f.h (← vreg f.d))
    | _ => .error .reservedMinor
  | 0xFE => do
    tyIs f 4; xzero f.x; unused f.b; unused f.c
    match f.mi with
    | 0 => do unused f.a; checked (.crdV f.h (← vreg f.d))
    | 1 => do unused f.d; checked (.cwrV f.h (← Opnd.ofCode f.a))
    | _ => .error .reservedMinor
  | _ => .error .reservedMajor

/-- The word that starts at a parcel, in the framing of R91: its instruction and its length in bytes. -/
def decodeParcels (p0 p1 p2 : Nat) : Dec (Instr × Nat) :=
  if isVParcel p0 then (decodeV (p0 * 2 ^ 64 + p1 * 2 ^ 32 + p2)).map (·, 12) else (decodeS p0).map (·, 4)

/-- A parcel of four bytes, little-endian (R4, R91). -/
def parcelOf (b0 b1 b2 b3 : Byte) : Nat := b0.toNat + b1.toNat * 2 ^ 8 + b2.toNat * 2 ^ 16 + b3.toNat * 2 ^ 24

/-- Decoding bytes: the instruction at the head of the list and the rest of the list. -/
def decodeBytes : List Byte → Dec (Instr × List Byte)
  | b0 :: b1 :: b2 :: b3 :: rest =>
    let p0 := parcelOf b0 b1 b2 b3
    if isVParcel p0 then
      match rest with
      | c0 :: c1 :: c2 :: c3 :: d0 :: d1 :: d2 :: d3 :: rest' =>
        (decodeV (p0 * 2 ^ 64 + parcelOf c0 c1 c2 c3 * 2 ^ 32 + parcelOf d0 d1 d2 d3)).map (·, rest')
      | _ => .error .truncated
    else (decodeS p0).map (·, rest)
  | _ => .error .truncated

/-- The bytes of an instruction whose bits are numbered as spec/opcode_table.json numbers them: each 32-bit word little-endian, the
first word at the lowest address. -/
def tableBytes (w : Nat) : List Byte := (List.range 12).map fun k => BitVec.ofNat 8 (w / 2 ^ (8 * k))

/-- The instruction this decoder reads from an instruction whose table bits are w; bits above nbits are zero. -/
def decodeTableWord (nbits w : Nat) : Option Instr :=
  match decodeBytes (tableBytes (w % 2 ^ nbits)) with
  | .ok (i, _) => some i
  | .error _ => none

/-! The encoder, from the same tables. -/

def encSR (maj d a b fn : Nat) : Nat := maj * 2 ^ 26 + d * 2 ^ 19 + a * 2 ^ 12 + b * 2 ^ 5 + fn
def encSI (maj d a imm : Nat) : Nat := maj * 2 ^ 26 + d * 2 ^ 19 + a * 2 ^ 12 + imm
def encSL (maj d imm : Nat) : Nat := maj * 2 ^ 26 + d * 2 ^ 19 + imm
def encSBR (maj a cond off : Nat) : Nat := maj * 2 ^ 26 + a * 2 ^ 19 + cond * 2 ^ 16 + off
def encSY (maj fn imm : Nat) : Nat := maj * 2 ^ 26 + fn * 2 ^ 20 + imm

/-- The word of a well-formed S-word instruction; none for the others. -/
def encodeS : Instr → Option Nat
  | .sadd d a b => some (encSR 1 d a b 0) | .ssub d a b => some (encSR 1 d a b 1) | .smul d a b => some (encSR 1 d a b 2)
  | .smulh d a b => some (encSR 1 d a b 3) | .sdiv d a b => some (encSR 1 d a b 4) | .srem d a b => some (encSR 1 d a b 5)
  | .sand d a b => some (encSR 1 d a b 6) | .sor d a b => some (encSR 1 d a b 7) | .sxor d a b => some (encSR 1 d a b 8)
  | .sshl d a b => some (encSR 1 d a b 9) | .sshr d a b => some (encSR 1 d a b 10) | .ssra d a b => some (encSR 1 d a b 11)
  | .smin d a b => some (encSR 1 d a b 12) | .smax d a b => some (encSR 1 d a b 13) | .sclz d a => some (encSR 1 d a 0 14)
  | .spop d a => some (encSR 1 d a 0 15) | .smov d a => some (encSR 1 d a 0 16) | .smulhN64 d a b => some (encSR 1 d a b 17)
  | .sdivN64 d a b => some (encSR 1 d a b 18) | .sremN64 d a b => some (encSR 1 d a b 19) | .sminN64 d a b => some (encSR 1 d a b 20)
  | .smaxN64 d a b => some (encSR 1 d a b 21)
  | .saddImm d a i => some (encSI 2 d a i.toNat) | .sandImm d a i => some (encSI 3 d a i.toNat) | .sorImm d a i => some (encSI 4 d a i.toNat)
  | .sxorImm d a i => some (encSI 5 d a i.toNat) | .sshlImm d a c => some (encSI 6 d a c) | .sshrImm d a c => some (encSI 7 d a c)
  | .ssraImm d a c => some (encSI 8 d a c) | .sli d i => some (encSL 9 d i.toNat) | .slih d i => some (encSL 10 d i.toNat)
  | .scmp c d a b => some (encSR 11 d a b c) | .ssel d a b => some (encSR 12 d a b 0) | .sld d a i => some (encSI 13 d a i.toNat)
  | .sst d a i => some (encSI 14 d a i.toNat) | .br o => some (encSBR 16 0 0 o.toNat) | .bc c a o => some (encSBR 17 a c o.toNat)
  | .bq s p o => some (encSBR 18 p s o.toNat)
  | .bq3 p f oa ob => some (0x13 * 2 ^ 26 + p * 2 ^ 22 + f * 2 ^ 20 + oa.toNat * 2 ^ 10 + ob.toNat)
  | .call a o => some (encSBR 20 a 0 o.toNat) | .ret a => some (encSR 21 0 a 0 0) | .jmpx d a => some (encSR 21 d a 0 1)
  | .waitc vm sm as xl => some (0x16 * 2 ^ 26 + vm * 2 ^ 20 + sm * 2 ^ 14 + as * 2 ^ 8 + xl * 2 ^ 2) | .venq c o => some (encSL 23 c o)
  | .nbarImm c i => some (0x18 * 2 ^ 26 + c * 2 ^ 6 + i) | .nbarReg a i => some (0x18 * 2 ^ 26 + a * 2 ^ 12 + i)
  | .tbar => some (encSY 25 0 0) | .qbar m => some (encSY 25 1 m)
  | .split pen p a v u => some (0x1A * 2 ^ 26 + pen.toNat * 2 ^ 23 + p * 2 ^ 19 + a * 2 ^ 12 + v * 2 ^ 2 + u.toNat * 2)
  | .take dr d => some (encSY 27 0 (dr.toNat * 2 ^ 7 + d)) | .done => some (encSY 27 1 0) | .exit => some (encSY 27 2 0)
  | .nop => some (encSY 28 0 0) | .hinge i => some (encSY 29 0 i) | .mig d k => some (encSI 30 d 0 k.toNat) | .trap c => some (encSY 31 0 c)
  | .tret => some (encSY 31 1 0) | .qpoint => some (encSR 32 0 0 0 0) | .gwait d => some (encSR 32 d 0 0 1) | .gdefer a b => some (encSR 32 0 a b 2)
  | .gnum d => some (encSR 32 d 0 0 3) | .clock d => some (encSR 33 d 0 0 0) | .mark s c => some (encSY 34 0 (s.toNat * 2 ^ 19 + c))
  | .crd d n => some (encSI 44 d 0 n) | .cwr a n => some (encSI 45 0 a n)
  | _ => none

def encV (maj mi : Nat) (h : VH) (ty d a b c x : Nat) : Nat :=
  maj * 2 ^ 88 + ty * 2 ^ 84 + d * 2 ^ 74 + h.n.toNat * 2 ^ 73 + h.g * 2 ^ 69 + h.gs * 2 ^ 66 + a * 2 ^ 56 + b * 2 ^ 46 + c * 2 ^ 36 + mi * 2 ^ 32 + x

/-- The head of a word without guard and N. -/
def VH.plain : VH := ⟨false, 0, 0⟩

def enc1 (maj mi : Nat) (h : VH) (t : Ty) (d : Nat) (a : Opnd) (x : Nat) : Option Nat := some (encV maj mi h t.code d a.code 900 900 x)
def enc2 (maj mi : Nat) (h : VH) (t : Ty) (d : Nat) (a b : Opnd) (x : Nat) : Option Nat := some (encV maj mi h t.code d a.code b.code 900 x)
def enc3 (maj mi : Nat) (h : VH) (t : Ty) (d : Nat) (a b c : Opnd) (x : Nat) : Option Nat := some (encV maj mi h t.code d a.code b.code c.code x)
def encQ (mi : Nat) (h : VH) (pd pa pb sub : Nat) : Option Nat :=
  some (encV 0xC8 mi h 4 900 900 900 900 (sub * 2 ^ 12 + pb * 2 ^ 8 + pa * 2 ^ 4 + pd))
def MemX.word (x : MemX) : Nat :=
  x.stream * 2 ^ 28 + x.scope * 2 ^ 25 + x.order * 2 ^ 22 + x.hint * 2 ^ 19 + x.form * 2 ^ 16 + x.off.toNat
def mopndCode (src : Bool) (k : Nat) : Nat := if src then 768 + k else k
def stTile (st tile : Nat) : Nat := st * 2 ^ 28 + tile * 2 ^ 23
/-- The B field and the X bits of an accumulator row (R238). -/
def rowCode : Nat ⊕ Nat → Nat × Nat
  | .inl r => (900, r)
  | .inr k => (768 + k, 64)

/-- The word of a well-formed V-word instruction; none for the others. -/
def encodeV : Instr → Option Nat
  | .vadd h t d a b => enc2 0xC0 0 h t d a b 0 | .vsub h t d a b => enc2 0xC0 1 h t d a b 0 | .vmul h t d a b => enc2 0xC0 2 h t d a b 0
  | .vmulh h t d a b => enc2 0xC0 3 h t d a b 0 | .vmad h t d a b c => enc3 0xC0 4 h t d a b c 0 | .vdiv h t d a b => enc2 0xC0 5 h t d a b 0
  | .vrem h t d a b => enc2 0xC0 6 h t d a b 0 | .vmin h t d a b => enc2 0xC0 7 h t d a b 0 | .vmax h t d a b => enc2 0xC0 8 h t d a b 0
  | .vabs h t d a => enc1 0xC0 9 h t d a 0 | .vneg h t d a => enc1 0xC0 10 h t d a 0 | .vclz h t d a => enc1 0xC0 11 h t d a 0
  | .vpop h t d a => enc1 0xC0 12 h t d a 0
  | .vand h t d a b => enc2 0xC1 0 h t d a b 0 | .vor h t d a b => enc2 0xC1 1 h t d a b 0 | .vxor h t d a b => enc2 0xC1 2 h t d a b 0
  | .vnot h t d a => enc1 0xC1 3 h t d a 0 | .vshl h t d a b => enc2 0xC1 4 h t d a b 0 | .vshr h t d a b => enc2 0xC1 5 h t d a b 0
  | .vsra h t d a b => enc2 0xC1 6 h t d a b 0 | .vbfe h t d a pos len => enc1 0xC1 7 h t d a (len * 2 ^ 8 + pos)
  | .vbfi h t d a pos len => enc1 0xC1 8 h t d a (len * 2 ^ 8 + pos) | .vsel h t d a b c p => enc3 0xC1 9 h t d a b c p
  | .vmov h t d a => enc1 0xC1 10 h t d a 0 | .vmovi h t d x => some (encV 0xC1 11 h t.code d 900 900 900 x.toNat)
  | .vidxRead h t d j off => some (encV 0xC1 12 h t.code d 900 900 900 (off * 2 ^ 4 + j))
  | .vidxWrite h t j off a => some (encV 0xC1 12 h t.code 900 a.code 900 900 (off * 2 ^ 4 + 4 + j))
  | .vcmp h t p c a b => enc2 0xC1 13 h t 900 a b (c * 2 ^ 4 + p)
  | .xadd h t d a b => enc2 0xC4 0 h t d a b 0 | .xsub h t d a b => enc2 0xC4 1 h t d a b 0 | .xmul h t d a b => enc2 0xC4 2 h t d a b 0
  | .xfma h t d a b c => enc3 0xC4 3 h t d a b c 0 | .xdiv h t d a b => enc2 0xC4 4 h t d a b 0 | .xrecip h t d a => enc1 0xC4 5 h t d a 0
  | .xsqr h t d a => enc1 0xC4 6 h t d a 0 | .xsqrt h t d a => enc1 0xC4 7 h t d a 0 | .xabs h t d a => enc1 0xC4 8 h t d a 0
  | .xneg h t d a => enc1 0xC4 9 h t d a 0 | .xmin h t d a b => enc2 0xC4 10 h t d a b 0 | .xmax h t d a b => enc2 0xC4 11 h t d a b 0
  | .xhull h t d a b => enc2 0xC4 12 h t d a b 0 | .xmeet h t d a b => enc2 0xC4 13 h t d a b 0
  | .xexp h t d a => enc1 0xC5 0 h t d a 0 | .xexp2 h t d a => enc1 0xC5 1 h t d a 0 | .xlog h t d a => enc1 0xC5 2 h t d a 0
  | .xlog2 h t d a => enc1 0xC5 3 h t d a 0 | .xsin h t d a => enc1 0xC5 4 h t d a 0 | .xcos h t d a => enc1 0xC5 5 h t d a 0
  | .xtanh h t d a => enc1 0xC5 6 h t d a 0
  | .xmid h t d a => enc1 0xC6 0 h t d a 0 | .xrad h t d a => enc1 0xC6 1 h t d a 0 | .xwid h t d a => enc1 0xC6 2 h t d a 0
  | .xlo h t d a => enc1 0xC6 3 h t d a 0 | .xhi h t d a => enc1 0xC6 4 h t d a 0 | .xmake h t d a b => enc2 0xC6 5 h t d a b 0
  | .xcls h t d a => enc1 0xC6 6 h t d a 0 | .xcmp h t p c a b => enc2 0xC6 7 h t 900 a b (c * 2 ^ 4 + p)
  | .xdec h op dec => some (encV 0xC6 8 h 6 900 900 900 900 (op * 2 ^ 2 + dec))
  | .xbis h t d a u pen p => enc1 0xC6 9 h t d a (p * 2 ^ 2 + pen.toNat * 2 + u.toNat)
  | .qand h pd pa pb => encQ 0 h pd pa pb 0 | .qor h pd pa pb => encQ 1 h pd pa pb 0 | .qxor h pd pa pb => encQ 2 h pd pa pb 0
  | .qnot h pd pa => encQ 3 h pd pa 0 0 | .qset h pd v => encQ 4 h pd 0 0 v | .qfix h pd pa t => encQ 5 h pd pa 0 t
  | .qmov h pd pa => encQ 6 h pd pa 0 0 | .qmovToScalar h d pa => some (encV 0xC8 6 h 4 (768 + d) 900 900 900 (2 ^ 12 + pa * 2 ^ 4))
  | .qmovFromScalar h pd a => some (encV 0xC8 6 h 4 900 (768 + a) 900 900 (2 * 2 ^ 12 + pd))
  | .vbal h d pa => some (encV 0xC9 0 h 4 (768 + d) 900 900 900 (pa * 2 ^ 4))
  | .vvote h op pd pa => some (encV 0xC9 1 h 4 900 900 900 900 (op * 2 ^ 12 + pa * 2 ^ 4 + pd))
  | .vshfIdx h t d a b => enc2 0xC9 2 h t d a b 0 | .vshfXor h t d a k => enc1 0xC9 3 h t d a k | .vshfUp h t d a k => enc1 0xC9 4 h t d a k
  | .vshfDn h t d a k => enc1 0xC9 5 h t d a k
  | .vbcast h t d a src none => some (encV 0xC9 6 h t.code d.code a.code 900 900 src)
  | .vbcast h t d a src (some b) => some (encV 0xC9 6 h t.code d.code a.code (768 + b) 900 (32 + src))
  | .vred h op t d a => some (encV 0xC9 7 h t.code d.code a.code 900 900 op)
  | .cvt h df sf part d a => some (encV 0xCA 0 h 5 d a.code 900 900 (part * 2 ^ 16 + sf * 2 ^ 8 + df))
  | .qnt h tgt scf d a => some (encV 0xCA 1 h 6 d a.code 900 900 (scf * 4 + tgt))
  | .dqnt h tgt scf d a => some (encV 0xCA 2 h 6 d a.code 900 900 (scf * 4 + tgt))
  | .mloop f =>
    some (encV 0xD0 0 .plain (mfmtMode f.afmt).2 900 (mopndCode f.asrc f.a) (mopndCode f.bsrc f.b)
      (match f.c with | none => 900 | some k => 768 + k)
      (stTile f.stream f.tile + f.afmt * 2 ^ 20 + f.bfmt * 2 ^ 17 + f.asrc.toNat * 2 ^ 16 + f.bsrc.toNat * 2 ^ 15 + f.pair.toNat * 2 ^ 14 +
        (mfmtMode f.afmt).1 * 2 ^ 12 + f.ksteps))
  | .mrdy st => some (encV 0xD0 1 .plain 5 900 900 900 900 (stTile st 0))
  | .mwait st tile all => some (encV 0xD0 2 .plain 5 900 900 900 900 (stTile st tile + all.toNat * 2 ^ 22))
  | .mzero st tile => some (encV 0xD0 3 .plain 5 900 900 900 900 (stTile st tile))
  | .mld st tile a => some (encV 0xD0 4 .plain 5 900 (768 + a) 900 900 (stTile st tile))
  | .mdrn f =>
    some (encV 0xD0 5 .plain 5 900 (768 + f.a) 900 900 (stTile f.stream f.tile + f.mode * 2 ^ 21 + f.amax.toNat * 2 ^ 20 + f.bias.toNat * 2 ^ 19 +
      f.act.toNat * 2 ^ 18 + f.qnt.toNat * 2 ^ 17 + f.qtgt * 2 ^ 15 + f.qscf * 2 ^ 14 + f.glob.toNat * 2 ^ 13 + f.row0 * 2 ^ 7 + f.nrows * 2))
  | .acrd h st tile d row => some (encV 0xD0 6 h 5 d 900 (rowCode row).1 900 (stTile st tile + (rowCode row).2))
  | .acwr h st tile a row => some (encV 0xD0 7 h 5 900 a (rowCode row).1 900 (stTile st tile + (rowCode row).2))
  | .mpairOn d => some (encV 0xD0 8 .plain 5 (768 + d) 900 900 900 0) | .mpairOff => some (encV 0xD0 8 .plain 5 900 900 900 900 (2 ^ 22))
  | .mcfg sel a => some (encV 0xD0 9 .plain 5 900 (768 + a) 900 900 sel)
  | .ldg h t x d a => enc1 0xD8 0 h t d a x.word | .stg h t x a b => enc2 0xD8 1 h t 900 a b x.word
  | .lds h t x d a => enc1 0xD8 2 h t d a x.word | .sts h t x a b => enc2 0xD8 3 h t 900 a b x.word
  | .ldfeKeep h t x d a => enc1 0xD8 4 h t d a x.word | .ldfeTake h t x d a => enc1 0xD8 4 h t d a x.word
  | .stfe h t x a b => enc2 0xD8 5 h t 900 a b x.word | .pst h t x a b c => enc3 0xD8 6 h t 900 a b (.s c) x.word
  | .pfch h x a => enc1 0xD8 7 h .b64 900 a x.word | .drop h x a => enc1 0xD8 8 h .b64 900 a x.word
  | .atom h t x d a b c => enc3 0xD8 9 h t d.code a b c x.word
  | .fence st sc o => some (encV 0xD8 10 .plain 5 900 900 900 900 (st * 2 ^ 28 + sc * 2 ^ 25 + o * 2 ^ 22))
  | .fencex sc o m => some (encV 0xD8 11 .plain 5 900 900 900 900 (sc * 2 ^ 25 + o * 2 ^ 22 + m.toNat))
  | .cpy f =>
    some (encV 0xD8 12 .plain f.t.code 900 (768 + f.dst) (768 + f.src) (768 + f.ctl) (f.stream * 2 ^ 28 + f.scope * 2 ^ 25 + f.order * 2 ^ 22 +
      f.hint * 2 ^ 19 + f.redop * 2 ^ 16 + f.fe.toNat * 2 ^ 15 + f.step.toNat * 2 ^ 14 + f.stepid))
  | .cwait st => some (encV 0xD8 13 .plain 5 900 900 900 900 (st * 2 ^ 28))
  | .spawn h a b => some (encV 0xDC 0 h 5 900 a b.code 900 0)
  | .tbegin h st d => some (encV 0xE0 0 h 4 d 900 900 900 (st * 2 ^ 28)) | .tcommit h st => some (encV 0xE0 1 h 4 900 900 900 900 (st * 2 ^ 28))
  | .tabort h code => some (encV 0xE0 2 h 4 900 900 900 900 code) | .tstat h d => some (encV 0xE0 3 h 4 d 900 900 900 0)
  | .crdV h d => some (encV 0xFE 0 h 4 d 900 900 900 0) | .cwrV h a => some (encV 0xFE 1 h 4 900 a.code 900 900 0)
  | _ => none

/-- The word of a well-formed instruction: 32 bits for an S-word, 96 bits for a V-word, none for an event row. -/
def encode (i : Instr) : Option Nat := (encodeS i).orElse fun _ => encodeV i

/-- The parcels of an instruction, in the order of R91. -/
def encodeParcels (i : Instr) : List Nat :=
  match encodeS i with
  | some w => [w]
  | none =>
    match encodeV i with
    | some w => [bits w 95 64, bits w 63 32, bits w 31 0]
    | none => []

/-- An operand code that is legal in the encoding (true: L) and below the allotment (R62, R65). -/
def codeLegal (isL : Bool) (allot c : Nat) : Bool := (c ≥ 768 || c < allot) && (isL || c < 896 || c ≥ 900)

/-- The checks at decode that depend on the encoding and on the group's allotment (R62, R65, R83, R98, R250, R396, R397). -/
def vLegal (isL : Bool) (allot : Nat) (w : Nat) : Bool :=
  let f := VF.of w
  codeLegal isL allot f.d && codeLegal isL allot f.a && codeLegal isL allot f.b && codeLegal isL allot f.c && (isL || !f.n)

/-- The instruction's own multi-register operands lie below the allotment, and it exists in the encoding (R98, R250, R396, R397). -/
def Instr.legalIn (isL : Bool) (allot : Nat) : Instr → Bool
  | .venq _ _ => !isL
  | .waitc _ _ _ _ => isL
  | .split _ _ _ v _ => v + 6 < allot
  | .spawn _ a _ => a + 6 < allot
  | .acrd _ _ _ d _ => d + 1 < allot
  | .acwr _ _ _ a _ => a + 1 < allot
  | _ => true

end Sys2Proof
end

