-- ==== Sys2Proof/Config.lean ====
section
/-! DEFINITION. What an implementation fixes and the manual leaves open. Every constant here is a FREE VALUE: it has no body, so
nothing proved of the model depends on what it is. Each is applied to the state's own counter of free values (State.free) or to
the operands it depends on. The rows of notes/assumptions name every use. -/
namespace Sys2Proof.Config

/-- A pair of AES-256 keys for XTS (R432). -/
structure KeyPair where
  data  : BitVec 256
  tweak : BitVec 256
  deriving DecidableEq, Repr

/-- A free choice among finitely many outcomes: the n-th draw. Used modulo the number of permitted outcomes (R96, R154, R267,
R369, R370). -/
opaque freeNat : Nat → Nat
/-- A free 64-bit value: the n-th draw at a place (latch content of a lane its producer did not write, R65). -/
opaque freeWord : Nat → Nat → BitVec 64
/-- Old or new for one 32-bit half: the n-th draw, register number, lane, half (R96, R243). -/
opaque freeHalf : Nat → Nat → Nat → Nat → Bool
/-- Nanoseconds of device time between two readings: the n-th draw (R456). -/
opaque elapsedNs : Nat → Nat
/-- The n-th key of AES-256-XTS that the management core's random bit generator draws (R432). -/
opaque freeKey : Nat → BitVec 256
/-- A byte of a 16-byte unit read under another key pair than the one it was written under: both pairs, the unit's number (of which the tweak is
part), its 16 bytes as they were written, the byte's place (R432, R434). -/
opaque otherKey : Option KeyPair → Option KeyPair → Nat → Nat → Nat → BitVec 8
/-- Steps a bound of an elementary function lies outside the tightest one: function, format code, upper bound or lower, place of the
tightest bound among the format's values (R153, R154). Used modulo 3. -/
opaque elemStep : Nat → Nat → Bool → Int → Nat
/-- The sign of a zero where the manual states none. A point-to-point conversion: destination and source format codes, source bits,
narrowing mode (R210). A zero point that is quantised: 266 and the target, its sign (R142). A negative value that rounds to a zero: 256 and the
format written, the value's denominator and numerator, 0
(R136, R142, R147, R224). -/
opaque zeroSign : Nat → Nat → Nat → Nat → Bool
/-- What a peer device's memory holds at a reading: draw, location (R509): the peer writes it too. -/
opaque peerByte : Nat → Nat → BitVec 8
/-- What host memory holds when the home fetches a half from the host: draw, location (R310, R311). -/
opaque hostByte : Nat → Nat → BitVec 8
/-- The home die that the map of firmware wants for a 2 MiB block of device memory (R253). Used modulo 8. -/
opaque homeDie : Nat → Nat
/-- The set that a line maps to in its L2 slice (R262). Used modulo 4,096. -/
opaque l2Set : Nat → Nat
/-- The loop of a die's network on which a transfer goes from one stop to another: the spec does not lay the loops out (R381). Used modulo 12. -/
opaque loopNo : Nat → Nat → Nat
/-- The set of a translation cache that an entry maps to: context, page number, log2 of the page's size (R428). Used modulo the number of
sets. -/
opaque tlbSet : Nat → Nat → Nat → Nat
/-- An ML-DSA-65 signature under the device identity key (R437): the manual names the function and does not define it. -/
opaque mlDsaSign : List (BitVec 8) → List (BitVec 8)
/-- Whether an ML-DSA-65 signature over a measurement holds under a public key: key, measurement, signature (R435). -/
opaque mlDsaVerify : List (BitVec 8) → List (BitVec 8) → List (BitVec 8) → Bool
/-- The bytes of a firmware stage of an image in flash (R435, R436). -/
opaque stageBytes : Nat → Nat → List (BitVec 8)
/-- The public key in the header of an image, the signature of a stage of it and its security version (R435): image, stage. -/
opaque imageKey : Nat → List (BitVec 8)
opaque stageSig : Nat → Nat → List (BitVec 8)
opaque stageVersion : Nat → Nat → Nat
/-- The fused hash of the vendor's key (R435). -/
opaque vendorKeyHash : List (BitVec 8)
/-- The bus address at which the host places BAR0 (0) and BAR2 (1) when it sets up the link (R501, R519). -/
opaque barBase : Nat → Nat
/-- The Outstanding Page Request Allocation that the host grants (R430). -/
opaque pageRequests : Nat
/-- By how much a native group record of this stepping is longer than 1 MiB, in units of 64 bytes (R416). -/
opaque nativeMore : BitVec 16
/-- Bytes of one native group record (CTXCTL.NSIZE, R416, R418): free from 1 MiB up (log 11). -/
def nativeSize : BitVec 32 := 0x100000 + 64 * nativeMore.zeroExtend 32
/-- The device's stepping number (R416, R417). -/
opaque stepping : BitVec 8
/-- The fused security version (R435, R437). -/
opaque securityVersion : BitVec 32
/-- The fused alarm policy (R439). -/
opaque alarmPolicy : BitVec 2
/-- How many snapshot registers the stepping has, which host-mapped register each one copies, and what one latches that copies anything else:
draw, register (R464: their set and layout are fixed per stepping). -/
opaque snapshotCount : Nat
opaque snapshotSource : Nat → Option Nat
opaque snapshotValue : Nat → Nat → BitVec 64
/-- The power limit in watts that the board record in flash holds on SKM-640-PKG (R511). -/
opaque boardWatts : Nat
/-- The die temperature above which firmware lowers an island's frequency (R513: the manual gives none). -/
opaque dieLimit : Nat

end Sys2Proof.Config
end

