-- ==== Sys2Proof/Machine/Map.lean ====
section
/-! DEFINITION. Finite maps by number, as sorted lists of pairs that list no entry equal to the default value, and small list helpers. -/
namespace Sys2Proof.Machine

/-- A map from numbers to values: strictly rising keys, and no entry that equals the value an unlisted key reads as. -/
abbrev AMap (α : Type) := List (Nat × α)

/-- The value at a key; d where the key is unlisted. -/
def mget {α : Type} (d : α) : AMap α → Nat → α
  | [], _ => d
  | (k, x) :: m, i => if k = i then x else mget d m i

/-- Remove every entry of a key. -/
def merase {α : Type} : AMap α → Nat → AMap α
  | [], _ => []
  | (k, x) :: m, i => if k = i then merase m i else (k, x) :: merase m i

/-- Insert before the first larger key. -/
def minsert {α : Type} : AMap α → Nat → α → AMap α
  | [], i, x => [(i, x)]
  | (k, y) :: m, i, x => if i < k then (i, x) :: (k, y) :: m else (k, y) :: minsert m i x

/-- Write a key: the default value removes the entry, so equal maps are equal lists. -/
def mset {α : Type} [DecidableEq α] (d : α) (m : AMap α) (i : Nat) (x : α) : AMap α :=
  if x = d then merase m i else minsert (merase m i) i x

/-- The canonical form: keys strictly rising from lo on, no default entry. -/
def mwfFrom {α : Type} [DecidableEq α] (d : α) : Nat → AMap α → Bool
  | _, [] => true
  | lo, (k, x) :: m => decide (lo ≤ k) && !decide (x = d) && mwfFrom d (k + 1) m

/-- The canonical form of a map. -/
def mwf {α : Type} [DecidableEq α] (d : α) (m : AMap α) : Bool := mwfFrom d 0 m

/-- Write a run of keys. -/
def msetAll {α : Type} [DecidableEq α] (d : α) (m : AMap α) (l : List (Nat × α)) : AMap α :=
  l.foldl (fun m kx => mset d m kx.1 kx.2) m

/-- The i-th element of a list, or d. -/
def nthD {α : Type} (d : α) : List α → Nat → α
  | [], _ => d
  | x :: _, 0 => x
  | _ :: l, i + 1 => nthD d l i

/-- Replace the i-th element of a list. -/
def setAt {α : Type} : List α → Nat → α → List α
  | [], _, _ => []
  | _ :: l, 0, y => y :: l
  | x :: l, i + 1, y => x :: setAt l i y

/-- Remove the i-th element of a list. -/
def dropAt {α : Type} : List α → Nat → List α
  | [], _ => []
  | _ :: l, 0 => l
  | x :: l, i + 1 => x :: dropAt l i

/-- The position of the first element that meets a test, or the length. -/
def findPos {α : Type} (p : α → Bool) : List α → Nat
  | [] => 0
  | x :: l => if p x then 0 else findPos p l + 1

/-- The 32 lanes of a group (R29). -/
def lanes32 : List Nat := List.range 32

/-- Lane l is in a 32-bit lane mask. -/
def inMask (m : Word32) (l : Nat) : Bool := m.getLsbD l

/-- The mask of a list of lanes. -/
def maskOf (l : List Nat) : Word32 := l.foldl (fun m k => m ||| (1#32 <<< k)) 0

/-- The lanes of a mask, in increasing order. -/
def lanesOf (m : Word32) : List Nat := lanes32.filter (inMask m)

/-- Bits [hi:lo] of a 64-bit word as a number (R3). -/
def fld (w : Word64) (hi lo : Nat) : Nat := w.toNat / 2 ^ lo % 2 ^ (hi + 1 - lo)

/-- A 64-bit word with bits [hi:lo] replaced by a number. -/
def setFld (w : Word64) (hi lo x : Nat) : Word64 :=
  let m := (2 ^ (hi + 1 - lo) - 1) * 2 ^ lo
  (w &&& ~~~(BitVec.ofNat 64 m)) ||| BitVec.ofNat 64 (x % 2 ^ (hi + 1 - lo) * 2 ^ lo)

/-- The low 32 bits of a 64-bit word. -/
def lo32 (w : Word64) : Word32 := w.truncate 32
/-- The high 32 bits of a 64-bit word. -/
def hi32 (w : Word64) : Word32 := (w >>> 32).truncate 32
/-- A 64-bit word from its halves. -/
def mk64 (hi lo : Word32) : Word64 := (hi.zeroExtend 64 <<< 32) ||| lo.zeroExtend 64

/-- A value as n bytes, lowest first (R4). -/
def toBytes (n v : Nat) : List Byte := (List.range n).map fun k => BitVec.ofNat 8 (v / 2 ^ (8 * k))
/-- The value of bytes, lowest first (R4). -/
def ofBytes : List Byte → Nat
  | [] => 0
  | b :: l => b.toNat + 256 * ofBytes l

end Sys2Proof.Machine
end

