-- ==== Sys2Proof/Machine/Num.lean ====
section
/-! DEFINITION. Number formats (R129 to R136) and outward rounding (R150, R151): exact rational arithmetic, the binary formats, and the
reading and writing of intervals. -/
namespace Sys2Proof.Machine

/-- An exact rational: n / d, d positive. -/
structure Q where
  n : Int
  d : Nat
  deriving DecidableEq, Repr

def qInt (n : Int) : Q := ⟨n, 1⟩
def qNorm (a : Q) : Q := let g := Nat.gcd a.n.natAbs a.d; if g ≤ 1 then a else ⟨a.n.tdiv g, a.d / g⟩
def qAdd (a b : Q) : Q := if a.d = b.d then ⟨a.n + b.n, a.d⟩ else qNorm ⟨a.n * b.d + b.n * a.d, a.d * b.d⟩
def qNeg (a : Q) : Q := ⟨-a.n, a.d⟩
def qSub (a b : Q) : Q := qAdd a (qNeg b)
def qMul (a b : Q) : Q := ⟨a.n * b.n, a.d * b.d⟩
/-- a / b for a non-zero b. -/
def qDiv (a b : Q) : Q := if b.n < 0 then ⟨-(a.n * b.d), a.d * b.n.natAbs⟩ else ⟨a.n * b.d, a.d * b.n.natAbs⟩
def qLe (a b : Q) : Bool := decide (a.n * b.d ≤ b.n * a.d)
def qLt (a b : Q) : Bool := decide (a.n * b.d < b.n * a.d)
def qEq (a b : Q) : Bool := decide (a.n * b.d = b.n * a.d)
def qAbs (a : Q) : Q := ⟨a.n.natAbs, a.d⟩
def qMax (a b : Q) : Q := if qLe a b then b else a
def qMin (a b : Q) : Q := if qLe a b then a else b
/-- 2^e. -/
def qPow2 (e : Int) : Q := if e < 0 then ⟨1, 2 ^ e.natAbs⟩ else ⟨(2 ^ e.natAbs : Nat), 1⟩
/-- ⌊a⌋. -/
def qFloor (a : Q) : Int := a.n.fdiv a.d

/-- An extended real. -/
inductive XR where
  | ninf
  | fin (q : Q)
  | pinf
  deriving DecidableEq, Repr

def xLe : XR → XR → Bool
  | .ninf, _ => true
  | _, .pinf => true
  | .fin a, .fin b => qLe a b
  | _, _ => false
def xLt (a b : XR) : Bool := !xLe b a
def xEq (a b : XR) : Bool := xLe a b && xLe b a
def xMin (a b : XR) : XR := if xLe a b then a else b
def xMax (a b : XR) : XR := if xLe a b then b else a
def xNegR : XR → XR
  | .ninf => .pinf
  | .fin q => .fin (qNeg q)
  | .pinf => .ninf
/-- The sum of two lower bounds or two upper bounds; no opposite infinities meet there (R152). -/
def xAddR : XR → XR → XR
  | .fin a, .fin b => .fin (qAdd a b)
  | .ninf, _ => .ninf
  | .pinf, _ => .pinf
  | _, b => b
def xSgn : XR → Int
  | .ninf => -1
  | .fin q => if q.n < 0 then -1 else if q.n = 0 then 0 else 1
  | .pinf => 1
/-- A product of bounds; a zero factor gives zero, since infinities never belong to an interval (R152). -/
def xMulR (a b : XR) : XR :=
  match a, b with
  | .fin p, .fin q => .fin (qMul p q)
  | _, _ => let t := xSgn a * xSgn b; if t = 0 then .fin (qInt 0) else if t < 0 then .ninf else .pinf
def xIsFin : XR → Bool
  | .fin _ => true
  | _ => false
def xZero : XR := .fin (qInt 0)

/-- A binary floating-point format (R131): width, significand bits with the hidden one, bias, the magnitude code of the largest finite
value, whether it has infinities, and its canonical NaN (R132). -/
structure Fmt where
  w    : Nat
  p    : Nat
  bias : Nat
  top  : Nat
  inf  : Bool
  nan  : Nat
  deriving DecidableEq, Repr

def fp64 : Fmt := ⟨64, 53, 1023, 0x7FEFFFFFFFFFFFFF, true, 0x7FF8000000000000⟩
def fp32 : Fmt := ⟨32, 24, 127, 0x7F7FFFFF, true, 0x7FC00000⟩
def bf16 : Fmt := ⟨16, 8, 127, 0x7F7F, true, 0x7FC0⟩
def fp16 : Fmt := ⟨16, 11, 15, 0x7BFF, true, 0x7E00⟩
def e4m3 : Fmt := ⟨8, 4, 7, 0x7E, false, 0x7F⟩
def e5m2 : Fmt := ⟨8, 3, 15, 0x7B, true, 0x7E⟩

/-- A floating-point datum. -/
inductive Fp where
  | nan
  | inf (neg : Bool)
  | fin (neg : Bool) (mag : Nat)     -- the magnitude code
  deriving DecidableEq, Repr

/-- The value of a magnitude code. -/
def magVal (f : Fmt) (k : Nat) : Q :=
  let h := 2 ^ (f.p - 1)
  let e := k / h
  if e = 0 then qMul (qInt (k : Int)) (qPow2 (1 - (f.bias : Int) - (f.p - 1 : Nat)))
  else qMul (qInt ((h + k % h : Nat) : Int)) (qPow2 ((e : Int) - (f.bias : Int) - (f.p - 1 : Nat)))

/-- The datum of a bit pattern (R131). -/
def fpOf (f : Fmt) (bits : Nat) : Fp :=
  let k := bits % 2 ^ (f.w - 1)
  let neg := decide (bits / 2 ^ (f.w - 1) % 2 = 1)
  if k ≤ f.top then .fin neg k else if f.inf && decide (k = f.top + 1) then .inf neg else .nan

/-- A finite value with a zero read as +0 (R133). -/
def fpVal (f : Fmt) (neg : Bool) (k : Nat) : Q := if neg then qNeg (magVal f k) else magVal f k

/-- The extended real of a datum that is no NaN. -/
def fpXR (f : Fmt) : Fp → XR
  | .nan => xZero
  | .inf true => .ninf
  | .inf false => .pinf
  | .fin neg k => .fin (fpVal f neg k)

/-- Rounding directions. -/
inductive Rnd where
  | down | up | near | zero
  deriving DecidableEq, Repr

/-- ⌊log2 (n / d)⌋ for positive n and d. -/
def qLog2 (n d : Nat) : Int :=
  let e : Int := (Nat.log2 n : Int) - Nat.log2 d
  if (if e < 0 then decide (n * 2 ^ e.natAbs < d) else decide (n < d * 2 ^ e.natAbs)) then e - 1 else e

/-- The exponent of the unit in the last place at a positive magnitude. -/
def ulpExp (f : Fmt) (e : Int) : Int := max e (1 - (f.bias : Int)) - (f.p - 1 : Nat)

/-- The magnitude code of m units of 2^q, where q is ulpExp at exponent e. -/
def magCode (f : Fmt) (e : Int) (m : Nat) : Nat := (max e (1 - (f.bias : Int)) - (1 - (f.bias : Int))).toNat * 2 ^ (f.p - 1) + m

/-- A positive magnitude n / d rounded: away 0 down, 1 up, 2 to nearest, ties to even. The code f.top + 1 stands for overflow. -/
def roundMag (f : Fmt) (n d : Nat) (away : Nat) : Nat :=
  let e := qLog2 n d
  let q := ulpExp f e
  let num := if q < 0 then n * 2 ^ q.natAbs else n
  let den := if q < 0 then d else d * 2 ^ q.natAbs
  let m := num / den
  let r := num % den
  let up := if away = 0 then false else if away = 1 then decide (r ≠ 0) else decide (den < 2 * r) || (decide (2 * r = den) && decide (m % 2 = 1))
  let k := magCode f e (if up then m + 1 else m)
  if k ≤ f.top then k else if away = 0 then f.top else f.top + 1

/-- How a magnitude is rounded under a direction and a sign. -/
def awayOf (r : Rnd) (neg : Bool) : Nat :=
  match r with
  | .down => if neg then 1 else 0
  | .up => if neg then 0 else 1
  | .near => 2
  | .zero => 0

/-- A rational rounded into a format; a zero result has sign +, and overflow gives an infinity (R150, R151, R160). -/
def roundQ (f : Fmt) (r : Rnd) (x : Q) : Fp :=
  if x.n = 0 then .fin false 0
  else
    let neg := decide (x.n < 0)
    let k := roundMag f x.n.natAbs x.d (awayOf r neg)
    if k = 0 then .fin false 0 else if k ≤ f.top then .fin neg k else .inf neg

/-- The bits of a datum. -/
def fpBits (f : Fmt) : Fp → Nat
  | .nan => f.nan
  | .inf neg => (if neg then 2 ^ (f.w - 1) else 0) + f.top + 1
  | .fin neg k => if k = 0 then 0 else (if neg then 2 ^ (f.w - 1) else 0) + k

/-- The bits of a value rounded into a format where the manual gives a zero that a negative value rounds to no sign: that sign is a free
value (R136, R142, R147, R224). An exact zero is +0 (DESIGN CHOICE, log 23). -/
def fpBitsOpen (f : Fmt) (place : Nat) (q : Q) (x : Fp) : Nat :=
  match x with
  | .fin _ 0 => if decide (q.n < 0) && Config.zeroSign (256 + place) q.d q.n.natAbs 0 then 2 ^ (f.w - 1) else 0
  | _ => fpBits f x

/-- A set of reals: NaI, empty, or a closed connected set (R133). -/
inductive Ivl where
  | nai
  | empty
  | mk (lo hi : XR)
  deriving DecidableEq, Repr

/-- The interval of two data (R133). -/
def ivlOf (f : Fmt) (lo hi : Fp) : Ivl :=
  match lo, hi with
  | .nan, _ => .nai
  | _, .nan => .nai
  | .inf false, _ => .empty
  | _, .inf true => .empty
  | a, b => if xLe (fpXR f a) (fpXR f b) then .mk (fpXR f a) (fpXR f b) else .empty

/-- The interval of two bit patterns (R133). -/
def ivlBits (f : Fmt) (lo hi : Nat) : Ivl := ivlOf f (fpOf f lo) (fpOf f hi)

/-- A lower bound rounded down (R150): a finite bound below the range gives −∞, one above it the largest finite value. -/
def rdX (f : Fmt) : XR → Fp
  | .fin q => roundQ f .down q
  | .ninf => .inf true
  | .pinf => .fin false f.top
/-- An upper bound rounded up. -/
def ruX (f : Fmt) : XR → Fp
  | .fin q => roundQ f .up q
  | .pinf => .inf false
  | .ninf => .fin true f.top

/-- The hull rounded outward into a format, as an interval of representable bounds (R150). -/
def outward (f : Fmt) : Ivl → Ivl
  | .mk lo hi => .mk (fpXR f (rdX f lo)) (fpXR f (ruX f hi))
  | i => i

/-- The canonical bits of an interval, bounds rounded outward (R134). -/
def ivlWrite (f : Fmt) : Ivl → Nat × Nat
  | .nai => (f.nan, f.nan)
  | .empty => (fpBits f (.inf false), fpBits f (.inf true))
  | .mk lo hi => (fpBits f (rdX f lo), fpBits f (ruX f hi))

/-- An .x32 element (R129). -/
def x32Read (w : Word64) : Ivl := ivlBits fp32 (lo32 w).toNat (hi32 w).toNat
def x32Write (i : Ivl) : Word64 := let p := ivlWrite fp32 i; BitVec.ofNat 64 (p.2 * 2 ^ 32 + p.1)

/-- An .mp16 value (R136), or a mid-rad tile element with FP32 fields (R223). -/
def mrRead (f : Fmt) (m r : Nat) : Ivl :=
  match fpOf f m, fpOf f r with
  | .nan, _ => .nai
  | _, .nan => .nai
  | _, .inf true => .empty
  | _, .inf false => .mk .ninf .pinf
  | .inf _, .fin neg k => if neg && decide (k ≠ 0) then .nai else .mk .ninf .pinf
  | .fin mn mk', .fin neg k =>
    if neg && decide (k ≠ 0) then .nai
    else .mk (.fin (qSub (fpVal f mn mk') (fpVal f false k))) (.fin (qAdd (fpVal f mn mk') (fpVal f false k)))

/-- The .mp16 value written for an exact result (R136): the radius is the least that makes the written set enclose it. The sign of a
midpoint that a negative value rounds to zero is a free value (DESIGN CHOICE, log 23: R136 states none). -/
def mp16Write : Ivl → Nat
  | .nai => 0x7FC07FC0
  | .empty => 0xFF800000
  | .mk (.fin lo) (.fin hi) =>
    let c := qMul (qAdd lo hi) ⟨1, 2⟩
    match roundQ bf16 .near c with
    | .fin neg k =>
      let m := fpVal bf16 neg k
      match roundQ bf16 .up (qMax (qSub m lo) (qSub hi m)) with
      | .fin _ r => r * 2 ^ 16 + fpBitsOpen bf16 14 c (.fin neg k)
      | _ => 0x7F800000
    | _ => 0x7F800000
  | .mk _ _ => 0x7F800000

/-- The bound format of an interval type (R150). -/
def ivlFmt : Ty → Fmt
  | .x64 => fp64
  | .xb16 => bf16
  | .xh16 => fp16
  | _ => fp32

end Sys2Proof.Machine
end

