-- ==== Sys2Proof/Machine/Elem.lean ====
section
/-! DEFINITION. The elementary functions (R154, R155, R185, R188): enclosures by exact integer arithmetic, tightened until both ends round
alike, and the permitted two steps. -/
namespace Sys2Proof.Machine

/-- An enclosure by two integers over 2^F. -/
abbrev Enc := Int × Int

def encQ (F : Nat) (e : Enc) : Q × Q := (⟨e.1, 2 ^ F⟩, ⟨e.2, 2 ^ F⟩)
def fdn (n d : Int) : Int := n.fdiv d
def fup (n d : Int) : Int := -((-n).fdiv d)
/-- Floor and ceiling of a rational times 2^F. -/
def encOf (F : Nat) (x : Q) : Enc := (fdn (x.n * 2 ^ F) x.d, fup (x.n * 2 ^ F) x.d)

/-- The product of two enclosures. -/
def encMul (F : Nat) (a b : Enc) : Enc :=
  let p := a.1 * b.1; let q := a.1 * b.2; let r := a.2 * b.1; let t := a.2 * b.2
  (fdn (min (min p q) (min r t)) (2 ^ F), fup (max (max p q) (max r t)) (2 ^ F))

/-- The sum over k of x^k / k! for k = 1, 2, … with x enclosed, |x| ≤ 1/2: terms by recursion on fuel. -/
def expTerms (F : Nat) (x : Enc) : Nat → Nat → Enc → Enc → Enc
  | 0, _, _, acc => (acc.1 - 2, acc.2 + 2)
  | fuel + 1, k, t, acc =>
    let m := encMul F t x
    let t' : Enc := (fdn m.1 k, fup m.2 k)
    expTerms F x fuel (k + 1) t' (acc.1 + t'.1, acc.2 + t'.2)

/-- Repeated squaring of a positive enclosure. -/
def encSqN (F : Nat) : Nat → Enc → Enc
  | 0, e => e
  | n + 1, e => encSqN F n (encMul F e e)

/-- e^x for 0 ≤ x ≤ 4096, enclosed. -/
def encExpPos (N : Nat) (x : Q) : Nat × Enc :=
  let j := Nat.log2 (x.n.natAbs / x.d + 1) + 9
  let F := N + 2 * j + 32
  let r := encOf F (qMul x ⟨1, 2 ^ j⟩)
  let one : Int := 2 ^ F
  (F, encSqN F j (expTerms F r (N / 8 + 12) 1 (one, one) (one, one)))

/-- e^x, enclosed; |x| ≤ 4096. -/
def encExp (N : Nat) (x : Q) : Q × Q :=
  if x.n < 0 then
    let p := encExpPos (N + 8) (qNeg x)
    (qDiv ⟨2 ^ p.1, 1⟩ (qInt p.2.2), qDiv ⟨2 ^ p.1, 1⟩ (qInt p.2.1))
  else let p := encExpPos N x; encQ p.1 p.2

/-- The sum of x^(2k+1) / (2k+1), signs alternating when alt, for |x| ≤ 1/2. -/
def atanTerms (F : Nat) (x2 : Enc) (alt : Bool) : Nat → Nat → Bool → Enc → Enc → Enc
  | 0, _, _, _, acc => (acc.1 - 2, acc.2 + 2)
  | fuel + 1, k, neg, t, acc =>
    let u : Enc := (fdn t.1 k, fup t.2 k)
    let acc' : Enc := if neg then (acc.1 - u.2, acc.2 - u.1) else (acc.1 + u.1, acc.2 + u.2)
    atanTerms F x2 alt fuel (k + 2) (alt && !neg) (encMul F t x2) acc'

/-- atanh x or atan x for |x| ≤ 1/2. -/
def encAtan (F : Nat) (alt : Bool) (x : Q) : Enc :=
  let e := encOf F x
  atanTerms F (encMul F e e) alt (F / 2 + 8) 1 false e (0, 0)

def encLn2 (F : Nat) : Enc := let a := encAtan F false ⟨1, 3⟩; (2 * a.1, 2 * a.2)
/-- π = 16 atan(1/5) − 4 atan(1/239). -/
def encPi (F : Nat) : Enc :=
  let a := encAtan F true ⟨1, 5⟩; let b := encAtan F true ⟨1, 239⟩
  (16 * a.1 - 4 * b.2, 16 * a.2 - 4 * b.1)

/-- ln x for x > 0. -/
def encLn (F : Nat) (x : Q) : Enc :=
  let k := qLog2 x.n.natAbs x.d
  let m := qMul x (qPow2 (-k))
  let big := qLe ⟨3, 2⟩ m
  let k' := if big then k + 1 else k
  let m' := if big then qMul m ⟨1, 2⟩ else m
  let a := encAtan F false (qDiv (qSub m' (qInt 1)) (qAdd m' (qInt 1)))
  let l := encLn2 F
  let kl : Enc := if k' < 0 then (k' * l.2, k' * l.1) else (k' * l.1, k' * l.2)
  (kl.1 + 2 * a.1, kl.2 + 2 * a.2)

/-- sin r and cos r by their series for |r| ≤ 1: terms r^k / k!, every second one, signs alternating. -/
def sinTerms (F : Nat) (x2 : Enc) : Nat → Nat → Bool → Enc → Enc → Enc
  | 0, _, _, _, acc => (acc.1 - 2, acc.2 + 2)
  | fuel + 1, k, neg, t, acc =>
    let acc' : Enc := if neg then (acc.1 - t.2, acc.2 - t.1) else (acc.1 + t.1, acc.2 + t.2)
    let m := encMul F t x2
    sinTerms F x2 fuel (k + 2) (!neg) (fdn m.1 ((k + 1) * (k + 2)), fup m.2 ((k + 1) * (k + 2))) acc'

/-- The quadrant ⌊x / (π/2)⌋ and x minus it, enclosed with F fraction bits. -/
def quadrant (F : Nat) (x : Q) : Int × Enc :=
  let G := F + Nat.log2 (x.n.natAbs / x.d + 1) + 8
  let p := encPi G
  let n := qFloor (qDiv (qMul (qInt 2) x) ⟨p.1, 2 ^ G⟩)
  let n' := if x.n < 0 then qFloor (qDiv (qMul (qInt 2) x) ⟨p.2, 2 ^ G⟩) else n
  let e := encOf G x
  let r : Enc := if n' < 0 then (e.1 - fdn (n' * p.1) 2, e.2 - fdn (n' * p.2) 2) else (e.1 - fup (n' * p.2) 2, e.2 - fdn (n' * p.1) 2)
  (n', (fdn r.1 (2 ^ (G - F)) , fup r.2 (2 ^ (G - F))))

/-- sin (sh = 0) or cos (sh = 1) of x. -/
def encSin (F : Nat) (sh : Int) (x : Q) : Enc :=
  let qr := quadrant F x
  let r := qr.2
  let r2 := encMul F r r
  let one : Int := 2 ^ F
  let fuel := F / 4 + 12
  let c := (qr.1 + sh) % 4
  let s := if c = 0 ∨ c = 2 then sinTerms F r2 fuel 1 false r (0, 0) else sinTerms F r2 fuel 0 false (one, one) (0, 0)
  if c = 0 ∨ c = 1 then s else (-s.2, -s.1)

/-- The type code of a bound format (R150). -/
def ivlCode (f : Fmt) : Nat := if f.w = 64 then 7 else if f.w = 32 then 6 else if f.p = 8 then 8 else 9

/-- The elementary functions of major 0xC5. -/
inductive ElemOp where
  | exp | exp2 | log | log2 | sin | cos | tanh
  deriving DecidableEq, Repr

def ElemOp.code : ElemOp → Nat
  | .exp => 0 | .exp2 => 1 | .log => 2 | .log2 => 3 | .sin => 4 | .cos => 5 | .tanh => 6

/-- Is a positive rational a power of two; then its exponent. -/
def qPow2? (x : Q) : Option Int :=
  if x.n ≤ 0 then none
  else
    let k := qLog2 x.n.natAbs x.d
    if qEq x (qPow2 k) then some k else none

/-- The exact rational values of R155: f(x) where it is rational. -/
def elemExact (op : ElemOp) (x : Q) : Option Q :=
  match op with
  | .exp => if x.n = 0 then some (qInt 1) else none
  | .cos => if x.n = 0 then some (qInt 1) else none
  | .sin => if x.n = 0 then some (qInt 0) else none
  | .tanh => if x.n = 0 then some (qInt 0) else none
  | .log => if qEq x (qInt 1) then some (qInt 0) else none
  | .log2 => (qPow2? x).map qInt
  | .exp2 => if x.n % x.d = 0 && decide ((x.n.natAbs / x.d) ≤ 4096) then some (qPow2 (x.n.tdiv x.d)) else none

/-- An enclosure of f(x), x in the domain, with about N bits. -/
def elemEnc (op : ElemOp) (N : Nat) (x : Q) : Q × Q :=
  let far := qLt (qInt 4096) (qAbs x)
  match op with
  | .exp => if far then (if x.n < 0 then (qInt 0, qPow2 (-5000)) else (qPow2 5000, qPow2 5001)) else encExp N x
  | .exp2 =>
    if far then (if x.n < 0 then (qInt 0, qPow2 (-4000)) else (qPow2 4000, qPow2 4001))
    else
      let k := qFloor x
      let r := qSub x (qInt k)
      let l := encQ (N + 8) (encLn2 (N + 8))
      (qMul (qPow2 k) (encExp N (qMul r l.1)).1, qMul (qPow2 k) (encExp N (qMul r l.2)).2)
  | .log => encQ N (encLn N x)
  | .log2 =>
    let a := encLn N x
    let l := encLn2 N
    let lo : Q := if a.1 < 0 then qDiv (qInt a.1) (qInt l.1) else qDiv (qInt a.1) (qInt l.2)
    let hi : Q := if a.2 < 0 then qDiv (qInt a.2) (qInt l.2) else qDiv (qInt a.2) (qInt l.1)
    (lo, hi)
  | .sin => encQ N (encSin N 0 x)
  | .cos => encQ N (encSin N 1 x)
  | .tanh =>
    if qLt (qInt 1024) (qAbs x) then (if x.n < 0 then (qInt (-1), qAdd (qInt (-1)) (qPow2 (-2000))) else (qSub (qInt 1) (qPow2 (-2000)), qInt 1))
    else
      let e := encExp N (qMul (qInt 2) x)
      let g := fun t : Q => qDiv (qSub t (qInt 1)) (qAdd t (qInt 1))
      (g e.1, g e.2)

/-- f(x) rounded in a direction: precision doubles until both ends of the enclosure round alike. -/
def elemRound (f : Fmt) (r : Rnd) (op : ElemOp) (x : Q) : Nat → Nat → Fp
  | 0, N => roundQ f r (if r = .up then (elemEnc op N x).2 else (elemEnc op N x).1)
  | fuel + 1, N =>
    let e := elemEnc op N x
    if roundQ f r e.1 = roundQ f r e.2 then roundQ f r e.1 else elemRound f r op x fuel (2 * N)

/-- The place of a datum among its format's values in order: zero at 0, the infinities just outside the largest finite values. -/
def fpPlace (f : Fmt) : Fp → Int
  | .nan => 0
  | .inf neg => if neg then -((f.top : Int) + 1) else (f.top : Int) + 1
  | .fin neg k => if neg then -(k : Int) else k
/-- The datum at a place; places beyond an infinity give that infinity. -/
def fpAtPlace (f : Fmt) (i : Int) : Fp := if i.natAbs ≤ f.top then .fin (decide (i < 0)) i.natAbs else .inf (decide (i < 0))

/-- Is a bound at v one that R155 lists: a value that the function takes exactly, at an argument of the format. -/
def elemListed (op : ElemOp) (f : Fmt) (v : Q) : Bool :=
  match op with
  | .exp | .cos => qEq v (qInt 1)
  | .exp2 => (qPow2? v).isSome
  | .sin | .tanh | .log => decide (v.n = 0)
  | .log2 => decide (v.n % v.d = 0) && decide (v.n.natAbs / v.d ≤ 4096) && decide (roundQ f .down (qPow2 (v.n / v.d)) = roundQ f .up (qPow2 (v.n / v.d)))

/-- The steps by which a bound whose tightest value stands at place t may lie outside it: 0 to 2, free for the device (R154); none where
R155 asks for the exact value. -/
def elemSteps (op : ElemOp) (f : Fmt) (up : Bool) (t : Int) : Int :=
  match fpXR f (fpAtPlace f t) with
  | .fin v => if elemListed op f v then 0 else (Config.elemStep op.code (ivlCode f) up t % 3 : Nat)
  | _ => (Config.elemStep op.code (ivlCode f) up t % 3 : Nat)

/-- The bound written for the tightest value at place t. It lies at most two steps outside t, and no tighter t gives a looser bound: a
lower bound is the highest that the free steps of t and of the two places below it give, an upper bound the lowest of t and the two
above (R154, R155: widening an operand never narrows the result). -/
def elemPlace (op : ElemOp) (f : Fmt) (up : Bool) (t : Int) : Int :=
  let g (u : Int) : Int := if up then u + elemSteps op f up u else u - elemSteps op f up u
  if up then min (g t) (min (g (t + 1)) (g (t + 2))) else max (g t) (max (g (t - 1)) (g (t - 2)))

/-- The value range a function keeps (R155): clamp a lower or an upper bound. -/
def elemClamp (op : ElemOp) (f : Fmt) (up : Bool) (x : Fp) : Fp :=
  let v := fpXR f x
  match op with
  | .exp => if !up && xLt v xZero then .fin false 0 else x
  | .exp2 => if !up && xLt v xZero then .fin false 0 else x
  | .log => x
  | .log2 => x
  | _ => if up then (if xLt (.fin (qInt 1)) v then roundQ f .up (qInt 1) else x)
         else (if xLt v (.fin (qInt (-1))) then roundQ f .down (qInt (-1)) else x)

/-- One bound at a finite argument. -/
def elemBound (op : ElemOp) (f : Fmt) (up : Bool) (x : Q) : XR :=
  let r : Rnd := if up then .up else .down
  let t := match elemExact op x with
    | some v => roundQ f r v
    | none => elemRound f r op x 8 128
  fpXR f (elemClamp op f up (fpAtPlace f (elemPlace op f up (fpPlace f t))))

/-- Does [a, b] hold a point of the form (4m + c) π/2. -/
def hasQuarter (a b : Q) (c : Int) : Bool :=
  let na := (quadrant 128 a).1
  let nb := (quadrant 128 b).1
  decide (na + ((c - na - 1) % 4) + 1 ≤ nb) || (decide (c = 0) && qLe a (qInt 0) && qLe (qInt 0) b)

/-- The interval of f over a non-empty interval inside its domain: bounds rounded outward and stepped. lo = −∞ or 0 and hi = +∞ stand
for limits (R188). -/
def elemIvl (op : ElemOp) (f : Fmt) (lo hi : XR) : XR × XR :=
  match op with
  | .sin | .cos =>
    let sh : Int := if op = .sin then 0 else 1
    match lo, hi with
    | .fin a, .fin b =>
      let l := xMin (elemBound op f false a) (elemBound op f false b)
      let h := xMax (elemBound op f true a) (elemBound op f true b)
      (if qLe (qInt 7) (qSub b a) || hasQuarter a b ((3 - sh) % 4) then .fin (qInt (-1)) else l,
       if qLe (qInt 7) (qSub b a) || hasQuarter a b ((1 - sh) % 4) then .fin (qInt 1) else h)
    | _, _ => (.fin (qInt (-1)), .fin (qInt 1))
  | _ =>
    let lim (up : Bool) (x : XR) : XR :=
      match x with
      | .fin q =>
        if (op = .log ∨ op = .log2) ∧ q.n = 0 then .ninf else elemBound op f up q
      | .ninf => match op with
        | .tanh => .fin (qInt (-1))
        | .log => .ninf
        | .log2 => .ninf
        | _ => xZero
      | .pinf => match op with
        | .tanh => .fin (qInt 1)
        | _ => .pinf
    (lim false lo, lim true hi)

end Sys2Proof.Machine
end

