-- ==== Sys2Proof/Machine/Interval.lean ====
section
/-! DEFINITION. Interval operations on values (R149 to R161, R185 to R196): exact set results, outward rounding, decorations, set operations,
bounds, comparison and bisection. -/
namespace Sys2Proof.Machine

/-- The arithmetic and elementary words of R185. -/
inductive AOp where
  | add | sub | mul | fma | div | recip | sqr | sqrt | abs | neg | min | max
  | elem (op : ElemOp)
  deriving DecidableEq, Repr

def Ivl.isNai : Ivl → Bool
  | .nai => true
  | _ => false
def Ivl.isEmpty : Ivl → Bool
  | .empty => true
  | _ => false
/-- Non-empty with an infinite bound. -/
def Ivl.unbounded : Ivl → Bool
  | .mk lo hi => !(xIsFin lo && xIsFin hi)
  | _ => false

/-- The hull of the products of two sets. -/
def mulX (a b c d : XR) : XR × XR :=
  let p := xMulR a c; let q := xMulR a d; let r := xMulR b c; let t := xMulR b d
  (xMin (xMin p q) (xMin r t), xMax (xMax p q) (xMax r t))

/-- 1 / x for a bound of a set on one side of zero; an infinite bound gives the limit 0. -/
def recipX : XR → XR
  | .fin q => .fin (qDiv (qInt 1) q)
  | _ => xZero

/-- The hull of x / y over y ≠ 0 (R187), and whether part of y was dropped. -/
def divX (a b c d : XR) : Ivl × Bool :=
  let sc := xSgn c; let sd := xSgn d
  if sc = 0 ∧ sd = 0 then (.empty, true)
  else if sc > 0 ∨ sd < 0 then let p := mulX a b (recipX d) (recipX c); (.mk p.1 p.2, false)
  else if xSgn a = 0 ∧ xSgn b = 0 then (.mk xZero xZero, true)
  else if sc = 0 then let p := mulX a b (recipX d) .pinf; (.mk p.1 p.2, true)
  else if sd = 0 then let p := mulX a b .ninf (recipX c); (.mk p.1 p.2, true)
  else (.mk .ninf .pinf, true)

/-- √x rounded, for a rational x ≥ 0. -/
def sqrtQ (f : Fmt) (up : Bool) (x : Q) : XR :=
  if x.n = 0 then xZero
  else
    let n := x.n.natAbs
    let e := (qLog2 n x.d).fdiv 2
    let q := ulpExp f e
    let num := if q < 0 then n * 2 ^ (2 * q.natAbs) else n
    let den := if q < 0 then x.d else x.d * 2 ^ (2 * q.natAbs)
    let m := Nat.sqrt (num / den)
    let exact := decide (m * m * den = num)
    .fin (qMul (qInt ((if up && !exact then m + 1 else m : Nat) : Int)) (qPow2 q))

def absX (lo hi : XR) : XR × XR :=
  if xLe xZero lo then (lo, hi) else if xLe hi xZero then (xNegR hi, xNegR lo) else (xZero, xMax (xNegR lo) hi)

/-- The part of [lo, hi] at or above zero. -/
def clip0 (lo hi : XR) : Option (XR × XR) := if xLt hi xZero then none else some (xMax lo xZero, hi)

/-- The result of an operation on non-empty operands, rounded outward into the bound format, and whether the domain dropped a part. -/
def arithOp (f : Fmt) (op : AOp) (xs : List (XR × XR)) : Ivl × Bool :=
  match op, xs with
  | .add, [(a, b), (c, d)] => (outward f (.mk (xAddR a c) (xAddR b d)), false)
  | .sub, [(a, b), (c, d)] => (outward f (.mk (xAddR a (xNegR d)) (xAddR b (xNegR c))), false)
  | .mul, [(a, b), (c, d)] => let p := mulX a b c d; (outward f (.mk p.1 p.2), false)
  | .fma, [(a, b), (c, d), (e, g)] => let p := mulX a b c d; (outward f (.mk (xAddR p.1 e) (xAddR p.2 g)), false)
  | .div, [(a, b), (c, d)] => let r := divX a b c d; (outward f r.1, r.2)
  | .recip, [(c, d)] => let r := divX (.fin (qInt 1)) (.fin (qInt 1)) c d; (outward f r.1, r.2)
  | .sqr, [(a, b)] => let p := absX a b; (outward f (.mk (xMulR p.1 p.1) (xMulR p.2 p.2)), false)
  | .sqrt, [(a, b)] =>
    match clip0 a b with
    | none => (.empty, true)
    | some (l, h) =>
      let s (up : Bool) : XR → XR
        | .fin q => sqrtQ f up q
        | x => x
      (.mk (s false l) (s true h), xLt a xZero)
  | .abs, [(a, b)] => let p := absX a b; (.mk p.1 p.2, false)
  | .neg, [(a, b)] => (.mk (xNegR b) (xNegR a), false)
  | .min, [(a, b), (c, d)] => (.mk (xMin a c) (xMin b d), false)
  | .max, [(a, b), (c, d)] => (.mk (xMax a c) (xMax b d), false)
  | .elem .log, [(a, b)] => if xLe b xZero then (.empty, true) else let p := elemIvl .log f (xMax a xZero) b; (outward f (.mk p.1 p.2), xLe a xZero)
  | .elem .log2, [(a, b)] => if xLe b xZero then (.empty, true) else let p := elemIvl .log2 f (xMax a xZero) b; (outward f (.mk p.1 p.2), xLe a xZero)
  | .elem e, [(a, b)] => let p := elemIvl e f a b; (outward f (.mk p.1 p.2), false)
  | _, _ => (.nai, false)

/-- The bounds of non-empty operands; none if one is NaI or empty. -/
def boundsOf : List Ivl → Option (List (XR × XR))
  | [] => some []
  | .mk a b :: l => (boundsOf l).map ((a, b) :: ·)
  | _ :: _ => none

/-- An interval operation on one interval of a lane: the written value, its decoration (R157) and whether NaI was met or yielded. -/
def ivlArith (f : Fmt) (op : AOp) (xs : List Ivl) : Ivl × Nat × Bool :=
  if xs.any Ivl.isNai then (.nai, 0, true)
  else
    match boundsOf xs with
    | none => (.empty, 0, false)
    | some bs =>
      let r := arithOp f op bs
      (r.1, if r.2 then 0 else if xs.any Ivl.unbounded || r.1.unbounded then 2 else 3, r.1.isNai)

/-- xhull (R189). -/
def hullI : Ivl → Ivl → Ivl
  | .nai, _ => .nai
  | _, .nai => .nai
  | .empty, y => y
  | x, .empty => x
  | .mk a b, .mk c d => .mk (xMin a c) (xMax b d)

/-- xmeet (R189). -/
def meetI : Ivl → Ivl → Ivl
  | .nai, _ => .nai
  | _, .nai => .nai
  | .mk a b, .mk c d => if xLt (xMin b d) (xMax a c) then .empty else .mk (xMax a c) (xMin b d)
  | _, _ => .empty

/-- The largest finite value of a format. -/
def maxQ (f : Fmt) : Q := magVal f f.top

/-- The number that a bound word yields: none is NaI. -/
inductive BOp where
  | mid | rad | wid | lo | hi
  deriving DecidableEq, Repr

/-- The xmid value of a non-empty interval (R190). -/
def midX (f : Fmt) : XR → XR → XR
  | .fin a, .fin b => fpXR f (roundQ f .near (qMul (qAdd a b) ⟨1, 2⟩))
  | .ninf, .fin _ => .fin (qNeg (maxQ f))
  | .fin _, .pinf => .fin (maxQ f)
  | _, _ => xZero

/-- A number written as an interval (R190). -/
def numI (f : Fmt) : XR → Ivl
  | .fin q => .mk (.fin q) (.fin q)
  | .pinf => .mk (.fin (maxQ f)) .pinf
  | .ninf => .mk .ninf (.fin (qNeg (maxQ f)))

/-- The words of R190. -/
def boundOp (f : Fmt) (op : BOp) : Ivl → Ivl
  | .mk lo hi =>
    match op with
    | .lo => numI f lo
    | .hi => numI f hi
    | .mid => numI f (midX f lo hi)
    | .wid => match lo, hi with
      | .fin a, .fin b => numI f (fpXR f (roundQ f .up (qSub b a)))
      | _, _ => numI f .pinf
    | .rad => match lo, hi, midX f lo hi with
      | .fin a, .fin b, .fin p => numI f (fpXR f (roundQ f .up (qMax (qSub p a) (qSub b p))))
      | _, _, _ => numI f .pinf
  | _ => .nai

/-- xmake (R191). -/
def makeI (f : Fmt) (lo hi : Nat) : Ivl :=
  match fpOf f lo, fpOf f hi with
  | .nan, _ => .nai
  | _, .nan => .nai
  | .inf false, _ => .nai
  | _, .inf true => .nai
  | a, b => if xLe (fpXR f a) (fpXR f b) then .mk (fpXR f a) (fpXR f b) else .nai

/-- Is a magnitude code subnormal. -/
def isSub (f : Fmt) : Fp → Bool
  | .fin _ k => decide (0 < k) && decide (k < 2 ^ (f.p - 1))
  | _ => false

def bbit (b : Bool) (k : Nat) : Nat := if b then 2 ^ k else 0

/-- The class mask of xcls (R192). -/
def clsI (f : Fmt) (lo hi : Nat) : Nat :=
  let x := ivlBits f lo hi
  let non := bbit (ivlWrite f x != (lo, hi)) 11
  match x with
  | .nai => 2 + non
  | .empty => 1 + non
  | .mk a b =>
    non + bbit (isSub f (fpOf f lo) || isSub f (fpOf f hi)) 10 + bbit (b = .pinf) 9 + bbit (a = .ninf) 8 + bbit (xLt xZero a) 7 +
      bbit (xLt b xZero) 6 + bbit (xLe a xZero && xLe xZero b) 5 + bbit (xIsFin a && xIsFin b) 4 + bbit (xIsFin a && xEq a b) 3 +
      bbit (a = .ninf && b = .pinf) 2

/-- A predicate value: 0 false, 1 true, 2 undecided (R64). -/
abbrev Tri := Nat

def triOf (t f : Bool) : Tri := if t then 1 else if f then 0 else 2
def boolTri (b : Bool) : Tri := if b then 1 else 0

/-- Equality as sets. -/
def setEq : Ivl → Ivl → Bool
  | .empty, .empty => true
  | .mk a b, .mk c d => xEq a c && xEq b d
  | _, _ => false
/-- a ⊆ b. -/
def setSub : Ivl → Ivl → Bool
  | .empty, _ => true
  | .mk a b, .mk c d => xLe c a && xLe b d
  | _, _ => false
/-- a ∩ b is empty. -/
def setDisj : Ivl → Ivl → Bool
  | .mk a b, .mk c d => xLt (xMin b d) (xMax a c)
  | _, _ => true

/-- xcmp (R161). -/
def cmpI (c : Nat) (a b : Ivl) : Tri :=
  if a.isNai || b.isNai then 2
  else
    match c with
    | 4 => boolTri (setEq a b)
    | 5 => boolTri (!setEq a b)
    | 6 => boolTri (setSub a b)
    | 8 => boolTri (setDisj a b)
    | 7 => if a.isEmpty then 0 else triOf (setSub a b) (setDisj a b)
    | _ =>
      match a, b with
      | .mk l h, .mk l' h' =>
        match c with
        | 0 => triOf (xLt h l') (xLe h' l)
        | 1 => triOf (xLe h l') (xLt h' l)
        | 2 => triOf (xLt h' l) (xLe h l')
        | _ => triOf (xLe h' l) (xLt h l')
      | _, _ => 0

/-- A finite value of the format lies strictly between the bounds (R195). -/
def bisectable (f : Fmt) : Ivl → Bool
  | .mk lo hi =>
    let m := midX f lo hi
    xLt lo m && xLt m hi
  | _ => false

/-- One half of a bisectable interval: the lower or the upper (R196). -/
def halfI (f : Fmt) (upper : Bool) : Ivl → Ivl
  | .mk lo hi => if upper then .mk (midX f lo hi) hi else .mk lo (midX f lo hi)
  | x => x

/-! Three-valued logic (R162). -/
def triRead (x : Nat) : Tri := if x % 4 = 3 then 2 else x % 4
def triAnd (a b : Tri) : Tri := if a = 0 ∨ b = 0 then 0 else if a = 1 ∧ b = 1 then 1 else 2
def triOr (a b : Tri) : Tri := if a = 1 ∨ b = 1 then 1 else if a = 0 ∧ b = 0 then 0 else 2
def triXor (a b : Tri) : Tri := if a = 2 ∨ b = 2 then 2 else if a = b then 0 else 1
def triNot (a : Tri) : Tri := if a = 2 then 2 else 1 - a

end Sys2Proof.Machine
end

