-- ==== Sys2Proof/Machine/Conv.lean ====
section
/-! DEFINITION. Narrowing (R160), MK8 (R137 to R140), block scales (R141, R142), memory forms (R143 to R148) and conversions (R208 to R214). -/
namespace Sys2Proof.Machine

/-- A point that a conversion forms: a NaN, the target's largest finite value with a sign, or an exact value and a direction. -/
inductive Pt where
  | nan
  | top (neg : Bool)
  | val (x : XR) (r : Rnd)
  deriving DecidableEq, Repr

/-- The rounding direction of a narrowing mode: 0 LOWER, 1 UPPER, 2 MID_NE, 3 MID_TZ (R72, R210). -/
def nrmRnd (nrm : Nat) : Rnd :=
  match nrm with
  | 0 => .down
  | 1 => .up
  | 2 => .near
  | _ => .zero

/-- The table of R160. -/
def narrow (nrm : Nat) : Ivl → Pt
  | .mk lo hi =>
    match nrm with
    | 0 => .val lo .down
    | 1 => .val hi .up
    | _ =>
      match lo, hi with
      | .fin a, .fin b => .val (.fin (qMul (qAdd a b) ⟨1, 2⟩)) (nrmRnd nrm)
      | .ninf, .fin _ => .top true
      | .fin _, .pinf => .top false
      | _, _ => .val xZero .near
  | _ => .nan

/-- A point in a binary format and whether it saturates: only E4M3, which has no infinities, saturates (R211). -/
def ptFp (f : Fmt) : Pt → Fp × Bool
  | .nan => (.nan, false)
  | .top neg => (.fin neg f.top, false)
  | .val x r =>
    if f.inf then
      match x with
      | .fin q =>
        match roundQ f r q with
        | .inf neg => (if r = .zero ∨ (r = .down ∧ !neg) ∨ (r = .up ∧ neg) then .fin neg f.top else .inf neg, false)
        | y => (y, false)
      | .ninf => (.inf true, false)
      | .pinf => (.inf false, false)
    else
      match x with
      | .fin q => if qLt (maxQ f) (qAbs q) then (.fin (decide (q.n < 0)) f.top, true) else (roundQ f r q, false)
      | .ninf => (.fin true f.top, true)
      | .pinf => (.fin false f.top, true)

/-- An interval narrowed to a point of a format (R160). -/
def narrowFp (f : Fmt) (nrm : Nat) (i : Ivl) : Fp × Bool := ptFp f (narrow nrm i)

/-- The magnitude of an MK8 body (R137). -/
def mk8Mag (b : Nat) : Q :=
  if b ≥ 64 then ⟨(64 + 9 * (b - 64) : Nat), 64⟩
  else if b ≥ 32 then ⟨(32 + 9 * (b - 32) : Nat), 320⟩
  else if b ≥ 16 then ⟨(16 + 9 * (b - 16) : Nat), 1600⟩
  else if b ≥ 8 then ⟨(4 + 9 * (b % 4) : Nat), if b ≥ 12 then 4000 else 40000⟩
  else if b ≥ 4 then ⟨(2 + 9 * (b % 2) : Nat), if b ≥ 6 then 200000 else 2000000⟩
  else if b = 3 then ⟨1, 10000000⟩
  else if b = 2 then ⟨1, 100000000⟩
  else if b = 1 then ⟨1, 1000000000⟩
  else qInt 0

/-- The value of an MK8 byte; none is NaR (R137). -/
def mk8Val (b : Nat) : Option Q :=
  if b = 128 then none else if b ≥ 128 then some (qNeg (mk8Mag (b - 128))) else some (mk8Mag b)

/-- The largest body whose magnitude is at most x: a binary search over the seven body bits. -/
def mk8Floor (x : Q) : Nat :=
  [64, 32, 16, 8, 4, 2, 1].foldl (fun b k => if qLe (mk8Mag (b + k)) x then b + k else b) 0

/-- The MK8 byte of a value (R139), and whether it saturates. -/
def mk8Of : Fp → Q → Nat × Bool
  | .nan, _ => (128, false)
  | .inf neg, _ => (if neg then 255 else 127, true)
  | .fin _ _, x =>
    let a := qAbs x
    if qLt (mk8Mag 127) a then (if x.n < 0 then 255 else 127, true)
    else
      let b := mk8Floor a
      let k :=
        if b = 127 then 127
        else
          let d := qSub a (mk8Mag b)
          let u := qSub (mk8Mag (b + 1)) a
          if qLt d u then b else if qLt u d then b + 1 else if b % 2 = 0 then b else b + 1
      (if k = 0 then 0 else if x.n < 0 then 128 + k else k, false)

/-- The exact rational of a finite datum. -/
def fpQ (f : Fmt) : Fp → Q
  | .fin neg k => fpVal f neg k
  | _ => qInt 0

/-- An FP32 point rounded into MK8 (R139, R211). -/
def mk8OfFp32 (x : Fp) : Nat × Bool := mk8Of x (fpQ fp32 x)

/-- The point interval of an exact value of an MK8 byte (R140). -/
def mk8Ivl (b : Nat) : Ivl :=
  match mk8Val b with
  | some q => .mk (.fin q) (.fin q)
  | none => .nai

/-- A point datum read as an interval with its format's own overflow reading (R145, R210). -/
def ptIvl (f : Fmt) : Fp → Ivl
  | .nan => .nai
  | .inf false => .mk (.fin (maxQ f)) .pinf
  | .inf true => .mk .ninf (.fin (qNeg (maxQ f)))
  | .fin neg k => .mk (.fin (fpVal f neg k)) (.fin (fpVal f neg k))

/-! Memory forms (R143 to R148). -/

/-- Bytes per lane (R143). -/
def formBytes (t : Ty) (form : Nat) : Nat :=
  match form with
  | 0 => match t with
    | .i32 | .n32 | .b32 => 4
    | .x64 => 16
    | _ => 8
  | 1 => 16
  | 2 => 4
  | 3 => 4
  | 4 => 1
  | _ => 2

/-- The ulp of a cm midpoint of exponent field e (R146). -/
def cmUlp (e : Nat) : Q := if e = 0 then qPow2 (-141) else qPow2 ((e : Int) - 142)

/-- A cm word loaded (R146). -/
def cmLoad (w : Nat) : Ivl :=
  let m := w / 256 * 256
  let r := w % 256
  let e := w / 2 ^ 23 % 256
  match fpOf fp32 m with
  | .nan => .nai
  | .inf neg => if !neg && decide (r = 0) then .empty else .mk .ninf .pinf
  | .fin neg k =>
    if r = 255 then .mk .ninf .pinf
    else
      let c := fpVal fp32 neg k
      let d := qMul (qInt (r : Int)) (cmUlp e)
      .mk (.fin (qSub c d)) (.fin (qAdd c d))

/-- The format of a cm midpoint: FP32 with 16 significand bits. -/
def cmFmt : Fmt := ⟨24, 16, 127, 0x7F7FFF, true, 0x7FC000⟩

/-- The least n with n · u ≥ x, for x ≥ 0 and u > 0. -/
def qCeilDiv (x u : Q) : Nat := (-(qFloor (qNeg (qDiv x u)))).toNat

/-- A cm word stored (R147). The sign of M where a negative midpoint rounds to zero is a free value (DESIGN CHOICE, log 23: R147 states
none). -/
def cmStore : Ivl → Nat
  | .nai => 0x7FC00000
  | .empty => 0x7F800000
  | .mk (.fin lo) (.fin hi) =>
    let c := qMul (qAdd lo hi) ⟨1, 2⟩
    match roundQ cmFmt .near c with
    | .fin neg k =>
      let m := fpVal cmFmt neg k
      let u := cmUlp (k / 2 ^ 15)
      let r := max (qCeilDiv (qMax (qSub m lo) (qInt 0)) u) (qCeilDiv (qMax (qSub hi m) (qInt 0)) u)
      fpBitsOpen cmFmt 20 c (.fin neg k) * 256 + min r 255
    | _ => 0x000000FF
  | .mk _ _ => 0x000000FF

/-- A lane's value in memory, read: the element of the (even) register, the element of the odd register for .x64, and whether NaI came
of a form that is not raw. -/
def loadForm (t : Ty) (form : Nat) (v : Nat) : Word64 × Word64 × Bool :=
  let one (i : Ivl) : Word64 × Word64 × Bool := (x32Write i, 0, i.isNai)
  match form with
  | 0 => match t with
    | .x64 => (BitVec.ofNat 64 v, BitVec.ofNat 64 (v / 2 ^ 64), false)
    | _ => (BitVec.ofNat 64 v, 0, false)
  | 1 =>
    let i := ivlBits fp64 (v % 2 ^ 64) (v / 2 ^ 64)
    match t with
    | .x64 => let p := ivlWrite fp64 i; (BitVec.ofNat 64 p.1, BitVec.ofNat 64 p.2, i.isNai)
    | _ => one i
  | 2 => one (cmLoad v)
  | 3 => one (ptIvl fp32 (fpOf fp32 v))
  | 4 => one (mk8Ivl v)
  | _ => one (ptIvl bf16 (fpOf bf16 v))

/-- A lane's register value as stored: the bytes as a number, and whether it saturates (k8). -/
def storeForm (t : Ty) (form nrm : Nat) (a b : Word64) : Nat × Bool :=
  match form with
  | 0 => match t with
    | .i32 | .n32 | .b32 => (a.toNat % 2 ^ 32, false)
    | .x64 => (b.toNat * 2 ^ 64 + a.toNat, false)
    | _ => (a.toNat, false)
  | 1 =>
    let i := match t with
      | .x64 => ivlBits fp64 a.toNat b.toNat
      | _ => x32Read a
    let p := ivlWrite fp64 i
    (p.2 * 2 ^ 64 + p.1, false)
  | 2 => (cmStore (x32Read a), false)
  | 3 => (fpBits fp32 (narrowFp fp32 nrm (x32Read a)).1, false)
  | 4 => mk8OfFp32 (narrowFp fp32 nrm (x32Read a)).1
  | _ => (fpBits bf16 (narrowFp bf16 nrm (x32Read a)).1, false)

/-! Block quantisation (R141, R142). Points are FP32 data. -/

/-- The target byte of a value: TGT 0 k8, 1 e4, 2 e5. The sign of an E4M3 or E5M2 zero, of a zero point or of a negative quotient, is a free value
(DESIGN CHOICE, log 23: R142 states none; R139 fixes it for MK8). -/
def qntByte (tgt : Nat) (x : Fp) (q : Q) : Nat × Bool :=
  match tgt with
  | 0 => mk8Of x q
  | t =>
    let f := if t = 1 then e4m3 else e5m2
    match x with
    | .nan => (f.nan, false)
    | .inf neg => (fpBits f (.fin neg f.top), true)
    | .fin neg _ =>
      if q.n = 0 then (if Config.zeroSign (266 + t) (bbit neg 0) 1 0 then 2 ^ (f.w - 1) else 0, false)
      else if qLt (maxQ f) (qAbs q) then (fpBits f (.fin (decide (q.n < 0)) f.top), true) else (fpBitsOpen f (10 + t) q (roundQ f .near q), false)

def qntMax (tgt : Nat) : Q := match tgt with
  | 0 => mk8Mag 127
  | 1 => qInt 448
  | _ => qInt 57344

def qntNan (tgt : Nat) : Nat := match tgt with
  | 0 => 128
  | 1 => e4m3.nan
  | _ => e5m2.nan

/-- The exact quotient rounded toward +∞ into the scale format: its bits, its value and whether it exceeds the largest (R142). -/
def qntScale (scf : Nat) (q : Q) : Nat × Q × Bool :=
  if scf = 0 then
    match roundQ bf16 .up q with
    | .fin _ k => (k, magVal bf16 k, false)
    | _ => (0x7F7F, maxQ bf16, true)
  else
    let e := qLog2 q.n.natAbs q.d
    let k := if qEq q (qPow2 e) then e else e + 1
    if k < -127 then (0, qPow2 (-127), false) else if 127 < k then (0xFE, qPow2 127, true) else ((k + 127).toNat, qPow2 k, false)

/-- A block of FP32 points quantised: the scale's bits, and each point's byte with its saturation. -/
def qntBlock (tgt scf : Nat) (pts : List Fp) : Nat × List (Nat × Bool) :=
  let bad := pts.any fun x => match x with
    | .fin _ _ => false
    | _ => true
  if bad then (if scf = 0 then 0x7FC0 else 0xFF, pts.map fun _ => (qntNan tgt, false))
  else
    let bm := pts.foldl (fun m x => qMax m (qAbs (fpQ fp32 x))) (qInt 0)
    if bm.n = 0 then (if scf = 0 then 0x3F80 else 0x7F, pts.map fun _ => (0, false))
    else
      let s := qntScale scf (qDiv bm (qntMax tgt))
      (s.1, pts.map fun x =>
        let q := fpQ fp32 x
        let r := qntByte tgt x (qDiv q s.2.1)
        (r.1, r.2 || (s.2.2 && qEq (qAbs q) bm)))

/-- The value of a scale; none where it is not valid (R141, R214). -/
def scaleVal (scf bits : Nat) : Option Q :=
  if scf = 0 then
    match fpOf bf16 (bits % 2 ^ 16) with
    | .fin false k => if k = 0 then none else some (magVal bf16 k)
    | _ => none
  else if bits % 256 = 255 then none else some (qPow2 ((bits % 256 : Nat) - 127))

/-- dqnt of a byte and a scale (R214). -/
def dqntI (tgt scf byte scale : Nat) : Ivl :=
  match scaleVal scf scale with
  | none => .nai
  | some s =>
    if tgt = 0 then
      match mk8Val byte with
      | none => .nai
      | some b => .mk (.fin (qMul b s)) (.fin (qMul b s))
    else
      let f := if tgt = 1 then e4m3 else e5m2
      match fpOf f byte with
      | .nan => .nai
      | .inf neg => if neg then .mk .ninf (.fin (qNeg (qMul (maxQ f) s))) else .mk (.fin (qMul (maxQ f) s)) .pinf
      | .fin neg k => let b := qMul (fpVal f neg k) s; .mk (.fin b) (.fin b)

/-! Conversions (R208 to R212). -/

/-- A source value of cvt. -/
inductive CVal where
  | int (z : Int)
  | pt (f : Fmt) (x : Fp)
  | mk8 (b : Nat)
  | ivl (i : Ivl)
  deriving DecidableEq, Repr

/-- Signed value of n bits. -/
def sext (n v : Nat) : Int := if v % 2 ^ n < 2 ^ (n - 1) then ((v % 2 ^ n : Nat) : Int) else ((v % 2 ^ n : Nat) : Int) - ((2 ^ n : Nat) : Int)

/-- The binary point format of a cvt code. -/
def cvtPt (f : Nat) : Fmt :=
  match f with
  | 11 => e4m3
  | 12 => e5m2
  | 16 => fp32
  | 17 => fp64
  | 18 => bf16
  | _ => fp16

/-- The value of slot k of a source element (R208); hi is the odd register of an .x64 pair. -/
def cvtRead (sf k : Nat) (a hi : Nat) : CVal :=
  match sf with
  | 0 => .int (sext 32 a)
  | 1 => .int ((a % 2 ^ 32 : Nat) : Int)
  | 2 => .int (sext 64 a)
  | 3 => .int (a : Int)
  | 6 => .ivl (ivlBits fp32 (a % 2 ^ 32) (a / 2 ^ 32))
  | 7 => .ivl (ivlBits fp64 a hi)
  | 8 => .ivl (ivlBits bf16 (a / 2 ^ (32 * k) % 2 ^ 16) (a / 2 ^ (32 * k + 16) % 2 ^ 16))
  | 9 => .ivl (ivlBits fp16 (a / 2 ^ (32 * k) % 2 ^ 16) (a / 2 ^ (32 * k + 16) % 2 ^ 16))
  | 14 => .ivl (mrRead bf16 (a / 2 ^ (32 * k) % 2 ^ 16) (a / 2 ^ (32 * k + 16) % 2 ^ 16))
  | 10 => .mk8 (a / 2 ^ (8 * k) % 256)
  | 13 => .int (sext 8 (a / 2 ^ (8 * k)))
  | f => let t := cvtPt f; .pt t (fpOf t (a / 2 ^ (t.w * k) % 2 ^ t.w))

/-- The range of an integer format. -/
def intRange (df : Nat) : Int × Int :=
  match df with
  | 0 => (-(2 ^ 31), 2 ^ 31 - 1)
  | 1 => (0, 2 ^ 32 - 1)
  | 2 => (-(2 ^ 63), 2 ^ 63 - 1)
  | 3 => (0, 2 ^ 64 - 1)
  | _ => (-128, 127)

/-- A rational rounded to an integer. -/
def qRoundInt (r : Rnd) (x : Q) : Int :=
  let fl := qFloor x
  match r with
  | .down => fl
  | .up => -(qFloor (qNeg x))
  | .zero => if x.n < 0 then -(qFloor (qNeg x)) else fl
  | .near =>
    let d := qSub (qSub x (qInt fl)) ⟨1, 2⟩
    if d.n < 0 then fl else if d.n = 0 then (if fl % 2 = 0 then fl else fl + 1) else fl + 1

/-- A point into an integer range, saturating (R210). -/
def ptInt (rg : Int × Int) : Pt → Int × Bool
  | .nan => (0, true)
  | .top neg => if neg then (if -rg.2 < rg.1 then (rg.1, true) else (-rg.2, false)) else (rg.2, false)
  | .val .ninf _ => (rg.1, true)
  | .val .pinf _ => (rg.2, true)
  | .val (.fin q) r =>
    let z := qRoundInt r q
    if z < rg.1 then (rg.1, true) else if rg.2 < z then (rg.2, true) else (z, false)

/-- Width of a slot of a format. -/
def cvtWidth (f : Nat) : Nat :=
  match f with
  | 0 | 1 | 16 => 32
  | 8 | 9 | 14 => 32
  | 10 | 11 | 12 | 13 => 8
  | 18 | 19 => 16
  | _ => 64

/-- The point that a source value gives under a narrowing mode, for a point or integer destination. -/
def cvalPt (nrm : Nat) : CVal → Pt
  | .int z => .val (.fin (qInt z)) (nrmRnd nrm)
  | .pt _ .nan => .nan
  | .pt f x => .val (fpXR f x) (nrmRnd nrm)
  | .mk8 b => match mk8Val b with
    | some q => .val (.fin q) (nrmRnd nrm)
    | none => .nan
  | .ivl i => narrow nrm i

/-- The interval that a source value denotes (R210). -/
def cvalIvl : CVal → Ivl
  | .int z => .mk (.fin (qInt z)) (.fin (qInt z))
  | .pt f x => ptIvl f x
  | .mk8 b => mk8Ivl b
  | .ivl i => i

/-- Does R210 leave the sign of this source's zero open: a binary point, and an MK8 value below zero that rounds to one (DESIGN CHOICE,
log 23). A zero of an integer or of the unsigned zero of MK8 is +0, and R160 writes a narrowed interval's zero as +0. -/
def zeroOpen : CVal → Bool
  | .pt _ _ => true
  | .mk8 b => decide (128 < b)
  | _ => false

/-- One converted slot: its bits (the odd register's bits for .x64), saturation, NaI met or yielded. An MK8 source is rounded from its
exact decimal value into the destination's own bound format (DESIGN CHOICE, log 68: R140 speaks of an FP32 interval alone). -/
def cvtSlot (df sf nrm : Nat) (raw : Nat) (v : CVal) : Nat × Nat × Bool × Bool :=
  let nai := match v with
    | .ivl i => i.isNai
    | _ => false
  match df with
  | 6 => let i := cvalIvl v; let p := ivlWrite fp32 i; (p.2 * 2 ^ 32 + p.1, 0, false, i.isNai)
  | 7 => let i := cvalIvl v; let p := ivlWrite fp64 i; (p.1, p.2, false, i.isNai)
  | 8 => let i := cvalIvl v; let p := ivlWrite bf16 i; (p.2 * 2 ^ 16 + p.1, 0, false, i.isNai)
  | 9 => let i := cvalIvl v; let p := ivlWrite fp16 i; (p.2 * 2 ^ 16 + p.1, 0, false, i.isNai)
  | 14 => let i := cvalIvl v; (mp16Write i, 0, false, i.isNai)
  | 10 =>
    let x := (ptFp fp32 (cvalPt nrm v)).1
    let r := mk8OfFp32 x
    (r.1, 0, r.2, nai)
  | 0 | 1 | 2 | 3 | 13 =>
    let r := ptInt (intRange df) (cvalPt nrm v)
    ((r.1 % 2 ^ 64).toNat, 0, r.2, nai)
  | f =>
    let t := cvtPt f
    let r := ptFp t (cvalPt nrm v)
    let b := fpBits t r.1
    (if b = 0 && zeroOpen v && Config.zeroSign df sf raw nrm then 2 ^ (t.w - 1) else b, 0, r.2, nai)

/-- Values per element of a format (R208). -/
def cvtCnt (f : Nat) : Nat :=
  match f with
  | 8 | 9 | 14 => 2
  | 10 | 11 | 12 | 13 => 8
  | 18 | 19 => 4
  | _ => 1

/-- A lane's conversion (R209): the old destination element, the source element and its odd register; the new element, the odd
register's element for .x64, SAT and NAI. -/
def cvtLane (df sf part nrm : Nat) (old a hi : Nat) : Nat × Nat × Bool × Bool :=
  let cs := cvtCnt sf
  let cd := cvtCnt df
  let n := min cs cd
  let wd := cvtWidth df
  let slots := (List.range n).map fun k =>
    let sk := if cd < cs then part * cd + k else k
    let dk := if cs < cd then part * cs + k else k
    (dk, cvtSlot df sf nrm (a / 2 ^ (cvtWidth sf * sk) % 2 ^ cvtWidth sf) (cvtRead sf sk a hi))
  let base := if cs < cd then old else 0
  let put (e : Nat) (p : Nat × (Nat × Nat × Bool × Bool)) : Nat :=
    let lo := e % 2 ^ (wd * p.1)
    let up := e / 2 ^ (wd * (p.1 + 1))
    lo + (p.2.1 % 2 ^ wd) * 2 ^ (wd * p.1) + up * 2 ^ (wd * (p.1 + 1))
  (slots.foldl put base, (slots.map fun p => p.2.2.1).headD 0, slots.any fun p => p.2.2.2.1, slots.any fun p => p.2.2.2.2)

end Sys2Proof.Machine
end

