-- ==== Sys2Proof/Machine/State.lean ====
section
/-! DEFINITION. The state of the device: every piece of state the manual names, as plain data, and the state right after reset. -/
namespace Sys2Proof.Machine

/-- The ordering codes of R1. -/
inductive OrderCode where
  | pkg640 | mod640 | mod600
  deriving DecidableEq, Repr

/-- Why the machine stops with a fault: only a device event that the state does not admit. -/
inductive Fault where
  /-- Raised by the meaning of an event row whose condition does not hold in the state: the event cannot come about there. Safe: the
  model stops where the device has no such event. -/
  | notEnabled (event : String)
  deriving DecidableEq, Repr

/-- Why an instruction is refused. -/
inductive Refusal where
  /-- Raised by exec for an instruction without a meaning yet. Safe: the model stops. -/
  | notModelled (mnemonic : String)
  deriving DecidableEq, Repr

/-- What moves next: a device event, an issue of a partition of a core, a word in progress of a group's k-th split; an issue whose accesses are
performed later, one half of a lane's access of such a word; one granule of a copy out of order; an item that enters its bin; a grant of an arbiter of the on-die network; a
read of an array of a die that meets a correctable error, or an access to a unit that meets an uncorrectable one, in the data that two numbers name
(R453); a read of BAR0 by the host (R503); a sensor's reading of an island, by the limit that it is held to (R513). -/
inductive Move where
  | ev (i : Instr)
  | issue (core part : Nat)
  | drive (gh k : Nat)
  | late (core part : Nat)
  | perform (core k lane half : Nat)
  | granule (core k : Nat)
  | land (core k : Nat)
  | grant (die stop loop : Nat)
  | softError (die : Nat)
  | hardError (unit a b : Nat)
  | hostRead (off size : Nat)
  | reading (island limit value mhz : Nat)
  deriving DecidableEq, Repr

/-- The word being executed: its group, its split, its PCs (R102), whether it came from the lane code section or is a V-word, and whether it
turned out to be unable to issue. -/
structure Cur where
  gh   : Nat
  sp   : Nat
  pcA  : Nat
  pcB  : Nat
  isV  : Bool
  last : Bool     -- the last V-word of its venq run (R340)
  held : Bool     -- the word could not issue: nothing of it has happened (R379)
  deriving DecidableEq, Repr

/-- A pool item with the pop counter it recorded, the pops it has waited, and, where its data is poison, the address at which that was met (R370,
R375, R454). -/
structure PoolItem where
  item   : BitVec 512
  mark   : Nat
  waited : Nat
  pois   : Option Nat
  deriving DecidableEq, Repr

/-- What a split waits for (R379). A waiting word that is executed again when it is next tried is a retry. -/
inductive Hold where
  | none
  | retry
  | commit (todo : Word32) (ab : List (Nat × Nat × Nat))   -- a tcommit that waits for the lines of lanes, and the aborts it will make (R344)
  | ldfe                                            -- lanes of it wait on full-empty bits (R269)
  | take (drain : Bool) (d : Nat) (since : Nat)     -- R398
  | gwait (d : Nat) (k : Nat)                       -- R354; k is zero until a grace period that serves it has begun
  | groom (node head k : Nat)                       -- a gdefer that waits for room (R355); k as above
  | bar (kind : Nat) (count : Nat)                  -- at a barrier word: 0-15 nbK, 16 tbar, 17 qbar (count holds the mask)
  | mig (d : Nat) (toD : Bool)                      -- R410
  | mpair (d : Nat) (since : Nat)                   -- R249
  | trapw (code : Nat) (mask : Word32) (imm pcA pcB : Nat)   -- a trap whose handler row is still being read (R408, R449)
  deriving DecidableEq, Repr

/-- A V-word in a lane queue: its offset in the lane section, the scalar PC of its venq, and whether it ends its run (R98, R102). -/
structure QEnt where
  off  : Nat
  pc   : Nat
  last : Bool
  deriving DecidableEq, Repr

/-- A memory word that a split has issued and that has not yet acted for all its lanes: the operands read at issue (R317), the lanes that
have acted, and what they have read (R322). -/
structure MemW where
  id   : Nat             -- order number of its issue
  strm : Nat
  act  : Word32
  addr : AMap Nat
  d0   : AMap Word64     -- store data or operand b, by lane; the odd register's in d1
  d1   : AMap Word64
  c0   : AMap Word64     -- compare value
  c1   : AMap Word64
  ctl  : Word64          -- destination set
  nrm  : Nat
  got  : Word32
  vals : AMap Word64     -- register offset * 32 + lane
  nai  : Word32
  sp   : Bool            -- it accesses scratchpads
  wr   : Bool            -- it writes
  sw   : Bool            -- it is an sld or sst, a word of the scalar stream
  again : AMap Nat        -- pages found unmapped, with 1 and the number of times they have been asked for since (R430)
  deriving DecidableEq, Repr

/-- A split (R36, R59). -/
structure Split where
  mask  : Word32
  pc    : Nat            -- L PC or D scalar PC
  lpc   : Nat            -- D lane PC (R102)
  queue : List QEnt
  hinge : Nat            -- HINGE.ID
  twinA : Nat            -- TWINPC.PCA
  twinB : Nat            -- TWINPC.PCB
  pmask : Word32         -- partial-completion mask (R322)
  mem   : Option MemW
  items : List (BitVec 512)   -- items that its spawn or split still has to place (R50)
  hold  : Hold
  age   : Nat            -- cycles of its partition in which it was ready and did not issue (R379)
  aged  : Bool           -- it has reached the issue-age bound (R40, R380)
  fromA : Nat            -- PCs of the word that passed control (R92)
  fromB : Nat
  first : Bool           -- no word has passed control yet
  deriving DecidableEq, Repr

/-- A deferred entry (R38, R41, R42). -/
structure Defer where
  mask  : Word32
  pc    : Nat
  lpc   : Nat
  hinge : Nat
  twinA : Nat
  twinB : Nat
  fromA : Nat
  fromB : Nat
  deriving DecidableEq, Repr

/-- A register write that a counted instruction still has to make (R94): the kind (0 vector, 1 scalar, 2 predicate; 3 a vector element, 4 a
scalar, whose value has not been formed yet), the place, the value, and whether a later instruction wrote the place meanwhile (R96). -/
structure PW where
  kind : Nat
  key  : Nat
  val  : Word64
  con  : Bool
  deriving DecidableEq, Repr

/-- A counted instruction that has not completed (R94): its counter class, its identity, whether lanes of it still wait. -/
structure Pend where
  cls  : Nat
  id   : Nat
  wait : Bool
  ws   : List PW
  deriving DecidableEq, Repr

/-- A lane's transaction state (R338) with its sets (R342). -/
structure Tx where
  active  : Bool
  irrev   : Bool
  stream  : Nat
  statreg : Nat
  abortA  : Nat
  abortB  : Nat
  txpc    : Nat
  ccount  : Nat
  last    : Nat
  doomed  : Bool
  rlines  : List Nat
  wlines  : List Nat
  wattr   : AMap Nat           -- what the stores to each line of the write set ask of the L2 (R262, R265)
  rbytes  : List Host.Cell     -- bytes read, by location
  wbytes  : List Host.Cell     -- bytes buffered, by location
  deriving DecidableEq, Repr

/-- The trap frame (R449). -/
structure Frame where
  split : Nat             -- lane mask of the trapping split, as a number
  pc    : Nat
  lpc   : Nat
  queue : List QEnt
  s124  : Word64
  s125  : Word64
  s126  : Word64
  s127  : Word64
  hinge : Nat
  twinA : Nat
  twinB : Nat
  deriving DecidableEq, Repr

/-- Registers of a group that matrix drains and grace periods use (R242, R246, R352). -/
structure GMisc where
  opready   : Bool
  dpitch    : Word64
  biasoff   : Word64
  actoff    : Word64
  amaxaddr  : Word64
  scaleaddr : Word64
  owed      : Word32
  owedK     : Nat
  passAt    : Nat             -- order number of the last point at which an owed lane passed (R354)
  deriving DecidableEq, Repr

/-- A push that its group awaits: its line, the core that sent it, its stream, its destinations (R288, R308). -/
structure PushOut where
  id     : Nat                -- order number of its word's issue
  line   : Nat
  core   : Nat
  stream : Nat
  dests  : List Nat
  deriving DecidableEq, Repr

/-- A group (R30, R59). -/
structure Group where
  team   : Nat
  idx    : Nat
  stage  : Nat
  allot  : Nat
  part   : Nat
  v      : AMap Word64      -- register * 32 + lane
  s      : AMap Word64
  q      : AMap Word64
  j      : AMap Nat
  status : AMap Word32      -- reset 3
  done   : Word32
  exited : Word32
  tags   : List (Nat × Bool)
  nrm    : Nat
  trapen : Nat
  dstrm  : Nat
  pend   : List Pend
  misc   : GMisc
  tx     : AMap Tx
  frame  : Option Frame
  splits : List Split
  defer  : List Defer
  spills : Nat               -- entries held in the spill area (R42)
  spillFrom : List (Nat × Nat) -- for each of them, the last spilled first: the PCs of the word that passed control (R75)
  vpois  : AMap Bool         -- poisoned register elements (R454)
  pushes : List PushOut      -- outstanding pushes (R288)
  frel   : AMap Nat          -- stream * 33 + lane, lane 32 the split: the scope, plus 1, of a release fence whose release store is still to come (R280)
  stopped : Bool             -- stopped by a pre-emption or a hard stop (R413, R415)
  isNative  : Bool             -- its save must be native (R415)
  retired : Bool             -- retired, its registers not yet released (R400)
  deriving DecidableEq, Repr

/-- What a peer window is bound to (R257). -/
inductive Peer where
  | unbound
  | team (t : Nat)
  | gone
  deriving DecidableEq, Repr

/-- A team (R32, R59). -/
structure Team where
  ctx    : Nat
  slot   : Nat
  entry  : Nat
  core   : Nat
  isL    : Bool
  reg    : Word64             -- TEAM
  size   : Nat                -- groups
  off    : Nat                -- scratchpad allocation
  bytes  : Nat
  ntiles : Nat
  tiles  : AMap Word64        -- (tile * 64 + row) * 64 + column
  ovf    : AMap Bool
  tpois  : AMap Bool
  nb     : AMap (Nat × Word32)   -- expected count and arrived groups
  tbar   : Word32
  qarr   : Word32
  qmask  : Nat
  qphase : Nat                -- completed qbar phases
  migarr : Word32
  pair   : Option Nat         -- the paired team
  peers  : AMap Peer
  age    : Nat
  gone   : Bool               -- retired
  saved  : Bool               -- saved to the save area
  moving : Bool               -- migrating
  target : Option (Nat × List Nat)   -- the core reserved for its migration, with a partition for each group (R412)
  preempt : Bool              -- pre-empted by the scheduler (R413)
  deriving DecidableEq, Repr

/-- The states of an L1 line (R300). -/
inductive L1St where
  | i | s | e | o | m | isd | ima | sma | oma | mia | oia | eia | iia
  deriving DecidableEq, Repr

/-- An L1 line: its state, replacement priority (0 evict-first, 1 normal, 2 evict-last), and the context whose untouched push it is. A line that
waits for its data as a miss, or that is being put back, holds no way of its set (R266). -/
structure L1Line where
  line : Nat
  st   : L1St
  prio : Nat
  push : Option Nat
  sbytes : List Nat           -- locations of the accesses that wait on the line (R301)
  way  : Bool                 -- it holds a way of its set (R266)
  ctx  : Option Nat           -- the context that asked for it, while it has work here (R313)
  pois : List Nat             -- units that are poison in this copy alone (R453, R454)
  deriving DecidableEq, Repr

/-- An L2 line (R262, R265). -/
structure L2Line where
  line : Nat
  cls  : Nat
  prio : Nat
  deriving DecidableEq, Repr

/-- A translation entry (R428). -/
structure XEnt where
  ctx : Nat
  map : PageMap
  tag : Nat                   -- the key tag of the block when it was filled (R434)
  deriving DecidableEq, Repr

/-- A bin (R368, R370). -/
structure Bin where
  banks   : AMap (List PoolItem)
  pops    : Nat
  timer   : Bool              -- runs
  expired : Bool
  waited  : Bool              -- waited 4,096 cycles without firing (R372)
  low     : Nat               -- the order in which it fell under a quarter (R375)
  filling : Bool              -- it is being refilled until it is at or above half (R375)
  deriving DecidableEq, Repr

/-- The latch entry of a result: the register it is for, its values by lane, the lanes written, and the counted instruction it still waits
for (R65). -/
structure LatchEnt where
  reg  : Nat
  vals : AMap Word64
  mask : Word32
  pend : Option Nat
  deriving DecidableEq, Repr

/-- A lane that waits in ldfe (R269). -/
structure Waiter where
  granule : Nat               -- core of the granule * 2^17 + granule
  team    : Nat               -- the team of the allocation (R258)
  strm    : Nat
  gh      : Nat
  lane    : Nat
  addr    : Nat               -- scratchpad offset
  take    : Bool
  ty      : Ty
  form    : Nat
  d       : Nat
  n       : Bool
  pend    : Nat
  deriving DecidableEq, Repr

/-- A matrix command's operation (R238). -/
inductive MOp where
  | loop (f : MloopF) (a0 a1 b0 b1 : Word64) (ainc binc : Nat)
  | zero
  | load (addr : Nat) (pitch : Nat)
  | drain (f : MdrnF) (dst : Word64) (m : GMisc)
  | rd (act : Word32) (d row : Nat)
  | wr (act : Word32) (a row : Nat)
  deriving DecidableEq, Repr

/-- Where a fault stands: the fields of its record (R446). -/
structure FaultAt where
  core  : Nat
  hinge : Nat
  group : Nat
  slot  : Nat
  team  : Word64
  pcA   : Nat
  pcB   : Nat
  twinA : Nat
  twinB : Nat
  isD   : Bool
  deriving DecidableEq, Repr

/-- A command in a matrix engine's queue, with the registers and scratchpad as they stood at issue (R243). -/
structure MCmd where
  op     : MOp
  id     : Nat
  gh     : Nat
  stream : Nat
  tile   : Nat
  nrm    : Nat
  step   : Nat
  agreed : Bool
  vSnap  : AMap Word64
  spSnap : AMap Byte
  org    : FaultAt            -- its word's place, for the record of a fault it raises (R446)
  deriving DecidableEq, Repr

/-- A command in a copy engine's queue (R333). -/
structure CCmd where
  f      : CpyF
  id     : Nat
  gh     : Nat
  dst    : Word64
  src    : Word64
  ctl    : Word64
  begun  : Bool
  pos    : Nat                -- granules copied in order
  early  : List Nat           -- granules copied ahead of them (R294)
  org    : FaultAt            -- its word's place (R446)
  deriving DecidableEq, Repr

/-- What a side-log entry does when it is replayed (R322). -/
inductive SOp where
  | store
  | push (dests : List Nat)
  | atom (aop : Nat) (ty : Ty) (ops : List (Nat × Nat × Nat))   -- address, b and c of each lane, in lane order
  | amax (v : Nat)
  deriving DecidableEq, Repr

/-- A side-log entry (R322). -/
structure SEnt where
  id     : Nat                -- order number of its word's issue
  gh     : Nat
  stream : Nat
  scope  : Nat
  order  : Nat
  hint   : Nat
  op     : SOp
  bytes  : List Host.Cell     -- virtual addresses
  pois   : List Nat           -- virtual unit addresses whose data is poison
  deriving DecidableEq, Repr

/-- A plain load or store that has issued and whose accesses are still to be performed, lane by lane and half by half (R274, R275, R293): its
group and issue, whether it is a split's one access, what it accesses, the register it loads, and the halves performed, as lane * 2 + half.
A load's value is gathered in m.vals by the same number. pass: later scratchpad releases that did not wait for it, by group and scope; sync: the
groups that have synchronised with one of them since (R285). -/
structure LateW where
  gh    : Nat
  sw    : Bool
  store : Bool
  ty    : Ty
  form  : Nat
  hint  : Nat
  d     : Nat
  n     : Bool
  m     : MemW
  did   : List Nat
  pass  : List (Nat × Nat)
  sync  : List Nat
  org   : FaultAt
  deriving DecidableEq, Repr

/-- An access that is no word of a split: its context, what it is, a page of it found unmapped, and 1 and the number of times that page has been
asked for since (R430). -/
structure XTry where
  ctx  : Nat
  who  : List Nat
  page : Nat
  n    : Nat
  deriving DecidableEq, Repr

/-- A line on a core's read-only path with the writes performed since it was filled, newest first (R267). -/
structure RoLine where
  line : Nat
  old  : List (List Host.Cell)
  deriving DecidableEq, Repr

/-- A core (R16). -/
structure CoreSt where
  sp     : AMap Byte
  full   : AMap Bool
  spois  : AMap Bool
  l1     : List L1Line        -- most recently used first
  ret    : Bool               -- data array in retention (R309)
  latch  : AMap (Nat × List LatchEnt)   -- by partition: owner group and entries
  rdy    : AMap Nat           -- by partition: groups with a ready split in its last cycle (R382)
  lastg  : AMap Nat           -- by partition: group of the last issue
  slot   : AMap (Nat × Word32)  -- by partition: the split that slot 0 issued where slot 1 is next (R379)
  lastt  : AMap Nat           -- by partition: order number of the last issue
  mq     : List MCmd
  cq     : List CCmd
  waits  : List Waiter
  bins   : AMap Bin
  flying : List (BitVec 512)  -- items on their way to its bins, each with a place kept there (R50)
  slog   : List SEnt
  late   : List LateW
  hot    : List Nat           -- lines that another core owned at this core's last request for them (R326)
  ro     : List RoLine
  tlb    : List XEnt
  tries  : List XTry
  deriving DecidableEq, Repr

/-- A directory state (R296). -/
inductive DSt where
  | i | s | em | o
  deriving DecidableEq, Repr

/-- The request that a BUSY entry serves, and the answers it still waits for (R302, R304, R314). -/
structure Busy where
  req    : Nat                -- 1 GetS, 2 GetM, 3 Upg, 7 Push, 8 Sweep, 9 snoop, 10 home access, 11 publish, 12 supply after FwdM
  core   : Nat
  stream : Nat
  acks   : List Nat           -- cores whose InvAck is awaited
  fwd    : Option Nat         -- the owner whose answer is awaited
  fills  : List Nat           -- destinations whose Install or Refuse is awaited
  got    : List Nat           -- destinations that installed
  sweep  : List Nat
  dirty  : Nat
  next   : DSt
  snoop  : Option Nat         -- a host snoop that a Sweep has interrupted: half + 2 * kind (R314)
  gh     : Nat                -- a Push: its group and its word's order number (R288)
  id     : Nat
  ctx    : Option Nat         -- a Push or a home access: the context that made it, while it has work here (R313)
  deriving DecidableEq, Repr

/-- A directory entry (R296). -/
structure DirEnt where
  psn     : Bool
  nrels   : List (Nat × Nat × Nat)   -- NREL: the unpublished releases narrower than DEV of the owner: group, stream, scope (R284)
  lost    : List Nat          -- cores lost for the line (R313)
  taint   : List Nat          -- cores that have been given the line as poison (R313)
  st      : DSt
  owner   : Option Nat
  sharers : List Nat
  coarse  : Bool
  dies    : Nat
  half0   : Nat
  half1   : Nat
  busy    : Option Busy
  deriving DecidableEq, Repr

/-- The messages of R299, with requests to the home numbered by kind. -/
inductive MKind where
  | getS (acq : Bool) (stream : Nat) | getM | upg | putM | putO | putE
  | push (stream ctx gh id : Nat) (dests : List Nat) (cells : List Host.Cell) (pois : List Nat)
  | data (st : L1St) | upgAck | inv | fwdS (tgt : Nat) | fwdM (tgt : Nat) | fwdPub (stream : Nat) (tgt : Nat) | recall | fill (ctx : Nat)
  | putAck | pushDone (stream gh id : Nat) | sweep
  | half (h : Nat) (excl : Bool)
  | invAck | notice (dirty : Bool) (supply : Option (Nat × L1St)) | recallData (dirty : Bool) | install | refuse
  deriving DecidableEq, Repr

/-- A message in flight: its line, and the core that sent it (to the home) or receives it (from the home). -/
structure Msg where
  line : Nat
  core : Nat
  kind : MKind
  deriving DecidableEq, Repr

/-- What the arbiters know of a request in flight: its slack tag; its place in the arrival order of its home once the slice's input arbiter has
granted it, 0 before; the injection points that it has passed; the order number at which it came to the arbiter where it waits; whether it has
waited more than 256 cycles there (R382). -/
structure ReqTag where
  msg   : Msg
  slack : Nat
  arr   : Nat
  hop   : Nat
  since : Nat
  out   : Bool
  deriving DecidableEq, Repr

/-- A translation of a kernel's launch block (R365, R366). -/
structure EntryRow where
  timer  : Nat
  active : Bool
  tiles  : Nat
  g      : List Nat
  pcs    : List (Nat × Nat × Nat)      -- per role: L PC, D scalar PC, D lane PC (R124)
  deriving DecidableEq, Repr

structure Launch where
  addr   : Nat
  hasL   : Bool
  hasD   : Bool
  spill  : Bool
  scratch : Nat
  pool   : Nat
  lbase  : Nat
  dsbase : Nat
  dlbase : Nat
  htab   : Nat
  llen   : Nat
  dslen  : Nat
  dllen  : Nat
  hcount : Nat
  allots : List Nat
  rows   : List EntryRow
  serials : AMap Nat
  deriving DecidableEq, Repr

/-- A launch slot (R361). -/
structure LSlot where
  item   : BitVec 512
  block  : Word64             -- BLOCK and DIE as the host last wrote them
  die    : Nat
  ablock : Word64             -- BLOCK and DIE as the launch was accepted with
  adie   : Nat
  state  : Nat
  cause  : Nat
  wait   : Bool               -- accepted, its block not yet read (R363)
  head   : List Byte          -- the bytes of the block as read, while its entry table is still to be read (R363)
  ok     : Bool               -- the block has been read and passed (R363)
  blk    : Option Launch      -- the values read
  order  : Nat
  deriving DecidableEq, Repr

/-- A deferred free: die, node address, free-list head, grace period that serves it (zero until one has begun) (R355). -/
structure DFree where
  die  : Nat
  node : Nat
  head : Nat
  k    : Nat
  deriving DecidableEq, Repr

/-- A value of a portable record: its number, its class, its contents (R407, R417). -/
structure PVal where
  num  : Nat
  cls  : Nat
  vals : List Word64
  deriving DecidableEq, Repr

/-- A saved team: the team and its groups, its scratchpad image, and whether the record is native (R415 to R417). A portable group has no
registers, only values; each of its splits names its hinge, with hold .bar 18 where it stopped before the word and another hold where it has
arrived. Scratchpad offsets are the core's. -/
structure Saved where
  team   : Team
  tid    : Nat
  groups : List (Nat × Group)
  isNative : Bool
  quiet  : List Nat           -- groups saved at a hinge marked quiet (R351)
  sp     : AMap Byte
  full   : AMap Bool
  spois  : AMap Bool
  waits  : List Waiter        -- lanes that wait in ldfe (R269)
  vals   : List (List PVal)
  bad    : List Nat           -- groups with a poisoned register (R454)
  pois   : Option Nat         -- poison in the record: the address of its first unit, 0 where the record has none (R455)
  areaRec : Bool              -- read from a save area: its context was saved since it left its core (R258)
  deriving DecidableEq, Repr

/-- A context slot (R423). -/
structure Ctx where
  slots   : AMap LSlot
  gn      : Nat
  grace   : Bool              -- grace period gn + 1 is in progress
  boosted : Bool              -- for so long that splits with an owed lane have the boost, and saved groups with one come first (R352)
  pushed  : Nat               -- gdefer entries pushed in the grace period in progress
  defers  : List DFree
  token   : Option Nat        -- holder of the irrevocable token (R347)
  tokenQ  : List Nat
  priOff  : Bool              -- no further page requests (R430)
  unmap   : List (Nat × Bool)         -- pages known unmapped, and whether a write is wanted
  regsp   : List Nat          -- pages whose translation landed in the device's register space (R429)
  misses  : AMap Nat
  saving  : Bool
  saves   : List Saved
  deriving DecidableEq, Repr

/-- A compute die. -/
structure Die where
  tlb     : List XEnt
  l2      : List L2Line
  lists   : AMap (List (List PoolItem))    -- ctx * 16 + entry: batches, oldest first (R374)
  steal   : AMap Nat          -- ctx * 16 + entry: 0 none, 1 asking, 2 waiting to ask again
  stolen  : AMap (List PoolItem)           -- a batch in a steal transfer
  deriving DecidableEq, Repr

/-- A request for a page (R428, R430): context, the core that missed (the first of its die for a page request), page, write wanted. -/
structure PReq where
  ctx   : Nat
  core  : Nat
  page  : Nat
  write : Bool
  deriving DecidableEq, Repr

/-- What the device has sent to the host, the peers and its management port. Translation and page requests carry the context's PASID (R428, R430);
data carries the units of it that are poison, by the number of their first byte / 16 (R454). -/
inductive OutMsg where
  | msix (vec : Nat)
  | ats (pasid page : Nat)
  | pri (pasid page : Nat) (write : Bool)
  | invDone (pasid lo size : Nat)
  | abort (off size : Nat)
  | peer (write : Bool) (loc : Nat) (bytes : List Byte) (pois : List Nat)
  | peerAtom (aop : Nat) (ty : Ty) (loc b c : Nat) (pois : Bool)
  | read (bytes : List Byte) (pois : List Nat)
  | regRead (off : Nat) (bytes : List Byte)
  | corrected (line : Nat)
  | refused (loc : Nat)
  deriving DecidableEq, Repr

/-- A peer access that has gone out and is not yet answered: its group and stream, the context that made it while its work has not been discarded,
that context's PASID, the virtual address, the lanes and the place that a fault of it names (R446), its location, whether a register waits for its
data, whether it is an acquire, and what a cpy has written with its data: units of memory, as (0, unit), and granules of a core's scratchpad, as
(core + 1, granule) (R454). -/
structure PeerOut where
  id     : Nat                -- order number of its word's issue
  gh     : Nat
  stream : Nat
  ctx    : Option Nat
  pasid  : Nat
  va     : Nat
  mask   : Word32
  org    : FaultAt
  loc    : Nat
  load   : Bool
  acq    : Bool
  mark   : List (Nat × Nat)
  deriving DecidableEq, Repr

/-- A range invalidation that waits for accesses (R431). -/
structure Inval where
  pasid : Nat
  lo    : Nat
  size  : Nat
  deriving DecidableEq, Repr

/-- The state of the I/O dies and the management core. -/
structure Io where
  time    : Nat
  slew    : Int               -- nanoseconds of a correction still to be slewed (R457)
  locked  : Bool
  mrs     : AMap (List Byte)
  report  : List Byte
  flash   : Nat
  image   : Nat               -- the firmware image that this power-on runs
  freq    : AMap Nat          -- MHz by island, 1800
  asks    : AMap Nat          -- by island * 3 + limit, where the limit is not met: the frequency that it asks for (R513)
  trained : Bool              -- the host link has trained since power-on (R514)
  clocked : Bool              -- firmware has clocked the compute dies and the spine (R514)
  linkDown : Bool
  powered : Bool
  trig    : Option (Nat × Nat)     -- latch time and cause bits of a triggered snapshot
  snapSeq : Nat
  snap    : List Word64
  oprAlloc : Nat              -- Outstanding Page Request Allocation
  priSent : List PReq
  priWait : List PReq
  atsWait : List PReq
  inval   : List Inval
  lost    : AMap Bool          -- by context: DROP rose since the last record written (R446)
  recErr  : List Nat           -- contexts whose next fault record meets an uncorrectable error (R445)
  trcBase : AMap Nat
  bar0    : Nat
  bar2    : Nat
  peerOut : List PeerOut      -- unanswered peer accesses (R508, R509)
  deriving DecidableEq, Repr

/-- The canonical form of memory: addresses strictly rising, and no cell that equals what an unlisted address holds, which is 0. -/
abbrev Memory.wf (m : List Host.Cell) : Bool := mwf 0 m

/-- The state of the device. free and seq are the model's own: free counts the free values drawn, seq orders arrivals. agenda says what
moves next. -/
structure State where
  part   : OrderCode
  agenda : List Move
  free   : Nat
  seq    : Nat
  cur    : Cur
  mem    : List Host.Cell
  poison : AMap Bool
  enc    : AMap (Option Config.KeyPair)  -- by 16-byte unit of device memory: the key pair that its bytes stand under (R432)
  keys   : AMap (Option Config.KeyPair)  -- the key pair of each context slot, and of the system in slot 64 (R432)
  keytag : AMap Nat
  regs   : AMap Word64
  ctxs   : AMap Ctx
  dies   : AMap Die
  cores  : AMap CoreSt
  teams  : AMap Team
  groups : AMap Group
  dir    : AMap DirEnt
  net    : List Msg
  tags   : List ReqTag
  outbox : List OutMsg
  io     : Io
  deriving DecidableEq, Repr

def Cur.init : Cur := ⟨0, 0, 0, 0, false, true, false⟩

def Split.init : Split where
  mask := 0; pc := 0; lpc := 0; queue := []; hinge := 0xFFFF; twinA := 0; twinB := 0; pmask := 0; mem := none; items := []; hold := .none; age := 0
  aged := false; fromA := 0; fromB := 0; first := true

def Tx.init : Tx where
  active := false; irrev := false; stream := 0; statreg := 0; abortA := 0; abortB := 0; txpc := 0xFFFFFFFF; ccount := 0; last := 0
  doomed := false; rlines := []; wlines := []; wattr := []; rbytes := []; wbytes := []

def GMisc.init : GMisc := ⟨false, 0, 0, 0, 0, 0, 0, 0, 0⟩

/-- A group at its start, before its items and its split are given (R76). -/
def Group.init : Group where
  team := 0; idx := 0; stage := 0; allot := 16; part := 0; v := []; s := []; q := []; j := []; status := []; done := 0; exited := 0
  tags := []; nrm := 2; trapen := 0; dstrm := 0; pend := []; misc := .init; tx := []; frame := none; splits := []; defer := []; spills := 0; spillFrom := []
  vpois := []; pushes := []; frel := []; stopped := false; isNative := false; retired := false

def Team.init : Team where
  ctx := 0; slot := 0; entry := 0; core := 0; isL := true; reg := 0; size := 0; off := 0; bytes := 0; ntiles := 0; tiles := []; ovf := []
  tpois := []; nb := []; tbar := 0; qarr := 0; qmask := 0; qphase := 0; migarr := 0; pair := none; peers := []; age := 0; gone := true
  saved := false; moving := false; target := none; preempt := false

def Bin.init : Bin := ⟨[], 0, false, false, false, 0, false⟩

def CoreSt.init : CoreSt where
  sp := []; full := []; spois := []; l1 := []; ret := false; latch := []; rdy := []; lastg := []; slot := []; lastt := []; mq := []; cq := []; waits := []; bins := []; flying := []
  slog := []; late := []; hot := []; ro := []; tlb := []; tries := []

/-- A directory entry when it is created (R296). -/
def DirEnt.init : DirEnt := ⟨false, [], [], [], .i, none, [], false, 0, 0, 0, none⟩

def LSlot.init : LSlot := ⟨0, 0, 0, 0, 0, 0, 0, false, [], false, none, 0⟩

def Ctx.init : Ctx where
  slots := []; gn := 0; grace := false; boosted := false; pushed := 0; defers := []; token := none; tokenQ := []; priOff := false; unmap := []; regsp := []
  misses := []; saving := false; saves := []

def Die.init : Die := ⟨[], [], [], [], []⟩

def Io.init : Io where
  time := 0; slew := 0; locked := false; mrs := []; report := []; flash := 0; image := 0; freq := []; asks := []; trained := false
  clocked := false; linkDown := true; powered := true; trig := none
  snapSeq := 0; snap := []; oprAlloc := 0; priSent := []; priWait := []; atsWait := []; inval := []; lost := []; recErr := []
  trcBase := []; bar0 := 0; bar2 := 0; peerOut := []

/-- The machine right after reset: power is on, bring-up is at stage 0 (R514), every register holds its reset value, no group exists (R76). -/
def State.reset : State where
  part := .mod640; agenda := []; free := 0; seq := 1; cur := .init; mem := []; poison := []; enc := []; keys := []; keytag := []; regs := []
  ctxs := []; dies := []; cores := []; teams := []; groups := []; dir := []; net := []; tags := []; outbox := []; io := .init

end Sys2Proof.Machine
end

