-- ==== Sys2Proof/Machine/Ops.lean ====
section
/-! DEFINITION. The named operations over the state: registers and control registers, memory bytes and poison, host registers, messages to
the host, trace records, fatal faults (R443 to R447) and traps (R448 to R450). -/
namespace Sys2Proof.Machine

/-- The outcome of a meaning. -/
abbrev Out := Host.Outcome State Fault Refusal

/-! Parts of the state by number. -/

def State.grp (s : State) (gh : Nat) : Group := mget Group.init s.groups gh
def State.setGrp (s : State) (gh : Nat) (g : Group) : State := { s with groups := mset Group.init s.groups gh g }
def State.core (s : State) (c : Nat) : CoreSt := mget CoreSt.init s.cores c
def State.setCore (s : State) (c : Nat) (k : CoreSt) : State := { s with cores := mset CoreSt.init s.cores c k }
def State.team (s : State) (t : Nat) : Team := mget Team.init s.teams t
def State.setTeam (s : State) (t : Nat) (x : Team) : State := { s with teams := mset Team.init s.teams t x }
def State.ctx (s : State) (c : Nat) : Ctx := mget Ctx.init s.ctxs c
def State.setCtx (s : State) (c : Nat) (x : Ctx) : State := { s with ctxs := mset Ctx.init s.ctxs c x }
def State.die (s : State) (d : Nat) : Die := mget Die.init s.dies d
def State.setDie (s : State) (d : Nat) (x : Die) : State := { s with dies := mset Die.init s.dies d x }
def State.dirE (s : State) (l : Nat) : DirEnt := mget DirEnt.init s.dir l
def State.setDirE (s : State) (l : Nat) (e : DirEnt) : State := { s with dir := mset DirEnt.init s.dir l e }
def State.say (s : State) (m : OutMsg) : State := { s with outbox := s.outbox ++ [m] }
/-- A fresh order number. -/
def State.tick (s : State) : State := { s with seq := s.seq + 1 }
/-- A free value drawn: the next one differs. -/
def State.draw (s : State) : State := { s with free := s.free + 1 }

/-! The word in hand. -/

/-- The group that executes. -/
def State.cg (s : State) : Group := s.grp s.cur.gh
def State.setCg (s : State) (g : Group) : State := s.setGrp s.cur.gh g
/-- Its team, core and context. -/
def State.ct (s : State) : Team := s.team s.cg.team
def State.cc (s : State) : CoreSt := s.core s.ct.core
def State.cctx (s : State) : Ctx := s.ctx s.ct.ctx
/-- The split that executes. -/
def State.sp (s : State) : Split := nthD Split.init s.cg.splits s.cur.sp
def State.setSp (s : State) (p : Split) : State := s.setCg { s.cg with splits := setAt s.cg.splits s.cur.sp p }
/-- The team runs the L-encoding (R56). -/
def State.isL (s : State) : Bool := s.ct.isL
/-- The compute die of a core ID (R13). -/
def dieOf (core : Nat) : Nat := core / 128
/-- The position of a core in its quire (R13). -/
def posOf (core : Nat) : Nat := core % 8
/-- The core at a position of the same quire. -/
def peerCore (core p : Nat) : Nat := core / 8 * 8 + p
/-- The part presents a core ID (R13, R14). -/
def coreExists (part : OrderCode) (core : Nat) : Bool :=
  core < 1024 && posOf core ≤ 4 && (part != .mod600 || core / 8 % 16 != 15)
/-- Position 0 is the L-core (R12). -/
def coreIsL (core : Nat) : Bool := posOf core == 0
/-- Every core of a die that the part presents (R12, R14). -/
def dieCores (part : OrderCode) (d : Nat) : List Nat := ((List.range 128).map (128 * d + ·)).filter (coreExists part)
/-- The handle of a group of a team. -/
def handle (team idx : Nat) : Nat := team * 32 + idx
/-- The handles of a team's groups. -/
def handles (t : Nat) (x : Team) : List Nat := (List.range x.size).map (handle t)

/-! Result counters and pending results (R94 to R96). -/

/-- Old or new, chosen for each 32-bit half (R96, R243). -/
def mixHalf (n kind key : Nat) (old new : Word64) : Word64 :=
  mk64 (if Config.freeHalf n kind key 1 then hi32 new else hi32 old) (if Config.freeHalf n kind key 0 then lo32 new else lo32 old)

/-- The value read at a place that counted instructions may still write (R96). -/
def mixPend (n kind key : Nat) (old : Word64) : List Pend → Word64
  | [] => old
  | p :: l =>
    mixPend n kind key
      (match p.ws.find? fun w => w.kind == kind && w.key == key with
       | some w => if kind = 2 then (if Config.freeHalf n kind key 0 then w.val else old) else mixHalf n kind key old w.val
       | none => old) l

/-- Mark a place as written by a later instruction (R96). -/
def conPend (kind key : Nat) (l : List Pend) : List Pend :=
  l.map fun p => { p with ws := p.ws.map fun w => if (w.kind == kind || (kind == 0 && w.kind == 3) || (kind == 1 && w.kind == 4)) && w.key == key then { w with con := true } else w }

/-- A result counter (R94): instructions of the class that have not completed. -/
def counter (cls : Nat) (g : Group) : Nat := (g.pend.filter fun p => p.cls == cls).length

/-- A counted instruction has completed, or has ended with no lane: its counter falls (R94). -/
def dropPend (s : State) (gh id : Nat) : State :=
  let g := s.grp gh
  s.setGrp gh { g with pend := g.pend.filter fun p => p.id != id }

/-! Scalar registers (R63, R166). -/

def Group.rS (n : Nat) (g : Group) (k : Nat) : Word64 :=
  if k = 0 then 0 else mixPend n 1 k (mget 0 g.s k) g.pend
def Group.wS (g : Group) (k : Nat) (x : Word64) : Group :=
  if k = 0 then g else { g with s := mset 0 g.s k x, pend := conPend 1 k g.pend }
/-- The value of a scalar register of the executing group. -/
def State.rS (s : State) (k : Nat) : Word64 := s.cg.rS s.free k
/-- Write a scalar register of the executing group; s0 discards (R63). -/
def State.wS (s : State) (k : Nat) (x : Word64) : State := s.setCg (s.cg.wS k x)

/-! Vector registers (R61) and predicates (R64). -/

def Group.rV (n : Nat) (g : Group) (r l : Nat) : Word64 := mixPend n 0 (r * 32 + l) (mget 0 g.v (r * 32 + l)) g.pend
/-- Write an element; a whole element written clears its poison mark (R454). -/
def Group.wV (g : Group) (r l : Nat) (x : Word64) : Group :=
  { g with v := mset 0 g.v (r * 32 + l) x, pend := conPend 0 (r * 32 + l) g.pend, vpois := mset false g.vpois (r * 32 + l) false }
/-- The 2-bit element of a predicate, 0b11 read as undecided. -/
def Group.rQ (n : Nat) (g : Group) (p l : Nat) : Tri :=
  triRead (mixPend n 2 (p * 32 + l) ((mget 0 g.q p >>> (2 * l)) &&& 3) g.pend).toNat
def Group.wQ (g : Group) (p l : Nat) (x : Tri) : Group :=
  { g with q := mset 0 g.q p (setFld (mget 0 g.q p) (2 * l + 1) (2 * l) x), pend := conPend 2 (p * 32 + l) g.pend }

/-! Memory. A location is a device physical address below 2^40, a host physical address above 2^60, or a peer's above 2^70. -/

def hostLoc (pa : Nat) : Nat := 2 ^ 60 + pa
def peerLoc (dev pa : Nat) : Nat := 2 ^ 70 + dev * 2 ^ 40 + pa
def isDev (a : Nat) : Bool := a < 2 ^ 40
def isHost (a : Nat) : Bool := decide (2 ^ 60 ≤ a) && decide (a < 2 ^ 70)
def isPeer (a : Nat) : Bool := decide (2 ^ 70 ≤ a)
/-- The 128-byte line of a location. -/
def lineOf (a : Nat) : Nat := a / 128
/-- The 2 MiB block of a device location (R253, R433). -/
def blockOf (a : Nat) : Nat := a / 2 ^ 21

/-- The key tag of a block (R433): 127 unassigned. -/
def keyTag (s : State) (block : Nat) : Nat := mget 127 s.keytag block
/-- The key pair under which a location is read and written: that of its block's owner (R432 to R434). -/
def curKey (s : State) (a : Nat) : Option Config.KeyPair := if isDev a then mget none s.keys (keyTag s (blockOf a)) else none
/-- The key pair under which a location's unit of 16 bytes stands. -/
def encKey (s : State) (a : Nat) : Option Config.KeyPair := if isDev a then mget none s.enc (a / 16) else none
/-- The 16 bytes of a location's unit as they were written. -/
def unitBytes (s : State) (a : Nat) : List Byte := (List.range 16).map fun i => mget 0 s.mem (a / 16 * 16 + i)

/-- A byte of memory; a byte that nothing has written reads as 0. A unit that was written under another key pair is deciphered under this one
(R434). A peer's memory holds what the peer last put there: a free value. -/
def State.rdByte (s : State) (a : Nat) : Byte :=
  if isPeer a then Config.peerByte s.free a
  else if encKey s a = curKey s a then mget 0 s.mem a
  else Config.otherKey (encKey s a) (curKey s a) (a / 16) (ofBytes (unitBytes s a)) (a % 16)
/-- A location's unit stands under the key pair of its block's owner, its bytes as they read. -/
def State.reenc (s : State) (a : Nat) : State :=
  if encKey s a = curKey s a then s
  else { s with mem := msetAll 0 s.mem ((List.range 16).map fun i => (a / 16 * 16 + i, s.rdByte (a / 16 * 16 + i))), enc := mset none s.enc (a / 16) (curKey s a) }
/-- Write one byte; the list of cells keeps its canonical form. A peer's byte is written by the request that goes out (R509). -/
def State.wrByte (s : State) (a : Nat) (b : Byte) : State :=
  if isPeer a then s else let s1 := s.reenc a; { s1 with mem := mset 0 s1.mem a b }
/-- Write cells in order. -/
def State.wrCells (s : State) (l : List Host.Cell) : State := l.foldl (fun s c => s.wrByte c.1 c.2) s
/-- n bytes from a location. -/
def State.rdBytes (s : State) (a n : Nat) : List Byte := (List.range n).map fun k => s.rdByte (a + k)
/-- A little-endian number (R4). -/
def State.rdNat (s : State) (a n : Nat) : Nat := ofBytes (s.rdBytes a n)
/-- The cells of bytes stored from a location. -/
def cellsOf (a : Nat) (bs : List Byte) : List Host.Cell := (List.range bs.length).map fun k => (a + k, nthD 0 bs k)

/-- The 16-byte units that cells touch (R454). -/
def unitsOf (l : List Host.Cell) : List Nat := (l.map fun c => c.1 / 16).eraseDups
/-- A store clears the mark of a unit that it writes whole; a partial write keeps it (R454). -/
def clearPoison (p : AMap Bool) (l : List Host.Cell) : AMap Bool :=
  (unitsOf l).foldl (fun p u => if ((l.filter fun c => c.1 / 16 == u).map Prod.fst).eraseDups.length = 16 then mset false p u false else p) p
/-- Are some of n bytes from a location marked poison. -/
def State.isPoison (s : State) (a n : Nat) : Bool := (List.range (n / 16 + 1)).any fun k => decide ((a / 16 + k) * 16 < a + n) && mget false s.poison (a / 16 + k)

/-- The poisoned units among n bytes from a location (R454). -/
def State.poisUnits (s : State) (a n : Nat) : List Nat := ((List.range (n / 16 + 2)).map (a / 16 + ·)).filter fun u => decide (16 * u < a + n) && mget false s.poison u

/-- A write to a line of a lane's read set dooms the lane (R343). The committing lane is spared. -/
def doomLanes (s : State) (lines : List Nat) (spare : Option (Nat × Nat)) : State :=
  { s with groups := s.groups.map fun (e : Nat × Group) =>
      if e.2.tx = [] then e
      else (e.1, { e.2 with tx := e.2.tx.map fun t =>
        if t.2.active && !t.2.irrev && spare != some (e.1, t.1) && t.2.rlines.any (lines.contains ·) then (t.1, { t.2 with doomed := true }) else t }) }

/-- The writes seen by the read-only path of every core (R267). -/
def roNote (s : State) (l : List Host.Cell) : State :=
  { s with cores := s.cores.map fun (e : Nat × CoreSt) =>
      (e.1, { e.2 with ro := e.2.ro.map fun r =>
        let old := (l.filter fun c => lineOf c.1 == r.line).map fun c => (c.1, s.rdByte c.1)
        if old = [] then r else { r with old := old :: r.old } }) }

/-- Perform one write, whole (R293): its bytes, the dooming of readers, the read-only path's history and the poison marks. -/
def State.performFor (s : State) (spare : Option (Nat × Nat)) (l : List Host.Cell) : State :=
  let s1 := roNote s l
  let s2 := doomLanes s1 ((l.map fun c => lineOf c.1).eraseDups) spare
  { s2.wrCells l with poison := clearPoison s2.poison l }
def State.perform (s : State) (l : List Host.Cell) : State := s.performFor none l

/-! Scratchpads (R254, R268). -/

def CoreSt.rdSp (c : CoreSt) (o n : Nat) : Nat := ofBytes ((List.range n).map fun k => mget 0 c.sp (o + k))
def CoreSt.wrSp (c : CoreSt) (o : Nat) (bs : List Byte) : CoreSt :=
  let l := cellsOf o bs
  { c with sp := msetAll 0 c.sp l, spois := clearPoison c.spois l }
def CoreSt.spPoison (c : CoreSt) (o n : Nat) : Bool :=
  (List.range (n / 16 + 1)).any fun k => decide ((o / 16 + k) * 16 < o + n) && mget false c.spois (o / 16 + k)
def CoreSt.isFull (c : CoreSt) (g : Nat) : Bool := mget false c.full g
def CoreSt.setFull (c : CoreSt) (g : Nat) (b : Bool) : CoreSt := { c with full := mset false c.full g b }

/-! Host-mapped registers (R501, R502), by their BAR0 offset. -/

def slotPage (c : Nat) : Nat := 0x100000 + 0x1000 * c
def diePage (d : Nat) : Nat := 0x400000 + 0x20000 * d
def io0 : Nat := 0x500000
def io1 : Nat := 0x510000
def rCTXCFG (c : Nat) : Nat := slotPage c + 0x800
def rCTXCTL (c : Nat) : Nat := slotPage c + 0x808
def rSAVEAREA (c : Nat) : Nat := slotPage c + 0x810
def rFQBASE (c : Nat) : Nat := slotPage c + 0x818
def rFQCTL (c : Nat) : Nat := slotPage c + 0x820
def rLWVEC (c : Nat) : Nat := slotPage c + 0x828
def rPQUOTA (c : Nat) : Nat := slotPage c + 0x830
def rPREEMPT (c : Nat) : Nat := slotPage c + 0x838
def rATTRWIN (c n : Nat) : Nat := slotPage c + 0x880 + 8 * n
def rERRSTAT (d : Nat) : Nat := diePage d
def rL2QUOTA (d : Nat) : Nat := diePage d + 8
def rTRCCTL (d : Nat) : Nat := diePage d + 0x10
def rTRCPTR (d : Nat) : Nat := diePage d + 0x18
def rBACKING (d c : Nat) : Nat := diePage d + 0x800 + 8 * c
def rPUSHSTAT (d c : Nat) : Nat := diePage d + 0xC00 + 8 * c
def rSECSTAT : Nat := io0
def rTIMESTAT : Nat := io0 + 8
def rSNAPCTL : Nat := io0 + 0x10
def rSNAPTIME : Nat := io0 + 0x18
def rBOOTSTAT : Nat := io0 + 0x20
def rPODID : Nat := io1
def rPEERWIN (n : Nat) : Nat := io1 + 0x800 + 8 * n

/-- The reset value of a register (R72, R264, R306, R414; MSI-X vectors start masked). -/
def regReset (o : Nat) : Word64 :=
  if o < 0x200 then (if o % 16 = 8 then 0x100000000 else 0)
  else if 0x100000 ≤ o ∧ o < 0x140000 then
    (if o % 0x1000 = 0x830 then 256 else if o % 0x1000 = 0x838 then 0x100000 else if o % 0x1000 = 0x808 then (Config.nativeSize.zeroExtend 64 <<< 32) else 0)
  else if 0x400000 ≤ o ∧ o < 0x500000 then (if o % 0x20000 = 8 then 0x4444 else 0)
  else 0

def State.reg (s : State) (o : Nat) : Word64 := mget 0 s.regs o ^^^ regReset o
def State.setReg (s : State) (o : Nat) (x : Word64) : State := { s with regs := mset 0 s.regs o (x ^^^ regReset o) }
/-- What a read of a register gives: the bits of a window's BASE below its SIZE read as zero (R263, R508). -/
def State.regRead (s : State) (o : Nat) : Word64 :=
  let r := s.reg o
  if 0x100000 ≤ o ∧ o < 0x140000 ∧ 0x880 ≤ o % 0x1000 ∧ o % 0x1000 < 0x900 then
    let z := fld r 41 36; setFld r 35 0 (fld r 35 0 / 2 ^ z * 2 ^ z)
  else if io1 + 0x800 ≤ o ∧ o < io1 + 0x880 then
    let z := fld r 61 56; setFld r 39 21 (fld r 39 21 / 2 ^ z * 2 ^ z)
  else r

/-! Readiness, and requests in flight. -/

/-- A pre-emption of the team has been requested, through CTXCTL or by the scheduler (R413). -/
def preempted (s : State) (t : Team) : Bool := (s.ctx t.ctx).saving || t.preempt
/-- The budget of a pre-emption is zero (R414, R415): a group that is not at a hinge is hard-stopped at once. -/
def noBudget (s : State) (t : Team) : Bool := preempted s t && fld (s.reg (rPREEMPT t.ctx)) 31 0 == 0

/-- The group is on its core: its instructions that have issued go on there, also after a hard stop (R412, R415). -/
def groupHere (s : State) (g : Group) : Bool :=
  let t := s.team g.team
  !g.retired && !t.gone && !t.saved && !t.moving
/-- The group may issue: resident, not stopped, not being moved, and with cycles of its budget left (R412, R413, R415). -/
def groupMay (s : State) (g : Group) : Bool := groupHere s g && !g.stopped && !noBudget s (s.team g.team)

/-- While a trap frame is active only the trapping split's lanes issue (R449). -/
def splitMay (g : Group) (p : Split) : Bool :=
  match g.frame with
  | none => true
  | some f => p.mask &&& BitVec.ofNat 32 f.split != 0

/-- A split has the grace boost (R352): the grace period in progress has lasted so long, and a lane of it is owed. -/
def boosted (s : State) (g : Group) (p : Split) : Bool := (s.ctx (s.team g.team).ctx).boosted && p.mask &&& g.misc.owed != 0

/-- An instruction of the split has issued and goes on at each try: a memory word with lanes left (R322), items left to place (R50), a commit
that waits for its lines (R344), a trap whose handler row is being read (R449). -/
def inFlight (p : Split) : Bool := p.mem.isSome || !p.items.isEmpty || (match p.hold with
  | .commit _ _ | .trapw _ _ _ _ _ => true
  | _ => false)

/-- The split's next word can be tried: the split waits in no instruction (R379). -/
def splitReady (g : Group) (p : Split) : Bool :=
  splitMay g p && !inFlight p && (match p.hold with
    | .none | .retry => true
    | _ => false)

/-- A message is a request to a home. -/
def isReq : MKind → Bool
  | .getS _ _ | .getM | .upg | .putM | .putO | .putE | .push _ _ _ _ _ _ _ => true
  | _ => false

/-- The slack tag of a request of a core (R382): its groups that were ready in the last cycle of their partition, at most 31 (log 72). -/
def slackOf (s : State) (core : Nat) : Nat :=
  let may (part : Nat) : Nat :=
    (s.groups.filter fun e => (s.team e.2.team).core == core && e.2.part == part && groupMay s e.2 && e.2.splits.any (splitReady e.2)).length
  min 31 (((s.core core).rdy.map fun e => min e.2 (may e.1)).foldl (· + ·) 0)
/-- A message goes out; a request carries its slack tag, and waits at the injection point of its core (R382). -/
def State.send (s : State) (m : Msg) : State :=
  { s with net := s.net ++ [m], tags := if isReq m.kind then s.tags ++ [⟨m, slackOf s m.core, 0, 0, s.seq, false⟩] else s.tags }

/-- A context exists and is resident (R425). -/
def ctxValid (s : State) (c : Nat) : Bool := fld (s.reg (rCTXCFG c)) 63 63 == 1
def ctxState (s : State) (c : Nat) : Nat := fld (s.reg (rCTXCTL c)) 5 4
def ctxResident (s : State) (c : Nat) : Bool := ctxValid s c && ctxState s c != 2
/-- The dies of a context's partition (R423, R424). -/
def ctxDies (s : State) (c : Nat) : List Nat :=
  let r := s.reg (rCTXCFG c)
  (List.range (2 ^ fld r 51 50)).map (fld r 54 52 + ·)
def firstDie (s : State) (c : Nat) : Nat := fld (s.reg (rCTXCFG c)) 54 52
/-- The resident context that holds a die (R425). -/
def dieCtx (s : State) (die : Nat) : Option Nat := (List.range 64).find? fun c => ctxResident s c && (ctxDies s c).contains die
/-- The cores of a context's partition. -/
def ctxCores (s : State) (c : Nat) : List Nat := (ctxDies s c).flatMap (dieCores s.part)
/-- More than the recovery function is present (R435, R439). -/
def inService (s : State) : Bool := s.io.powered && fld (s.reg rBOOTSTAT) 0 0 == 0
/-- Bring-up has reached stage 4, so the compute dies run, and no alarm has stopped the device (R440, R514, R515). -/
def deviceReady (s : State) : Bool :=
  fld (s.reg rBOOTSTAT) 7 4 == 4 && s.io.clocked && inService s && fld (s.reg rSECSTAT) 0 0 == 0
/-- The host reaches more of the device than its recovery function: its link has trained and is up (R435, R439, R510, R514). -/
def hostUp (s : State) : Bool := inService s && !s.io.linkDown
/-- Device memory can be reached from outside: every HBM4E stack has trained, in stage 2 (R514). -/
def memoryUp (s : State) : Bool := inService s && decide (3 ≤ fld (s.reg rBOOTSTAT) 7 4)
/-- The teams of a context. -/
def ctxTeams (s : State) (c : Nat) : List (Nat × Team) := s.teams.filter fun t => t.2.ctx == c && !t.2.gone

/-! Messages, time and trace. -/

/-- How much of a correction c is slewed while e nanoseconds pass: at most 200 ppm of them (R457). -/
def slewed (c : Int) (e : Nat) : Int := max (-((e / 5000 : Nat) : Int)) (min c ((e / 5000 : Nat) : Int))
/-- Device time read, a free time after the last reading, less or more what is slewed meanwhile: it never decreases (R456, R457). It reaches the
time of a triggered snapshot no later than the latch (R464). -/
def State.now (s : State) : State :=
  let e := Config.elapsedNs s.free
  let a := slewed s.io.slew e
  let t := s.io.time + (Int.toNat (e + a))
  let t := match s.io.trig with
    | some (T, _) => max s.io.time (min t T)
    | none => t
  { s.draw with io := { s.io with time := t, slew := s.io.slew - a } }

/-- One MSI-X message on an entry: sent, or its pending bit set while the entry is masked (R505); none is sent while the host link is
down (R510). -/
def msix (s : State) (v : Nat) : State :=
  if fld (s.reg (16 * v + 8)) 32 32 == 1 then s.setReg 0x800 (s.reg 0x800 ||| (1#64 <<< v))
  else if s.io.linkDown then s
  else s.say (.msix v)

/-- A snapshot trigger with a cause bit (4 event, 5 mark.snap, 6 host): latches 1,000 ns later, or counts as missed (R464, R465). -/
def snapTrigger (s : State) (cause : Nat) : State :=
  let r := s.reg rSNAPCTL
  match s.io.trig with
  | some (t, c) => if t = s.io.time + 1000 then { s with io := { s.io with trig := some (t, c ||| 2 ^ cause) } }
      else s.setReg rSNAPCTL (setFld r 63 48 (min (fld r 63 48 + 1) 0xFFFF))
  | none =>
    if fld r 0 0 = 1 then { s with io := { s.io with trig := some (s.io.time + 1000, 2 ^ cause) } }
    else s.setReg rSNAPCTL (setFld r 63 48 (min (fld r 63 48 + 1) 0xFFFF))

/-- A trace record posted to a die's buffer (R459, R462, R463): core 0x3FF and context 0xFF stand for none. -/
def traceRec (s0 : State) (die core ctx ev arg0 arg1 : Nat) : State :=
  let s := s0.now
  let c := s.reg (rTRCCTL die)
  if fld c (16 + ev) (16 + ev) = 0 then s
  else
    let p := s.reg (rTRCPTR die)
    let tail := fld p 20 0
    let head := fld p 52 32
    let full := (tail + 1) % 2 ^ 21 = head
    let drops := if full then min (fld c 63 32 + 1) 0xFFFFFFFF else fld c 63 32
    let s1 := s.setReg (rTRCCTL die) (setFld c 63 32 drops)
    let bs := toBytes 8 s.io.time ++ toBytes 2 core ++ toBytes 1 ctx ++ toBytes 1 ev ++ toBytes 4 drops ++ toBytes 8 arg0 ++ toBytes 8 arg1
    let s2 := s1.perform (cellsOf (mget 0 s.io.trcBase die + 32 * tail) bs)
    let s3 := s2.setReg (rTRCPTR die) (setFld (setFld p 20 0 ((tail + 1) % 2 ^ 21)) 52 32 (if full then (head + 1) % 2 ^ 21 else head))
    let r := s3.reg rSNAPCTL
    if fld r 2 2 = 1 ∧ fld r 39 32 = ev then snapTrigger s3 4 else s3

/-- A soft error found by a read, corrected (R453). -/
def correctedError (s : State) (die : Nat) : State :=
  let r := s.reg (rERRSTAT die)
  s.setReg (rERRSTAT die) (setFld r 63 32 (min (fld r 63 32 + 1) 0xFFFFFFFF))

/-! Contexts that stop (R426, R438, R443). -/

/-- A Push of a context. -/
def isPushOf (c : Nat) : MKind → Bool
  | .push _ ctx _ _ _ _ _ => ctx == c
  | _ => false
/-- The requests of a context that is to leave the device, or whose work is discarded, are no work of any context: a link that fails them faults
none (R313, R447). -/
def orphan (s : State) (c : Nat) : State :=
  let off (x : Option Nat) : Option Nat := x.filter (· != c)
  { s with
    cores := s.cores.map fun (e : Nat × CoreSt) => (e.1, { e.2 with l1 := e.2.l1.map fun x => { x with ctx := off x.ctx } })
    dir := s.dir.map fun (e : Nat × DirEnt) => (e.1, { e.2 with busy := e.2.busy.map fun b => { b with ctx := off b.ctx } }) }

/-- In place of a core: the work that made a page request has been discarded, and its answer is ignored (R444). -/
def deadReq : Nat := 1024
/-- In place of a group: the work that made a peer access has been discarded, or no group made it. -/
def deadGroup : Nat := 2 ^ 40
/-- Discard all in-flight work of a context (R444): what is performed stays; registers, pools, side logs, commands and transactions go; open
launch slots return to IDLE. -/
def discardWork (s : State) (c : Nat) : State :=
  let ts := (s.teams.filter fun t => t.2.ctx == c).map Prod.fst
  let mine (gh : Nat) : Bool := ts.contains (gh / 32)
  let x := s.ctx c
  -- the cores of a context that is not resident may belong to another one (R28, R425)
  let cs := if ctxResident s c then ctxCores s c else []
  let st := ctxState s c
  let o := orphan s c
  let s0 := if st = 1 ∨ st = 3 then o.setReg (rCTXCTL c) (setFld (s.reg (rCTXCTL c)) 5 4 0) else o
  let s1 := { s0 with
    groups := s.groups.filter fun e => !mine e.1
    teams := s.teams.filter fun t => t.2.ctx != c
    -- a Push that has not been performed goes, and sends no Fill (R444)
    net := s.net.filter fun m => !isPushOf c m.kind
    tags := s.tags.filter fun t => !isPushOf c t.msg.kind
    cores := o.cores.map fun (e : Nat × CoreSt) =>
      if cs.contains e.1 then
        (e.1, { e.2 with bins := []
                         flying := []
                         latch := []
                         rdy := []
                         lastg := []
                         slot := []
                         slog := e.2.slog.filter fun x => !mine x.gh
                         late := e.2.late.filter fun x => !mine x.gh
                         waits := e.2.waits.filter fun w => !mine w.gh
                         mq := e.2.mq.filter fun m => !mine m.gh
                         cq := e.2.cq.filter fun m => !mine m.gh
                         tries := e.2.tries.filter (·.ctx != c) })
      else (e.1, { e.2 with tries := e.2.tries.filter (·.ctx != c) })
    dies := s.dies.map fun (e : Nat × Die) =>
      (e.1, { e.2 with lists := e.2.lists.filter fun l => l.1 / 16 != c
                       steal := e.2.steal.filter fun l => l.1 / 16 != c
                       stolen := e.2.stolen.filter fun l => l.1 / 16 != c })
    io := { s.io with atsWait := s.io.atsWait.filter (·.ctx != c)
                      priWait := s.io.priWait.filter (·.ctx != c)
                      priSent := s.io.priSent.map fun (r : PReq) => if r.ctx = c then { r with core := deadReq } else r
                      -- a peer access that has gone out is performed at the peer; its answer concerns no context any more
                      peerOut := s.io.peerOut.map fun (p : PeerOut) => if p.ctx = some c then { p with ctx := none, gh := deadGroup, mark := [] } else p } }
  s1.setCtx c { x with
    slots := x.slots.map fun (e : Nat × LSlot) => if e.2.state = 1 ∨ e.2.state = 2 ∨ e.2.wait then (e.1, { e.2 with state := 0, wait := false, head := [], ok := false, blk := none }) else e
    grace := false
    boosted := false
    pushed := 0
    defers := []
    token := none
    tokenQ := []
    unmap := []
    regsp := []
    misses := []
    saving := false
    saves := [] }

/-- The bytes of a fault record (R446). -/
def faultBytes (a : FaultAt) (code detail addr : Nat) (mask : Word32) (first lost : Bool) (time : Nat) : List Byte :=
  toBytes 1 code ++ toBytes 1 (bbit a.isD 0 + bbit first 1 + bbit (a.hinge != 0xFFFF) 2 + bbit lost 3) ++ toBytes 2 a.core ++ toBytes 2 a.hinge ++
  toBytes 1 a.group ++ toBytes 1 a.slot ++ toBytes 8 a.team.toNat ++ toBytes 4 a.pcA ++ toBytes 4 a.pcB ++ toBytes 4 a.twinA ++ toBytes 4 a.twinB ++
  toBytes 4 mask.toNat ++ toBytes 4 detail ++ toBytes 8 addr ++ toBytes 8 time ++ toBytes 8 0

/-- A fault record is not written: it is counted in DROP (R445, R446). -/
def dropRecord (s : State) (c : Nat) : State :=
  let q := s.reg (rFQCTL c)
  { s.setReg (rFQCTL c) (setFld q 63 48 (min (fld q 63 48 + 1) 0xFFFF)) with io := { s.io with lost := mset false s.io.lost c true } }
/-- Write one fault record, or drop and count it (R445, R447): dropped where the queue is full or disabled, where its block is not the context's, and
where the write meets an uncorrectable error. -/
def writeRecord (s : State) (c : Nat) (a : FaultAt) (code detail addr : Nat) (mask : Word32) (first : Bool) : State :=
  let b := s.reg (rFQBASE c)
  let q := s.reg (rFQCTL c)
  let n := fld b 3 0
  let tail := fld q 31 16
  let head := fld q 15 0
  let at_ := fld b 63 12 * 4096 + 64 * tail
  if n < 6 ∨ (tail + 1) % 2 ^ n = head % 2 ^ n ∨ keyTag s (blockOf at_) ≠ c ∨ !isDev at_ then dropRecord s c
  else if s.io.recErr.contains c then dropRecord { s with io := { s.io with recErr := s.io.recErr.erase c } } c
  else
    let s1 := s.perform (cellsOf at_ (faultBytes a code detail addr mask first (mget false s.io.lost c) s.io.time))
    { s1.setReg (rFQCTL c) (setFld q 31 16 ((tail + 1) % 2 ^ n)) with io := { s1.io with lost := mset false s1.io.lost c false } }

/-- A fault as its record gives it: where, code, DETAIL, ADDR, MASK. -/
abbrev FaultRec := FaultAt × Nat × Nat × Nat × Word32

/-- Fatal faults of a context detected together (R443, R447): its work is discarded, the records of at most eight written or counted in order,
the first one traced, one message sent. -/
def fatalAll (s : State) (c : Nat) (f : FaultRec) (more : List FaultRec) : State :=
  let s1 := (discardWork s c).now
  let rec_ (s : State) (first : Bool) (r : FaultRec) : State := writeRecord s c r.1 r.2.1 r.2.2.1 r.2.2.2.1 r.2.2.2.2 first
  let s2 := (more.take 7).foldl (fun s r => rec_ s false r) (rec_ s1 true f)
  let d := if f.1.core = 0x3FF then firstDie s c else dieOf f.1.core
  let s3 := traceRec s2 d f.1.core c 7 (f.2.1 + f.2.2.1 * 2 ^ 32) f.2.2.2.1
  msix s3 (fld (s3.reg (rFQCTL c)) 36 32)

/-- One fatal fault of a context. -/
def fatalCtx (s : State) (c : Nat) (a : FaultAt) (code detail addr : Nat) (mask : Word32) : State := fatalAll s c (a, code, detail, addr, mask) []

/-- The record fields of a fault of no split (R446). -/
def FaultAt.none (core slot : Nat) : FaultAt := ⟨core, 0xFFFF, 0, slot, 0, 0, 0, 0, 0, false⟩

/-- The running launch slot of a context; 0xFF for none. -/
def runningSlot (s : State) (c : Nat) : Nat :=
  match (s.ctx c).slots.find? fun e => e.2.state == 2 with
  | some e => e.1
  | none => 0xFF

/-- A fault's place for a split of a group, at given PCs. -/
def faultAtOf (s : State) (gh : Nat) (p : Split) (pcA pcB : Nat) : FaultAt :=
  let g := s.grp gh
  let t := s.team g.team
  ⟨t.core, p.hinge, g.idx + 32 * g.stage, t.slot, t.reg, pcA, if t.isL then 0 else pcB, p.twinA, p.twinB, !t.isL⟩

/-- The place of a fault that a group's engine or a replay raises, and no split (R446). -/
def faultAtGroup (s : State) (gh : Nat) : FaultAt :=
  let g := s.grp gh
  let t := s.team g.team
  { FaultAt.none t.core t.slot with group := g.idx + 32 * g.stage, team := t.reg, isD := !t.isL }
/-- A fatal fault of a group's engine. -/
def fatalGroup (s : State) (gh code detail addr : Nat) : State :=
  fatalCtx s (s.team (s.grp gh).team).ctx (faultAtGroup s gh) code detail addr 0
/-- The executing word's place. -/
def wordPlace (s : State) : FaultAt := faultAtOf s s.cur.gh s.sp s.cur.pcA s.cur.pcB

/-- The executing word raises a fatal fault (R443 to R447). -/
def fatal (s : State) (code detail addr : Nat) (mask : Word32) : State :=
  fatalCtx s s.ct.ctx (wordPlace s) code detail addr mask

/-- The PC of the executing word as ADDR gives it (R442). -/
def wordAddr (s : State) : Nat := if s.cur.isV && !s.isL then s.cur.pcB * 12 else s.cur.pcA

def ILLEGAL_INST : Nat := 1
def REG_BOUND : Nat := 3
def MISALIGN : Nat := 4
def PROTECTION : Nat := 6
def PEER_GONE : Nat := 7
def BARRIER_MISMATCH : Nat := 8
def DIVERGENCE_SPILL : Nat := 9
def INT_DIVIDE : Nat := 0xA
def INTERVAL_NAI : Nat := 0xB
def ACS_RANGE : Nat := 0xC
def PAIR_MISMATCH : Nat := 0xD
def POISON : Nat := 0xE
def LINK_LOST : Nat := 0xF
def TRANSLATION_DENIED : Nat := 0x10
def HINGE_MAP : Nat := 0x11
def SECURITY : Nat := 0x12

/-- ILLEGAL_INST at execution (R104). -/
def illegalExec (s : State) : State := fatal s ILLEGAL_INST 1 (wordAddr s) 0

end Sys2Proof.Machine
end

