-- ==== Sys2Proof/Machine/Xlate.lean ====
section
/-! DEFINITION. Translation as an access meets it (R428 to R430, R434, R519): the caches, the classes of a bus address, and the requests. -/
namespace Sys2Proof.Machine

/-- What a translation gives: a location, a wait for the host, no mapping, or PROTECTION with a DETAIL. -/
inductive XRes where
  | hit (loc : Nat)
  | miss
  | unmapped
  | prot (detail : Nat)
  deriving DecidableEq, Repr

/-- A global address is canonical (R252). -/
def canonical (a : Nat) : Bool := let t := a / 2 ^ 56 % 256; a < 2 ^ 64 && (t == 0 || t == 255)
/-- The 4 KiB page of an address. -/
def pageOf (a : Nat) : Nat := a / 4096

/-- The location class of a bus address (R519, R508): none is the device's register space. -/
def busLoc (s : State) (pa : Nat) : Option Nat :=
  if s.io.bar0 ≤ pa ∧ pa < s.io.bar0 + 2 ^ 23 then none
  else if s.io.bar2 ≤ pa ∧ pa < s.io.bar2 + 2 ^ 40 then some (pa - s.io.bar2)
  else if pa / 2 ^ 54 % 4 = 3 then some (peerLoc (pa / 2 ^ 40 % 2 ^ 10) (pa % 2 ^ 40))
  else some (hostLoc pa)

/-- A pod address that R509 refuses: its own number, bits that must be zero, or a route that is not valid. -/
def podBad (s : State) (pa : Nat) : Bool :=
  let dev := pa / 2 ^ 40 % 2 ^ 10
  dev == fld (s.reg rPODID) 9 0 || pa / 2 ^ 56 != 0 || pa / 2 ^ 50 % 16 != 0 ||
  fld (s.reg (io1 + 0x400 + dev / 8 * 8)) (dev % 8 * 8 + 4) (dev % 8 * 8 + 4) == 0

def XEnt.covers (e : XEnt) (c va : Nat) : Bool := e.ctx == c && e.map.va == va / 2 ^ e.map.log2 * 2 ^ e.map.log2

/-- The entry of an address in a core's cache, else in its die's (R428). -/
def xEntry (s : State) (c core va : Nat) : Option XEnt :=
  match (s.core core).tlb.find? (·.covers c va) with
  | some e => some e
  | none => (s.die (dieOf core)).tlb.find? (·.covers c va)

/-- The key tag that an entry gives for a location: the tag that it took when it was filled. A page of more than one block takes each block's own;
an entry is dropped when a tag of its page changes (R434; DEDUCED, log 85). -/
def entryOwner (s : State) (e : XEnt) (l : Nat) : Nat := if 21 < e.map.log2 then keyTag s (blockOf l) else e.tag

/-- Translate one address for a context on a core: permissions (R429), key tag (R434), class (R519). -/
def xlate (s : State) (c core va : Nat) (write : Bool) : XRes :=
  match xEntry s c core va with
  | some e =>
    let pa := e.map.pa + va % 2 ^ e.map.log2
    if (if write then !e.map.w else !e.map.r) then .prot 1
    else
      match busLoc s pa with
      | none => .prot 3
      | some l =>
        if isDev l then (if entryOwner s e l = c ∨ entryOwner s e l = 64 then .hit l else .prot 2)
        else if isPeer l then (if podBad s pa then .prot 0 else .hit l)
        else .hit l
  | none =>
    let x := s.ctx c
    if x.regsp.contains (pageOf va) then .prot 3
    else if x.unmap.any fun u => u.1 == pageOf va then .unmapped
    else .miss

/-- The PASID of a context (R424). -/
def pasidOf (s : State) (c : Nat) : Nat := fld (s.reg (rCTXCFG c)) 19 0
/-- A core has asked for a page and waits for the answer. -/
def asked (s : State) (c core va : Nat) : Bool := s.io.atsWait.any fun q => q.ctx == c && q.core == core && q.page == pageOf va
/-- Ask ATS for a page (R428), once for each core; nothing goes to the host while its link is down (R510). -/
def askAts (s : State) (c core va : Nat) (write : Bool) : State :=
  if asked s c core va || s.io.linkDown then s
  else { s.say (.ats (pasidOf s c) (pageOf va)) with io := { s.io with atsWait := s.io.atsWait ++ [⟨c, core, pageOf va, write⟩] } }

/-- The page's request has failed, with the DETAIL of its TRANSLATION_DENIED (R430, R442): a miss count of 16 and more stands for the answer. -/
def denied (s : State) (c va : Nat) : Option Nat :=
  let x := s.ctx c
  let m := mget 0 x.misses (pageOf va)
  if 16 ≤ m then some (m - 16) else if x.priOff then some 1 else none

/-- Ask the host for an unmapped page (R430): a die merges its requests for one page; none for a PASID whose last request failed. -/
def askPri (s : State) (c core va : Nat) (write : Bool) : State :=
  let r : PReq := ⟨c, 128 * dieOf core, pageOf va, write⟩
  if (denied s c va).isSome || s.io.priSent.contains r || s.io.priWait.contains r then s
  else { s with io := { s.io with priWait := s.io.priWait ++ [r] } }

/-! Accesses that are no word of a split: replays, engines, and the device's own reads. -/

/-- How often an access has asked for a page since it found it unmapped, plus 1; 0 where it has not. -/
def tryCount (s : State) (c core : Nat) (who : List Nat) (page : Nat) : Nat :=
  (((s.core core).tries.find? fun t => t.ctx == c && t.who == who && t.page == page).map XTry.n).getD 0
def setTry (s : State) (c core : Nat) (who : List Nat) (page n : Nat) : State :=
  if tryCount s c core who page = n then s
  else s.setCore core { s.core core with tries := ⟨c, who, page, n⟩ :: (s.core core).tries.filter fun t => !(t.ctx == c && t.who == who && t.page == page) }
/-- The access has been performed. -/
def endTries (s : State) (c core : Nat) (who : List Nat) : State :=
  if (s.core core).tries.any fun t => t.ctx == c && t.who == who then
    s.setCore core { s.core core with tries := (s.core core).tries.filter fun t => !(t.ctx == c && t.who == who) }
  else s
/-- An access waits for its page: unmapped, it goes to the host or meets its denial; absent from the caches, it is asked for, and the fourth miss in
a row after the host's Success is TRANSLATION_DENIED with DETAIL 2 (R430, R451; log 75). -/
def waitPage (s : State) (c core va : Nat) (write : Bool) (who : List Nat) (unmapped : Bool) : Except Nat State :=
  if unmapped then
    match denied s c va with
    | some d => .error d
    | none => .ok (setTry (askPri s c core va write) c core who (pageOf va) 1)
  else if asked s c core va then .ok s
  else
    match tryCount s c core who (pageOf va) with
    | 0 => .ok (askAts s c core va write)
    | n + 1 => if 4 ≤ n + 1 then .error 2 else .ok (setTry (askAts s c core va write) c core who (pageOf va) (n + 2))

/-- Names of accesses that wait for pages start with 1 a replay, 2 a half performed late, 3 a copied granule, 4 a write of a drain, 10 a free-list push;
and of the device's own reads: the fetch of a group's next word; its hinge table row; the hinges of a team; a launch slot's block; a save area's. -/
def whoFetch (gh : Nat) : List Nat := [5, gh]
def whoRow (gh : Nat) : List Nat := [6, gh]
def whoTeam (t : Team) : List Nat := [7, t.reg.toNat]
def whoLaunch (k : Nat) : List Nat := [8, k]
def whoArea : List Nat := [9]

/-- n bytes read at a virtual address as the device's own work for a context (R408, R363): some lies on one page each. -/
inductive DevRead where
  | ok (bytes : List Byte)
  | wait (s : State)
  | bad (code detail addr : Nat)
  deriving DecidableEq, Repr

/-- The host state of the half of a host line that holds a location (R296). -/
def halfAt (s : State) (loc : Nat) : Nat := let e := s.dirE (lineOf loc); if loc / 64 % 2 = 0 then e.half0 else e.half1
/-- A byte as the device's own read finds it: of a host half that is not present, what the host sends (R310). -/
def ownByte (s : State) (loc : Nat) : Byte := if isHost loc && halfAt s loc == 0 then Config.hostByte s.free loc else s.rdByte loc

/-- Read bytes one by one, through the translation; who names the work that reads. -/
def devRead (s : State) (c core : Nat) (who : List Nat) (va : Nat) : Nat → DevRead
  | 0 => .ok []
  | n + 1 =>
    let waits (un : Bool) : DevRead := match waitPage s c core va false who un with
      | .ok s1 => .wait s1
      | .error d => .bad TRANSLATION_DENIED d va
    match xlate s c core va false with
    | .miss => waits false
    | .unmapped => waits true
    | .prot d => .bad PROTECTION d va
    | .hit l =>
      if mget false s.poison (l / 16) then .bad POISON 0 va
      else
        match devRead s c core who (va + 1) n with
        | .ok bs => .ok (ownByte s l :: bs)
        | r => r

end Sys2Proof.Machine
end

