-- ==== Sys2Proof/Machine/Splits.lean ====
section
/-! DEFINITION. Splits: division, parking, spilling and popping (R36 to R44), the end of lanes and retirement (R35, R400), transaction aborts
(R345), the hinge table (R405, R408) and user traps (R449, R450). -/
namespace Sys2Proof.Machine

/-- A meaning's result: .error holds the state in which the word ended early (a fatal fault, a wait, an abort). -/
abbrev Res := Except State State

def Res.out (r : Res) : Out := match r with
  | .ok s => .next s
  | .error s => .next s

/-- The split stands before the executing word again; a V-word of the D-encoding goes back to the head of its queue. -/
def rewind (s : State) : State :=
  let p := s.sp
  let q := if s.cur.isV && !s.isL then ⟨s.cur.pcB, s.cur.pcA, s.cur.last⟩ :: p.queue else p.queue
  let pc := if s.cur.isV && !s.isL then p.pc else s.cur.pcA
  s.setSp { p with pc := pc, queue := q, lpc := if s.cur.isV then s.cur.pcB else p.lpc, hold := .retry }
/-- The word cannot issue (R379): the split stands before it, and the issue is taken back (unissue). -/
def retry (s : State) : State := { rewind s with cur := { s.cur with held := true } }

/-- The word waits by R101 until the lane queue is empty; and until c holds. -/
def waitUnless (s : State) (c : Bool) : Res := if c then .ok s else .error (retry s)

/-- R101: in the D-encoding the split's lane queue must be empty. -/
def queueEmpty (s : State) : Bool := s.isL || s.sp.queue.isEmpty

/-- The launch a team belongs to. -/
def teamLaunch (s : State) (t : Team) : Option Launch := (mget LSlot.init (s.ctx t.ctx).slots t.slot).blk
/-- The team's entry row. -/
def teamRow (s : State) (t : Team) : Option EntryRow := (teamLaunch s t).map fun l => nthD ⟨0, false, 0, [], []⟩ l.rows t.entry

/-- Length in bytes of the code a PC of the team's encoding counts in (R75). -/
def codeLen (s : State) (t : Team) : Nat := match teamLaunch s t with
  | some l => if t.isL then l.llen else l.dslen
  | none => 0

/-! The deferred-path stack. -/

/-- The scratchpad offset of the spill slot m of a group, in an allocation that holds its area (R42, R43). -/
def spillOff (t : Team) (g : Group) (m : Nat) : Nat := t.off + t.bytes - 256 * (g.idx + 1) + 16 * m

/-- The group has a spill area: its kernel reserves one, and the allocation holds it (R43). DESIGN CHOICE (log 67): the spec does not say what a
reserved area means in an allocation smaller than 256 * (g + 1) bytes; the group has none there, so that no byte outside the allocation is read
or written (R256). -/
def hasSpill (s : State) (t : Team) (g : Group) : Bool := ((teamLaunch s t).any fun l => l.spill) && decide (256 * (g.idx + 1) ≤ t.bytes)

/-- Push a deferred entry; a ninth spills the oldest (R42, R44). -/
def pushDefer (s : State) (gh : Nat) (d : Defer) : Res :=
  let g := s.grp gh
  let t := s.team g.team
  if g.defer.length < 8 then .ok (s.setGrp gh { g with defer := d :: g.defer })
  else if !hasSpill s t g then .error (fatal s DIVERGENCE_SPILL 0 s.cur.pcA 0)
  else if g.spills ≥ 16 then .error (fatal s DIVERGENCE_SPILL 1 s.cur.pcA 0)
  else
    let o := nthD ⟨0, 0, 0, 0, 0, 0, 0, 0⟩ g.defer 7
    let bs := toBytes 4 o.mask.toNat ++ toBytes 4 o.pc ++ toBytes 4 (if t.isL then 0 else o.lpc) ++ toBytes 4 0
    let s1 := s.setCore t.core ((s.core t.core).wrSp (spillOff t g g.spills) bs)
    .ok (s1.setGrp gh { g with defer := d :: g.defer.take 7, spills := g.spills + 1, spillFrom := (o.fromA, o.fromB) :: g.spillFrom })

/-- Every lane of a group's live splits and of the deferred entries in hardware. -/
def liveMask (g : Group) : Word32 := g.splits.foldl (fun m p => m ||| p.mask) 0 ||| g.defer.foldl (fun m d => m ||| d.mask) 0
/-- Every lane of the first n entries of the spill area, as it stands there (R42). -/
def spillMask (c : CoreSt) (t : Team) (g : Group) (n : Nat) : Word32 :=
  (List.range n).foldl (fun m k => m ||| BitVec.ofNat 32 (c.rdSp (spillOff t g k) 4)) 0
/-- Length in V-words of the lane code section (R44, R102); none in the L-encoding, whose entries hold no lane PC. -/
def laneLen (s : State) (t : Team) : Option Nat := if t.isL then none else (teamLaunch s t).map (·.dllen)

/-- Refill one entry from the spill area, checking it (R42, R44). The popped split keeps the PCs of the branch that parked it (R75). at_: the
word that caused the refill, for the record of a failure. -/
def refillDefer (s : State) (gh : Nat) (at_ : FaultAt) : Res :=
  let g := s.grp gh
  let t := s.team g.team
  if g.spills = 0 then .ok s
  else
    let o := spillOff t g (g.spills - 1)
    let c := s.core t.core
    let m := BitVec.ofNat 32 (c.rdSp o 4)
    let pc := c.rdSp (o + 4) 4
    let lp := c.rdSp (o + 8) 4
    let from_ := g.spillFrom.headD (pc, lp)
    if m = 0 ∨ m &&& (liveMask g ||| spillMask c t g (g.spills - 1)) ≠ 0 ∨ codeLen s t ≤ pc ∨ (laneLen s t).any (· < lp) ∨ c.rdSp (o + 12) 4 ≠ 0 then
      .error (fatalCtx s t.ctx at_ DIVERGENCE_SPILL 2 o 0)
    else .ok (s.setGrp gh { g with defer := g.defer ++ [⟨m, pc, lp, 0xFFFF, 0, 0, from_.1, from_.2⟩], spills := g.spills - 1,
                                   spillFrom := g.spillFrom.drop 1 })

/-- Pop deferred entries while fewer than four splits are live (R41). at_: the word that left the group with fewer (R44). -/
def popDefer (gh : Nat) (at_ : FaultAt) : Nat → State → Res
  | 0, s => .ok s
  | n + 1, s =>
    let g := s.grp gh
    match g.defer with
    | [] => .ok s
    | d :: ds =>
      if g.splits.length ≥ 4 then .ok s
      else do
        let p : Split := { Split.init with mask := d.mask, pc := d.pc, lpc := d.lpc, hinge := d.hinge, twinA := d.twinA, twinB := d.twinB,
                                           fromA := d.fromA, fromB := d.fromB, first := false }
        let s1 ← refillDefer (s.setGrp gh { g with splits := g.splits ++ [p], defer := ds }) gh at_
        popDefer gh at_ n s1

/-- Insert by target PC. -/
def insertSet (x : Nat × Word32) : List (Nat × Word32) → List (Nat × Word32)
  | [] => [x]
  | y :: l => if x.1 = y.1 then (y.1, y.2 ||| x.2) :: l else if x.1 < y.1 then x :: y :: l else y :: insertSet x l

/-- The lane sets of a division by target, in increasing target PC. -/
def laneSets (m : Word32) (target : Nat → Nat) : List (Nat × Word32) :=
  (lanesOf m).foldl (fun l k => insertSet (target k, 1#32 <<< k) l) []

/-- Park sets of a split, the highest target first (R38); lpc: the lane PC of a set (R102). -/
def parkSets (gh : Nat) (p : Split) (lpc : Nat × Word32 → Nat) : List (Nat × Word32) → State → Res
  | [], s => .ok s
  | x :: l, s => do
    let s1 ← pushDefer s gh ⟨x.2, x.1, lpc x, p.hinge, p.twinA, p.twinB, s.cur.pcA, s.cur.pcB⟩
    parkSets gh p lpc l s1

/-- The executing split divides into sets with targets (R37, R38, R389). -/
def divide (s : State) (sets : List (Nat × Word32)) : Res :=
  let g := s.cg
  let p := s.sp
  match sets with
  | [] => .ok s
  | [x] => .ok (s.setSp { p with pc := x.1 })
  | x :: rest =>
    let room := 4 - (g.splits.length - 1)
    let mk (y : Nat × Word32) : Split := { p with pc := y.1, mask := y.2, pmask := p.pmask &&& y.2, age := 0 }
    let live := rest.take (room - 1)
    let s1 := s.setCg { g with splits := setAt g.splits s.cur.sp (mk x) ++ live.map mk }
    parkSets s.cur.gh p (fun _ => p.lpc) (rest.drop (room - 1)).reverse s1

/-! Barriers are re-evaluated when groups arrive and retire; see Barrier.lean. Here: the end of lanes. -/

/-- A group has no lane left and no split waits in take (R35). -/
def groupEnded (g : Group) : Bool := g.splits.isEmpty && g.defer.isEmpty && g.spills == 0

/-- The team's unretired groups, as a mask of indices. -/
def liveGroups (s : State) (tid : Nat) (t : Team) : Word32 :=
  maskOf ((List.range t.size).filter fun i => s.groups.any fun e => e.1 == handle tid i && !e.2.retired)

/-- The partner core of a pair of engines (R228). -/
def partnerCore (core : Nat) : Nat := match posOf core with
  | 1 => core + 1
  | 2 => core - 1
  | 3 => core + 1
  | 4 => core - 1
  | _ => 0

/-- A paired mloop. -/
def MCmd.paired (c : MCmd) : Bool := match c.op with
  | .loop f _ _ _ _ _ _ => f.pair
  | _ => false
/-- The first paired command of a team that waits for agreement (R229). -/
def pairWaits (s : State) (tid : Nat) : Option MCmd := (s.core (s.team tid).core).mq.find? fun c => c.gh / 32 == tid && c.paired && !c.agreed

/-- A pairing of two teams ends (R249); a paired command that is left waiting is a PAIR_MISMATCH in its team (R230). -/
def endPair (s : State) (t u : Nat) : State :=
  let s1 := (s.setTeam t { s.team t with pair := none }).setTeam u { s.team u with pair := none }
  let rec_ (x : Nat) : List FaultRec := ((pairWaits s x).map fun c => (c.org, PAIR_MISMATCH, 3, partnerCore c.org.core, 0)).toList
  match rec_ u ++ rec_ t with
  | [] => s1
  | f :: more => fatalAll s1 (s.team t).ctx f more

/-- The windows of a team that were bound to a retired one are gone (R258). -/
def peerRetires (tid : Nat) (x : Team) : Team := { x with peers := x.peers.map fun w => if w.2 = .team tid then (w.1, Peer.gone) else w }
/-- PEER_GONE for lanes that wait in ldfe on the granules of a retired team, one record for each group (R258, R446); p: the waits on a core. -/
def goneWaiters (s : State) (p : Nat → Waiter → Bool) : List FaultRec :=
  let ws := s.cores.flatMap fun c => (c.2.waits.filter (p c.1)).map fun w => (c.1, w)
  ((ws.map fun w => w.2.gh).eraseDups).filterMap fun gh => ((ws.find? fun w => w.2.gh == gh).map fun w =>
    let p := ((s.grp gh).splits.find? fun p => inMask p.mask w.2.lane).getD Split.init
    (faultAtOf s gh p p.fromA p.fromB, PEER_GONE, posOf w.1, posOf w.1 * 2 ^ 21 + w.2.addr,
     maskOf ((ws.filter fun v => v.2.gh == gh && v.1 == w.1).map fun v => v.2.lane)))
/-- A team retires when its last group does (R35): its pairing ends, its windows are gone, also in saved teams, its retirement is traced, and
lanes that wait on its granules meet PEER_GONE (R249, R257, R258, R460). -/
def retireTeam (s : State) (tid : Nat) : State :=
  let t := s.team tid
  if liveGroups s tid t ≠ 0 then s
  else
    let s1 := s.setTeam tid { t with gone := true }
    let s2 := match t.pair with
      | some u => endPair s1 tid u
      | none => s1
    let saves (x : Ctx) : Ctx := { x with saves := x.saves.map fun v => { v with team := peerRetires tid v.team } }
    let s3 := { s2 with teams := s2.teams.map fun e => (e.1, peerRetires tid e.2), ctxs := s2.ctxs.map fun e => (e.1, saves e.2) }
    let s4 := traceRec s3 (dieOf t.core) t.core t.ctx 4 t.reg.toNat 0
    match goneWaiters s4 fun _ w => w.team == tid && w.gh / 32 != tid with
    | [] => s4
    | r :: more => fatalAll s4 t.ctx r more

/-- Lanes of a group pass a quiescent point at an order number (R351, R354). -/
def Group.pass (n : Nat) (m : Word32) (g : Group) : Group :=
  { g with misc := { g.misc with owed := g.misc.owed &&& ~~~m, passAt := if g.misc.owed &&& m = 0 then g.misc.passAt else n } }

/-- A group whose lanes have all ended retires (R35). -/
def retireGroup (s : State) (gh : Nat) : State :=
  let g := s.grp gh
  if groupEnded g && !g.retired then
    let tid := g.team
    let x := s.ctx (s.team tid).ctx
    let s1 := s.setGrp gh (Group.pass s.seq 0xFFFFFFFF { g with retired := true })
    retireTeam (s1.setCtx (s.team tid).ctx { x with token := if x.token = some gh then none else x.token }) tid
  else s

/-- Lanes pass a quiescent point (R351). -/
def passPoint (s : State) (gh : Nat) (m : Word32) : State :=
  s.setGrp gh (Group.pass s.seq m (s.grp gh))

/-- The executing split's lanes end and the split with them (R400). -/
def endLanes (s : State) (exit : Bool) : Res :=
  let g := s.cg
  let m := s.sp.mask
  let g1 := Group.pass s.seq m
    { g with splits := dropAt g.splits s.cur.sp, done := if exit then g.done else g.done ||| m, exited := if exit then g.exited ||| m else g.exited }
  do
    let s1 ← popDefer s.cur.gh (wordPlace s) 4 (s.setCg g1)
    .ok (retireGroup s1 s.cur.gh)

/-! Transaction aborts. -/

def txOf (g : Group) (l : Nat) : Tx := mget Tx.init g.tx l
def setTx (g : Group) (l : Nat) (t : Tx) : Group := { g with tx := mset Tx.init g.tx l t }

/-- An abort's status word (R345). -/
def abortWord (code detail cc : Nat) : Nat := code + detail * 2 ^ 8 + cc * 2 ^ 16 + bbit (cc == 8) 20

/-- An abort to make: lane, code, detail. -/
abbrev AbortReq := Nat × Nat × Nat

/-- Discard a lane's transaction and write its status word (R345). keep leaves CCOUNT (R349). -/
def abortLane (g : Group) (keep : Bool) (r : AbortReq) : Group :=
  let t := txOf g r.1
  let bump := !keep && (r.2.1 = 1 || r.2.1 = 2 || (r.2.1 = 3 && r.2.2 = 1))
  let cc := if bump then min (t.ccount + 1) 8 else t.ccount
  let w := abortWord r.2.1 r.2.2 cc
  let g1 := setTx g r.1 { t with active := false, irrev := false, ccount := cc, last := w % 2 ^ 16, doomed := false, rlines := [], wlines := [], wattr := [],
                                 rbytes := [], wbytes := [] }
  g1.wV t.statreg r.1 (BitVec.ofNat 64 w)

/-- Irrevocable lanes of a group have ended: the token is held while another lane of it is irrevocable, or is to start so (R347). -/
def dropToken (s : State) (gh : Nat) (ended : Bool) : State :=
  let g := s.grp gh
  let c := (s.team g.team).ctx
  let x := s.ctx c
  if ended && x.token == some gh && !(g.tx.any fun t => t.2.irrev) then s.setCtx c { x with token := none } else s

/-- Lanes of a split abort: they leave it and form one split for each resume point; beyond four live splits they are parked (R38, R345). -/
def abortLanes (s : State) (gh k : Nat) (keep : Bool) (rs : List AbortReq) : Res :=
  if rs.isEmpty then .ok s
  else
    let g := s.grp gh
    let p := nthD Split.init g.splits k
    let m := maskOf (rs.map Prod.fst)
    let sets := laneSets m fun l => (txOf g l).abortA
    let lpcOf (x : Nat × Word32) : Nat := match lanesOf x.2 with
      | l :: _ => (txOf g l).abortB
      | [] => p.lpc
    let rest := p.mask &&& ~~~m
    -- a memory word in progress ends with the last lane of its split, and its counter falls (R94)
    let ended : List Nat := if rest = 0 then (p.mem.map (·.id)).toList else []
    let g1 := rs.foldl (fun g r => abortLane g keep r) { g with pend := g.pend.filter fun q => !ended.contains q.id }
    let keepS := if rest = 0 then dropAt g1.splits k else setAt g1.splits k { p with mask := rest, pmask := p.pmask &&& rest }
    let mk (x : Nat × Word32) : Split := { p with pc := x.1, lpc := lpcOf x, mask := x.2, pmask := 0, mem := none, queue := [], items := [], hold := .none, age := 0 }
    let room := 4 - keepS.length
    let s1 := dropToken (s.setGrp gh { g1 with splits := keepS ++ (sets.take room).map mk }) gh (rs.any fun r => (txOf g r.1).irrev)
    parkSets gh p lpcOf (sets.drop room).reverse s1

/-- The lanes of a mask that are in a transaction. -/
def txLanes (g : Group) (m : Word32) : List Nat := (lanesOf m).filter fun l => (txOf g l).active

/-- R341: the lanes of the executing split that are in a transaction abort FORBIDDEN and leave it; the word goes on for the others, and does
not act where none remains. -/
def forbidTx (s : State) (m : Word32) : Res :=
  let ls := txLanes s.cg m
  if ls.isEmpty then .ok s
  else do
    let s1 ← abortLanes s s.cur.gh s.cur.sp false (ls.map fun l => (l, 5, 0))
    if s.sp.mask &&& ~~~maskOf ls = 0 then .error s1 else .ok s1

/-! The hinge table (R125, R405). -/

/-- A hinge row. -/
structure HRow where
  id    : Nat
  quiet : Bool
  lpc   : Nat
  dpc   : Nat
  dlpc  : Nat
  map   : Nat
  len   : Nat
  deriving DecidableEq, Repr

/-- A row of the hinge table (R125). DESIGN CHOICE (log 81): no rule gives a fate to a row whose reserved byte 3 or bits [7:1] of byte 2 are not
zero, since R408's reserved bytes need not be the table's; they are ignored. -/
def hrowOf (bs : List Byte) : HRow :=
  let n (o k : Nat) : Nat := ofBytes ((bs.drop o).take k)
  ⟨n 0 2, decide (n 2 1 % 2 = 1), n 4 4, n 8 4, n 12 4, n 16 4, n 20 4⟩

/-- What reading the hinge table gives. -/
inductive HRead where
  | row (r : HRow)
  | none
  | wait (s : State)
  | bad (code detail addr : Nat)
  deriving DecidableEq, Repr

/-- The first row that meets a test, among n rows from an address. -/
def findRow (s : State) (c core : Nat) (who : List Nat) (p : HRow → Bool) (va : Nat) : Nat → HRead
  | 0 => .none
  | n + 1 =>
    match devRead s c core who va 24 with
    | .wait s' => .wait s'
    | .bad a b d => .bad a b d
    | .ok bs => if p (hrowOf bs) then .row (hrowOf bs) else findRow s c core who p (va + 24) n

/-- The row of the executing hinge word, by its PC in the running encoding (R404). -/
def hingeRow (s : State) : HRead :=
  match teamLaunch s s.ct with
  | some l => findRow s s.ct.ctx s.ct.core (whoRow s.cur.gh) (fun r => if s.isL then r.lpc == s.cur.pcA else r.dpc == s.cur.pcA) l.htab l.hcount
  | none => .none

/-- A hinge word sets HINGE and TWINPC from its row, and is a quiescent point where the row is quiet (R405); id is given by a hinge word. -/
def atHinge (s : State) (id : Option Nat) : Res :=
  match hingeRow s with
  | .wait s' => .error (retry s')
  | .bad c d a => .error (fatal s c d a 0)
  | .none => .error (fatal s HINGE_MAP 0 (id.getD 0xFFFF) 0)
  | .row r =>
    if id.all (· == r.id) then
      let s := endTries s s.ct.ctx s.ct.core (whoRow s.cur.gh)
      let s1 := s.setSp { s.sp with hinge := r.id, twinA := if s.isL then r.dpc else r.lpc, twinB := if s.isL then r.dlpc else 0 }
      .ok (if r.quiet then passPoint s1 s.cur.gh s.sp.mask else s1)
    else .error (fatal s HINGE_MAP 0 (id.getD 0xFFFF) 0)

/-! Traps. -/

/-- Take a trap for the executing split (R449): the word at pcA, pcB has finished; mask holds the offending lanes. -/
def takeTrap (s : State) (code : Nat) (mask : Word32) (imm pcA pcB : Nat) : Res := do
  let s1 ← abortLanes s s.cur.gh s.cur.sp false ((txLanes s.cg s.sp.mask).map fun l => (l, 5, 0))
  if s.sp.mask &&& ~~~maskOf (txLanes s.cg s.sp.mask) = 0 then .error s1
  else
    let die (s : State) : State := if code = 0 then fatal s ILLEGAL_INST 1 (wordAddr s) (mask &&& s.sp.mask) else fatal s code 0 (wordAddr s) mask
    let g := s1.cg
    if g.frame.isSome then .error (die s1)
    else
      match teamLaunch s1 s1.ct with
      | none => .error (die s1)
      | some l =>
        match findRow s1 s1.ct.ctx s1.ct.core (whoRow s1.cur.gh) (fun r => r.id == 0xFFFE) l.htab l.hcount with
        | .none => .error (die s1)
        | .bad c d a => .error (fatal s1 c d a 0)
        | .wait s2 => .error (s2.setSp { s2.sp with hold := .trapw code mask imm pcA pcB })
        | .row r =>
          let p := s1.sp
          let f : Frame := ⟨p.mask.toNat, p.pc, p.lpc, p.queue, s1.rS 124, s1.rS 125, s1.rS 126, s1.rS 127, p.hinge, p.twinA, p.twinB⟩
          let isL := s1.isL
          let g1 := (((g.wS 124 (BitVec.ofNat 64 (code + (if isL then 0 else 256) + imm * 2 ^ 32))).wS 125 (mask.zeroExtend 64)).wS 126
            (BitVec.ofNat 64 (pcA + if isL then 0 else pcB * 2 ^ 32))).wS 127 (BitVec.ofNat 64 (p.twinA + p.twinB * 2 ^ 32))
          let s2 := (endTries s1 s1.ct.ctx s1.ct.core (whoRow s1.cur.gh)).setCg { g1 with frame := some f }
          .ok (s2.setSp { s2.sp with pc := if isL then r.lpc else r.dpc, queue := [], hold := .none })

/-- The return from a trap (R450). -/
def trapReturn (s : State) : Res :=
  match s.cg.frame with
  | none => .error (illegalExec s)
  | some f =>
    let g := (((s.cg.wS 124 f.s124).wS 125 f.s125).wS 126 f.s126).wS 127 f.s127
    let s1 := s.setCg { g with frame := none }
    .ok (s1.setSp { s1.sp with pc := f.pc, lpc := f.lpc, queue := f.queue, hinge := f.hinge, twinA := f.twinA, twinB := f.twinB })

end Sys2Proof.Machine
end

