-- ==== Sys2Proof/Machine/Flags.lean ====
section
/-! DEFINITION. The lane status word (R69): its sticky bits and the decoration floor, and the traps they raise (R157, R163, R164). -/
namespace Sys2Proof.Machine

def bLATCH_LOST : Nat := 6
def bSAT : Nat := 5
def bOV : Nat := 4
def bDZ : Nat := 3
def bNAI : Nat := 2

/-- A lane's status word; DECO is com at group start (R76). -/
def Group.st (g : Group) (l : Nat) : Word32 := mget 3 g.status l
def Group.setSt (g : Group) (l : Nat) (x : Word32) : Group := { g with status := mset 3 g.status l x }
/-- Set a sticky bit of a lane. -/
def Group.orSt (g : Group) (l b : Nat) : Group := g.setSt l (g.st l ||| (1#32 <<< b))
/-- Set a sticky bit in the lanes of a list. -/
def Group.orSts (g : Group) (b : Nat) (ls : List Nat) : Group := ls.foldl (fun g l => g.orSt l b) g
/-- DECO takes the lower of its old value and a decoration (R69). -/
def Group.lowerDeco (g : Group) (l d : Nat) : Group :=
  if d < (g.st l).toNat % 4 then g.setSt l ((g.st l &&& ~~~3#32) ||| BitVec.ofNat 32 d) else g
/-- DECO written (R194). -/
def Group.setDeco (g : Group) (l d : Nat) : Group := g.setSt l ((g.st l &&& ~~~3#32) ||| BitVec.ofNat 32 (d % 4))

/-- TRAPEN.INT_DIVIDE and TRAPEN.INTERVAL_NAI (R72). -/
def trapDiv (s : State) : Bool := s.cg.trapen % 2 == 1
def trapNai (s : State) : Bool := s.cg.trapen / 2 % 2 == 1

/-- After the word: trap when the enable is set and lanes offended (R164). -/
def trapIf (en : Bool) (code : Nat) (ls : List Nat) (s : State) : Res :=
  if en && !ls.isEmpty then takeTrap s code (maskOf ls) 0 s.cur.pcA s.cur.pcB else .ok s

end Sys2Proof.Machine
end

