-- ==== Sys2Proof/Machine/Operands.lean ====
section
/-! DEFINITION. Operand forms and results of V-words: guards (R84), operand codes (R82), bypass latches (R65, R66), counted results (R93 to
R96), poisoned elements (R455), and the shared frames of the vector words. -/
namespace Sys2Proof.Machine

/-- The guard admits an element (R84). -/
def guardOk (gs : Nat) (x : Tri) : Bool :=
  match gs with
  | 0 => true
  | 1 => x == 1
  | 2 => x == 0
  | 3 => x == 2
  | 4 => x != 0
  | 5 => x != 1
  | _ => x != 2

/-- active(split) under a guard (R7, R84). -/
def active (s : State) (h : VH) : Word32 :=
  if h.gs = 0 then s.sp.mask else maskOf ((lanesOf s.sp.mask).filter fun l => guardOk h.gs (s.cg.rQ s.free h.g l))

/-- The latch entry bk of the executing group, where its data is present (R65, R66). -/
def latchEnt (s : State) (k : Nat) : Option LatchEnt :=
  let d := mget (0, []) s.cc.latch s.cg.part
  if d.1 = s.cur.gh then d.2[k]? else none

/-- A read of bk in a lane (R65, R66). Before the counter of its producer shows completion it has the outcomes of R96: the old value while the
word has not finished, then old or new per half. -/
def rdLatch (s : State) (k l : Nat) : Word64 :=
  match latchEnt s k, s.cg.tags[k]? with
  | some e, some tag =>
    if inMask e.mask l then
      (match e.pend with
       | some id =>
         if s.cg.pend.any fun p => p.id == id && p.wait then s.cg.rV s.free tag.1 l
         else mixHalf s.free 0 (tag.1 * 32 + l) (s.cg.rV s.free tag.1 l) (mget 0 e.vals l)
       | none => mget 0 e.vals l)
    else Config.freeWord s.free l
  | none, some tag => if tag.2 then 0 else s.cg.rV s.free tag.1 l
  | _, none => 0

/-- A read of bk sets LATCH_LOST: no tag, or the data of an N = 1 producer lost (R66). -/
def latchLost (s : State) (k : Nat) : Bool :=
  match latchEnt s k, s.cg.tags[k]? with
  | _, none => true
  | none, some tag => tag.2
  | some _, some _ => false

/-- An operand's 64-bit element in a lane (R82). -/
def rdOp (s : State) (o : Opnd) (l : Nat) : Word64 :=
  match o with
  | .v k => s.cg.rV s.free k l
  | .s k => s.rS k
  | .b k => rdLatch s k l
  | .zero => 0
  | .lane => BitVec.ofNat 64 l
  | .grp => BitVec.ofNat 64 s.cg.idx
  | .stage => BitVec.ofNat 64 s.cg.stage

/-- The upper element of an .x64 operand (R65, R82). -/
def rdOpHi (s : State) (o : Opnd) (l : Nat) : Word64 :=
  match o with
  | .v k => s.cg.rV s.free (k + 1) l
  | .s k => s.rS (k + 1)
  | .b k => rdLatch s k l
  | _ => 0

/-- The lower element of an .x64 operand. -/
def rdOpLo (s : State) (o : Opnd) (l : Nat) : Word64 :=
  match o with
  | .b k => rdLatch s (k + 1) l
  | o => rdOp s o l

/-- The latches an operand reads. -/
def opLatches (pair : Bool) : Opnd → List Nat
  | .b k => if pair then [k, k + 1] else [k]
  | _ => []
/-- The vector registers an operand reads. -/
def opRegs (pair : Bool) : Opnd → List Nat
  | .v k => if pair then [k, k + 1] else [k]
  | _ => []

/-- Lanes of a mask in which a register element is poisoned (R455). -/
def poisonLanes (g : Group) (m : Word32) (r : Nat) : List Nat := (lanesOf m).filter fun l => mget false g.vpois (r * 32 + l)

/-- A register element that a word reads or writes has a write of the matrix engine pending: the scoreboard of a D-core holds the word back
at issue (R100). Every other result of a D-core stands once its word has issued. -/
def scoreHeld (s : State) (act : Word32) (regs : List Nat) : Bool :=
  !s.isL && s.cg.pend.any fun p => p.ws.any fun w => w.kind == 3 && regs.contains (w.key / 32) && inMask act (w.key % 32)

/-- The registers behind latches: what a read of one gives where its entry is gone, or its producer has not finished (R65, R66). -/
def latchRegs (s : State) (lat : List Nat) : List Nat :=
  lat.filterMap fun k => match latchEnt s k, s.cg.tags[k]? with
    | some e, some tag => if e.pend.any fun id => s.cg.pend.any fun p => p.id == id then some tag.1 else none
    | none, some tag => if tag.2 then none else some tag.1
    | _, none => none
/-- What every V-word does before its effect: POISON where it reads a poisoned element in an active lane; LATCH_LOST where a latch it reads
lost its value. regs: the vector registers read; lat: the latches read, each of which may give its register (R455). -/
def vpre (s : State) (act : Word32) (regs lat : List Nat) : Res :=
  match (regs ++ latchRegs s lat).find? fun r => !(poisonLanes s.cg act r).isEmpty with
  | some r => .error (fatal s POISON 1 r (maskOf (poisonLanes s.cg act r)))
  | none => if lat.any (latchLost s) then .ok (s.setCg (s.cg.orSts bLATCH_LOST (lanesOf act))) else .ok s

/-- The values of a result, by lane. -/
abbrev LaneVals := List (Nat × Word64)

def vlanes {α : Type} (act : Word32) (f : Nat → α) : List (Nat × α) := (lanesOf act).map fun l => (l, f l)

/-- Shift a result into the latches and the tag list (R65, R66). -/
def pushLatch (s : State) (d : Nat) (n : Bool) (vals : LaneVals) (pend : Option Nat) : State :=
  let c := s.cc
  let e := mget (0, []) c.latch s.cg.part
  let ents := if e.1 = s.cur.gh then e.2 else []
  let ent : LatchEnt := ⟨d, msetAll 0 [] vals, maskOf (vals.map Prod.fst), pend⟩
  let s1 := s.setCore s.ct.core { c with latch := mset (0, []) c.latch s.cg.part (s.cur.gh, (ent :: ents).take 4) }
  s1.setCg { s1.cg with tags := ((d, n) :: s1.cg.tags).take 4 }

/-- Write a register's elements. -/
def wrVals (g : Group) (d : Nat) (vals : LaneVals) : Group := vals.foldl (fun g x => g.wV d x.1 x.2) g

/-- The results of a word outside the counter classes: registers (unless N), and in the L-encoding the latches (R65, R83). -/
def putVec (s : State) (n : Bool) (rs : List (Nat × LaneVals)) : State :=
  let s1 := if n then s else s.setCg (rs.foldl (fun g r => wrVals g r.1 r.2) s.cg)
  if s.isL then rs.foldl (fun s r => pushLatch s r.1 n r.2 none) s1 else s1

/-- The writes a counted instruction still has to make. -/
def pws (rs : List (Nat × LaneVals)) : List PW := rs.flatMap fun r => r.2.map fun x => ⟨0, r.1 * 32 + x.1, x.2, false⟩

/-- A counted word raises its counter at issue, and in the L-encoding its results take their latch positions (R65, R94); the scalars that it will
write have a write pending from then on (R96, R100, R166). rs: the registers of its results; sd: its scalars. -/
def issueCounted (s : State) (cls id : Nat) (n : Bool) (rs sd : List Nat) (act : Word32) : State :=
  let s1 := s.setCg { s.cg with pend := s.cg.pend ++ [⟨cls, id, true, (sd.filter (· != 0)).map fun k => ⟨4, k, 0, false⟩⟩] }
  if s.isL then rs.foldl (fun s r => pushLatch s r n (vlanes act fun _ => 0) (some id)) s1 else s1

/-- A counted word's value of a register enters the latch entry that its issue made, where the entry is still there (R65). -/
def fillLatch (s : State) (gh id : Nat) (r : Nat × LaneVals) : State :=
  let g := s.grp gh
  let core := (s.team g.team).core
  let c := s.core core
  let e := mget (0, []) c.latch g.part
  if e.1 = gh then
    s.setCore core { c with latch := mset (0, []) c.latch g.part (gh, e.2.map fun x =>
      if x.pend = some id ∧ x.reg = r.1 then { x with vals := msetAll 0 x.vals r.2, mask := x.mask ||| maskOf (r.2.map Prod.fst) } else x) }
  else s

/-- One write of a counted word as its class makes it at once (R100). -/
def writeNow (g : Group) (w : PW) : Group :=
  if w.kind = 1 then g.wS w.key w.val else if w.kind = 2 then g.wQ (w.key / 32) (w.key % 32) w.val.toNat else g

/-- The writes of a counted word once it has their values: a scalar that a later instruction wrote meanwhile keeps that mark (R96). -/
def formWrites (old ws : List PW) : List PW :=
  old.filter (fun w => w.kind != 4) ++ ws.map fun w => { w with con := w.con || old.any fun o => o.kind == 4 && w.kind == 1 && o.key == w.key && o.con }
/-- A counted word that issued has all its results: in the L-encoding they stay pending until COUNTED_RESULT_WRITE; in the D-encoding they are
written and the counter falls (R94, R100). extra: scalar or predicate writes. -/
def finishCounted (s : State) (id : Nat) (n : Bool) (rs : List (Nat × LaneVals)) (extra : List PW) : State :=
  if s.isL then
    let s1 := s.setCg { s.cg with pend := s.cg.pend.map fun p =>
      if p.id = id then { p with wait := false, ws := formWrites p.ws ((if n then [] else pws rs) ++ extra) } else p }
    rs.foldl (fun s r => fillLatch s s.cur.gh id r) s1
  else
    let s1 := dropPend s s.cur.gh id
    s1.setCg (extra.foldl writeNow (rs.foldl (fun g r => wrVals g r.1 r.2) s1.cg))

/-- The results of a counted word that finishes where it issues (R94): in the L-encoding they stay pending until COUNTED_RESULT_WRITE; in the D-encoding they are as if
complete (R100). extra: scalar or predicate writes. -/
def putCounted (s : State) (cls : Nat) (n : Bool) (rs : List (Nat × LaneVals)) (extra : List PW) : State :=
  if s.isL then
    let id := s.seq
    let s1 := s.tick.setCg { s.cg with pend := s.cg.pend ++ [⟨cls, id, false, (if n then [] else pws rs) ++ extra⟩] }
    rs.foldl (fun s r => pushLatch s r.1 n r.2 (some id)) s1
  else
    let g := rs.foldl (fun g r => wrVals g r.1 r.2) s.cg
    s.setCg (extra.foldl writeNow g)

/-- A word that would raise a counter above 63 waits at issue (R94). -/
def roomCounter (s : State) (cls : Nat) : Bool := counter cls s.cg < 63

/-! Frames. -/

/-- A word with one vector result per lane, from its operands. -/
def vword (s : State) (h : VH) (d : Nat) (regs : List Nat) (ops : List Opnd) (f : State → Nat → Word64) : Res := do
  let act := active s h
  let s1 ← vpre s act (regs ++ ops.flatMap (opRegs false)) (ops.flatMap (opLatches false))
  .ok (putVec s1 h.n [(d, vlanes act (f s))])

/-- Width of a TYPE (R172). -/
def wOf (t : Ty) : Nat := match t with
  | .i32 | .n32 | .b32 => 32
  | _ => 64
/-- .i32 and .i64 are signed (R130). -/
def isSigned (t : Ty) : Bool := match t with
  | .i32 | .i64 => true
  | _ => false
/-- An operand as an unsigned w-bit number. -/
def rdW (s : State) (t : Ty) (o : Opnd) (l : Nat) : Nat := (rdOp s o l).toNat % 2 ^ wOf t
/-- A w-bit result in an element, upper bits cleared (R61). -/
def elemW (t : Ty) (z : Int) : Word64 := BitVec.ofNat 64 (z % ((2 ^ wOf t : Nat) : Int)).toNat
/-- A number's value under its TYPE. -/
def valW (t : Ty) (x : Nat) : Int := if isSigned t then sext (wOf t) x else (x % 2 ^ wOf t : Nat)

/-- An interval operand of a lane (R129, R133, R135). -/
def rdIvl (s : State) (t : Ty) (o : Opnd) (l j : Nat) : Ivl :=
  match t with
  | .x64 => ivlBits fp64 (rdOpLo s o l).toNat (rdOpHi s o l).toNat
  | .x32 => x32Read (rdOp s o l)
  | t =>
    let x := (rdOp s o l).toNat / 2 ^ (32 * j)
    ivlBits (ivlFmt t) (x % 2 ^ 16) (x / 2 ^ 16 % 2 ^ 16)

/-- The raw bound fields of an operand: lower and upper. -/
def rdBounds (s : State) (t : Ty) (o : Opnd) (l j : Nat) : Nat × Nat :=
  match t with
  | .x64 => ((rdOpLo s o l).toNat, (rdOpHi s o l).toNat)
  | .x32 => ((rdOp s o l).toNat % 2 ^ 32, (rdOp s o l).toNat / 2 ^ 32)
  | _ => let x := (rdOp s o l).toNat / 2 ^ (32 * j); (x % 2 ^ 16, x / 2 ^ 16 % 2 ^ 16)

/-- Intervals per element (R135). -/
def ivlCount (t : Ty) : Nat := match t with
  | .xb16 | .xh16 => 2
  | _ => 1

/-- The registers' elements of intervals (R129, R134): the destination, and its odd neighbour for .x64. -/
def ivlElems (t : Ty) (ys : List Ivl) : Word64 × Word64 :=
  match t, ys with
  | .x64, y :: _ => let p := ivlWrite fp64 y; (BitVec.ofNat 64 p.1, BitVec.ofNat 64 p.2)
  | .x32, y :: _ => (x32Write y, 0)
  | t, y :: z :: _ =>
    let p := ivlWrite (ivlFmt t) y
    let q := ivlWrite (ivlFmt t) z
    (BitVec.ofNat 64 (p.1 + p.2 * 2 ^ 16 + q.1 * 2 ^ 32 + q.2 * 2 ^ 48), 0)
  | _, _ => (0, 0)

/-- The results of intervals per lane, for putVec. -/
def ivlRes (t : Ty) (d : Nat) (l : List (Nat × Word64 × Word64)) : List (Nat × LaneVals) :=
  match t with
  | .x64 => [(d, l.map fun x => (x.1, x.2.1)), (d + 1, l.map fun x => (x.1, x.2.2))]
  | _ => [(d, l.map fun x => (x.1, x.2.1))]

/-- The registers and latches that interval operands read: both of an .x64 pair, also for xmake, which takes one bound of each (DESIGN CHOICE, log
78). -/
def ivlPre (s : State) (act : Word32) (t : Ty) (ops : List Opnd) : Res :=
  vpre s act (ops.flatMap (opRegs (t == .x64))) (ops.flatMap (opLatches (t == .x64)))

/-- The frame of R183: per lane and interval a value, a decoration (3 where the word leaves DECO) and NaI; then status, then the trap. -/
def xword (s : State) (h : VH) (t : Ty) (d : Nat) (ops : List Opnd) (f : State → Nat → Nat → Ivl × Nat × Bool) : Res := do
  let act := active s h
  let s1 ← ivlPre s act t ops
  let rs := vlanes act fun l => (List.range (ivlCount t)).map (f s l)
  let s2 := putVec s1 h.n (ivlRes t d (rs.map fun x => (x.1, ivlElems t (x.2.map fun y => y.1))))
  let naiL := (rs.filter fun x => x.2.any fun y => y.2.2).map Prod.fst
  let g := rs.foldl (fun g x => x.2.foldl (fun g y => g.lowerDeco x.1 y.2.1) g) s2.cg
  trapIf (trapNai s) INTERVAL_NAI naiL (s2.setCg (g.orSts bNAI naiL))

end Sys2Proof.Machine
end

