-- ==== Sys2Proof/Machine/IntArith.lean ====
section
/-! DEFINITION. Integer arithmetic on w-bit words: division (R163), leading zeros, population count, shifts (R167, R173, R174). -/
namespace Sys2Proof.Machine

/-- Signed value of a w-bit number, or its unsigned value. -/
def ival (sg : Bool) (w x : Nat) : Int := if sg then sext w x else ((x % 2 ^ w : Nat) : Int)
/-- A number reduced to w bits (R7). -/
def wrapW (w : Nat) (z : Int) : Nat := (z % ((2 ^ w : Nat) : Int)).toNat

/-- The cases of R163 as status bits. -/
def divDz (b : Nat) : Bool := b == 0
def divOv (sg : Bool) (w a b : Nat) : Bool := sg && a == 2 ^ (w - 1) && b == 2 ^ w - 1
/-- The quotient of w-bit numbers (R163). -/
def quotW (sg : Bool) (w a b : Nat) : Nat := if b = 0 then 2 ^ w - 1 else wrapW w ((ival sg w a).tdiv (ival sg w b))
/-- The remainder of w-bit numbers (R163). -/
def remW (sg : Bool) (w a b : Nat) : Nat := if b = 0 then a else wrapW w ((ival sg w a).tmod (ival sg w b))

/-- Leading zeros within w bits. -/
def clzW (w x : Nat) : Nat := if x = 0 then w else w - 1 - x.log2
/-- One bits within w bits. -/
def popW (w x : Nat) : Nat := ((List.range w).filter fun k => x.testBit k).length
/-- The high w bits of the product (R167, R173). -/
def mulhW (sg : Bool) (w a b : Nat) : Nat := wrapW w ((ival sg w a * ival sg w b) / ((2 ^ w : Nat) : Int))
/-- Shifts by an unsigned amount (R167, R174). -/
def shlW (w a b : Nat) : Nat := if b ≥ w then 0 else a * 2 ^ b % 2 ^ w
def shrW (w a b : Nat) : Nat := if b ≥ w then 0 else a / 2 ^ b
def sraW (w a b : Nat) : Nat := wrapW w (sext w a / ((2 ^ min b w : Nat) : Int))
def minW (sg : Bool) (w a b : Nat) : Nat := if ival sg w a ≤ ival sg w b then a else b
def maxW (sg : Bool) (w a b : Nat) : Nat := if ival sg w a ≤ ival sg w b then b else a

end Sys2Proof.Machine
end

