-- ==== Sys2Proof/Machine/VInt.lean ====
section
/-! DEFINITION. Vector integer words (R172 to R180). -/
namespace Sys2Proof.Machine

/-- A word with two sources per lane: f on unsigned w-bit values (R172). -/
def vint2 (h : VH) (t : Ty) (d : Nat) (a b : Opnd) (f : Nat → Nat → Nat) (s : State) : Out :=
  (vword s h d [] [a, b] fun s l => BitVec.ofNat 64 (f (rdW s t a l) (rdW s t b l) % 2 ^ wOf t)).out
/-- A word with one source per lane. -/
def vint1 (h : VH) (t : Ty) (d : Nat) (a : Opnd) (f : Nat → Nat) (s : State) : Out :=
  (vword s h d [] [a] fun s l => BitVec.ofNat 64 (f (rdW s t a l) % 2 ^ wOf t)).out

/-- The frame of vdiv and vrem: DZ and OV in the lanes that R163 names, then the trap (R164, R173). -/
def vdivide (h : VH) (t : Ty) (d : Nat) (a b : Opnd) (f : Nat → Nat → Nat) (s : State) : Out :=
  Res.out do
    let act := active s h
    let s1 ← vpre s act ([a, b].flatMap (opRegs false)) ([a, b].flatMap (opLatches false))
    let s2 := putVec s1 h.n [(d, vlanes act fun l => BitVec.ofNat 64 (f (rdW s t a l) (rdW s t b l) % 2 ^ wOf t))]
    let dz := (lanesOf act).filter fun l => divDz (rdW s t b l)
    let ov := (lanesOf act).filter fun l => divOv (isSigned t) (wOf t) (rdW s t a l) (rdW s t b l)
    trapIf (trapDiv s) INT_DIVIDE (dz ++ ov) (s2.setCg ((s2.cg.orSts bDZ dz).orSts bOV ov))

/-- vadd: sum (R173). -/
def execVadd (h : VH) (t : Ty) (d : Nat) (a b : Opnd) (s : State) : Out := vint2 h t d a b (fun x y => x + y) s
/-- vsub: difference (R173). -/
def execVsub (h : VH) (t : Ty) (d : Nat) (a b : Opnd) (s : State) : Out := vint2 h t d a b (fun x y => x + (2 ^ wOf t - y)) s
/-- vmul: low bits of the product (R173). -/
def execVmul (h : VH) (t : Ty) (d : Nat) (a b : Opnd) (s : State) : Out := vint2 h t d a b (fun x y => x * y) s
/-- vmulh: high bits of the product (R173). -/
def execVmulh (h : VH) (t : Ty) (d : Nat) (a b : Opnd) (s : State) : Out := vint2 h t d a b (mulhW (isSigned t) (wOf t)) s
/-- vmin: minimum by type (R173). -/
def execVmin (h : VH) (t : Ty) (d : Nat) (a b : Opnd) (s : State) : Out := vint2 h t d a b (minW (isSigned t) (wOf t)) s
/-- vmax: maximum by type (R173). -/
def execVmax (h : VH) (t : Ty) (d : Nat) (a b : Opnd) (s : State) : Out := vint2 h t d a b (maxW (isSigned t) (wOf t)) s
/-- vand: AND (R174). -/
def execVand (h : VH) (t : Ty) (d : Nat) (a b : Opnd) (s : State) : Out := vint2 h t d a b (fun x y => x &&& y) s
/-- vor: OR (R174). -/
def execVor (h : VH) (t : Ty) (d : Nat) (a b : Opnd) (s : State) : Out := vint2 h t d a b (fun x y => x ||| y) s
/-- vxor: exclusive OR (R174). -/
def execVxor (h : VH) (t : Ty) (d : Nat) (a b : Opnd) (s : State) : Out := vint2 h t d a b (fun x y => x ^^^ y) s
/-- vshl: left shift (R174). -/
def execVshl (h : VH) (t : Ty) (d : Nat) (a b : Opnd) (s : State) : Out := vint2 h t d a b (shlW (wOf t)) s
/-- vshr: right shift with zero fill (R174). -/
def execVshr (h : VH) (t : Ty) (d : Nat) (a b : Opnd) (s : State) : Out := vint2 h t d a b (shrW (wOf t)) s
/-- vsra: right shift with sign fill (R174). -/
def execVsra (h : VH) (t : Ty) (d : Nat) (a b : Opnd) (s : State) : Out := vint2 h t d a b (sraW (wOf t)) s
/-- vdiv: quotient (R163, R173). -/
def execVdiv (h : VH) (t : Ty) (d : Nat) (a b : Opnd) (s : State) : Out := vdivide h t d a b (quotW (isSigned t) (wOf t)) s
/-- vrem: remainder (R163, R173). -/
def execVrem (h : VH) (t : Ty) (d : Nat) (a b : Opnd) (s : State) : Out := vdivide h t d a b (remW (isSigned t) (wOf t)) s
/-- vabs: magnitude, the most negative value itself (R173). -/
def execVabs (h : VH) (t : Ty) (d : Nat) (a : Opnd) (s : State) : Out := vint1 h t d a (fun x => if x ≥ 2 ^ (wOf t - 1) then 2 ^ wOf t - x else x) s
/-- vneg: negation (R173). -/
def execVneg (h : VH) (t : Ty) (d : Nat) (a : Opnd) (s : State) : Out := vint1 h t d a (fun x => 2 ^ wOf t - x) s
/-- vclz: leading zeros (R173). -/
def execVclz (h : VH) (t : Ty) (d : Nat) (a : Opnd) (s : State) : Out := vint1 h t d a (clzW (wOf t)) s
/-- vpop: one bits (R173). -/
def execVpop (h : VH) (t : Ty) (d : Nat) (a : Opnd) (s : State) : Out := vint1 h t d a (popW (wOf t)) s
/-- vnot: NOT within w bits (R174). -/
def execVnot (h : VH) (t : Ty) (d : Nat) (a : Opnd) (s : State) : Out := vint1 h t d a (fun x => 2 ^ wOf t - 1 - x) s
/-- vmov: copy (R177). -/
def execVmov (h : VH) (t : Ty) (d : Nat) (a : Opnd) (s : State) : Out := vint1 h t d a (id) s
/-- vmad: low bits of a * b + c (R173). -/
def execVmad (h : VH) (t : Ty) (d : Nat) (a b c : Opnd) (s : State) : Out :=
  (vword s h d [] [a, b, c] fun s l => BitVec.ofNat 64 ((rdW s t a l * rdW s t b l + rdW s t c l) % 2 ^ wOf t)).out
/-- vbfe: a bit field, sign-extended for signed types (R175). -/
def execVbfe (h : VH) (t : Ty) (d : Nat) (a : Opnd) (pos len : Nat) (s : State) : Out :=
  vint1 h t d a (fun x => let f := x / 2 ^ pos % 2 ^ len; if isSigned t then wrapW (wOf t) (sext len f) else f) s
/-- vbfi: a bit field inserted into the destination's old element (R175). -/
def execVbfi (h : VH) (t : Ty) (d : Nat) (a : Opnd) (pos len : Nat) (s : State) : Out :=
  (vword s h d [] [a, .v d] fun s l =>
    let x := rdW s t (.v d) l
    let f := x / 2 ^ pos % 2 ^ len
    BitVec.ofNat 64 (x - f * 2 ^ pos + rdW s t a l % 2 ^ len * 2 ^ pos)).out
/-- vsel: one of three sources by a three-valued predicate (R176). -/
def execVsel (h : VH) (t : Ty) (d : Nat) (a b c : Opnd) (p : Nat) (s : State) : Out :=
  (vword s h d [] [a, b, c] fun s l =>
    BitVec.ofNat 64 (match s.cg.rQ s.free p l with
      | 1 => rdW s t a l
      | 0 => rdW s t b l
      | _ => rdW s t c l)).out
/-- vmovi: the immediate, extended by TYPE (R177). -/
def execVmovi (h : VH) (t : Ty) (d : Nat) (x : BitVec 32) (s : State) : Out :=
  (vword s h d [] [] fun _ _ => if t = .i64 then x.signExtend 64 else x.zeroExtend 64).out

/-- The register an index register names (R67, R178); REG_BOUND where it is not below the allotment. -/
def vidxReg (s : State) (j off : Nat) : Except State Nat :=
  let k := mget 0 s.cg.j j + off
  if k < s.cg.allot then .ok k else .error (fatal s REG_BOUND j k 0)
/-- vidx, read form (R178). -/
def execVidxRead (h : VH) (t : Ty) (d j off : Nat) (s : State) : Out :=
  Res.out do
    let k ← vidxReg s j off
    vword s h d [] [.v k] fun s l => BitVec.ofNat 64 (rdW s t (.v k) l)
/-- vidx, write form (R178); the latch tag names register k (R179). -/
def execVidxWrite (h : VH) (t : Ty) (j off : Nat) (a : Opnd) (s : State) : Out :=
  Res.out do
    let k ← vidxReg s j off
    vword s h k [] [a] fun s l => BitVec.ofNat 64 (rdW s t a l)

/-- Write predicate elements of lanes. -/
def wrQs (g : Group) (p : Nat) (xs : List (Nat × Tri)) : Group := xs.foldl (fun g x => g.wQ p x.1 x.2) g
/-- The conditions of vcmp (R180). -/
def vcmpHolds (c : Nat) (x y : Int) : Bool :=
  match c with
  | 0 => x == y
  | 1 => x != y
  | 2 => decide (x < y)
  | 3 => decide (x ≤ y)
  | 4 => decide (y < x)
  | _ => decide (y ≤ x)
/-- vcmp: true or false in each active lane's predicate element (R180). -/
def execVcmp (h : VH) (t : Ty) (p c : Nat) (a b : Opnd) (s : State) : Out :=
  Res.out do
    let act := active s h
    let s1 ← vpre s act ([a, b].flatMap (opRegs false)) ([a, b].flatMap (opLatches false))
    .ok (s1.setCg (wrQs s1.cg p (vlanes act fun l => boolTri (vcmpHolds c (valW t (rdW s t a l)) (valW t (rdW s t b l))))))

end Sys2Proof.Machine
end

