-- ==== Sys2Proof/Machine/IntervalOps.lean ====
section
/-! DEFINITION. Interval words (R182 to R196). -/
namespace Sys2Proof.Machine

/-- The bound format of a TYPE (R129). -/
def boundFmt (t : Ty) : Fmt := match t with
  | .x64 => fp64
  | .x32 => fp32
  | t => ivlFmt t

/-- An arithmetic or elementary word: value, decoration and NaI of R157 (R183, R185). -/
def xarith (h : VH) (t : Ty) (d : Nat) (ops : List Opnd) (op : AOp) (s : State) : Out :=
  (xword s h t d ops fun s l j => ivlArith (boundFmt t) op (ops.map fun o => rdIvl s t o l j)).out
/-- A word that leaves DECO and sets NAI where it meets or makes NaI (R158). -/
def xplain (h : VH) (t : Ty) (d : Nat) (ops : List Opnd) (f : State → Nat → Nat → Ivl) (s : State) : Out :=
  (xword s h t d ops fun s l j => let y := f s l j; (y, 3, y.isNai)).out

/-- xadd: the set x + y (R185). -/
def execXadd (h : VH) (t : Ty) (d : Nat) (a b : Opnd) (s : State) : Out := xarith h t d [a, b] .add s
/-- xsub: the set x - y (R185). -/
def execXsub (h : VH) (t : Ty) (d : Nat) (a b : Opnd) (s : State) : Out := xarith h t d [a, b] .sub s
/-- xmul: the set x y (R185). -/
def execXmul (h : VH) (t : Ty) (d : Nat) (a b : Opnd) (s : State) : Out := xarith h t d [a, b] .mul s
/-- xfma: the set x y + z (R185). -/
def execXfma (h : VH) (t : Ty) (d : Nat) (a b c : Opnd) (s : State) : Out := xarith h t d [a, b, c] .fma s
/-- xdiv: the set x / y (R185). -/
def execXdiv (h : VH) (t : Ty) (d : Nat) (a b : Opnd) (s : State) : Out := xarith h t d [a, b] .div s
/-- xrecip: the set 1 / x (R185). -/
def execXrecip (h : VH) (t : Ty) (d : Nat) (a : Opnd) (s : State) : Out := xarith h t d [a] .recip s
/-- xsqr: the set x^2 (R185). -/
def execXsqr (h : VH) (t : Ty) (d : Nat) (a : Opnd) (s : State) : Out := xarith h t d [a] .sqr s
/-- xsqrt: the set sqrt x (R185). -/
def execXsqrt (h : VH) (t : Ty) (d : Nat) (a : Opnd) (s : State) : Out := xarith h t d [a] .sqrt s
/-- xabs: the set |x| (R185). -/
def execXabs (h : VH) (t : Ty) (d : Nat) (a : Opnd) (s : State) : Out := xarith h t d [a] .abs s
/-- xneg: the set -x (R185). -/
def execXneg (h : VH) (t : Ty) (d : Nat) (a : Opnd) (s : State) : Out := xarith h t d [a] .neg s
/-- xmin: the set min(x, y) (R185). -/
def execXmin (h : VH) (t : Ty) (d : Nat) (a b : Opnd) (s : State) : Out := xarith h t d [a, b] .min s
/-- xmax: the set max(x, y) (R185). -/
def execXmax (h : VH) (t : Ty) (d : Nat) (a b : Opnd) (s : State) : Out := xarith h t d [a, b] .max s
/-- xexp: e^x (R185). -/
def execXexp (h : VH) (t : Ty) (d : Nat) (a : Opnd) (s : State) : Out := xarith h t d [a] (.elem .exp) s
/-- xexp2: 2^x (R185). -/
def execXexp2 (h : VH) (t : Ty) (d : Nat) (a : Opnd) (s : State) : Out := xarith h t d [a] (.elem .exp2) s
/-- xlog: ln x (R185). -/
def execXlog (h : VH) (t : Ty) (d : Nat) (a : Opnd) (s : State) : Out := xarith h t d [a] (.elem .log) s
/-- xlog2: log2 x (R185). -/
def execXlog2 (h : VH) (t : Ty) (d : Nat) (a : Opnd) (s : State) : Out := xarith h t d [a] (.elem .log2) s
/-- xsin: sin x (R185). -/
def execXsin (h : VH) (t : Ty) (d : Nat) (a : Opnd) (s : State) : Out := xarith h t d [a] (.elem .sin) s
/-- xcos: cos x (R185). -/
def execXcos (h : VH) (t : Ty) (d : Nat) (a : Opnd) (s : State) : Out := xarith h t d [a] (.elem .cos) s
/-- xtanh: tanh x (R185). -/
def execXtanh (h : VH) (t : Ty) (d : Nat) (a : Opnd) (s : State) : Out := xarith h t d [a] (.elem .tanh) s
/-- xhull (R189). -/
def execXhull (h : VH) (t : Ty) (d : Nat) (a b : Opnd) (s : State) : Out :=
  xplain h t d [a, b] (fun s l j => hullI (rdIvl s t a l j) (rdIvl s t b l j)) s
/-- xmeet (R189). -/
def execXmeet (h : VH) (t : Ty) (d : Nat) (a b : Opnd) (s : State) : Out :=
  xplain h t d [a, b] (fun s l j => meetI (rdIvl s t a l j) (rdIvl s t b l j)) s
/-- xmid: a number chosen by rule (R190). -/
def execXmid (h : VH) (t : Ty) (d : Nat) (a : Opnd) (s : State) : Out :=
  xplain h t d [a] (fun s l j => boundOp (boundFmt t) .mid (rdIvl s t a l j)) s
/-- xrad: a number chosen by rule (R190). -/
def execXrad (h : VH) (t : Ty) (d : Nat) (a : Opnd) (s : State) : Out :=
  xplain h t d [a] (fun s l j => boundOp (boundFmt t) .rad (rdIvl s t a l j)) s
/-- xwid: a number chosen by rule (R190). -/
def execXwid (h : VH) (t : Ty) (d : Nat) (a : Opnd) (s : State) : Out :=
  xplain h t d [a] (fun s l j => boundOp (boundFmt t) .wid (rdIvl s t a l j)) s
/-- xlo: a number chosen by rule (R190). -/
def execXlo (h : VH) (t : Ty) (d : Nat) (a : Opnd) (s : State) : Out :=
  xplain h t d [a] (fun s l j => boundOp (boundFmt t) .lo (rdIvl s t a l j)) s
/-- xhi: a number chosen by rule (R190). -/
def execXhi (h : VH) (t : Ty) (d : Nat) (a : Opnd) (s : State) : Out :=
  xplain h t d [a] (fun s l j => boundOp (boundFmt t) .hi (rdIvl s t a l j)) s
/-- xmake: an interval from two bound fields (R191). -/
def execXmake (h : VH) (t : Ty) (d : Nat) (a b : Opnd) (s : State) : Out :=
  xplain h t d [a, b] (fun s l j => makeI (boundFmt t) (rdBounds s t a l j).1 (rdBounds s t b l j).2) s
/-- xcls: the class mask in one register (R192). -/
def execXcls (h : VH) (t : Ty) (d : Nat) (a : Opnd) (s : State) : Out :=
  Res.out do
    let act := active s h
    let s1 ← ivlPre s act t [a]
    let cls (l j : Nat) : Nat := let b := rdBounds s t a l j; clsI (boundFmt t) b.1 b.2
    let s2 := putVec s1 h.n [(d, vlanes act fun l => BitVec.ofNat 64 (cls l 0 + if ivlCount t = 2 then cls l 1 * 2 ^ 16 else 0))]
    let ls := (lanesOf act).filter fun l => (List.range (ivlCount t)).any fun j => (rdIvl s t a l j).isNai
    trapIf (trapNai s) INTERVAL_NAI ls (s2.setCg (s2.cg.orSts bNAI ls))
/-- xcmp: the relation of R161 into a three-valued predicate (R193). -/
def execXcmp (h : VH) (t : Ty) (p c : Nat) (a b : Opnd) (s : State) : Out :=
  Res.out do
    let act := active s h
    let s1 ← ivlPre s act t [a, b]
    let s2 := s1.setCg (wrQs s1.cg p (vlanes act fun l => cmpI c (rdIvl s t a l 0) (rdIvl s t b l 0)))
    let ls := (lanesOf act).filter fun l => (rdIvl s t a l 0).isNai || (rdIvl s t b l 0).isNai
    trapIf (trapNai s) INTERVAL_NAI ls (s2.setCg (s2.cg.orSts bNAI ls))
/-- xdec: the decoration floor written or lowered (R194). -/
def execXdec (h : VH) (op dec : Nat) (s : State) : Out :=
  .next (s.setCg ((lanesOf (active s h)).foldl (fun g l => if op = 0 then g.setDeco l dec else g.lowerDeco l dec) s.cg))
/-- xbis: one half of a bisectable interval, and where it could bisect (R196). -/
def execXbis (h : VH) (t : Ty) (d : Nat) (a : Opnd) (upper pen : Bool) (p : Nat) (s : State) : Out :=
  Res.out do
    let act := active s h
    let s1 ← ivlPre s act t [a]
    let f := boundFmt t
    let x (l j : Nat) : Ivl := rdIvl s t a l j
    let y (l j : Nat) : Ivl := if bisectable f (x l j) then halfI f upper (x l j) else x l j
    let s2 := putVec s1 h.n (ivlRes t d (vlanes act fun l => ivlElems t ((List.range (ivlCount t)).map (y l))))
    let g := if pen then wrQs s2.cg p (vlanes act fun l => if bisectable f (x l 0) then 1 else if (x l 0).isNai then 2 else 0) else s2.cg
    let ls := (lanesOf act).filter fun l => (List.range (ivlCount t)).any fun j => (x l j).isNai
    trapIf (trapNai s) INTERVAL_NAI ls (s2.setCg (g.orSts bNAI ls))

end Sys2Proof.Machine
end

