-- ==== Sys2Proof/Machine/Lane.lean ====
section
/-! DEFINITION. Cross-lane words (R200 to R207), counted in XLANE (R94). -/
namespace Sys2Proof.Machine

/-- The counter class XLANE. -/
def cXLANE : Nat := 3

/-- A counted word waits while its counter is full (R94). -/
def counted (s : State) (cls : Nat) (r : Res) : Res := if roomCounter s cls then r else .error (retry s)

/-- The lanes in which a predicate has a value. -/
def lanesWith (s : State) (act : Word32) (p : Nat) (x : Tri) : Word32 := maskOf ((lanesOf act).filter fun l => s.cg.rQ s.free p l == x)
/-- vbal: the masks of true, false and undecided lanes in two scalar registers (R202). -/
def execVbal (h : VH) (d pa : Nat) (s : State) : Out :=
  Res.out (counted s cXLANE (
    let act := active s h
    .ok (putCounted s cXLANE false [] [⟨1, d, mk64 (lanesWith s act pa 0) (lanesWith s act pa 1), false⟩,
                                             ⟨1, d + 1, (lanesWith s act pa 2).zeroExtend 64, false⟩])))

/-- The vote of R203 over the active lanes' values. -/
def voteOf (op : Nat) (xs : List Tri) : Tri :=
  match op with
  | 0 => xs.foldl triAnd 1
  | 1 => xs.foldl triOr 0
  | _ => boolTri (xs.all (· == xs.headD 0))
/-- vvote: the reduction in every active lane of the destination (R203). -/
def execVvote (h : VH) (op pd pa : Nat) (s : State) : Out :=
  Res.out (counted s cXLANE (
    let ls := lanesOf (active s h)
    let v := voteOf op (ls.map fun l => s.cg.rQ s.free pa l)
    .ok (putCounted s cXLANE false [] (ls.map fun l => ⟨2, pd * 32 + l, BitVec.ofNat 64 v, false⟩))))

/-- The frame of the shuffles: lane l takes the source lane's element where that lane is active (R200, R204). A is read in every active lane, for
POISON too (DESIGN CHOICE, log 79). -/
def shuffle (h : VH) (t : Ty) (d : Nat) (ops : List Opnd) (a : Opnd) (src : State → Nat → Option Nat) (s : State) : Out :=
  Res.out (counted s cXLANE (do
    let act := active s h
    let s1 ← vpre s act (ops.flatMap (opRegs false)) (ops.flatMap (opLatches false))
    let rs := (lanesOf act).filterMap fun l =>
      match src s l with
      | some k => if k < 32 && inMask act k then some (l, BitVec.ofNat 64 (rdW s t a k)) else none
      | none => none
    .ok (putCounted s1 cXLANE h.n [(d, rs)] [])))
/-- vshf.idx: source lane from B. -/
def execVshfIdx (h : VH) (t : Ty) (d : Nat) (a b : Opnd) (s : State) : Out :=
  shuffle h t d [a, b] a (fun s l => some ((rdOp s b l).toNat % 32)) s
/-- vshf.xor: source lane l XOR DIST. -/
def execVshfXor (h : VH) (t : Ty) (d : Nat) (a : Opnd) (dist : Nat) (s : State) : Out := shuffle h t d [a] a (fun _ l => some (l ^^^ dist)) s
/-- vshf.up: source lane l - DIST. -/
def execVshfUp (h : VH) (t : Ty) (d : Nat) (a : Opnd) (dist : Nat) (s : State) : Out :=
  shuffle h t d [a] a (fun _ l => if dist ≤ l then some (l - dist) else none) s
/-- vshf.dn: source lane l + DIST. -/
def execVshfDn (h : VH) (t : Ty) (d : Nat) (a : Opnd) (dist : Nat) (s : State) : Out := shuffle h t d [a] a (fun _ l => some (l + dist)) s

/-- The results of a value for a vector or a scalar destination: every active lane, or once. -/
def resultFor (act : Word32) (d : Opnd) (x : Word64) : List (Nat × LaneVals) × List PW :=
  match d with
  | .v k => ([(k, vlanes act fun _ => x)], [])
  | .s k => ([], [⟨1, k, x, false⟩])
  | _ => ([], [])
/-- The latch entry and the tag of a vector destination whose word writes nothing. -/
def resultNone (d : Opnd) : List (Nat × LaneVals) := match d with
  | .v k => [(k, [])]
  | _ => []

/-- vbcast: one lane's element to every active lane or to a scalar register (R205). A is read in every active lane, for POISON too (DESIGN CHOICE,
log 79). -/
def execVbcast (h : VH) (t : Ty) (d a : Opnd) (src : Nat) (sel : Option Nat) (s : State) : Out :=
  Res.out (counted s cXLANE (do
    let act := active s h
    let k := match sel with
      | some r => (s.rS r).toNat % 32
      | none => src
    let s1 ← vpre s act (opRegs false a) (opLatches false a)
    if inMask act k then
      let r := resultFor act d (BitVec.ofNat 64 (rdW s t a k))
      .ok (putCounted s1 cXLANE h.n r.1 r.2)
    else .ok (putCounted s1 cXLANE h.n (resultNone d) [])))

/-- One level of the tree of R207: neighbours combine, the lower lane first. -/
def redLevel {α : Type} (f : α → α → α) : List (Option α) → List (Option α)
  | x :: none :: l => x :: redLevel f l
  | none :: y :: l => y :: redLevel f l
  | some x :: some y :: l => some (f x y) :: redLevel f l
  | l => l
/-- The tree of R207 over 32 lanes. -/
def redTree {α : Type} (f : α → α → α) (l : List (Option α)) : Option α :=
  (redLevel f (redLevel f (redLevel f (redLevel f (redLevel f l))))).headD none

/-- combine for the integer operations (R206). -/
def redInt (op : Nat) (t : Ty) (x y : Nat) : Nat :=
  match op with
  | 0 => (x + y) % 2 ^ wOf t
  | 1 => minW (isSigned t) (wOf t) x y
  | 2 => maxW (isSigned t) (wOf t) x y
  | 3 => x &&& y
  | 4 => x ||| y
  | _ => x ^^^ y
/-- A partial interval reduction: the intervals, the lowest decoration and NaI of the nodes so far. -/
abbrev RedX := List Ivl × Nat × Bool
/-- combine for the interval operations: xadd outward, or xhull. -/
def redX (op : Nat) (t : Ty) (x y : RedX) : RedX :=
  let rs := (x.1.zip y.1).map fun p => if op = 6 then ivlArith (boundFmt t) .add [p.1, p.2] else let z := hullI p.1 p.2; (z, 3, z.isNai)
  (rs.map fun r => r.1, rs.foldl (fun m r => min m r.2.1) (min x.2.1 y.2.1), x.2.2 || y.2.2 || rs.any fun r => r.2.2)

/-- The results of an interval pair for a destination. -/
def resultX (act : Word32) (t : Ty) (d : Opnd) (e : Word64 × Word64) : List (Nat × LaneVals) × List PW :=
  match d with
  | .v k => (ivlRes t k (vlanes act fun _ => e), [])
  | .s k => ([], ⟨1, k, e.1, false⟩ :: if t = .x64 then [⟨1, k + 1, e.2, false⟩] else [])
  | _ => ([], [])

/-- Results written at once: registers, latches and scalars. -/
def putNow (s : State) (n : Bool) (rs : List (Nat × LaneVals)) (ex : List PW) : State :=
  let s1 := putVec s n rs
  s1.setCg (ex.foldl (fun g w => g.wS w.key w.val) s1.cg)

/-- The latch entries and tags of an interval result that no lane writes: the two of R65 for an .x64 pair. -/
def resultNoneX (t : Ty) (d : Opnd) : List (Nat × LaneVals) := match d with
  | .v k => ivlRes t k []
  | _ => []
/-- A lane's leaf of an interval reduction: its intervals; a NaI among them is met even where no other lane takes part (R164, R207). A leaf lowers no
DECO, so a word with one active lane leaves it (DESIGN CHOICE, log 77). -/
def redLeaf (s : State) (t : Ty) (a : Opnd) (l : Nat) : RedX :=
  let is := (List.range (ivlCount t)).map (rdIvl s t a l)
  (is, 3, is.any Ivl.isNai)
/-- vred with an interval operation (R206, R207): while INTERVAL_NAI traps are enabled it completes before any later word of its group, and on an
L-core it waits for XLANE to be 0 first (DESIGN CHOICE, log 58). -/
def vredX (h : VH) (op : Nat) (t : Ty) (d a : Opnd) (s : State) : Res := do
  let act := active s h
  let s1 ← ivlPre s act t [a]
  let en := trapNai s
  if en && s.isL && counter cXLANE s.cg != 0 then .error (retry s)
  else
    let vals := lanes32.map fun l => if inMask act l then some (redLeaf s t a l) else none
    match redTree (redX op t) vals with
    | none => .ok (if en then putNow s1 h.n (resultNoneX t d) [] else putCounted s1 cXLANE h.n (resultNoneX t d) [])
    | some r =>
      let res := resultX act t d (ivlElems t r.1)
      let s2 := if en then putNow s1 h.n res.1 res.2 else putCounted s1 cXLANE h.n res.1 res.2
      let ls := lanesOf act
      let g := if op = 6 then ls.foldl (fun g l => g.lowerDeco l r.2.1) s2.cg else s2.cg
      let bad := if r.2.2 then ls else []
      trapIf en INTERVAL_NAI bad (s2.setCg (g.orSts bNAI bad))

/-- vred: the fixed tree over the active lanes (R206, R207). -/
def execVred (h : VH) (op : Nat) (t : Ty) (d a : Opnd) (s : State) : Out :=
  Res.out (counted s cXLANE (
    if op ≥ 6 then vredX h op t d a s
    else do
      let act := active s h
      let s1 ← vpre s act (opRegs false a) (opLatches false a)
      match redTree (redInt op t) (lanes32.map fun l => if inMask act l then some (rdW s t a l) else none) with
      | none => .ok (putCounted s1 cXLANE h.n (resultNone d) [])
      | some x =>
        let r := resultFor act d (BitVec.ofNat 64 x)
        .ok (putCounted s1 cXLANE h.n r.1 r.2)))

end Sys2Proof.Machine
end

