-- ==== Sys2Proof/Machine/Convert.lean ====
section
/-! DEFINITION. Conversions and block quantisation (R208 to R214). -/
namespace Sys2Proof.Machine

/-- After a conversion: SAT and NAI in lanes, then the trap (R212). -/
def convStatus (s0 s : State) (sat nai : List Nat) : Res :=
  trapIf (trapNai s0) INTERVAL_NAI nai (s.setCg ((s.cg.orSts bSAT sat).orSts bNAI nai))

/-- cvt: each active lane's values to another format (R208 to R212). -/
def execCvt (h : VH) (df sf part : Nat) (d : Nat) (a : Opnd) (s : State) : Out :=
  Res.out do
    let act := active s h
    let pair := sf == 7
    let s1 ← vpre s act (opRegs pair a ++ if cvtCnt sf < cvtCnt df then [d] else []) (opLatches pair a)
    let rs := vlanes act fun l =>
      cvtLane df sf part s.cg.nrm (s.cg.rV s.free d l).toNat (if pair then rdOpLo s a l else rdOp s a l).toNat (if pair then (rdOpHi s a l).toNat else 0)
    let lo := rs.map fun r => (r.1, BitVec.ofNat 64 r.2.1)
    let hi := rs.map fun r => (r.1, BitVec.ofNat 64 r.2.2.1)
    let s2 := putVec s1 h.n ((d, lo) :: if df = 7 then [(d + 1, hi)] else [])
    convStatus s s2 ((rs.filter fun r => r.2.2.2.1).map Prod.fst) ((rs.filter fun r => r.2.2.2.2).map Prod.fst)

/-- qnt: one block of the active lanes' .x32 intervals (R213, R142). -/
def execQnt (h : VH) (tgt scf : Nat) (d : Nat) (a : Opnd) (s : State) : Out :=
  Res.out do
    let act := active s h
    let s1 ← vpre s act (opRegs false a) (opLatches false a)
    let ls := lanesOf act
    let b := qntBlock tgt scf (ls.map fun l => (narrowFp fp32 s.cg.nrm (rdIvl s .x32 a l 0)).1)
    let rs := ls.zip b.2
    let s2 := putVec s1 h.n [(d, rs.map fun r => (r.1, BitVec.ofNat 64 (b.1 * 2 ^ 16 + r.2.1)))]
    convStatus s s2 ((rs.filter fun r => r.2.2).map Prod.fst) (ls.filter fun l => (rdIvl s .x32 a l 0).isNai)

/-- dqnt: a byte and a scale to an .x32 interval, lane by lane (R214). -/
def execDqnt (h : VH) (tgt scf : Nat) (d : Nat) (a : Opnd) (s : State) : Out :=
  Res.out do
    let act := active s h
    let s1 ← vpre s act (opRegs false a) (opLatches false a)
    let y (l : Nat) : Ivl := let x := (rdOp s a l).toNat; dqntI tgt scf (x % 2 ^ 8) (x / 2 ^ 16 % 2 ^ 16)
    let s2 := putVec s1 h.n [(d, vlanes act fun l => x32Write (y l))]
    convStatus s s2 [] ((lanesOf act).filter fun l => (y l).isNai)

end Sys2Proof.Machine
end

