-- ==== Sys2Proof/Machine/Fetch.lean ====
section
/-! DEFINITION. Issue: the ranks of splits and groups (R40, R379), the merge at the PC of the issuing split (R39), the word it fetches (R91,
R92, R97, R103), the state in which that word executes, and what is left where it turns out to be unable to issue. -/
namespace Sys2Proof.Machine

/-! Selection. -/

/-- Lexicographic order of keys: a comes before b. -/
def keyLt : List Int → List Int → Bool
  | [], _ => false
  | _, [] => false
  | a :: l, b :: m => if a < b then true else if b < a then false else keyLt l m

/-- The age rank (R379, R380): 64 cycles ready without issuing. -/
def splitAged (p : Split) : Bool := p.aged || decide (64 ≤ p.age)

/-- The order among a group's ready splits (R40): aged ones first, the one that has waited longest first; then the lowest PC. -/
def splitKey (p : Split) : List Int := if splitAged p then [0, -(p.age : Int), p.pc] else [1, 0, p.pc]

/-- The rank of a group's split on its partition (R379): aged splits, the oldest first; the grace boost; the older team; round robin from
the group after the one that issued last. -/
def groupKey (s : State) (gh : Nat) (g : Group) (p : Split) : List Int :=
  let t := s.team g.team
  let last := mget 0 (s.core t.core).lastg g.part
  (if splitAged p then [0, -(p.age : Int)] else [1, 0]) ++ [if boosted s g p then 0 else 1, (t.age : Int), if last < gh then 0 else 1, (gh : Int)]

/-- The entry of least key. -/
def leastBy {α : Type} (key : α → List Int) : List α → Option α
  | [] => none
  | x :: l => match leastBy key l with
    | none => some x
    | some y => if keyLt (key y) (key x) then some y else some x

/-- The splits that could issue next on a partition: group and index. -/
def candidates (s : State) (core part : Nat) : List (Nat × Nat) :=
  s.groups.flatMap fun e =>
    if (s.team e.2.team).core = core ∧ e.2.part = part ∧ groupMay s e.2 then
      ((List.range e.2.splits.length).filter fun k => splitReady e.2 (nthD Split.init e.2.splits k)).map fun k => (e.1, k)
    else []
/-- A split by group and index. -/
def State.splitAt (s : State) (c : Nat × Nat) : Split := nthD Split.init (s.grp c.1).splits c.2
/-- A list from some place on, then what stands before it. -/
def rotated {α : Type} (n : Nat) : List α → List α
  | [] => []
  | [x] => [x]
  | x :: y :: l => (x :: y :: l).drop (n % (l.length + 2)) ++ (x :: y :: l).take (n % (l.length + 2))
/-- The choice of R40 and R379 among ready splits: of each group the least by splitKey, then the least by groupKey. Between splits of one group at
one PC, which have not merged, the spec names none: a free choice (log 82). -/
def bestOf (s : State) (ready : List (Nat × Nat)) : Option (Nat × Nat) :=
  leastBy (fun c => groupKey s c.1 (s.grp c.1) (s.splitAt c))
    (((ready.map Prod.fst).eraseDups).filterMap fun gh =>
      leastBy (fun c => splitKey (s.splitAt c)) (rotated (Config.freeNat s.free) (ready.filter fun c => c.1 == gh)))

/-! Merging. -/

/-- A split with this hold joins at its PC: it has issued nothing there yet, or it waits at a barrier word or a mig (R39, R391). -/
def joinable : Hold → Bool
  | .none | .retry | .bar _ _ | .mig _ _ => true
  | _ => false

/-- The indices of the splits that join split k (R39): same PC, no instruction in flight, lane queues empty in the D-encoding. -/
def joins (isL : Bool) (g : Group) (k : Nat) : List Nat :=
  let p := nthD Split.init g.splits k
  if p.pmask != 0 || inFlight p || (!isL && !p.queue.isEmpty) then []
  else (List.range g.splits.length).filter fun i =>
    let q := nthD Split.init g.splits i
    i != k && q.pc == p.pc && splitMay g q && q.pmask == 0 && q.mem.isNone && q.items.isEmpty && joinable q.hold && (isL || q.queue.isEmpty)

/-- The splits without those that joined. -/
def dropAll {α : Type} (js : List Nat) : Nat → List α → List α
  | _, [] => []
  | i, x :: l => if js.contains i then dropAll js (i + 1) l else x :: dropAll js (i + 1) l

/-- Merge at the PC of the executing split (R39); HINGE and TWINPC stay the issuing split's (R72). -/
def mergeHere (s : State) : State :=
  let g := s.cg
  let js := joins s.isL g s.cur.sp
  if js.isEmpty then s
  else
    let m := js.foldl (fun m i => m ||| (nthD Split.init g.splits i).mask) s.sp.mask
    let k := s.cur.sp - (js.filter (· < s.cur.sp)).length
    { s.setCg { g with splits := dropAll js 0 (setAt g.splits s.cur.sp { s.sp with mask := m }) } with cur := { s.cur with sp := k } }

/-! Fetching. -/

/-- What reading code gives. -/
inductive CodeRead where
  | ok (bs : List Byte)
  | outside
  | wait (s : State)
  | bad (code detail addr : Nat)
  deriving DecidableEq, Repr

def codeRead (s : State) (t : Team) (va n : Nat) : CodeRead :=
  match devRead s t.ctx t.core (whoFetch s.cur.gh) va n with
  | .ok bs => .ok bs
  | .wait s' => .wait s'
  | .bad c d a => .bad c d a

/-- Does the framing of R91, read from PC q, place a word start at pc? Code before pc that cannot be read does not answer no: the fetch at
pc itself then decides. -/
def framed (s : State) (t : Team) (l : Launch) (pc : Nat) : Nat → Nat → State ⊕ Bool
  | 0, _ => .inr false
  | n + 1, q =>
    if q = pc then .inr true
    else if pc < q then .inr false
    else
      match codeRead s t (l.lbase + q + 3) 1 with
      | .ok bs => framed s t l pc n (q + if 192 ≤ (nthD 0 bs 0).toNat then 12 else 4)
      | .wait s' => .inl s'
      | _ => .inr true

/-- The bytes of an L-encoding word at a PC (R91, R92). -/
def fetchL (s : State) (t : Team) (l : Launch) (pc : Nat) : CodeRead :=
  if pc % 4 ≠ 0 ∨ l.llen < pc + 4 then .outside
  else
    match framed s t l pc (pc / 4 + 1) 0 with
    | .inl s' => .wait s'
    | .inr false => .outside
    | .inr true =>
      match codeRead s t (l.lbase + pc) 4 with
      | .ok bs =>
        if 192 ≤ (nthD 0 bs 3).toNat then
          (if l.llen < pc + 12 then .outside else codeRead s t (l.lbase + pc) 12)
        else .ok bs
      | r => r

/-- The word to try is a queued V-word: not where an S-word goes ahead of the lane queue (R100). -/
def inQueue (p : Split) (ahead : Bool) : List QEnt := if ahead then [] else p.queue
/-- The bytes of the next word of a split (R97, R99). ahead: of its scalar stream, whatever its lane queue holds. -/
def fetchCode (s : State) (t : Team) (l : Launch) (p : Split) (ahead : Bool) : CodeRead :=
  if t.isL then fetchL s t l p.pc
  else
    match inQueue p ahead with
    | q :: _ => codeRead s t (l.dlbase + 12 * q.off) 12
    | [] => if p.pc % 4 ≠ 0 ∨ l.dslen < p.pc + 4 then .outside else codeRead s t (l.dsbase + p.pc) 4

/-- The raw 96 bits of a V-word's bytes. -/
def vraw (bs : List Byte) : Nat := ofBytes (bs.take 4) * 2 ^ 64 + ofBytes ((bs.drop 4).take 4) * 2 ^ 32 + ofBytes ((bs.drop 8).take 4)

/-- The instruction of fetched bytes, where it is one in this encoding, stream and allotment (R97, R103, R104). -/
def decodeHere (isL inLane : Bool) (allot : Nat) (bs : List Byte) : Option Instr :=
  let isV := 192 ≤ (nthD 0 bs 3).toNat
  if (!isL && isV != inLane) || (isV && !vLegal isL allot (vraw bs)) then none
  else
    match decodeBytes bs with
    | .ok (i, _) => if i.legalIn isL allot then some i else none
    | .error _ => none

/-- The lane PC of a split (R102). -/
def lanePc (p : Split) : Nat := match p.queue with
  | q :: _ => q.off
  | [] => p.lpc

/-- A tcommit is in progress (R344). -/
def committing : Hold → Bool
  | .commit _ _ => true
  | _ => false
/-- The split moved past the word it fetched, and the word in hand. -/
def advance (s : State) (gh k : Nat) (isL : Bool) (isV : Bool) (ahead : Bool) : State :=
  let g := s.grp gh
  let p := nthD Split.init g.splits k
  let p1 := { p with hold := if committing p.hold then p.hold else .none, aged := false, age := 0, first := false }
  let cu : Cur := match isL, inQueue p ahead with
    | false, q :: _ => ⟨gh, k, q.pc, q.off, true, q.last, false⟩
    | _, _ => ⟨gh, k, p.pc, if isL then 0 else lanePc p, isV, true, false⟩
  let p2 : Split := match isL, inQueue p ahead with
    | false, q :: rest => { p1 with queue := rest, lpc := (match rest with | r :: _ => r.off | [] => q.off + 1), fromA := cu.pcA, fromB := cu.pcB }
    | _, _ => { p1 with pc := p.pc + (if isV then 12 else 4), fromA := cu.pcA, fromB := cu.pcB }
  let core := (s.team g.team).core
  let c := (endTries s (s.team g.team).ctx core (whoFetch gh)).core core
  let lat := mget (0, []) c.latch g.part
  -- the issue of another group than the partition's last one empties its latches (R66); a word that goes on does not issue again
  let c1 := if inFlight p then c else
    { c with latch := mset (0, []) c.latch g.part (if lat.1 = gh then lat else (gh, [])), lastg := mset 0 c.lastg g.part gh
             lastt := mset 0 c.lastt g.part s.seq }
  { (s.setCore core c1).setGrp gh { g with splits := setAt g.splits k p2 } with cur := cu }

/-- What the issue of a split comes to: a word to execute, with the state of a fault that its merge raises where the word does issue (R44), or
a state in which the step has ended. -/
inductive Fetched where
  | word (i : Instr) (s : State) (bad : Option State)
  | ended (s : State)
  deriving DecidableEq, Repr

/-- The lanes of a split that are doomed (R343). -/
def doomedLanes (g : Group) (m : Word32) : List Nat := (lanesOf m).filter fun l => (txOf g l).active && (txOf g l).doomed

/-- The state a result holds. -/
def Res.state : Res → State
  | .ok s => s
  | .error s => s

/-- The first of some splits that holds doomed lanes, with them: they abort before the split, or one that joins it, issues again (R343). -/
def firstDoomed (g : Group) : List Nat → Option (Nat × List Nat)
  | [] => none
  | k :: ks => match doomedLanes g (nthD Split.init g.splits k).mask with
    | [] => firstDoomed g ks
    | ls => some (k, ls)

/-- A split is chosen to issue, or its instruction in flight goes on. -/
def fetch (s0 : State) (gh k : Nat) (ahead : Bool) : Fetched :=
  let g := s0.grp gh
  let t := s0.team g.team
  let p := nthD Split.init g.splits k
  let s := { s0 with cur := ⟨gh, k, p.fromA, p.fromB, false, true, false⟩ }
  let held (s : State) : State := { s with cur := { s.cur with held := true } }
  match if committing p.hold then none else firstDoomed g (k :: joins t.isL g k) with
  | some (j, ls) => .ended (abortLanes s gh j false (ls.map fun l => (l, if (txOf g l).irrev then 1 else 2, 0))).state
  | none =>
    match p.hold with
    | .trapw code mask imm a b =>
      let s1 := { s with cur := ⟨gh, k, a, b, !t.isL && code != 0, true, false⟩ }
      .ended (takeTrap (s1.setSp { p with hold := .none }) code mask imm a b).state
    | _ =>
      match teamLaunch s t with
      | none => .ended (held s)
      | some l =>
        match fetchCode s t l p ahead with
        | .wait s' => .ended (held s')
        -- the faulting word is the word at the PC that could not be read; only ILLEGAL_INST with DETAIL 2 is the fetch fault of R92
        | .bad c d a => .ended (fatal { s with cur := { s.cur with pcA := (match inQueue p ahead with | q :: _ => q.pc | [] => p.pc), pcB := lanePc p } } c d a 0)
        | .outside => .ended (fatal s ILLEGAL_INST 2 p.pc 0)
        | .ok bs =>
          let isV := t.isL && decide (192 ≤ (nthD 0 bs 3).toNat)
          let s1 := advance s gh k t.isL isV ahead
          match decodeHere t.isL (!t.isL && !(inQueue p ahead).isEmpty) g.allot bs with
          | none => .ended (fatal s1 ILLEGAL_INST 0 (wordAddr s1) 0)
          | some i =>
            -- splits at the same PC join, and deferred entries are popped, before the PC moves (R39, R41)
            let s2 := mergeHere { s with cur := s1.cur }
            match if (s2.grp gh).splits.length < g.splits.length then popDefer gh (wordPlace s1) 4 s2 else .ok s2 with
            | .error bad => .word i (advance s2 gh s2.cur.sp t.isL isV ahead) (some bad)
            | .ok s3 => .word i (advance s3 gh s3.cur.sp t.isL isV ahead) none

/-- What a try leaves where the word could not issue (R39, R66, R379): the group, the partition's latches and its round robin stand as
before; what the word has asked for (a page, the token) stays asked. -/
def unissue (s u : State) (gh : Nat) : State :=
  let t := s.team (s.grp gh).team
  let c := s.core t.core
  let u1 := (u.setGrp gh (s.grp gh)).setCore t.core { u.core t.core with latch := c.latch, lastg := c.lastg, lastt := c.lastt }
  u1.setCtx t.ctx { u1.ctx t.ctx with token := (s.ctx t.ctx).token }

end Sys2Proof.Machine
end

