-- ==== Sys2Proof/Machine/Control.lean ====
section
/-! DEFINITION. Branches (R386 to R389), ordering words (R98, R390), nop, control registers (R70 to R74), hinge words (R405), traps (R449,
R450), time and marks (R458, R461). -/
namespace Sys2Proof.Machine

/-- R101: the word waits in the D-encoding until the lane queue is empty. -/
def emptyQ (s : State) (r : Res) : Res := if queueEmpty s then r else .error (retry s)
/-- R341: the word acts for the lanes of the split that are in no transaction. -/
def outsideTx (s : State) (f : State → Res) : Res := do
  let s1 ← forbidTx s s.sp.mask
  f s1

/-- PC + 4 * off, of 32 bits (R75, R386). -/
def relPc (s : State) (off : Int) : Nat := (((s.cur.pcA : Int) + 4 * off) % ((2 ^ 32 : Nat) : Int)).toNat
/-- The PC of the next word. -/
def nextPc (s : State) : Nat := s.cur.pcA + 4
/-- The whole split goes to a target. -/
def goTo (s : State) (pc : Nat) : State := s.setSp { s.sp with pc := pc }

/-- br (R386). -/
def execBr (o : BitVec 16) (s : State) : Out := Res.out (emptyQ s (.ok (goTo s (relPc s o.toInt))))
/-- The conditions of bc against zero (R386). -/
def bcHolds (c : Nat) (x : Int) : Bool :=
  match c with
  | 0 => x == 0
  | 1 => x != 0
  | 2 => decide (x < 0)
  | 3 => decide (0 ≤ x)
  | 4 => decide (0 < x)
  | _ => decide (x ≤ 0)
/-- bc: taken by the value of a scalar register (R386). -/
def execBc (c a : Nat) (o : BitVec 16) (s : State) : Out :=
  Res.out (emptyQ s (.ok (goTo s (if bcHolds c (s.rS a).toInt then relPc s o.toInt else nextPc s))))
/-- bq: divides the split by the sense of a predicate (R387). -/
def execBq (sense p : Nat) (o : BitVec 16) (s : State) : Out :=
  Res.out (emptyQ s (divide s (laneSets s.sp.mask fun l => if guardOk sense (s.cg.rQ s.free p l) then relPc s o.toInt else nextPc s)))
/-- The target of an outcome (0 false, 1 true, 2 undecided) of bq3 with fall-through ft in the order true, false, undecided (R388). -/
def bq3Target (s : State) (ft : Nat) (oa ob : BitVec 10) (o : Tri) : Nat :=
  let k := if o = 1 then 0 else if o = 0 then 1 else 2
  if k = ft then nextPc s
  else if k = (if ft = 0 then 1 else 0) then relPc s oa.toInt
  else relPc s ob.toInt
/-- bq3: divides the split up to three ways (R388). -/
def execBq3 (p f : Nat) (oa ob : BitVec 10) (s : State) : Out :=
  Res.out (emptyQ s (divide s (laneSets s.sp.mask fun l => bq3Target s f oa ob (s.cg.rQ s.free p l))))
/-- call: links and goes (R386). -/
def execCall (a : Nat) (o : BitVec 16) (s : State) : Out :=
  Res.out (emptyQ s (.ok (goTo (s.wS a (BitVec.ofNat 64 (nextPc s))) (relPc s o.toInt))))
/-- ret (R386). -/
def execRet (a : Nat) (s : State) : Out := Res.out (emptyQ s (.ok (goTo s (s.rS a).toNat)))
/-- jmpx: the target is read before the link is written (R386). -/
def execJmpx (d a : Nat) (s : State) : Out :=
  Res.out (emptyQ s (.ok (goTo (s.wS d (BitVec.ofNat 64 (nextPc s))) (s.rS a).toNat)))

/-- waitc: holds the split until every counter is at or below its limit (R95, R390). -/
def execWaitc (vm sm as_ xl : Nat) (s : State) : Out :=
  Res.out (waitUnless s (counter 0 s.cg ≤ vm && counter 1 s.cg ≤ sm && counter 2 s.cg ≤ as_ && counter 3 s.cg ≤ xl))
/-- The V-words of a run (R98). -/
def runOf (pc o c : Nat) : List QEnt := (List.range c).map fun k => ⟨o + k, pc, k + 1 == c⟩
/-- venq: appends a run of the lane section to the lane queue (R98). -/
def execVenq (c o : Nat) (s : State) : Out :=
  Res.out (
    match teamLaunch s s.ct with
    | none => .error (illegalExec s)
    | some l =>
      if l.dllen < o + c then .error (illegalExec s)
      else if 64 < s.sp.queue.length + c then .error (retry s)
      else .ok (s.setSp { s.sp with queue := s.sp.queue ++ runOf s.cur.pcA o c }))
/-- nop (R401). -/
def execNop (s : State) : Out := .next s

/-! Control registers. -/

/-- The control register that n addresses and its value (R71, R72); no other number decodes. -/
def cregRead (s : State) (n : Nat) : Word64 :=
  let g := s.cg
  let t := s.ct
  let p := s.sp
  match n with
  | 0x000 => BitVec.ofNat 64 g.nrm
  | 0x001 => BitVec.ofNat 64 g.trapen
  | 0x002 => BitVec.ofNat 64 g.dstrm
  | 0x010 => mk64 (lo32 t.reg) (BitVec.ofNat 32 g.idx)
  | 0x011 => t.reg
  | 0x012 => BitVec.ofNat 64 t.core
  | 0x013 => BitVec.ofNat 64 g.stage
  | 0x014 => BitVec.ofNat 64 (0x10000 + if t.isL then 0 else 1)
  | 0x015 => BitVec.ofNat 64 p.hinge
  | 0x016 => BitVec.ofNat 64 (p.twinA + p.twinB * 2 ^ 32)
  | 0x100 => s.reg (rPQUOTA t.ctx)
  | 0x101 => s.reg (rPREEMPT t.ctx)
  | n => if n < 8 then BitVec.ofNat 64 (mget 0 g.j (n - 4)) else s.regRead (rATTRWIN t.ctx (n - 0x110))
/-- crd (R73). -/
def execCrd (d n : Nat) (s : State) : Out := .next (s.wS d (cregRead s n))
/-- cwr: the defined fields of a user register; PROTECTION for a privileged one (R73). A read-only number does not decode. -/
def execCwr (a n : Nat) (s : State) : Out :=
  Res.out (
    let x := s.rS a
    let g := s.cg
    match n with
    | 0x000 => if fld x 2 0 ≥ 4 then .error (illegalExec s) else .ok (s.setCg { g with nrm := fld x 2 0 })
    | 0x001 => .ok (s.setCg { g with trapen := fld x 1 0 })
    | 0x002 => .ok (s.setCg { g with dstrm := fld x 3 0 })
    | n =>
      if 4 ≤ n ∧ n < 8 then .ok (s.setCg { g with j := mset 0 g.j (n - 4) (fld x 9 0) })
      else if 0x100 ≤ n then .error (fatal s PROTECTION 4 n 0)
      else .error (illegalExec s))
/-- crd.v: each active lane's status word (R70). -/
def execCrdV (h : VH) (d : Nat) (s : State) : Out := Res.out (vword s h d [] [] fun s l => (s.cg.st l).zeroExtend 64)
/-- cwr.v: bits [6:0] of each active lane's status word (R70). -/
def execCwrV (h : VH) (a : Opnd) (s : State) : Out :=
  Res.out do
    let act := active s h
    let s1 ← vpre s act (opRegs false a) (opLatches false a)
    .ok (s1.setCg ((lanesOf act).foldl (fun g l => g.setSt l (lo32 (rdOp s a l) &&& 0x7F)) s1.cg))

/-! Hinges and traps. -/

/-- A split stops before the word at which a pre-emption finds it (R413): it waits there until its team is resumed. -/
def stopHere (s : State) : State := s.setSp { s.sp with pc := s.cur.pcA, hold := .bar 18 0 }
/-- hinge id (R405, R413). -/
def execHinge (i : Nat) (s : State) : Out :=
  Res.out (emptyQ s (outsideTx s fun s =>
    if preempted s s.ct && s.cg.frame.isNone then .error (stopHere s) else atHinge s (some i)))
/-- trap code (R450). -/
def execTrap (c : Nat) (s : State) : Out := Res.out (emptyQ s (outsideTx s fun s => takeTrap s 0 s.sp.mask c s.cur.pcA s.cur.pcB))
/-- tret (R450). -/
def execTret (s : State) : Out := Res.out (emptyQ s (outsideTx s trapReturn))

/-! Time. -/

/-- clock: device time (R456 to R458). -/
def execClock (d : Nat) (s : State) : Out := .next (s.now.wS d (BitVec.ofNat 64 s.now.io.time))
/-- mark: an event-9 trace record, and a snapshot trigger (R461, R465). -/
def execMark (snap : Bool) (c : Nat) (s : State) : Out :=
  let t := s.ct
  let s1 := traceRec s (dieOf t.core) t.core t.ctx 9 c (s.cur.pcA + s.cg.idx * 2 ^ 32)
  .next (if snap && fld (s1.reg rSNAPCTL) 1 1 == 1 then snapTrigger s1 5 else s1)

end Sys2Proof.Machine
end

