-- ==== Sys2Proof/Machine/Barrier.lean ====
section
/-! DEFINITION. Barriers (R391 to R394) and the wait of mig (R410, R411): arrival, completion, and what the end of lanes re-evaluates. -/
namespace Sys2Proof.Machine

/-- The split that holds every lane of the group that has not ended (R391): the group's only one, with no deferred entry. -/
def soleSplit (g : Group) : Option Split := match g.splits with
  | [p] => if g.defer.isEmpty && g.spills == 0 then some p else none
  | _ => none

/-- The group's waiting split continues at the next word. -/
def releaseAt (s : State) (gh : Nat) : State :=
  let g := s.grp gh
  match g.splits with
  | p :: ps => s.setGrp gh { g with splits := { p with pc := p.pc + 4, hold := .none, age := 0 } :: ps }
  | [] => s
/-- Groups of a team, by a mask of indices, continue. -/
def releaseMask (s : State) (tid : Nat) (m : Word32) : State := (lanesOf m).foldl (fun s i => releaseAt s (handle tid i)) s

/-- A fault of a waiting split, at its word. -/
def fatalWaiting (s : State) (gh : Nat) (p : Split) (code detail addr : Nat) : State :=
  fatalCtx s (s.team (s.grp gh).team).ctx (faultAtOf s gh p p.pc p.lpc) code detail addr 0

/-- A group arrives at a named barrier with a count (R392). -/
def arriveNb (s : State) (gh : Nat) (p : Split) (id c : Nat) : Res :=
  let g := s.grp gh
  let tid := g.team
  let t := s.team tid
  let b := mget (0, 0) t.nb id
  let i := 1#32 <<< g.idx
  if c = 0 ∨ t.size < c ∨ (b.1 ≠ 0 ∧ b.1 ≠ c) then .error (fatalWaiting s gh p BARRIER_MISMATCH (c + b.1 * 2 ^ 8) id)
  else
    let m := b.2 ||| i
    if (lanesOf m).length = c then .ok (releaseMask (s.setTeam tid { t with nb := mset (0, 0) t.nb id (0, 0) }) tid m)
    else .ok (s.setTeam tid { t with nb := mset (0, 0) t.nb id (c, m) })

/-- A team has arrived at a barrier with these arrived groups: every unretired group is among them. -/
def allIn (s : State) (tid : Nat) (m : Word32) : Bool :=
  let live := liveGroups s tid (s.team tid)
  m != 0 && live &&& ~~~m == 0

/-- tbar completes when every unretired group has arrived (R393). -/
def checkTbar (s : State) (tid : Nat) : State :=
  let t := s.team tid
  if allIn s tid t.tbar then releaseMask (s.setTeam tid { t with tbar := 0 }) tid t.tbar else s

/-- A quire position does not hold back the k-th qbar (R393, R394). -/
def qbarPast (s : State) (t : Team) (k p : Nat) : Bool :=
  if p == posOf t.core then true
  else
    match mget Peer.unbound t.peers p with
    | .unbound | .gone => true
    | .team u =>
      let x := s.team u
      x.gone || (!x.saved && (decide (k ≤ x.qphase) || (x.qphase + 1 == k && allIn s u x.qarr)))

/-- A team's qbar completes where it can (R393). -/
def checkQbar (s : State) (tid : Nat) : State :=
  let t := s.team tid
  if !t.gone && !t.saved && allIn s tid t.qarr && (List.range 5).all fun p => !Nat.testBit t.qmask p || qbarPast s t (t.qphase + 1) p then
    releaseMask (s.setTeam tid { t with qarr := 0, qmask := 0, qphase := t.qphase + 1 }) tid t.qarr
  else s
/-- Every team of the quire of a team. -/
def checkQbars (s : State) (core : Nat) : State :=
  s.teams.foldl (fun s e => if e.2.core / 8 = core / 8 then checkQbar s e.1 else s) s

/-! mig. -/

/-- The directions that a team's waiting groups name. -/
def migWants (s : State) (tid : Nat) : List Bool :=
  (handles tid (s.team tid)).filterMap fun gh => match (s.grp gh).splits with
    | [p] => (match p.hold with
      | .mig _ toD => some toD
      | _ => none)
    | _ => none

/-- Each group of a team whose mig did not move it writes 0 and continues (R410). -/
def migDeclineGroup (s : State) (gh : Nat) : State :=
  let g := s.grp gh
  match g.splits with
  | [p] =>
    (match p.hold with
     | .mig d _ => releaseAt (s.setGrp gh (g.wS d 0)) gh
     | _ => s)
  | _ => s
/-- The scheduler declines (R411): trace event 5 names no core (R460). -/
def migDecline (s : State) (tid : Nat) : State :=
  let t := s.team tid
  let s1 := (handles tid t).foldl migDeclineGroup (s.setTeam tid { t with migarr := 0 })
  traceRec s1 (dieOf t.core) t.core t.ctx 5 t.reg.toNat 0x3FF

/-- The cases in which the scheduler always declines, as far as they need no look for a core (R411). -/
def migMust (s : State) (tid : Nat) : Bool :=
  let t := s.team tid
  let ws := migWants s tid
  let toD := ws.headD false
  ws.any (· != toD) || (toD != t.isL) || t.pair.isSome || (t.peers.any fun p => match p.2 with | .team _ => true | _ => false) ||
  (s.teams.any fun e => !e.2.gone && e.2.peers.any fun p => p.2 == .team tid) ||
  ((teamLaunch s t).all fun l => if toD then !l.hasD else !l.hasL) || (handles tid t).any fun gh => (s.grp gh).frame.isSome

/-- When every unretired group waits at a mig, it completes (R410): the scheduler declines, or the team waits to be moved. No mig completes
while a pre-emption is pending (R421). -/
def checkMig (s : State) (tid : Nat) : State :=
  let t := s.team tid
  if allIn s tid t.migarr && !t.moving && !preempted s t then
    if migMust s tid || Config.freeNat s.free % 2 == 0 then migDecline s tid else s.setTeam tid { t with moving := true }
  else s

/-- The group arrives where its only split waits at a barrier word or a mig (R391, R410). -/
def arrive (s : State) (gh : Nat) : Res :=
  let g := s.grp gh
  let tid := g.team
  let t := s.team tid
  let i := 1#32 <<< g.idx
  match soleSplit g with
  | none => .ok s
  | some p =>
    match p.hold with
    | .bar 16 _ => .ok (checkTbar (s.setTeam tid { t with tbar := t.tbar ||| i }) tid)
    | .bar 17 m => .ok (checkQbars (s.setTeam tid { t with qarr := t.qarr ||| i, qmask := t.qmask ||| m }) t.core)
    | .bar 18 _ => .ok s
    | .bar id c => if (mget (0, 0) t.nb id).2 &&& i ≠ 0 then .ok s else arriveNb s gh p id c
    | .mig _ _ => .ok (checkMig (s.setTeam tid { t with migarr := t.migarr ||| i }) tid)
    | _ => .ok s

/-- What the end of lanes of a group re-evaluates: its own arrival, and the conditions of its team and quire (R391, R393, R421). -/
def settle (s : State) (gh : Nat) : Res := do
  let tid := (s.grp gh).team
  let s1 ← arrive s gh
  .ok (checkQbars (checkMig (checkTbar s1 tid) tid) (s1.team tid).core)

/-- A barrier word: its hinge, then the wait (R391, R405). -/
def barrier (s : State) (h : Hold) : Res :=
  emptyQ s (outsideTx s fun s => do
    let s1 ← atHinge s none
    arrive (s1.setSp { s1.sp with pc := s1.cur.pcA, hold := h }) s1.cur.gh)

/-- nbar with an immediate count (R392). -/
def execNbarImm (c i : Nat) (s : State) : Out := Res.out (barrier s (.bar i c))
/-- nbar with a count in a register (R392). -/
def execNbarReg (a i : Nat) (s : State) : Out := Res.out (barrier s (.bar i (fld (s.rS a) 5 0)))
/-- tbar (R393). -/
def execTbar (s : State) : Out := Res.out (barrier s (.bar 16 0))
/-- qbar (R393). -/
def execQbar (m : Nat) (s : State) : Out := Res.out (barrier s (.bar 17 m))
/-- mig: waits as a team barrier (R410); under a pre-emption it stops before the word (R413). -/
def execMig (d : Nat) (k : Bool) (s : State) : Out :=
  Res.out (emptyQ s (outsideTx s fun s =>
    if preempted s s.ct && s.cg.frame.isNone then .error (stopHere s)
    else do
      let s1 ← atHinge s none
      arrive (s1.setSp { s1.sp with pc := s1.cur.pcA, hold := .mig d k }) s1.cur.gh))

/-- done and exit (R400): the lanes end; the group and its team may retire; barriers are re-evaluated. -/
def endWord (exit : Bool) (s : State) : Res :=
  emptyQ s (outsideTx s fun s => do
    let s1 ← endLanes s exit
    settle s1 s1.cur.gh)
/-- done (R400). -/
def execDone (s : State) : Out := Res.out (endWord false s)
/-- exit (R400). -/
def execExit (s : State) : Out := Res.out (endWord true s)

end Sys2Proof.Machine
end

