-- ==== Sys2Proof/Machine/Pool.lean ====
section
/-! DEFINITION. Pool items, bins and their banks, pops, spills and refills (R45 to R49, R368 to R375, R377). -/
namespace Sys2Proof.Machine

/-! Items (R45). -/

def itemBits (i : BitVec 512) (hi lo : Nat) : Nat := i.toNat / 2 ^ lo % 2 ^ (hi + 1 - lo)
def itemEntry (i : BitVec 512) : Nat := itemBits i 3 0
def itemKey (i : BitVec 512) : Nat := itemBits i 63 32
def itemP (i : BitVec 512) (k : Nat) : Word64 := BitVec.ofNat 64 (itemBits i (127 + 64 * k) (64 + 64 * k))
/-- An item from a header in the layout of R395 and its payload. -/
def mkItem (h : Word64) (ps : List Word64) : BitVec 512 :=
  BitVec.ofNat 512 (fld h 47 32 / 16 * 16 + fld h 35 32 + fld h 31 0 * 2 ^ 32 +
    (List.range 7).foldl (fun n k => n + (nthD 0 ps k).toNat * 2 ^ (64 + 64 * k)) 0)
/-- v7 of a lane that receives an item (R48). -/
def itemV7 (i : BitVec 512) : Word64 := BitVec.ofNat 64 (itemKey i + itemBits i 15 0 * 2 ^ 32)
/-- A lane receives an item (R48). -/
def giveItem (g : Group) (l : Nat) (i : BitVec 512) : Group :=
  ((List.range 7).foldl (fun g k => g.wV k l (itemP i k)) g).wV 7 l (itemV7 i)

/-! Bins. -/

def bankOf (b : Bin) (k : Nat) : List PoolItem := mget [] b.banks k
def setBank (b : Bin) (k : Nat) (l : List PoolItem) : Bin := { b with banks := mset [] b.banks k l }
def binCount (b : Bin) : Nat := b.banks.foldl (fun n e => n + e.2.length) 0
/-- Items that a bin holds at a pool of this size (R368). -/
def binCap (l : Launch) : Nat := l.pool / 1024
def bankCap (l : Launch) : Nat := l.pool / 8192
/-- Pops since an item's record (R370): a 32-bit counter. -/
def waitedPops (b : Bin) (i : PoolItem) : Nat := (b.pops + 2 ^ 32 - i.mark) % 2 ^ 32
/-- In increasing key, equal keys in order of entry (R368). -/
def bankInsert (i : PoolItem) : List PoolItem → List PoolItem
  | [] => [i]
  | x :: l => if itemKey i.item < itemKey x.item then i :: x :: l else x :: bankInsert i l
/-- The first bank with room from a bank on, wrapping (R369). -/
def bankWithRoom (l : Launch) (b : Bin) (k : Nat) : Nat :=
  (((List.range 8).map fun i => (k + i) % 8).find? fun i => (bankOf b i).length < bankCap l).getD k

def State.bin (s : State) (core e : Nat) : Bin := mget Bin.init (s.core core).bins e
def State.setBin (s : State) (core e : Nat) (b : Bin) : State := s.setCore core { s.core core with bins := mset Bin.init (s.core core).bins e b }

/-- An item enters a bin at a random bank; the timer starts where the bin was empty (R47, R369). -/
def placeItem (s : State) (l : Launch) (core e : Nat) (i : PoolItem) : State :=
  let b := s.bin core e
  let k := bankWithRoom l b (Config.freeNat s.free % 8)
  let b1 := setBank b k (bankInsert i (bankOf b k))
  let b2 := if binCount b = 0 then { b1 with timer := true, expired := false } else b1
  (s.draw.setBin core e b2).tick

/-- The tail item of highest key: most recent record, then the higher bank (R375). -/
def spillBank (b : Bin) : Option Nat :=
  (List.range 8).foldl (fun (best : Option (Nat × Nat × Nat)) k =>
    match (bankOf b k).getLast? with
    | none => best
    | some i =>
      let w := waitedPops b i
      match best with
      | none => some (k, itemKey i.item, w)
      | some (_, key, w') => if key < itemKey i.item ∨ (key = itemKey i.item ∧ w ≤ w') then some (k, itemKey i.item, w) else best) none |>.map Prod.fst
/-- n items taken from the tails; they keep the pops they have waited, and each counts as a pop (R370, R375). -/
def spillTake : Nat → Bin → List PoolItem → List PoolItem × Bin
  | 0, b, acc => (acc, b)
  | n + 1, b, acc =>
    match spillBank b with
    | none => (acc, b)
    | some k =>
      match (bankOf b k).getLast? with
      | none => (acc, b)
      | some i => spillTake n { setBank b k (bankOf b k).dropLast with pops := (b.pops + 1) % 2 ^ 32 } (acc ++ [{ i with waited := waitedPops b i }])

/-- Batches of a context on a die. -/
def batches (s : State) (die c : Nat) : Nat := (s.die die).lists.foldl (fun n e => if e.1 / 16 = c then n + e.2.length else n) 0
/-- The backing region has room for a batch (R374). -/
def backingRoom (s : State) (die c : Nat) : Bool := decide (batches s die c < (fld (s.reg (rBACKING die c)) 63 56 * 2 ^ 21 - 2 ^ 20) / 2048)
/-- The base of a die's backing region (R374). -/
def backBase (s : State) (die c : Nat) : Nat := fld (s.reg (rBACKING die c)) 55 0 / 2 ^ 21 * 2 ^ 21
/-- The context reaches n bytes of a physical range by key tag (R434). -/
def rangeOk (s : State) (c a n : Nat) : Bool :=
  decide (a + n ≤ 2 ^ 40) && (List.range ((a + n - 1) / 2 ^ 21 + 1 - a / 2 ^ 21)).all fun k => let o := keyTag s (a / 2 ^ 21 + k); o == c || o == 64
/-- The blocks of a backing region carry the context's tag (R433, R434). -/
def regionOk (s : State) (die c : Nat) : Bool := rangeOk s c (backBase s die c) (fld (s.reg (rBACKING die c)) 63 56 * 2 ^ 21)
/-- A device access to a backing region that carries another tag (R434). -/
def regionFault (s : State) (die c : Nat) : State :=
  fatalCtx s c (FaultAt.none 0x3FF (runningSlot s c)) PROTECTION 2 (backBase s die c) 0
def listOf (s : State) (die c e : Nat) : List (List PoolItem) := mget [] (s.die die).lists (c * 16 + e)
def setList (s : State) (die c e : Nat) (l : List (List PoolItem)) : State :=
  s.setDie die { s.die die with lists := mset [] (s.die die).lists (c * 16 + e) l }
/-- The order in which bins fell under a quarter (R375): 0 since the launch began, 1 for a bin that is not under it, else the order number of
the fall plus 2. A bin that is being refilled keeps its place until it is at or above half. -/
def noteLow (s : State) (l : Launch) (core e : Nat) : State :=
  let b := s.bin core e
  let n := binCount b
  let fills := b.filling && decide (n * 2 < binCap l)
  s.setBin core e { b with filling := fills, low := if n * 4 < binCap l then (if b.low = 1 then s.seq + 2 else b.low) else if fills then b.low else 1 }

/-- Move up to n items of a bin to the die's list as one batch (R372, R375). -/
def spillBatch (s : State) (l : Launch) (c core e n : Nat) : State :=
  let r := spillTake n (s.bin core e) []
  if r.1.isEmpty then s
  else
    let b := if binCount r.2 = 0 then { r.2 with timer := false, expired := false, waited := false } else r.2
    noteLow (setList (s.setBin core e b) (dieOf core) c e (listOf s (dieOf core) c e ++ [r.1])) l core e

/-- Items in a bin and on their way to it. -/
def binLoad (s : State) (core e : Nat) : Nat := binCount (s.bin core e) + ((s.core core).flying.filter fun i => itemEntry i == e).length
/-- What an item meets at its bin (R375): a place there; the bin is full and the backing region has no room; or the full bin would spill into a
region that carries another tag (R434). -/
inductive EnterAns where
  | taken (s : State)
  | full
  | denied
  deriving DecidableEq, Repr

/-- The item is on its way to its bin. -/
def fly (s : State) (core : Nat) (i : BitVec 512) : State := s.setCore core { s.core core with flying := (s.core core).flying ++ [i] }
/-- An item asks for a place in its bin (R50, R375): a full bin first spills 32 items where the backing region has room. -/
def takePlace (s : State) (l : Launch) (c core : Nat) (i : BitVec 512) : EnterAns :=
  let e := itemEntry i
  if binLoad s core e < binCap l then .taken (fly s core i)
  else if !backingRoom s (dieOf core) c || binCount (s.bin core e) = 0 then .full
  else if !regionOk s (dieOf core) c then .denied
  else .taken (fly (spillBatch s l c core e 32) core i)
/-- Items ask for their places, each by itself (R50): one that finds none is left over, and those after it go on; some of them meets a region
of another tag where the last component is true. DESIGN CHOICE (log 45): R50 gives no order among them; they ask in the order of the list, which
is increasing lane order. -/
def placeAll (l : Launch) (c core : Nat) : List (BitVec 512) → State → State × List (BitVec 512) × Bool
  | [], s => (s, [], false)
  | i :: is, s =>
    match takePlace s l c core i with
    | .taken s1 => placeAll l c core is s1
    | .full => let r := placeAll l c core is s; (r.1, i :: r.2.1, r.2.2)
    | .denied => (s, i :: is, true)
/-- An item on its way enters its bin (R50, R370). -/
def landItem (s : State) (l : Launch) (core k : Nat) (i : BitVec 512) : State :=
  let e := itemEntry i
  let s1 := s.setCore core { s.core core with flying := dropAt (s.core core).flying k }
  noteLow (placeItem s1 l core e ⟨i, (s1.bin core e).pops, 0, none⟩) l core e

/-- A batch is placed into a bin, which is refilled further while batches are left (R375). -/
def refillBatch (s : State) (l : Launch) (core e : Nat) (batch : List PoolItem) (more : Bool) : State :=
  let s1 := batch.foldl (fun s i => placeItem s l core e { i with mark := (s.bin core e).pops - i.waited, waited := 0 }) s
  noteLow (s1.setBin core e { s1.bin core e with filling := more }) l core e

/-! Pops (R370). -/

/-- The aged item with the oldest record: its bank and position. -/
def agedItem (b : Bin) : Option (Nat × Nat) :=
  ((List.range 8).foldl (fun (best : Option (Nat × Nat × Nat)) k =>
    ((List.range (bankOf b k).length).foldl (fun (best : Option (Nat × Nat × Nat)) j =>
      let w := waitedPops b (nthD ⟨0, 0, 0, none⟩ (bankOf b k) j)
      if w < 2 ^ 16 then best
      else match best with
        | none => some (k, j, w)
        | some x => if x.2.2 < w then some (k, j, w) else best) best)) none).map fun x => (x.1, x.2.1)
/-- Two distinct banks drawn (R370). -/
def twoBanks (n : Nat) : Nat × Nat := (n % 8, (n % 8 + 1 + n / 8 % 7) % 8)
/-- The bank that a draw of two pops from: the lower key, then the older item, then the lower number. -/
def betterBank (b : Bin) (x y : Nat) : Option Nat :=
  match (bankOf b (min x y)).head?, (bankOf b (max x y)).head? with
  | none, none => none
  | some _, none => some (min x y)
  | none, some _ => some (max x y)
  | some i, some j =>
    if itemKey j.item < itemKey i.item ∨ (itemKey j.item = itemKey i.item ∧ waitedPops b i < waitedPops b j) then some (max x y) else some (min x y)
/-- Where the next pop takes its item: aged, of two drawn banks, or the lowest bank that is not empty. -/
def popPlace (b : Bin) (n : Nat) : Option (Nat × Nat) :=
  match agedItem b with
  | some x => some x
  | none =>
    match betterBank b (twoBanks n).1 (twoBanks n).2 with
    | some k => some (k, 0)
    | none => ((List.range 8).find? fun k => !(bankOf b k).isEmpty).map (·, 0)
/-- One pop. -/
def popItem (s : State) (l : Launch) (core e : Nat) : Option (PoolItem × State) :=
  let b := s.bin core e
  match popPlace b (Config.freeNat s.free) with
  | none => none
  | some (k, j) =>
    let b1 := { setBank b k (dropAt (bankOf b k) j) with pops := (b.pops + 1) % 2 ^ 32 }
    some (nthD ⟨0, 0, 0, none⟩ (bankOf b k) j, noteLow (s.draw.setBin core e b1) l core e)
/-- Up to n pops. -/
def popItems (l : Launch) (core e : Nat) : Nat → State → List PoolItem → List PoolItem × State
  | 0, s, acc => (acc, s)
  | n + 1, s, acc =>
    match popItem s l core e with
    | none => (acc, s)
    | some (i, s1) => popItems l core e n s1 (acc ++ [i])
/-- The address of poisoned data among popped items: the device reads it for their context (R455). -/
def poisonAt (is : List PoolItem) : Option Nat := is.findSome? (·.pois)
/-- A bin that its last pop emptied: its timer stops (R373). -/
def stopIfEmpty (s : State) (core e : Nat) : State :=
  let b := s.bin core e
  if binCount b = 0 then s.setBin core e { b with timer := false, expired := false, waited := false } else s

/-- The splits that wait in take on a core for an entry, in the order in which they began to wait (R377): group, split, order number. -/
def takeWaiters (s : State) (core e : Nat) : List (Nat × Nat × Nat) :=
  s.groups.flatMap fun g =>
    if (s.team g.2.team).core = core ∧ (s.team g.2.team).entry = e ∧ !(s.team g.2.team).gone ∧ !(s.team g.2.team).saved then
      (List.range g.2.splits.length).filterMap fun k =>
        match (nthD Split.init g.2.splits k).hold with
        | .take _ _ since => some (g.1, k, since)
        | _ => none
    else []

/-- The waiters whose group has a lane to fill. -/
def fillable (s : State) (ws : List (Nat × Nat × Nat)) : List (Nat × Nat × Nat) := ws.filter fun w => (s.grp w.1).done != 0

/-- Fill the group's done lanes from its bin (R377, R48); the filled lanes join split k, and the register receives their number (R398). They
acquire at DEV scope: the core's read-only lines are discarded (R267, R290). A poisoned item is fatal (R455). -/
def fillLanes (s : State) (l : Launch) (gh k d : Nat) : State :=
  let g := s.grp gh
  let t := s.team g.team
  let dl := lanesOf g.done
  let r := popItems l t.core t.entry dl.length s []
  let s1 := stopIfEmpty r.2 t.core t.entry
  match poisonAt r.1 with
  | some a => fatalGroup s1 gh POISON 0 a
  | none =>
    let pairs := dl.zip (r.1.map (·.item))
    let m := maskOf (pairs.map Prod.fst)
    let g1 := pairs.foldl (fun g x => giveItem g x.1 x.2) (s1.grp gh)
    let p := nthD Split.init g1.splits k
    (s1.setCore t.core { s1.core t.core with ro := [] }).setGrp gh ({ g1 with done := g1.done &&& ~~~m, splits := setAt g1.splits k { p with mask := p.mask ||| m, hold := .none, age := 0 } }.wS d
      (BitVec.ofNat 64 pairs.length))

end Sys2Proof.Machine
end

