-- ==== Sys2Proof/Machine/Line.lean ====
section
/-! DEFINITION. Cache lines as an access meets them: attribute windows and hints (R263 to R265), the L2 (R262, R266), L1 states and
requests (R261, R301), lines of host memory (R310, R311), the home as sole holder (R304, R326), locked and pinned lines (R342, R347). -/
namespace Sys2Proof.Machine

/-! Attributes. -/

/-- The attribute window that covers an address: POLICY and CLASS (R263); zero for none. -/
def attrWin (s : State) (c va : Nat) : Nat × Nat :=
  let hit (n : Nat) : Bool :=
    let w := s.reg (rATTRWIN c n)
    let sz := fld w 41 36
    -- the bits of BASE below SIZE play no part
    fld w 63 63 == 1 && decide (sz ≤ 36) && fld w 35 0 / 2 ^ sz == va / 2 ^ 21 % 2 ^ 36 / 2 ^ sz
  match (List.range 16).find? hit with
  | some n => let w := s.reg (rATTRWIN c n); (fld w 45 44, fld w 43 42)
  | none => (0, 0)

/-- The replacement priority a hint carries (R265): 0 evict-first, 1 normal, 2 evict-last. -/
def hintPrio (hint policy : Nat) : Nat :=
  match hint with
  | 0 => if policy = 1 then 0 else if policy = 2 then 2 else 1
  | 2 | 3 => 0
  | 4 => 2
  | _ => 1
/-- The access allocates no L2 line (R265). -/
def hintBypass (hint policy : Nat) : Bool := hint == 6 || (hint == 0 && policy == 3)

/-- Blocks of 2 MiB in the two HBM4E stacks of a die: 128 GiB (R19). -/
def dieBlocks : Nat := 2 ^ 16
/-- The die of a block where so many blocks have gone to each die: the one that the map wants, while its stacks have room. -/
def placeBlock (used : AMap Nat) (b : Nat) : Nat :=
  let want := Config.homeDie b % 8
  if mget 0 used want < dieBlocks then want else ((List.range 8).find? fun d => decide (mget 0 used d < dieBlocks)).getD 0
/-- The blocks that each die's stacks hold among the first n. -/
def blocksUsed : Nat → AMap Nat
  | 0 => []
  | n + 1 => let u := blocksUsed n; let d := placeBlock u n; mset 0 u d (mget 0 u d + 1)
/-- The home die of a block of device memory: the die whose stacks hold it, in a map that gives each die its 128 GiB (R19, R20, R253). -/
def blockDie (b : Nat) : Nat := placeBlock (blocksUsed b) b
/-- The home die of a location (R253, R310). -/
def homeDie (loc : Nat) : Nat := if isHost loc then loc / 2 ^ 21 % 8 else blockDie (blockOf loc)
/-- The home slice of a location, device or host: 0 to 31 (R20, R253, R310). -/
def homeSlice (loc : Nat) : Nat :=
  let f (lo : Nat) : Nat := loc / 2 ^ lo % 32
  f 7 ^^^ f 12 ^^^ f 17 ^^^ f 22
/-- Where a line stands in the L2 of its home die: its slice, and one of the slice's 4,096 sets (R262). -/
def l2SetOf (line : Nat) : Nat × Nat := (homeSlice (128 * line), Config.l2Set line % 4096)

/-! The L2. -/

/-- The line that an L2 fill evicts among the lines of its set, most recently used first (R266). -/
def l2Victim (quota : Nat → Nat) (set_ : List L2Line) (cls : Nat) : Option Nat :=
  let held (k : Nat) : Nat := (set_.filter fun x => x.cls == k).length
  let cands := if quota cls ≤ held cls then set_.filter fun x => x.cls == cls else set_.filter fun x => quota x.cls < held x.cls
  let low := cands.foldl (fun m x => min m x.prio) 2
  ((cands.filter fun x => x.prio == low).getLast?).map (·.line)

/-- An access reaches the home L2: the line is filled with its class and priority, or it is used and its priority raised; a bypassing access
fills nothing and raises nothing (R262, R265, R266). -/
def l2Access (s : State) (line cls prio : Nat) (bypass : Bool) : State :=
  let d := homeDie (128 * line)
  let x := s.die d
  match x.l2.find? (·.line == line) with
  | some y => s.setDie d { x with l2 := { y with prio := if bypass then y.prio else max y.prio prio } :: x.l2.filter (·.line != line) }
  | none =>
    if bypass then s
    else
      let set_ := x.l2.filter fun y => l2SetOf y.line == l2SetOf line
      let q := s.reg (rL2QUOTA d)
      let v := if set_.length < 16 then none else l2Victim (fun k => fld q (4 * k + 3) (4 * k)) set_ cls
      s.setDie d { x with l2 := ⟨line, cls, prio⟩ :: x.l2.filter fun y => some y.line != v }

/-! Pins and locks. -/

/-- Lines that transactions of a core's groups pin in its L1 (R342); irrevocable lanes pin nothing (R347). -/
def pinnedLines (s : State) (core : Nat) : List Nat :=
  (s.groups.flatMap fun e =>
    if (s.team e.2.team).core = core then e.2.tx.flatMap fun t => if t.2.active && !t.2.irrev then t.2.rlines ++ t.2.wlines else [] else []).eraseDups
/-- A transaction's sets hold a line. -/
def Tx.holds (t : Tx) (line : Nat) : Bool := t.rlines.contains line || t.wlines.contains line
/-- The line is locked at its home by an irrevocable lane other than the one named (R347). -/
def lineLocked (s : State) (line : Nat) (own : Option (Nat × Nat)) : Bool :=
  s.groups.any fun e => e.2.tx.any fun t => t.2.active && t.2.irrev && t.2.holds line && own != some (e.1, t.1)
/-- The lock of lane k of a group does not keep lane l of it out, which waits for nothing then: l is irrevocable too, and its commit settles the
conflict; or both are in one split, and l only reads (DEDUCED, log 73; R344, R347). -/
def sharesLock (g : Group) (l k : Nat) : Bool := (mget Tx.init g.tx l).irrev || g.splits.any fun p => inMask p.mask l && inMask p.mask k
/-- A lock on the line keeps the lane named, of a group, out. -/
def lockHolds (s : State) (line : Nat) (own : Option (Nat × Nat)) : Bool :=
  s.groups.any fun e => e.2.tx.any fun t =>
    t.2.active && t.2.irrev && t.2.holds line &&
    (match own with
     | none => true
     | some o => o.1 != e.1 || (o.2 != t.1 && !sharesLock e.2 o.2 t.1))
/-- The line is locked, and the lane named reads it all the same: at its home. -/
def readsLocked (s : State) (line : Nat) (own : Option (Nat × Nat)) : Bool := lineLocked s line none && !lockHolds s line own

/-! The L1. -/

def L1St.stable : L1St → Bool
  | .s | .e | .o | .m => true
  | _ => false
/-- The set of a line: PA[16:7] (R261). -/
def l1SetOf (line : Nat) : Nat := line % 1024
def l1Find (c : CoreSt) (line : Nat) : Option L1Line := c.l1.find? (·.line == line)
/-- A line's state; I where it is absent. -/
def l1State (c : CoreSt) (line : Nat) : L1St := match l1Find c line with
  | some x => x.st
  | none => .i
/-- Put a line first, or remove it where it is in I. -/
def l1Put (c : CoreSt) (x : L1Line) : CoreSt :=
  let rest := c.l1.filter (·.line != x.line)
  { c with l1 := if x.st = .i then rest else x :: rest }
/-- Change a line's state in place; one that waits for new data has lost its own. -/
def l1SetState (c : CoreSt) (line : Nat) (st : L1St) : CoreSt :=
  if st = .i then { c with l1 := c.l1.filter (·.line != line) }
  else { c with l1 := c.l1.map fun x => if x.line = line then { x with st := st, pois := if st = .ima then [] else x.pois } else x }
/-- Change a line in place. -/
def l1SetLine (c : CoreSt) (y : L1Line) : CoreSt := { c with l1 := c.l1.map fun x => if x.line = y.line then y else x }
def State.l1Set (s : State) (core line : Nat) (st : L1St) : State := s.setCore core (l1SetState (s.core core) line st)

/-- Send a message once: the same message is not already on its way. -/
def State.sendOnce (s : State) (m : Msg) : State := if s.net.contains m then s else s.send m

/-- What looking for a way gives (R266). -/
inductive WayAns where
  | free (s : State)
  | wait
  | pinned
  deriving DecidableEq, Repr

/-- A line leaves its way (R266, R301): in S silently; in E, O or M it is put back. -/
def evict (s : State) (core : Nat) (v : L1Line) : State :=
  let put (st : L1St) (k : MKind) : State := (s.setCore core (l1SetLine (s.core core) { v with st := st, way := false })).send ⟨v.line, core, k⟩
  match v.st with
  | .e => put .eia .putE
  | .o => put .oia .putO
  | .m => put .mia .putM
  | _ => s.l1Set core v.line .i

/-- The lines that hold a way of the L1 set of a line, and how many pinned lines of the set are not among them but need a way: the line itself
apart. -/
def l1Ways (s : State) (core line : Nat) : List L1Line × Nat :=
  let c := s.core core
  (c.l1.filter fun x => x.way && l1SetOf x.line == l1SetOf line,
   ((pinnedLines s core).filter fun p => p != line && l1SetOf p == l1SetOf line && !(l1Find c p).any (·.way)).length)
/-- A way for a line in a core's L1, where the victim has left it (R266): lines in a transient state and pinned lines are never evicted. -/
def makeWay (s : State) (core line : Nat) : WayAns :=
  let pins := pinnedLines s core
  let (set_, absent) := l1Ways s core line
  if set_.length + absent < 16 then .free s
  else
    let cands := set_.filter fun x => x.st.stable && !pins.contains x.line
    let low := cands.foldl (fun m x => min m x.prio) 2
    match (cands.filter fun x => x.prio == low).getLast? with
    | some v => .free (evict s core v)
    | none => if set_.any fun x => !x.st.stable then .wait else .pinned

/-- What an access needs of its line: its hint as a priority, class, bypass, acquire flag, stream, the bytes it touches, and whether it loads
or stores them (a prefetch does not). -/
structure Acc where
  prio   : Nat
  cls    : Nat
  bypass : Bool
  acq    : Bool
  stream : Nat
  locs   : List Nat
  touch  : Bool
  deriving DecidableEq, Repr

/-- What a line answers to an access: it can act now, it waits, or no way of its set can take it and the home serves it (R266). -/
inductive LineAns where
  | ready (s : State)
  | wait (s : State)
  | home (s : State)
  deriving DecidableEq, Repr

/-- The half of a host line that holds a location, and its host state (R296, R311). -/
def halfState (e : DirEnt) (h : Nat) : Nat := if h = 0 then e.half0 else e.half1
def halfOf (loc : Nat) : Nat := loc / 64 % 2
/-- The halves of a host line that an access misses: its own half absent, or not writable for a store; the other, where a store meets it in S. -/
def missingHalves (e : DirEnt) (loc : Nat) (write : Bool) : List Nat :=
  (List.range 2).filter fun h =>
    if h = halfOf loc then decide (halfState e h < if write then 2 else 1) else write && halfState e h == 1

/-- The data of the line is dirty in the L1, as a lane's hit meets it (R309). -/
def L1St.hitsDirty : L1St → Bool
  | .o | .m | .oma => true
  | _ => false
/-- The poison of one copy is the line's where the copy becomes the dirty one (R453, R454). -/
def copyOwns (s : State) (x : L1Line) : State := { s with poison := x.pois.foldl (fun p u => mset false p u true) s.poison }
/-- A line of the L1 takes an access that hits (R265, R305, R309); a store that performs waits no more. -/
def l1Hit (s : State) (core : Nat) (x : L1Line) (st : L1St) (write : Bool) (a : Acc) : State :=
  let c := s.core core
  let c1 := l1Put c { x with st := st, prio := max x.prio a.prio, push := if a.touch then none else x.push,
                             sbytes := if write then x.sbytes.filter fun b => !a.locs.contains b else x.sbytes
                             pois := if write then [] else x.pois }
  (if write then copyOwns s x else s).setCore core { c1 with ret := c.ret && !x.st.hitsDirty }
/-- A store waits on a line of the L1: its bytes are noted there (R301). -/
def storeWaits (s : State) (core : Nat) (x : L1Line) (a : Acc) : State :=
  s.setCore core (l1SetLine (s.core core) { x with sbytes := x.sbytes ++ a.locs.filter fun b => !x.sbytes.contains b })

/-- A line of a core is asked for, with the state in which it waits: the accesses' bytes, and the context on whose behalf (R301, R313). -/
def l1Asks (s : State) (core : Nat) (x : L1Line) (st : L1St) (locs : List Nat) (k : MKind) : State :=
  (s.setCore core (l1Put (s.core core) { x with st := st, sbytes := locs, ctx := dieCtx s (dieOf core) })).send ⟨x.line, core, k⟩
/-- A miss asks the home, where a way can take the line; the fill chooses the victim (R266, R301). -/
def l1Ask (s : State) (core line : Nat) (write : Bool) (a : Acc) : LineAns :=
  match makeWay s core line with
  | .wait => .wait s
  | .pinned => .home s
  | .free _ =>
    .wait (l1Asks (l2Access s line a.cls a.prio a.bypass) core ⟨line, .i, a.prio, none, [], false, none, []⟩ (if write then .ima else .isd) a.locs
      (if write then .getM else .getS a.acq a.stream))

/-- A push from this core to the line has not reached its home yet (R275). -/
def pushPending (s : State) (core line : Nat) : Bool :=
  s.net.any fun m => m.line == line && m.core == core && match m.kind with
    | .push _ _ _ _ _ _ _ => true
    | _ => false

/-- Present halves held in E or M are M once the line is written (R311). -/
def halvesM (e : DirEnt) : DirEnt := { e with half0 := if 2 ≤ e.half0 then 3 else e.half0, half1 := if 2 ≤ e.half1 then 3 else e.half1 }
/-- A store that hits a line of host memory makes the device's halves of it dirty (R296, R312). -/
def hostDirty (s : State) (line : Nat) (write : Bool) : State :=
  if write && isHost (128 * line) then s.setDirE line (halvesM (s.dirE line)) else s

/-- The halves of a host line that an access lacks are asked for (R310, R311): none where it lacks none. -/
def hostWait (s : State) (core loc : Nat) (write : Bool) : Option State :=
  let line := lineOf loc
  let e := s.dirE line
  if isHost loc && missingHalves e loc write != [] then
    some ((missingHalves e loc write).foldl (fun s h => s.sendOnce ⟨line, core, .half h (write || e.st == .em || e.st == .o)⟩) s)
  else none
/-- An access to a line of device or host memory (R301, R311). -/
def lineAccess (s : State) (core line : Nat) (write : Bool) (a : Acc) : LineAns :=
  if lineLocked s line none || pushPending s core line then .wait s
  else
    match hostWait s core (a.locs.headD (128 * line)) write, l1Find (s.core core) line with
    | some s1, _ => .wait s1
    | none, none => l1Ask s core line write a
    | none, some x =>
      let ask (st : L1St) : LineAns := .wait (l1Asks s core x st a.locs .upg)
      match x.st, write with
      | .m, _ | .e, true => .ready (hostDirty (l1Hit s core x .m write a) line write)
      | .e, false | .s, false | .o, false => .ready (l1Hit s core x x.st false a)
      | .s, true => ask .sma
      | .o, true => ask .oma
      | .sma, false | .oma, false => if a.locs.any (x.sbytes.contains ·) then .wait s else .ready (l1Hit s core x x.st false a)
      | .ima, true | .sma, true | .oma, true => .wait (storeWaits s core x a)
      | _, _ => .wait s

/-! The home. -/

/-- The cores that an entry lists as sharers, without those that are lost for the line (R297, R313). -/
def sharersOf (s : State) (e : DirEnt) : List Nat :=
  (if e.coarse then ((List.range 8).filter fun d => Nat.testBit e.dies d).flatMap (dieCores s.part) else e.sharers).filter fun c => !e.lost.contains c
/-- The requester is listed (R302). -/
def listed (e : DirEnt) (core : Nat) : Bool :=
  e.owner == some core || if e.coarse then Nat.testBit e.dies (dieOf core) else e.sharers.contains core
/-- A sharer is added: the fifth makes the entry coarse (R297). -/
def addSharer (e : DirEnt) (core : Nat) : DirEnt :=
  if e.coarse then { e with dies := e.dies ||| 2 ^ dieOf core }
  else if e.sharers.contains core then e
  else if e.sharers.length < 4 then { e with sharers := e.sharers ++ [core] }
  else { e with coarse := true, dies := (core :: e.sharers).foldl (fun m k => m ||| 2 ^ dieOf k) 0, sharers := [] }
/-- The entry at one owner, or at no holder: no sharer is listed (R297). -/
def DirEnt.alone (e : DirEnt) (o : Option Nat) : DirEnt :=
  { e with st := if o.isSome then .em else .i, owner := o, sharers := [], coarse := false, dies := 0, nrels := [], taint := [], busy := none }

/-- The home sends one message for a line to each core of a list. -/
def sendAll (s : State) (line : Nat) (k : MKind) (cores : List Nat) : State := cores.foldl (fun s c => s.send ⟨line, c, k⟩) s

/-- The predictor of a core learns whether its request found another core as owner of the line (R326). -/
def noteOwner (s : State) (core line : Nat) : State :=
  let c := s.core core
  let rest := c.hot.filter (· != line)
  match (s.dirE line).owner with
  | some o => if o = core then s.setCore core { c with hot := rest } else s.setCore core { c with hot := line :: rest }
  | none => s.setCore core { c with hot := rest }

/-- The unpublished release of a line's owner outside whose scope instance a core lies, the oldest; 0x3FF lies outside every one (R283, R284). -/
def outsideRel (e : DirEnt) (core : Nat) : Option (Nat × Nat × Nat) :=
  match e.owner with
  | none => none
  | some o => e.nrels.find? fun r => core == 0x3FF || match r.2.2 with
    | 0 | 1 => true
    | 2 => core / 8 != o / 8
    | _ => dieOf core != dieOf o

/-- No request: 0x3FF is no core. -/
def Busy.init : Busy := ⟨0, 0x3FF, 0, [], none, [], [], [], 0, .i, none, 0, 0, none⟩

/-- The home becomes sole holder of a line for an access that it performs itself (R304 step 1, R326): true where it is. For an acquire from outside
its scope the owner publishes first (R284). -/
def homeSole (s : State) (line : Nat) (core : Nat) (acq : Bool) : State × Bool :=
  let e := s.dirE line
  if e.busy.isSome then (s, false)
  else
    let who := if core = 0x3FF then none else dieCtx s (dieOf core)
    match e.st, (if acq then outsideRel e core else none), e.owner with
    | .i, _, _ => (s, true)
    | _, some r, some o =>
      ((s.send ⟨line, o, .fwdPub r.2.1 0x3FF⟩).setDirE line { e with busy := some { Busy.init with req := 11, core := core, fwd := some o, ctx := who } }, false)
    | _, _, _ =>
      let inv := (sharersOf s e).filter fun c => some c != e.owner
      let b : Busy := { Busy.init with req := 10, core := core, acks := inv, fwd := e.owner, ctx := who }
      let s1 := sendAll s line .inv inv
      let s2 := match e.owner with
        | some o => s1.send ⟨line, o, .recall⟩
        | none => s1
      if inv.isEmpty && e.owner.isNone then (s.setDirE line (e.alone none), true)
      else (s2.setDirE line { e with busy := some b }, false)

/-- Every unit of a line is marked poison (R313, R454). -/
def poisonLine (s : State) (line : Nat) : State := { s with poison := (List.range 8).foldl (fun p k => mset false p (8 * line + k) true) s.poison }

/-- An access performed at the home slice: the home is sole holder, both halves of a host line are held in E or M (R326). -/
def homeAccess (s : State) (core line loc : Nat) (a : Acc) (own : Option (Nat × Nat)) : LineAns :=
  let e := s.dirE line
  if lockHolds s line own || pushPending s core line then .wait s
  else if isHost loc && (e.half0 < 2 || e.half1 < 2) then
    .wait (((List.range 2).filter fun h => halfState e h < 2).foldl (fun s h => s.sendOnce ⟨line, core, .half h true⟩) s)
  else
    let s0 := if e.owner.any (· != core) then noteOwner s core line else s
    let r := homeSole (l2Access s0 line a.cls a.prio a.bypass) line core a.acq
    if r.2 then .ready (hostDirty (if e.psn then poisonLine r.1 line else r.1) line true) else .wait r.1

end Sys2Proof.Machine
end

