-- ==== Sys2Proof/Machine/Access.lean ====
section
/-! DEFINITION. The frame of the memory words: addresses (R317), checks before any access (R319, R255), translation of the lanes (R320,
R322), the side log (R322, R451), releases (R278, R288, R289) and acquires, and the acts of one lane on one location. -/
namespace Sys2Proof.Machine

/-- A signed 16-bit offset. -/
def soff (o : BitVec 16) : Int := o.toInt
/-- Lane l's global address (R317). -/
def gAddr (s : State) (a : Opnd) (off : BitVec 16) (l : Nat) : Nat := (((rdOp s a l).toNat : Int) + soff off).emod (2 ^ 64 : Nat) |>.toNat
/-- Lane l's scratchpad address (R317). -/
def spAddr (s : State) (a : Opnd) (off : BitVec 16) (l : Nat) : Nat := ((((rdOp s a l).toNat % 2 ^ 32 : Nat) : Int) + soff off).emod (2 ^ 32 : Nat) |>.toNat

/-! Checks (R319). -/

/-- A failed check: the order of the check, the code, DETAIL. -/
abbrev Fail := Nat × Nat × Nat

/-- The checks of a global access of n bytes. -/
def gCheck (n a : Nat) : Option Fail :=
  if a % n ≠ 0 then some (1, MISALIGN, n) else if !canonical a then some (2, PROTECTION, 0) else none

/-- Where a scratchpad access lands: a core and an offset, a failed check, or a wait for a saved peer (R255, R258). -/
inductive SpAns where
  | at_ (core off : Nat)
  | fail (f : Fail)
  | hold
  deriving DecidableEq, Repr

/-- The cases of R255 for n bytes of a team. -/
def spRange (s : State) (t : Team) (n a : Nat) : SpAns :=
  let pos := a / 2 ^ 21 % 8
  let off := a % 2 ^ 21
  let inside (x : Team) : Bool := decide (x.off ≤ off) && decide (off + n ≤ x.off + x.bytes)
  if a / 2 ^ 24 ≠ 0 ∨ pos = 5 ∨ pos = 6 ∨ 0x180000 ≤ off then .fail (3, PROTECTION, 0)
  else if pos = 7 ∨ pos = posOf t.core then (if inside t then .at_ t.core off else .fail (3, PROTECTION, 0))
  else
    match mget Peer.unbound t.peers pos with
    | .unbound | .gone => .fail (4, PEER_GONE, pos)
    | .team u =>
      let x := s.team u
      if x.gone then .fail (4, PEER_GONE, pos)
      else if x.saved then .hold
      else if inside x then .at_ (peerCore t.core pos) off
      else .fail (3, PROTECTION, 0)
/-- The checks of one lane's scratchpad access of n bytes (R319). -/
def spCheck (s : State) (t : Team) (n a : Nat) : SpAns := if a % n ≠ 0 then .fail (1, MISALIGN, n) else spRange s t n a

/-- The failure of the lowest failing lane, with the lanes that fail the same check (R319). -/
def firstFail (fs : List (Nat × Option Fail)) : Option (Nat × Fail × Word32) :=
  match fs.find? fun f => f.2.isSome with
  | some (l, some f) => some (l, f, maskOf ((fs.filter fun g => match g.2 with
      | some x => x.1 == f.1 && x.2.1 == f.2.1
      | none => false).map Prod.fst))
  | _ => none
/-- Raise it. -/
def raiseFail (s : State) (addr : Nat → Nat) (fs : List (Nat × Option Fail)) : Res :=
  match firstFail fs with
  | some (l, f, m) => .error (fatal s f.2.1 f.2.2 (addr l) m)
  | none => .ok s

/-! Ordering. -/

/-- ORDER releases; ORDER acquires (R277). -/
def releases (o : Nat) : Bool := o == 2 || o == 3 || o == 4
def acquires (o : Nat) : Bool := o == 1 || o == 3 || o == 4
/-- Of a group's accesses on a stream that were issued before an order number: none is left in the side log, among its pushes or its peer
accesses, or to be performed late; nor any late access of another group that happens before what the group does now (R278, R279, R288, R289). -/
def performed (s : State) (gh stream id : Nat) : Bool :=
  let g := s.grp gh
  let c := s.core (s.team g.team).core
  (c.slog.all fun e => e.gh != gh || e.stream != stream || decide (id ≤ e.id)) && (g.pushes.all fun p => p.stream != stream || decide (id ≤ p.id)) &&
  (s.io.peerOut.all fun p => p.gh != gh || p.stream != stream || decide (id ≤ p.id)) &&
  c.late.all fun w => ((w.gh != gh || w.m.strm != stream) && !w.sync.contains gh) || decide (id ≤ w.m.id)
/-- What a release on a stream of a group, issued at an order number, waits for (R278, R288, R289): the group's earlier commands, its pushes,
side-log entries and peer accesses. -/
def relReady (s : State) (gh stream id : Nat) : Bool :=
  let g := s.grp gh
  let c := s.core (s.team g.team).core
  (c.cq.all fun q => q.gh != gh || q.f.stream != stream || decide (id ≤ q.id)) &&
  (c.mq.all fun q => q.gh != gh || q.stream != stream || decide (id ≤ q.id)) && performed s gh stream id
/-- What a release on every stream waits for (R290). -/
def relReadyAll (s : State) (gh : Nat) : Bool := (List.range 16).all fun st => relReady s gh st s.seq
/-- An acquire that has retired into the side log, or gone out to a peer, is not performed yet: later accesses of its stream wait for it
(R278). -/
def acquirePending (s : State) (gh stream : Nat) : Bool :=
  ((s.core (s.team (s.grp gh).team).core).slog.any fun e => e.gh == gh && e.stream == stream && acquires e.order) ||
  s.io.peerOut.any fun p => p.gh == gh && p.stream == stream && p.acq
/-- The group has accesses left that its words have issued and that are not performed yet (R274). -/
def lateWords (s : State) (gh : Nat) : Bool := (s.core (s.team (s.grp gh).team).core).late.any fun w => w.gh == gh
/-- An acquire on a core at DIE scope or wider discards the core's read-only lines (R267). -/
def acquiredOn (s : State) (core order scope : Nat) : State :=
  if acquires order && decide (3 ≤ scope) then s.setCore core { s.core core with ro := [] } else s
/-- An acquire of a group at a scope synchronises with a scratchpad release of another at a scope: each scope instance contains the other (R285). -/
def spSyncs (gh scope : Nat) (r : Nat × Nat) : Bool := r.1 == gh || (r.2 != 0 && scope != 0 && r.1 / 32 == gh / 32)
/-- A late access that a scratchpad release passed happens before what an acquiring group does from now on (R279, R285). -/
def syncLate (s : State) (scope : Nat) : State :=
  let hit (w : LateW) : Bool := w.pass.any (spSyncs s.cur.gh scope) && !w.sync.contains s.cur.gh
  if s.cc.late.any hit then
    s.setCore s.ct.core { s.cc with late := s.cc.late.map fun w => if hit w then { w with sync := s.cur.gh :: w.sync } else w }
  else s
/-- An acquire of the executing word. -/
def acquired (s : State) (order scope : Nat) : State :=
  let s1 := acquiredOn s s.ct.core order scope
  if acquires order then syncLate s1 scope else s1
/-- The agent of an access (R272): its lane, or 32 for the split as a whole. -/
def agentOf (sw : Bool) (l : Nat) : Nat := if sw then 32 else l
/-- A release fence on a stream at a scope: the next store of each of some agents there is a release (R280). -/
def fenceRelease (s : State) (scope : Nat) (agents streams : List Nat) : State :=
  s.setCg { s.cg with frel := streams.foldl (fun m st => agents.foldl (fun m l => mset 0 m (st * 33 + l) (scope + 1)) m) s.cg.frel }
/-- A store of an agent uses up a release fence before it (R280). -/
def fenceUsed (s : State) (gh stream agent : Nat) : State :=
  let g := s.grp gh
  s.setGrp gh { g with frel := mset 0 g.frel (stream * 33 + agent) 0 }
/-- Releases of a group on a stream, at some scopes, have been performed on a line that a core owns: those narrower than DEV are recorded at
its home (R284, R302). -/
def noteNarrow (s : State) (gh stream line core : Nat) (scopes : List Nat) : State :=
  let e := s.dirE line
  let new := ((scopes.filter (· < 4)).map fun sc => (gh, stream, sc)).filter fun r => !e.nrels.contains r
  if e.owner == some core then s.setDirE line { e with nrels := e.nrels ++ new } else s
/-- The scope of the release that a fence makes of an agent's next store (R280). -/
def fenceScope (g : Group) (stream agent : Nat) : Option Nat := match mget 0 g.frel (stream * 33 + agent) with
  | 0 => none
  | n + 1 => some n
/-- A store of an agent has been performed in its L1: it is a release by its own ORDER, or by a fence before it, which it uses up (R280, R284). -/
def noteRelease (s : State) (gh stream agent line core order scope : Nat) : State :=
  let rels := (if releases order then [scope] else []) ++ (fenceScope (s.grp gh) stream agent).toList
  fenceUsed (noteNarrow s gh stream line core rels) gh stream agent

/-! Translation of the lanes. -/

/-- A pass over the lanes of a memory word: aborts to make, whether a lane waits, a fatal fault met. -/
structure MPass where
  s    : State
  m    : MemW
  ab   : List AbortReq
  wait : Bool
  bad  : Option (Nat × Nat × Nat × Word32)
  deriving DecidableEq, Repr

def MPass.done (p : MPass) (l : Nat) : MPass := { p with m := { p.m with got := p.m.got ||| (1#32 <<< l) } }
def MPass.waits (p : MPass) (s : State) : MPass := { p with s := s, wait := true }
def MPass.abort (p : MPass) (l code detail : Nat) : MPass := { p with ab := p.ab ++ [(l, code, detail)] }
def MPass.fails (p : MPass) (code detail addr l : Nat) : MPass :=
  { p with bad := some (match p.bad with
    | none => (code, detail, addr, 1#32 <<< l)
    | some (c, d, a, ls) => (c, d, a, if c = code ∧ d = detail then ls ||| (1#32 <<< l) else ls)) }
def MPass.val (p : MPass) (k l : Nat) (x : Word64) : MPass := { p with m := { p.m with vals := mset 0 p.m.vals (k * 32 + l) x } }

/-- The lanes that have not acted. -/
def MemW.rest (m : MemW) : List Nat := lanesOf (m.act &&& ~~~m.got)
def MemW.va (m : MemW) (l : Nat) : Nat := mget 0 m.addr l

/-- The PROTECTION of the lowest lane whose page refuses the access (R320, R429, R434). -/
def protFail (m : MemW) (xs : List (Nat × XRes)) : Option (Nat × Nat × Word32) :=
  match xs.find? fun x => match x.2 with | .prot _ => true | _ => false with
  | some (l, .prot d) => some (d, m.va l, maskOf ((xs.filter fun x => x.2 == .prot d).map Prod.fst))
  | _ => none

/-- Ask for the pages that lanes miss (R322, R428, R430). -/
def askPages (s : State) (c : Nat) (m : MemW) (write : Bool) (xs : List (Nat × XRes)) : State :=
  xs.foldl (fun s x => match x.2 with
    | .miss => askAts s c s.ct.core (m.va x.1) write
    | .unmapped => askPri s c s.ct.core (m.va x.1) write
    | _ => s) s

/-- Pages that lanes miss and that the core has not asked for. -/
def freshPages (s : State) (c : Nat) (m : MemW) (xs : List (Nat × XRes)) : List Nat :=
  ((xs.filterMap fun x => if x.2 == .miss then some (pageOf (m.va x.1)) else none).eraseDups).filter fun p =>
    !s.io.atsWait.any fun q => q.ctx == c && q.core == s.ct.core && q.page == p
/-- The word's record of its pages: one found unmapped, and each time it is asked for after that (R430). -/
def noteMisses (m : MemW) (xs : List (Nat × XRes)) (fresh : List Nat) : MemW :=
  let a := xs.foldl (fun a x => if x.2 == .unmapped then mset 0 a (pageOf (m.va x.1)) 1 else a) m.again
  { m with again := fresh.foldl (fun a p => if mget 0 a p = 0 then a else mset 0 a p (mget 0 a p + 1)) a }
/-- Lanes whose page has left the caches again, four times in a row since the host's Success, before the word performed: the first time it is
asked for after the Success fills it (R430; DEDUCED, log 75). -/
def evicted (m : MemW) (fresh : List Nat) : List Nat :=
  m.rest.filter fun l => fresh.contains (pageOf (m.va l)) && decide (5 ≤ mget 0 m.again (pageOf (m.va l)))

/-- The word keeps its operands and is tried again. -/
def keepMem (s : State) (m : MemW) (unm : Bool) : State :=
  rewind (s.setSp { s.sp with mem := some m, pmask := if unm then m.got else s.sp.pmask })

/-- A word that may not reach a peer's memory meets PROTECTION there, except in a lane in a transaction, which aborts (R509). -/
def notPeer (s : State) (np : Bool) (l : Nat) (r : XRes) : XRes := match r with
  | .hit loc => if np && isPeer loc && !(txOf s.cg l).active then .prot 0 else r
  | _ => r

/-- One try of a memory word: the lanes whose pages are mapped act in increasing order; the others wait, or retire into the side log; when
every lane has acted the word finishes (R320 to R323). sw: the word's one access belongs to the whole split; a fault of it names the lanes of
all (none for an S-word). A lane that meets poison ends the word: no later lane acts (R444, R455). -/
def memDrive (s : State) (sw : Bool) (all : Word32) (np : Bool) (m : MemW) (write : Bool) (act : MPass → Nat → Nat → MPass)
    (log : Option (State → MemW → List Nat → Option State)) (fin : State → MemW → Res) : Res :=
  let c := s.ct.ctx
  let core := s.ct.core
  let msk (w : Word32) : Word32 := if sw then all else w
  let xs := m.rest.map fun l => (l, notPeer s np l (xlate s c core (m.va l) write))
  match protFail m xs with
  | some (d, a, ls) => .error (fatal s PROTECTION d a (msk ls))
  | none =>
    let un := (xs.filter fun x => x.2 == .unmapped).map Prod.fst
    match un.find? fun l => (denied s c (m.va l)).isSome with
    | some l =>
      let d := denied s c (m.va l)
      .error (fatal s TRANSLATION_DENIED (d.getD 0) (m.va l) (msk (maskOf (un.filter fun k => denied s c (m.va k) == d))))
    | none =>
      let fresh := freshPages s c m xs
      match evicted m fresh with
      | l :: ls => .error (fatal s TRANSLATION_DENIED 2 (m.va l) (msk (maskOf ((l :: ls).filter fun k => pageOf (m.va k) == pageOf (m.va l)))))
      | [] =>
      let miss := xs.any fun x => x.2 == .miss
      -- permissions come with the translations: no lane acts while one of them is still asked for (R320)
      let p := (if miss then [] else xs).foldl (fun (p : MPass) x => match x.2 with
        | .hit loc => if inMask p.m.got x.1 || (write && p.bad.isSome) then p else act p x.1 loc
        | _ => p) ⟨askPages s c m write xs, noteMisses m xs fresh, [], miss, none⟩
      match p.bad with
      | some (code, d, a, ls) => .error (fatal p.s code d a (msk ls))
      | none => do
        let abm := maskOf (p.ab.map fun r => r.1)
        let m1 := { p.m with act := p.m.act &&& ~~~abm }
        let s1 ← abortLanes p.s p.s.cur.gh p.s.cur.sp false p.ab
        if p.s.sp.mask &&& ~~~abm = 0 then .error (dropPend s1 s1.cur.gh m.id)
        else
          let lane (l : Nat) : Bool := inMask m1.act l
          let un1 := if miss then [] else un.filter lane
          let txs := if sw then [] else un1.filter fun l => (txOf s1.cg l).active
          let r := match log with
            | none => none
            | some f => if un1.isEmpty || !txs.isEmpty then none else f s1 m1 un1
          let s2 := r.getD s1
          let m2 := if r.isSome then { m1 with got := m1.got ||| maskOf un1 } else m1
          if m2.rest.isEmpty then
            fin (s2.setSp { s2.sp with mem := none, pmask := 0 }) m2
          else .error (keepMem s2 m2 (!un1.isEmpty && r.isNone))

/-- A word that faults on nothing (R322, R329, R330): each lane whose address answers acts or waits; one whose page is only absent from the
caches waits for ATS; any other is left out. look: the translation of the lane's address. -/
def quietDrive (s : State) (m : MemW) (look : State → Nat → XRes) (act : MPass → Nat → Nat → MPass) : Res :=
  let p := m.rest.foldl (fun (p : MPass) l => match look p.s (m.va l) with
    | .hit loc => if isPeer loc then p.done l else act p l loc
    | .miss => p.waits (askAts p.s p.s.ct.ctx p.s.ct.core (m.va l) false)
    | _ => p.done l) ⟨s, m, [], false, none⟩
  if p.m.rest.isEmpty then .ok (p.s.setSp { p.s.sp with mem := none, pmask := 0 }) else .error (keepMem p.s p.m false)

/-! The side log (R322, R451). -/

/-- Virtual cells of n bytes. -/
def vcells (va : Nat) (n v : Nat) : List Host.Cell := cellsOf va (toBytes n v)
/-- Bytes of a word still to be performed meet n bytes at an address: global ones by virtual address, those of scratchpads by offset. -/
def LateW.meets (w : LateW) (sp : Bool) (va n : Nat) : Bool :=
  let at_ (a : Nat) : Nat := if sp then a % 2 ^ 21 else a
  w.m.sp == sp && w.m.rest.any fun l => decide (at_ (w.m.va l) < at_ va + n) && decide (at_ va < at_ (w.m.va l) + formBytes w.ty w.form)
/-- Earlier accesses of the group on the stream, before an order number, to some of n bytes are still to be performed (R275). -/
def lateHolds (s : State) (gh stream id : Nat) (sp : Bool) (va n : Nat) : Bool :=
  s.cc.late.any fun w => w.gh == gh && w.m.strm == stream && decide (w.m.id < id) && w.meets sp va n
/-- An unreplayed entry of the group on a stream, of a word issued before an order number, writes some of n bytes at an address (R289). -/
def logMeets (c : CoreSt) (gh stream id va n : Nat) : Bool :=
  c.slog.any fun e => e.gh == gh && e.stream == stream && decide (e.id ≤ id) && e.bytes.any fun b => decide (va ≤ b.1) && decide (b.1 < va + n)
/-- Such an entry, or an earlier access to the bytes that is still to be performed (R275, R289). -/
def logHolds (s : State) (gh stream id va n : Nat) : Bool := logMeets s.cc gh stream id va n || lateHolds s gh stream id false va n
/-- Entries enter the log where it has room for all of them (256, R451). -/
def logAll (s : State) (es : List SEnt) : Option State :=
  if s.cc.slog.length + es.length ≤ 256 then some (s.setCore s.ct.core { s.cc with slog := s.cc.slog ++ es }) else none

/-! The acts of one lane. -/

/-- A peer access of a group: of a word or a command, by its order number, on a stream, from an address of some lanes; a fault of it names the
place o (R446). -/
def peerReq (s : State) (id gh stream va loc : Nat) (mask : Word32) (o : FaultAt) : PeerOut :=
  let c := (s.team (s.grp gh).team).ctx
  ⟨id, gh, stream, some c, pasidOf s c, va, mask, o, loc, false, false, []⟩
/-- It goes out; it is unacknowledged until its response (R508, R509). -/
def peerSay (s : State) (p : PeerOut) (m : OutMsg) : State :=
  let s1 := (s.say m).tick
  { s1.draw with io := { s1.io with peerOut := s1.io.peerOut ++ [p] } }
/-- A write of bytes, some units of which are poison (R454). -/
def peerPut (s : State) (p : PeerOut) (bs : List Byte) (pois : List Nat) : State := peerSay s p (.peer true p.loc bs pois)
/-- A peer access of a lane of the executing word; of a split's one access the record names the lanes for which it stands (R446). -/
def lanePeer (s : State) (sw : Bool) (m : MemW) (l loc : Nat) : PeerOut :=
  peerReq s m.id s.cur.gh m.strm (m.va l) loc (if sw then lo32 m.ctl else 1#32 <<< l) (wordPlace s)
/-- The scope at which an access acts: SYS where a lane of it reaches a peer's memory (R327). -/
def actScope (s : State) (m : MemW) (write : Bool) (scope : Nat) : Nat :=
  if (lanesOf m.act).any fun l => match xlate s s.ct.ctx s.ct.core (m.va l) write with
    | .hit loc => isPeer loc
    | _ => false
  then 5 else scope

/-- The value of n bytes on the read-only path: as now, or as at some time since the core filled the line, which it does from the home
(R262, R265, R267). -/
def roRead (s : State) (core loc n : Nat) (a : Acc) : State × Nat :=
  let c := s.core core
  let line := lineOf loc
  match c.ro.find? (·.line == line) with
  | none =>
    let s1 := l2Access s line a.cls a.prio a.bypass
    (s1.setCore core { s1.core core with ro := ⟨line, []⟩ :: c.ro }, s.rdNat loc n)
  | some r =>
    let k := Config.freeNat s.free % (r.old.length + 1)
    let past := r.old.take k
    let byte (a : Nat) : Byte := past.foldl (fun b cells => match cells.find? (·.1 == a) with
      | some x => x.2
      | none => b) (s.rdByte a)
    (s.draw, ofBytes ((List.range n).map fun i => byte (loc + i)))
/-- n bytes as a core's copy gives them are poison: marked so, in this copy alone, or the core was given the line from a poisoned entry (R313, R453,
R454). -/
def copyPoison (s : State) (core loc n : Nat) (ro : Bool) : Bool :=
  let e := s.dirE (lineOf loc)
  s.isPoison loc n || e.taint.contains core || (ro && e.psn) ||
  (!ro && (l1Find (s.core core) (lineOf loc)).any fun x => x.pois.any fun u => decide (16 * u < loc + n) && decide (loc < 16 * u + 16))

/-- What stores to a line ask of the L2, as one number: bit 0 set, then the highest priority, the class of the first, and whether all of them bypass
it (R262, R265). -/
def joinAttr (n : Nat) (a : Acc) : Nat :=
  let pack (p c : Nat) (b : Bool) : Nat := 1 + 2 * (p + 4 * (c + 4 * bbit b 0))
  if n = 0 then pack a.prio a.cls a.bypass
  else if a.bypass then n
  else if n / 32 % 2 = 1 then pack a.prio a.cls false
  else pack (max (n / 2 % 4) a.prio) (n / 8 % 4) false
/-- The access of a commit to a line of its write set (R262, R265, R344). -/
def commitAcc (n st : Nat) : Acc := ⟨n / 2 % 4, n / 8 % 4, n / 32 % 2 == 1, true, st, [], true⟩

/-- A lane's transactional access takes its line: limits, pins, locks (R342, R347). none: it aborts with a detail. -/
def txLine (s : State) (gh l core loc : Nat) (write : Bool) (a : Acc) : Except Nat LineAns :=
  let t := txOf (s.grp gh) l
  let line := lineOf loc
  let add (ls : List Nat) : List Nat := if ls.contains line then ls else ls ++ [line]
  if write && decide (8 < (add t.wlines).length) || !write && decide (16 < (add t.rlines).length) then .error 0
  else
    let note (s : State) : State :=
      let g := s.grp gh
      let t := txOf g l
      s.setGrp gh (setTx g l (if write then { t with wlines := add t.wlines, wattr := mset 0 t.wattr line (joinAttr (mget 0 t.wattr line) a) }
        else { t with rlines := add t.rlines }))
    if t.irrev then
      .ok (match homeAccess s core line loc a (some (gh, l)) with
        | .ready s1 => .ready (note s1)
        | r => r)
    else if write then
      (match if (l1Find (s.core core) line).any (·.way) || (pinnedLines s core).contains line then WayAns.free s else makeWay s core line with
       | .pinned => .error 1
       | .wait => .ok (.wait s)
       | .free s1 => .ok (.ready (note s1)))
    else
      match if readsLocked s line (some (gh, l)) then homeAccess s core line loc a (some (gh, l)) else lineAccess s core line false a with
      | .home _ => .error 1
      | .ready s1 => .ok (.ready (note s1))
      | r => .ok r

/-- A transactional read: the lane's own buffered bytes, else memory, whose bytes are recorded (R342). -/
def txRead (s : State) (gh l loc n : Nat) : State × Nat :=
  let g := s.grp gh
  let t := txOf g l
  let byte (a : Nat) : Byte := match t.wbytes.find? (·.1 == a) with
    | some x => x.2
    | none => s.rdByte a
  let new := ((List.range n).map (loc + ·)).filter fun a => !(t.wbytes.any (·.1 == a)) && !(t.rbytes.any (·.1 == a))
  (s.setGrp gh (setTx g l { t with rbytes := t.rbytes ++ new.map fun a => (a, s.rdByte a) }), ofBytes ((List.range n).map fun i => byte (loc + i)))
/-- A transactional store: buffered (R342). -/
def txWrite (s : State) (gh l : Nat) (cells : List Host.Cell) : State :=
  let g := s.grp gh
  let t := txOf g l
  s.setGrp gh (setTx g l { t with wbytes := (t.wbytes.filter fun b => !(cells.any (·.1 == b.1))) ++ cells })

/-- The access attributes of an address under a hint (R263, R265). -/
def accOf (s : State) (c va loc n hint order stream : Nat) : Acc :=
  let w := attrWin s c va
  ⟨hintPrio hint w.1, w.2, hintBypass hint w.1, acquires order, stream, (List.range n).map (loc + ·), true⟩

end Sys2Proof.Machine
end

