-- ==== Sys2Proof/Machine/Mem.lean ====
section
/-! DEFINITION. Loads, stores and push stores to global memory, scalar loads and stores, prefetch, drop and fences (R315 to R323, R328 to R331,
R336). -/
namespace Sys2Proof.Machine

/-! One lane. -/

/-- A lane's loaded bytes enter its results; bad: they are poison (R145, R148, R455). -/
def ldPut (t : Ty) (form : Nat) (p : MPass) (l v : Nat) (bad : Bool) : MPass :=
  if bad then p.fails POISON 0 (p.m.va l) l
  else
    let r := loadForm t form v
    let q := ((p.val 0 l r.1).val 1 l r.2.1).done l
    if r.2.2 then { q with m := { q.m with nai := q.m.nai ||| (1#32 <<< l) } } else q
/-- Where n bytes of a load of a lane come from once they are at hand: the state after the access, the value, whether it is poison (R266, R267,
R301). -/
def ldAt (s : State) (own : Nat × Nat) (core loc n : Nat) (ro : Bool) (acc : Acc) : Except State (State × Nat × Bool) :=
  let line := lineOf loc
  if ro then
    match hostWait s core loc false with
    | some s1 => .error s1
    | none =>
      if lockHolds s line (some own) && !((s.core core).ro.any (·.line == line)) then .error s
      else let r := roRead s core loc n acc; .ok (r.1, r.2, copyPoison s core loc n true)
  else
    match if readsLocked s line (some own) then .home s else lineAccess s core line false acc with
    | .ready s1 => .ok (s1, s1.rdNat loc n, copyPoison s1 core loc n false)
    | .wait s1 => .error s1
    | .home s1 =>
      match homeAccess s1 core line loc acc (some own) with
      | .ready s2 => .ok (s2, s2.rdNat loc n, s2.isPoison loc n)
      | .wait s2 => .error s2
      | .home s2 => .error s2
/-- A load outside a transaction. -/
def ldPlain (t : Ty) (x : MemX) (p : MPass) (l loc : Nat) : MPass :=
  let s := p.s
  let n := formBytes t x.form
  let va := p.m.va l
  if logHolds s s.cur.gh x.stream p.m.id va n then p.waits s
  else if isPeer loc then
    let s1 := peerSay s { lanePeer s p.m.sw p.m l loc with load := true, acq := acquires x.order } (.peer false loc [] [])
    ldPut t x.form { p with s := s1 } l (s.rdNat loc n) (s.isPoison loc n)
  else
    match ldAt s (s.cur.gh, l) s.ct.core loc n (x.hint == 1) (accOf s s.ct.ctx va loc n x.hint x.order x.stream) with
    | .error s1 => p.waits s1
    | .ok (s1, v, bad) => ldPut t x.form { p with s := s1 } l v bad
/-- A lane of ldg: transactional where the lane is in a transaction (R341, R342). -/
def ldLane (t : Ty) (x : MemX) (p : MPass) (l loc : Nat) : MPass :=
  let s := p.s
  let n := formBytes t x.form
  let tx := txOf s.cg l
  if tx.active then
    if x.order ≠ 0 ∨ x.stream ≠ tx.stream ∨ isPeer loc then p.abort l 5 0
    else if logHolds s s.cur.gh x.stream p.m.id (p.m.va l) n then p.waits s
    else
      match txLine s s.cur.gh l s.ct.core loc false (accOf s s.ct.ctx (p.m.va l) loc n (if x.hint = 1 then 0 else x.hint) 0 x.stream) with
      | .error d => p.abort l 3 d
      | .ok (.ready s1) => 
        let r := txRead s1 s1.cur.gh l loc n
        ldPut t x.form { p with s := r.1 } l r.2 (copyPoison s1 s1.ct.core loc n false)
      | .ok (.wait s1) => p.waits s1
      | .ok (.home s1) => p.waits s1
  else ldPlain t x p l loc

/-- Write cells of an agent of a group where the line or the home is ready (R266, R280, R284, R301). -/
def stAt (s : State) (gh agent core loc : Nat) (x : MemX) (acc : Acc) (bs : List Byte) : Except State State :=
  let line := lineOf loc
  match lineAccess s core line true acc with
  | .ready s1 => .ok (noteRelease (s1.perform (cellsOf loc bs)) gh x.stream agent line core x.order x.scope)
  | .wait s1 => .error s1
  | .home s1 =>
    match homeAccess s1 core line loc acc none with
    | .ready s2 => .ok (fenceUsed (s2.perform (cellsOf loc bs)) gh x.stream agent)
    | .wait s2 => .error s2
    | .home s2 => .error s2
/-- A store outside a transaction; sw: it is the split's (R272, R509). -/
def stPlain (sw : Bool) (x : MemX) (p : MPass) (l loc : Nat) (bs : List Byte) : MPass :=
  let s := p.s
  let va := p.m.va l
  if logHolds s s.cur.gh x.stream p.m.id va bs.length then p.waits s
  else if isPeer loc then ({ p with s := fenceUsed (peerPut s (lanePeer s sw p.m l loc) bs []) s.cur.gh x.stream (agentOf sw l) }).done l
  else
    match stAt s s.cur.gh (agentOf sw l) s.ct.core loc x (accOf s s.ct.ctx va loc bs.length x.hint x.order x.stream) bs with
    | .ok s1 => ({ p with s := s1 }).done l
    | .error s1 => p.waits s1
/-- The bytes a lane stores, and whether they saturated (R145, R148). -/
def stBytes (t : Ty) (form : Nat) (m : MemW) (l : Nat) : List Byte × Bool :=
  let r := storeForm t form m.nrm (mget 0 m.d0 l) (mget 0 m.d1 l)
  (toBytes (formBytes t form) r.1, r.2)
/-- A lane of stg (R341, R342). -/
def stLane (t : Ty) (x : MemX) (p : MPass) (l loc : Nat) : MPass :=
  let s := p.s
  let bs := (stBytes t x.form p.m l).1
  let tx := txOf s.cg l
  if tx.active then
    if x.order ≠ 0 ∨ x.stream ≠ tx.stream ∨ isPeer loc then p.abort l 5 0
    else if logHolds s s.cur.gh x.stream p.m.id (p.m.va l) bs.length then p.waits s
    else
      match txLine s s.cur.gh l s.ct.core loc true (accOf s s.ct.ctx (p.m.va l) loc bs.length x.hint 0 x.stream) with
      | .error d => p.abort l 3 d
      | .ok (.ready s1) => ({ p with s := txWrite s1 s1.cur.gh l (cellsOf loc bs) }).done l
      | .ok (.wait s1) => p.waits s1
      | .ok (.home s1) => p.waits s1
  else stPlain false x p l loc bs

/-! The operands at issue. -/

/-- The operands of a memory word, read at issue (R317); sp, wr: it accesses scratchpads, it writes. -/
def memOps (s : State) (sp wr : Bool) (strm : Nat) (act : Word32) (addr : Nat → Nat) (d0 d1 c0 c1 : Nat → Word64) (ctl : Word64) : MemW :=
  let f (g : Nat → Word64) : AMap Word64 := msetAll 0 [] (vlanes act g)
  ⟨s.seq, strm, act, msetAll 0 [] (vlanes act addr), f d0, f d1, f c0, f c1, ctl, s.cg.nrm, 0, [], 0, sp, wr, false, []⟩
/-- No operand. -/
def noOp (_ : Nat) : Word64 := 0
/-- A data operand's elements: the even and the odd register of a pair for .x64. -/
def data0 (s : State) (t : Ty) (b : Opnd) (l : Nat) : Word64 := if t = .x64 then rdOpLo s b l else rdOp s b l
def data1 (s : State) (t : Ty) (b : Opnd) (l : Nat) : Word64 := if t = .x64 then rdOpHi s b l else 0

/-- A memory word that has issued goes on; a new one reads its operands and makes its checks. -/
def memStart (s : State) (mk : State → Except State (State × MemW)) : Except State (State × MemW) :=
  match s.sp.mem with
  | some m => .ok (s, if s.cur.isV then { m with act := m.act &&& s.sp.mask } else m)
  | none => mk s

/-- The counter of a memory word: its class, its N bit, the registers and the scalars of its results. -/
abbrev Counted := Nat × Bool × List Nat × List Nat
/-- A counted memory word: a new one waits while its counter is full, and raises it at issue (R94). -/
def memCounted (s : State) (k : Counted) (mk : State → Except State (State × MemW)) : Except State (State × MemW) :=
  memStart s fun s =>
    if !roomCounter s k.1 then .error (retry s)
    else do
      let (s1, m) ← mk s
      .ok (issueCounted s1 k.1 m.id k.2.1 k.2.2.1 k.2.2.2 m.act, m)
/-- The registers of a vector result: a pair for .x64 (R61). -/
def destRegs (t : Ty) (d : Nat) : List Nat := if t = .x64 then [d, d + 1] else [d]

/-- The checks of a global word over its active lanes (R319). -/
def gChecks (s : State) (act : Word32) (n : Nat) (addr : Nat → Nat) : Res :=
  raiseFail s addr ((lanesOf act).map fun l => (l, gCheck n (addr l)))

/-- The results of a load: the elements that its lanes read (R145). -/
def ldResults (t : Ty) (d : Nat) (m : MemW) : List (Nat × LaneVals) :=
  (d, vlanes m.act fun l => mget 0 m.vals l) :: if t = .x64 then [(d + 1, vlanes m.act fun l => mget 0 m.vals (32 + l))] else []

/-- The counter class VMEM, and SMEM (R94). -/
def cVMEM : Nat := 0
def cSMEM : Nat := 1

/-- Lanes in a transaction abort FORBIDDEN at an access with an ORDER or another STREAM, before any check of its address (R341). -/
def forbidMem (s : State) (act : Word32) (x : MemX) : Res :=
  forbidTx s (maskOf ((lanesOf act).filter fun l => x.order != 0 || x.stream != (txOf s.cg l).stream))

/-- A load that issues, or goes on: its counter, its checks, its operands. -/
def ldStart (h : VH) (t : Ty) (x : MemX) (d : Nat) (a : Opnd) (s : State) : Except State (State × MemW) :=
  memCounted s (cVMEM, h.n, destRegs t d, []) fun s => do
    let s ← forbidMem s (active s h) x
    let act := active s h
    let s1 ← vpre s act (opRegs false a) (opLatches false a)
    let s2 ← gChecks s1 act (formBytes t x.form) (gAddr s a x.off)
    .ok (s2, memOps s false false x.stream act (gAddr s a x.off) noOp noOp noOp noOp 0)
/-- ldg (R321). -/
def execLdg (h : VH) (t : Ty) (x : MemX) (d : Nat) (a : Opnd) (s : State) : Out :=
  Res.out do
    let (s1, m) ← ldStart h t x d a s
    memDrive s1 false 0 (x.hint == 1) m false (ldLane t x) none fun s m =>
      let s2 := acquired s x.order (actScope s m false x.scope)
      .ok (finishCounted (s2.setCg (s2.cg.orSts bNAI (lanesOf m.nai))) m.id h.n (ldResults t d m) [])

/-- ORDER and SCOPE with which the accesses of some agents retire into the side log: a release fence before a plain store makes it a release
(R280, R322). -/
def logOrder (g : Group) (x : MemX) (agents : List Nat) : Nat × Nat :=
  match releases x.order, agents.filterMap (fenceScope g x.stream) with
  | false, sc :: more => (if acquires x.order then 3 else 2, more.foldl min sc)
  | _, _ => (x.order, x.scope)
/-- Side-log entries for lanes: one for each line touched, its bytes in lane order (R322); sw: the access is the split's. -/
def logEntries (s : State) (sw : Bool) (x : MemX) (op : List Nat → SOp) (m : MemW) (bytes : Nat → List Byte) (ls : List Nat) : List SEnt :=
  ((ls.map fun l => m.va l / 128).eraseDups).map fun line =>
    let here := ls.filter fun l => m.va l / 128 == line
    let o := logOrder s.cg x (here.map (agentOf sw))
    ⟨m.id, s.cur.gh, x.stream, o.2, o.1, x.hint, op here, here.flatMap fun l => cellsOf (m.va l) (bytes l), []⟩
/-- The lanes' accesses retire into the side log where it has room for all of them. -/
def logLanes (s : State) (sw : Bool) (x : MemX) (op : List Nat → SOp) (m : MemW) (bytes : Nat → List Byte) (ls : List Nat) : Option State :=
  (logAll s (logEntries s sw x op m bytes ls)).map fun s => ls.foldl (fun s l => fenceUsed s s.cur.gh x.stream (agentOf sw l)) s

/-- The store data of a word at issue, checked. -/
def stStart (s : State) (h : VH) (t : Ty) (x : MemX) (a b : Opnd) (ctl : Word64) : Except State (State × MemW) := do
  let s ← forbidMem s (active s h) x
  let act := active s h
  let pair := t == .x64
  let s1 ← vpre s act (opRegs false a ++ opRegs pair b) (opLatches false a ++ opLatches pair b)
  let s2 ← gChecks s1 act (formBytes t x.form) (gAddr s a x.off)
  .ok (s2, memOps s false true x.stream act (gAddr s a x.off) (data0 s t b) (data1 s t b) noOp noOp ctl)
/-- A release waits before it performs (R278). -/
def relWait (s : State) (m : MemW) (x : MemX) (k : Res) : Res :=
  if releases x.order && m.got == 0 && !relReady s s.cur.gh x.stream m.id then .error (keepMem s m false) else k
/-- SAT in the lanes whose data saturated (R148). -/
def satLanes (t : Ty) (form : Nat) (s : State) (m : MemW) : State :=
  s.setCg (s.cg.orSts bSAT ((lanesOf m.act).filter fun l => (stBytes t form m l).2))

/-- stg (R321, R322). -/
def execStg (h : VH) (t : Ty) (x : MemX) (a b : Opnd) (s : State) : Out :=
  Res.out do
    let (s1, m) ← memStart s fun s => stStart s h t x a b 0
    relWait s1 m x (memDrive s1 false 0 false m true (stLane t x)
      (some fun s m ls => logLanes s false x (fun _ => .store) m (fun l => (stBytes t x.form m l).1) ls)
      fun s m => .ok (satLanes t x.form s m))

/-! Push stores (R304, R308, R328). -/

/-- A destination set: none where its form is reserved or a bit that must be zero is set (R328). -/
def destSet (x : Word64) : Option (List Nat) :=
  match fld x 63 62 with
  | 0 => if fld x 61 40 ≠ 0 then none else some (((List.range 4).map fun k => fld x (10 * k + 9) (10 * k)).filter (· != 0x3FF) |>.eraseDups)
  | 1 => if fld x 61 13 ≠ 0 ∨ fld x 5 5 ≠ 0 then none else some (((List.range 5).filter fun p => fld x p p == 1).map fun p => fld x 12 6 * 8 + p)
  | _ => none
/-- A push of a core on a stream, with a destination among some, awaits its PushDone (R308). -/
def pushOut (s : State) (core stream : Nat) (dests : List Nat) : Bool :=
  s.groups.any fun e => e.2.pushes.any fun p => p.core == core && p.stream == stream && p.dests.any (dests.contains ·)
/-- The one Push of a line goes out (R288, R299). -/
def sendPush (s : State) (id gh core stream line : Nat) (dests : List Nat) (cells : List Host.Cell) (pois : List Nat) : State :=
  let g := s.grp gh
  (s.setGrp gh { g with pushes := g.pushes ++ [⟨id, line, core, stream, dests⟩] }).send ⟨line, core, .push stream (s.team g.team).ctx gh id dests cells pois⟩
/-- The lanes left of a word whose addresses lie in a line, with their locations. -/
def lineLanes (s : State) (m : MemW) (line : Nat) : List (Nat × Nat) :=
  m.rest.filterMap fun l => match xlate s s.ct.ctx s.ct.core (m.va l) true with
    | .hit loc => if lineOf loc = line then some (l, loc) else none
    | _ => none
/-- A lane's line: all lanes of the word in it send one Push with the bytes of each in lane order; they wait together (R276, R308, R328). -/
def pushLane (x : MemX) (t : Ty) (dests : List Nat) (p : MPass) (l loc : Nat) : MPass :=
  let s := p.s
  let bytes (k : Nat) : List Byte := (stBytes t x.form p.m k).1
  let ls := (l, loc) :: (lineLanes s p.m (lineOf loc)).filter (·.1 != l)
  if pushOut s s.ct.core x.stream dests || ls.any fun k => logHolds s s.cur.gh x.stream p.m.id (p.m.va k.1) (bytes k.1).length then p.waits s
  else
    let a := accOf s s.ct.ctx (p.m.va l) loc 1 x.hint 0 x.stream
    let cells := ((List.range 32).flatMap fun k => ls.filter (·.1 == k)).flatMap fun k => cellsOf k.2 (bytes k.1)
    ls.foldl (fun p k => { p with s := fenceUsed p.s s.cur.gh x.stream k.1 }.done k.1)
      { p with s := sendPush (l2Access s (lineOf loc) a.cls a.prio a.bypass) p.m.id s.cur.gh s.ct.core x.stream (lineOf loc) dests cells [] }
/-- pst (R328). -/
def execPst (h : VH) (t : Ty) (x : MemX) (a b : Opnd) (c : Nat) (s : State) : Out :=
  Res.out do
    let s0 ← forbidTx s (active s h)
    let (s1, m) ← memStart s0 fun s =>
      if (destSet (s.rS c)).isNone && active s h != 0 then .error (illegalExec s) else stStart s h t x a b (s.rS c)
    let dests := (destSet m.ctl).getD []
    relWait s1 m x (
      if dests.isEmpty then
        memDrive s1 false 0 true m true (fun p l loc => stPlain false x p l loc (stBytes t x.form p.m l).1)
          (some fun s m ls => logLanes s false x (fun _ => .store) m (fun l => (stBytes t x.form m l).1) ls)
          fun s m => .ok (satLanes t x.form s m)
      else
        memDrive s1 false 0 true m true (pushLane x t dests)
          (some fun s m ls => logLanes s false x (fun _ => .push dests) m (fun l => (stBytes t x.form m l).1) ls)
          fun s m => .ok (satLanes t x.form s m))

/-! Prefetch, drop, fences. -/

/-- LATCH_LOST where a latch read lost its value (R66): for words that raise no fault. -/
def latchMark (s : State) (act : Word32) (lat : List Nat) : State :=
  if lat.any (latchLost s) then s.setCg (s.cg.orSts bLATCH_LOST (lanesOf act)) else s
/-- The operands of a word that faults on nothing: its canonical addresses (R329, R330). -/
def quietStart (h : VH) (x : MemX) (a : Opnd) (s : State) : Except State (State × MemW) :=
  let act := active s h
  let ok := maskOf ((lanesOf act).filter fun l => canonical (gAddr s a x.off l))
  .ok (latchMark s act (opLatches false a), memOps s false false x.stream ok (gAddr s a x.off) noOp noOp noOp noOp 0)
/-- A line that is being put back: an access to it stalls until it has left (R301). -/
def L1St.leaving : L1St → Bool
  | .mia | .oia | .eia | .iia => true
  | _ => false
/-- A lane of pfch: its line is requested once it is not being put back, or is in the L1 or on its way, and its priority rises; a line that no way
can take is left (R265, R266, R329). -/
def pfchLane (x : MemX) (p : MPass) (l loc : Nat) : MPass :=
  let s := p.s
  let core := s.ct.core
  let line := lineOf loc
  let acc := { accOf s s.ct.ctx (p.m.va l) loc 1 x.hint 0 x.stream with touch := false }
  match hostWait s core loc false, l1Find (s.core core) line with
  | some s1, _ => p.waits s1
  | none, some y =>
    if y.st.leaving then p.waits s
    else ({ p with s := if y.st.stable then l1Hit s core y y.st false acc
                        else s.setCore core (l1SetLine (s.core core) { y with prio := max y.prio acc.prio }) }).done l
  | none, none =>
    match l1Ask s core line false acc with
    | .wait s1 => if (l1Find (s1.core core) line).isSome then ({ p with s := s1 }).done l else p.waits s1
    | .ready s1 => ({ p with s := s1 }).done l
    | .home s1 => ({ p with s := s1 }).done l
/-- pfch: requests each active lane's line; it waits for translations, host halves and ways, and not for the line (R322, R329). -/
def execPfch (h : VH) (x : MemX) (a : Opnd) (s : State) : Out :=
  Res.out do
    let (s1, m) ← memStart s (quietStart h x a)
    quietDrive s1 m (fun s va => xlate s s.ct.ctx s.ct.core va false) (pfchLane x)
/-- A line becomes evict-first in a core's L1 and in its home L2 (R265, R330). -/
def dropLine (s : State) (core line : Nat) : State :=
  let c := s.core core
  let s1 := s.setCore core { c with l1 := c.l1.map fun y => if y.line = line then { y with prio := 0 } else y }
  let d := homeDie (128 * line)
  s1.setDie d { s1.die d with l2 := (s1.die d).l2.map fun y => if y.line = line then { y with prio := 0 } else y }
/-- Where a mapped address lies, whatever its page permits (R330). -/
def xlateAny (s : State) (c core va : Nat) : XRes :=
  match xEntry s c core va with
  | none => xlate s c core va false
  | some e => match busLoc s (e.map.pa + va % 2 ^ e.map.log2) with
    | some loc => .hit loc
    | none => .prot 3
/-- drop: it waits for the translations of its addresses, and acts where a line is present (R322, R330). -/
def execDrop (h : VH) (x : MemX) (a : Opnd) (s : State) : Out :=
  Res.out do
    let (s1, m) ← memStart s (quietStart h x a)
    quietDrive s1 m (fun s va => xlateAny s s.ct.ctx s.ct.core va) fun p l loc =>
      ({ p with s := dropLine p.s p.s.ct.core (lineOf loc) }).done l

/-- The agents that a fence of the executing split stands for: its lanes, and the split itself (R331). -/
def fenceAgents (s : State) : List Nat := lanesOf s.sp.mask ++ [32]
/-- What a fence leaves on its streams: with a release, the next store of each agent is one (R280); with an acquire, the read-only path is
fresh (R267). -/
def fenced (s : State) (scope order : Nat) (streams : List Nat) : State :=
  acquired (if releases order then fenceRelease s scope (fenceAgents s) streams else s) order scope
/-- fence: a release waits as R278 says, an acquire refreshes the read-only path (R280, R331). -/
def execFence (st scope order : Nat) (s : State) : Out :=
  Res.out do
    let s1 ← forbidTx s s.sp.mask
    if releases order && !relReady s1 s1.cur.gh st s1.seq then .error (retry s1) else .ok (fenced s1 scope order [st])
/-- fencex: over the streams of a mask (R281, R331). A plain fence of one stream orders nothing. -/
def execFencex (scope order : Nat) (mask : BitVec 16) (s : State) : Out :=
  Res.out do
    let s1 ← forbidTx s s.sp.mask
    let sts := (List.range 16).filter fun k => mask.getLsbD k
    let waits := releases order || decide (1 < sts.length)
    if waits && sts.any fun st => !relReady s1 s1.cur.gh st s1.seq then .error (retry s1)
    else .ok (fenced s1 scope order sts)

/-! Scalar loads and stores (R336). -/

/-- The address of a scalar access. -/
def sAddr (s : State) (a : Nat) (i : BitVec 12) : Nat := (((s.rS a).toNat : Int) + i.toInt).emod (2 ^ 64 : Nat) |>.toNat
/-- The operands of a scalar access, checked; it belongs to the whole split. -/
def sStart (wr : Bool) (s : State) (a : Nat) (i : BitVec 12) (x : Word64) : Except State (State × MemW) :=
  match gCheck 8 (sAddr s a i) with
  | some f => .error (fatal s f.2.1 f.2.2 (sAddr s a i) 0)
  | none => .ok (s, { memOps s false wr s.cg.dstrm 1 (fun _ => sAddr s a i) (fun _ => x) noOp noOp noOp 0 with sw := true })
/-- A scalar load that issues, or goes on. -/
def sldStart (d a : Nat) (i : BitVec 12) (s : State) : Except State (State × MemW) :=
  memCounted s (cSMEM, false, [], [d]) fun s => sStart false s a i 0
/-- sld (R336). -/
def execSld (d a : Nat) (i : BitVec 12) (s : State) : Out :=
  Res.out do
    let s0 ← forbidTx s s.sp.mask
    let (s1, m) ← sldStart d a i s0
    memDrive s1 true 0 false m false (ldPlain .b64 ⟨m.strm, 0, 0, 0, 0, 0⟩) none fun s m =>
      .ok (finishCounted s m.id false [] [⟨1, d, mget 0 m.vals 0, false⟩])
/-- sst (R336). -/
def execSst (d a : Nat) (i : BitVec 12) (s : State) : Out :=
  Res.out do
    let s0 ← forbidTx s s.sp.mask
    let (s1, m) ← memStart s0 fun s => sStart true s a i (s.rS d)
    let x : MemX := ⟨m.strm, 0, 0, 0, 0, 0⟩
    memDrive s1 true 0 false m true (fun p l loc => stPlain true x p l loc (stBytes .b64 0 p.m l).1)
      (some fun s m ls => logLanes s true x (fun _ => .store) m (fun l => (stBytes .b64 0 m l).1) ls) fun s _ => .ok s

end Sys2Proof.Machine
end

