-- ==== Sys2Proof/Machine/Scratchpad.lean ====
section
/-! DEFINITION. Scratchpad words: loads and stores (R321), full-empty access (R268, R269, R324). -/
namespace Sys2Proof.Machine

/-- A new scratchpad word reads its operands (R317). -/
def spStart (wr : Bool) (h : VH) (t : Ty) (x : MemX) (a b : Opnd) (s : State) : Except State (State × MemW) := do
  let act := active s h
  let pair := t == .x64
  let s1 ← vpre s act (opRegs false a ++ opRegs pair b) (opLatches false a ++ opLatches pair b)
  .ok (s1, memOps s true wr x.stream act (spAddr s a x.off) (data0 s t b) (data1 s t b) noOp noOp 0)

/-- A scratchpad release did not wait for an access to some of n bytes, and this group has synchronised with the release: the access comes first
(R285). -/
def passHolds (s : State) (n va : Nat) : Bool := s.cc.late.any fun w => w.meets true va n && w.sync.contains s.cur.gh
/-- Earlier accesses to the word's bytes, on its stream or before a release that covers this group, are still to be performed (R275, R285). -/
def spHeld (s : State) (m : MemW) (n : Nat) : Bool :=
  (lanesOf m.act).any fun l => lateHolds s s.cur.gh m.strm m.id true (m.va l) n || passHolds s n (m.va l)
/-- The checks of every lane (R319): a failure is raised; a saved peer holds the split (R258), and so do earlier accesses. -/
def spReady (s : State) (m : MemW) (n : Nat) : Res :=
  let as := (lanesOf m.act).map fun l => (l, spCheck s s.ct n (m.va l))
  do
    let s1 ← raiseFail s m.va (as.map fun x => (x.1, match x.2 with
      | .fail f => some f
      | _ => none))
    if (as.any fun x => x.2 == .hold) || spHeld s m n then .error (keepMem s1 m false) else .ok s1

/-- Where a lane's access lands, once every lane has passed. -/
def spPlace (s : State) (n va : Nat) : Nat × Nat := match spCheck s s.ct n va with
  | .at_ c o => (c, o)
  | _ => (s.ct.core, 0)

/-- The word has all its lanes: it keeps nothing. -/
def memDone (s : State) : State := s.setSp { s.sp with mem := none, pmask := 0 }

/-- POISON of the lanes of a list that would read marked data (R455). -/
def spPoisonCheck (s : State) (m : MemW) (n : Nat) (ls : List Nat) : Res :=
  let bad := ls.filter fun l => let p := spPlace s n (m.va l); (s.core p.1).spPoison p.2 n
  match bad with
  | [] => .ok s
  | l :: _ => .error (fatal s POISON 0 (m.va l) (maskOf bad))

/-- A lane's value as loaded (R145). -/
def spLoad (s : State) (t : Ty) (form core off : Nat) : Word64 × Word64 × Bool :=
  loadForm t form ((s.core core).rdSp off (formBytes t form))

/-- The registers' elements of loaded lanes. -/
def loadRes (t : Ty) (d : Nat) (vs : List (Nat × Word64 × Word64 × Bool)) : List (Nat × LaneVals) :=
  (d, vs.map fun v => (v.1, v.2.1)) :: if t = .x64 then [(d + 1, vs.map fun v => (v.1, v.2.2.1))] else []

/-- A scratchpad load that issues, or goes on. -/
def ldsStart (h : VH) (t : Ty) (x : MemX) (d : Nat) (a : Opnd) (s : State) : Except State (State × MemW) :=
  memCounted s (cVMEM, h.n, destRegs t d, []) (spStart false h t x a .zero)
/-- lds (R321). -/
def execLds (h : VH) (t : Ty) (x : MemX) (d : Nat) (a : Opnd) (s : State) : Out :=
  Res.out do
    let n := formBytes t x.form
    let (s0, m) ← ldsStart h t x d a s
    let s1 ← spReady s0 m n
    let s2 ← spPoisonCheck s1 m n (lanesOf m.act)
    let vs := (lanesOf m.act).map fun l => let p := spPlace s2 n (m.va l); (l, spLoad s2 t x.form p.1 p.2)
    let s3 := acquired (memDone s2) x.order x.scope
    .ok (finishCounted (s3.setCg (s3.cg.orSts bNAI ((vs.filter fun v => v.2.2.2).map Prod.fst))) m.id h.n (loadRes t d vs) [])

/-- The lanes of a store write in increasing lane order (R276). -/
def spWrites (s : State) (t : Ty) (form : Nat) (m : MemW) (fe : Bool) : State :=
  (lanesOf m.act).foldl (fun s l =>
    let p := spPlace s (formBytes t form) (m.va l)
    let c := (s.core p.1).wrSp p.2 (stBytes t form m l).1
    s.setCore p.1 (if fe then c.setFull (p.2 / 16) true else c)) s

/-- Late scratchpad accesses of the group on the stream, and those that happen before by an earlier release. -/
def lateSp (gh stream : Nat) (w : LateW) : Bool := (w.gh == gh && w.m.strm == stream && w.m.sp) || w.sync.contains gh
/-- A scratchpad release narrower than QUIRE orders the earlier scratchpad accesses of its stream for its scope instance alone (R285). -/
def passLate (s : State) (stream scope : Nat) : State :=
  s.setCore s.ct.core { s.cc with late := s.cc.late.map fun w => if lateSp s.cur.gh stream w then { w with pass := (s.cur.gh, scope) :: w.pass } else w }
/-- What such a release waits for: as any release, those accesses apart. -/
def spRelReady (s : State) (stream id scope : Nat) : Bool :=
  let s1 := if scope < 2 then s.setCore s.ct.core { s.cc with late := s.cc.late.filter fun w => !lateSp s.cur.gh stream w } else s
  relReady s1 s.cur.gh stream id

/-- sts (R321). -/
def execSts (h : VH) (t : Ty) (x : MemX) (a b : Opnd) (s : State) : Out :=
  Res.out do
    let (s0, m) ← memStart s (spStart true h t x a b)
    let s1 ← spReady s0 m (formBytes t x.form)
    if releases x.order && !spRelReady s1 x.stream m.id x.scope then .error (keepMem s1 m false)
    else
      let s2 := (lanesOf m.act).foldl (fun s l => fenceUsed s s.cur.gh x.stream l) (spWrites (memDone s1) t x.form m false)
      .ok (satLanes t x.form (if releases x.order && decide (x.scope < 2) then passLate s2 x.stream x.scope else s2) m)

/-- stfe: a release that writes and sets its granules full; it waits for no granule (R268, R290, R324). -/
def execStfe (h : VH) (t : Ty) (x : MemX) (a b : Opnd) (s : State) : Out :=
  Res.out do
    let f ← forbidTx s (active s h)
    let (s0, m) ← memStart f (spStart true h t x a b)
    let s1 ← spReady s0 m (formBytes t x.form)
    if !relReady s1 s1.cur.gh x.stream m.id then .error (keepMem s1 m false)
    else .ok (satLanes t x.form (spWrites (memDone s1) t x.form m true) m)

/-! ldfe. -/

/-- A granule of a core, as one number. -/
def granuleOf (core off : Nat) : Nat := core * 2 ^ 17 + off / 16
/-- The team whose allocation the executing team reaches on a core: itself on its own, else the team of its window (R255, R257). -/
def spTeam (s : State) (core : Nat) : Nat :=
  if core = s.ct.core then s.cg.team
  else match mget Peer.unbound s.ct.peers (posOf core) with
    | .team u => u
    | _ => s.cg.team
/-- The granule is full, and no lane waits on it in a team's allocation (R269). -/
def granuleFree (s : State) (core off : Nat) : Bool :=
  (s.core core).isFull (off / 16) && (s.core core).waits.all fun w => w.granule != granuleOf core off || w.team != spTeam s core

/-- What an ldfe has served so far, by lane. -/
abbrev Served := List (Nat × Word64 × Word64 × Bool)

/-- A lane of ldfe is served at once, or begins to wait (R269). -/
def feLane (take : Bool) (t : Ty) (form d : Nat) (h : VH) (id gh : Nat) (m : MemW) (r : State × Served) (l : Nat) : State × Served :=
  let s := r.1
  let p := spPlace s (formBytes t form) (m.va l)
  let c := s.core p.1
  if granuleFree s p.1 p.2 then
    (if take then s.setCore p.1 (c.setFull (p.2 / 16) false) else s, r.2 ++ [(l, spLoad s t form p.1 p.2)])
  else
    (s.setCore p.1 { c with waits := c.waits ++ [⟨granuleOf p.1 p.2, spTeam s p.1, m.strm, gh, l, p.2, take, t, form, d, h.n, id⟩] }, r.2)

/-- Elements that an ldfe has served: written at once in the D-encoding, added to the pending result and the latch entry in the L-encoding
(R65, R94, R324). -/
def feServed (s : State) (gh id : Nat) (n : Bool) (rs : List (Nat × LaneVals)) : State :=
  let g := s.grp gh
  if (s.team g.team).isL then
    let s1 := s.setGrp gh { g with pend := g.pend.map fun p => if p.id = id then { p with ws := p.ws ++ if n then [] else pws rs } else p }
    rs.foldl (fun s r => fillLatch s gh id r) s1
  else if n then s
  else s.setGrp gh (rs.foldl (fun g r => wrVals g r.1 r.2) g)
/-- Every lane of an ldfe has been served (R94): the result can be written; the counter of the D-encoding falls. -/
def feComplete (s : State) (gh id : Nat) : State :=
  let g := s.grp gh
  if (s.team g.team).isL then s.setGrp gh { g with pend := g.pend.map fun p => if p.id = id then { p with wait := false } else p }
  else dropPend s gh id

/-- The shared meaning of ldfe.keep and ldfe.take (R269, R324). -/
def ldfe (take : Bool) (h : VH) (t : Ty) (x : MemX) (d : Nat) (a : Opnd) (s : State) : Res := do
  let f ← forbidTx s (active s h)
  let n := formBytes t x.form
  let (s0, m) ← memCounted f (cVMEM, h.n, destRegs t d, []) (spStart false h t x a .zero)
  let s1 ← spReady s0 m n
  let s2 ← spPoisonCheck s1 m n ((lanesOf m.act).filter fun l => let p := spPlace s1 n (m.va l); granuleFree s1 p.1 p.2)
  let r := (lanesOf m.act).foldl (feLane take t x.form d h m.id s.cur.gh m) (memDone s2, [])
  let s3 := r.1.setCg (r.1.cg.orSts bNAI ((r.2.filter fun v => v.2.2.2).map Prod.fst))
  if r.2.length < (lanesOf m.act).length then
    let s4 := feServed s3 s3.cur.gh m.id h.n (loadRes t d r.2)
    .ok (s4.setSp { s4.sp with hold := .ldfe })
  else .ok (finishCounted s3 m.id h.n (loadRes t d r.2) [])
/-- ldfe.keep: waits while the granule is empty, then reads; the bit stays (R268, R324). -/
def execLdfeKeep (h : VH) (t : Ty) (x : MemX) (d : Nat) (a : Opnd) (s : State) : Out := Res.out (ldfe false h t x d a s)
/-- ldfe.take: waits while the granule is empty, then reads and clears the bit (R268, R324). -/
def execLdfeTake (h : VH) (t : Ty) (x : MemX) (d : Nat) (a : Opnd) (s : State) : Out := Res.out (ldfe true h t x d a s)

/-- The elements of a lane that is served later (R94, R324). -/
def feResult (s : State) (w : Waiter) (v : Word64 × Word64 × Bool) (last : Bool) : State :=
  let g := s.grp w.gh
  let s1 := feServed (s.setGrp w.gh (if v.2.2 then g.orSt w.lane bNAI else g)) w.gh w.pend w.n (loadRes w.ty w.d [(w.lane, v)])
  if last then feComplete s1 w.gh w.pend else s1

/-- A split whose lanes have all been served continues. -/
def feRelease (s : State) (gh : Nat) : State :=
  let left := s.cores.flatMap fun c => (c.2.waits.filter fun w => w.gh == gh).map fun w => w.lane
  let g := s.grp gh
  s.setGrp gh { g with splits := g.splits.map fun p => match p.hold with
    | .ldfe => if left.any (inMask p.mask) then p else { p with hold := .none, age := 0 }
    | _ => p }

/-- A waiting lane can be served on a core: the team of its allocation is resident there (R258). -/
def feResident (s : State) (w : Waiter) (core : Nat) : Bool :=
  let u := s.team w.team
  u.core == core && !u.saved && !u.gone && !(s.team (s.grp w.gh).team).saved
/-- LDFE_SERVE: the lane that waited first on a full granule is served (R269). -/
def execLdfeServe (core granule : Nat) (s : State) : Out :=
  let c := s.core core
  let k := core * 2 ^ 17 + granule
  match c.waits.find? fun w => w.granule == k && feResident s w core with
  | none => .fault (.notEnabled "LDFE_SERVE")
  | some w =>
    if c.isFull granule then
      let n := formBytes w.ty w.form
      let t := (s.grp w.gh).team
      if c.spPoison w.addr n then
        let g := s.grp w.gh
        let p := (g.splits.find? fun p => inMask p.mask w.lane).getD Split.init
        .next (fatalCtx s (s.team t).ctx (faultAtOf s w.gh p p.fromA p.fromB) POISON 0 (posOf core * 2 ^ 21 + w.addr) (1#32 <<< w.lane))
      else
        let v := spLoad s w.ty w.form core w.addr
        let i := c.waits.findIdx fun w => w.granule == k && feResident s w core
        let c1 := { c with waits := dropAt c.waits i }
        let s1 := s.setCore core (if w.take then c1.setFull granule false else c1)
        let last := s1.cores.all fun c => c.2.waits.all fun x => x.gh != w.gh || x.pend != w.pend
        .next (feRelease (feResult s1 w v last) w.gh)
    else .fault (.notEnabled "LDFE_SERVE")

end Sys2Proof.Machine
end

