-- ==== Sys2Proof/Machine/Atom.lean ====
section
/-! DEFINITION. Atomics (R325 to R327): the operations, their places, and the instruction. -/
namespace Sys2Proof.Machine

/-- An interval combination of two raw values (R133, R134, R325). -/
def atomIvl (t : Ty) (f : Ivl → Ivl → Ivl) (old b : Nat) : Nat :=
  match t with
  | .x64 =>
    let r (x : Nat) : Ivl := ivlBits fp64 (x % 2 ^ 64) (x / 2 ^ 64)
    let p := ivlWrite fp64 (f (r old) (r b))
    p.1 + p.2 * 2 ^ 64
  | _ => (x32Write (f (x32Read (BitVec.ofNat 64 old)) (x32Read (BitVec.ofNat 64 b)))).toNat

/-- The new value of an atomic (R325): values are the raw bytes of the type. -/
def atomNew (t : Ty) (aop old b c : Nat) : Nat :=
  let w := 8 * formBytes t 0
  let ivl : Bool := t == .x32 || t == .x64
  let sg := isSigned t
  match aop with
  | 0 => if ivl then atomIvl t (fun x y => (ivlArith (boundFmt t) .add [x, y]).1) old b else (old + b) % 2 ^ w
  | 1 => minW sg w old b
  | 2 => maxW sg w old b
  | 3 => old &&& b
  | 4 => if ivl then atomIvl t hullI old b else old ||| b
  | 5 => old ^^^ b
  | 6 => b
  | _ => if old = c then b else old

/-- A raw operand value from the elements of a register, or of a register pair. -/
def atomVal (t : Ty) (lo hi : Word64) : Nat := match t with
  | .x64 => lo.toNat + hi.toNat * 2 ^ 64
  | _ => lo.toNat % 2 ^ (8 * formBytes t 0)

/-- The operation is performed at the home: PLACE .home, a line of host memory, or .auto where the core's predictor has the line as contended
(R326). -/
def atomAtHome (s : State) (place core loc : Nat) : Bool := place == 2 || isHost loc || (place == 0 && (s.core core).hot.contains (lineOf loc))

/-- Where the atomic can act now: at the L1 in M, or at the home as sole holder (R326). -/
def atomLine (s : State) (place core loc : Nat) (a : Acc) : LineAns :=
  if atomAtHome s place core loc then homeAccess s core (lineOf loc) loc a none
  else
    match lineAccess s core (lineOf loc) true a with
    | .home s1 => homeAccess s1 core (lineOf loc) loc a none
    | r => r

/-- One lane: reads, modifies and writes its location as one access (R276, R325). sw: the access is the split's; dest: it returns the old
value. -/
def atomLane (sw : Bool) (t : Ty) (x : MemX) (dest : Bool) (p : MPass) (l loc : Nat) : MPass :=
  let s := p.s
  let n := formBytes t 0
  let core := s.ct.core
  let va := p.m.va l
  let b := atomVal t (mget 0 p.m.d0 l) (mget 0 p.m.d1 l)
  let c := atomVal t (mget 0 p.m.c0 l) (mget 0 p.m.c1 l)
  let put (p : MPass) (old : Nat) : MPass := let r := loadForm t 0 old; ((p.val 0 l r.1).val 1 l r.2.1).done l
  if logHolds s s.cur.gh x.stream p.m.id va n then p.waits s
  else if isPeer loc then 
    put { p with s := fenceUsed (peerSay s { lanePeer s sw p.m l loc with load := dest, acq := acquires x.order } (.peerAtom x.form t loc b c false)) s.cur.gh x.stream (agentOf sw l) } (s.rdNat loc n)
  else
    -- no lane writes where the data of one is poison (R455)
    let act (s1 : State) : MPass :=
      let bad := if dest then p.m.rest.filter fun k => match xlate s1 s.ct.ctx core (p.m.va k) true with
        | .hit loc => !isPeer loc && copyPoison s1 core loc n false
        | _ => false
        else []
      if !bad.isEmpty then bad.foldl (fun p k => p.fails POISON 0 (p.m.va k) k) { p with s := s1 }
      else
        let old := s1.rdNat loc n
        let s2 := s1.perform (cellsOf loc (toBytes n (atomNew t x.form old b c)))
        put { p with s := noteRelease s2 s.cur.gh x.stream (agentOf sw l) (lineOf loc) core x.order x.scope } old
    match atomLine s x.hint core loc (accOf s s.ct.ctx va loc n 0 x.order x.stream) with
    | .ready s1 => act s1
    | .wait s1 => p.waits s1
    | .home s1 => p.waits s1

/-- A reduction's faulting lanes retire into the side log, one entry for each line (R322). -/
def atomLog (t : Ty) (x : MemX) (s : State) (m : MemW) (ls : List Nat) : Option State :=
  let n := formBytes t 0
  let b (l : Nat) : Nat := atomVal t (mget 0 m.d0 l) (mget 0 m.d1 l)
  let c (l : Nat) : Nat := atomVal t (mget 0 m.c0 l) (mget 0 m.c1 l)
  logLanes s false { x with hint := 0 } (fun here => .atom x.form t (here.map fun l => (m.va l, b l, c l))) m (fun l => toBytes n (b l)) ls

/-- The operands of an atomic, read at issue, and its checks in every active lane; act: its agents (the lanes, or the split as one). -/
def atomStart (t : Ty) (x : MemX) (all act : Word32) (a b c : Opnd) (s : State) : Except State (State × MemW) := do
  let pair := t == .x64
  let s1 ← vpre s all (opRegs false a ++ opRegs pair b ++ opRegs pair c) (opLatches false a ++ opLatches pair b ++ opLatches pair c)
  let s2 ← gChecks s1 all (formBytes t 0) (gAddr s a x.off)
  .ok (s2, memOps s false true x.stream act (gAddr s a x.off) (data0 s t b) (data1 s t b) (data0 s t c) (data1 s t c) (all.zeroExtend 64))

/-- The scalar writes of a split's atomic (R325). -/
def atomScalar (t : Ty) (k : Nat) (m : MemW) : List PW :=
  match lanesOf m.act with
  | [] => []
  | l :: _ => ⟨1, k, mget 0 m.vals l, false⟩ :: if t = .x64 then [⟨1, k + 1, mget 0 m.vals (32 + l), false⟩] else []

/-- The lowest lane of a mask, as a mask: it stands for the split as one agent (R272). -/
def lowLane (m : Word32) : Word32 := maskOf ((lanesOf m).take 1)

/-- atom (R325, R326, R327). -/
def execAtom (h : VH) (t : Ty) (x : MemX) (d a b c : Opnd) (s : State) : Out :=
  Res.out do
    let f ← forbidTx s (active s h)
    match d with
    | .v k => do
      let (s1, m) ← memCounted f (cVMEM, h.n, destRegs t k, []) (atomStart t x (active f h) (active f h) a b c)
      relWait s1 m x (memDrive s1 false 0 false m true (atomLane false t x true) none fun s m =>
        .ok (finishCounted (acquired s x.order (actScope s m true x.scope)) m.id h.n (ldResults t k m) []))
    | .s k =>
      if f.sp.mem.isNone && active f h == 0 then .ok f
      else do
        let (s1, m) ← memCounted f (cSMEM, false, [], destRegs t k) (atomStart t x (active f h) (lowLane (active f h)) a b c)
        relWait s1 m x (memDrive s1 true (lo32 m.ctl) false m true (atomLane true t x true) none fun s m =>
          .ok (finishCounted (acquired s x.order (actScope s m true x.scope)) m.id false [] (atomScalar t k m)))
    | _ => do
      let (s1, m) ← memStart f (atomStart t x (active f h) (active f h) a b c)
      relWait s1 m x (memDrive s1 false 0 false m true (atomLane false t x false) (some (atomLog t x))
        fun s m => .ok (acquired s x.order (actScope s m true x.scope)))

end Sys2Proof.Machine
end

