-- ==== Sys2Proof/Machine/Fork.lean ====
section
/-! DEFINITION. Making and collecting items: spawn, split, take (R395 to R399), and the events that serve a take. -/
namespace Sys2Proof.Machine

/-- An entry index names a row that is not empty (R366). -/
def rowUsed (l : Launch) (e : Nat) : Bool := e < 16 && (nthD ⟨0, false, 0, [], []⟩ l.rows e).g.any (· != 0)

/-- The items of a word that has issued go to the bins of the issuing core; those that find no room there hold the split (R50, R375). -/
def placeItems (s : State) (items : List (BitVec 512)) : Res :=
  match teamLaunch s s.ct with
  | none => .error (illegalExec s)
  | some l =>
    let r := placeAll l s.ct.ctx s.ct.core items s
    if r.2.2 then .error (regionFault r.1 (dieOf s.ct.core) s.ct.ctx)
    else if r.2.1.isEmpty then .ok (r.1.setSp { r.1.sp with items := [] })
    else .error (rewind (r.1.setSp { r.1.sp with items := r.2.1 }))
/-- Some lane's ENTRY names an empty row of the launch's entry table (R395). -/
def entryBad (s : State) (hs : List Nat) : Bool := (teamLaunch s s.ct).all fun l => hs.any fun e => !rowUsed l e

/-- spawn: one item per active lane (R396). -/
def execSpawn (h : VH) (a : Nat) (b : Opnd) (s : State) : Out :=
  Res.out (
    if !s.sp.items.isEmpty then placeItems s s.sp.items
    else do
      let s0 ← forbidTx s (active s h)
      let act := active s0 h
      let s1 ← vpre s0 act ((List.range 7).map (a + ·) ++ opRegs false b) (opLatches false b)
      let hd (l : Nat) : Word64 := rdOp s0 b l
      if entryBad s1 ((lanesOf act).map fun l => fld (hd l) 35 32) then .error (illegalExec s1)
      else placeItems s1 ((lanesOf act).map fun l => mkItem (hd l) ((List.range 7).map fun k => s0.cg.rV s0.free (a + k) l)))

/-- split: bisects every lane's .x32 interval; the other half becomes an item (R397). -/
def execSplit (pen : Bool) (p a v : Nat) (upper : Bool) (s : State) : Out :=
  Res.out (
    if !s.sp.items.isEmpty then placeItems s s.sp.items
    else emptyQ s (outsideTx s fun s => do
      let m := s.sp.mask
      let x (l : Nat) : Ivl := x32Read (s.cg.rV s.free v l)
      let hd := s.rS a
      let bis := (lanesOf m).filter fun l => bisectable fp32 (x l)
      let s0 ← vpre s m [v] []
      -- the payload is read in the lanes that bisect
      let s1 ← vpre s0 (maskOf bis) ((List.range 6).map (v + 1 + ·)) []
      let items := bis.map fun l => mkItem hd (x32Write (halfI fp32 (!upper) (x l)) :: (List.range 6).map fun k => s.cg.rV s.free (v + 1 + k) l)
      if entryBad s1 ((lanesOf m).map fun _ => fld hd 35 32) then .error (illegalExec s1)
      else
        let g := wrVals s1.cg v (vlanes m fun l => x32Write (if bisectable fp32 (x l) then halfI fp32 upper (x l) else x l))
        let g1 := if pen then wrQs g p (vlanes m fun l => if bisectable fp32 (x l) then 1 else if (x l).isNai then 2 else 0) else g
        placeItems (s1.setCg (g1.orSts bNAI ((lanesOf m).filter fun l => (x l).isNai))) items))

/-- take: fills done lanes from the entry's bin, or waits (R52, R377, R398). -/
def execTake (drain : Bool) (d : Nat) (s : State) : Out :=
  Res.out (emptyQ s (outsideTx s fun s =>
    let t := s.ct
    match teamLaunch s t with
    | none => .error (illegalExec s)
    | some l =>
      if s.cg.done = 0 then .ok (s.wS d 0)
      else if (fillable s (takeWaiters s t.core t.entry)).isEmpty && binCount (s.bin t.core t.entry) != 0 then .ok (fillLanes s l s.cur.gh s.cur.sp d)
      else .ok (passPoint (s.setSp { s.sp with hold := .take drain d s.seq }) s.cur.gh s.sp.mask)))

/-- The waiter that R377 serves first on a core for an entry. -/
def firstWaiter (ws : List (Nat × Nat × Nat)) : Option (Nat × Nat) :=
  (ws.foldl (fun (b : Option (Nat × Nat × Nat)) w => match b with
    | none => some w
    | some x => if w.2.2 < x.2.2 then some w else b) none).map fun w => (w.1, w.2.1)

/-- TAKE_FILL: the split that began to wait first, among those whose group has a lane to fill, takes the items that its bin holds (R377). -/
def execTakeFill (group sp : Nat) (s : State) : Out :=
  let g := s.grp group
  let t := s.team g.team
  match (nthD Split.init g.splits sp).hold, teamLaunch s t with
  | .take _ d _, some l =>
    if firstWaiter (fillable s (takeWaiters s t.core t.entry)) = some (group, sp) ∧ binCount (s.bin t.core t.entry) ≠ 0 ∧ g.done ≠ 0 then
      .next (fillLanes s l group sp d)
    else .fault (.notEnabled "TAKE_FILL")
  | _, _ => .fault (.notEnabled "TAKE_FILL")

/-- A split waits in take. -/
def inTake (p : Split) : Bool := match p.hold with
  | .take _ _ _ => true
  | _ => false
/-- No item of a context's launch is in a bin or on its way to one, in a backing region or in a steal transfer (R54, R399). -/
def noItems (s : State) (c : Nat) : Bool :=
  ((ctxCores s c).all fun k => (s.core k).flying.isEmpty && (s.core k).bins.all fun b => binCount b.2 == 0) &&
  (s.dies.all fun d => (d.2.lists.all fun l => l.1 / 16 != c) && d.2.stolen.all fun l => l.1 / 16 != c)
/-- The launch of a context is drained (R399): no item waits, and every lane of every resident or saved group has ended or waits in take. -/
def drained (s : State) (c : Nat) : Bool :=
  noItems s c && (s.groups.all fun g => (s.team g.2.team).ctx != c || g.2.retired || ((g.2.splits.all inTake) && g.2.defer.isEmpty && g.2.spills == 0)) &&
  (s.ctx c).saves.all fun v => v.groups.all fun g => g.2.retired || ((g.2.splits.all inTake) && g.2.defer.isEmpty && g.2.spills == 0)

/-- A take.drain wait ends: its register receives 0 (R398). -/
def drainSplits (g : Group) : Group :=
  (List.range g.splits.length).foldl (fun g k =>
    let p := nthD Split.init g.splits k
    match p.hold with
    | .take true d _ => { g.wS d 0 with splits := setAt g.splits k { p with hold := .none } }
    | _ => g) g
/-- A split of the group waits in take.drain. -/
def inDrain (g : Group) : Bool := g.splits.any fun p => match p.hold with
  | .take true _ _ => true
  | _ => false
/-- Some take.drain of the context waits, of a resident group or of one in a native record. -/
def drainWaits (s : State) (c : Nat) : Bool :=
  (s.groups.any fun g => (s.team g.2.team).ctx == c && inDrain g.2) || (s.ctx c).saves.any fun v => v.groups.any fun g => inDrain g.2
/-- TAKE_DRAIN_RELEASE: every take.drain wait of a drained launch ends, also in native records (R399). -/
def execTakeDrainRelease (ctx : Nat) (s : State) : Out :=
  if drained s ctx && drainWaits s ctx then
    let x := s.ctx ctx
    .next { s.setCtx ctx { x with saves := x.saves.map fun v => { v with groups := v.groups.map fun g => (g.1, drainSplits g.2) } } with
      groups := s.groups.map fun g => if (s.team g.2.team).ctx = ctx then (g.1, drainSplits g.2) else g }
  else .fault (.notEnabled "TAKE_DRAIN_RELEASE")

end Sys2Proof.Machine
end

