-- ==== Sys2Proof/Machine/Place.lean ====
section
/-! DEFINITION. A program placed where the next step fetches: a running launch of one group on one core, with its code in memory and the
translation of its page. It stands for a kernel image that the host loads and launches. -/
namespace Sys2Proof.Machine

/-- The first number above every key of a map. -/
def freshKey {α : Type} (m : AMap α) : Nat := m.foldl (fun n e => max n (e.1 + 1)) 0

/-- A device location for the code page whose bus address is not a host register. -/
def placeLoc (s : State) : Nat := if s.io.bar0 < s.io.bar2 + 2 ^ 24 ∧ s.io.bar2 < s.io.bar0 + 2 ^ 23 then 2 ^ 25 else 2 ^ 21

/-- The launch of a kernel that has both bodies at virtual address 0. -/
def placeLaunch : Launch where
  addr := 0; hasL := true; hasD := true; spill := false; scratch := 4096; pool := 65536; lbase := 0; dsbase := 0; dlbase := 0; htab := 4096
  llen := 12; dslen := 12; dllen := 1; hcount := 0; allots := [768, 0, 0, 0]; serials := []
  rows := [⟨65536, false, 0, [1, 0, 0, 0], [(0, 0, 0)]⟩]

/-- One split of 32 lanes at PC 0; a V-word of the D-encoding stands in its lane queue. -/
def placeSplit : Split := { Split.init with mask := 0xFFFFFFFF }

/-- The machine with an instruction's bytes where the next step fetches; the host link, over which the launch came, is up. -/
def placeWord (s : State) (bytes : List Byte) (isL : Bool) : State :=
  let tid := freshKey s.teams
  let core := if isL then 0 else 1
  let page : PageMap := ⟨0, 21, s.io.bar2 + placeLoc s, true, true⟩
  let x := s.ctx 0
  let s1 := s.wrCells (cellsOf (placeLoc s) bytes)
  let s2 := s1.setCtx 0 { x with slots := mset LSlot.init x.slots 0 { LSlot.init with state := 2, ok := true, blk := some placeLaunch } }
  let s3 := s2.setCore core { s2.core core with tlb := ⟨0, page, 0⟩ :: (s2.core core).tlb }
  let s4 := s3.setTeam tid { Team.init with core := core, isL := isL, size := 1, bytes := 4096, gone := false }
  let g : Group := { Group.init with team := tid, allot := 768, splits := [placeSplit],
                                     s := [(2, 0xE00000), (3, 4096), (4, 1)] }
  { s4.setGrp (handle tid 0) g with agenda := [.issue core 0], io := { s.io with linkDown := false } }

end Sys2Proof.Machine
end

