-- ==== Sys2Proof/Machine/Gang.lean ====
section
/-! DEFINITION. Gang starts: what a core kind can hold (R16, R17, R367), the placement of a team (R34, R216, R256), its initial state (R48, R49,
R72, R76) and its peer windows (R257). -/
namespace Sys2Proof.Machine

/-! What fits. -/

/-- Groups and registers of a partition (R16). -/
def partGroups (isL : Bool) : Nat := if isL then 4 else 16
def partRegs (isL : Bool) : Nat := if isL then 1024 else 2048
def teamMax (isL : Bool) : Nat := if isL then 16 else 32
def tileMax (isL : Bool) : Nat := if isL then 16 else 32

/-- The roles of a team's groups in order of index (R33). -/
def rowRoles (r : EntryRow) : List Nat := (List.range 4).flatMap fun n => List.replicate (nthD 0 r.g n) n
/-- The allotments of a team's groups. -/
def rowAllots (l : Launch) (r : EntryRow) : List Nat := (rowRoles r).map fun n => nthD 0 l.allots n

/-- An assignment of allotments to partitions with free groups and registers, by backtracking (R34). -/
def assign : List Nat → List (Nat × Nat) → Option (List Nat)
  | [], _ => some []
  | a :: as, ps =>
    (List.range ps.length).findSome? fun k =>
      let p := nthD (0, 0) ps k
      if 0 < p.1 ∧ a ≤ p.2 then (assign as (setAt ps k (p.1 - 1, p.2 - a))).map (k :: ·) else none

/-- Allotments of a core's partitions that migrations have reserved (R412 step 1): partition and registers. -/
def reserved (s : State) (core : Nat) : List (Nat × Nat) :=
  s.teams.flatMap fun e => match e.2.target with
    | some (k, ps) => if k = core then ((s.groups.filter fun g => g.2.team == e.1).map fun g => (nthD 0 ps g.2.idx, g.2.allot)) else []
    | none => []
/-- The free groups and registers of a core's four partitions. -/
def freeParts (s : State) (core : Nat) : List (Nat × Nat) :=
  let isL := coreIsL core
  (List.range 4).map fun k =>
    let gs := (s.groups.filter fun e => (s.team e.2.team).core == core && !(s.team e.2.team).saved && e.2.part == k).map (fun e => e.2.allot) ++
      ((reserved s core).filter fun r => r.1 == k).map Prod.snd
    (partGroups isL - gs.length, partRegs isL - gs.foldl (· + ·) 0)
/-- Teams that hold an allocation and tiles on a core, or have them reserved (R412). -/
def coreTeams (s : State) (core : Nat) : List Team :=
  (s.teams.filter fun e => (e.2.core == core || e.2.target.any fun x => x.1 == core) && !e.2.gone && !e.2.saved).map Prod.snd
/-- The range [o, o + n) meets no allocation of a core's teams and lies below the pool region (R256). -/
def spFree (s : State) (l : Launch) (core o n : Nat) : Bool :=
  decide (o + n + l.pool ≤ 0x180000) && (coreTeams s core).all fun t => decide (o + n ≤ t.off) || decide (t.off + t.bytes ≤ o)
/-- The lowest offset for an allocation (R256). -/
def spOffset (s : State) (l : Launch) (core n : Nat) : Option Nat :=
  if n = 0 then some 0
  else
    let cands := (0 :: (coreTeams s core).map fun t => t.off + t.bytes).filter fun o => spFree s l core o n
    cands.foldl (fun m o => match m with
      | none => some o
      | some p => some (min o p)) none
/-- Tiles that a core has free (R216). -/
def tilesFree (s : State) (core : Nat) : Nat := tileMax (coreIsL core) - (coreTeams s core).foldl (fun n t => n + t.ntiles) 0

/-- A kind of core is eligible for a row (R367). -/
def eligible (l : Launch) (r : EntryRow) (isL : Bool) : Bool :=
  (if isL then l.hasL else l.hasD) && decide ((rowRoles r).length ≤ teamMax isL) && decide (r.tiles ≤ tileMax isL) &&
  (assign (rowAllots l r) (List.replicate 4 (partGroups isL, partRegs isL))).isSome

/-- The row of an entry. -/
def Launch.row (l : Launch) (e : Nat) : EntryRow := nthD ⟨0, false, 0, [], []⟩ l.rows e

/-- A core can start a team of a row at once (R34, R216): where its groups and its allocation go. -/
def canStart (s : State) (l : Launch) (r : EntryRow) (core : Nat) : Option (List Nat × Nat) :=
  if eligible l r (coreIsL core) && decide (r.tiles ≤ tilesFree s core) then
    match assign (rowAllots l r) (freeParts s core), spOffset s l core l.scratch with
    | some ps, some o => some (ps, o)
    | _, _ => none
  else none

/-! The start. -/

/-- The PCs of a role in an encoding: L PC, or D scalar PC with D lane PC (R124). -/
def rolePc (r : EntryRow) (isL : Bool) (n : Nat) : Nat × Nat :=
  let p := nthD (0, 0, 0) r.pcs n
  if isL then (p.1, 0) else (p.2.1, p.2.2)

/-- A group at its start (R48, R49, R76). -/
def startGroup (l : Launch) (r : EntryRow) (isL : Bool) (tid idx stage part off : Nat) (items : List (BitVec 512)) : Group :=
  let n := items.length
  let occ := maskOf (List.range n)
  let pc := rolePc r isL stage
  let g0 : Group := { Group.init with
    team := tid
    idx := idx
    stage := stage
    allot := nthD 0 l.allots stage
    part := part
    s := msetAll 0 [] [(1, BitVec.ofNat 64 l.addr), (2, BitVec.ofNat 64 (7 * 2 ^ 21 + off)), (3, BitVec.ofNat 64 l.scratch), (4, BitVec.ofNat 64 n)]
    done := if r.active then 0 else ~~~occ
    splits := [{ Split.init with mask := if r.active then 0xFFFFFFFF else occ, pc := pc.1, lpc := pc.2, fromA := pc.1, fromB := pc.2 }] }
  let g1 := ((List.range n).zip items).foldl (fun g x => giveItem g x.1 x.2) g0
  if r.active then (lanesOf (~~~occ)).foldl (fun g k => g.wV 7 k 0xFFFF000000000000) g1 else g1

/-- The earliest-started team of a launch and entry on a core (R257). -/
def peerOn (s : State) (ctx slot entry core : Nat) : Option Nat :=
  ((s.teams.filter fun e => e.2.ctx == ctx && e.2.slot == slot && e.2.entry == entry && e.2.core == core && !e.2.gone && !e.2.saved).foldl
    (fun (b : Option (Nat × Nat)) e => match b with
      | none => some (e.1, e.2.age)
      | some x => if e.2.age < x.2 then some (e.1, e.2.age) else b) none).map Prod.fst
/-- The window of a team to the position of one that starts as a gang in its launch, entry and quire is bound to it where it is unbound (R257);
so is that of a saved team. -/
def bindTo (tid : Nat) (t : Team) (e : Nat × Team) : Team :=
  let u := e.2
  if e.1 != tid && u.ctx == t.ctx && u.slot == t.slot && u.entry == t.entry && u.core / 8 == t.core / 8 && u.core != t.core && !u.gone &&
     mget Peer.unbound u.peers (posOf t.core) == .unbound then
    { u with peers := mset .unbound u.peers (posOf t.core) (.team tid) }
  else u
/-- Windows are bound at the gang start of a team (R257): its own to the resident teams it finds, and other teams' to it. -/
def bindWindows (s : State) (tid : Nat) : State :=
  let t := s.team tid
  let own := (List.range 5).filterMap fun p => if p = posOf t.core then none else (peerOn s t.ctx t.slot t.entry (peerCore t.core p)).map fun u => (p, Peer.team u)
  let s1 := s.setTeam tid { t with peers := msetAll .unbound t.peers own }
  let s2 := { s1 with teams := s1.teams.map fun (e : Nat × Team) => (e.1, bindTo tid t e) }
  let x := s2.ctx t.ctx
  s2.setCtx t.ctx { x with saves := x.saves.map fun v => { v with team := bindTo tid t (v.tid, v.team) } }

/-- The allocation is created: every byte zero, every granule empty (R256). -/
def clearAlloc (k : CoreSt) (o n : Nat) : CoreSt :=
  { k with sp := k.sp.filter fun e => !(decide (o ≤ e.1) && decide (e.1 < o + n))
           full := k.full.filter fun e => !(decide (o ≤ 16 * e.1) && decide (16 * e.1 < o + n))
           spois := k.spois.filter fun e => !(decide (o ≤ 16 * e.1) && decide (16 * e.1 < o + n)) }

/-- The next TEAM.SERIAL of a die in a launch (R72). -/
def takeSerial (s : State) (c slot die : Nat) : State × Nat :=
  let x := s.ctx c
  let sl := mget LSlot.init x.slots slot
  match sl.blk with
  | none => (s, 0)
  | some l =>
    let n := mget 0 l.serials die
    (s.setCtx c { x with slots := mset LSlot.init x.slots slot { sl with blk := some { l with serials := mset 0 l.serials die (n + 1) } } }, n)

/-- One team starts as a gang with its items (R34, R48, R373, R460). -/
def gangStart (s : State) (l : Launch) (c slot e core : Nat) (ps : List Nat) (off : Nat) (items : List (BitVec 512)) : State :=
  let r := l.row e
  let isL := coreIsL core
  let tid := freshKey s.teams
  let ser := takeSerial s c slot (dieOf core)
  let reg := dieOf core * 2 ^ 29 + ser.2 % 2 ^ 29
  let t : Team := { Team.init with ctx := c, slot := slot, entry := e, core := core, isL := isL, reg := BitVec.ofNat 64 reg, size := ps.length, off := off,
                                   bytes := l.scratch, ntiles := r.tiles, age := s.seq, gone := false }
  let s1 := ser.1.setTeam tid t
  let s2 := s1.setCore core { clearAlloc (s1.core core) off l.scratch with ro := [] }
  let s3 := ((List.range ps.length).zip ((rowRoles r).zip ps)).foldl (fun s x =>
    s.setGrp (handle tid x.1) (startGroup l r isL tid x.1 x.2.1 x.2.2 off items)) s2
  traceRec (bindWindows s3 tid) (dieOf core) core c 3 reg (e + items.length * 2 ^ 8)

end Sys2Proof.Machine
end

