-- ==== Sys2Proof/Machine/Bins.lean ====
section
/-! DEFINITION. Bin events: timers, firing, spill, refill (R47, R372 to R375) and stealing (R376). -/
namespace Sys2Proof.Machine

/-- The running launch of a context: its slot and its block. -/
def running (s : State) (c : Nat) : Option (Nat × Launch) :=
  (s.ctx c).slots.findSome? fun e => if e.2.state = 2 then e.2.blk.map fun l => (e.1, l) else none
/-- The context, slot and launch of a core's bins. -/
def coreLaunch (s : State) (core : Nat) : Option (Nat × Nat × Launch) :=
  if coreExists s.part core then
    match dieCtx s (dieOf core) with
    | some c => if (s.ctx c).saving then none else (running s c).map fun r => (c, r.1, r.2)
    | none => none
  else none

/-- An item on its way enters its bin (R50). -/
def landOn (s : State) (core k : Nat) : State :=
  match (dieCtx s (dieOf core)).bind (running s), (s.core core).flying[k]? with
  | some r, some i => landItem s r.2 core k i
  | _, _ => s
/-- The first item on its way: its core, and its place there. -/
def pickLand (s : State) : Option (Nat × Nat) := (s.cores.find? fun e => !e.2.flying.isEmpty && ((dieCtx s (dieOf e.1)).bind (running s)).isSome).map fun e => (e.1, 0)

/-- A bin would fire (R47): 32 items, or its timer has expired with an item. -/
def binRipe (b : Bin) : Bool := decide (32 ≤ binCount b) || (b.expired && decide (0 < binCount b))

/-- BIN_TIMER_EXPIRY (R47). -/
def execBinTimerExpiry (core bin : Nat) (s : State) : Out :=
  let b := s.bin core bin
  if b.timer && !b.expired && decide (0 < binCount b) then .next (s.setBin core bin { b with expired := true }) else .fault (.notEnabled "BIN_TIMER_EXPIRY")

/-- BIN_FIRE: up to 32 items start one team; a poisoned one is fatal (R372, R373, R455). -/
def execBinFire (core bin : Nat) (s : State) : Out :=
  match coreLaunch s core with
  | none => .fault (.notEnabled "BIN_FIRE")
  | some (c, slot, l) =>
    match canStart s l (l.row bin) core with
    | none => .fault (.notEnabled "BIN_FIRE")
    | some (ps, off) =>
      -- a waiter whose group has no lane to fill keeps no item from a team (DEDUCED, log 83)
      if binRipe (s.bin core bin) && (fillable s (takeWaiters s core bin)).isEmpty then
        let r := popItems l core bin 32 s []
        let b := r.2.bin core bin
        let s1 := r.2.setBin core bin { b with timer := decide (0 < binCount b), expired := false, waited := false }
        .next (match poisonAt r.1 with
          | some a => fatalCtx s1 c (FaultAt.none core slot) POISON 0 a 0
          | none => gangStart s1 l c slot bin core ps off (r.1.map (·.item)))
      else .fault (.notEnabled "BIN_FIRE")

/-- Move batches of a bin to the die's list while it holds more than n items and the region has room. -/
def spillDown (l : Launch) (c core e n : Nat) : Nat → State → State
  | 0, s => s
  | k + 1, s =>
    if n < binCount (s.bin core e) ∧ backingRoom s (dieOf core) c then spillDown l c core e n k (spillBatch s l c core e 32) else s

/-- A spill, where the region's key tag admits it (R434). -/
def spillEvent (l : Launch) (c core e n : Nat) (s : State) : State :=
  if !backingRoom s (dieOf core) c || regionOk s (dieOf core) c then spillDown l c core e n 512 s else regionFault s (dieOf core) c

/-- BIN_WAIT_EXPIRY: a ripe bin that may not fire has waited 4,096 cycles; its items move to the backing region (R372). -/
def execBinWaitExpiry (core bin : Nat) (s : State) : Out :=
  match coreLaunch s core with
  | none => .fault (.notEnabled "BIN_WAIT_EXPIRY")
  | some (c, _, l) =>
    if binRipe (s.bin core bin) && (canStart s l (l.row bin) core).isNone then
      .next (spillEvent l c core bin 0 s)
    else .fault (.notEnabled "BIN_WAIT_EXPIRY")

/-- INELIGIBLE_BIN_MOVE: a bin on a core that is never eligible for its row holds no items (R372). -/
def execIneligibleBinMove (core bin : Nat) (s : State) : Out :=
  match coreLaunch s core with
  | none => .fault (.notEnabled "INELIGIBLE_BIN_MOVE")
  | some (c, _, l) =>
    if !eligible l (l.row bin) (coreIsL core) && decide (0 < binCount (s.bin core bin)) then .next (spillEvent l c core bin 0 s)
    else .fault (.notEnabled "INELIGIBLE_BIN_MOVE")

/-- BIN_SPILL: a bin over three quarters spills batches until it is at or below half (R375). -/
def execBinSpill (core bin : Nat) (s : State) : Out :=
  match coreLaunch s core with
  | none => .fault (.notEnabled "BIN_SPILL")
  | some (c, _, l) =>
    if binCap l * 3 < binCount (s.bin core bin) * 4 && backingRoom s (dieOf core) c then .next (spillEvent l c core bin (binCap l / 2) s)
    else .fault (.notEnabled "BIN_SPILL")

/-- A bin takes batches from its die's list (R375): it has fallen under a quarter and is not at half again, on a core that may fire or where a
split waits in take. -/
def wantsRefill (s : State) (l : Launch) (core e : Nat) : Bool :=
  let b := s.bin core e
  decide (binLoad s core e + 32 ≤ binCap l) && (decide (binCount b * 4 < binCap l) || b.filling) && ((canStart s l (l.row e) core).isSome || !(takeWaiters s core e).isEmpty)
/-- The bin, of all entries on a die, that the die serves next: core and entry (R375). Bins that have been empty since their launch began did not
fall under a quarter: among them R375 names none, and the choice is free (log 84). -/
def refillNext (s : State) (l : Launch) (c die : Nat) : Option (Nat × Nat) :=
  let bins := ((dieCores s.part die).flatMap fun k => (List.range 16).map fun e => (k, e)).filter fun x =>
    !(listOf s die c x.2).isEmpty && wantsRefill s l x.1 x.2
  match bins.filter fun x => (s.bin x.1 x.2).low == 0 with
  | [] => leastBy (fun (x : Nat × Nat) => [((s.bin x.1 x.2).low : Int), (x.1 : Int), (x.2 : Int)]) bins
  | x :: xs => some (nthD x (x :: xs) (Config.freeNat s.free % (xs.length + 1)))
/-- BIN_REFILL: the die serves the bin whose turn it is: the oldest batch of the list enters it (R375). -/
def execBinRefill (core bin : Nat) (s : State) : Out :=
  match coreLaunch s core with
  | none => .fault (.notEnabled "BIN_REFILL")
  | some (c, _, l) =>
    match listOf s (dieOf core) c bin with
    | [] => .fault (.notEnabled "BIN_REFILL")
    | b :: rest =>
      if refillNext s l c (dieOf core) = some (core, bin) then
        if regionOk s (dieOf core) c then .next (refillBatch (setList s (dieOf core) c bin rest) l core bin b (!rest.isEmpty))
        else .next (regionFault s (dieOf core) c)
      else .fault (.notEnabled "BIN_REFILL")

/-! Stealing. -/

/-- The spine stop of a compute die: 1 to 4 and 6 to 9 (R10). -/
def spineStop (die : Nat) : Nat := if die < 4 then die + 1 else die + 2
/-- The spine stop of an I/O die: 0 for the host link and the management core, 5 for the scale-up ports (R10). -/
def ioStop (io : Nat) : Nat := 5 * io
/-- Hops from stop to stop on the ring whose stop numbers rise along the direction of travel; the other ring needs 10 less these (R10). -/
def risingHops (a b : Nat) : Nat := (b + 10 - a) % 10
/-- A transfer takes the rising ring: where it needs fewer hops, or both need five (R11). -/
def takesRising (a b : Nat) : Bool := decide (risingHops a b ≤ 5)
/-- The stops that a transfer reaches after the one it starts from, in order (R11). -/
def spineRoute (a b : Nat) : List Nat :=
  let up := risingHops a b
  if takesRising a b then (List.range up).map fun k => (a + k + 1) % 10 else (List.range (10 - up)).map fun k => (a + 9 - k) % 10
/-- Hops between dies (R11). -/
def hops (a b : Nat) : Nat := (spineRoute (spineStop a) (spineStop b)).length
/-- Insert a die by hop count, then by number. -/
def insertDie (from_ d : Nat) : List Nat → List Nat
  | [] => [d]
  | x :: l => if hops from_ d < hops from_ x ∨ (hops from_ d = hops from_ x ∧ d < x) then d :: x :: l else x :: insertDie from_ d l
/-- The other dies of the partition in the order of a steal request (R376). -/
def stealOrder (s : State) (c die : Nat) : List Nat := ((ctxDies s c).filter (· != die)).foldl (fun l d => insertDie die d l) []
/-- The pool of an entry on a die is under low water (R376). -/
def underLow (s : State) (l : Launch) (c die e : Nat) : Bool :=
  (listOf s die c e).isEmpty && (dieCores s.part die).any fun k => decide (binCount (s.bin k e) * 4 < binCap l)
def stealKey (c e : Nat) : Nat := c * 16 + e
/-- STEAL_REQUEST: the first die over high water hands over its oldest batch; where none does, the die waits to ask again (R376, R434). -/
def execStealRequest (ctx die entry : Nat) (s : State) : Out :=
  match running s ctx with
  | none => .fault (.notEnabled "STEAL_REQUEST")
  | some (_, l) =>
    let x := s.die die
    if (ctxDies s ctx).contains die && rowUsed l entry && underLow s l ctx die entry && mget 0 x.steal (stealKey ctx entry) == 0 then
      match (stealOrder s ctx die).find? fun d => 4 ≤ (listOf s d ctx entry).length with
      | none => .next (s.setDie die { x with steal := mset 0 x.steal (stealKey ctx entry) 2 })
      | some d =>
        if !regionOk s d ctx then .next (regionFault s d ctx)
        else
        (match listOf s d ctx entry with
         | [] => .fault (.notEnabled "STEAL_REQUEST")
         | b :: rest =>
           let s1 := setList s d ctx entry rest
           let y := s1.die die
           .next (s1.setDie die { y with steal := mset 0 y.steal (stealKey ctx entry) 1, stolen := mset [] y.stolen (stealKey ctx entry) b }))
    else .fault (.notEnabled "STEAL_REQUEST")
/-- STEAL_TRANSFER: the batch arrives in the requester's list (R376, R434). -/
def execStealTransfer (ctx die entry : Nat) (s : State) : Out :=
  let x := s.die die
  let b := mget [] x.stolen (stealKey ctx entry)
  if mget 0 x.steal (stealKey ctx entry) == 1 && !b.isEmpty && backingRoom s die ctx then
    if !regionOk s die ctx then .next (regionFault s die ctx)
    else
    let s1 := s.setDie die { x with steal := mset 0 x.steal (stealKey ctx entry) 0, stolen := mset [] x.stolen (stealKey ctx entry) [] }
    .next (setList s1 die ctx entry (listOf s1 die ctx entry ++ [b]))
  else .fault (.notEnabled "STEAL_TRANSFER")
/-- STEAL_RETRY_TIMER: a die that waited may ask again (R376). -/
def execStealRetryTimer (ctx die entry : Nat) (s : State) : Out :=
  let x := s.die die
  if mget 0 x.steal (stealKey ctx entry) == 2 then .next (s.setDie die { x with steal := mset 0 x.steal (stealKey ctx entry) 0 })
  else .fault (.notEnabled "STEAL_RETRY_TIMER")

end Sys2Proof.Machine
end

