-- ==== Sys2Proof/Machine/Launch.lean ====
section
/-! DEFINITION. Launches: the launch window, the launch block and its checks, the start and the end of a launch (R54, R361 to R366, R378, R504
to R506). -/
namespace Sys2Proof.Machine

/-! The window. -/

def slotOf (s : State) (c k : Nat) : LSlot := mget LSlot.init (s.ctx c).slots k
def setSlot (s : State) (c k : Nat) (x : LSlot) : State := s.setCtx c { s.ctx c with slots := mset LSlot.init (s.ctx c).slots k x }

/-- LAUNCH_ITEM_WRITE: a 64-byte write to an idle slot of a resident context starts a launch; any other is ignored (R362, R425, R460). -/
def execLaunchItemWrite (ctx slot size : Nat) (item : BitVec 512) (s : State) : Out :=
  let x := slotOf s ctx slot
  if size = 64 ∧ slot < 16 ∧ ctx < 64 ∧ x.state = 0 ∧ ctxResident s ctx ∧ deviceReady s then
    .next (traceRec (setSlot s ctx slot { x with item := item, ablock := x.block, adie := x.die, state := 1, cause := 0, wait := true, head := [], ok := false, blk := none, order := 0 })
      (firstDie s ctx) 0x3FF ctx 1 slot x.block.toNat)
  else .next s

/-- LAUNCH_SLOT_STATE_WRITE: 0 returns a slot from COMPLETE or REFUSED to IDLE; any other write is ignored (R362). -/
def execLaunchSlotStateWrite (ctx slot val : Nat) (s : State) : Out :=
  let x := slotOf s ctx slot
  if val = 0 ∧ slot < 16 ∧ (x.state = 3 ∨ x.state = 4) ∧ ctxResident s ctx then .next (setSlot s ctx slot { x with state := 0, cause := 0 })
  else .next s

/-! The launch block (R365, R366). -/

/-- Bytes [o, o + n) of a block as a number. -/
def bField (b : List Byte) (o n : Nat) : Nat := ofBytes ((b.drop o).take n)

/-- The block's entry row e with the PCs of the entry table (R124, R366). -/
def blockRow (b t : List Byte) (e : Nat) : EntryRow :=
  let o := 128 + 8 * e
  ⟨bField b o 2 + 1, bField b (o + 2) 1 % 2 == 1, bField b (o + 3) 1, (List.range 4).map fun n => bField b (o + 4 + n) 1,
   (List.range 4).map fun n => (bField t (64 * e + 16 + 12 * n) 4, bField t (64 * e + 20 + 12 * n) 4, bField t (64 * e + 24 + 12 * n) 4)⟩

/-- The values of a block and of its entry table. -/
def parseBlock (addr : Nat) (b t : List Byte) : Launch :=
  let fl := bField b 6 1
  { addr := addr
    hasL := fl % 2 == 1
    hasD := fl / 2 % 2 == 1
    spill := fl / 4 % 2 == 1
    scratch := bField b 8 4
    pool := bField b 12 4
    lbase := bField b 16 8
    dsbase := bField b 24 8
    dlbase := bField b 32 8
    htab := bField b 48 8
    llen := bField b 56 4
    dslen := bField b 60 4
    dllen := bField b 64 4
    hcount := bField b 68 4
    allots := (List.range 4).map fun n => bField b (72 + 2 * n) 2
    rows := (List.range 16).map (blockRow b t)
    serials := [] }

/-- A row that is not empty. -/
def EntryRow.used (r : EntryRow) : Bool := r.g.any (· != 0)

/-- A role has an allotment and a PC in every encoding that the kernel carries (R366). -/
def roleOk (l : Launch) (r : EntryRow) (n : Nat) : Bool :=
  nthD 0 r.g n == 0 ||
  (nthD 0 l.allots n != 0 && (!l.hasL || (nthD (0, 0, 0) r.pcs n).1 != 0xFFFFFFFF) && (!l.hasD || (nthD (0, 0, 0) r.pcs n).2.1 != 0xFFFFFFFF))

/-- A used row is well formed (R366); its raw bytes give POLICY and TIMERM1. -/
def rowOk (b : List Byte) (l : Launch) (e : Nat) : Bool :=
  let r := l.row e
  let o := 128 + 8 * e
  let n := (rowRoles r).length
  decide (255 ≤ bField b o 2) && decide (bField b (o + 2) 1 ≤ 1) && decide (r.tiles ≤ 32) && decide (1 ≤ n) && decide (n ≤ 32) &&
  ((List.range 4).all (roleOk l r)) && (eligible l r true || eligible l r false)

/-- The block keeps every limit of R365. -/
def blockOk (b : List Byte) (l : Launch) : Bool :=
  bField b 0 4 == 0x424C4B4D && decide (bField b 6 1 < 8) && (l.hasL || l.hasD) && bField b 7 1 == 0 &&
  decide (65536 ≤ l.pool) && decide (l.pool ≤ 524288) && l.pool % 4096 == 0 && l.scratch % 256 == 0 && decide (l.scratch + l.pool ≤ 0x180000) &&
  l.htab % 64 == 0 && (!l.hasL || l.llen != 0) && (!l.hasD || l.dslen != 0) &&
  (l.allots.all fun a => decide (a ≤ 768) && a % 16 == 0) && bField b 80 48 == 0 &&
  (List.range 16).all fun e => !(l.row e).used || rowOk b l e

/-! Acceptance and refusal. -/

/-- The launch slot takes a new state, the completion or refusal is traced, and the message follows the STATE write (R460, R505). -/
def endLaunch (s : State) (c k state cause : Nat) : State :=
  let x := slotOf s c k
  let s1 := setSlot s c k { x with state := state, cause := cause, wait := false, head := [], ok := false, blk := none }
  msix (traceRec s1 (firstDie s c) 0x3FF c 2 k (state + cause * 256)) (fld (s1.reg (rLWVEC c)) 4 0)

/-- The dies of a partition in order of the context's resident groups, fewest first (R378). -/
def fewestDie (s : State) (c : Nat) : Nat :=
  let n (d : Nat) : Nat := (s.groups.filter fun e => (s.team e.2.team).ctx == c && dieOf (s.team e.2.team).core == d && !(s.team e.2.team).saved).length
  ((ctxDies s c).foldl (fun (b : Option Nat) d => match b with
    | none => some d
    | some x => if n d < n x then some d else b) none).getD (firstDie s c)

/-- The die that receives a root item (R361, R378). -/
def rootDie (s : State) (c : Nat) (x : LSlot) : Nat := if x.adie = 0xFF then fewestDie s c else firstDie s c + x.adie

/-- The pools of a starting launch: every bin of the partition is empty, its pop counter zero (R368). -/
def clearBins (s : State) (c : Nat) : State :=
  (ctxCores s c).foldl (fun s k => s.setCore k { s.core k with bins := [], flying := [] }) s

/-- A launch starts where none runs and its die has room for the root item's batch of one; otherwise it waits in its slot; the root
item's place must carry the context's key tag (R364, R375, R378, R434). -/
def startLaunch (s : State) (c k : Nat) : State :=
  let x := slotOf s c k
  let d := rootDie s c x
  if (running s c).isSome ∨ !backingRoom s d c then s
  else if !regionOk s d c then fatalCtx s c (FaultAt.none 0x3FF k) PROTECTION 2 (backBase s d c) 0
  else
    let e := itemEntry x.item
    let s1 := clearBins (setSlot s c k { x with state := 2 }) c
    setList s1 d c e (listOf s1 d c e ++ [[⟨x.item, 0, 0, none⟩]])

/-- n bytes from an address touch a page. -/
def onPage (page a n : Nat) : Bool := decide (pageOf a ≤ page) && decide (page ≤ pageOf (a + n - 1))
/-- What a split is about to read lies on a page: its next words, the hinge table, the addresses of its memory word. -/
def splitWants (l : Option Launch) (isL : Bool) (page : Nat) (p : Split) : Bool :=
  (p.mem.any fun m => m.rest.any fun k => pageOf (m.va k) == page) ||
  l.any fun l => onPage page l.htab (24 * l.hcount) || onPage page ((if isL then l.lbase else l.dsbase) + p.pc) 12 ||
    p.queue.any fun q => onPage page (l.dlbase + 12 * q.off) 12
/-- A command of an engine has an address on a page. -/
def copyWants (page : Nat) (q : CCmd) : Bool := onPage page (q.src.toNat + 16 * q.pos) 16 || onPage page (q.dst.toNat + 16 * q.pos) 16
def matrixWants (page : Nat) (q : MCmd) : Bool :=
  let rows (a p : Nat) : Bool := (List.range 64).any fun k => onPage page (a + p * k) 512
  match q.op with
  | .load a p => rows a p
  | .drain _ d m => rows d.toNat m.dpitch.toNat || pageOf m.amaxaddr.toNat == page || pageOf m.scaleaddr.toNat == page
  | _ => false
/-- An access of a program of the context, or of its deferred work, waits for the page of an address or may be about to. -/
def pageWanted (s : State) (c va : Nat) : Bool :=
  let page := pageOf va
  let mine (gh : Nat) : Bool := (s.team (s.grp gh).team).ctx == c
  (s.groups.any fun e => mine e.1 && e.2.splits.any (splitWants (teamLaunch s (s.team e.2.team)) (s.team e.2.team).isL page)) ||
  (s.cores.any fun k => (k.2.late.any fun w => mine w.gh && w.m.rest.any fun l => pageOf (w.m.va l) == page) ||
    (k.2.slog.any fun e => mine e.gh && e.bytes.any fun b => pageOf b.1 == page) ||
    (k.2.cq.any fun q => mine q.gh && copyWants page q) || k.2.mq.any fun q => mine q.gh && matrixWants page q) ||
  (s.ctx c).defers.any fun d => pageOf d.node == page || pageOf d.head == page
/-- The failed request for a page is forgotten once the launch that read there is refused, but for an access that waits for the page (R363,
R430). -/
def forgetDenied (s : State) (c va : Nat) : State :=
  let x := s.ctx c
  if pageWanted s c va then s
  else s.setCtx c { x with misses := x.misses.filter fun e => e.1 != pageOf va, unmap := x.unmap.filter fun u => u.1 != pageOf va }

/-- The queued slot that starts next: launches restored by a resume in their saved order, each once its block has been read (R419); then the lowest
number (R364). -/
def nextQueued (s : State) (c : Nat) : Option Nat :=
  let qs := (s.ctx c).slots.filter fun e => e.2.state == 1
  match qs.filter fun e => e.2.order != 0 with
  | [] => (qs.find? fun e => e.2.ok).map Prod.fst
  | e :: es =>
    let r := es.foldl (fun (b : Nat × LSlot) f => if f.2.order < b.2.order then f else b) e
    if r.2.ok then some r.1 else none

/-- The checks of R363 on an accepted launch, and its start. -/
def readLaunch (s : State) (c k : Nat) : State :=
  let x := slotOf s c k
  let core := 128 * firstDie s c
  if x.adie ≠ 0xFF ∧ (ctxDies s c).length ≤ x.adie then endLaunch s c k 4 4
  else if (ctxDies s c).any fun d => fld (s.reg (rBACKING d c)) 63 56 < 2 then endLaunch s c k 4 5
  else if x.ablock.toNat % 64 ≠ 0 then endLaunch s c k 4 2
  else
    -- the values read stay those of the launch while its entry table's page is still awaited
    match if x.head.isEmpty then devRead s c core (whoLaunch k) x.ablock.toNat 256 else .ok x.head with
    | .wait s1 => s1
    | .bad _ _ va => endLaunch (forgetDenied s c va) c k 4 3
    | .ok b =>
      match devRead s c core (whoLaunch k) (bField b 40 8) 1024 with
      | .wait s1 => setSlot s1 c k { slotOf s1 c k with head := b }
      | .bad _ _ va => endLaunch (forgetDenied s c va) c k 4 3
      | .ok t =>
        let l := parseBlock x.ablock.toNat b t
        if !blockOk b l then endLaunch s c k 4 2
        else if !(l.row (itemEntry x.item)).used then endLaunch s c k 4 1
        else
          -- a launch that is read while a lower slot is queued waits for its turn (R364)
          let s1 := setSlot (endTries s c core (whoLaunch k)) c k { x with wait := false, head := [], ok := true, blk := some l }
          if nextQueued s1 c = some k then startLaunch s1 c k else s1

/-- LAUNCH_BLOCK_READ: the device reads and checks the block of an accepted launch, or goes on waiting for a page (R363). -/
def execLaunchBlockRead (ctx slot : Nat) (s : State) : Out :=
  if (slotOf s ctx slot).wait && ctxResident s ctx && deviceReady s then .next (readLaunch s ctx slot) else .fault (.notEnabled "LAUNCH_BLOCK_READ")

/-- QUEUED_LAUNCH_START (R364). -/
def execQueuedLaunchStart (ctx : Nat) (s : State) : Out :=
  match nextQueued s ctx with
  | none => .fault (.notEnabled "QUEUED_LAUNCH_START")
  | some k =>
    if (running s ctx).isNone && backingRoom s (rootDie s ctx (slotOf s ctx k)) ctx && ctxValid s ctx && ctxState s ctx == 0 then
      .next (startLaunch s ctx k)
    else .fault (.notEnabled "QUEUED_LAUNCH_START")

/-- No group of the context is resident or swapped out (R54). -/
def noGroups (s : State) (c : Nat) : Bool := (s.groups.all fun e => (s.team e.2.team).ctx != c) && (s.ctx c).saves.isEmpty

/-- LAUNCH_COMPLETE: no item waits and no group is left; every write of the launch has been performed (R54, R364, R505, R506). -/
def execLaunchComplete (ctx : Nat) (s : State) : Out :=
  match running s ctx with
  | none => .fault (.notEnabled "LAUNCH_COMPLETE")
  | some (k, _) =>
    if noItems s ctx && noGroups s ctx && ctxValid s ctx && ctxState s ctx == 0 then .next (clearBins (endLaunch s ctx k 3 0) ctx)
    else .fault (.notEnabled "LAUNCH_COMPLETE")

end Sys2Proof.Machine
end

