-- ==== Sys2Proof/Machine/Copy.lean ====
section
/-! DEFINITION. The copy engine: cpy, its command, and cwait (R332 to R335, R461). -/
namespace Sys2Proof.Machine

/-- The counter class ASYNC (R94). -/
def cASYNC : Nat := 2

/-- Fields of a copy's control register (R332). -/
def cpyLen (ctl : Word64) : Nat := fld ctl 31 0
def cpyDsp (ctl : Word64) : Bool := fld ctl 32 32 == 1
def cpySsp (ctl : Word64) : Bool := fld ctl 33 33 == 1
/-- An address of a copy in its space. -/
def cpyAddr (sp : Bool) (x : Word64) : Nat := if sp then x.toNat % 2 ^ 32 else x.toNat

/-- The check of one range at issue, which is one access to it (R333); an empty range is checked as the address of one granule. -/
def cpyRange (s : State) (sp : Bool) (a len : Nat) : SpAns :=
  if sp then spRange s s.ct len a
  else if canonical a && canonical ((a + (len - 1)) % 2 ^ 64) then .at_ 0 0 else .fail (2, PROTECTION, 0)

/-- What the group issued earlier on the stream has been performed (R287): words in progress, lanes that wait in ldfe, and what a release on the
stream waits for but the engines' commands; with release, those too. -/
def cmdReady (s : State) (gh stream id : Nat) (rel : Bool) : Bool :=
  ((s.grp gh).splits.all fun p => match p.mem with
    | some m => m.strm != stream || decide (id ≤ m.id)
    | none => true) &&
  (s.cores.all fun c => c.2.waits.all fun w => w.gh != gh || w.strm != stream || decide (id ≤ w.pend)) &&
  performed s gh stream id && (!rel || relReady s gh stream id)

/-- A collective step record of a copy (R460, R461). -/
def stepRec (s : State) (c : CCmd) (ev : Nat) : State :=
  let t := s.team (s.grp c.gh).team
  if c.f.step then traceRec s (dieOf t.core) t.core t.ctx ev c.f.stepid t.reg.toNat else s

/-- cpy: checks at issue, then the command (R332 to R334). -/
def execCpy (f : CpyF) (s : State) : Out :=
  Res.out do
    let s1 ← forbidTx s s.sp.mask
    let ctl := s1.rS f.ctl
    let dst := cpyAddr (cpyDsp ctl) (s1.rS f.dst)
    let src := cpyAddr (cpySsp ctl) (s1.rS f.src)
    let len := cpyLen ctl
    if f.fe && !cpyDsp ctl then .error (illegalExec s1)
    else if !roomCounter s1 cASYNC then .error (retry s1)
    else if dst % 16 ≠ 0 ∨ src % 16 ≠ 0 ∨ len % 16 ≠ 0 then
      .error (fatal s1 MISALIGN 16 (if dst % 16 ≠ 0 then dst else if src % 16 ≠ 0 then src else dst) 0)
    else
      match cpyRange s1 (cpyDsp ctl) dst len, cpyRange s1 (cpySsp ctl) src len with
      | .fail e, _ => .error (fatal s1 e.2.1 e.2.2 dst 0)
      | _, .fail e => .error (fatal s1 e.2.1 e.2.2 src 0)
      | .hold, _ => .error (retry s1)
      | _, .hold => .error (retry s1)
      | _, _ =>
        let c : CCmd := ⟨f, s1.seq, s1.cur.gh, s1.rS f.dst, s1.rS f.src, ctl, false, 0, [], wordPlace s1⟩
        if len = 0 then .ok (stepRec (stepRec s1 c 10) c 11)
        else
          let g := s1.cg
          let s2 := s1.setCg { g with pend := g.pend ++ [⟨cASYNC, s1.seq, true, []⟩] }
          .ok (s2.setCore s2.ct.core { s2.cc with cq := s2.cc.cq ++ [c] })

/-- cwait: holds the split until the group's copies on the stream have completed (R335). -/
def execCwait (st : Nat) (s : State) : Out :=
  Res.out do
    let s1 ← forbidTx s s.sp.mask
    waitUnless s1 (s1.cc.cq.all fun c => c.gh != s1.cur.gh || c.f.stream != st)

/-- The command begins with the reading of its first granule: its start is traced (R461). -/
def cpyBegin (s : State) (c : CCmd) : State := if c.begun then s else stepRec s c 10

/-! The engine. -/

/-- What reaching for one granule gives: a location of memory, a scratchpad place, a wait, or a fatal fault. -/
inductive GranAns where
  | mem (loc : Nat)
  | sp (core off : Nat)
  | wait (s : State)
  | bad (code detail addr : Nat)
  deriving DecidableEq, Repr

/-- A side of a granule among accesses that wait for their pages (R430). -/
def CCmd.who (c : CCmd) (i : Nat) (write : Bool) : List Nat := [3, c.id, i, bbit write 0]
/-- A granule of one side of a copy (R334). -/
def cpyPlace (s : State) (tid : Nat) (sp : Bool) (a : Nat) (write : Bool) (who : List Nat) : GranAns :=
  let t := s.team tid
  if sp then
    match spRange s t 16 a with
    | .at_ c o => .sp c o
    | .fail f => .bad f.2.1 f.2.2 a
    | .hold => .wait s
  else
    let waits (un : Bool) : GranAns := match waitPage s t.ctx t.core a write who un with
      | .ok s1 => .wait s1
      | .error d => .bad TRANSLATION_DENIED d a
    match xlate s t.ctx t.core a write with
    | .hit loc => .mem loc
    | .miss => waits false
    | .unmapped => waits true
    | .prot d => .bad PROTECTION d a

/-- The AOP of the combination of a REDOP (R325, R333). -/
def redAop (redop : Nat) : Nat := match redop with
  | 1 => 0
  | 2 => 1
  | 3 => 2
  | 4 => 0
  | _ => 4

/-- The combination of REDOP (R333), element by element of a granule. -/
def cpyCombine (f : CpyF) (old src : Nat) : Nat :=
  let aop := redAop f.redop
  if f.redop = 0 then src
  else
    let n := formBytes f.t 0
    let w := 2 ^ (8 * n)
    (List.range (16 / n)).foldl (fun acc k => acc + atomNew f.t aop (old / w ^ k % w) (src / w ^ k % w) 0 * w ^ k) 0

/-- Write a granule to a scratchpad: its data, its poison mark, then its full-empty bit (R268, R333, R454). -/
def cpyPutSp (s : State) (f : CpyF) (core off v : Nat) (po : Bool) : State :=
  let c := s.core core
  let c1 := c.wrSp off (toBytes 16 (cpyCombine f (c.rdSp off 16) v))
  let c2 := { c1 with spois := mset false c1.spois (off / 16) (po || (f.redop != 0 && c.spPoison off 16)) }
  s.setCore core (if f.fe then c2.setFull (off / 16) true else c2)
/-- Write a granule to memory. -/
def cpyPutMem (s : State) (f : CpyF) (loc v : Nat) (po : Bool) : State :=
  let old := s.isPoison loc 16
  let s1 := s.perform (cellsOf loc (toBytes 16 (cpyCombine f (s.rdNat loc 16) v)))
  { s1 with poison := mset false s1.poison (loc / 16) (po || (f.redop != 0 && old)) }

/-- One granule of a copy: the state after it, or the state in which the engine waits, or a fault (R333, R334). -/
inductive GranRes where
  | next (s : State)
  | wait (s : State)
  | bad (s : State) (code detail addr : Nat)
  deriving DecidableEq, Repr

/-- What a poisoned answer to a read for a granule marks (R454): its place. -/
def GranAns.mark : GranAns → List (Nat × Nat)
  | .sp k o => [(k + 1, o / 16)]
  | .mem loc => if isPeer loc then [] else [(0, loc / 16)]
  | _ => []
/-- A peer access of a granule. -/
def cpyPeer (s : State) (c : CCmd) (va loc : Nat) : PeerOut := peerReq s c.id c.gh c.f.stream va loc 0 c.org
/-- The source bytes of a granule, and whether they are poison; a wait where a host half is absent or the line is locked. A read of global
memory reaches the home L2 (R262, R265, R310, R347); mark: where a poisoned answer of a peer shows. -/
def cpySource (s : State) (c : CCmd) (core ctx va : Nat) (mark : List (Nat × Nat)) : GranAns → Except State (State × Nat × Bool)
  | .sp k o => .ok (s, (s.core k).rdSp o 16, (s.core k).spPoison o 16)
  | .mem loc =>
    if isPeer loc then .ok (peerSay s { cpyPeer s c va loc with mark := mark } (.peer false loc [] []), s.rdNat loc 16, s.isPoison loc 16)
    else
      match hostWait s core loc false with
      | some s1 => .error s1
      | none =>
        if lineLocked s (lineOf loc) none then .error s
        else
          let a := accOf s ctx va loc 16 c.f.hint 0 c.f.stream
          .ok (l2Access s (lineOf loc) a.cls a.prio a.bypass, s.rdNat loc 16, copyPoison s core loc 16 true)
  | _ => .error s
/-- A granule is written at its destination, which is ready (R333, R454, R509). -/
def cpyPut (s : State) (c : CCmd) (va v : Nat) (po : Bool) : GranAns → State
  | .sp k o => cpyPutSp s c.f k o v po
  | .mem loc =>
    let n := formBytes c.f.t 0
    if !isPeer loc then cpyPutMem s c.f loc v po
    else if c.f.redop = 0 then peerPut s (cpyPeer s c va loc) (toBytes 16 v) (if po then [loc / 16] else [])
    else (List.range (16 / n)).foldl (fun s k => peerSay s (cpyPeer s c (va + n * k) (loc + n * k))
      (.peerAtom (redAop c.f.redop) c.f.t (loc + n * k) (v / 2 ^ (8 * n * k) % 2 ^ (8 * n)) 0 po)) s
  | _ => s
/-- Granule number i of a copy: its destination's line is taken, then its source is read (R333, R334). The reading of the first
is the command's start (R461). -/
def cpyGranule (s : State) (c : CCmd) (i : Nat) : GranRes :=
  let tid := (s.grp c.gh).team
  let t := s.team tid
  let sa := (cpyAddr (cpySsp c.ctl) c.src + 16 * i) % 2 ^ 64
  let da := (cpyAddr (cpyDsp c.ctl) c.dst + 16 * i) % 2 ^ 64
  match cpyPlace s tid (cpySsp c.ctl) sa false (c.who i false), cpyPlace s tid (cpyDsp c.ctl) da true (c.who i true) with
  | .bad e d a, _ => .bad s e d a
  | .wait s1, _ => .wait s1
  | _, .bad e d a => .bad s e d a
  | _, .wait s1 => .wait s1
  | src, dst =>
    match (match dst with
      | .mem loc => if isPeer loc then LineAns.ready s else homeAccess s t.core (lineOf loc) loc (accOf s t.ctx da loc 16 c.f.hint 0 c.f.stream) none
      | _ => .ready s) with
    | .wait s1 => .wait s1
    | .home s1 => .wait s1
    | .ready s1 =>
      match cpySource s1 c t.core t.ctx sa dst.mark src with
      | .error s2 => .wait s2
      | .ok (s2, v, po) =>
        .next (endTries (endTries (cpyPut (cpyBegin s2 c) c da v po dst) t.ctx t.core (c.who i false)) t.ctx t.core (c.who i true))

/-- Up to n granules in order, those already copied apart: how far the command gets. -/
def cpyRun : Nat → State → CCmd → GranRes × CCmd
  | 0, s, c => (.next s, c)
  | n + 1, s, c =>
    if c.early.contains c.pos then cpyRun n s { c with pos := c.pos + 1, early := c.early.filter (· != c.pos) }
    else
      match cpyGranule s c c.pos with
      | .next s1 => cpyRun n s1 { c with pos := c.pos + 1, begun := true }
      | r => (r, c)

/-- A fatal fault of a queued command: its record names the word that made it (R446). -/
def fatalCmd (s : State) (gh : Nat) (o : FaultAt) (code detail addr : Nat) : State :=
  fatalCtx s (s.team (s.grp gh).team).ctx o code detail addr 0

/-- The first command of a core's copy queue becomes another, or leaves. -/
def setHead (s : State) (core : Nat) (c : Option CCmd) : State :=
  let k := s.core core
  s.setCore core { k with cq := c.toList ++ k.cq.drop 1 }

/-- The command can run: what it must follow has been performed; a copy that sets granules full is a release (R287, R290, R333). -/
def cpyReady (s : State) (c : CCmd) : Bool := c.begun || cmdReady s c.gh c.f.stream c.id (c.f.order == 2 || c.f.fe)

/-- COPY_COMMAND_COMPLETE: the engine writes every granule of its first command, in increasing order, and the command completes once its peers
have answered; where a page or a line is not at hand it asks for it, keeps what it has written, and goes on at a later event (R333, R334). -/
def execCopyCommandComplete (core : Nat) (s : State) : Out :=
  match (s.core core).cq with
  | [] => .fault (.notEnabled "COPY_COMMAND_COMPLETE")
  | c :: _ =>
    if cpyReady s c then
      let r := cpyRun (cpyLen c.ctl / 16 - c.pos) s c
      match r.1 with
      | .next s2 =>
        if s2.io.peerOut.any fun p => p.id == c.id && p.gh == c.gh then .next (setHead s2 core (some r.2))
        else .next (stepRec (dropPend (setHead s2 core none) c.gh c.id) c 11)
      | .wait s2 => .next (setHead s2 core (some r.2))
      | .bad s2 e d a => .next (fatalCmd s2 c.gh c.org e d a)
    else .fault (.notEnabled "COPY_COMMAND_COMPLETE")

/-- The granule that comes k after the next of a core's first copy is written ahead of its turn: granules are written in any order (R294,
R333). -/
def granuleAhead (core k : Nat) (s : State) : Out :=
  match (s.core core).cq with
  | [] => .next s
  | c :: _ =>
    let i := c.pos + k
    if cpyReady s c && decide (i < cpyLen c.ctl / 16) && !c.early.contains i then
      match cpyGranule s c i with
      | .next s1 => .next (setHead s1 core (some { c with begun := true, early := c.early ++ [i] }))
      | .wait s1 => .next s1
      | .bad s1 e d a => .next (fatalCmd s1 c.gh c.org e d a)
    else .next s

end Sys2Proof.Machine
end

