-- ==== Sys2Proof/Machine/MatrixOps.lean ====
section
/-! DEFINITION. The arithmetic of the matrix engine: operand rows (R218, R219, R243), K-steps (R222 to R225) and drain stages (R232 to R236). -/
namespace Sys2Proof.Machine

/-! Operand values. -/

/-- Bits of one operand value (R129). -/
def mfmtBits (f : Nat) : Nat := if f < 4 then 8 else if f < 6 then 16 else 32
/-- The K of a format: 32 bytes of values (R89). -/
def mfmtK (f : Nat) : Nat := 256 / mfmtBits f
/-- An exact point operand; none for a NaN, NaR or infinity (R222). -/
def mfmtQ (f bits : Nat) : Option Q :=
  let pt (g : Fmt) : Option Q := match fpOf g bits with
    | .fin neg k => some (fpVal g neg k)
    | _ => none
  match f with
  | 0 => mk8Val bits
  | 1 => pt e4m3
  | 2 => pt e5m2
  | 4 => pt bf16
  | _ => pt fp16

/-- Value k of a 32-byte row. -/
def rowVal (f row k : Nat) : Nat := row / 2 ^ (mfmtBits f * k) % 2 ^ mfmtBits f

/-- Old or new for each 32-bit word of a 16-byte granule (R243). -/
def mixGran (n key old new : Nat) : Nat :=
  (List.range 4).foldl (fun acc w => acc + (if Config.freeHalf n 9 key w then new / 2 ^ (32 * w) % 2 ^ 32 else old / 2 ^ (32 * w) % 2 ^ 32) * 2 ^ (32 * w)) 0

/-- Row i of a register-fragment operand at step st (R218): old is the register file at issue, new as it stands. -/
def fragRow (n : Nat) (old new : AMap Word64) (base inc st i : Nat) : Nat :=
  (List.range 4).foldl (fun acc q =>
    let key := (base + 8 * inc * st + 4 * (i / 32) + q) * 32 + i % 32
    acc + (mixHalf n 0 key (mget 0 old key) (mget 0 new key)).toNat * 2 ^ (64 * q)) 0
/-- The elements that fragRow reads. -/
def fragKeys (base inc st i : Nat) : List Nat := (List.range 4).map fun q => (base + 8 * inc * st + 4 * (i / 32) + q) * 32 + i % 32

/-- Fields of a descriptor (R219). -/
def descBase (d : Word64) : Nat := fld d 20 0
def descPitch (d : Word64) : Nat := fld d 47 32
def descT (d : Word64) : Nat := fld d 31 0
def descRot (d : Word64) : Nat := fld d 35 32
/-- The offset of granule g of row i at step st (R219). -/
def descOff (d0 d1 : Word64) (st i g : Nat) : Nat :=
  let a := descBase d0 + st * descT d1 + i * descPitch d0 + 16 * g
  if descRot d1 = 0 then a else a ^^^ (i % 2 ^ descRot d1 * 32)
/-- 16 bytes of a scratchpad, as a number. -/
def spGran (m : AMap Byte) (o : Nat) : Nat := ofBytes ((List.range 16).map fun k => mget 0 m (o + k))
/-- Row i of a scratchpad operand at step st. -/
def descRow (n : Nat) (old new : AMap Byte) (d0 d1 : Word64) (st i : Nat) : Nat :=
  let g (k : Nat) : Nat := let o := descOff d0 d1 st i k; mixGran n o (spGran old o) (spGran new o)
  g 0 + g 1 * 2 ^ 128

/-! One element of one step. -/

/-- The exact sum of the products, or none where a factor is a NaN, NaR or infinity (R222). -/
def dotQ : List (Option Q) → List (Option Q) → Q → Option Q
  | some a :: as, some b :: bs, acc => dotQ as bs (qAdd acc (qMul a b))
  | [], _, acc => some acc
  | _, [], acc => some acc
  | _, _, _ => none
/-- An interval element after a step (R222). -/
def stepIvl (w : Word64) : Option Q → Word64
  | none => x32Write .nai
  | some q =>
    match x32Read w with
    | .mk lo hi => x32Write (.mk (xAddR lo (.fin q)) (xAddR hi (.fin q)))
    | _ => w

/-- A mid-rad operand: its set, and its exact midpoint and radius where both are finite. -/
def mrParts (f : Fmt) (m r : Nat) : Ivl × Q × Q := (mrRead f m r, fpQ f (fpOf f m), qAbs (fpQ f (fpOf f r)))
def isEntire : Ivl → Bool
  | .mk .ninf .pinf => true
  | _ => false
def mrNai : Word64 := 0x7FC000007FC00000
def mrEmpty : Word64 := 0xFF80000000000000
def mrEntire : Word64 := 0x7F80000000000000
/-- The two exact sums of a mid-rad step (R224). -/
def dotMr : List (Ivl × Q × Q) → List (Ivl × Q × Q) → Q → Q → Q × Q
  | (_, am, ar) :: as, (_, bm, br) :: bs, sm, sr =>
    dotMr as bs (qAdd sm (qMul am bm)) (qAdd sr (qAdd (qAdd (qMul (qAbs am) br) (qMul ar (qAbs bm))) (qMul ar br)))
  | _, _, sm, sr => (sm, sr)
/-- A mid-rad element after a step (R224). The sign of a midpoint that a negative sum rounds to zero is a free value (DESIGN CHOICE, log
23: R224 states none). A NaI operand writes the canonical NaI also over an element that reads as NaI; an element that reads as empty or entire and
meets an operand of its class keeps its bits (DESIGN CHOICE, log 80). -/
def stepMr (w : Word64) (as bs : List (Ivl × Q × Q)) : Word64 :=
  let e := mrParts fp32 (lo32 w).toNat (hi32 w).toNat
  let ops := (as ++ bs).map fun x => x.1
  if ops.any Ivl.isNai then mrNai
  else if e.1.isNai || e.1.isEmpty then w
  else if ops.any Ivl.isEmpty then mrEmpty
  else if isEntire e.1 then w
  else if ops.any isEntire then mrEntire
  else
    let d := dotMr as bs (qInt 0) (qInt 0)
    let t := qAdd e.2.1 d.1
    match roundQ fp32 .near t with
    | .fin neg k =>
      (match roundQ fp32 .up (qAdd (qAdd e.2.2 d.2) (qAbs (qSub t (fpVal fp32 neg k)))) with
       | .fin false r => mk64 (BitVec.ofNat 32 r) (BitVec.ofNat 32 (fpBitsOpen fp32 21 t (.fin neg k)))
       | _ => mrEntire)
    | _ => mrEntire

/-- The exact sum of signed products (R225). -/
def dotI : List Int → List Int → Int → Int
  | a :: as, b :: bs, acc => dotI as bs (acc + a * b)
  | _, _, acc => acc
/-- An integer element after a step, and whether it overflows (R225). -/
def stepI (w : Word64) (sum : Int) : Word64 × Bool :=
  let z := sext 32 (lo32 w).toNat + sum
  (BitVec.ofNat 64 (z % 2 ^ 32).toNat, decide (z < -(2 ^ 31)) || decide (2 ^ 31 ≤ z))

/-- The key of a tile element. -/
def tileKey (tile row col : Nat) : Nat := (tile * 64 + row) * 64 + col

/-- One K-step of a tile from its rows of A and columns of B (R222, R224, R225): the new elements by key, and whether some element overflowed. -/
def kStep (af bf tile : Nat) (tiles : AMap Word64) (a b : List Nat) : List (Nat × Word64) × Bool :=
  let vals {α : Type} (f : Nat) (g : Nat → α) (row : Nat) : List α := (List.range (mfmtK f)).map fun k => g (rowVal f row k)
  let cells {α : Type} (as bs : List α) (g : Word64 → α → α → Word64 × Bool) : List (Nat × Word64 × Bool) :=
    ((List.range 64).zip as).flatMap fun ra => ((List.range 64).zip bs).map fun cb =>
      let k := tileKey tile ra.1 cb.1
      (k, g (mget 0 tiles k) ra.2 cb.2)
  let r : List (Nat × Word64 × Bool) :=
    if af = 3 then
      cells (a.map (vals 3 (sext 8))) (b.map (vals 3 (sext 8))) fun w x y => stepI w (dotI x y 0)
    else if af = 6 then
      let p (x : Nat) : Ivl × Q × Q := mrParts bf16 (x % 2 ^ 16) (x / 2 ^ 16)
      cells (a.map (vals 6 p)) (b.map (vals 6 p)) fun w x y => (stepMr w x y, false)
    else
      cells (a.map (vals af (mfmtQ af))) (b.map (vals bf (mfmtQ bf))) fun w x y => (stepIvl w (dotQ x y (qInt 0)), false)
  (r.map fun x => (x.1, x.2.1), r.any fun x => x.2.2)

/-! The drain. -/

/-- A tile element as an interval (R232 step 1). -/
def drainIvl (mode : Nat) (w : Word64) : Ivl :=
  match mode with
  | 0 => x32Read w
  | 1 => outward fp32 (mrRead fp32 (lo32 w).toNat (hi32 w).toNat)
  | _ => let v := qInt (sext 32 (lo32 w).toNat); outward fp32 (.mk (.fin v) (.fin v))

/-- The magnitude that AMAX takes (R233); an empty element gives nothing. -/
def amaxOf : Ivl → Nat
  | .nai => 0x7FC00000
  | .empty => 0
  | .mk lo hi => fpBits fp32 (ruX fp32 (xMax (xMax lo (xNegR lo)) (xMax hi (xNegR hi))))

/-- The sign of a datum. -/
def fpNeg : Fp → Bool
  | .nan => false
  | .inf n => n
  | .fin n _ => n
/-- A sum rounded to nearest with the zero signs of IEEE 754: a zero of a non-zero sum keeps its sign, an exact zero is -0 where both terms
are. -/
def sumPt (q : Q) (bothNeg : Bool) : Fp :=
  match roundQ fp32 .near q with
  | .fin n k => if k = 0 then .fin (if q.n = 0 then bothNeg else decide (q.n < 0)) 0 else .fin n k
  | x => x
/-- The bits of a point, with the sign of a zero. -/
def ptBits (x : Fp) : Nat := match x with
  | .fin true 0 => 2 ^ 31
  | x => fpBits fp32 x
def infPt : Fp → Bool
  | .inf _ => true
  | _ => false
/-- a * b + c rounded once, as R235 says; a product of zero and an infinity is zero, and the result is c. -/
def fmaPt (a b c : Fp) : Fp :=
  match a, b, c with
  | .nan, _, _ => .nan
  | _, .nan, _ => .nan
  | _, _, .nan => .nan
  | a, b, c =>
    let p := xMulR (fpXR fp32 a) (fpXR fp32 b)
    match p, fpXR fp32 c with
    | .fin x, .fin y => if x.n = 0 && (infPt a || infPt b) then c else sumPt (qAdd x y) (x.n == 0 && y.n == 0 && (fpNeg a != fpNeg b) && fpNeg c)
    | .pinf, .ninf => .nan
    | .ninf, .pinf => .nan
    | .pinf, _ => .inf false
    | .ninf, _ => .inf true
    | _, .pinf => .inf false
    | _, .ninf => .inf true
/-- The segment of a point (R235): formed exactly and clamped. -/
def segOf (x0 invh : Nat) : Fp → Option Nat
  | .nan => none
  | x =>
    match fpOf fp32 x0, fpOf fp32 invh with
    | .fin n0 k0, .fin false kh =>
      if kh = 0 then none
      else
        match x with
        | .inf neg => some (if neg then 0 else 255)
        | x => some (min 255 (qFloor (qMul (qSub (fpQ fp32 x) (fpVal fp32 n0 k0)) (magVal fp32 kh))).toNat)
    | _, _ => none
/-- ACT with a table of bytes (R235). -/
def actPt (tab : Nat → Nat) (x : Fp) : Fp :=
  match segOf (tab 0) (tab 4) x with
  | none => .nan
  | some k => fmaPt (fpOf fp32 (tab (16 + 8 * k))) x (fpOf fp32 (tab (20 + 8 * k)))
/-- BIAS: the rounded sum (R234). -/
def biasPt (b : Nat) (x : Fp) : Fp := fmaPt (.fin false 0x3F800000) x (fpOf fp32 b)

/-- Bytes per element of a drain (R232). -/
def drainBytes (f : MdrnF) : Nat := if f.qnt then 1 else if f.bias || f.act then 4 else if f.mode = 2 then 4 else 8
/-- The FP32 points of a row after BIAS and ACT (R232 to R235); rd reads 4 bytes of the scratchpad. -/
def drainPts (f : MdrnF) (nrm : Nat) (bo ao : Nat) (rd : Nat → Nat) (row : List Word64) : List Fp :=
  ((List.range 64).zip row).map fun e =>
    let x := (narrowFp fp32 nrm (drainIvl f.mode e.2)).1
    let y := if f.bias then biasPt (rd (bo + 4 * e.1)) x else x
    if f.act then actPt (fun k => rd (ao + k)) y else y
/-- The bytes of a drained row, and its scales (R232, R236). An interval is written in its canonical form (R134). -/
def drainRow (f : MdrnF) (nrm : Nat) (bo ao : Nat) (rd : Nat → Nat) (row : List Word64) : List Byte × List Nat :=
  if f.qnt then
    let pts := drainPts f nrm bo ao rd row
    let q0 := qntBlock f.qtgt f.qscf (pts.take 32)
    let q1 := qntBlock f.qtgt f.qscf (pts.drop 32)
    ((q0.2 ++ q1.2).map fun x => BitVec.ofNat 8 x.1, [q0.1, q1.1])
  else if f.bias || f.act then ((drainPts f nrm bo ao rd row).flatMap fun x => toBytes 4 (ptBits x), [])
  else if f.mode = 2 then (row.flatMap fun w => toBytes 4 (lo32 w).toNat, [])
  else (row.flatMap fun w => toBytes 8 (x32Write (drainIvl f.mode w)).toNat, [])

end Sys2Proof.Machine
end

