-- ==== Sys2Proof/Machine/Matrix.lean ====
section
/-! DEFINITION. Matrix words (R237 to R250) and the events of the matrix engine (R227 to R231). -/
namespace Sys2Proof.Machine

/-! Issue. -/

/-- A command enters the engine's queue, or the word waits for room (R94, R227). ws: the registers it will write. -/
def issueCmd (s : State) (op : MOp) (st tile : Nat) (ws : List PW) : Res :=
  let c : MCmd := ⟨op, s.seq, s.cur.gh, st, tile, s.cg.nrm, 0, false, s.cg.v, s.cc.sp, wordPlace s⟩
  let s1 := s.setCore s.ct.core { s.cc with mq := s.cc.mq ++ [c] }
  .ok (s1.setCg { s1.cg with pend := s1.cg.pend ++ [⟨cASYNC, s.seq, true, ws⟩] })

/-- A command at issue by the lanes that execute it: FORBIDDEN in a transaction (R341); room in the counter and in the queue of 16 (R94, R227). -/
def matRoom (s : State) (act : Word32) : Res := do
  let s1 ← forbidTx s act
  if !roomCounter s1 cASYNC || decide (16 ≤ s1.cc.mq.length) then .error (retry s1) else .ok s1
/-- The tile lies in the team's tiles (R68, R250). -/
def checkTile (s : State) (tile : Nat) : Res := if s.ct.ntiles ≤ tile then .error (fatal s ACS_RANGE s.ct.ntiles tile 0) else .ok s
/-- The frame of a command whose only check is its tile, or whose other checks follow it: the manual gives ACS_RANGE no place among the
faults of an mld or mdrn that meets several; the model raises it first (DESIGN CHOICE, log 69). -/
def matFrame (s : State) (tile : Nat) (act : Word32) (k : State → Res) : Res := do
  let s1 ← matRoom s act
  let s2 ← checkTile s1 tile
  k s2

/-- A scratchpad range of n bytes at an offset of the own core lies in the team's allocation. -/
def ownRange (s : State) (o n : Nat) : Bool := let t := s.ct; decide (t.off ≤ o) && decide (o + n ≤ t.off + t.bytes)
/-- A scratchpad address names the own core (R13). -/
def ownPos (s : State) (a : Nat) : Bool := a / 2 ^ 24 == 0 && (a / 2 ^ 21 % 8 == 7 || a / 2 ^ 21 % 8 == posOf s.ct.core)

/-- Checks in order: the first that fails is raised (R220, R247, R250). -/
def checkAll (s : State) : List (Bool × Nat × Nat × Nat) → Res
  | [] => .ok s
  | c :: cs => if c.1 then .error (fatal s c.2.1 c.2.2.1 c.2.2.2 0) else checkAll s cs

/-- The first register that a fragment operand would read at or beyond the allotment (R220, R442). -/
def fragBad (allot base inc steps : Nat) : Option Nat :=
  ((List.range (steps + 1)).find? fun st => decide (allot ≤ base + 8 * inc * st + 7)).map fun st => max allot (base + 8 * inc * st)
/-- The first offset that a descriptor operand would read outside the allocation. -/
def descBad (s : State) (d0 d1 : Word64) (steps : Nat) : Option Nat :=
  (List.range (steps + 1)).findSome? fun st => (List.range 64).findSome? fun i => (List.range 2).findSome? fun g =>
    let o := descOff d0 d1 st i g
    if ownRange s o 16 then none else some o
/-- The checks of one operand of mloop (R220): of several that fail a descriptor's alignment comes first, then its ROT, then its range (DESIGN
CHOICE, log 69). -/
def checkOperand (s : State) (src : Bool) (reg inc steps : Nat) : Res :=
  if src then
    let d0 := s.rS reg
    let d1 := s.rS (reg + 1)
    if descBase d0 % 16 ≠ 0 ∨ descPitch d0 % 16 ≠ 0 ∨ descT d1 % 16 ≠ 0 then .error (fatal s MISALIGN 16 (descBase d0) 0)
    else if 6 ≤ descRot d1 then .error (illegalExec s)
    else
      match descBad s d0 d1 steps with
      | some o => .error (fatal s PROTECTION 0 o 0)
      | none => .ok s
  else
    match fragBad s.cg.allot reg inc steps with
    | some r => .error (fatal s REG_BOUND 4 r 0)
    | none => .ok s

/-- mloop (R240): the operands are checked, A before B (DESIGN CHOICE, log 69), then the tile, then OPREADY. -/
def execMloop (f : MloopF) (s : State) : Out :=
  Res.out (do
    let s0 ← matRoom s s.sp.mask
    let inc := match f.c with
      | some c => s0.rS c
      | none => 0
    let ainc := fld inc 7 0
    let binc := fld inc 15 8
    do
      let s1 ← checkOperand s0 f.asrc f.a ainc f.ksteps
      let s2 ← checkOperand s1 f.bsrc f.b binc f.ksteps
      let s2 ← checkTile s2 f.tile
      if !s2.cg.misc.opready then .error (illegalExec s2)
      else if f.pair && (s2.isL || s2.ct.pair.isNone) then .error (fatal s2 PAIR_MISMATCH 2 (partnerCore s2.ct.core) 0)
      else
        let g := s2.cg
        let d (src : Bool) (r : Nat) : Word64 := if src then s2.rS r else 0
        issueCmd (s2.setCg { g with misc := { g.misc with opready := false } })
          (.loop f (d f.asrc f.a) (d f.asrc (f.a + 1)) (d f.bsrc f.b) (d f.bsrc (f.b + 1)) ainc binc) f.stream f.tile [])

/-- A drain into the scratchpad: its writes are stores of the group (R247). -/
def spadDrain (c : MCmd) : Bool := match c.op with
  | .drain f _ _ => !f.glob
  | _ => false
/-- mrdy: holds the split until the group's earlier register writes, scratchpad stores and copies on the stream have completed (R242). -/
def execMrdy (st : Nat) (s : State) : Out :=
  Res.out do
    let s1 ← forbidTx s s.sp.mask
    let g := s1.cg
    let rd (c : MCmd) : Bool := match c.op with
      | .rd _ _ _ => true
      | _ => false
    let mine (gh : Nat) : Bool := gh == s1.cur.gh
    let ready := (g.pend.all fun p => p.cls == cASYNC) && (s1.cc.mq.all fun c => !mine c.gh || !(rd c || spadDrain c)) &&
      (g.splits.all fun p => p.mem.all fun m => !(m.sp && m.wr)) && (s1.cc.late.all fun w => !mine w.gh || !(w.m.sp && w.store)) &&
      s1.cc.cq.all fun c => !mine c.gh || c.f.stream != st
    if ready then .ok (s1.setCg { g with misc := { g.misc with opready := true } }) else .error (retry s1)

/-- mwait: holds the split until the group's commands on the stream, and on the tile unless ALL, have retired (R244). -/
def execMwait (st tile : Nat) (all : Bool) (s : State) : Out :=
  Res.out do
    let s1 ← forbidTx s s.sp.mask
    waitUnless s1 (s1.cc.mq.all fun c => c.gh != s1.cur.gh || c.stream != st || (!all && c.tile != tile))

/-- mzero (R245). -/
def execMzero (st tile : Nat) (s : State) : Out := Res.out (matFrame s tile s.sp.mask fun s => issueCmd s .zero st tile [])

/-- mld: checks at issue, then the command (R245). Of several that fail the model raises the pitch's first, then the alignment's, then the
range's (DESIGN CHOICE, log 69). -/
def execMld (st tile a : Nat) (s : State) : Out :=
  Res.out (matFrame s tile s.sp.mask fun s =>
    let x := s.rS a
    let addr := fld x 31 0
    let pitch := fld x 47 32
    let o := addr % 2 ^ 21
    do
      let s1 ← checkAll s [(pitch % 16 != 0 || decide (pitch < 512), MISALIGN, 16, addr), (o % 16 != 0, MISALIGN, 16, addr),
        (!ownPos s addr || !ownRange s o (63 * pitch + 512), PROTECTION, 0, addr)]
      issueCmd s1 (.load o pitch) st tile [])

/-- The checks of mdrn at issue (R233, R247, R250), in the order in which the model raises the first that fails: the alignments, then the
ranges (DESIGN CHOICE, log 69: the manual gives no order). -/
def drainChecks (s : State) (f : MdrnF) (dst : Word64) : List (Bool × Nat × Nat × Nat) :=
  let m := s.cg.misc
  let e := drainBytes f
  let pitch := m.dpitch.toNat
  let da := if f.glob then dst.toNat else dst.toNat % 2 ^ 32
  let sa := if f.glob then m.scaleaddr.toNat else m.scaleaddr.toNat % 2 ^ 32
  let len := f.nrows * pitch + 64 * e
  let slen := 2 * (f.nrows + 1) * (if f.qscf = 0 then 2 else 1)
  let okAt (a n : Nat) : Bool := if f.glob then canonical a && canonical ((a + n - 1) % 2 ^ 64) else ownPos s a && ownRange s (a % 2 ^ 21) n
  let bo := m.biasoff.toNat
  let ao := m.actoff.toNat
  let am := m.amaxaddr.toNat
  [(da % 16 != 0, MISALIGN, 16, da), (pitch % 16 != 0 || decide (pitch < 64 * e), MISALIGN, 16, da),
   (f.bias && bo % 16 != 0, MISALIGN, 16, bo), (f.act && ao % 16 != 0, MISALIGN, 16, ao), (f.amax && am % 4 != 0, MISALIGN, 4, am),
   (f.bias && !ownRange s bo 256, PROTECTION, 0, bo), (f.act && !ownRange s ao 2064, PROTECTION, 0, ao), (!okAt da len, PROTECTION, 0, da),
   (f.qnt && !okAt sa slen, PROTECTION, 0, sa), (f.amax && !canonical am, PROTECTION, 0, am)]
/-- mdrn (R247). -/
def execMdrn (f : MdrnF) (s : State) : Out :=
  Res.out (matFrame s f.tile s.sp.mask fun s => do
    let s1 ← checkAll s (drainChecks s f (s.rS f.a))
    issueCmd s1 (.drain f (s.rS f.a) s.cg.misc) f.stream f.tile [])

/-- The row that acrd and acwr name (R248). -/
def rowAt (s : State) (row : Nat ⊕ Nat) : Nat := match row with
  | .inl r => r
  | .inr k => fld (s.rS k) 5 0
/-- acrd: a command that reads a row of the tile into a register pair (R248). -/
def execAcrd (h : VH) (st tile d : Nat) (row : Nat ⊕ Nat) (s : State) : Out :=
  Res.out (matFrame s tile (active s h) fun s =>
    let act := active s h
    issueCmd s (.rd act d (rowAt s row)) st tile ((lanesOf act).flatMap fun l => [⟨3, d * 32 + l, 0, false⟩, ⟨3, (d + 1) * 32 + l, 0, false⟩]))
/-- acwr: a command that writes a row of the tile from a register pair (R248). -/
def execAcwr (h : VH) (st tile a : Nat) (row : Nat ⊕ Nat) (s : State) : Out :=
  Res.out (matFrame s tile (active s h) fun s => do
    let act := active s h
    let s1 ← vpre s act [a, a + 1] []
    issueCmd s1 (.wr act a (rowAt s row)) st tile [])

/-- mcfg: a drain configuration register, its defined bits (R246). -/
def execMcfg (sel a : Nat) (s : State) : Out :=
  Res.out do
    let s1 ← forbidTx s s.sp.mask
    let x := s1.rS a
    let g := s1.cg
    let m := g.misc
    .ok (s1.setCg { g with misc := match sel with
      | 0 => { m with dpitch := x &&& 0xFFFFFFFF }
      | 1 => { m with biasoff := x &&& 0x1FFFFF }
      | 2 => { m with actoff := x &&& 0x1FFFFF }
      | 3 => { m with amaxaddr := x }
      | _ => { m with scaleaddr := x } })

/-- mpair.on: the partner's core ID where a pairing stands, else the split waits for a team on the partner core (R249). -/
def execMpairOn (d : Nat) (s : State) : Out :=
  Res.out do
    let s1 ← forbidTx s s.sp.mask
    let t := s1.ct
    if t.isL then .error (fatal s1 PAIR_MISMATCH 2 (partnerCore t.core) 0)
    else if t.pair.isSome then .ok (s1.wS d (BitVec.ofNat 64 (partnerCore t.core)))
    else .ok (s1.setSp { s1.sp with hold := .mpair d s1.seq })
/-- mpair.off: the pairing ends for both teams (R249). -/
def execMpairOff (s : State) : Out :=
  Res.out do
    let s1 ← forbidTx s s.sp.mask
    match s1.ct.pair with
    | some u => .ok (endPair s1 s1.cg.team u)
    | none => .ok s1

/-! Pairing. -/

/-- The order number of a team's first wait in mpair.on; none where no split of it waits. -/
def pairSince (s : State) (tid : Nat) : Option Nat :=
  (s.groups.flatMap fun e => if e.2.team = tid then e.2.splits.filterMap fun p => match p.hold with
    | .mpair _ k => some k
    | _ => none else []).foldl (fun m k => match m with
      | none => some k
      | some j => some (min j k)) none
/-- The team on a core that has waited longest in mpair.on with no pairing in effect (R249). -/
def pairFirst (s : State) (core : Nat) : Option Nat :=
  ((s.teams.filter fun e => e.2.core == core && !e.2.gone && !e.2.saved && e.2.pair.isNone).foldl (fun (b : Option (Nat × Nat)) e =>
    match pairSince s e.1, b with
    | none, _ => b
    | some k, none => some (e.1, k)
    | some k, some x => if k < x.2 then some (e.1, k) else b) none).map Prod.fst
/-- Every split of a team that waits in mpair.on continues with the partner's core ID. -/
def pairWake (s : State) (tid : Nat) : State :=
  let core := partnerCore (s.team tid).core
  { s with groups := s.groups.map fun (e : Nat × Group) =>
      if e.2.team = tid then
        (e.1, (List.range e.2.splits.length).foldl (fun g i =>
          let p := nthD Split.init g.splits i
          match p.hold with
          | .mpair d _ => { g.wS d (BitVec.ofNat 64 core) with splits := setAt g.splits i { p with hold := .none } }
          | _ => g) e.2)
      else e }
/-- MPAIR_JOIN: the teams that wait first on two partner cores are paired (R249). -/
def execMpairJoin (teamA teamB : Nat) (s : State) : Out :=
  let a := s.team teamA
  let b := s.team teamB
  if partnerCore a.core = b.core ∧ a.core ≠ b.core ∧ a.ctx = b.ctx ∧ pairFirst s a.core = some teamA ∧ pairFirst s b.core = some teamB then
    let s1 := (s.setTeam teamA { a with pair := some teamB }).setTeam teamB { b with pair := some teamA }
    .next (pairWake (pairWake s1 teamA) teamB)
  else .fault (.notEnabled "MPAIR_JOIN")

/-! The engine. -/

def MCmd.init : MCmd := ⟨.zero, 0, 0, 0, 0, 0, 0, false, [], [], FaultAt.none 0 0⟩
/-- The command at a place of a core's queue. -/
def cmdAt (s : State) (core idx : Nat) : MCmd := nthD MCmd.init (s.core core).mq idx
/-- No earlier command of the queue names the command's tile (R227). -/
def tileFree (s : State) (core idx : Nat) : Bool :=
  let c := cmdAt s core idx
  decide (idx < (s.core core).mq.length) && ((s.core core).mq.take idx).all fun q => q.gh / 32 != c.gh / 32 || q.tile != c.tile
/-- A paired command of the queue has agreed and has not retired (R229). -/
def lockStep (s : State) (core : Nat) : Bool := (s.core core).mq.any fun c => c.paired && c.agreed
/-- The first paired command of a team in a queue that waits for agreement. -/
def pairedAt (s : State) (core tid : Nat) : Option Nat := (s.core core).mq.findIdx? fun c => c.paired && !c.agreed && c.gh / 32 == tid
/-- The paired command of a queue that has agreed. -/
def agreedAt (s : State) (core : Nat) : Option Nat := (s.core core).mq.findIdx? fun c => c.paired && c.agreed
def putCmd (s : State) (core idx : Nat) (c : MCmd) : State := let k := s.core core; s.setCore core { k with mq := setAt k.mq idx c }

/-- What the paired commands must agree in (R230). -/
def samePair (a b : MCmd) : Bool := a.tile == b.tile && match a.op, b.op with
  | .loop f _ _ _ _ _ _, .loop g _ _ _ _ _ _ => f.ksteps == g.ksteps && f.afmt == g.afmt && f.bfmt == g.bfmt
  | _, _ => false

/-- PAIR_AGREEMENT: both matching paired commands are at a step boundary at which they could start; they agree, or differ (R229, R230). -/
def execPairAgreement (core idx : Nat) (s : State) : Out :=
  let c := cmdAt s core idx
  let tid := c.gh / 32
  match (s.team tid).pair with
  | none => .fault (.notEnabled "PAIR_AGREEMENT")
  | some u =>
    let other := partnerCore core
    match pairedAt s core tid, pairedAt s other u with
    | some i, some j =>
      if i = idx ∧ tileFree s core i ∧ tileFree s other j ∧ !lockStep s core ∧ !lockStep s other then
        let d := cmdAt s other j
        if samePair c d then .next (putCmd (putCmd s core i { c with agreed := true }) other j { d with agreed := true })
        else
          .next (fatalAll s (s.team tid).ctx (c.org, PAIR_MISMATCH, 1, other, 0) [(d.org, PAIR_MISMATCH, 1, core, 0)])
      else .fault (.notEnabled "PAIR_AGREEMENT")
    | _, _ => .fault (.notEnabled "PAIR_AGREEMENT")

/-- An operand's 64 rows at a step, and whether one of them is poisoned: the register index or scratchpad offset, with DETAIL (R218, R219, R455). -/
def operandRows (s : State) (core : Nat) (c : MCmd) (src : Bool) (reg : Nat) (d0 d1 : Word64) (inc : Nat) : List Nat × Option (Nat × Nat) :=
  let g := s.grp c.gh
  let k := s.core core
  if src then
    ((List.range 64).map fun i => descRow s.free c.spSnap k.sp d0 d1 c.step i,
     ((List.range 64).flatMap fun i => [descOff d0 d1 c.step i 0, descOff d0 d1 c.step i 1]).find? (fun o => mget false k.spois (o / 16)) |>.map fun o => (0, o))
  else
    ((List.range 64).map fun i => fragRow s.free c.vSnap g.v reg inc c.step i,
     ((List.range 64).flatMap fun i => fragKeys reg inc c.step i).find? (fun x => mget false g.vpois x) |>.map fun x => (1, x / 32))

/-- A tile element of a tile is poisoned (R454). -/
def tilePoison (t : Team) (tile : Nat) : Bool := t.tpois.any fun e => e.1 / 4096 == tile

/-- One K-step of the command at a place: the state after it, or a fault (R240, R455). -/
def oneStep (s : State) (core idx : Nat) : Res :=
  let c := cmdAt s core idx
  match c.op with
  | .loop f a0 a1 b0 b1 ai bi =>
    let tid := c.gh / 32
    let t := s.team tid
    let a := operandRows s core c f.asrc f.a a0 a1 ai
    let b := operandRows s core c f.bsrc f.b b0 b1 bi
    (match a.2, b.2 with
     | some x, _ => .error (fatalCmd s c.gh c.org POISON x.1 x.2)
     | _, some x => .error (fatalCmd s c.gh c.org POISON x.1 x.2)
     | none, none =>
       if tilePoison t c.tile then .error (fatalCmd s c.gh c.org POISON 2 c.tile)
       else
         let r := kStep f.afmt f.bfmt c.tile t.tiles a.1 b.1
         let t1 := { t with tiles := msetAll 0 t.tiles r.1, ovf := if r.2 then mset false t.ovf c.tile true else t.ovf }
         .ok (putCmd (s.setTeam tid t1) core idx { c with step := c.step + 1 }))
  | _ => .ok s

/-- A scratchpad store that happens before a command by an acquire of its group is still to be performed (R279, R285). -/
def syncedLate (s : State) (core : Nat) (c : MCmd) : Bool := (s.core core).late.any fun w => w.m.sp && w.store && w.sync.contains c.gh && decide (w.m.id < c.id)
/-- A loop that has a step left, at a place where it may run it. -/
def stepReady (s : State) (core idx : Nat) : Bool :=
  let c := cmdAt s core idx
  tileFree s core idx && (match c.op with
    | .loop f _ _ _ _ _ _ => decide (c.step ≤ f.ksteps) && !syncedLate s core c && (if f.pair then c.agreed else !lockStep s core)
    | _ => false)
/-- MATRIX_K_STEP: the engine runs one step of a command; the two engines of a pair run theirs in lock step (R227, R229). -/
def execMatrixKStep (core idx : Nat) (s : State) : Out :=
  let c := cmdAt s core idx
  if !stepReady s core idx then .fault (.notEnabled "MATRIX_K_STEP")
  else if c.paired then
    Res.out (do
      let s1 ← oneStep s core idx
      match agreedAt s1 (partnerCore core) with
      | some j => oneStep s1.draw (partnerCore core) j
      | none => .ok s1)
  else Res.out (oneStep s core idx)

/-! Retirement. -/

/-- Remove the command at a place; its counter falls (R239). -/
def dropCmd (s : State) (core idx : Nat) : State :=
  let c := cmdAt s core idx
  let k := s.core core
  dropPend (s.setCore core { k with mq := dropAt k.mq idx }) c.gh c.id

/-- mzero, mld and acwr on the tile (R245, R248). -/
def tileZero (t : Team) (tile : Nat) : Team :=
  { t with tiles := t.tiles.filter (fun e => e.1 / 4096 != tile), ovf := mset false t.ovf tile false, tpois := t.tpois.filter fun e => e.1 / 4096 != tile }
def tilePut (t : Team) (l : List (Nat × Word64)) : Team :=
  { t with tiles := msetAll 0 t.tiles l, tpois := msetAll false t.tpois (l.map fun x => (x.1, false)) }

/-- The elements that acrd writes: register places with their tile elements (R248). -/
def acrdVals (t : Team) (tile : Nat) (act : Word32) (d row : Nat) : List (Nat × Word64) :=
  (lanesOf act).flatMap fun l => [(d * 32 + l, mget 0 t.tiles (tileKey tile row l)), ((d + 1) * 32 + l, mget 0 t.tiles (tileKey tile row (32 + l)))]
/-- An acrd of the L-encoding has its values and has not retired: a read of its registers finds the old or the new value per half (R96, R243). -/
def acrdForm (s : State) (c : MCmd) (vals : List (Nat × Word64)) : State :=
  let g := s.grp c.gh
  s.setGrp c.gh { g with pend := g.pend.map fun p =>
    if p.id = c.id then { p with ws := p.ws.map fun w => match vals.find? fun x => x.1 == w.key with
      | some x => { w with kind := 0, val := x.2 }
      | none => w } else p }
/-- acrd writes its registers; a place that a later instruction wrote meanwhile holds old or new in the L-encoding, and keeps the later value
in the D-encoding (R96, R100, R243). -/
def acrdWrite (n : Nat) (isL : Bool) (p : Pend) (vals : List (Nat × Word64)) (g : Group) : Group :=
  vals.foldl (fun g x =>
    let con := p.ws.any fun w => w.key == x.1 && w.con
    if con then (if isL then g.wV (x.1 / 32) (x.1 % 32) (mixHalf n 0 x.1 (mget 0 g.v x.1) x.2) else g) else g.wV (x.1 / 32) (x.1 % 32) x.2) g

/-! Drains. -/

/-- The writes of one scale: one store, and at an odd address one store for each byte, which may lie in two lines or pages. -/
def scaleWrites (wrap : Nat → Nat) (a : Nat) (bs : List Byte) : List (Nat × List Byte × Bool) :=
  if a % bs.length = 0 then [(wrap a, bs, false)] else ((List.range bs.length).zip bs).map fun b => (wrap (a + b.1), [b.2], false)
/-- A drain's writes in order: address (in its space), bytes, and whether they hold a poisoned element; then its AMAX (R247, R454). -/
def drainWrites (s : State) (core : Nat) (c : MCmd) (f : MdrnF) (dst : Word64) (m : GMisc) : List (Nat × List Byte × Bool) :=
  let t := s.team (c.gh / 32)
  let k := s.core core
  let row (r : Nat) : List Word64 := (List.range 64).map fun j => mget 0 t.tiles (tileKey c.tile (f.row0 + r) j)
  let rs := (List.range (f.nrows + 1)).map fun r => drainRow f c.nrm m.biasoff.toNat m.actoff.toNat (fun o => k.rdSp o 4) (row r)
  let sb := if f.qscf = 0 then 2 else 1
  let wrap (a : Nat) : Nat := a % 2 ^ (if f.glob then 64 else 32)
  let bad (r q : Nat) : Bool := (List.range 64).any fun j => j * drainBytes f / 16 == q && mget false t.tpois (tileKey c.tile (f.row0 + r) j)
  ((List.range rs.length).zip rs).flatMap fun x =>
    ((List.range (x.2.1.length / 16)).map fun q => (wrap (dst.toNat + x.1 * m.dpitch.toNat + 16 * q), (x.2.1.drop (16 * q)).take 16, bad x.1 q)) ++
    ((List.range x.2.2.length).zip x.2.2).flatMap fun y => scaleWrites wrap (m.scaleaddr.toNat + (2 * x.1 + y.1) * sb) (toBytes sb y.2)
/-- The largest magnitude of the drained rows (R233). -/
def drainAmax (s : State) (c : MCmd) (f : MdrnF) : Nat :=
  let t := s.team (c.gh / 32)
  (List.range (f.nrows + 1)).foldl (fun m r =>
    (List.range 64).foldl (fun m j => max m (amaxOf (drainIvl f.mode (mget 0 t.tiles (tileKey c.tile (f.row0 + r) j))))) m) 0

/-- What one access of an engine to global memory gives. -/
inductive EngAns where
  | done (s : State)
  | wait (s : State)
  | bad (code detail addr : Nat)
  deriving DecidableEq, Repr

/-- A write of an engine in global memory: performed, or logged where its page is unmapped (R247, R322); entry is what the side log takes. -/
def engWrite (s : State) (gh stream va n : Nat) (entry : SEnt) (act : State → Nat → State) (peer : State → Nat → State) : EngAns :=
  let t := s.team (s.grp gh).team
  let who : List Nat := [4, entry.id, va]
  let done (s : State) : EngAns := .done (endTries s t.ctx t.core who)
  match xlate s t.ctx t.core va true with
  | .prot d => .bad PROTECTION d va
  | .miss => (match waitPage s t.ctx t.core va true who false with
    | .ok s1 => .wait s1
    | .error d => .bad TRANSLATION_DENIED d va)
  | .unmapped =>
    match waitPage s t.ctx t.core va true who true with
    | .error d => .bad TRANSLATION_DENIED d va
    | .ok s1 =>
      let k := s1.core t.core
      if k.slog.length < 256 then done (s1.setCore t.core { k with slog := k.slog ++ [entry] }) else .wait s1
  | .hit loc =>
    if isPeer loc then done (peer s loc)
    else
      match lineAccess s t.core (lineOf loc) true (accOf s t.ctx va loc n 0 0 stream) with
      | .ready s1 => done (act s1 loc)
      | .wait s1 => .wait s1
      | .home s1 =>
        match homeAccess s1 t.core (lineOf loc) loc (accOf s t.ctx va loc n 0 0 stream) none with
        | .ready s2 => done (act s2 loc)
        | .wait s2 => .wait s2
        | .home s2 => .wait s2

/-- One write of a drain; its unit is marked where it holds a poisoned element (R454). -/
def drainPut (s : State) (core : Nat) (c : MCmd) (glob : Bool) (w : Nat × List Byte × Bool) : EngAns :=
  let bs := w.2.1
  if glob then
    engWrite s c.gh c.stream w.1 bs.length ⟨c.id, c.gh, c.stream, 0, 0, 0, .store, cellsOf w.1 bs, if w.2.2 then [w.1] else []⟩
      (fun s loc => let t := s.perform (cellsOf loc bs); if w.2.2 then { t with poison := mset false t.poison (loc / 16) true } else t)
      (fun s loc => peerPut s (peerReq s c.id c.gh c.stream w.1 loc 0 c.org) bs (if w.2.2 then [loc / 16] else []))
  else
    let k := (s.core core).wrSp (w.1 % 2 ^ 21) bs
    .done (s.setCore core (if w.2.2 then { k with spois := mset false k.spois (w.1 % 2 ^ 21 / 16) true } else k))
/-- The merge of AMAX: one atomic unsigned max (R233). -/
def drainMerge (s : State) (c : MCmd) (va v : Nat) : EngAns :=
  engWrite s c.gh c.stream va 4 ⟨c.id, c.gh, c.stream, 4, 0, 0, .amax v, vcells va 4 v, []⟩
    (fun s loc => s.perform (cellsOf loc (toBytes 4 (max (s.rdNat loc 4) v)))) 
    (fun s loc => peerSay s (peerReq s c.id c.gh c.stream va loc 0 c.org) (.peerAtom 2 .n32 loc v 0 false))

/-- The writes of a drain from where it stands; step counts those made. -/
def drainRun (core : Nat) (c : MCmd) (glob : Bool) : List (Nat × List Byte × Bool) → State → Nat → EngAns × Nat
  | [], s, k => (.done s, k)
  | w :: ws, s, k =>
    match drainPut s core c glob w with
    | .done s1 => drainRun core c glob ws s1 (k + 1)
    | r => (r, k)

/-- A poisoned tile element of the drained rows, or table byte, that a stage of a drain would read (R455). A drain without a stage moves its elements
with their marks (R454). -/
def drainPoison (s : State) (core : Nat) (c : MCmd) (f : MdrnF) (m : GMisc) : Option (Nat × Nat) :=
  let k := s.core core
  let rowBad (r : Nat) : Bool := (List.range 64).any fun j => mget false (s.team (c.gh / 32)).tpois (tileKey c.tile (f.row0 + r) j)
  if (f.amax || f.bias || f.act || f.qnt) && (List.range (f.nrows + 1)).any rowBad then some (2, c.tile)
  else if f.bias && k.spPoison m.biasoff.toNat 256 then some (0, m.biasoff.toNat)
  else if f.act && k.spPoison m.actoff.toNat 2064 then some (0, m.actoff.toNat)
  else none

/-- Every access of a command has been made: none is left in the side log or without its peer's answer (R244). -/
def cmdPerformed (s : State) (core : Nat) (c : MCmd) : Bool :=
  ((s.core core).slog.all fun e => e.id != c.id || e.gh != c.gh) && s.io.peerOut.all fun p => p.id != c.id || p.gh != c.gh
/-- A drain has made its accesses: it retires once each of them has been performed (R244). -/
def endDrain (s : State) (core idx : Nat) (c : MCmd) : State := if cmdPerformed s core c then dropCmd s core idx else putCmd s core idx c
/-- A drain runs as far as it gets: its writes, then its merge; it retires when all is performed (R232, R233, R244, R247). Where every drained
element is empty, and none gives a magnitude, the merge is made with magnitude 0, which changes nothing (DESIGN CHOICE, log 70). -/
def runDrain (s : State) (core idx : Nat) (c : MCmd) (f : MdrnF) (dst : Word64) (m : GMisc) : State :=
  match drainPoison s core c f m with
  | some p => fatalCmd s c.gh c.org POISON p.1 p.2
  | none =>
    let ws := drainWrites s core c f dst m
    let r := drainRun core c f.glob (ws.drop c.step) s c.step
    match r.1 with
    | .bad e d a => fatalCmd s c.gh c.org e d a
    | .wait s1 => putCmd s1 core idx { c with step := r.2 }
    | .done s1 =>
      if f.amax && decide (c.step ≤ ws.length) then
        match drainMerge s1 c m.amaxaddr.toNat (drainAmax s c f) with
        | .done s2 => endDrain s2 core idx { c with step := ws.length + 1 }
        | .wait s2 => putCmd s2 core idx { c with step := r.2 }
        | .bad e d a => fatalCmd s1 c.gh c.org e d a
      else endDrain s1 core idx { c with step := max r.2 c.step }

/-- A command that has run all its steps, or that runs as it retires, may retire (R227, R287). -/
def retireReady (s : State) (core idx : Nat) : Bool :=
  let c := cmdAt s core idx
  tileFree s core idx && (match c.op with
    | .loop f _ _ _ _ _ _ => decide (f.ksteps < c.step)
    | _ => cmdReady s c.gh c.stream c.id false)

/-- MATRIX_COMMAND_RETIRE: the command finishes its steps and writes and retires (R227, R240, R245, R247, R248). A drain that meets a page
or a line not at hand asks for it and goes on at a later event; an acrd of the L-encoding first has its values and then writes them. -/
def execMatrixCommandRetire (core idx : Nat) (s : State) : Out :=
  let c := cmdAt s core idx
  let tid := c.gh / 32
  let t := s.team tid
  if !retireReady s core idx then .fault (.notEnabled "MATRIX_COMMAND_RETIRE")
  else
    match c.op with
    | .loop _ _ _ _ _ _ _ =>
      if c.paired then
        (match agreedAt s (partnerCore core) with
         | some j => .next (dropCmd (dropCmd s core idx) (partnerCore core) j)
         | none => .next (dropCmd s core idx))
      else .next (dropCmd s core idx)
    | .zero => .next (dropCmd (s.setTeam tid (tileZero t c.tile)) core idx)
    | .load o pitch =>
      let k := s.core core
      let bad := (List.range 64).find? fun i => k.spPoison (o + i * pitch) 512
      (match bad with
       | some i => .next (fatalCmd s c.gh c.org POISON 0 (o + i * pitch))
       | none =>
         let l := (List.range 64).flatMap fun i => (List.range 64).map fun j => (tileKey c.tile i j, BitVec.ofNat 64 (k.rdSp (o + i * pitch + 8 * j) 8))
         .next (dropCmd (s.setTeam tid (tilePut t l)) core idx))
    | .drain f dst m => .next (runDrain s core idx c f dst m)
    | .rd act d row =>
      if act ≠ 0 && (lanesOf act).any (fun l => mget false t.tpois (tileKey c.tile row l) || mget false t.tpois (tileKey c.tile row (32 + l))) then
        .next (fatalCmd s c.gh c.org POISON 2 c.tile)
      else if t.isL && c.step = 0 then .next (putCmd (acrdForm s c (acrdVals t c.tile act d row)) core idx { c with step := 1 })
      else
        let g := s.grp c.gh
        let p := (g.pend.find? fun p => p.id == c.id).getD ⟨cASYNC, c.id, true, []⟩
        let s1 := dropCmd s core idx
        .next (s1.setGrp c.gh (acrdWrite s.free t.isL p (acrdVals t c.tile act d row) (s1.grp c.gh)))
    | .wr act a row =>
      let g := s.grp c.gh
      let v (k : Nat) : Word64 := mixHalf s.free 0 k (mget 0 c.vSnap k) (mget 0 g.v k)
      let l := (lanesOf act).flatMap fun l => [(tileKey c.tile row l, v (a * 32 + l)), (tileKey c.tile row (32 + l), v ((a + 1) * 32 + l))]
      let t1 := tilePut t l
      .next (dropCmd (s.setTeam tid { t1 with ovf := mset false t1.ovf c.tile false }) core idx)

end Sys2Proof.Machine
end

