-- ==== Sys2Proof/Machine/Sched.lean ====
section
/-! DEFINITION. Events of the issue machinery: results of counted words (R94 to R96), the issue-age bound (R379, R380), the release of a retired
group's registers (R59, R400) and the order of requests at a home (R382). -/
namespace Sys2Proof.Machine

/-! Counted results. -/

/-- One write of a counted word: where a later instruction wrote the place meanwhile, either value per 32-bit half (R96). -/
def writePW (n : Nat) (g : Group) (w : PW) : Group :=
  match w.kind with
  | 0 => g.wV (w.key / 32) (w.key % 32) (if w.con then mixHalf n 0 w.key (mget 0 g.v w.key) w.val else w.val)
  | 1 => g.wS w.key (if w.con then mixHalf n 1 w.key (mget 0 g.s w.key) w.val else w.val)
  | 2 => if w.con && !Config.freeHalf n 2 w.key 0 then g else g.wQ (w.key / 32) (w.key % 32) w.val.toNat
  | _ => g

/-- The oldest instruction of a class whose result can be written: VMEM, SMEM and XLANE complete in issue order (R95). -/
def oldestPend (g : Group) (cls : Nat) : Option Pend :=
  match g.pend.find? fun p => p.cls == cls with
  | some p => if p.wait || cls == cASYNC then none else some p
  | none => none

/-- The latch data of a counted word lands in the position its entry holds (R65). -/
def landLatch (s : State) (gh id : Nat) : State :=
  let g := s.grp gh
  let core := (s.team g.team).core
  let c := s.core core
  let e := mget (0, []) c.latch g.part
  if e.1 = gh then
    s.setCore core { c with latch := mset (0, []) c.latch g.part (gh, e.2.map fun x => if x.pend = some id then { x with pend := none } else x) }
  else s

/-- The result of one counted instruction is written and its counter falls. -/
def finishPend (s : State) (gh : Nat) (p : Pend) : State :=
  let g := s.grp gh
  let g1 := { g with pend := g.pend.filter fun q => q.id != p.id }
  landLatch (s.draw.setGrp gh (p.ws.foldl (writePW s.free) g1)) gh p.id

/-- COUNTED_RESULT_WRITE: the oldest instruction of the class writes its result and its counter falls (R94, R95). -/
def execCountedResultWrite (group cls : Nat) (s : State) : Out :=
  match oldestPend (s.grp group) cls with
  | some p => .next (finishPend s group p)
  | none => .fault (.notEnabled "COUNTED_RESULT_WRITE")

/-! The issue-age bound. -/

/-- ISSUE_AGE_BOUND: a ready split that has not issued for 64 cycles reaches the age rank (R379, R380). -/
def execIssueAgeBound (group sp : Nat) (s : State) : Out :=
  let g := s.grp group
  let p := nthD Split.init g.splits sp
  if decide (sp < g.splits.length) && splitReady g p && groupMay s g && decide (64 ≤ p.age) && !p.aged then
    .next (s.setGrp group { g with splits := setAt g.splits sp { p with aged := true } })
  else .fault (.notEnabled "ISSUE_AGE_BOUND")

/-! Release. -/

/-- Everything of a group that outlives its words is finished: counted results, commands, pushes, side-log entries, peer accesses, accesses
still to be performed and ldfe waits (R291, R400). -/
def groupQuiet (s : State) (gh : Nat) : Bool :=
  let g := s.grp gh
  let c := s.core (s.team g.team).core
  g.pend.isEmpty && g.pushes.isEmpty && (c.cq.all fun q => q.gh != gh) && (c.mq.all fun q => q.gh != gh) && (c.slog.all fun e => e.gh != gh) &&
  (s.io.peerOut.all fun p => p.gh != gh) && !lateWords s gh && s.cores.all fun k => k.2.waits.all fun w => w.gh != gh

/-- The partition's latches no longer belong to a group (R66). -/
def dropLatch (s : State) (gh core part : Nat) : State :=
  let c := s.core core
  if (mget (0, []) c.latch part).1 = gh then s.setCore core { c with latch := mset (0, []) c.latch part (0, []) } else s

/-- The team leaves the machine when its last group does. -/
def dropTeam (s : State) (tid : Nat) : State :=
  if s.groups.any fun e => e.2.team == tid then s else { s with teams := merase s.teams tid }

/-- GROUP_RELEASE: a retired group's registers are released once its accesses have drained (R400). -/
def execGroupRelease (group : Nat) (s : State) : Out :=
  let g := s.grp group
  if g.retired && groupQuiet s group then
    .next (dropTeam (dropLatch { s with groups := merase s.groups group } group (s.team g.team).core g.part) g.team)
  else .fault (.notEnabled "GROUP_RELEASE")

/-! The arbiters of the on-die network (R381, R382). A stop of a die is a core's position there, 128 on for the L2 slices, 160 for the spine stop. -/

/-- The tag of a request in flight. -/
def State.tagOf (s : State) (m : Msg) : ReqTag := (s.tags.find? fun t => t.msg == m).getD ⟨m, 31, 0, 0, 0, false⟩
/-- The first tag of a message becomes another, or leaves. -/
def setTag (m : Msg) (t : Option ReqTag) : List ReqTag → List ReqTag
  | [] => t.toList
  | x :: l => if x.msg = m then t.toList ++ l else x :: setTag m t l
/-- The requests in flight, in the order in which they were sent. -/
def requests (s : State) : List ReqTag := (s.net.filter fun m => isReq m.kind).map s.tagOf
/-- The arbiter that a request comes to once it has passed some injection points: a die, a stop and a loop; loop 12 is the input port of an L2 slice.
A request to another die is injected again at the spine stop of its home die (R381, R382). -/
def arbiterAt (m : Msg) (hop : Nat) : Nat × Nat × Nat :=
  let d := homeDie (128 * m.line)
  let slice := 128 + homeSlice (128 * m.line)
  let k := dieOf m.core
  if hop = 0 then (k, m.core % 128, Config.loopNo (m.core % 128) (if k = d then slice else 160) % 12)
  else if hop = 1 ∧ k ≠ d then (d, 160, Config.loopNo 160 slice % 12)
  else (d, slice, 12)
/-- What an arbiter grants among the requests that wait at it: the lowest slack, then the longest wait, then the lower core; a request that has
waited more than 256 cycles there competes as slack 0; none goes ahead of an earlier request of its core to its line (R382). -/
def arbiter (l : List ReqTag) : Option ReqTag :=
  let may := ((List.range l.length).zip l).filter fun e => (l.take e.1).all fun x => x.msg.core != e.2.msg.core || x.msg.line != e.2.msg.line
  (leastBy (fun (e : Nat × ReqTag) => [(if e.2.out then 0 else (e.2.slack : Int)), (e.2.since : Int), (e.2.msg.core : Int)]) may).map Prod.snd
/-- The requests that wait at an arbiter. -/
def waitingAt (s : State) (a : Nat × Nat × Nat) : List ReqTag := (requests s).filter fun t => t.arr == 0 && arbiterAt t.msg t.hop == a
/-- A request has arrived at its home (R302, R382). -/
def State.arrive (s : State) (m : Msg) : State :=
  if (s.tagOf m).arr = 0 then { s with tags := setTag m (some { s.tagOf m with arr := max 1 s.seq }) s.tags } else s
/-- An arbiter grants a request: it passes an injection point, or arrives at its home (R302, R382). -/
def grantReq (a : Nat × Nat × Nat) (s : State) : Out :=
  match arbiter (waitingAt s a) with
  | some t =>
    .next (if a.2.2 = 12 then s.arrive t.msg
           else { s with tags := setTag t.msg (some { t with hop := t.hop + 1, since := s.seq, out := false }) s.tags })
  | none => .next s
/-- A waiting request is what every arbiter on its way grants. -/
def goesAhead (s : State) (t : ReqTag) : Bool :=
  arbiter (waitingAt s (arbiterAt t.msg t.hop)) == some t &&
  (List.range 3).all fun h =>
    let a := arbiterAt t.msg h
    let u := { t with since := s.seq, out := false }
    decide (h ≤ t.hop) || a == arbiterAt t.msg t.hop || arbiter (waitingAt s a ++ [u]) == some u
/-- The first arbiter with a request to grant. -/
def pickGrant (s : State) : Option (Nat × Nat × Nat) := ((requests s).find? fun t => t.arr == 0).map fun t => arbiterAt t.msg t.hop

/-- SLACK_TIMEOUT: a request that has waited more than 256 cycles at an arbiter competes there as slack 0 (R382). -/
def execSlackTimeout (req : Nat) (s : State) : Out :=
  match s.net[req]? with
  | none => .fault (.notEnabled "SLACK_TIMEOUT")
  | some m =>
    if isReq m.kind && (s.tagOf m).arr == 0 then .next { s with tags := setTag m (some { s.tagOf m with out := true }) s.tags }
    else .fault (.notEnabled "SLACK_TIMEOUT")

end Sys2Proof.Machine
end

