-- ==== Sys2Proof/Machine/Home.lean ====
section
/-! DEFINITION. The home of a line: the requests it serves and the answers it receives (R296 to R299, R302 to R304, R307), recovery of a directory
entry (R313, R314), and host memory at its home (R310 to R312). -/
namespace Sys2Proof.Machine

/-! Messages. -/

/-- Remove one message. -/
def eraseMsg (m : Msg) : List Msg → List Msg
  | [] => []
  | x :: l => if x = m then l else x :: eraseMsg m l
def State.take (s : State) (m : Msg) : State := { s with net := eraseMsg m s.net, tags := setTag m none s.tags }
/-- The request for a line that its home serves next: of those that have arrived the first; where none has, one that every arbiter on its way grants
(R302, R382). -/
def headReq (s : State) (line : Nat) : Option Msg :=
  let mine := (requests s).filter fun t => t.msg.line == line
  match leastBy (fun (t : ReqTag) => [(t.arr : Int)]) (mine.filter fun t => t.arr != 0) with
  | some t => some t.msg
  | none => (mine.find? (goesAhead s)).map (·.msg)
/-- The first message of a line and a core that meets a test. -/
def findMsg (s : State) (line core : Nat) (p : MKind → Bool) : Option Msg := s.net.find? fun m => m.line == line && m.core == core && p m.kind
/-- The home may serve the oldest request of a line: its entry is not BUSY and no lane has locked it (R302, R347). -/
def homeFree (s : State) (line : Nat) : Bool := (s.dirE line).busy.isNone && !lineLocked s line none
/-- A request at the head of its line's queue. -/
def served (s : State) (line core : Nat) (p : MKind → Bool) : Option Msg :=
  match headReq s line with
  | some m => if m.core = core && p m.kind && homeFree s line then some m else none
  | none => none

/-- Kinds of message, whatever they carry. -/
def isNotice : MKind → Bool
  | .notice _ _ => true
  | _ => false
def isRecallData : MKind → Bool
  | .recallData _ => true
  | _ => false
def isData : MKind → Bool
  | .data _ => true
  | _ => false
def isFwdS : MKind → Bool
  | .fwdS _ => true
  | _ => false
def isFwdM : MKind → Bool
  | .fwdM _ => true
  | _ => false
def isFwdPub (stream : Nat) : MKind → Bool
  | .fwdPub st _ => st == stream
  | _ => false
def isFill : MKind → Bool
  | .fill _ => true
  | _ => false

/-- Every answer has arrived. -/
def Busy.done (b : Busy) : Bool := b.acks.isEmpty && b.fwd.isNone && b.fills.isEmpty && b.sweep.isEmpty

/-! Grants. -/

/-- The weaker of the states of the present halves of a host line; M for device memory (R311). -/
def lineGrant (e : DirEnt) (line : Nat) : Nat :=
  if isHost (128 * line) then (if e.half0 = 0 then e.half1 else if e.half1 = 0 then e.half0 else min e.half0 e.half1) else 3
/-- A core's request is served: it is lost no more; at a poisoned entry it receives poison, the whole line where it becomes the sole holder, else
its own copy (R313). -/
def tainted (s : State) (line core : Nat) (sole : Bool) : State :=
  let e := s.dirE line
  let e1 := { e with lost := e.lost.filter (· != core), taint := e.taint.filter (· != core) ++ if e.psn && !sole then [core] else [] }
  let s1 := if e1 = e then s else s.setDirE line e1
  if e.psn && sole then poisonLine s1 line else s1
/-- The line goes to one core in M: Data, or UpgAck. -/
def grantM (s : State) (line core : Nat) (k : MKind) : State :=
  (s.setDirE line ((s.dirE line).alone (some core))).send ⟨line, core, k⟩
/-- The halves that a request of a core needs first (R311). -/
def askHalves (s : State) (line core : Nat) (write : Bool) : Option State :=
  let e := s.dirE line
  let loc := match l1Find (s.core core) line with
    | some x => x.sbytes.headD (128 * line)
    | none => 128 * line
  if isHost (128 * line) && missingHalves e loc write != [] then
    some ((missingHalves e loc write).foldl (fun s h => s.sendOnce ⟨line, core, .half h write⟩) s)
  else none

/-! The end of BUSY. -/

/-- PushDone goes to the pushing core, and the installers are the sharers (R304). -/
def endPush (s : State) (line : Nat) (b : Busy) : State :=
  let e := (s.dirE line).alone none
  let e1 := b.got.foldl addSharer e
  (s.setDirE line { e1 with st := if b.got.isEmpty then .i else .s }).send ⟨line, b.core, .pushDone b.stream b.gh b.id⟩
/-- The unit of a die's last uncorrectable error (R453). -/
def ueUnit (s : State) (die unit : Nat) : State := s.setReg (rERRSTAT die) (setFld (s.reg (rERRSTAT die)) 7 0 unit)
/-- A die counts an uncorrectable error of a unit that has been marked as poison (R453). -/
def countUe (s : State) (die unit : Nat) : State :=
  let r := s.reg (rERRSTAT die)
  s.setReg (rERRSTAT die) (setFld (setFld r 31 16 (min (fld r 31 16 + 1) 0xFFFF)) 7 0 unit)
/-- A counter of PUSHSTAT rises, saturating (R307): 0 QUOTA, 1 CTX, 2 RETN, 3 TRANS. -/
def pushStat (s : State) (die ctx k n : Nat) : State :=
  let r := s.reg (rPUSHSTAT die ctx)
  if ctx < 64 then s.setReg (rPUSHSTAT die ctx) (setFld r (16 * k + 15) (16 * k) (min (fld r (16 * k + 15) (16 * k) + n) 0xFFFF)) else s
/-- The home as sole holder of a line performs a Push and sends one Fill to each destination (R304 steps 2 and 3). -/
def performPush (s : State) (line : Nat) (m : Msg) : State :=
  match m.kind with
  | .push stream ctx gh id dests cells po =>
    let s1 := (tainted (s.take m) line m.core true).perform cells
    let s2 := { s1 with poison := po.foldl (fun p u => mset false p u true) s1.poison }
    let real := dests.filter (coreExists s.part)
    let s3 := pushStat s2 (homeDie (128 * line)) ctx 1 (dests.length - real.length)
    let e := halvesM (s3.dirE line)
    let b : Busy := { Busy.init with req := 7, core := m.core, stream := stream, gh := gh, id := id, ctx := some ctx, fills := real, dirty := 1 }
    let s4 := sendAll (s3.setDirE line e) line (.fill ctx) real
    if real.isEmpty then endPush s4 line b else s4.setDirE line { e with busy := some b }
  | _ => s
/-- The Push that a BUSY entry makes the home sole holder for. -/
def pushOf (s : State) (line : Nat) (b : Busy) : Option Msg :=
  s.net.find? fun m => m.line == line && m.core == b.core && match m.kind with
    | .push _ _ gh id _ _ _ => gh == b.gh && id == b.id
    | _ => false

/-- What a host snoop leaves: 0 data, 1 invalidate, 2 current (R312); dirty data of the half goes to the host. -/
def endSnoop (s : State) (line half kind : Nat) : State :=
  let e := s.dirE line
  let h := halfState e half
  let bs := s.rdBytes (128 * line + 64 * half) 64
  let data := h = 3 || kind == 2
  let s1 := s.say (.read (if data then bs else []) (if data then s.poisUnits (128 * line + 64 * half) 64 else []))
  let h1 := if kind = 0 then 1 else if kind = 1 then 0 else h
  let s2 := s1.setDirE line (if half = 0 then { e with half0 := h1 } else { e with half1 := h1 })
  if kind = 1 then doomLanes s2 [line] none else s2

/-- The host bridge's answer to a Sweep: an interrupted snoop is answered, then both halves of a host line are invalidated, and dirty data goes
to the host (R312, R314). -/
def bridgeSweep (s : State) (line : Nat) (snoop : Option Nat) : State :=
  if isHost (128 * line) then
    let s1 := match snoop with
      | some d => endSnoop s line (d % 2) (d / 2)
      | none => s
    (List.range 2).foldl (fun s h => if halfState (s.dirE line) h = 0 then s else endSnoop s line h 1) s1
  else s
/-- The entry leaves BUSY (R302, R304, R312, R314). -/
def endBusy (s : State) (line : Nat) (b : Busy) : State :=
  let e := { s.dirE line with busy := none }
  let s0 := s.setDirE line e
  match b.req with
  | 1 => s0.setDirE line (addSharer { e with st := b.next, owner := if b.next = .o then e.owner else none } b.core)
  | 2 => if b.dirty = 0 then grantM s0 line b.core (.data .m) else s0.setDirE line (e.alone (some b.core))
  | 3 => grantM s0 line b.core .upgAck
  | 7 =>
    if b.dirty = 0 then
      let s1 := s0.setDirE line (e.alone none)
      (pushOf s1 line b).elim s1 (performPush s1 line)
    else endPush s0 line b
  | 8 =>
    let e1 : DirEnt := { DirEnt.init with psn := e.psn || decide (2 ≤ b.dirty), lost := e.lost }
    let s1 := (bridgeSweep s0 line b.snoop).setDirE line e1
    let s2 := if e1.psn then countUe (poisonLine s1 line) (homeDie (128 * line)) 6 else if b.dirty = 0 then s1.say (.corrected line) else s1
    if b.next = .s then endPush s2 line { b with got := [] } else s2
  | 9 =>
    let e1 := if b.next = .i then (if e.st = .em ∨ b.dirty / 2 = 1 then e.alone none else { e with st := .s, owner := none, nrels := [] }) else e
    endSnoop (s0.setDirE line e1) line (b.dirty % 2) (b.dirty / 2)
  | 11 | 12 => s0
  | _ => s0.setDirE line (e.alone none)

/-- The entry as the answers leave it. -/
def setBusy (s : State) (line : Nat) (b : Busy) : State :=
  if b.done then endBusy s line b else s.setDirE line { s.dirE line with busy := some b }

/-- The home asks every holder of a line to give it up (R304 step 1), for a request. -/
def gather (s : State) (line : Nat) (b : Busy) : State :=
  let e := s.dirE line
  let inv := (sharersOf s e).filter fun c => some c != e.owner
  let s1 := sendAll s line .inv inv
  let s2 := match e.owner with
    | some o => s1.send ⟨line, o, .recall⟩
    | none => s1
  setBusy s2 line { b with acks := inv, fwd := e.owner }

/-! Requests. -/

/-- GETS (R302): the acquire flag and the stream are the request's. An acquire from outside the scope of a release that the owner in EM has not
published forces the publish, on the release's stream (R284). -/
def execGetS (line core : Nat) (acq : Bool) (stream : Nat) (s : State) : Out :=
  match served s line core (· == .getS acq stream) with
  | none => .fault (.notEnabled "GETS")
  | some m =>
    match askHalves s line core false with
    | some s1 => .next (s1.arrive m)
    | none =>
      let s1 := tainted (noteOwner (s.take m) core line) line core ((s.dirE line).st == .i)
      let e := s1.dirE line
      match e.st, e.owner with
      | .em, some o =>
        let k : MKind := match if acq then outsideRel e core else none with
          | some r => .fwdPub r.2.1 core
          | none => .fwdS core
        .next ((s1.send ⟨line, o, k⟩).setDirE line
          { e with busy := some { Busy.init with req := 1, core := core, stream := stream, fwd := some o } })
      | .o, some o => .next ((s1.send ⟨line, o, .fwdS core⟩).setDirE line (addSharer e core))
      | .s, _ => .next ((s1.send ⟨line, core, .data .s⟩).setDirE line (addSharer e core))
      | _, _ =>
        if 2 ≤ lineGrant e line then .next ((s1.send ⟨line, core, .data .e⟩).setDirE line (e.alone (some core)))
        else .next ((s1.send ⟨line, core, .data .s⟩).setDirE line { addSharer (e.alone none) core with st := .s })

/-- A read-exclusive request is served (R302). -/
def serveM (s : State) (line core : Nat) : State :=
  let e := s.dirE line
  let b : Busy := { Busy.init with req := 2, core := core }
  match e.st, e.owner with
  | .em, some o => (s.send ⟨line, o, .fwdM core⟩).setDirE line (e.alone (some core))
  | .o, some o =>
    let inv := (sharersOf s e).filter (· != o)
    setBusy (sendAll (s.send ⟨line, o, .fwdM core⟩) line .inv inv) line { b with acks := inv, dirty := 1 }
  | .i, _ => grantM s line core (.data .m)
  | _, _ =>
    let inv := sharersOf s e
    setBusy (sendAll s line .inv inv) line { b with acks := inv }

/-- GETM (R302). -/
def execGetM (line core : Nat) (s : State) : Out :=
  match served s line core (· == .getM) with
  | none => .fault (.notEnabled "GETM")
  | some m =>
    match askHalves s line core true with
    | some s1 => .next (s1.arrive m)
    | none => .next (serveM (tainted (noteOwner (s.take m) core line) line core true) line core)

/-- UPG (R302): from a core that is not listed it is served as GetM. Another core that owns the line gives it up by Inv, and under COARSE, where
R297 forbids an Inv to it, by Recall (DESIGN CHOICE, log 71). -/
def execUpg (line core : Nat) (s : State) : Out :=
  match served s line core (· == .upg) with
  | none => .fault (.notEnabled "UPG")
  | some m =>
    match askHalves s line core true with
    | some s1 => .next (s1.arrive m)
    | none =>
      let s1 := tainted (noteOwner (s.take m) core line) line core true
      let e := s1.dirE line
      if listed e core then
        let others := (sharersOf s e).filter fun c => c != core && some c != e.owner
        let owner := e.owner.filter (· != core)
        let inv := if e.coarse then others else others ++ owner.toList
        let fwd := if e.coarse then owner else none
        .next (setBusy (sendAll (sendAll s1 line .inv inv) line .recall fwd.toList) line { Busy.init with req := 3, core := core, acks := inv, fwd := fwd })
      else .next (serveM s1 line core)

/-- An eviction is taken: from the owner its line is home again; from any other core it is acknowledged (R302). -/
def servePut (name : String) (k : MKind) (line core : Nat) (s : State) : Out :=
  match served s line core (· == k) with
  | none => .fault (.notEnabled name)
  | some m =>
    let e := s.dirE line
    let s1 := (s.take m).send ⟨line, core, .putAck⟩
    if e.owner = some core then
      .next (s1.setDirE line (if e.st = .o then { e with st := .s, owner := none, nrels := [] } else e.alone none))
    else .next s1
/-- PUTM (R302). -/
def execPutM (line core : Nat) (s : State) : Out := servePut "PUTM" .putM line core s
/-- PUTO (R302). -/
def execPutO (line core : Nat) (s : State) : Out := servePut "PUTO" .putO line core s
/-- PUTE (R302). -/
def execPutE (line core : Nat) (s : State) : Out := servePut "PUTE" .putE line core s

/-! Pushes. -/

def isPush (stream : Nat) : MKind → Bool
  | .push st _ _ _ _ _ _ => st == stream
  | _ => false

/-- PUSH: the home becomes the sole holder, then performs the store and sends one Fill to each destination; it serves nothing else of the line
meanwhile (R304). -/
def execPush (line core stream : Nat) (s : State) : Out :=
  match served s line core (isPush stream) with
  | none => .fault (.notEnabled "PUSH")
  | some m =>
    let e := s.dirE line
    if isHost (128 * line) && (e.half0 < 2 || e.half1 < 2) then
      .next ((((List.range 2).filter fun h => halfState e h < 2).foldl (fun s h => s.sendOnce ⟨line, core, .half h true⟩) s).arrive m)
    else if e.st = .i then .next (performPush s line m)
    else
      match m.kind with
      | .push _ ctx gh id _ _ _ => .next (gather (s.arrive m) line { Busy.init with req := 7, core := core, stream := stream, gh := gh, id := id, ctx := some ctx })
      | _ => .fault (.notEnabled "PUSH")

/-! Answers. -/

/-- INVACK (R302). -/
def execInvAck (line core : Nat) (s : State) : Out :=
  match findMsg s line core (· == .invAck) with
  | none => .fault (.notEnabled "INVACK")
  | some m =>
    match (s.dirE line).busy with
    | some b => if b.acks.contains core then .next (setBusy (s.take m) line { b with acks := b.acks.filter (· != core) }) else .next (s.take m)
    | none => .next (s.take m)

/-- The home takes back a half of a line that the host snoops, from an owner and, to invalidate, from the sharers (R312): 0 data, 1 invalidate,
2 current. -/
def snoopGo (s : State) (line half kind : Nat) : State :=
  let e := s.dirE line
  let b : Busy := { Busy.init with req := 9, dirty := half + 2 * kind }
  let inv := if kind = 1 then (sharersOf s e).filter fun c => some c != e.owner else []
  let s1 := sendAll s line .inv inv
  match e.owner with
  | some o => setBusy (s1.send ⟨line, o, .recall⟩) line { b with fwd := some o, acks := inv }
  | none => setBusy s1 line { b with acks := inv, next := if kind = 1 then .i else .s }

/-- An owner's notice supplies the new owner after a FwdM, and is no answer to anything else. -/
def suppliesM : Option (Nat × L1St) → Bool
  | some (_, .m) => true
  | _ => false
/-- OWNER_NOTICE: an owner's clean or dirty notice after a forward; where it answered without data, the home supplies the requester before it leaves
BUSY (R302, R309). After a forced publish, a snoop of another kind than data goes on (R284, R312). -/
def execOwnerNotice (line core : Nat) (s : State) : Out :=
  match findMsg s line core isNotice with
  | none => .fault (.notEnabled "OWNER_NOTICE")
  | some m =>
    match m.kind with
    | .notice dirty supply =>
      let s1 := match supply with
        | some (tgt, st) => (s.take m).send ⟨line, tgt, .data st⟩
        | none => s.take m
      let e := s.dirE line
      (match e.busy with
       | some b =>
         if b.fwd = some core ∧ suppliesM supply = decide (b.req = 12) then
           if b.req = 12 then .next (setBusy s1 line { b with fwd := none })
           else if b.req = 1 then
             let b1 := { b with fwd := none, next := if dirty then .o else .s }
             .next (setBusy (if dirty then s1.setDirE line e else s1.setDirE line (addSharer { e with owner := none, nrels := [] } core)) line b1)
           else
             let s2 := if dirty then s1.setDirE line { e with st := .o } else s1.setDirE line { addSharer { e with owner := none, nrels := [] } core with st := .s }
             .next (if b.req = 9 ∧ 2 ≤ b.dirty then snoopGo (s2.setDirE line { s2.dirE line with busy := none }) line (b.dirty % 2) (b.dirty / 2)
                    else setBusy s2 line { b with fwd := none, next := .s })
         else .next s1
       | none => .next s1)
    | _ => .fault (.notEnabled "OWNER_NOTICE")

/-- RECALL_DATA: a line returned by an owner, or an answer to a Sweep (R302, R314). -/
def execRecallData (line core : Nat) (s : State) : Out :=
  match findMsg s line core isRecallData with
  | none => .fault (.notEnabled "RECALL_DATA")
  | some m =>
    let dirty := m.kind == .recallData true
    match (s.dirE line).busy with
    | some b =>
      if b.req = 8 && b.sweep.contains core then
        .next (setBusy (s.take m) line { b with sweep := b.sweep.filter (· != core), dirty := b.dirty + if dirty then 1 else 0 })
      else if b.fwd = some core then .next (setBusy (s.take m) line { b with fwd := none })
      else .next (s.take m)
    | none => .next (s.take m)

/-- The answer of one destination to a Fill. -/
def fillAnswer (name : String) (k : MKind) (installed : Bool) (line core : Nat) (s : State) : Out :=
  match findMsg s line core (· == k) with
  | none => .fault (.notEnabled name)
  | some m =>
    match (s.dirE line).busy with
    | some b =>
      if b.fills.contains core then
        .next (setBusy (s.take m) line { b with fills := b.fills.filter (· != core), got := if installed then b.got ++ [core] else b.got })
      else .next (s.take m)
    | none => .next (s.take m)
/-- INSTALL (R304). -/
def execInstall (line core : Nat) (s : State) : Out := fillAnswer "INSTALL" .install true line core s
/-- REFUSE (R304). -/
def execRefuse (line core : Nat) (s : State) : Out := fillAnswer "REFUSE" .refuse false line core s

/-! Recovery (R313, R314). -/

/-- Every core of the package. -/
def allCores (part : OrderCode) : List Nat := (List.range 8).flatMap (dieCores part)

/-- A request waits again, at the head of its line's queue. -/
def again (s : State) (m : Msg) : State := { s with net := m :: s.net, tags := ⟨m, 0, 1, 0, 0, false⟩ :: s.tags }
/-- The Sweep of a line: a request that was in progress waits again, at the head of the queue; the Fills of a performed push are still awaited,
and so is the answer to a host snoop. -/
def startSweep (s : State) (line : Nat) : State :=
  let e := s.dirE line
  let b := e.busy.getD Busy.init
  let s1 := if b.req = 1 then again s ⟨line, b.core, .getS true b.stream⟩ else if b.req = 2 then again s ⟨line, b.core, .getM⟩
    else if b.req = 3 then again s ⟨line, b.core, .upg⟩ else s
  let b1 : Busy := if b.req = 7 ∧ b.dirty = 1 then { b with req := 8, dirty := 0, next := .s }
    else { Busy.init with req := 8, snoop := if b.req = 9 then some b.dirty else none }
  let cs := allCores s.part
  (sendAll (ueUnit s1 (homeDie (128 * line)) 6) line .sweep cs).setDirE line { e with busy := some { b1 with sweep := cs } }

/-- The entry is BUSY with a Sweep. -/
def sweeping (s : State) (line : Nat) : Bool := match (s.dirE line).busy with
  | some b => b.req == 8
  | none => false
/-- A message that R301 marks as an error starts the recovery, unless one is in progress (R314). -/
def lineError (s : State) (line : Nat) : State := if sweeping s line then s else startSweep s line
/-- DIRECTORY_ERROR: the home reads an entry with an uncorrectable error; its die counts it where it ends in poison (R314, R453). -/
def execDirectoryError (line : Nat) (s : State) : Out :=
  if sweeping s line then .fault (.notEnabled "DIRECTORY_ERROR")
  else .next (startSweep s line)

/-- The split of a core that waits for a line, with the lanes that do. -/
def lineWaiter (s : State) (core line : Nat) : Option (Nat × Nat × Word32) :=
  s.groups.findSome? fun e =>
    let t := s.team e.2.team
    if t.core = core then
      (List.range e.2.splits.length).findSome? fun k =>
        match (nthD Split.init e.2.splits k).mem with
        | some m =>
          let ls := m.rest.filter fun l => match xlate s t.ctx core (m.va l) false with
            | .hit loc => lineOf loc == line
            | _ => false
          if ls.isEmpty then none else some (e.1, k, maskOf ls)
        | none => none
    else none

/-- The context that the request behind a fan-out message belongs to: it has asked for the line, pushed it, or accessed it at its home; none where
the work of that context is gone (R313). -/
def fanOutCtx (s : State) (line : Nat) (k : MKind) : Option Nat :=
  let asked (core : Nat) : Option Nat := (l1Find (s.core core) line).bind (·.ctx)
  match k, (s.dirE line).busy with
  | .fwdS tgt, _ | .fwdM tgt, _ => asked tgt
  | .fwdPub _ tgt, some b => if tgt = 0x3FF then b.ctx else asked tgt
  | _, some b => if b.req ≤ 3 then asked b.core else b.ctx
  | _, none => none
/-- LINK_LOST for the request of a core: of its split where one waits, else of the context that made it (R313, R446). 0x3FF is no core: the request
came from outside. -/
def linkLostFor (s : State) (core : Nat) (ctx : Option Nat) (line link : Nat) : State :=
  if core = 0x3FF then s
  else
    match lineWaiter s core line, ctx with
    | some (gh, k, ls), _ =>
      let p := nthD Split.init (s.grp gh).splits k
      fatalCtx s (s.team (s.grp gh).team).ctx (faultAtOf s gh p p.fromA p.fromB) LINK_LOST link (128 * line) ls
    | none, some c => fatalCtx s c (FaultAt.none core (runningSlot s c)) LINK_LOST link (128 * line) 0
    | none, none => s

/-- The message is one that the home fans out. -/
def isFanOut : MKind → Bool
  | .inv | .fwdS _ | .fwdM _ | .fwdPub _ _ | .recall | .fill _ | .sweep => true
  | _ => false

/-- A core is unreachable for a line: it is lost to the entry, which is poisoned (R313). -/
def loseCore (s : State) (line dest : Nat) : State :=
  let e := s.dirE line
  -- an entry that loses its owner while no request waits for it is shared, or at no holder
  let st := if e.owner = some dest ∧ e.busy.isNone then (match e.st with | .o => DSt.s | _ => DSt.i) else e.st
  let e1 := { e with psn := true, st := st, sharers := e.sharers.filter (· != dest), owner := if e.owner = some dest then none else e.owner,
                     nrels := if e.owner = some dest then [] else e.nrels, lost := dest :: e.lost.filter (· != dest) }
  let s1 := s.setDirE line e1
  match e.busy with
  | some b =>
    setBusy s1 line { b with acks := b.acks.filter (· != dest), fwd := if b.fwd = some dest then none else b.fwd,
                             fills := b.fills.filter (· != dest), sweep := b.sweep.filter (· != dest),
                             next := if b.req = 1 ∧ b.fwd = some dest then .s else b.next,
                             dirty := if b.req = 2 ∧ e.owner = some dest then 0 else b.dirty }
  | none => s1

/-- The stops of the spine's links between the home of a line and the die of a core, in the order a message passes them (R11); none where both
are on one die. -/
def linkStops (line dest : Nat) : List Nat :=
  let a := spineStop (homeDie (128 * line))
  match spineRoute a (spineStop (dieOf dest)) with
  | [] => []
  | r => a :: r

/-- LINK_LOST: a message of the home to a core cannot be delivered over a link of its way after link-level retry (R313, R510). -/
def execLinkLost (line dest link : Nat) (s : State) : Out :=
  match if (linkStops line dest).contains link then findMsg s line dest isFanOut else none with
  | none => .fault (.notEnabled "LINK_LOST")
  | some m =>
    let who := match m.kind, (s.dirE line).busy with
      | .fwdS tgt, _ => tgt
      | .fwdM tgt, _ => tgt
      | .fwdPub _ tgt, some b => if tgt = 0x3FF then b.core else tgt
      | _, some b => b.core
      | _, none => 0x3FF
    let s1 := loseCore (s.take m) line dest
    -- a forward that no BUSY entry waits for leaves its requester to the home
    let s2 := match m.kind, (s.dirE line).busy with
      | .fwdS tgt, _ | .fwdPub _ tgt, _ => if tgt = 0x3FF then s1 else (tainted s1 line tgt false).send ⟨line, tgt, .data .s⟩
      | .fwdM tgt, none => (tainted s1 line tgt true).send ⟨line, tgt, .data .m⟩
      | _, _ => s1
    .next (linkLostFor s2 who (fanOutCtx s line m.kind) line link)

/-! Host memory (R310 to R312). -/

/-- HOST_HALF_DATA: the host sends a half that the home asked for, with a state; its bytes are the host's where the half was absent (R311). -/
def execHostHalfData (line half st : Nat) (s : State) : Out :=
  match s.net.find? fun m => m.line == line && match m.kind with | .half h x => h == half && decide ((if x then 2 else 1) ≤ st) && decide (st ≤ 3) | _ => false with
  | none => .fault (.notEnabled "HOST_HALF_DATA")
  | some m =>
    let e := s.dirE line
    let a := 128 * line + 64 * half
    let s1 := { s with net := s.net.filter fun x => !(x.line == line && match x.kind with | .half h y => h == half && (!y || decide (2 ≤ st)) | _ => false) }
    let cells := cellsOf a ((List.range 64).map fun k => Config.hostByte s.free (a + k))
    -- the read-only path may still give what the half held before (R267)
    let s2 := if halfState e half = 0 then { (roNote s1.draw cells).wrCells cells with poison := clearPoison s1.poison cells } else s1
    let st1 := max st (halfState e half)
    .next ((s2.take m).setDirE line (if half = 0 then { e with half0 := st1 } else { e with half1 := st1 }))

/-- A host snoop on a half that the device holds; an owner with an unpublished release publishes first (R284, R312). -/
def snoop (name : String) (kind line half : Nat) (s : State) : Out :=
  let e := s.dirE line
  if isHost (128 * line) && decide (half < 2) && halfState e half != 0 && homeFree s line then
    match e.owner, outsideRel e 0x3FF with
    | some o, some r =>
      .next ((s.send ⟨line, o, .fwdPub r.2.1 0x3FF⟩).setDirE line { e with busy := some { Busy.init with req := 9, dirty := half + 2 * kind, fwd := some o } })
    | _, _ => .next (snoopGo s line half kind)
  else .fault (.notEnabled name)
/-- SNOOP_DATA (R312). -/
def execSnoopData (line half : Nat) (s : State) : Out := snoop "SNOOP_DATA" 0 line half s
/-- SNOOP_INVALIDATE (R312, R343). -/
def execSnoopInvalidate (line half : Nat) (s : State) : Out := snoop "SNOOP_INVALIDATE" 1 line half s
/-- SNOOP_CURRENT (R312). -/
def execSnoopCurrent (line half : Nat) (s : State) : Out := snoop "SNOOP_CURRENT" 2 line half s

end Sys2Proof.Machine
end

