-- ==== Sys2Proof/Machine/L1.lean ====
section
/-! DEFINITION. The messages that an L1 receives (R301, R305, R306, R309, R314) and the retention of its data array (R309). -/
namespace Sys2Proof.Machine

/-! What an L1 does with a message. -/

/-- The answer of a state to a message (R301): it acts, it holds the message, or the message is an error. -/
inductive L1Ans where
  | go (st : L1St)
  | stall
  | error
  deriving DecidableEq, Repr

/-- Inv (R298, R301). -/
def onInv : L1St → L1Ans
  | .i => .go .i
  | .s => .go .i
  | .e => .error
  | .o => .go .i
  | .m => .error
  | .isd => .go .isd
  | .ima => .go .ima
  | .sma => .go .ima
  | .oma => .go .ima
  | .mia => .error
  | .oia => .go .iia
  | .eia => .error
  | .iia => .go .iia
/-- FwdS and FwdPub (R301). -/
def onFwdS : L1St → L1Ans
  | .i | .s | .isd | .iia => .error
  | .e => .go .s
  | .o => .go .o
  | .m => .go .o
  | .ima | .sma => .stall
  | .oma => .go .oma
  | .mia => .go .oia
  | .oia => .go .oia
  | .eia => .go .iia
/-- FwdM and Recall (R301). -/
def onFwdM : L1St → L1Ans
  | .i | .s | .isd | .iia => .error
  | .e | .o | .m => .go .i
  | .ima | .sma => .stall
  | .oma => .go .ima
  | .mia | .oia | .eia => .go .iia
/-- Data with a grant (R301). -/
def onData : L1St → L1St → L1Ans
  | .isd, .s => .go .s
  | .isd, .e => .go .e
  | .ima, .m | .sma, .m | .oma, .m => .go .m
  | _, _ => .error
/-- UpgAck (R301). -/
def onUpgAck : L1St → L1Ans
  | .sma | .oma => .go .m
  | _ => .error
/-- PutAck (R301). -/
def onPutAck : L1St → L1Ans
  | .mia | .oia | .eia | .iia => .go .i
  | _ => .error
/-- Sweep: the state afterwards (R301). -/
def onSweep : L1St → L1St
  | .m | .o | .e | .s | .i => .i
  | .mia | .oia | .eia | .iia => .iia
  | .oma | .sma | .ima => .ima
  | .isd => .isd
/-- The line's data is dirty here. -/
def L1St.dirty : L1St → Bool
  | .m | .o | .mia | .oia | .oma => true
  | _ => false
/-- The home holds the line in EM for this state: the answer to FwdS carries a notice (R301). -/
def L1St.notices : L1St → Bool
  | .e | .m | .eia | .mia => true
  | _ => false

/-- A probe to a line in M or O needs the data array, and waits for its wake; any other is answered from the tags (R309). -/
def L1St.probeWakes : L1St → Bool
  | .m | .o => true
  | _ => false
def asleep (s : State) (core : Nat) (st : L1St) : Bool := (s.core core).ret && st.probeWakes

/-- A store of a core has won a line and is about to perform on it: a word in progress that may go on, or one that performs late, whose bytes
wait on the line in M. The line leaves after it (R301, R303). -/
def storeDue (s : State) (core line : Nat) : Bool :=
  match l1Find (s.core core) line with
  | none => false
  | some x =>
    -- a store that waits for an earlier push of the core to the line is not about to perform
    x.st == .m && !pushPending s core line &&
    let due (ctx : Nat) (m : MemW) : Bool :=
      m.wr && !m.sp &&
      let xs := m.rest.map fun l => xlate s ctx core (m.va l) true
      xs.all (· != .miss) && xs.any fun r => match r with
        | .hit loc => lineOf loc == line && x.sbytes.contains loc
        | _ => false
    (s.groups.any fun e => (s.team e.2.team).core == core && groupHere s e.2 &&
      e.2.splits.any fun p => splitMay e.2 p && p.mem.any (due (s.team e.2.team).ctx)) ||
    (s.core core).late.any fun w => due (s.team (w.gh / 32)).ctx w.m

/-! The messages. -/

/-- A message takes a line in M from a core, or its exclusive hold of it. -/
def isForward : MKind → Bool
  | .fwdS _ | .fwdM _ | .fwdPub _ _ | .recall => true
  | _ => false
/-- A clean copy's poison goes with its data to the requester of a forward; in retention it sends none (R309, R454). -/
def givePois (s : State) (line core : Nat) (k : MKind) : State :=
  match k with
  | .fwdS tgt | .fwdM tgt | .fwdPub _ tgt =>
    (match l1Find (s.core core) line, l1Find (s.core tgt) line with
     | some x, some y => if x.pois = [] ∨ (s.core core).ret then s else s.setCore tgt (l1SetLine (s.core tgt) { y with pois := x.pois })
     | _, _ => s)
  | _ => s
/-- A message of a kind to a core, taken by what the line's state says; answer makes the replies. -/
def l1Takes (name : String) (line core : Nat) (s : State) (p : MKind → Bool) (wake : Bool) (on : L1St → MKind → L1Ans)
    (reply : State → L1St → MKind → State) : Out :=
  match findMsg s line core p with
  | none => .fault (.notEnabled name)
  | some m =>
    let st := l1State (s.core core) line
    match on st m.kind with
    | .stall => .fault (.notEnabled name)
    | .error => .next (lineError (s.take m) line)
    | .go st1 =>
      if wake && asleep s core st then .fault (.notEnabled name)
      else if isForward m.kind && storeDue s core line then .fault (.notEnabled name)
      else .next (reply ((givePois (s.take m) line core m.kind).l1Set core line st1) st m.kind)

/-- A line whose data has come takes its way, from a victim where its set is full; none while it must wait for one. Where transactions pin every way
it is left again, and the access goes to the home (R266, R301). -/
def landData (s : State) (core line : Nat) (st : L1St) : Option State :=
  match l1Find (s.core core) line with
  | none => none
  | some x =>
    let y := { x with st := st, way := true, sbytes := if x.st = .isd then [] else x.sbytes }
    if x.way then some (s.setCore core (l1SetLine (s.core core) y))
    else
      match makeWay s core line with
      | .free s1 => some (s1.setCore core (l1Put (s1.core core) y))
      | .wait => none
      | .pinned => some (evict (s.l1Set core line st) core y)
/-- DATA: a grant of S, E or M (R301). -/
def execData (line core : Nat) (s : State) : Out :=
  match findMsg s line core isData with
  | none => .fault (.notEnabled "DATA")
  | some m =>
    match (match m.kind with | .data g => onData (l1State (s.core core) line) g | _ => .error) with
    | .stall => .fault (.notEnabled "DATA")
    | .error => .next (lineError (s.take m) line)
    | .go st => (landData (s.take m) core line st).elim (.fault (.notEnabled "DATA")) .next
/-- UPGACK (R301). -/
def execUpgAck (line core : Nat) (s : State) : Out := l1Takes "UPGACK" line core s (· == .upgAck) false (fun st _ => onUpgAck st) fun s _ _ => s
/-- PUTACK (R301). -/
def execPutAck (line core : Nat) (s : State) : Out := l1Takes "PUTACK" line core s (· == .putAck) false (fun st _ => onPutAck st) fun s _ _ => s
/-- INV: acknowledged also where no copy is held (R298, R301). -/
def execInv (line core : Nat) (s : State) : Out :=
  l1Takes "INV" line core s (· == .inv) false (fun st _ => onInv st) fun s _ _ => s.send ⟨line, core, .invAck⟩

/-- The replies to a forward: Data to the requester, and the notice; a clean line whose data array is in retention sends no data (R301, R309).
A requester of 0x3FF is the home itself. -/
def fwdReply (line core tgt : Nat) (grant : L1St) (s : State) (st : L1St) : State :=
  let bare := (s.core core).ret && !st.dirty
  let s1 := if bare || tgt = 0x3FF then s else s.send ⟨line, tgt, .data grant⟩
  -- the home stays BUSY until it has supplied a new owner (R302)
  let e := s1.dirE line
  let s2 := if bare && grant = .m && e.busy.isNone then s1.setDirE line { e with busy := some { Busy.init with req := 12, core := tgt, fwd := some core } } else s1
  if (st.notices && grant = .s) || bare || tgt = 0x3FF then
    s2.send ⟨line, core, .notice st.dirty (if bare && tgt != 0x3FF then some (tgt, grant) else none)⟩
  else s2
/-- FWDS (R301). -/
def execFwdS (line core : Nat) (s : State) : Out :=
  l1Takes "FWDS" line core s isFwdS true (fun st _ => onFwdS st)
    fun s st k => match k with | .fwdS tgt => fwdReply line core tgt .s s st | _ => s
/-- The owner of a line publishes: of each agent group with an unpublished release on the line and a stream, every release that the core holds
on that stream, on whatever line (R284). -/
def publish (s : State) (line core stream : Nat) : State :=
  let ghs := ((s.dirE line).nrels.filter fun r => r.2.1 == stream).map Prod.fst
  { s with dir := s.dir.map fun (e : Nat × DirEnt) =>
      if e.2.owner = some core then (e.1, { e.2 with nrels := e.2.nrels.filter fun r => !(ghs.contains r.1 && r.2.1 == stream) }) else e }
/-- FWDPUB: narrow releases are published, whose accesses the order of performed accesses already holds, then as FwdS (R284, R301). -/
def execFwdPub (line core stream : Nat) (s : State) : Out :=
  l1Takes "FWDPUB" line core s (isFwdPub stream) true (fun st _ => onFwdS st)
    fun s st k => match k with | .fwdPub _ tgt => fwdReply line core tgt .s (publish s line core stream) st | _ => s
/-- FWDM (R301). -/
def execFwdM (line core : Nat) (s : State) : Out :=
  l1Takes "FWDM" line core s isFwdM true (fun st _ => onFwdM st)
    fun s st k => match k with | .fwdM tgt => fwdReply line core tgt .m s st | _ => s
/-- RECALL: the line returns to the home (R301). -/
def execRecall (line core : Nat) (s : State) : Out :=
  l1Takes "RECALL" line core s (· == .recall) true (fun st _ => onFwdM st) fun s st _ => s.send ⟨line, core, .recallData st.dirty⟩
/-- SWEEP: answered from every state (R301, R314), after a Fill that the home sent before it. -/
def execSweep (line core : Nat) (s : State) : Out :=
  if (findMsg s line core isFill).isSome then .fault (.notEnabled "SWEEP")
  else l1Takes "SWEEP" line core s (· == .sweep) true (fun st _ => .go (onSweep st)) fun s st _ => s.send ⟨line, core, .recallData st.dirty⟩

/-! Fills (R305, R306). -/

/-- Untouched pushed lines of a context in an L1. -/
def untouched (c : CoreSt) (ctx : Nat) : Nat := (c.l1.filter fun x => x.push == some ctx).length
/-- PQUOTA's effective value (R306). -/
def pquota (s : State) (ctx : Nat) : Nat := min (fld (s.reg (rPQUOTA ctx)) 12 0) 4096
/-- A team of the context is resident on the core, and no migration has chosen another for it (R305, R412). -/
def residentOn (s : State) (ctx core : Nat) : Bool := s.teams.any fun e => e.2.ctx == ctx && e.2.core == core && !e.2.gone && !e.2.saved && e.2.target.isNone

/-- Refuse a Fill, counted on a die (R307). -/
def refuseFill (s : State) (line core die ctx k : Nat) : State := (pushStat s die ctx k 1).send ⟨line, core, .refuse⟩

/-- A Fill to a line that is no place for one: an error, and the home awaits no answer to it (R301, R314). -/
def fillError (s : State) (line core : Nat) : State :=
  let s1 := lineError s line
  match (s1.dirE line).busy with
  | some b => if b.fills.contains core then setBusy s1 line { b with fills := b.fills.filter (· != core) } else s1
  | none => s1
/-- FILL: the destination installs the line in S, in the way of a victim where its set is full, or refuses it (R266, R305, R307). -/
def execFill (line core : Nat) (s : State) : Out :=
  match findMsg s line core isFill with
  | none => .fault (.notEnabled "FILL")
  | some m =>
    match m.kind with
    | .fill ctx =>
      let s1 := s.take m
      let c := s.core core
      let st := l1State c line
      if st != .i && st.stable then .next (fillError s1 line core)
      else if pquota s ctx ≤ untouched c ctx then .next (refuseFill s1 line core (dieOf core) ctx 0)
      else if st != .i then .next (refuseFill s1 line core (dieOf core) ctx 3)
      else
        (match makeWay s1 core line with
         | .free s2 =>
           if c.ret then .next (refuseFill s1 line core (dieOf core) ctx 2)
           else if !residentOn s ctx core then .next (refuseFill s1 line core (homeDie (128 * line)) ctx 1)
           else .next ((s2.setCore core (l1Put (s2.core core) ⟨line, .s, hintPrio 5 0, some ctx, [], true, none, []⟩)).send ⟨line, core, .install⟩)
         | _ => .next (refuseFill s1 line core (dieOf core) ctx 3))
    | _ => .fault (.notEnabled "FILL")

/-- Remove the first element that equals x. -/
def eraseOne {α : Type} [DecidableEq α] (x : α) : List α → List α
  | [] => []
  | y :: l => if y = x then l else y :: eraseOne x l
def isPushDone (stream : Nat) : MKind → Bool
  | .pushDone st _ _ => st == stream
  | _ => false
/-- A group's push of a word to a line is done with. -/
def endPushOf (line id : Nat) (g : Group) : Group :=
  match g.pushes.find? fun p => p.line == line && p.id == id with
  | some p => { g with pushes := eraseOne p g.pushes }
  | none => g
/-- PUSHDONE: every Fill of a push is answered; the group that made it awaits it no more (R288, R304). -/
def execPushDone (line core stream : Nat) (s : State) : Out :=
  match findMsg s line core (isPushDone stream) with
  | none => .fault (.notEnabled "PUSHDONE")
  | some m =>
    match m.kind with
    | .pushDone _ gh id => .next { s.take m with groups := s.groups.map fun (e : Nat × Group) => if e.1 = gh then (e.1, endPushOf line id e.2) else e }
    | _ => .fault (.notEnabled "PUSHDONE")

/-! Retention (R309). -/

/-- A message that waits for the data of a dirty line in a core in retention. -/
def wantsWake (s : State) (core : Nat) (m : Msg) : Bool :=
  m.core == core && (l1State (s.core core) m.line).probeWakes && match m.kind with
    | .fwdS _ | .fwdM _ | .fwdPub _ _ | .recall | .sweep => true
    | _ => false
/-- RETENTION_WAKE (R309). -/
def execRetentionWake (core : Nat) (s : State) : Out :=
  if (s.core core).ret && s.net.any (wantsWake s core) then .next (s.setCore core { s.core core with ret := false }) else .fault (.notEnabled "RETENTION_WAKE")
/-- RETENTION_ENTRY (R309). -/
def execRetentionEntry (core : Nat) (s : State) : Out :=
  if coreExists s.part core && !(s.core core).ret then .next (s.setCore core { s.core core with ret := true }) else .fault (.notEnabled "RETENTION_ENTRY")

end Sys2Proof.Machine
end

