-- ==== Sys2Proof/Machine/Contexts.lean ====
section
/-! DEFINITION. Contexts, translation, keys and the alarm: CTXCFG (R424 to R426), PRI and ATS answers (R428 to R431), replay of the side log (R451),
KEYTAG (R433, R434), SECSTAT and the security alarm (R438 to R440). -/
namespace Sys2Proof.Machine

/-! Keys and translation entries. -/

/-- Drop translation entries that meet a test, in every core and die (R431). -/
def dropXlate (s : State) (p : XEnt → Bool) : State :=
  { s with cores := s.cores.map fun (e : Nat × CoreSt) => (e.1, { e.2 with tlb := e.2.tlb.filter fun x => !p x })
           dies := s.dies.map fun (e : Nat × Die) => (e.1, { e.2 with tlb := e.2.tlb.filter fun x => !p x }) }
/-- A new key pair is drawn for a slot (R432). -/
def newKey (s : State) (slot : Nat) : State :=
  { s.draw.draw with keys := mset none s.keys slot (some ⟨Config.freeKey s.free, Config.freeKey (s.free + 1)⟩) }
/-- The key pair of a slot is erased (R426, R439). -/
def dropKey (s : State) (slot : Nat) : State := { s with keys := mset none s.keys slot none }

/-! CTXCFG. -/

/-- The fields of CTXCFG that a write reaches (R424). -/
def cfgMask (v : Word64) : Word64 := v &&& 0x807C0000000FFFFF
def cfgPasid (v : Word64) : Nat := fld v 19 0
def cfgDies (v : Word64) : List Nat := (List.range (2 ^ fld v 51 50)).map (fld v 54 52 + ·)
/-- The slot of a valid context with a PASID. -/
def pasidSlot (s : State) (pasid : Nat) : Option Nat := (List.range 64).find? fun c => ctxValid s c && cfgPasid (s.reg (rCTXCFG c)) == pasid
/-- A resident context holds one of some dies (R425). -/
def diesHeld (s : State) (ds : List Nat) : Bool := (List.range 64).any fun c => ctxResident s c && (ctxDies s c).any (ds.contains ·)

/-- CTXCFG_VALID_SET: a context is created with STATE 0 and a new key; the writes that R424 and R425 name are ignored (R424, R425, R432, R515). -/
def execCtxcfgValidSet (ctx : Nat) (val : BitVec 64) (s : State) : Out :=
  let v := cfgMask val ||| (1#64 <<< 63)
  if ctx < 64 ∧ deviceReady s ∧ !ctxValid s ctx ∧ fld v 54 52 % 2 ^ fld v 51 50 = 0 ∧ (pasidSlot s (cfgPasid v)).isNone ∧ !diesHeld s (cfgDies v) then
    let x := s.ctx ctx
    let s1 := (newKey (s.setReg (rCTXCFG ctx) v) ctx).setReg (rCTXCTL ctx) (setFld (s.reg (rCTXCTL ctx)) 5 0 0)
    .next (s1.setCtx ctx { Ctx.init with slots := x.slots })
  else .next s

/-- The Fills of a context's pushes that are on their way, and the pushed lines that no access has met, are no later context's in its slot (R422,
R426). 64 is no slot: such a Fill is refused. -/
def forgetPushes (s : State) (c : Nat) : State :=
  { s with net := s.net.map fun m => if m.kind = .fill c then { m with kind := .fill 64 } else m
           cores := s.cores.map fun (e : Nat × CoreSt) =>
             (e.1, { e.2 with l1 := e.2.l1.map fun x => if x.push = some c then { x with push := none } else x }) }

/-- A context ends: its work is discarded, its translations go, its key is erased (R426). -/
def endContext (s : State) (c : Nat) : State :=
  let s1 := discardWork s c
  let s2 := forgetPushes (dropKey (dropXlate s1 fun e => e.ctx == c) c) c
  let s3 := (s2.setReg (rCTXCFG c) (setFld (s2.reg (rCTXCFG c)) 63 63 0)).setReg (rCTXCTL c) (setFld (s2.reg (rCTXCTL c)) 5 0 0)
  s3.setCtx c { Ctx.init with slots := (s3.ctx c).slots }

/-- CTXCFG_VALID_CLEAR (R426). -/
def execCtxcfgValidClear (ctx : Nat) (s : State) : Out :=
  if ctx < 64 && ctxValid s ctx then .next (endContext s ctx) else .fault (.notEnabled "CTXCFG_VALID_CLEAR")

/-! PRI and ATS. -/

/-- PRI_PAGE_REQUEST: the oldest waiting request goes out where the allocation has room (R430). -/
def execPriPageRequest (s : State) : Out :=
  match s.io.priWait with
  | r :: rest =>
    if s.io.priSent.length < s.io.oprAlloc && !s.io.linkDown then
      .next { s.say (.pri (pasidOf s r.ctx) r.page r.write) with io := { s.io with priWait := rest, priSent := s.io.priSent ++ [r] } }
    else .fault (.notEnabled "PRI_PAGE_REQUEST")
  | [] => .fault (.notEnabled "PRI_PAGE_REQUEST")

/-- The answer for a page as its context records it: the accesses translate again, or meet TRANSLATION_DENIED when they are next tried (R430). A
miss count of 16 and 17 stands for DETAIL 0 and 1. -/
def priAnswered (x : Ctx) (page : Nat) (ans : PriAnswer) : Ctx :=
  if x.unmap.any fun u => u.1 == page then
    match ans with
    | .success => { x with unmap := x.unmap.filter fun u => u.1 != page, misses := mset 0 x.misses page (mget 0 x.misses page + 1) }
    | .invalid => { x with misses := mset 0 x.misses page 16 }
    | .failure => { x with misses := mset 0 x.misses page 17, priOff := true }
  else match ans with
    | .failure => { x with priOff := true }
    | _ => x
/-- PRI_RESPONSE (R430). -/
def execPriResponse (ctx page : Nat) (ans : PriAnswer) (s : State) : Out :=
  match s.io.priSent.find? fun r => r.ctx == ctx && r.page == page with
  | none => .fault (.notEnabled "PRI_RESPONSE")
  | some r =>
    let s1 := { s with io := { s.io with priSent := eraseOne r s.io.priSent } }
    if r.core = deadReq then .next s1
    else
      -- after a Response Failure nothing more is asked for the PASID
      let s2 := if ans = .failure then { s1 with io := { s1.io with priWait := s1.io.priWait.filter (·.ctx != ctx) } } else s1
      .next (s2.setCtx ctx (priAnswered (s2.ctx ctx) page ans))

/-- A page size of R428. -/
def pageSize (n : Nat) : Bool := n == 12 || n == 16 || n == 21 || n == 30
/-- The key tag that an entry takes from its block (R434). -/
def entryTag (s : State) (m : PageMap) : Nat := match busLoc s m.pa with
  | some l => if isDev l then keyTag s (blockOf l) else 64
  | none => 64
/-- The set of an entry in a cache of so many sets (R428). -/
def XEnt.set (e : XEnt) (sets : Nat) : Nat := Config.tlbSet e.ctx (e.map.va / 2 ^ e.map.log2) e.map.log2 % sets
/-- An entry enters a cache of so many sets and ways; where its set is full, one entry of the set leaves, of which R428 says nothing: a free
choice. -/
def fillWays (n sets ways : Nat) (e : XEnt) (l : List XEnt) : List XEnt :=
  let keep := l.filter fun x => !(x.ctx == e.ctx && x.map.va == e.map.va && x.map.log2 == e.map.log2)
  if keep.length < ways then e :: keep
  else
    let mine := keep.filter fun x => x.set sets == e.set sets
    e :: if mine.length < ways then keep else eraseOne (nthD e mine (Config.freeNat n % mine.length)) keep
/-- An entry enters a core's cache of 512 entries in 8 ways and its die's cache of 65,536 in 16 (R428, R429). -/
def fillXlate (s : State) (core : Nat) (e : XEnt) : State :=
  let k := s.core core
  let d := s.die (dieOf core)
  ((s.setCore core { k with tlb := fillWays s.free 64 8 e k.tlb }).setDie (dieOf core) { d with tlb := fillWays (s.free + 1) 4096 16 e d.tlb }).draw.draw

/-- ATS_COMPLETION: the entry fills the caches of the cores that asked; without R and W the page is unmapped, and a fourth miss in a row after
successes is TRANSLATION_DENIED; an address in the device's registers fills nothing (R429, R430, R519). -/
def execAtsCompletion (ctx page : Nat) (m : PageMap) (s : State) : Out :=
  let rs := s.io.atsWait.filter fun r => r.ctx == ctx && r.page == page
  let va := page * 4096
  if rs.isEmpty || !pageSize m.log2 || m.va != va / 2 ^ m.log2 * 2 ^ m.log2 || m.pa % 2 ^ m.log2 != 0 then .fault (.notEnabled "ATS_COMPLETION")
  else
    let s1 := { s with io := { s.io with atsWait := s.io.atsWait.filter fun r => !(r.ctx == ctx && r.page == page) } }
    let x := s1.ctx ctx
    if !m.r && !m.w then
      let n := mget 0 x.misses page
      .next (s1.setCtx ctx { x with unmap := if x.unmap.any fun u => u.1 == page then x.unmap else x.unmap ++ [(page, rs.any (·.write))]
                                    misses := if n = 4 then mset 0 x.misses page 18 else x.misses })
    else if (busLoc s (m.pa + va % 2 ^ m.log2)).isNone then .next (s1.setCtx ctx { x with regsp := if x.regsp.contains page then x.regsp else x.regsp ++ [page] })
    else
      let e : XEnt := ⟨ctx, m, entryTag s m⟩
      let s2 := rs.foldl (fun s r => fillXlate s r.core e) s1
      .next (s2.setCtx ctx { x with misses := mset 0 x.misses page 0 })

/-- An entry meets a range of addresses. -/
def XEnt.meets (e : XEnt) (lo size : Nat) : Bool := decide (e.map.va < lo + size) && decide (lo < e.map.va + 2 ^ e.map.log2)
/-- ATS_INVALIDATION_REQUEST: matching entries are dropped at once (R431). -/
def execAtsInvalidationRequest (pasid lo size : Nat) (s : State) : Out :=
  let s1 := { s with io := { s.io with inval := s.io.inval ++ [⟨pasid, lo, size⟩] } }
  match pasidSlot s pasid with
  | some c =>
    let s2 := dropXlate s1 fun e => e.ctx == c && e.meets lo size
    let x := s2.ctx c
    .next (s2.setCtx c { x with regsp := x.regsp.filter fun p => !(decide (p * 4096 < lo + size) && decide (lo < p * 4096 + 4096)) })
  | none => .next s1

/-- Accesses of a context that have translated and are not yet performed at their home: pushes on their way, buffered transactional stores, and
accesses still to be performed late. -/
def wayOut (s : State) (c : Nat) : Bool :=
  (s.net.any fun m => isPushOf c m.kind) ||
  s.groups.any fun e => (s.team e.2.team).ctx == c && ((e.2.tx.any fun t => t.2.active && !t.2.wbytes.isEmpty) || lateWords s e.1)
/-- INVALIDATION_COMPLETION: every access that used a dropped entry has been performed: also each peer access of the PASID, whatever has become of
its context (R431); none while the host link is down (R510). -/
def execInvalidationCompletion (s : State) : Out :=
  match s.io.inval with
  | i :: rest =>
    if (match pasidSlot s i.pasid with | some c => wayOut s c | none => false) || (s.io.peerOut.any fun p => p.pasid == i.pasid) || s.io.linkDown then .fault (.notEnabled "INVALIDATION_COMPLETION")
    else .next { s.say (.invDone i.pasid i.lo i.size) with io := { s.io with inval := rest } }
  | [] => .fault (.notEnabled "INVALIDATION_COMPLETION")

/-! Replay of the side log (R322, R451). -/

/-- A side-log entry at the head of its stream on its core (R289), with no earlier access of its group and stream to its bytes still to be
performed (R275). -/
def replayable (c : CoreSt) (idx : Nat) : Option SEnt :=
  match c.slog[idx]? with
  | some e =>
    if ((c.slog.take idx).any fun f => f.stream == e.stream) ||
       c.late.any fun w => w.gh == e.gh && w.m.strm == e.stream && decide (w.m.id < e.id) && e.bytes.any fun b => w.meets false b.1 1 then none
    else some e
  | none => none

/-- The entry's first address. -/
def SEnt.va (e : SEnt) : Nat := (e.bytes.headD (0, 0)).1

/-- The effect of an entry whose line is ready, with its recorded ORDER and SCOPE; its virtual addresses lie d above or below their locations
(R267, R284, R451). -/
def replayAct (s : State) (core : Nat) (e : SEnt) (f : Nat → Nat) : State :=
  let s0 : State := match e.op with
    | .atom aop ty ops => ops.foldl (fun s o =>
        let n := formBytes ty 0
        s.perform (cellsOf (f o.1) (toBytes n (atomNew ty aop (s.rdNat (f o.1) n) o.2.1 o.2.2)))) s
    | .amax v => s.perform (cellsOf (f e.va) (toBytes 4 (max (s.rdNat (f e.va) 4) v)))
    | _ => s.perform (e.bytes.map fun b => (f b.1, b.2))
  let s1 := { s0 with poison := e.pois.foldl (fun p u => mset false p (f u / 16) true) s0.poison }
  noteNarrow (acquiredOn s1 core e.order e.scope) e.gh e.stream (lineOf (f e.va)) core (if releases e.order then [e.scope] else [])

/-- Cells as runs of consecutive bytes. -/
def runsOf : List Host.Cell → List (Nat × List Byte)
  | [] => []
  | c :: l =>
    match runsOf l with
    | r :: rs => if r.1 = c.1 + 1 then (c.1, c.2 :: r.2) :: rs else (c.1, [c.2]) :: r :: rs
    | [] => [(c.1, [c.2])]

/-- The requests of an entry on peer memory, with its poison (R454, R509). -/
def replayPeer (s : State) (e : SEnt) (f : Nat → Nat) : State :=
  let req (s : State) (va : Nat) : PeerOut := peerReq s e.id e.gh e.stream va (f va) 0 (faultAtGroup s e.gh)
  match e.op with
  | .atom aop ty ops => ops.foldl (fun s o => peerSay s { req s o.1 with acq := acquires e.order } (.peerAtom aop ty (f o.1) o.2.1 o.2.2 (!e.pois.isEmpty))) s
  | .amax v => peerSay s (req s e.va) (.peerAtom 2 .n32 (f e.va) v 0 (!e.pois.isEmpty))
  | _ => (runsOf e.bytes).foldl (fun s r => peerPut s (req s r.1) r.2
      ((e.pois.filter fun u => decide (r.1 / 16 * 16 ≤ u) && decide (u < r.1 + r.2.length)).map fun u => f u / 16)) s

/-- A replay's name among accesses that wait for their pages (R430, R451). -/
def SEnt.who (e : SEnt) : List Nat := [1, e.id, e.va]
/-- The entry leaves the log. -/
def dropLog (s : State) (core idx : Nat) : State :=
  let k := s.core core
  let gone (t : XTry) : Bool := (k.slog[idx]?).any fun e => t.who == e.who
  s.setCore core { k with slog := dropAt k.slog idx, tries := k.tries.filter fun t => !gone t }

/-- SIDE_LOG_REPLAY: an entry translates again; performed, it leaves the log; otherwise its page or its line is asked for, and repeated misses are
counted (R430, R451). -/
def execSideLogReplay (core idx : Nat) (s : State) : Out :=
  match replayable (s.core core) idx with
  | none => .fault (.notEnabled "SIDE_LOG_REPLAY")
  | some e =>
    let c := (s.team (s.grp e.gh).team).ctx
    let waits (un : Bool) : Out := match waitPage s c core e.va true e.who un with
      | .ok s1 => .next s1
      | .error d => .next (fatalGroup s e.gh TRANSLATION_DENIED d e.va)
    match xlate s c core e.va true with
    | .prot d => .next (fatalGroup s e.gh PROTECTION d e.va)
    | .miss => waits false
    | .unmapped => waits true
    | .hit loc =>
      let f (a : Nat) : Nat := loc + a - e.va
      if isPeer loc then
        .next (match e.op with
          | .push _ => fatalGroup s e.gh PROTECTION 0 e.va
          | _ => dropLog (replayPeer (acquiredOn s core e.order 5) e f) core idx)
      else
        let acc : Acc := { accOf s c e.va loc 1 e.hint e.order e.stream with locs := e.bytes.map fun b => f b.1 }
        match e.op with
        | .push dests =>
          if pushOut s core e.stream dests then .fault (.notEnabled "SIDE_LOG_REPLAY")
          else
            .next (dropLog (sendPush (l2Access s (lineOf loc) acc.cls acc.prio acc.bypass) e.id e.gh core e.stream (lineOf loc) dests
              (e.bytes.map fun b => (f b.1, b.2)) (e.pois.map fun u => f u / 16)) core idx)
        | _ =>
          match lineAccess s core (lineOf loc) true acc with
          | .ready s1 => .next (dropLog (replayAct s1 core e f) core idx)
          | .wait s1 => .next s1
          | .home s1 =>
            match homeAccess s1 core (lineOf loc) loc acc none with
            | .ready s2 => .next (dropLog (replayAct s2 core e f) core idx)
            | .wait s2 => .next s2
            | .home s2 => .next s2

/-! KEYTAG. -/

/-- The block that byte k of a die's array covers: the k-th block of its home-die map, in increasing address (R433). -/
def kthBlock (die : Nat) : Nat → Nat → Nat → Option Nat
  | 0, _, _ => none
  | n + 1, b, k =>
    if blockDie b = die then (if k = 0 then some b else kthBlock die n (b + 1) (k - 1)) else kthBlock die n (b + 1) k
/-- OWNER as it is held: 65 to 126 read as 0x7F (R433). -/
def ownerOf (v : BitVec 8) : Nat := let x := v.toNat % 128; if 65 ≤ x then 127 else x
/-- An access that has translated into a block waits to be performed (R434). -/
def blockBusy (s : State) (block : Nat) : Bool :=
  (s.net.any fun m => match m.kind with | .push _ _ _ _ _ cells _ => cells.any fun c => blockOf c.1 == block | _ => false) ||
  s.groups.any fun e => e.2.tx.any fun t => t.2.active && t.2.wbytes.any fun b => blockOf b.1 == block
/-- A block takes a new owner: its translations are dropped, then the tag applies (R434). -/
def tagBlock (s : State) (block owner : Nat) : State :=
  if keyTag s block = owner then s
  else
    let covers (e : XEnt) : Bool := match busLoc s e.map.pa with
      | some l => decide (l < (block + 1) * 2 ^ 21) && decide (block * 2 ^ 21 < l + 2 ^ e.map.log2)
      | none => false
    { dropXlate s covers with keytag := mset 127 s.keytag block owner }
/-- KEYTAG_WRITE: the write takes effect once no access that used an old entry of the block is on its way (R431, R433, R434). -/
def execKeytagWrite (die idx : Nat) (val : BitVec 8) (s : State) : Out :=
  if die < 8 ∧ idx < 65536 ∧ hostUp s then
    match kthBlock die (2 ^ 19) 0 idx with
    | some b => if blockBusy s b then .fault (.notEnabled "KEYTAG_WRITE") else .next (tagBlock s b (ownerOf val))
    | none => .next s
  else .fault (.notEnabled "KEYTAG_WRITE")

/-! The alarm. -/

/-- SECSTAT_CLEAR: ones clear; ALARM stays under policy 2 and 3 (R440). -/
def execSecstatClear (val : BitVec 64) (s : State) : Out :=
  let m := if 2 ≤ Config.alarmPolicy.toNat then val &&& 0xE else val &&& 0xF
  if s.io.linkDown || !s.io.powered then .fault (.notEnabled "SECSTAT_CLEAR") else .next (s.setReg rSECSTAT (s.reg rSECSTAT &&& ~~~m))

/-- The cause bits that sensors raise: tamper, glitch, debug (R440). -/
def alarmCause (c : Nat) : Bool := 1 ≤ c && c ≤ 3

/-- SECURITY_ALARM: every context is lost; keys go by the fused policy (R438 to R440). -/
def execSecurityAlarm (cause : Nat) (s : State) : Out :=
  if alarmCause cause && s.io.powered then
    let r := s.reg rSECSTAT
    let r1 := setFld (r ||| BitVec.ofNat 64 (2 ^ cause)) 63 32 (min (fld r 63 32 + 1) 0xFFFFFFFF)
    if fld r 0 0 = 1 then .next (s.setReg rSECSTAT r1)
    else
      let s1 := s.setReg rSECSTAT (r1 ||| 1)
      let s2 := (List.range 64).foldl (fun s c =>
        if ctxResident s c then fatalCtx s c (FaultAt.none 0x3FF (runningSlot s c)) SECURITY (fld (s.reg rSECSTAT) 3 0) 0 0 else s) s1
      let s3 := (List.range 64).foldl (fun s c => if ctxValid s c then endContext s c else s) s2
      let s4 := if 1 ≤ Config.alarmPolicy.toNat then dropKey s3 64 else s3
      .next (if 2 ≤ Config.alarmPolicy.toNat then { s4.setReg rBOOTSTAT (s4.reg rBOOTSTAT ||| 1) with io := { s4.io with clocked := false } } else s4)
  else .fault (.notEnabled "SECURITY_ALARM")

end Sys2Proof.Machine
end

