-- ==== Sys2Proof/Machine/Tx.lean ====
section
/-! DEFINITION. Lane transactions: tbegin, tcommit, tabort, tstat, and the irrevocable token (R338 to R349). -/
namespace Sys2Proof.Machine

/-- The PC that TXPC compares (R338). -/
def txPc (s : State) : Nat := if s.isL then s.cur.pcA else s.cur.pcB
/-- CCOUNT as tbegin finds it in a lane (R340). -/
def beginCount (s : State) (t : Tx) : Nat := if t.txpc = txPc s then t.ccount else 0

/-- A lane opens a transaction (R340). -/
def openTx (s : State) (st d : Nat) (g : Group) (l : Nat) : Group :=
  let t := txOf g l
  let cc := beginCount s t
  let t1 : Tx := { t with active := true, irrev := cc == 8, stream := st, statreg := d, abortA := s.cur.pcA + (if s.isL then 12 else 4),
                          abortB := s.cur.pcB + 1, txpc := txPc s, ccount := cc, doomed := false, rlines := [], wlines := [], wattr := [], rbytes := [], wbytes := [] }
  (setTx g l t1).wV d l (BitVec.ofNat 64 (abortWord 0 0 cc))

/-- tbegin (R340, R347). -/
def execTbegin (h : VH) (st d : Nat) (s : State) : Out :=
  Res.out (
    if !s.isL && !s.cur.last then .error (illegalExec s)
    else
      let act := active s h
      let open_ := txLanes s.cg act
      let fresh := (lanesOf act).filter fun l => !open_.contains l
      let x := s.cctx
      if (fresh.any fun l => beginCount s (txOf s.cg l) == 8) && x.token != some s.cur.gh then
        .error (retry (s.setCtx s.ct.ctx { x with tokenQ := if x.tokenQ.contains s.cur.gh then x.tokenQ else x.tokenQ ++ [s.cur.gh] }))
      else
        let s1 := s.setCg (fresh.foldl (openTx s st d) s.cg)
        abortLanes s1 s.cur.gh s.cur.sp false (open_.map fun l => (l, 4, 0)))

/-- IRREVOCABLE_TOKEN_GRANT: the first group that asked receives the context's token (R347). -/
def execIrrevocableTokenGrant (ctx : Nat) (s : State) : Out :=
  let x := s.ctx ctx
  let q := x.tokenQ.filter fun gh => s.groups.any fun e => e.1 == gh && !e.2.retired
  match x.token, q with
  | none, gh :: rest => .next (s.setCtx ctx { x with token := some gh, tokenQ := rest })
  | _, _ => .fault (.notEnabled "IRREVOCABLE_TOKEN_GRANT")

/-- The lines of a lane's sets. -/
def txAll (t : Tx) : List Nat := (t.rlines ++ t.wlines).eraseDups

/-- Two lanes of one tcommit conflict (R344): a write set meets the other's read or write set. -/
def txMeet (a b : Tx) : Bool :=
  (a.wlines.any fun l => b.rlines.contains l || b.wlines.contains l) || a.rlines.any fun l => b.wlines.contains l

/-- The lanes that stay and those that abort CONFLICT_LANE, irrevocable lanes taken first (R344, R347). -/
def resolveLanes (g : Group) (ls : List Nat) : List Nat × List Nat :=
  let order := ls.filter (fun l => (txOf g l).irrev) ++ ls.filter fun l => !(txOf g l).irrev
  order.foldl (fun r l => if r.1.any fun k => txMeet (txOf g k) (txOf g l) then (r.1, r.2 ++ [l]) else (r.1 ++ [l], r.2)) ([], [])

/-- The commit in progress: the lanes still to come, aborts to make, and whether a lane waits for a line. -/
structure CommitPass where
  s    : State
  todo : Word32
  ab   : List AbortReq
  wait : Bool
  deriving DecidableEq, Repr

/-- The home is sole holder of every line of a list for a lane (R304 step 1, R344). -/
def commitLines (core gh l st : Nat) (attr : AMap Nat) : List Nat → State → Bool → State × Bool
  | [], s, ok => (s, ok)
  | line :: ls, s, ok =>
    match homeAccess s core line (128 * line) (commitAcc (mget 0 attr line) st) (some (gh, l)) with
    | .ready s1 => commitLines core gh l st attr ls s1 ok
    | .wait s1 => commitLines core gh l st attr ls s1 false
    | .home s1 => commitLines core gh l st attr ls s1 false

/-- A lane is through with its commit. -/
def CommitPass.past (p : CommitPass) (l : Nat) : CommitPass := { p with todo := p.todo &&& ~~~(1#32 <<< l) }
/-- A lane that is to abort gives up its lines at once: its pins and locks, and the bytes it recorded and buffered (R344, R345). -/
def unlockLane (s : State) (l : Nat) : State :=
  s.setCg (setTx s.cg l { txOf s.cg l with rlines := [], wlines := [], wattr := [], rbytes := [], wbytes := [] })
/-- It is to abort with a code. -/
def CommitPass.fail (p : CommitPass) (s : State) (l code : Nat) : CommitPass := { p.past l with s := unlockLane s l, ab := p.ab ++ [(l, code, 0)] }
/-- An irrevocable lane's sets meet those of a lower irrevocable lane of its group: it aborts CONFLICT_LANE to it (R347). -/
def meetsLower (g : Group) (l : Nat) : Bool := (List.range l).any fun k =>
  let u := txOf g k
  u.active && u.irrev && txMeet u (txOf g l)
/-- The writes of an irrevocable lane reach lines that other irrevocable lanes of its group have read: those are to abort CONFLICT_LANE (R347). -/
def doomHigher (g : Group) (wlines : List Nat) : Group :=
  { g with tx := g.tx.map fun t =>
    if t.2.active && t.2.irrev && t.2.rlines.any (wlines.contains ·) then (t.1, { t.2 with doomed := true }) else t }
/-- One lane locks its lines, validates and performs its writes, or aborts CONFLICT_MEM, or waits (R344). -/
def commitLane (p : CommitPass) (l : Nat) : CommitPass :=
  if p.wait then p
  else
    let s := p.s
    let gh := s.cur.gh
    let t := txOf s.cg l
    if !t.irrev && (txAll t).any fun line => lineLocked s line (some (gh, l)) then p.fail s l 2
    else if t.irrev && (t.doomed || meetsLower s.cg l) then p.fail s l 1
    else
      let r := commitLines s.ct.core gh l t.stream t.wattr t.wlines s true
      if !r.2 then { p with s := r.1, wait := true }
      else if !t.irrev && t.rbytes.any fun b => r.1.rdByte b.1 != b.2 then p.fail r.1 l 2
      else
        let s1 := if t.wbytes.isEmpty then r.1 else r.1.performFor (some (gh, l)) t.wbytes
        let t1 : Tx := { t with active := false, irrev := false, ccount := 0, doomed := false, rlines := [], wlines := [], wattr := [], rbytes := [], wbytes := [] }
        let g1 := setTx s1.cg l t1
        { p.past l with s := dropToken (s1.setCg (if t.irrev then doomHigher g1 t.wlines else g1)) gh t.irrev }

/-- A word that waits with its lanes as they are. -/
def holdCommit (s : State) (todo : Word32) (ab : List AbortReq) : State :=
  let s1 := rewind s
  s1.setSp { s1.sp with hold := .commit todo ab }

/-- What a tcommit has still to do: as it left it when it last waited; at first, the lanes that C keeps, and the aborts of the others, whose
lines are given up (R344). -/
def commitStart (s : State) (st : Nat) (act : Word32) : CommitPass :=
  let s0 := s.setSp { s.sp with hold := .none }
  match s.sp.hold with
  | .commit todo ab => let here (l : Nat) : Bool := (txLanes s.cg s.sp.mask).contains l
    ⟨s0, maskOf ((lanesOf todo).filter here), ab.filter fun a => here a.1, false⟩
  | _ =>
    let c := txLanes s.cg act
    let wrong := c.filter fun l => (txOf s.cg l).stream != st
    let r := resolveLanes s.cg (c.filter fun l => !wrong.contains l)
    ⟨(wrong ++ r.2).foldl unlockLane s0, maskOf r.1, (wrong.map fun l => (l, 5, 0)) ++ r.2.map fun l => (l, 1, 0), false⟩

/-- tcommit: as many lanes as find their lines commit or fail; where one waits, the word goes on later. Once every lane is through, those that
failed abort together (R344 to R346). -/
def execTcommit (h : VH) (st : Nat) (s : State) : Out :=
  Res.out (
    let p0 := commitStart s st (active s h)
    let p := if p0.todo = 0 then p0 else if relReady s s.cur.gh st s.seq then (lanesOf p0.todo).foldl commitLane p0 else { p0 with wait := true }
    if p.wait then .error (holdCommit p.s p.todo p.ab)
    else do
      let s2 ← abortLanes (if p0.todo = 0 then p.s else acquired p.s 3 4) s.cur.gh s.cur.sp false p.ab
      if s.sp.mask &&& ~~~maskOf (p.ab.map fun a => a.1) = 0 then .error s2 else .ok s2)

/-- tabort: EXPLICIT in every active lane that is in a transaction (R346). -/
def execTabort (h : VH) (code : Nat) (s : State) : Out :=
  Res.out (abortLanes s s.cur.gh s.cur.sp false ((txLanes s.cg (active s h)).map fun l => (l, 6, code)))

/-- A lane's transaction word (R346). -/
def statWord (t : Tx) : Nat :=
  t.last % 2 ^ 16 + t.ccount * 2 ^ 16 + t.wlines.length * 2 ^ 20 + t.rlines.length * 2 ^ 24 + bbit t.irrev 30 + bbit t.active 31
/-- tstat (R346). -/
def execTstat (h : VH) (d : Nat) (s : State) : Out := Res.out (vword s h d [] [] fun s l => BitVec.ofNat 64 (statWord (txOf s.cg l)))

end Sys2Proof.Machine
end

