-- ==== Sys2Proof/Machine/Grace.lean ====
section
/-! DEFINITION. Grace periods: qpoint, gwait, gdefer, gnum, and the events of the trackers (R350 to R357). -/
namespace Sys2Proof.Machine

/-- Lanes of a group that are in no quiescent state (R351). -/
def unquiet (g : Group) : Word32 :=
  if g.retired then 0
  else g.splits.foldl (fun m p => match p.hold with
    | .take _ _ _ | .gwait _ _ | .groom _ _ _ => m &&& ~~~p.mask
    | _ => m) (~~~(g.done ||| g.exited))

/-- A gwait or gdefer that waits for no period yet is served by grace period k (R350). -/
def serveHold (k : Nat) : Hold → Hold
  | .gwait d 0 => .gwait d k
  | .groom n h 0 => .groom n h k
  | h => h
/-- A group becomes owed to grace period k, and its waits that have no period yet are served by it (R350 to R352). -/
def oweGroup (k : Nat) (quiet : Bool) (g : Group) : Group :=
  { g with misc := { g.misc with owed := if quiet then 0 else unquiet g, owedK := k, passAt := 0 },
           splits := g.splits.map fun p => { p with hold := serveHold k p.hold } }

/-- A split of the group waits for a period that has not begun. -/
def gwaitNew (g : Group) : Bool := g.splits.any fun p => serveHold 1 p.hold != p.hold

/-- A change of every group of a context, resident or saved; the flag says saved at a quiet hinge. -/
def mapGroups (s : State) (c : Nat) (f : Bool → Group → Group) : State :=
  let s1 := { s with groups := s.groups.map fun (e : Nat × Group) => if (s.team e.2.team).ctx = c then (e.1, f false e.2) else e }
  let x := s1.ctx c
  s1.setCtx c { x with saves := x.saves.map fun v => { v with groups := v.groups.map fun e => (e.1, f (v.quiet.contains e.1) e.2) } }
/-- Some group of a context, resident or saved. -/
def anyGroup (s : State) (c : Nat) (p : Group → Bool) : Bool :=
  (s.groups.any fun e => (s.team e.2.team).ctx == c && p e.2) || (s.ctx c).saves.any fun v => v.groups.any fun e => p e.2

/-- A grace period begins where none is in progress and a gwait or gdefer waits for one (R350). -/
def graceBegin (s : State) (c : Nat) : State :=
  let x := s.ctx c
  let k := x.gn + 1
  if !x.grace && (anyGroup s c gwaitNew || x.defers.any fun d => d.k == 0) then
    mapGroups (s.setCtx c { x with grace := true, boosted := false, pushed := 0, defers := x.defers.map fun d => if d.k = 0 then { d with k := k } else d }) c (oweGroup k)
  else s

/-- qpoint (R354). -/
def execQpoint (s : State) : Out := Res.out (outsideTx s fun s => .ok (passPoint s s.cur.gh s.sp.mask))
/-- gwait: the lanes pass a quiescent point and wait (R354). -/
def execGwait (d : Nat) (s : State) : Out :=
  Res.out (outsideTx s fun s => .ok (graceBegin (passPoint (s.setSp { s.sp with hold := .gwait d 0 }) s.cur.gh s.sp.mask) s.ct.ctx))
/-- Entries that a die's queue of a context holds (R355). -/
def gdeferRoom (s : State) (c die : Nat) : Bool := decide (((s.ctx c).defers.filter fun e => e.die == die).length < 65536)
/-- gdefer: checks at issue, then its entry, or a wait for room with the operands and the period that serves it (R350, R355). -/
def execGdefer (a b : Nat) (s : State) : Out :=
  Res.out (outsideTx s fun s =>
    let node := (s.rS a).toNat
    let head := (s.rS b).toNat
    let die := dieOf s.ct.core
    if node % 8 ≠ 0 then .error (fatal s MISALIGN 8 node 0)
    else if head % 16 ≠ 0 then .error (fatal s MISALIGN 16 head 0)
    else if !canonical node then .error (fatal s PROTECTION 0 node 0)
    else if !canonical head then .error (fatal s PROTECTION 0 head 0)
    else if gdeferRoom s s.ct.ctx die then
      .ok (graceBegin (s.setCtx s.ct.ctx { s.cctx with defers := s.cctx.defers ++ [⟨die, node, head, 0⟩] }) s.ct.ctx)
    else .ok (graceBegin (passPoint (s.setSp { s.sp with hold := .groom node head 0 }) s.cur.gh s.sp.mask) s.ct.ctx))
/-- gnum (R354). -/
def execGnum (d : Nat) (s : State) : Out := Res.out (outsideTx s fun s => .ok (s.wS d (BitVec.ofNat 64 s.cctx.gn)))

/-- Every lane owed to the grace period in progress has passed (R351). -/
def allPassed (s : State) (c : Nat) : Bool := !anyGroup s c fun g => g.misc.owed != 0

/-- GRACE_BOOST: resident splits with an owed lane have the boost from now on (R352). -/
def execGraceBoost (ctx : Nat) (s : State) : Out :=
  if (s.ctx ctx).grace && !allPassed s ctx then .next (s.setCtx ctx { s.ctx ctx with boosted := true })
  else .fault (.notEnabled "GRACE_BOOST")

/-- A push's address among accesses that wait for their pages (R430). -/
def whoPush (va : Nat) : List Nat := [10, va]
/-- A place of a free-list push: a location, or the step ends. -/
def pushPlace (s : State) (c core va : Nat) : Except State Nat :=
  let f (code d : Nat) : State := fatalCtx s c (FaultAt.none 0x3FF (runningSlot s c)) code d va 0
  let waits (un : Bool) : Except State Nat := match waitPage s c core va true (whoPush va) un with
    | .ok s1 => .error s1
    | .error d => .error (f TRANSLATION_DENIED d)
  match xlate s c core va true with
  | .hit loc => .ok loc
  | .miss => waits false
  | .unmapped => waits true
  | .prot d => .error (f PROTECTION d)

/-- The first split of a context that waits for room in a die's queue: its group, its place, its entry (R355). -/
def roomWaiter (s : State) (c die : Nat) : Option (Nat × Nat × DFree) :=
  s.groups.findSome? fun e =>
    let t := s.team e.2.team
    if t.ctx = c ∧ dieOf t.core = die then
      (List.range e.2.splits.length).findSome? fun i => match (nthD Split.init e.2.splits i).hold with
        | .groom n h k => some (e.1, i, ⟨die, n, h, k⟩)
        | _ => none
    else none
/-- Where a die's queue has room, an entry that waits for it enters, and its split goes on (R355). -/
def enterRoom (s : State) (c die : Nat) : State :=
  match roomWaiter s c die with
  | some (gh, i, e) =>
    if gdeferRoom s c die then
      let g := s.grp gh
      let x := s.ctx c
      (s.setCtx c { x with defers := x.defers ++ [e] }).setGrp gh
        { g with splits := setAt g.splits i { nthD Split.init g.splits i with hold := .none, age := 0 } }
    else s
  | none => s
/-- An entry of grace period k still waits for room. -/
def roomFor (k : Nat) (g : Group) : Bool := g.splits.any fun p => match p.hold with
  | .groom _ _ j => j == k
  | _ => false

/-- The home of a location is ready for a push; a peer's memory is reached by a request. -/
def pushLine (s : State) (c core va loc : Nat) : LineAns :=
  if isPeer loc then .ready s else homeAccess s core (lineOf loc) loc (accOf s c va loc 8 0 3 0) none

/-- Two lines are both ready, by virtual address and location: the first is asked for too where it waits. -/
def bothReady (s : State) (c core : Nat) (a b : Nat × Nat) : Except State State :=
  match pushLine s c core a.1 a.2 with
  | .ready s1 =>
    (match pushLine s1 c core b.1 b.2 with
     | .ready s2 => .ok s2
     | .wait s2 => .error s2
     | .home s2 => .error s2)
  | .wait s1 => .error s1
  | .home s1 => .error s1

/-- A peer access of the device's own work for a context, which no group makes (R431, R509). -/
def pushPeer (s : State) (c va loc : Nat) : PeerOut :=
  ⟨s.seq, deadGroup, 3, some c, pasidOf s c, va, 0, FaultAt.none 0x3FF (runningSlot s c), loc, false, false, []⟩
/-- Bytes of a push at a location (R357). -/
def pushBytes (s : State) (c va loc : Nat) (bs : List Byte) : State :=
  if isPeer loc then peerPut s (pushPeer s c va loc) bs [] else s.perform (cellsOf loc bs)
/-- A list head on a peer is read from there (R509). -/
def headRead (s : State) (c va loc : Nat) : State :=
  if isPeer loc then peerSay s { pushPeer s c va loc with load := true } (.peer false loc [] []) else s

/-- GRACE_FREE_PUSH: the first entry of a die's queue for the grace period is pushed (R357). -/
def execGraceFreePush (ctx die : Nat) (s : State) : Out :=
  let x := s.ctx ctx
  let core := 128 * die
  match x.defers.find? fun d => d.die == die && d.k == x.gn + 1 with
  | none => .fault (.notEnabled "GRACE_FREE_PUSH")
  | some e =>
    if !x.grace || !allPassed s ctx then .fault (.notEnabled "GRACE_FREE_PUSH")
    else
      Res.out do
        let node ← pushPlace s ctx core e.node
        let head ← pushPlace s ctx core e.head
        if s.isPoison head 16 then .error (fatalCtx s ctx (FaultAt.none 0x3FF (runningSlot s ctx)) POISON 0 e.head 0)
        else do
          let s1 ← bothReady s ctx core (e.node, node) (e.head, head)
          let old := s1.rdNat head 8
          let new := toBytes 8 e.node ++ toBytes 8 ((s1.rdNat (head + 8) 8 + 1) % 2 ^ 64)
          let s2 := pushBytes (headRead s1 ctx e.head head) ctx e.node node (toBytes 8 old)
          let s3 := endTries (endTries (pushBytes s2 ctx e.head head new) ctx core (whoPush e.node)) ctx core (whoPush e.head)
          let y := s3.ctx ctx
          .ok (enterRoom (s3.setCtx ctx { y with pushed := y.pushed + 1, defers := y.defers.erase e }) ctx die)

/-- What a group with lanes that were owed to a grace period issued before their points is done: commands, accesses, pushes, side-log entries
(R354). -/
def owedDone (s : State) (c k : Nat) : Bool :=
  s.groups.all fun e =>
    let n := e.2.misc.passAt
    let q := s.core (s.team e.2.team).core
    (s.team e.2.team).ctx != c || e.2.misc.owedK != k ||
    ((q.cq.all fun x => x.gh != e.1 || decide (n ≤ x.id)) && (q.mq.all fun x => x.gh != e.1 || decide (n ≤ x.id)) &&
     (List.range 16).all fun st => performed s e.1 st n)

/-- The gwait waits of grace period k return it. -/
def gwaitReturn (k : Nat) (g : Group) : Group :=
  (List.range g.splits.length).foldl (fun g i =>
    let p := nthD Split.init g.splits i
    match p.hold with
    | .gwait d j => if j = k then { g.wS d (BitVec.ofNat 64 k) with splits := setAt g.splits i { p with hold := .none } } else g
    | _ => g) g

/-- GRACE_COMPLETION (R350, R351, R354, R460). -/
def execGraceCompletion (ctx : Nat) (s : State) : Out :=
  let x := s.ctx ctx
  let k := x.gn + 1
  if x.grace && allPassed s ctx && (x.defers.all fun d => d.k != k) && !anyGroup s ctx (roomFor k) && owedDone s ctx k then
    let s1 := traceRec (s.setCtx ctx { x with gn := k, grace := false, boosted := false, pushed := 0 }) (firstDie s ctx) 0x3FF ctx 8 k x.pushed
    .next (graceBegin (mapGroups s1 ctx fun _ g => gwaitReturn k g) ctx)
  else .fault (.notEnabled "GRACE_COMPLETION")

end Sys2Proof.Machine
end

