-- ==== Sys2Proof/Machine/Keccak.lean ====
section
/-! DEFINITION. SHAKE256, by which firmware is measured (R435) and the measurement registers are extended (R436). The manual names the function
and does not define it: this is the one of FIPS 202 (PRESUMED, log 88). -/
namespace Sys2Proof.Machine

/-- The state of Keccak: 25 lanes, lane x + 5 y at place x + 5 y. -/
abbrev Lanes := List (BitVec 64)
/-- A lane of the state. -/
def kLane (a : Lanes) (x y : Nat) : BitVec 64 := nthD 0 a (x % 5 + 5 * (y % 5))
/-- The state whose lane (x, y) is f x y. -/
def mkLanes (f : Nat → Nat → BitVec 64) : Lanes := (List.range 25).map fun k => f (k % 5) (k / 5)

/-- Theta: each lane takes the parities of two columns. -/
def kTheta (a : Lanes) : Lanes :=
  let par := (List.range 5).map fun x => (List.range 5).foldl (fun p y => p ^^^ kLane a x y) 0
  let mix := (List.range 5).map fun x => nthD 0 par ((x + 4) % 5) ^^^ (nthD 0 par ((x + 1) % 5)).rotateLeft 1
  mkLanes fun x y => kLane a x y ^^^ nthD 0 mix x

/-- By how much rho turns each lane. -/
def kTurns : List Nat := [0, 1, 62, 28, 27, 36, 44, 6, 55, 20, 3, 10, 43, 25, 39, 41, 45, 15, 21, 8, 18, 2, 61, 56, 14]
/-- Rho and pi: lane (x, y) takes lane (x + 3 y, x), turned. -/
def kRhoPi (a : Lanes) : Lanes := mkLanes fun x y =>
  let u := (x + 3 * y) % 5
  (kLane a u x).rotateLeft (nthD 0 kTurns (u + 5 * x))
/-- Chi: each lane takes the two beside it in its row. -/
def kChi (a : Lanes) : Lanes := mkLanes fun x y => kLane a x y ^^^ (~~~kLane a (x + 1) y &&& kLane a (x + 2) y)

/-- The bits of the round constants: a shift register of eight bits with the polynomial x^8 + x^6 + x^5 + x^4 + 1. -/
def kShift (r : Nat) : Nat := if r < 128 then 2 * r else (2 * r - 256) ^^^ 0x71
/-- The register after so many steps. -/
def kReg : Nat → Nat
  | 0 => 1
  | n + 1 => kShift (kReg n)
/-- The constant of a round. -/
def kConst (round : Nat) : BitVec 64 :=
  (List.range 7).foldl (fun c j => if kReg (j + 7 * round) % 2 = 1 then c ||| (1 <<< (2 ^ j - 1)) else c) 0
/-- Iota: lane (0, 0) takes the round's constant. -/
def kIota (round : Nat) (a : Lanes) : Lanes := match a with
  | [] => []
  | w :: ws => (w ^^^ kConst round) :: ws

/-- The permutation: 24 rounds. -/
def keccakF (a : Lanes) : Lanes := (List.range 24).foldl (fun a r => kIota r (kChi (kRhoPi (kTheta a)))) a

/-- Bytes that one permutation takes in or gives. -/
def shakeRate : Nat := 136
/-- A block added to the state. -/
def kAbsorb (a : Lanes) (b : List Byte) : Lanes :=
  keccakF ((List.range 25).map fun k => nthD 0 a k ^^^ BitVec.ofNat 64 (ofBytes ((b.drop (8 * k)).take 8)))
/-- A message as blocks: the bits 1111 after it, then 1, zeros and 1 up to a whole number of blocks. -/
def shakePad (m : List Byte) : List Byte :=
  let k := shakeRate - m.length % shakeRate
  m ++ (if k = 1 then [0x9F] else 0x1F :: List.replicate (k - 2) 0 ++ [0x80])
/-- So many blocks taken in. -/
def kAbsorbAll : Nat → Lanes → List Byte → Lanes
  | 0, a, _ => a
  | n + 1, a, m => kAbsorbAll n (kAbsorb a (m.take shakeRate)) (m.drop shakeRate)
/-- So many blocks given. -/
def kSqueeze : Nat → Lanes → List Byte
  | 0, _ => []
  | n + 1, a => (a.flatMap fun w => toBytes 8 w.toNat).take shakeRate ++ kSqueeze n (keccakF a)
/-- SHAKE256 of a message, to n bytes. -/
def shake256 (m : List Byte) (n : Nat) : List Byte :=
  let p := shakePad m
  (kSqueeze (n / shakeRate + 1) (kAbsorbAll (p.length / shakeRate) (List.replicate 25 0) p)).take n

end Sys2Proof.Machine
end

