-- ==== Sys2Proof/Machine/Regs.lean ====
section
/-! DEFINITION. Host-mapped registers: writes (R5, R6, R264, R306, R307, R361, R362, R418, R424, R445, R453, R462, R463, R465, R501 to R505, R507,
R508, R515), snapshots (R464, R465), MSI-X, the management mailbox (R436, R437) and the discipline of time (R457). -/
namespace Sys2Proof.Machine

/-! Fields. -/

/-- The bits that a host write changes, where the register has no behaviour of its own; the rest is reserved or read-only (R6). -/
def wmask (o : Nat) : Word64 :=
  if o < 0x200 then (if o % 16 = 8 then 0x1FFFFFFFF else 0xFFFFFFFFFFFFFFFC)
  else if 0x100000 ≤ o ∧ o < 0x140000 then
    let r := o % 0x1000
    if r = 0x810 then 0xFFFFFFFFFFFFFFFF
    else if r = 0x818 then 0xFFFFFFFFFFFFF00F
    else if r = 0x820 then 0x0000001F0000FFFF
    else if r = 0x828 then 0x1F
    else if r = 0x830 then 0x1FFF
    else if r = 0x838 then 0xFFFFFFFF
    else if 0x880 ≤ r ∧ r < 0x900 then 0x80003FFFFFFFFFFF
    else 0
  else if 0x400000 ≤ o ∧ o < 0x500000 then
    let r := o % 0x20000
    if r = 0x10 then 0x1FFE0000
    else if 0x800 ≤ r ∧ r < 0xA00 then 0xFFFFFFFFFFFFFFFF
    else 0
  else if o = rSNAPCTL then 0xFF00000006
  else if o = rPODID then 0x3FF
  else if io1 + 0x400 ≤ o ∧ o < io1 + 0x800 then 0x1F1F1F1F1F1F1F1F
  else if io1 + 0x800 ≤ o ∧ o < io1 + 0x880 then 0xFF0000FFFFE00000
  else if o = io0 + 0x1FF8 then 0xFFFFFFFF
  else 0

/-- The saturating counters of a register: a write of zero clears one, any other value leaves it (R307, R445, R453, R462). -/
def counterFields (o : Nat) : List (Nat × Nat) :=
  if 0x100000 ≤ o ∧ o < 0x140000 then (if o % 0x1000 = 0x820 then [(63, 48)] else [])
  else if 0x400000 ≤ o ∧ o < 0x500000 then
    let r := o % 0x20000
    if r = 0 then [(63, 32), (31, 16)]
    else if r = 0x10 then [(63, 32)]
    else if 0xC00 ≤ r ∧ r < 0xE00 then [(63, 48), (47, 32), (31, 16), (15, 0)]
    else []
  else []
/-- Clear the counters that a write of v to the bits of m covers and gives zero. -/
def clearCounters (r v m : Word64) (fs : List (Nat × Nat)) : Word64 :=
  fs.foldl (fun r f => if fld m f.1 f.2 = 2 ^ (f.1 + 1 - f.2) - 1 ∧ fld v f.1 f.2 = 0 then setFld r f.1 f.2 0 else r) r

/-! Registers with a behaviour of their own. -/

/-- Unmasking an entry whose pending bit is set sends the message (R505). -/
def unmasked (s : State) (v : Nat) : State :=
  if fld (s.reg (16 * v + 8)) 32 32 = 0 ∧ fld (s.reg 0x800) v v = 1 ∧ !s.io.linkDown then
    (s.setReg 0x800 (s.reg 0x800 &&& ~~~(1#64 <<< v))).say (.msix v)
  else s
/-- MSIX_UNMASK: the host unmasks an entry (R505). -/
def execMsixUnmask (entry : Nat) (s : State) : Out :=
  if entry < 32 ∧ hostUp s then .next (unmasked (s.setReg (16 * entry + 8) (setFld (s.reg (16 * entry + 8)) 32 32 0)) entry)
  else .fault (.notEnabled "MSIX_UNMASK")

/-- The quotas of L2QUOTA are accepted: none is zero, and they sum to 16 (R264). -/
def quotaOk (v : Word64) : Bool :=
  let q (k : Nat) : Nat := fld v (4 * k + 3) (4 * k)
  q 0 != 0 && q 1 != 0 && q 2 != 0 && q 3 != 0 && q 0 + q 1 + q 2 + q 3 == 16
def writeQuota (s : State) (die : Nat) (v : Word64) : State := if quotaOk v then s.setReg (rL2QUOTA die) (v &&& 0xFFFF) else s
/-- L2QUOTA_WRITE (R264). -/
def execL2quotaWrite (die : Nat) (val : BitVec 64) (s : State) : Out := .next (if die < 8 && hostUp s then writeQuota s die val else s)

/-- A write of HEAD inside the ring interval from HEAD to TAIL (R463). -/
def writeHead (s : State) (die h : Nat) : State :=
  let p := s.reg (rTRCPTR die)
  if (h + 2 ^ 21 - fld p 52 32) % 2 ^ 21 ≤ (fld p 20 0 + 2 ^ 21 - fld p 52 32) % 2 ^ 21 then s.setReg (rTRCPTR die) (setFld p 52 32 h) else s
/-- TRCPTR_HEAD_WRITE (R463). -/
def execTrcptrHeadWrite (die : Nat) (val : BitVec 64) (s : State) : Out := .next (if die < 8 && hostUp s then writeHead s die (fld val 52 32) else s)

/-- SNAPCTL_ARM (R465). -/
def execSnapctlArm (s : State) : Out :=
  if !hostUp s then .fault (.notEnabled "SNAPCTL_ARM") else .next (s.setReg rSNAPCTL (setFld (s.reg rSNAPCTL) 0 0 1))
/-- SNAPCTL_HOSTTRIG: triggers where ARM is set, counts as missed where it is clear (R465). -/
def execSnapctlHosttrig (s : State) : Out := if !hostUp s then .fault (.notEnabled "SNAPCTL_HOSTTRIG") else .next (snapTrigger s.now 6)
/-- What a snapshot register latches: the host-mapped register that it copies, or else a value of a counter or a state that the spec does not
name (R464). -/
def snapValue (s : State) (r : Nat) : Word64 := match Config.snapshotSource r with
  | some o => s.reg o
  | none => Config.snapshotValue s.free r
/-- Every block latches its snapshot registers at device time t, by the causes c (R464, R465). -/
def latchSnapshot (s : State) (t c : Nat) : State :=
  let s1 := (s.setReg rSNAPCTL (setFld (setFld (s.reg rSNAPCTL) 6 4 (c / 16)) 0 0 0)).setReg rSNAPTIME (BitVec.ofNat 64 t)
  let s2 := { s1.draw with io := { s1.io with trig := none, time := max s1.io.time t, snap := (List.range Config.snapshotCount).map (snapValue s),
                                              snapSeq := s1.io.snapSeq + 1 } }
  traceRec s2 0 0x3FF 0xFF 12 c s.io.snapSeq
/-- SNAPSHOT_LATCH: device time reaches T (R464). -/
def execSnapshotLatch (s : State) : Out :=
  match s.io.trig with
  | none => .fault (.notEnabled "SNAPSHOT_LATCH")
  | some (t, c) => .next (latchSnapshot s t c)

/-- Another resident context holds a die of a context's partition (R425). -/
def othersHold (s : State) (c : Nat) : Bool := (List.range 64).any fun d => d != c && ctxResident s d && (ctxDies s d).any ((ctxDies s c).contains ·)
/-- A write of a context's CTXCTL command (R418, R425): 1 begins a save, 2 a resume. Ignored while STATE is 1 or 3, in a context that does not
exist, and, a resume, where another resident context holds a die. In STATE 2 every team is saved already and the area holds the records: a save
finds nothing to do, and STATE stays 2 (DEDUCED, log 52). -/
def writeCmd (s : State) (c cmd : Nat) : State :=
  let st := ctxState s c
  let x := s.ctx c
  if !ctxValid s c ∨ st = 1 ∨ st = 3 then s
  else if cmd = 1 ∧ st = 0 then (s.setReg (rCTXCTL c) (setFld (s.reg (rCTXCTL c)) 5 4 1)).setCtx c { x with saving := true }
  else if cmd = 2 ∧ !othersHold s c ∧ x.slots.all (fun e => e.2.state == 0) then s.setReg (rCTXCTL c) (setFld (s.reg (rCTXCTL c)) 5 4 3)
  else s

/-- A write of CTXCFG (R424 to R426, R515). -/
def writeCfg (s : State) (c : Nat) (v : Word64) : State :=
  let old := s.reg (rCTXCFG c)
  if !deviceReady s ∨ fld v 54 52 % 2 ^ fld v 51 50 ≠ 0 then s
  else if ctxValid s c then
    (if fld v 54 50 = fld old 54 50 ∧ fld v 19 0 = fld old 19 0 ∧ fld v 63 63 = 0 then endContext s c else s)
  else if fld v 63 63 = 1 then
    (match execCtxcfgValidSet c v s with
     | .next s1 => s1
     | _ => s)
  else s.setReg (rCTXCFG c) (cfgMask v)

/-- A write to a launch slot's BLOCK, DIE or STATE: w is the 8-byte word of the slot, m the bits written (R361, R362, R425). -/
def writeWindow (s : State) (c k w : Nat) (v m : Word64) : State :=
  let x := slotOf s c k
  if !ctxResident s c ∨ !deviceReady s then s
  else if w = 8 then setSlot s c k { x with block := (x.block &&& ~~~m) ||| (v &&& m) }
  else if w = 9 then
    let s1 := if fld m 7 0 = 255 then setSlot s c k { x with die := fld v 7 0 } else s
    if fld m 39 32 = 255 then (match execLaunchSlotStateWrite c k (fld v 39 32) s1 with | .next s2 => s2 | _ => s1) else s1
  else s

/-- KEYTAG bytes that a write covers. -/
def writeTags (s : State) (die base : Nat) (v m : Word64) : State :=
  (List.range 8).foldl (fun s k =>
    if fld m (8 * k + 7) (8 * k) = 255 then
      (match execKeytagWrite die (base + k) (BitVec.ofNat 8 (fld v (8 * k + 7) (8 * k))) s with
       | .next s1 => s1
       | _ => s)
    else s) s

/-! The write of one 8-byte register. -/

/-- A host write of v to the bits m of the register at an offset that is a multiple of 8. -/
def hostWrite (s : State) (o : Nat) (v m : Word64) : State :=
  let old := s.reg o
  let merged := (old &&& ~~~m) ||| (v &&& m)
  let plain := (old &&& ~~~(m &&& wmask o)) ||| (v &&& m &&& wmask o)
  let c := (o - 0x100000) / 0x1000
  let d := (o - 0x400000) / 0x20000
  if 0x100000 ≤ o ∧ o < 0x140000 ∧ o % 0x1000 < 0x800 then writeWindow s c (o % 0x1000 / 128) (o % 128 / 8) v m
  else if 0x100000 ≤ o ∧ o < 0x140000 ∧ o % 0x1000 = 0x800 then writeCfg s c merged
  else if 0x100000 ≤ o ∧ o < 0x140000 ∧ o % 0x1000 = 0x808 then (if fld m 1 0 = 3 then writeCmd s c (fld v 1 0) else s)
  else if 0x400000 ≤ o ∧ o < 0x500000 ∧ 0x10000 ≤ o % 0x20000 then writeTags s d (o % 0x20000 - 0x10000) v m
  else if 0x400000 ≤ o ∧ o < 0x500000 ∧ o % 0x20000 = 8 then (if fld m 15 0 = 0xFFFF then writeQuota s d v else s)
  else if 0x400000 ≤ o ∧ o < 0x500000 ∧ o % 0x20000 = 0x18 then (if fld m 52 32 = 0x1FFFFF then writeHead s d (fld v 52 32) else s)
  else if o = rSECSTAT then (match execSecstatClear (v &&& m) s with | .next s1 => s1 | _ => s)
  else if o = rSNAPCTL then
    let s1 := s.setReg o plain
    let s2 := if fld (v &&& m) 0 0 = 1 then s1.setReg o (setFld (s1.reg o) 0 0 1) else s1
    if fld (v &&& m) 3 3 = 1 then snapTrigger s2.now 6 else s2
  else
    let s1 := s.setReg o (clearCounters plain v m (counterFields o))
    if o < 0x200 ∧ o % 16 = 8 then unmasked s1 (o / 16) else s1

/-- An aligned 4-byte or 8-byte access inside BAR0 (R503). -/
def goodAccess (o size : Nat) : Bool := (size == 4 || size == 8) && o % size == 0 && decide (o + size ≤ 2 ^ 23)

/-- A write to KEYTAG waits for accesses on their way to a block that it covers (R434). -/
def tagsBusy (s : State) (o n : Nat) : Bool :=
  decide (0x400000 ≤ o) && decide (o < 0x500000) && decide (0x10000 ≤ o % 0x20000) &&
  (List.range n).any fun k => match kthBlock ((o - 0x400000) / 0x20000) (2 ^ 19) 0 (o % 0x20000 - 0x10000 + k) with
    | some b => blockBusy s b
    | none => false

/-- REGISTER_WRITE: a 4-byte write changes only the half that it addresses (R502, R503). -/
def execRegisterWrite (off size : Nat) (val : BitVec 64) (s : State) : Out :=
  if goodAccess off size && hostUp s && !tagsBusy s off size then
    .next (if size = 8 then hostWrite s off val (BitVec.allOnes 64)
      else if off % 8 = 0 then hostWrite s off (val &&& 0xFFFFFFFF) 0xFFFFFFFF
      else hostWrite s (off - 4) (val <<< 32) 0xFFFFFFFF00000000)
  else .fault (.notEnabled "REGISTER_WRITE")

/-- COUNTER_CLEAR_WRITE: an 8-byte write to a register with a saturating counter (R307, R445, R453, R462). -/
def execCounterClearWrite (off : Nat) (val : BitVec 64) (s : State) : Out :=
  if goodAccess off 8 && hostUp s && !(counterFields off).isEmpty then .next (hostWrite s off val (BitVec.allOnes 64)) else .fault (.notEnabled "COUNTER_CLEAR_WRITE")

/-- Eight bytes of a die's KEYTAG array, from byte k on (R433). -/
def tagBytes (s : State) (die k : Nat) : Word64 :=
  BitVec.ofNat 64 (ofBytes ((List.range 8).map fun i => match kthBlock die (2 ^ 19) 0 (k + i) with
    | some b => BitVec.ofNat 8 (keyTag s b)
    | none => 127))

/-! The management core. -/

/-- A measurement register, MR0 to MR7 (R436). -/
def State.mr (s : State) (k : Nat) : List Byte := mget (List.replicate 64 0) s.io.mrs k
/-- An extend of a measurement register (R436). -/
def extendMr (s : State) (k : Nat) (m : List Byte) : State :=
  { s with io := { s.io with mrs := mset (List.replicate 64 0) s.io.mrs k (shake256 (s.mr k ++ shake256 m 64) 64) } }
/-- MAILBOX_EXTEND: system software extends MR3 to MR7 (R436). -/
def execMailboxExtend (mr : Nat) (m : List (BitVec 8)) (s : State) : Out :=
  if 3 ≤ mr ∧ mr ≤ 7 ∧ hostUp s then .next (extendMr s mr m) else .fault (.notEnabled "MAILBOX_EXTEND")

/-- n bytes, the first of a list, zeros where it is shorter: a key or a signature of ML-DSA-65 has a fixed length (R435, R437). -/
def fitBytes (n : Nat) (b : List Byte) : List Byte := (b ++ List.replicate n 0).take n
/-- The signed part of an attestation report (R437). -/
def reportBody (s : State) (nonce : List Byte) : List Byte :=
  toBytes 4 0x41545354 ++ nonce ++ (List.range 8).flatMap (State.mr s) ++ toBytes 4 Config.securityVersion.toNat ++
  toBytes 1 Config.alarmPolicy.toNat ++ toBytes 8 (s.reg rSECSTAT).toNat
/-- MAILBOX_ATTESTATION: a report for a 32-byte nonce, which firmware gives once it runs (R437, R514). -/
def execMailboxAttestation (nonce : List (BitVec 8)) (s : State) : Out :=
  if nonce.length = 32 ∧ inService s ∧ 1 ≤ fld (s.reg rBOOTSTAT) 7 4 then
    .next { s with io := { s.io with report := reportBody s nonce ++ fitBytes 3309 (Config.mlDsaSign (reportBody s nonce)) } }
  else .fault (.notEnabled "MAILBOX_ATTESTATION")

/-- Where the mailbox takes the number of the page that it shows. DESIGN CHOICE (log 89): the spec places MR0 to MR7, the reports, the home-die map
and the addresses of the trace buffers in the mailbox and does not lay them out. -/
def rMBPAGE : Nat := io0 + 0x1FF8
/-- A page of the mailbox: 0 the measurement registers, the addresses of the trace buffers, the stepping and the number of snapshot registers (R436,
R462, R464); 1 the last attestation report (R437); from 2 on the home dies of 2,048 blocks each (R253); from 1,000 on the layout and the values of
128 snapshot registers each (R464). Firmware writes the home-die map and the addresses in stage 2 (R514). -/
def mailboxPage (s : State) (p : Nat) : List Byte :=
  if p = 0 then (List.range 8).flatMap s.mr ++ (List.range 8).flatMap (fun d => toBytes 8 (mget 0 s.io.trcBase d)) ++
    toBytes 8 Config.stepping.toNat ++ toBytes 8 Config.snapshotCount
  else if p = 1 then s.io.report
  else if p < 258 then (if fld (s.reg rBOOTSTAT) 7 4 < 3 then [] else (List.range 2048).map fun k => BitVec.ofNat 8 (blockDie (2048 * (p - 2) + k)))
  else if 1000 ≤ p then (List.range 128).flatMap fun k =>
    let r := 128 * (p - 1000) + k
    toBytes 8 (match Config.snapshotSource r with | some o => o + 1 | none => 0) ++ toBytes 8 (nthD 0 s.io.snap r).toNat
  else []
/-- Eight bytes of the mailbox. -/
def mailboxRead (s : State) (o : Nat) : Word64 :=
  if o = rMBPAGE then s.reg rMBPAGE
  else BitVec.ofNat 64 (ofBytes (((mailboxPage s (s.reg rMBPAGE).toNat).drop (o - (io0 + 0x1000))).take 8))

/-! What the host reads. -/

/-- KEYTAG and the mailbox, which the host may read in other sizes (R503). -/
def readsWide (o : Nat) : Bool :=
  (decide (0x400000 ≤ o) && decide (o < 0x500000) && decide (0x10000 ≤ o % 0x20000)) || (decide (io0 + 0x1000 ≤ o) && decide (o < io0 + 0x2000))
/-- What the host reads at a register: CMD and HOSTTRIG read as 0, and every slot and die page as zero before stage 4 (R418, R465, R515). -/
def hostRead (s : State) (o : Nat) : Word64 :=
  if 0x100000 ≤ o ∧ o < 0x500000 ∧ fld (s.reg rBOOTSTAT) 7 4 < 4 then 0
  else if 0x100000 ≤ o ∧ o < 0x140000 ∧ o % 0x1000 < 0x800 then
    let x := slotOf s ((o - 0x100000) / 0x1000) (o % 0x1000 / 128)
    if o % 128 = 64 then x.block
    else if o % 128 = 72 then BitVec.ofNat 64 (x.die + x.state * 2 ^ 32 + x.cause * 2 ^ 40)
    else 0
  else if 0x400000 ≤ o ∧ o < 0x500000 ∧ 0x10000 ≤ o % 0x20000 then tagBytes s ((o - 0x400000) / 0x20000) (o % 0x20000 - 0x10000)
  else if io0 + 0x1000 ≤ o ∧ o < io0 + 0x2000 then mailboxRead s o
  else s.regRead o
/-- The bytes of a read of any size. -/
def hostBytes (s : State) (off size : Nat) : List Byte :=
  (((List.range (size / 8 + 1)).flatMap fun k => toBytes 8 (hostRead s (off / 8 * 8 + 8 * k)).toNat).drop (off % 8)).take size

/-- A read that BAR0 answers (R503). -/
def goodRead (off size : Nat) : Bool :=
  goodAccess off size || (readsWide off && [1, 2, 16, 32, 64].contains size && off % size == 0)
/-- A write that BAR0 takes: an ITEM is written by 64 bytes at once (R362, R503). -/
def goodWrite (off size : Nat) : Bool :=
  goodAccess off size ||
  (size == 64 && decide (0x100000 ≤ off) && decide (off < 0x140000) && decide (off % 0x1000 < 0x800) && off % 128 == 0)
/-- BAR0_BAD_ACCESS: an access of another size completes with Completer Abort and no effect (R503). -/
def execBar0BadAccess (acc : BarAccess) (size : Nat) (s : State) : Out :=
  let r : Bool × Nat := match acc with
    | .read off => (goodRead off size, off)
    | .write off => (goodWrite off size, off)
  if !r.1 && decide (r.2 < 2 ^ 23) && !s.io.linkDown then .next (s.say (.abort r.2 size)) else .fault (.notEnabled "BAR0_BAD_ACCESS")
/-- The host reads a register: it may, from the moment that its link has trained (R503, R514). -/
def hostReads (off size : Nat) (s : State) : Out :=
  if goodRead off size && !s.io.linkDown then .next (s.say (.regRead off (hostBytes s off size))) else .fault (.notEnabled "a host read")

/-- FIRMWARE_UPDATE: written to flash, in effect at the next power-on (R516). -/
def execFirmwareUpdate (image : Nat) (s : State) : Out :=
  if s.io.powered then .next { s with io := { s.io with flash := image } } else .fault (.notEnabled "FIRMWARE_UPDATE")

/-- TIME_DISCIPLINE: a positive correction above 1 ms is one forward step, every other one is slewed as time passes; TIMESTAT reports (R457). A step
that passes the time of a triggered snapshot reaches it first (R464). -/
def execTimeDiscipline (fix : TimeFix) (offset : Nat) (s : State) : Out :=
  let pps := match fix with
    | .slew _ b => b
    | .step _ b => b
  let st (s : State) : State :=
    { s.setReg rTIMESTAT (BitVec.ofNat 64 (min offset 0xFFFFFFFF * 2 ^ 32 + bbit pps 1 + bbit (decide (offset ≤ 100)) 0)) with
      io := { s.io with locked := decide (offset ≤ 100) } }
  match fix with
  | .step ns _ =>
    let s1 := match s.io.trig with
      | some (t, c) => if t ≤ s.io.time + ns then latchSnapshot s t c else s
      | none => s
    if ns ≤ 1000000 ∨ !s.io.powered then .fault (.notEnabled "TIME_DISCIPLINE")
    else .next (st { s1 with io := { s1.io with time := max s1.io.time (s.io.time + ns) } })
  | .slew ns _ =>
    if 1000000 < ns ∨ !s.io.powered then .fault (.notEnabled "TIME_DISCIPLINE") else .next (st { s with io := { s.io with slew := ns } })

end Sys2Proof.Machine
end

