-- ==== Sys2Proof/Machine/Platform.lean ====
section
/-! DEFINITION. The host link, peers and the package: BAR2 accesses (R501), peer requests and responses (R507 to R509), the host link going down
and back (R510), bring-up and power (R439, R514, R515), island frequencies (R512, R513). -/
namespace Sys2Proof.Machine

/-! Accesses at the home from outside. -/

/-- The lines that n bytes from a location touch. -/
def linesOf (a n : Nat) : List Nat := (List.range (n / 128 + 2)).filterMap fun k => if (a / 128 + k) * 128 < a + n ∧ 0 < n then some (a / 128 + k) else none
/-- The home becomes sole holder of every line, as for an acquirer from outside the package's cores (R284, R304, R501). -/
def outsideLines : List Nat → State → Bool → State × Bool
  | [], s, ok => (s, ok)
  | line :: ls, s, ok =>
    match homeAccess s 0x3FF line (128 * line) ⟨1, 0, false, true, 0, [], true⟩ none with
    | .ready s1 => outsideLines ls s1 ok
    | .wait s1 => outsideLines ls s1 false
    | .home s1 => outsideLines ls s1 false
/-- Bytes read by a party outside; poisoned data is marked on the link (R454). -/
def outsideRead (s : State) (a n : Nat) : State := s.say (.read (s.rdBytes a n) (s.poisUnits a n))

/-- HOST_BAR2_ACCESS: performed at the home slices, or the home first recalls the lines (R501). -/
def execHostBar2Access (write : Bool) (pa len : Nat) (bytes : List (BitVec 8)) (s : State) : Out :=
  let n := if write then bytes.length else len
  if !hostUp s || !memoryUp s || decide (2 ^ 40 < pa + n) || n == 0 then .fault (.notEnabled "HOST_BAR2_ACCESS")
  else
    let r := outsideLines (linesOf pa n) s true
    if r.2 then .next (if write then r.1.perform (cellsOf pa bytes) else outsideRead r.1 pa n) else .next r.1

/-! Peers. -/

/-- A PEERWIN window covers an address, and admits writes where it must (R508). -/
def windowAdmits (w : Word64) (pa : Nat) (write : Bool) : Bool :=
  let z := fld w 61 56
  fld w 63 63 == 1 && decide (z ≤ 19) && (!write || fld w 62 62 == 1) && fld w 39 21 * 2 ^ 21 / 2 ^ (21 + z) == pa / 2 ^ (21 + z)
/-- Some window admits the access. -/
def peerAdmits (s : State) (pa n : Nat) (write : Bool) : Bool :=
  (List.range 16).any fun k => windowAdmits (s.reg (rPEERWIN k)) pa write && windowAdmits (s.reg (rPEERWIN k)) (pa + n - 1) write
/-- Bytes of a peer request, and whether it writes. -/
def peerBytes : PeerReq → Nat
  | .read n => n
  | .write b => b.length
  | .atom _ t _ _ => formBytes t 0
def peerWrites : PeerReq → Bool
  | .read _ => false
  | _ => true

/-- PEER_ACCESS_REQUEST: performed at the home where a window admits it, answered with the data read; refused where none does (R508, R509). -/
def execPeerAccessRequest (pa : Nat) (q : PeerReq) (s : State) : Out :=
  let n := peerBytes q
  if n = 0 ∨ 2 ^ 40 < pa + n ∨ !memoryUp s then .fault (.notEnabled "PEER_ACCESS_REQUEST")
  else if !peerAdmits s pa n (peerWrites q) then .next (s.say (.refused pa))
  else
    let r := outsideLines (linesOf pa n) s true
    if r.2 then
      .next (match q with
        | .read n => outsideRead r.1 pa n
        | .write b => (r.1.perform (cellsOf pa b)).say (.read [] [])
        | .atom aop t b c => (outsideRead r.1 pa n).perform (cellsOf pa (toBytes n (atomNew t aop (r.1.rdNat pa n) b c))))
    else .next r.1

/-- The port that a peer location's route names (R507). -/
def routePort (s : State) (loc : Nat) : Nat :=
  let dev := (loc - 2 ^ 70) / 2 ^ 40 % 1024
  fld (s.reg (io1 + 0x400 + dev / 8 * 8)) (dev % 8 * 8 + 3) (dev % 8 * 8)
/-- A peer location as the bus address of its access (R508). -/
def peerPa (loc : Nat) : Nat := 3 * 2 ^ 54 + (loc - 2 ^ 70)

/-- Poison marks that a peer's answer brings (R454). -/
def markAll (s : State) (l : List (Nat × Nat)) : State :=
  l.foldl (fun s m => match m.1 with
    | 0 => { s with poison := mset false s.poison m.2 true }
    | k + 1 => s.setCore k { s.core k with spois := mset false (s.core k).spois m.2 true }) s
/-- A fatal fault of a peer access, while its context has the work: it names the word, the lanes and the address that made it (R446, R509). -/
def peerFault (s : State) (p : PeerOut) (code detail addr : Nat) : State := match p.ctx with
  | some c => fatalCtx s c p.org code detail addr p.mask
  | none => s
/-- PEER_RESPONSE: an acknowledgement; poisoned data marks what a cpy has copied of it, and is fatal for a load; no admitting window, and a port that
still fails, are fatal (R454, R509). -/
def execPeerResponse (idx : Nat) (ans : PeerAns) (s : State) : Out :=
  match s.io.peerOut[idx]? with
  | none => .fault (.notEnabled "PEER_RESPONSE")
  | some p =>
    let s1 := { s with io := { s.io with peerOut := dropAt s.io.peerOut idx } }
    match ans with
    | .done => .next s1
    | .poisoned => .next (if p.load then peerFault s1 p POISON 0 p.va else markAll s1 p.mark)
    | .denied => .next (peerFault s1 p PROTECTION 1 p.va)
    | .lost => .next (peerFault s1 p LINK_LOST (0x10 + routePort s p.loc) (peerPa p.loc / 128 * 128))

/-! The host link. -/

/-- HOST_LINK_DOWN: every resident context takes LINK_LOST with DETAIL 0xFF, and no message is sent (R510). -/
def execHostLinkDown (s : State) : Out :=
  if s.io.linkDown then .fault (.notEnabled "HOST_LINK_DOWN")
  else
    let s1 := { s with io := { s.io with linkDown := true } }
    .next ((List.range 64).foldl (fun s c => if ctxResident s c then fatalCtx s c (FaultAt.none 0x3FF (runningSlot s c)) LINK_LOST 0xFF 0 0 else s) s1)
/-- The host link is up; when it has trained, the host sets up the BARs and the page request allocation (R430, R501, R514). -/
def linkUp (s : State) : State :=
  let s1 := if s.io.trained then s else
    { s with io := { s.io with bar0 := Config.barBase 0 / 2 ^ 23 * 2 ^ 23, bar2 := Config.barBase 1 / 2 ^ 40 * 2 ^ 40, oprAlloc := Config.pageRequests } }
  { s1 with io := { s1.io with linkDown := false, trained := true } }
/-- HOST_LINK_RESTORED: from stage 1 on, in which the link trains (R510, R514). -/
def execHostLinkRestored (s : State) : Out :=
  if s.io.linkDown && s.io.powered && decide (1 ≤ fld (s.reg rBOOTSTAT) 7 4) then .next (linkUp s) else .fault (.notEnabled "HOST_LINK_RESTORED")

/-! Bring-up and power. -/

/-- The value of an ordering code that firmware extends into MR2 (R511). -/
def codeByte : OrderCode → Nat
  | .pkg640 => 1
  | .mod640 => 2
  | .mod600 => 3

/-- The first blocks of the runs of 64 MiB that a die's own HBM4E holds whole. -/
def traceRuns (d : Nat) : List Nat := (List.range (2 ^ 19 - 31)).filter fun b => (List.range 32).all fun k => blockDie (b + k) == d
/-- Firmware places the trace buffer of each die: 64 MiB of the die's own HBM4E, tagged as system, in a run that it chooses (R433, R462, R514).
DESIGN CHOICE (log 74): a map under which a die holds no such run whole is one that R462 rules out; its buffer then starts at 0. -/
def placeTrace (s : State) : State :=
  (List.range 8).foldl (fun s d =>
    let b := let runs := traceRuns d; nthD 0 runs (Config.freeNat s.free % runs.length)
    let s1 := (List.range 32).foldl (fun s k => tagBlock s (b + k) 64) s.draw
    { s1 with io := { s1.io with trcBase := mset 0 s1.io.trcBase d (b * 2 ^ 21) } }) s

/-- What a bring-up stage does when it succeeds: the link has trained in stage 1, and the compute dies are clocked in stage 3 (R432, R435, R436,
R514). -/
def stageDone (s : State) (n : Nat) : State :=
  match n with
  | 1 => extendMr (if s.io.trained then s else linkUp s) 0 (Config.stageBytes s.io.image 1)
  | 2 => extendMr (placeTrace (newKey s 64)) 1 (Config.stageBytes s.io.image 2)
  | 3 => extendMr { s with io := { s.io with clocked := true } } 2 [BitVec.ofNat 8 Config.alarmPolicy.toNat, BitVec.ofNat 8 (codeByte s.part)]
  | _ => s

/-- The checks before a firmware stage of an image runs: its signature over its measurement under a key of the fused hash, and its security
version (R435). -/
def stagePasses (image k : Nat) : Bool :=
  let key := fitBytes 1952 (Config.imageKey image)
  Config.mlDsaVerify key (shake256 (Config.stageBytes image k) 64) (fitBytes 3309 (Config.stageSig image k)) &&
  shake256 key 32 == Config.vendorKeyHash && decide (Config.securityVersion.toNat ≤ Config.stageVersion image k)
/-- BOOT_STAGE_COMPLETE: the next stage begins, or RECOVERY is set; an alarm halts bring-up (R435, R440, R514, R515). The first two stages end with
the checks of the firmware stage of their number. -/
def execBootStageComplete (ok : Bool) (s : State) : Out :=
  let r := s.reg rBOOTSTAT
  let n := fld r 7 4
  if n < 4 ∧ fld r 0 0 = 0 ∧ fld (s.reg rSECSTAT) 0 0 = 0 ∧ s.io.powered then
    if ok ∧ (n = 0 ∨ n = 3 ∨ stagePasses s.io.image n) then .next ((stageDone s n).setReg rBOOTSTAT (setFld r 7 4 (n + 1)))
    else .next (s.setReg rBOOTSTAT (r ||| 1))
  else .fault (.notEnabled "BOOT_STAGE_COMPLETE")

/-- POWER_ON: the machine starts from reset with the firmware image that flash holds (R514, R516). -/
def execPowerOn (s : State) : Out :=
  if s.io.powered then .fault (.notEnabled "POWER_ON")
  else .next { State.reset with part := s.part, agenda := s.agenda, free := s.free, seq := s.seq, outbox := s.outbox,
                                io := { State.reset.io with flash := s.io.flash, image := s.io.flash } }
/-- POWER_REMOVED: every state ends but the flash (R439, R516). -/
def execPowerRemoved (s : State) : Out :=
  if s.io.powered then
    .next { State.reset with part := s.part, agenda := s.agenda, free := s.free, seq := s.seq, outbox := s.outbox,
                             io := { State.reset.io with flash := s.io.flash, powered := false } }
  else .fault (.notEnabled "POWER_REMOVED")

/-- An island's frequency in MHz (R24, R512). -/
def islandMHz (s : State) (i : Nat) : Nat := mget 1800 s.io.freq i
/-- The board's power limit in watts (R26, R511). -/
def boardWatts (s : State) : Nat := match s.part with
  | .pkg640 => Config.boardWatts
  | .mod640 => 2400
  | .mod600 => 2400
/-- The share of the consumer whose islands are of a kind, in watts: L-cores, D-cores, L2 with network and spine (R24, R26, R513). -/
def powerShare (s : State) (kind : Nat) : Nat := nthD 0 [205, 1330, 320] kind * boardWatts s / 2400
/-- What a reading of an island must not exceed: 0 its consumer's power in W, 1 its die's temperature, 2 the heat flux of its hottest spot in W/cm²
(R27, R513). -/
def islandLimit (s : State) (island limit : Nat) : Nat :=
  if limit = 0 then powerShare s (island % 3) else if limit = 1 then Config.dieLimit else 1000
/-- A frequency that firmware can set: in steps of 50 MHz from 600 MHz to 1.8 GHz (R512). -/
def goodMHz (mhz : Nat) : Bool := decide (600 ≤ mhz) && decide (mhz ≤ 1800) && mhz % 50 == 0
/-- A sensor's reading: the limit is met and asks for nothing, or is not and asks for a frequency that firmware chooses (R513). -/
def takeReading (island limit value mhz : Nat) (s : State) : Out :=
  if island < 24 ∧ limit < 3 ∧ goodMHz mhz ∧ s.io.powered then
    .next { s with io := { s.io with asks := mset 1800 s.io.asks (3 * island + limit) (if value ≤ islandLimit s island limit then 1800 else mhz) } }
  else .fault (.notEnabled "a reading of an island")
/-- The lowest frequency that a limit of an island asks for; 1,800 where every limit is met (R513). -/
def askedMHz (s : State) (island : Nat) : Nat := (List.range 3).foldl (fun m k => min m (mget 1800 s.io.asks (3 * island + k))) 1800
/-- ISLAND_FREQUENCY_CHANGE: down to the lowest frequency asked for; up by one step of 50 MHz, once every limit is met (R512, R513). -/
def execIslandFrequencyChange (island mhz : Nat) (s : State) : Out :=
  let f := islandMHz s island
  let a := askedMHz s island
  if island < 24 ∧ goodMHz mhz ∧ s.io.powered ∧ (if a < 1800 then mhz = a ∧ a < f else mhz = f + 50) then
    .next { s with io := { s.io with freq := mset 1800 s.io.freq island mhz } }
  else .fault (.notEnabled "ISLAND_FREQUENCY_CHANGE")

end Sys2Proof.Machine
end

