-- ==== Sys2Proof/Machine/Hinge.lean ====
section
/-! DEFINITION. Hinge maps (R406 to R408), the portable values of a group (R409), migration (R412) and the hard stop (R413 to R415). -/
namespace Sys2Proof.Machine

/-! Hinge maps. -/

/-- An entry of a hinge map (R407). -/
structure MapEnt where
  cls  : Nat
  lreg : Nat
  dreg : Nat
  num  : Nat
  rsv  : Nat
  deriving DecidableEq, Repr

def mapEnt (b : List Byte) (n : Nat) : MapEnt :=
  let w : Word64 := BitVec.ofNat 64 (bField b (272 + 8 * n) 8)
  ⟨fld w 63 62, fld w 61 52, fld w 51 42, fld w 31 0, fld w 41 32⟩
/-- The register index of an entry in an encoding. -/
def MapEnt.reg (e : MapEnt) (isL : Bool) : Nat := if isL then e.lreg else e.dreg
/-- The registers that entries of a kind name: 0 vectors, both halves of a pair; 1 scalars; 2 predicates. -/
def mapRegs (es : List MapEnt) (isL : Bool) (kind : Nat) : List Nat :=
  es.flatMap fun e => match kind, e.cls with
    | 0, 0 => [e.reg isL]
    | 0, 1 => [e.reg isL, e.reg isL + 1]
    | 1, 2 => [e.reg isL]
    | 2, 3 => [e.reg isL]
    | _, _ => []
/-- The mask with the bits of a list of registers. -/
def regMask (l : List Nat) : Nat := l.foldl (fun m k => m ||| 2 ^ k) 0
/-- The checks of one encoding of a map (R407, R408): masks, overlaps and ranges, against an allotment. -/
def mapEncOk (b : List Byte) (es : List MapEnt) (isL carried : Bool) (allot o : Nat) : Bool :=
  let v := mapRegs es isL 0
  let s := mapRegs es isL 1
  let q := mapRegs es isL 2
  if !carried then bField b o 114 == 0 && es.all fun e => e.reg isL == 0
  else
    bField b o 96 == regMask v && bField b (o + 96) 16 == regMask s && bField b (o + 112) 2 == regMask q &&
    decide (v.eraseDups.length = v.length) && decide (s.eraseDups.length = s.length) && decide (q.eraseDups.length = q.length) &&
    (v.all fun r => decide (r < allot)) && (s.all fun r => decide (1 ≤ r) && decide (r ≤ 127)) && (q.all fun r => decide (r ≤ 15)) &&
    es.all fun e => e.cls != 1 || e.reg isL % 2 == 0
/-- Values stand in strictly increasing number (R408). -/
def rising : List MapEnt → Bool
  | [] => true
  | [_] => true
  | a :: b :: l => decide (a.num < b.num) && rising (b :: l)
/-- A map's entries, where it passes every check of R408. -/
def parseMap (b : List Byte) (id : Nat) (l : Launch) (allot : Nat) : Option (List MapEnt) :=
  let n := bField b 2 2
  let es := (List.range n).map (mapEnt b)
  if bField b 0 2 == id && decide (n ≤ 1024) && bField b 4 12 == 0 && bField b 130 14 == 0 && bField b 258 14 == 0 && rising es &&
     (es.all fun e => e.rsv == 0) && mapEncOk b es true l.hasL allot 16 && mapEncOk b es false l.hasD allot 144
  then some es else none

/-- A multiple of 64 at or above n. -/
def up64 (n : Nat) : Nat := (n + 63) / 64 * 64
/-- The address of a row's map (R365). -/
def mapAddr (l : Launch) (r : HRow) : Nat := l.htab + up64 (24 * l.hcount) + r.map

/-- What reading a map gives. -/
inductive MapAns where
  | ok (es : List MapEnt)
  | wait (s : State)
  | bad (code detail addr : Nat)
  deriving DecidableEq, Repr

/-- Read and check the map of a hinge row for a role's allotment (R408). DESIGN CHOICE (log 81): R408 does not say what happens where the length
that the row gives is not 272 + 8 * NENT; the map is read by its own NENT, and the row's length by nothing. -/
def readMap (s : State) (c core : Nat) (who : List Nat) (l : Launch) (r : HRow) (allot : Nat) : MapAns :=
  match devRead s c core who (mapAddr l r) 272 with
  | .wait s1 => .wait s1
  | .bad a b d => .bad a b d
  | .ok h =>
    if 1024 < bField h 2 2 then .bad HINGE_MAP 0 r.id
    else
      match devRead s c core who (mapAddr l r) (272 + 8 * bField h 2 2) with
      | .wait s1 => .wait s1
      | .bad a b d => .bad a b d
      | .ok b =>
        match parseMap b r.id l allot with
        | some es => .ok es
        | none => .bad HINGE_MAP 0 r.id

/-! Values. -/

/-- The maps that a group's splits wait under, each with the lanes of its split. -/
abbrev LaneMaps := List (Word32 × List MapEnt)
/-- The entry that names a value for a lane: in the map of the lane's split, else in the first map that has the value. -/
def laneEnt (ms : LaneMaps) (num k : Nat) : Option MapEnt :=
  let here := (ms.filter fun m => inMask m.1 k).findSome? fun m => m.2.find? fun e => e.num == num
  if here.isSome then here else ms.findSome? fun m => m.2.find? fun e => e.num == num
/-- Insert an entry by value number, once. -/
def insertEnt (e : MapEnt) : List MapEnt → List MapEnt
  | [] => [e]
  | x :: l => if x.num = e.num then x :: l else if e.num < x.num then e :: x :: l else x :: insertEnt e l
/-- The values of all maps, in increasing number. -/
def allEnts (ms : LaneMaps) : List MapEnt := (ms.flatMap Prod.snd).foldl (fun l e => insertEnt e l) []
/-- The values that a group holds at its hinges, by their maps (R409, R412, R417). -/
def takeVals (g : Group) (isL : Bool) (ms : LaneMaps) : List PVal :=
  (allEnts ms).map fun e =>
    let reg (k : Nat) : Nat := ((laneEnt ms e.num k).getD e).reg isL
    ⟨e.num, e.cls, match e.cls with
      | 0 => lanes32.map fun k => mget 0 g.v (reg k * 32 + k)
      | 1 => (lanes32.map fun k => mget 0 g.v (reg k * 32 + k)) ++ lanes32.map fun k => mget 0 g.v ((reg k + 1) * 32 + k)
      | 2 => [mget 0 g.s (e.reg isL)]
      | _ => [lanes32.foldl (fun q k => setFld q (2 * k + 1) (2 * k) (fld (mget 0 g.q (reg k)) (2 * k + 1) (2 * k))) 0]⟩
/-- Some value of the group is poisoned. -/
def poisVals (g : Group) (isL : Bool) (es : List MapEnt) : Bool :=
  (mapRegs es isL 0).any fun r => lanes32.any fun k => mget false g.vpois (r * 32 + k)
/-- Write the elements of a vector register in some lanes. -/
def putLanes (g : Group) (r : Nat) (ls : List Nat) (xs : List Word64) : Group := { g with v := msetAll 0 g.v (ls.map fun k => (r * 32 + k, nthD 0 xs k)) }
/-- Place one value by the entry of a map, in some lanes (R412 step 4). -/
def putVal (isL : Bool) (ls : List Nat) (vs : List PVal) (g : Group) (e : MapEnt) : Group :=
  let r := e.reg isL
  let xs := match vs.find? fun v => v.num == e.num with
    | some v => v.vals
    | none => []
  match e.cls with
  | 0 => putLanes g r ls xs
  | 1 => putLanes (putLanes g r ls xs) (r + 1) ls (xs.drop 32)
  | 2 => { g with s := mset 0 g.s r (nthD 0 xs 0) }
  | _ => { g with q := mset 0 g.q r (ls.foldl (fun q k => setFld q (2 * k + 1) (2 * k) (fld (nthD 0 xs 0) (2 * k + 1) (2 * k))) (mget 0 g.q r)) }
/-- A group's registers from its values, each map for the lanes of its split, the first also for lanes of no split: every other register is zero
or false (R412 step 4). -/
def putVals (isL : Bool) (g : Group) (ms : LaneMaps) (vs : List PVal) : Group :=
  let loose := lanes32.filter fun k => ms.all fun m => !inMask m.1 k
  let g0 := { g with v := [], s := [], q := [], vpois := [], tags := [] }
  let g1 := (match ms with
    | m :: _ => m.2.foldl (putVal isL loose vs) g0
    | [] => g0)
  ms.foldl (fun g m => m.2.foldl (putVal isL (lanesOf m.1) vs) g) g1
/-- The maps' numbers and classes are those of the values (R408). -/
def mapFits (ms : LaneMaps) (vs : List PVal) : Bool := ((allEnts ms).map fun e => (e.num, e.cls)) == vs.map fun v => (v.num, v.cls)

/-! Migration (R412). -/

/-- The row of the word at which a split waits, by its PC in its encoding. -/
def hingeAt (s : State) (t : Team) (l : Launch) (pc : Nat) : HRead :=
  findRow s t.ctx t.core (whoTeam t) (fun r => if t.isL then r.lpc == pc else r.dpc == pc) l.htab l.hcount
/-- The PC and the lane PC of a row in an encoding. -/
def rowPc (r : HRow) (isL : Bool) : Nat × Nat := if isL then (r.lpc, 0) else (r.dpc, r.dlpc)
/-- The split's view of a row (R405). -/
def atRow (p : Split) (r : HRow) (isL : Bool) : Split :=
  { p with hinge := r.id, twinA := if isL then r.dpc else r.lpc, twinB := if isL then r.dlpc else 0 }

/-- A core can take a team with its allocation at the offset it has (R256, R412). -/
def canTake (s : State) (l : Launch) (r : EntryRow) (core off : Nat) : Option (List Nat) :=
  if eligible l r (coreIsL core) && decide (r.tiles ≤ tilesFree s core) && (l.scratch == 0 || spFree s l core off l.scratch) then
    assign (rowAllots l r) (freeParts s core)
  else none
/-- The target of a migration: the lowest such core of the kind in the quire, else on the die (R412 step 1). -/
def migTarget (s : State) (l : Launch) (t : Team) : Option Nat :=
  let ok (k : Nat) : Bool := coreIsL k != t.isL && (canTake s l (l.row t.entry) k t.off).isSome
  match (dieCores s.part (dieOf t.core)).find? fun k => k / 8 == t.core / 8 && ok k with
  | some k => some k
  | none => (dieCores s.part (dieOf t.core)).find? ok

/-- What moving one group comes to. -/
inductive MoveAns where
  | ok (g : Group)
  | wait (s : State)
  | bad (code detail addr : Nat)
  deriving DecidableEq, Repr

/-- The word at a PC of a team's scalar stream, decoded. -/
def wordAt (s : State) (c core : Nat) (who : List Nat) (l : Launch) (isL : Bool) (pc : Nat) : Option Instr ⊕ State :=
  match devRead s c core who ((if isL then l.lbase else l.dsbase) + pc) 4 with
  | .ok b => .inl (match decodeBytes b with | .ok (i, _) => some i | .error _ => none)
  | .wait s1 => .inr s1
  | .bad _ _ _ => .inl none

/-- The result register of a mig word (R410). -/
def migReg : Option Instr → Nat
  | some (.mig d _) => d
  | _ => 0

/-- A group in its new encoding: its values are placed, and its split resumes after its mig word with 1 in the register that the word there
names (R410, R412 steps 3, 4, 6 and 7). -/
def moveGroup (s : State) (t : Team) (l : Launch) (core part : Nat) (g : Group) : MoveAns :=
  let isL := coreIsL core
  match g.splits with
  | [p] =>
    (match hingeAt s t l p.pc with
     | .none => .bad HINGE_MAP 0 p.hinge
     | .bad a b d => .bad a b d
     | .wait s1 => .wait s1
     | .row r =>
       match readMap s t.ctx t.core (whoTeam t) l r g.allot with
       | .wait s1 => .wait s1
       | .bad a b d => .bad a b d
       | .ok es =>
         let pc := rowPc r isL
         match wordAt s t.ctx t.core (whoTeam t) l isL pc.1 with
         | .inr s1 => .wait s1
         | .inl w =>
           let ms : LaneMaps := [(0xFFFFFFFF, es)]
           let g1 := putVals isL g ms (takeVals g t.isL ms)
           let po := (mapRegs es t.isL 0).zip (mapRegs es isL 0)
           let vp := po.foldl (fun m x => msetAll false m (lanes32.map fun k => (x.2 * 32 + k, mget false g.vpois (x.1 * 32 + k)))) []
           let p1 := { atRow p r isL with pc := pc.1 + 4, lpc := pc.2, queue := [], hold := .none, age := 0, fromA := pc.1, fromB := pc.2 }
           .ok ({ g1 with part := part, vpois := vp, splits := [p1] }.wS (migReg w) 1))
  | _ => .ok g

/-- The groups of a team, moved in order; the first that waits or fails ends it. -/
def moveGroups (s : State) (t : Team) (l : Launch) (core : Nat) : List (Nat × Nat) → List (Nat × Group) → (Nat × MoveAns) ⊕ List (Nat × Group)
  | [], acc => .inr acc
  | (gh, part) :: rest, acc =>
    match moveGroup s t l core part (s.grp gh) with
    | .ok g => moveGroups s t l core rest (acc ++ [(gh, g)])
    | r => .inl (gh, r)

/-- The cells of a range of a scratchpad map, key step sz bytes. -/
def spPart {α : Type} (m : AMap α) (sz lo n : Nat) : AMap α := m.filter fun e => decide (lo ≤ sz * e.1) && decide (sz * e.1 < lo + n)
/-- A scratchpad allocation's contents are put on a core at the same offset. -/
def spInstall (k : CoreSt) (off n : Nat) (sp : AMap Byte) (full spois : AMap Bool) : CoreSt :=
  let c := clearAlloc k off n
  { c with sp := msetAll 0 c.sp sp, full := msetAll false c.full full, spois := msetAll false c.spois spois, ro := [] }

/-- The team stands on its new core (R412 steps 5 and 6, R460). -/
def installMove (s : State) (tid : Nat) (t : Team) (core : Nat) (gs : List (Nat × Group)) : State :=
  let old := s.core t.core
  let s1 := (endTries s t.ctx t.core (whoTeam t)).setCore core (spInstall (s.core core) t.off t.bytes (spPart old.sp 1 t.off t.bytes) (spPart old.full 16 t.off t.bytes) (spPart old.spois 16 t.off t.bytes))
  let s2 := (handles tid t).foldl (fun s gh => dropLatch s gh t.core (s.grp gh).part) s1
  let s3 := s2.setTeam tid { t with core := core, isL := coreIsL core, moving := false, target := none, migarr := 0 }
  let s4 := gs.foldl (fun s e => s.setGrp e.1 e.2) s3
  traceRec s4 (dieOf core) core t.ctx 5 t.reg.toNat core

/-- Every group of a team is quiet, and the groups that have retired are released (R291, R412 step 2). -/
def teamQuiet (s : State) (tid : Nat) : Bool :=
  (handles tid (s.team tid)).all fun gh => !(s.groups.any fun e => e.1 == gh) || (!(s.grp gh).retired && groupQuiet s gh)

/-- TEAM_MIGRATION: the scheduler chooses and reserves the target core, or declines where no core can take the team now; once the team's
accesses have drained, it is moved there (R411, R412). -/
def execTeamMigration (team : Nat) (s : State) : Out :=
  let t := s.team team
  match if t.moving && !t.gone && !t.saved then teamLaunch s t else none with
  | none => .fault (.notEnabled "TEAM_MIGRATION")
  | some l =>
    match t.target with
    | none =>
      (match migTarget s l t with
       | none => .next (migDecline (s.setTeam team { t with moving := false }) team)
       | some core => .next (s.setTeam team { t with target := some (core, (canTake s l (l.row t.entry) core t.off).getD []) }))
    | some (core, ps) =>
      if !teamQuiet s team then .fault (.notEnabled "TEAM_MIGRATION")
      else
        let live := (List.range t.size).filter fun i => s.groups.any fun e => e.1 == handle team i
        match moveGroups s t l core (live.map fun i => (handle team i, nthD 0 ps i)) [] with
        | .inr gs => .next (installMove s team t core gs)
        | .inl (_, .wait s1) => .next s1
        | .inl (gh, .bad code d a) => .next (fatalWaiting s gh (nthD Split.init (s.grp gh).splits 0) code d a)
        | .inl (_, .ok _) => .fault (.notEnabled "TEAM_MIGRATION")

/-! Pre-emption (R413 to R415). -/

/-- The split is stopped at a hinge; one at a mig only with its group arrived (R413). -/
def stoppedSplit (arrived : Bool) (p : Split) : Bool := match p.hold with
  | .bar _ _ => true
  | .mig _ _ => arrived
  | _ => false
/-- The word before the take of a waiting split: its PC where it is a hinge word, or what is still being read (R402). -/
def takeWord (s : State) (t : Team) (l : Launch) (p : Split) : Option Nat ⊕ State :=
  match p.hold with
  | .take _ _ _ =>
    if p.pc < 8 then .inl none
    else
      match wordAt s t.ctx t.core (whoTeam t) l t.isL (p.pc - 8) with
      | .inr s1 => .inr s1
      | .inl (some (.hinge _)) =>
        if !t.isL then .inl (some (p.pc - 8))
        else
          (match framed s t l (p.pc - 8) (p.pc / 4) 0 with
           | .inr b => .inl (if b then some (p.pc - 8) else none)
           | .inl s1 => .inr s1)
      | .inl _ => .inl none
  | _ => .inl none
/-- The word before the take of a split is a hinge word: its PC (R402). -/
def takeHinge (s : State) (t : Team) (l : Launch) (p : Split) : Option Nat := match takeWord s t l p with
  | .inl x => x
  | .inr _ => none
/-- What is still being read of the word before a take. -/
def takeAsks (s : State) (t : Team) (l : Launch) (p : Split) : Option State := match takeWord s t l p with
  | .inl _ => none
  | .inr s1 => some s1
/-- The split waits in a take that is not next to a hinge word: its group cannot reach a hinge (R402). -/
def takeNative (s : State) (t : Team) (l : Launch) (p : Split) : Bool := match p.hold with
  | .take _ _ _ => (takeHinge s t l p).isNone
  | _ => false
/-- The group is at a hinge: every lane that has not ended lies in a stopped split, and no path is deferred (R402, R413, R449). -/
def atHingeAll (s : State) (g : Group) : Bool :=
  let t := s.team g.team
  g.frame.isNone && g.defer.isEmpty && g.spills == 0 && !g.stopped &&
  match teamLaunch s t with
  | some l => g.splits.all fun p => stoppedSplit (inMask t.migarr g.idx) p || (takeHinge s t l p).isSome
  | none => false

/-- The entries of a group's spill area, oldest first: mask, the three words after it, and the PCs of the branch that parked it (R42). -/
def spillRead (s : State) (g : Group) : List (Word32 × List Nat × Nat × Nat) :=
  let t := s.team g.team
  let c := s.core t.core
  (List.range g.spills).map fun k =>
    let o := spillOff t g k
    (BitVec.ofNat 32 (c.rdSp o 4), [c.rdSp (o + 4) 4, c.rdSp (o + 8) 4, c.rdSp (o + 12) 4], nthD (0, 0) g.spillFrom (g.spills - 1 - k))
/-- The group's spill area holds these entries. -/
def spillWrite (s : State) (gh : Nat) (es : List (Word32 × List Nat × Nat × Nat)) : State :=
  let g := s.grp gh
  let t := s.team g.team
  let c := ((List.range es.length).zip es).foldl (fun c (e : Nat × Word32 × List Nat × Nat × Nat) =>
    c.wrSp (spillOff t g e.1) (toBytes 4 e.2.1.toNat ++ e.2.2.1.flatMap (toBytes 4))) (s.core t.core)
  (s.setCore t.core c).setGrp gh { g with spills := es.length, spillFrom := (es.map fun e => e.2.2).reverse }
/-- The open transactions of parked lanes abort: the lanes leave their entries, and wait at their resume points as splits, or parked (R38, R345,
R349). -/
def abortParked (s : State) (gh : Nat) : Res :=
  let g := s.grp gh
  let ls := lanes32.filter fun l => (txOf g l).active
  if ls.isEmpty then .ok s
  else
    let m := maskOf ls
    let keep (x : Word32) : Bool := x &&& ~~~m != 0
    let sets := laneSets m fun l => (txOf g l).abortA
    let lpcOf (x : Nat × Word32) : Nat := ((lanesOf x.2).head?.map fun l => (txOf g l).abortB).getD 0
    let mk (x : Nat × Word32) : Split :=
      let d := (g.defer.find? fun d => d.mask &&& x.2 != 0).getD ⟨0, 0, 0, 0xFFFF, 0, 0, 0, 0⟩
      { Split.init with mask := x.2, pc := x.1, lpc := lpcOf x, hinge := d.hinge, twinA := d.twinA, twinB := d.twinB, fromA := d.fromA,
                        fromB := d.fromB, first := false }
    let s1 := spillWrite s gh ((spillRead s g).filterMap fun e => if keep e.1 then some (e.1 &&& ~~~m, e.2) else none)
    let g1 := (ls.map fun l => (l, 2, 0)).foldl (fun g r => abortLane g true r) (s1.grp gh)
    let room := 4 - g1.splits.length
    let s2 := s1.setGrp gh { g1 with defer := g1.defer.filterMap fun d => if keep d.mask then some { d with mask := d.mask &&& ~~~m } else none
                                     splits := g1.splits ++ (sets.take room).map mk }
    parkSets gh ((sets.head?.map mk).getD Split.init) lpcOf (sets.drop room).reverse s2
/-- The open transactions of a group abort CONFLICT_MEM with CCOUNT unchanged, those of its splits from the last to the first, then those of
parked lanes (R349). -/
def abortGroup (s : State) (gh : Nat) : State :=
  let s1 := (List.range (s.grp gh).splits.length).reverse.foldl (fun s k =>
    let g := s.grp gh
    let p := nthD Split.init g.splits k
    (abortLanes { s with cur := { s.cur with gh := gh, sp := k } } gh k true ((txLanes g p.mask).map fun l => (l, 2, 0))).state) s
  (abortParked s1 gh).state

/-- The groups of a team give up the irrevocable token, and ask for it no more (R349). -/
def freeToken (s : State) (tid : Nat) : State :=
  let c := (s.team tid).ctx
  let x := s.ctx c
  let mine (gh : Nat) : Bool := gh / 32 == tid
  s.setCtx c { x with token := x.token.filter fun gh => !mine gh, tokenQ := x.tokenQ.filter fun gh => !mine gh }
/-- A group is hard-stopped: it issues nothing more, and every open transaction of its team aborts (R349, R415). -/
def hardStop (s : State) (gh : Nat) : State :=
  let g := s.grp gh
  let s1 := freeToken ((handles g.team (s.team g.team)).foldl (fun s h => if s.groups.any fun e => e.1 == h then abortGroup s h else s) s) g.team
  if s1.groups.any fun e => e.1 == gh then s1.setGrp gh { s1.grp gh with stopped := true, isNative := true } else s1

/-- PREEMPT_BUDGET_EXPIRY: a group that is not at a hinge is hard-stopped (R349, R402, R415). -/
def execPreemptBudgetExpiry (group : Nat) (s : State) : Out :=
  let g := s.grp group
  let t := s.team g.team
  if preempted s t && (s.groups.any fun e => e.1 == group) && !g.retired && !g.stopped && !t.moving && !atHingeAll s g then
    .next (hardStop s group)
  else .fault (.notEnabled "PREEMPT_BUDGET_EXPIRY")

end Sys2Proof.Machine
end

