-- ==== Sys2Proof/Machine/Pred.lean ====
section
/-! DEFINITION. Predicate words (R198, R199). -/
namespace Sys2Proof.Machine

/-- A predicate word: f of the two sources in each active lane. -/
def qword (h : VH) (pd pa pb : Nat) (f : Tri → Tri → Tri) (s : State) : Out :=
  .next (s.setCg (wrQs s.cg pd (vlanes (active s h) fun l => f (s.cg.rQ s.free pa l) (s.cg.rQ s.free pb l))))

/-- qand: Kleene AND (R162, R199). -/
def execQand (h : VH) (pd pa pb : Nat) (s : State) : Out := qword h pd pa pb triAnd s
/-- qor: Kleene OR. -/
def execQor (h : VH) (pd pa pb : Nat) (s : State) : Out := qword h pd pa pb triOr s
/-- qxor: Kleene exclusive OR. -/
def execQxor (h : VH) (pd pa pb : Nat) (s : State) : Out := qword h pd pa pb triXor s
/-- qnot: Kleene NOT. -/
def execQnot (h : VH) (pd pa : Nat) (s : State) : Out := qword h pd pa pa (fun x _ => triNot x) s
/-- qset: a constant. -/
def execQset (h : VH) (pd val : Nat) (s : State) : Out := qword h pd pd pd (fun _ _ => val) s
/-- qfix: undecided replaced by the target. -/
def execQfix (h : VH) (pd pa tgt : Nat) (s : State) : Out := qword h pd pa pa (fun x _ => if x = 2 then tgt else x) s
/-- qmov between predicates. -/
def execQmov (h : VH) (pd pa : Nat) (s : State) : Out := qword h pd pa pa (fun x _ => x) s

/-- All 32 elements of a predicate, canonical, as a 64-bit word (R64, R199). -/
def predWord (s : State) (p : Nat) : Word64 :=
  BitVec.ofNat 64 (lanes32.foldl (fun n l => n + s.cg.rQ s.free p l * 2 ^ (2 * l)) 0)
/-- qmov to a scalar register: every lane, whatever the mask and the guard (R199). -/
def execQmovToScalar (_h : VH) (d pa : Nat) (s : State) : Out := .next (s.wS d (predWord s pa))
/-- qmov from a scalar register: the active lanes, canonical. -/
def execQmovFromScalar (h : VH) (pd a : Nat) (s : State) : Out :=
  .next (s.setCg (wrQs s.cg pd (vlanes (active s h) fun l => triRead ((s.rS a).toNat / 2 ^ (2 * l)))))

end Sys2Proof.Machine
end

