-- ==== Sys2Proof/Machine/Codec.lean ====
section
/-! DEFINITION. The bytes of a native group record (R416): everything of a group that its record restores, written out and read back. R416 does not
give the layout; it is the model's own (log 11). -/
namespace Sys2Proof.Machine

/-- How values of a type are written as bytes and read back; reading gives the value and the bytes after it. -/
structure Codec (α : Type) where
  put : α → List Byte
  get : List Byte → Option (α × List Byte)

namespace Codec

/-- A number: two bytes give its length, then its bytes follow, lowest first. -/
def nat : Codec Nat where
  put n := toBytes 2 (n.log2 / 8 + 1) ++ toBytes (n.log2 / 8 + 1) n
  get b :=
    let k := ofBytes (b.take 2)
    let r := b.drop 2
    if b.length < 2 ∨ r.length < k then none else some (ofBytes (r.take k), r.drop k)

/-- A type whose values some values of another stand for. -/
def via {α β : Type} (c : Codec β) (f : α → β) (g : β → Option α) : Codec α where
  put x := c.put (f x)
  get b := (c.get b).bind fun r => (g r.1).map fun x => (x, r.2)

def bool : Codec Bool := via nat (fun b => b.toNat) fun n => some (n == 1)
def word (w : Nat) : Codec (BitVec w) := via nat BitVec.toNat fun n => some (BitVec.ofNat w n)

def pair {α β : Type} (c : Codec α) (d : Codec β) : Codec (α × β) where
  put x := c.put x.1 ++ d.put x.2
  get b := (c.get b).bind fun r => (d.get r.2).map fun q => ((r.1, q.1), q.2)

/-- n values, one after another. -/
def getN {α : Type} (c : Codec α) : Nat → List Byte → Option (List α × List Byte)
  | 0, b => some ([], b)
  | n + 1, b => (c.get b).bind fun r => (getN c n r.2).map fun q => (r.1 :: q.1, q.2)
def list {α : Type} (c : Codec α) : Codec (List α) where
  put l := nat.put l.length ++ l.flatMap c.put
  get b := (nat.get b).bind fun r => getN c r.1 r.2
/-- An optional value: a list of none or one. -/
def opt {α : Type} (c : Codec α) : Codec (Option α) := via (list c) Option.toList fun l => some l.head?
/-- A map, read back in its canonical form. -/
def amap {α : Type} [DecidableEq α] (d : α) (c : Codec α) : Codec (AMap α) := via (list (pair nat c)) (fun m => m) fun l => some (msetAll d [] l)

/-- One field of a record type. -/
structure Field (α : Type) where
  put : α → List Byte
  get : α → List Byte → Option (α × List Byte)
def field {α β : Type} (c : Codec β) (f : α → β) (set : α → β → α) : Field α where
  put x := c.put (f x)
  get x b := (c.get b).map fun r => (set x r.1, r.2)
/-- Read the fields into a value. -/
def getFields {α : Type} : List (Field α) → α → List Byte → Option (α × List Byte)
  | [], x, b => some (x, b)
  | f :: fs, x, b => (f.get x b).bind fun r => getFields fs r.1 r.2
/-- A record type by its fields; a field that is not listed is read as it stands in init. -/
def record {α : Type} (init : α) (fs : List (Field α)) : Codec α where
  put x := fs.flatMap fun f => f.put x
  get b := getFields fs init b

end Codec

open Codec

/-! The parts of a group. -/

def qentC : Codec QEnt := via (list nat) (fun e => [e.off, e.pc, e.last.toNat]) fun l => match l with
  | [off, pc, last] => some ⟨off, pc, last == 1⟩
  | _ => none
def deferC : Codec Defer := via (list nat) (fun d => [d.mask.toNat, d.pc, d.lpc, d.hinge, d.twinA, d.twinB, d.fromA, d.fromB]) fun l => match l with
  | [m, pc, lpc, h, ta, tb, fa, fb] => some ⟨BitVec.ofNat 32 m, pc, lpc, h, ta, tb, fa, fb⟩
  | _ => none
def pwC : Codec PW := via (list nat) (fun w => [w.kind, w.key, w.val.toNat, w.con.toNat]) fun l => match l with
  | [k, key, v, c] => some ⟨k, key, BitVec.ofNat 64 v, c == 1⟩
  | _ => none
def pendC : Codec Pend := via (pair (pair nat nat) (pair bool (list pwC))) (fun p => ((p.cls, p.id), (p.wait, p.ws))) fun x => some ⟨x.1.1, x.1.2, x.2.1, x.2.2⟩
def tyC : Codec Ty := via nat Ty.code fun n => (Ty.ofCode n).toOption

/-- The aborts that a waiting tcommit will make, three numbers each. -/
def triples : List Nat → List (Nat × Nat × Nat)
  | a :: b :: c :: l => (a, b, c) :: triples l
  | _ => []
/-- A wait as numbers, its kind first. -/
def holdNums : Hold → List Nat
  | .none => [0]
  | .retry => [1]
  | .commit todo ab => 2 :: todo.toNat :: ab.flatMap fun x => [x.1, x.2.1, x.2.2]
  | .ldfe => [3]
  | .take drain d since => [4, drain.toNat, d, since]
  | .gwait d k => [5, d, k]
  | .groom node head k => [6, node, head, k]
  | .bar kind count => [7, kind, count]
  | .mig d toD => [8, d, toD.toNat]
  | .mpair d since => [9, d, since]
  | .trapw code mask imm pcA pcB => [10, code, mask.toNat, imm, pcA, pcB]
def holdOf : List Nat → Option Hold
  | [0] => some .none
  | [1] => some .retry
  | 2 :: todo :: ab => some (.commit (BitVec.ofNat 32 todo) (triples ab))
  | [3] => some .ldfe
  | [4, drain, d, since] => some (.take (drain == 1) d since)
  | [5, d, k] => some (.gwait d k)
  | [6, node, head, k] => some (.groom node head k)
  | [7, kind, count] => some (.bar kind count)
  | [8, d, toD] => some (.mig d (toD == 1))
  | [9, d, since] => some (.mpair d since)
  | [10, code, mask, imm, a, b] => some (.trapw code (BitVec.ofNat 32 mask) imm a b)
  | _ => none
def holdC : Codec Hold := via (list nat) holdNums holdOf

/-- A memory word of which no lane has acted. -/
def MemW.init : MemW := ⟨0, 0, 0, [], [], [], [], [], 0, 0, 0, [], 0, false, false, false, []⟩
def wordMap : Codec (AMap Word64) := amap 0 (word 64)
def memwC : Codec MemW := record MemW.init [
  field nat (·.id) fun m x => { m with id := x }, field nat (·.strm) fun m x => { m with strm := x },
  field (word 32) (·.act) fun m x => { m with act := x }, field (amap 0 nat) (·.addr) fun m x => { m with addr := x },
  field (pair wordMap wordMap) (fun m => (m.d0, m.d1)) fun m x => { m with d0 := x.1, d1 := x.2 },
  field (pair wordMap wordMap) (fun m => (m.c0, m.c1)) fun m x => { m with c0 := x.1, c1 := x.2 },
  field (word 64) (·.ctl) fun m x => { m with ctl := x }, field nat (·.nrm) fun m x => { m with nrm := x },
  field (word 32) (·.got) fun m x => { m with got := x }, field wordMap (·.vals) fun m x => { m with vals := x },
  field (word 32) (·.nai) fun m x => { m with nai := x },
  field (pair bool (pair bool bool)) (fun m => (m.sp, m.wr, m.sw)) fun m x => { m with sp := x.1, wr := x.2.1, sw := x.2.2 },
  field (amap 0 nat) (·.again) fun m x => { m with again := x }]

def splitC : Codec Split := record Split.init [
  field (word 32) (·.mask) fun p x => { p with mask := x }, field (pair nat nat) (fun p => (p.pc, p.lpc)) fun p x => { p with pc := x.1, lpc := x.2 },
  field (list qentC) (·.queue) fun p x => { p with queue := x }, field nat (·.hinge) fun p x => { p with hinge := x },
  field (pair nat nat) (fun p => (p.twinA, p.twinB)) fun p x => { p with twinA := x.1, twinB := x.2 },
  field (word 32) (·.pmask) fun p x => { p with pmask := x }, field (opt memwC) (·.mem) fun p x => { p with mem := x },
  field (list (word 512)) (·.items) fun p x => { p with items := x }, field holdC (·.hold) fun p x => { p with hold := x },
  field (pair nat nat) (fun p => (p.fromA, p.fromB)) fun p x => { p with fromA := x.1, fromB := x.2 }, field bool (·.first) fun p x => { p with first := x }]

/-- A lane's transaction state: a saved lane has no open transaction (R349). -/
def txC : Codec Tx := record Tx.init [
  field nat (·.txpc) fun t x => { t with txpc := x }, field nat (·.ccount) fun t x => { t with ccount := x }, field nat (·.last) fun t x => { t with last := x }]
/-- A trap frame with nothing in it. -/
def Frame.init : Frame := ⟨0, 0, 0, [], 0, 0, 0, 0, 0xFFFF, 0, 0⟩
def frameC : Codec Frame := record Frame.init [
  field nat (·.split) fun f x => { f with split := x }, field (pair nat nat) (fun f => (f.pc, f.lpc)) fun f x => { f with pc := x.1, lpc := x.2 },
  field (list qentC) (·.queue) fun f x => { f with queue := x },
  field (pair (word 64) (word 64)) (fun f => (f.s124, f.s125)) fun f x => { f with s124 := x.1, s125 := x.2 },
  field (pair (word 64) (word 64)) (fun f => (f.s126, f.s127)) fun f x => { f with s126 := x.1, s127 := x.2 },
  field nat (·.hinge) fun f x => { f with hinge := x }, field (pair nat nat) (fun f => (f.twinA, f.twinB)) fun f x => { f with twinA := x.1, twinB := x.2 }]
def miscC : Codec GMisc := record GMisc.init [
  field bool (·.opready) fun m x => { m with opready := x }, field (word 64) (·.dpitch) fun m x => { m with dpitch := x },
  field (pair (word 64) (word 64)) (fun m => (m.biasoff, m.actoff)) fun m x => { m with biasoff := x.1, actoff := x.2 },
  field (pair (word 64) (word 64)) (fun m => (m.amaxaddr, m.scaleaddr)) fun m x => { m with amaxaddr := x.1, scaleaddr := x.2 },
  field (word 32) (·.owed) fun m x => { m with owed := x }, field (pair nat nat) (fun m => (m.owedK, m.passAt)) fun m x => { m with owedK := x.1, passAt := x.2 }]

/-- A lane's wait in ldfe; its team and its granule's team are those of the resume. -/
def waiterC : Codec Waiter := record ⟨0, 0, 0, 0, 0, 0, false, .i32, 0, 0, false, 0⟩ [
  field nat (·.granule) fun w x => { w with granule := x }, field nat (·.strm) fun w x => { w with strm := x },
  field (pair nat nat) (fun w => (w.gh % 32, w.lane)) fun w x => { w with gh := x.1, lane := x.2 }, field nat (·.addr) fun w x => { w with addr := x },
  field bool (·.take) fun w x => { w with take := x }, field tyC (·.ty) fun w x => { w with ty := x }, field nat (·.form) fun w x => { w with form := x },
  field nat (·.d) fun w x => { w with d := x }, field bool (·.n) fun w x => { w with n := x }, field nat (·.pend) fun w x => { w with pend := x }]

/-- A group in a native record: every register of the allotment, the latch tags, the splits with their PCs and lane queues, the deferred-path
stack, the result counters, the masks and every waiting state (R416). Its poison marks stand with the record's bytes (R454). -/
def groupC : Codec Group := record Group.init [
  field (pair nat nat) (fun g => (g.idx, g.stage)) fun g x => { g with idx := x.1, stage := x.2 }, field nat (·.allot) fun g x => { g with allot := x },
  field wordMap (·.v) fun g x => { g with v := x }, field wordMap (·.s) fun g x => { g with s := x }, field wordMap (·.q) fun g x => { g with q := x },
  field (amap 0 nat) (·.j) fun g x => { g with j := x }, field (amap 3 (word 32)) (·.status) fun g x => { g with status := x },
  field (pair (word 32) (word 32)) (fun g => (g.done, g.exited)) fun g x => { g with done := x.1, exited := x.2 },
  field (list (pair nat bool)) (·.tags) fun g x => { g with tags := x }, field nat (·.nrm) fun g x => { g with nrm := x },
  field (pair nat nat) (fun g => (g.trapen, g.dstrm)) fun g x => { g with trapen := x.1, dstrm := x.2 },
  field (list pendC) (·.pend) fun g x => { g with pend := x }, field miscC (·.misc) fun g x => { g with misc := x },
  field (amap Tx.init txC) (·.tx) fun g x => { g with tx := x }, field (opt frameC) (·.frame) fun g x => { g with frame := x },
  field (list splitC) (·.splits) fun g x => { g with splits := x }, field (list deferC) (·.defer) fun g x => { g with defer := x },
  field nat (·.spills) fun g x => { g with spills := x }, field (list (pair nat nat)) (·.spillFrom) fun g x => { g with spillFrom := x },
  field (amap 0 nat) (·.frel) fun g x => { g with frel := x }]

/-! Order numbers of another device, or of an earlier time, in this one's. -/

/-- A wait whose order number lies n later. -/
def Hold.later (n : Nat) : Hold → Hold
  | .take drain d since => .take drain d (since + n)
  | .mpair d since => .mpair d (since + n)
  | h => h
/-- A split whose order numbers lie n later. -/
def Split.later (n : Nat) (p : Split) : Split := { p with hold := p.hold.later n, mem := p.mem.map fun m => { m with id := m.id + n } }
/-- A group whose order numbers lie n later. -/
def Group.later (n : Nat) (g : Group) : Group :=
  { g with pend := g.pend.map fun p => { p with id := p.id + n }, splits := g.splits.map (Split.later n), misc := { g.misc with passAt := g.misc.passAt + n } }

/-- The record of a group with its waits, and the order number that the device has reached. -/
def nativeC : Codec (Nat × Group × List Waiter) := pair nat (pair groupC (list waiterC))
/-- A group of a native record, its order numbers after those of this device, which has reached n; and the number that the saving device had
reached. -/
def nativeGet (n : Nat) (b : List Byte) : Option (Nat × Group × List Waiter) :=
  (nativeC.get b).map fun r => (r.1.1, r.1.2.1.later n, r.1.2.2.map fun w => { w with pend := w.pend + n })

end Sys2Proof.Machine
end

