-- ==== Sys2Proof/Machine/Save.lean ====
section
/-! DEFINITION. Saves and resumes: of a team (R231, R258, R291, R413 to R417, R420) and of a context (R418 to R421). -/
namespace Sys2Proof.Machine

/-! Saving a team. -/

/-- What a plan to save or resume comes to. -/
inductive Plan (α : Type) where
  | ok (x : α)
  | wait (s : State)
  | bad (gh code detail addr : Nat)
  deriving DecidableEq, Repr

/-- A group that a save takes: its handle, its state in the record, its values, and whether one is poisoned. -/
structure SaveG where
  gh    : Nat
  g     : Group
  vals  : List PVal
  pois  : Bool
  quiet : Bool                -- at hinges marked quiet (R351)
  deriving DecidableEq, Repr

/-- The unreleased groups of a team. -/
def liveHandles (s : State) (tid : Nat) : List Nat := (handles tid (s.team tid)).filter fun gh => s.groups.any fun e => e.1 == gh

/-- Everything of a group that its record cannot hold is finished (R291, R334, R415): commands, pushes, side-log entries, peer accesses,
accesses still to be performed, and results that do not wait in ldfe; mq says whether matrix commands count. -/
def leaves (s : State) (gh : Nat) (mq : Bool) : Bool :=
  let g := s.grp gh
  let c := s.core (s.team g.team).core
  g.pushes.isEmpty && (c.cq.all fun q => q.gh != gh) && (c.slog.all fun e => e.gh != gh) && (s.io.peerOut.all fun p => p.gh != gh) &&
  !lateWords s gh && (!mq || (g.pend.all (·.wait) && c.mq.all fun q => q.gh != gh))

/-- No memory word of the group goes on: each that has lanes left is held by their faults (R322, R415, R452). -/
def wordsHeld (s : State) (g : Group) : Bool :=
  let t := s.team g.team
  g.splits.all fun p => p.mem.all fun m => m.rest.all fun l => !m.sp && xlate s t.ctx t.core (m.va l) m.wr == .unmapped
/-- The group can be taken: at a hinge with every result written, or hard-stopped with every instruction complete that can be (R415). -/
def groupTakes (s : State) (gh : Nat) (mq : Bool) : Bool :=
  let g := s.grp gh
  !g.retired && leaves s gh mq && (if g.stopped then wordsHeld s g else atHingeAll s g && (!mq || g.pend.isEmpty))
/-- The team can be saved. -/
def teamTakes (s : State) (tid : Nat) (mq : Bool) : Bool :=
  let t := s.team tid
  !t.gone && !t.saved && !t.moving && !(liveHandles s tid).isEmpty && (liveHandles s tid).all fun gh => groupTakes s gh mq

/-- A split in a portable record (R417): its hinge, stopped before the word or arrived at it. -/
def savedSplit (p : Split) (r : HRow) (pc : Nat) : Split :=
  let h : Hold := match p.hold with
    | .bar 18 _ | .take _ _ _ => .bar 18 0
    | h => h
  { Split.init with mask := p.mask, pc := pc, hinge := r.id, hold := h, first := false }

/-- The id that a hinge word gives (R405, R408). -/
def hingeId : Option Instr → Option Nat
  | some (.hinge i) => some i
  | _ => none
/-- The splits of a group at their hinges, with the maps (R402, R408). -/
def planSplits (s : State) (gh : Nat) (t : Team) (l : Launch) (allot : Nat) : List Split → Plan (List (Split × HRow × List MapEnt))
  | [] => .ok []
  | p :: ps =>
    let pc := (takeHinge s t l p).getD p.pc
    match wordAt s t.ctx t.core (whoTeam t) l t.isL pc with
    | .inr s1 => .wait s1
    | .inl w =>
    match hingeAt s t l pc with
    | .none => .bad gh HINGE_MAP 0 ((hingeId w).getD 0xFFFF)
    | .bad a b d => .bad gh a b d
    | .wait s1 => .wait s1
    | .row r =>
      if (hingeId w).any (· != r.id) then .bad gh HINGE_MAP 0 ((hingeId w).getD 0xFFFF)
      else
      match readMap s t.ctx t.core (whoTeam t) l r allot with
      | .wait s1 => .wait s1
      | .bad a b d => .bad gh a b d
      | .ok es =>
        match planSplits s gh t l allot ps with
        | .ok xs => .ok ((savedSplit p r pc, r, es) :: xs)
        | x => x

/-- A group saved at hinges marked quiet passes a quiescent point as it is saved (R351). -/
def savedPass (n : Nat) (quiet : Bool) (g : Group) : Group := if quiet then Group.pass n 0xFFFFFFFF g else g
/-- A group's state in a portable record: no registers, splits at hinges. -/
def portGroup (g : Group) (ps : List Split) : Group :=
  { g with v := [], s := [], q := [], tags := [], pend := [], vpois := [], frame := none, splits := ps, defer := [], spills := 0, stopped := false, isNative := false }

/-- The splits of a group in a native record stand at hinges marked quiet (R351), or their rows are still being read. -/
def quietSplits (s : State) (t : Team) (l : Launch) : List Split → Bool ⊕ State
  | [] => .inl true
  | p :: ps =>
    match hingeAt s t l ((takeHinge s t l p).getD p.pc) with
    | .wait s1 => .inr s1
    | .row r => if r.quiet then quietSplits s t l ps else .inl false
    | _ => .inl false
/-- A group of a native record is at hinges marked quiet. -/
def quietGroup (s : State) (t : Team) (l : Launch) (g : Group) : Bool ⊕ State :=
  if g.stopped || !atHingeAll s g then .inl false else quietSplits s t l g.splits

/-- The groups of a team as the record takes them. -/
def planGroups (s : State) (t : Team) (l : Launch) (isNative : Bool) : List Nat → Plan (List SaveG)
  | [] => .ok []
  | gh :: ghs =>
    let g := s.grp gh
    let rest := planGroups s t l isNative ghs
    if isNative then
      match quietGroup s t l g, rest with
      | .inr s1, _ => .wait s1
      | .inl q, .ok xs => .ok (⟨gh, savedPass s.seq q { g with stopped := false, isNative := false }, [], !g.vpois.isEmpty, q⟩ :: xs)
      | _, x => x
    else
      match planSplits s gh t l g.allot g.splits with
      | .wait s1 => .wait s1
      | .bad h a b d => .bad h a b d
      | .ok ps =>
        match rest with
        | .ok xs =>
          let ms : LaneMaps := ps.map fun x => (x.1.mask, x.2.2)
          let q := ps.all fun x => x.2.1.quiet
          .ok (⟨gh, savedPass s.seq q (portGroup g (ps.map (·.1))), takeVals g t.isL ms, ms.any fun m => poisVals g t.isL m.2, q⟩ :: xs)
        | x => x

/-- A team's groups and whether the record is native. -/
def planTeam (s : State) (tid : Nat) : Plan (Bool × List SaveG) :=
  let t := s.team tid
  match teamLaunch s t with
  | none => .bad (handle tid 0) HINGE_MAP 0 0xFFFF
  | some l =>
    let nat := (liveHandles s tid).any fun gh => (s.grp gh).isNative
    match planGroups s t l nat (liveHandles s tid) with
    | .ok xs => .ok (nat, xs)
    | .wait s1 => .wait s1
    | .bad h a b d => .bad h a b d

/-- The team's groups, scratchpad and tiles leave the core for a record (R394, R417, R460). -/
def takeTeam (s : State) (tid : Nat) (nat : Bool) (gs : List SaveG) : State :=
  let t := s.team tid
  let k := s.core t.core
  let mine (w : Waiter) : Bool := w.gh / 32 == tid
  let sv : Saved :=
    { team := { t with saved := true, preempt := false }, tid := tid, groups := gs.map fun x => (x.gh, x.g), isNative := nat,
      quiet := (gs.filter (·.quiet)).map (·.gh)
      sp := spPart k.sp 1 t.off t.bytes, full := spPart k.full 16 t.off t.bytes, spois := spPart k.spois 16 t.off t.bytes
      waits := s.cores.flatMap fun c => c.2.waits.filter mine
      vals := gs.map (·.vals), bad := (gs.filter (·.pois)).map (·.gh), areaRec := false
      pois := if (gs.any (·.pois)) || !(spPart k.spois 16 t.off t.bytes).isEmpty || !t.tpois.isEmpty then some 0 else none }
  let s1 := gs.foldl (fun s x => dropLatch s x.gh t.core (s.grp x.gh).part) (endTries s t.ctx t.core (whoTeam t))
  let s2 := { s1 with groups := s1.groups.filter fun e => e.1 / 32 != tid
                      cores := s1.cores.map fun (e : Nat × CoreSt) => (e.1, { e.2 with waits := e.2.waits.filter fun w => !mine w }) }
  let s3 := s2.setTeam tid { t with saved := true, preempt := false }
  let x := s3.ctx t.ctx
  traceRec (s3.setCtx t.ctx { x with saves := x.saves ++ [sv] }) (dieOf t.core) t.core t.ctx 6 t.reg.toNat (bbit nat 0)

/-- The teams that are saved together (R231). -/
def saveSet (s : State) (tid : Nat) : List Nat := match (s.team tid).pair with
  | some u => [tid, u]
  | none => [tid]
/-- Every plan of a list of teams. -/
def planTeams (s : State) : List Nat → Plan (List (Nat × Bool × List SaveG))
  | [] => .ok []
  | t :: ts =>
    match planTeam s t with
    | .wait s1 => .wait s1
    | .bad h a b d => .bad h a b d
    | .ok x =>
      match planTeams s ts with
      | .ok xs => .ok ((t, x) :: xs)
      | r => r

/-- The splits of a team's groups with their groups. -/
def teamSplits (s : State) (tid : Nat) : List (Nat × Split) := (liveHandles s tid).flatMap fun gh => (s.grp gh).splits.map fun p => (gh, p)
/-- A split that waits in a take with a word before it that is still being read. -/
def teamAsks (s : State) (tid : Nat) : Option State := (teamLaunch s (s.team tid)).bind fun l => (teamSplits s tid).findSome? fun x => takeAsks s (s.team tid) l x.2
/-- A group that a pre-emption stops at once: a split of it waits in a take that is not next to a hinge word (R402). -/
def teamStuck (s : State) (tid : Nat) : Option Nat :=
  (teamLaunch s (s.team tid)).bind fun l =>
    ((teamSplits s tid).find? fun x => !(s.grp x.1).stopped && !(s.grp x.1).retired && takeNative s (s.team tid) l x.2).map Prod.fst

/-! Resuming a team. -/

/-- A saved group in an encoding: the registers of its values and its splits at their rows (R408, R412, R417, R420). -/
def resumeSplits (s : State) (c core : Nat) (who : List Nat) (l : Launch) (isL : Bool) (gh allot : Nat) : List Split → Plan (List (Split × List MapEnt × Option Instr))
  | [] => .ok []
  | p :: ps =>
    match findRow s c core who (fun r => r.id == p.hinge) l.htab l.hcount with
    | .none => .bad gh HINGE_MAP 0 p.hinge
    | .bad a b d => .bad gh a b d
    | .wait s1 => .wait s1
    | .row r =>
      match readMap s c core who l r allot with
      | .wait s1 => .wait s1
      | .bad a b d => .bad gh a b d
      | .ok es =>
        match wordAt s c core who l isL (rowPc r isL).1 with
        | .inr s1 => .wait s1
        | .inl w =>
          match resumeSplits s c core who l isL gh allot ps with
          | .ok xs =>
            let pc := rowPc r isL
            .ok (({ atRow p r isL with pc := pc.1, lpc := pc.2, age := 0, fromA := pc.1, fromB := pc.2, first := true }, es, w) :: xs)
          | x => x

/-- The wait of a split that has arrived at a word (R391, R410). -/
def arrivedHold (g : Group) : Option Instr → Hold
  | some (.nbarImm c i) => .bar i c
  | some (.nbarReg a i) => .bar i (fld (mget 0 g.s a) 5 0)
  | some .tbar => .bar 16 0
  | some (.qbar m) => .bar 17 m
  | some (.mig d k) => .mig d k
  | _ => .none
/-- A split as it stands after its team's resume: stopped before the word, or arrived. -/
def resumedSplit (g : Group) (x : Split × List MapEnt × Option Instr) : Split :=
  match x.1.hold with
  | .bar 18 _ => { x.1 with hold := .none }
  | _ => { x.1 with hold := arrivedHold g x.2.2 }

/-- A group of a native record: a split that stopped before a word tries it again (R416). -/
def nativeGroup (part : Nat) (g : Group) : Group :=
  { g with part := part, splits := g.splits.map fun p => match p.hold with
    | .bar 18 _ => { p with hold := .none }
    | _ => p }

/-- The groups of a record on a core. -/
def resumeGroups (s : State) (sv : Saved) (l : Launch) (core : Nat) : List ((Nat × Group) × List PVal × Nat) → Plan (List (Nat × Group))
  | [] => .ok []
  | ((gh, g), vs, part) :: rest =>
    match resumeGroups s sv l core rest with
    | .wait s1 => .wait s1
    | .bad h a b d => .bad h a b d
    | .ok xs =>
      if sv.isNative then .ok ((gh, nativeGroup part g) :: xs)
      else
        match resumeSplits s sv.team.ctx core (whoTeam sv.team) l (coreIsL core) gh g.allot g.splits with
        | .wait s1 => .wait s1
        | .bad h a b d => .bad h a b d
        | .ok ps =>
          let ms : LaneMaps := ps.map fun x => (x.1.mask, x.2.1)
          if mapFits ms vs then
            let g1 := putVals (coreIsL core) { g with part := part } ms vs
            .ok ((gh, { g1 with splits := ps.map (resumedSplit g1) }) :: xs)
          else .bad gh HINGE_MAP 0 ((g.splits.head?.map (·.hinge)).getD 0xFFFF)

/-- The core to which a lane's wait in ldfe goes with its team: its own core, or the same position of the quire. -/
def waitCore (old new cw : Nat) : Nat := if cw = old then new else peerCore new (posOf cw)
/-- The waits of a team's lanes return, at the end of the queues. -/
def putWaits (s : State) (old new : Nat) (ws : List Waiter) : State :=
  ws.foldl (fun s w =>
    let cw := waitCore old new (w.granule / 2 ^ 17)
    let k := s.core cw
    s.setCore cw { k with waits := k.waits ++ [{ w with granule := cw * 2 ^ 17 + w.granule % 2 ^ 17 }] }) s

/-- The team stands on a core again; its groups arrive where they wait (R394, R420, R460). -/
def putTeam (s : State) (sv : Saved) (core : Nat) (gs : List (Nat × Group)) : State :=
  let t := sv.team
  let s0 := endTries s t.ctx core (whoTeam t)
  let s1 := s0.setCore core (spInstall (s0.core core) t.off t.bytes sv.sp sv.full sv.spois)
  let t1 := { s1.team sv.tid with core := core, isL := coreIsL core, saved := false, qarr := 0, qmask := 0, migarr := 0 }
  let s2 := putWaits (gs.foldl (fun s e => s.setGrp e.1 e.2) (s1.setTeam sv.tid t1)) t.core core sv.waits
  let x := s2.ctx t.ctx
  let s3 := s2.setCtx t.ctx { x with saves := x.saves.filter fun v => v.tid != sv.tid }
  traceRec s3 (dieOf core) core t.ctx 6 t.reg.toNat 2
/-- Lanes of resumed teams that wait in ldfe on the granules of a team that has retired since meet PEER_GONE (R258). -/
def resumeGone (s : State) (c : Nat) (tids : List Nat) : State :=
  let away (core : Nat) (w : Waiter) : Bool :=
    let t := s.team (w.gh / 32)
    tids.contains (w.gh / 32) && core != t.core && (match mget Peer.unbound t.peers (posOf core) with
      | .team u => (s.team u).gone
      | _ => true)
  match goneWaiters s away with
  | [] => s
  | r :: more => fatalAll s c r more
/-- The groups of resumed teams arrive; a fatal fault ends it. -/
def arriveAll (c : Nat) : List Nat → State → State
  | [], s => s
  | gh :: l, s => match arrive s gh with
    | .ok s1 => arriveAll c l s1
    | .error s1 => s1

/-- The place of a resume: team record, core, partitions. -/
abbrev Place := Saved × Nat × List Nat

/-- A record's place on a core, where the core can take it (R256, R416). -/
def placeOn (s : State) (l : Launch) (v : Saved) (core : Nat) : Option Place :=
  if v.isNative && coreIsL core != v.team.isL then none
  else (canTake s l (l.row v.team.entry) core v.team.off).map fun ps => (v, core, ps)
/-- The team is bound to another, or another's window to it, or paired. -/
def isBound (s : State) (tid : Nat) : Bool :=
  (s.team tid).pair.isSome || ((s.team tid).peers.any fun p => match p.2 with | .team _ => true | _ => false) ||
  s.teams.any fun e => !e.2.gone && e.2.peers.any fun p => p.2 == .team tid
/-- Two teams are bound or paired. -/
def linked (s : State) (t u : Nat) : Bool :=
  (s.team t).pair == some u || ((s.team t).peers.any fun p => p.2 == .team u) || (s.team u).peers.any fun p => p.2 == .team t
/-- The saved teams that are linked to a team, directly or through others. -/
def linkSet (s : State) (vs : List Saved) : Nat → List Nat → List Nat
  | 0, l => l
  | n + 1, l => linkSet s vs n (l ++ (vs.map (·.tid)).filter fun t => !l.contains t && l.any (linked s t))

/-- All places of a list, or none. -/
def allSome {α : Type} : List (Option α) → Option (List α)
  | [] => some []
  | none :: _ => none
  | some x :: l => (allSome l).map (x :: ·)
/-- Where a record resumes (R231, R258): while its context stays resident, a bound or paired team on the core it left, with its partner; after
a context save, all teams bound together on their positions of the lowest quire that takes them. A team that is not bound takes the core it
left, else the lowest that can take it. -/
def resumePlaces (s : State) (c : Nat) (l : Launch) (v : Saved) : Option (List Place) :=
  let vs := (s.ctx c).saves
  if !isBound s v.tid then
    ((v.team.core :: ctxCores s c).findSome? fun k => if (ctxCores s c).contains k then placeOn s l v k else none).map fun p => [p]
  else if !v.areaRec then
    match (s.team v.tid).pair with
    | none => (placeOn s l v v.team.core).map fun p => [p]
    | some u =>
      match vs.find? fun w => w.tid == u with
      | none => none
      | some w => allSome [placeOn s l v v.team.core, placeOn s l w w.team.core]
  else
    let set := vs.filter fun w => (linkSet s vs vs.length [v.tid]).contains w.tid
    (ctxCores s c).findSome? fun k => if posOf k = 0 then allSome (set.map fun w => placeOn s l w (peerCore k (posOf w.team.core))) else none

/-- Every record's groups on its core. -/
def planPlaces (s : State) (l : Launch) : List Place → Plan (List (Saved × Nat × List (Nat × Group)))
  | [] => .ok []
  | (v, core, ps) :: rest =>
    let parts := v.groups.map fun e => nthD 0 ps e.2.idx
    match resumeGroups s v l core (v.groups.zip ((if v.isNative then v.groups.map fun _ => [] else v.vals).zip parts)) with
    | .wait s1 => .wait s1
    | .bad h a b d => .bad h a b d
    | .ok gs =>
      match planPlaces s l rest with
      | .ok xs => .ok ((v, core, gs) :: xs)
      | r => r

/-- A fatal fault of a record. -/
def fatalSaved (s : State) (v : Saved) (gh code detail addr : Nat) : State :=
  let g := match v.groups.find? fun e => e.1 == gh with
    | some e => e.2
    | none => Group.init
  fatalCtx s v.team.ctx { FaultAt.none v.team.core v.team.slot with team := v.team.reg, group := g.idx + 32 * g.stage, isD := !v.team.isL } code detail addr 0

/-- Some lane of a record is owed to the grace period in progress (R352). -/
def savedOwed (v : Saved) : Bool := v.groups.any fun e => e.2.misc.owed != 0
/-- A barrier of another team, resident or saved itself, waits on the record's team (R393, R394). -/
def awaited (s : State) (v : Saved) : Bool :=
  s.teams.any fun e => !e.2.gone && e.1 != v.tid && e.2.qarr != 0 && (List.range 5).any fun p =>
    Nat.testBit e.2.qmask p && mget Peer.unbound e.2.peers p == .team v.tid && !qbarPast s e.2 (e.2.qphase + 1) p
/-- The record is resumed ahead of other saved work: the context's grace period has been in progress for so long that an owed lane of it comes
first (R352), or a barrier waits on it (R394). -/
def urgent (s : State) (c : Nat) (v : Saved) : Bool := ((s.ctx c).grace && (s.ctx c).boosted && savedOwed v) || awaited s v
/-- Another record comes first (R352, R394). -/
def comesLater (s : State) (c : Nat) (v : Saved) : Bool := !urgent s c v && (s.ctx c).saves.any (urgent s c)
/-- The scheduler pre-empts teams of the context: some record comes first, and no core can take it (R413). -/
def makesRoom (s : State) (c : Nat) (l : Launch) : Bool :=
  (s.ctx c).saves.any fun w => urgent s c w && (resumePlaces s c l w).isNone
/-- Splits that wait for room in a die's gdefer queue enter while it has some (R355). -/
def enterRooms (s : State) (c die : Nat) : State := (List.range 128).foldl (fun s _ => enterRoom s c die) s

/-- TEAM_RESUME: the scheduler puts a saved team back on a core (R256, R258, R352, R355, R394, R408, R416, R420, R455). -/
def execTeamResume (ctx idx : Nat) (s : State) : Out :=
  let x := s.ctx ctx
  match x.saves[idx]? with
  | none => .fault (.notEnabled "TEAM_RESUME")
  | some v =>
    match teamLaunch s v.team with
    | none => .fault (.notEnabled "TEAM_RESUME")
    | some l =>
      if x.saving || ctxState s ctx != 0 || !ctxValid s ctx || comesLater s ctx v then .fault (.notEnabled "TEAM_RESUME")
      else
        match resumePlaces s ctx l v with
        | none => .fault (.notEnabled "TEAM_RESUME")
        | some ps =>
          match ps.findSome? fun p => p.1.pois.map fun a => (p.1, a) with
          | some (v, a) => .next (fatalSaved s v 0 POISON 0 a)
          | none =>
            match planPlaces s l ps with
            | .wait s1 => .next s1
            | .bad gh a b d => .next (fatalSaved s v gh a b d)
            | .ok rs =>
              let s1 := rs.foldl (fun s r => putTeam s r.1 r.2.1 r.2.2) s
              let s2 := arriveAll ctx (rs.flatMap fun r => r.2.2.map Prod.fst) s1
              let s3 := (rs.map fun r => dieOf r.2.1).eraseDups.foldl (fun s d => enterRooms s ctx d) (checkQbars s2 v.team.core)
              .next (resumeGone s3 ctx (rs.map (·.1.tid)))

/-- TEAM_SAVE: the scheduler pre-empts a team to make room for saved work that comes first; a pre-empted team, with its partner in a pair, is
saved once its accesses have drained; a paired command that its partner never matches is
a PAIR_MISMATCH (R230, R231, R291, R394, R402, R413, R415). -/
def execTeamSave (team : Nat) (s : State) : Out :=
  let t := s.team team
  let ts := saveSet s team
  if t.gone || t.saved || t.moving then .fault (.notEnabled "TEAM_SAVE")
  else if !preempted s t then
    -- the scheduler's own request, to resume work that comes first
    (if ctxState s t.ctx == 0 && ((teamLaunch s t).any fun l => makesRoom s t.ctx l) then
       .next (ts.foldl (fun s u => s.setTeam u { s.team u with preempt := true }) s)
     else .fault (.notEnabled "TEAM_SAVE"))
  else
    match ts.findSome? (teamAsks s), ts.findSome? (teamStuck s) with
    | some s1, _ => .next s1
    | none, some gh => .next (hardStop s gh)
    | none, none =>
      if ts.all fun u => teamTakes s u true then
        (match planTeams s ts with
         | .wait s1 => .next s1
         | .bad gh a b d => .next (fatalGroup s gh a b d)
         | .ok ps => .next (ps.foldl (fun s p => takeTeam s p.1 p.2.1 p.2.2) s))
      else if (ts.all fun u => teamTakes s u false) && ((ts.filter fun u => (pairWaits s u).isSome).length == 1) then .next (endPair s team (t.pair.getD team))
      else .fault (.notEnabled "TEAM_SAVE")

/-! Records in memory (R417, R419). -/

def zeros (n : Nat) : List Byte := List.replicate n 0
/-- Padded to a multiple of 64 bytes (R417). -/
def pad64 (b : List Byte) : List Byte := b ++ zeros (up64 b.length - b.length)
/-- A list of bits as bytes, the first in bit 0. -/
def bitBytes (n : Nat) (p : Nat → Bool) : List Byte :=
  (List.range (n / 8)).map fun k => BitVec.ofNat 8 ((List.range 8).foldl (fun a i => a + bbit (p (8 * k + i)) i) 0)

/-- A value's contents in 8-byte words (R417). -/
def valBytes (v : PVal) : List Byte := toBytes 8 (v.num + v.cls * 2 ^ 32) ++ v.vals.flatMap fun x => toBytes 8 x.toNat
/-- A lane's condition: 0 in a split, 1 done or vacant, 2 exited. -/
def laneCond (g : Group) (k : Nat) : Nat := if inMask g.exited k then 2 else if inMask g.done k then 1 else 0
/-- A split slot. -/
def slotBytes (p : Split) : List Byte :=
  toBytes 4 p.mask.toNat ++ toBytes 2 p.hinge ++ toBytes 1 (match p.hold with | .bar 18 _ => 0 | _ => 1) ++ zeros 9
/-- A group record (R417). -/
def groupBytes (g : Group) (vs : List PVal) : List Byte :=
  let m := g.misc
  toBytes 2 g.idx ++ toBytes 1 g.stage ++ toBytes 1 g.splits.length ++ toBytes 4 vs.length ++
  toBytes 8 (lanes32.foldl (fun a k => a + laneCond g k * 4 ^ k) 0) ++
  ((List.range 4).flatMap fun i => match g.splits[i]? with
    | some p => slotBytes p
    | none => zeros 16) ++
  toBytes 1 g.nrm ++ toBytes 1 g.trapen ++ toBytes 1 g.dstrm ++ toBytes 1 (bbit m.opready 0) ++ zeros 4 ++
  ((List.range 4).flatMap fun k => toBytes 2 (mget 0 g.j k)) ++
  toBytes 4 m.dpitch.toNat ++ toBytes 4 m.biasoff.toNat ++ toBytes 4 m.actoff.toNat ++ zeros 4 ++ toBytes 8 m.amaxaddr.toNat ++ toBytes 8 m.scaleaddr.toNat ++
  toBytes 4 m.owed.toNat ++ zeros 4 ++ toBytes 8 m.owedK ++
  (lanes32.flatMap fun k => toBytes 4 (mget 3 g.status k).toNat) ++
  (lanes32.flatMap fun k => let t := txOf g k; toBytes 4 t.txpc ++ toBytes 1 t.ccount ++ zeros 1 ++ toBytes 2 t.last) ++ zeros 48 ++
  vs.flatMap valBytes

/-- A window as PEERS gives it. -/
def windowBytes (s : State) (t : Team) (p : Nat) : List Byte :=
  toBytes 8 (if p = posOf t.core then 2 ^ 64 - 1 else match mget Peer.unbound t.peers p with
    | .unbound => 2 ^ 64 - 1
    | .gone => 2 ^ 64 - 2
    | .team u => (s.team u).reg.toNat)
/-- The fixed part of a team record, with the offsets of its sections (R417). -/
def recHead (s : State) (v : Saved) (l : Launch) (goff soff toff len : Nat) : List Byte :=
  let t := v.team
  toBytes 4 0x4D525653 ++ toBytes 1 (bbit v.isNative 0) ++ toBytes 1 (bbit (!t.isL) 0) ++ toBytes 1 t.size ++ toBytes 1 t.ntiles ++
  toBytes 1 1 ++ toBytes 1 0 ++ toBytes 1 Config.stepping.toNat ++ zeros 1 ++ toBytes 4 t.core ++ toBytes 8 t.reg.toNat ++ toBytes 8 t.age ++
  toBytes 4 t.bytes ++ toBytes 4 (match t.pair with | some u => (s.team u).core | none => 0xFFFFFFFF) ++ toBytes 8 l.addr ++
  toBytes 4 t.qphase ++ toBytes 4 t.tbar.toNat ++ toBytes 4 t.off ++ zeros 4 ++
  ((List.range 16).flatMap fun b => let n := mget (0, 0) t.nb b; toBytes 4 n.2.toNat ++ toBytes 1 n.1 ++ zeros 3) ++
  toBytes 4 goff ++ toBytes 4 soff ++ toBytes 4 toff ++ toBytes 4 len ++ ((List.range 5).flatMap (windowBytes s t)) ++ zeros 8

/-- The bytes of a native group record: its length, its contents, and bytes of zero up to NSIZE (R416, R418). DESIGN CHOICE (log 11). -/
def nativeBytes (s : State) (v : Saved) (e : Nat × Group) : List Byte :=
  let b := nativeC.put (s.seq, { e.2 with vpois := [] }, v.waits.filter fun w => w.gh == e.1)
  pad64 (toBytes 8 b.length ++ b ++ zeros (Config.nativeSize.toNat - 8 - b.length))
/-- The group records of a saved team, one after another. -/
def groupRecs (s : State) (v : Saved) : List (List Byte) :=
  if v.isNative then v.groups.map (nativeBytes s v) else (v.groups.zip v.vals).map fun x => groupBytes x.1.2 x.2
/-- The units of a record, by offset in bytes, whose data is poison: the first of a group with a poisoned register, granules and tile elements;
the record's first where it was read as poison and has not been resumed (R454). -/
def recPois (s : State) (v : Saved) (soff toff : Nat) : List Nat :=
  let t := v.team
  let rs := groupRecs s v
  let gs := (List.range rs.length).filterMap fun i =>
    if v.bad.contains (nthD (0, Group.init) v.groups i).1 then some (256 + ((rs.take i).flatMap fun b => b).length) else none
  let us := gs ++ (v.spois.map fun e => soff + (16 * e.1 - t.off)) ++ t.tpois.map fun e => toff + 8 * e.1
  if us.isEmpty && v.pois.isSome then [0] else us

/-- A team record: its bytes and the offsets of its poisoned units (R416, R417, R454). -/
def teamRecord (s : State) (v : Saved) (l : Launch) : List Byte × List Nat :=
  let t := v.team
  let gs := pad64 ((groupRecs s v).flatMap fun b => b)
  let sp := pad64 (((List.range t.bytes).map fun k => mget 0 v.sp (t.off + k)) ++ bitBytes (t.bytes / 16) fun k => mget false v.full (t.off / 16 + k))
  let ti := pad64 (((List.range (t.ntiles * 4096)).flatMap fun k => toBytes 8 (mget 0 t.tiles k).toNat) ++ bitBytes ((t.ntiles + 7) / 8 * 8) fun k => mget false t.ovf k)
  let soff := 256 + gs.length
  let toff := soff + sp.length
  (recHead s v l 256 soff toff (toff + ti.length) ++ gs ++ sp ++ ti, recPois s v soff toff)

/-- The position of a queued slot among those that wait (R364, R419). -/
def queuePos (s : State) (c k : Nat) : Nat :=
  let key (j : Nat) : List Int := [(slotOf s c j).order, j]
  ((List.range 16).filter fun j => (slotOf s c j).state == 1 && keyLt (key j) (key k)).length
/-- A launch slot in the context header (R419). -/
def slotHead (s : State) (c k : Nat) : List Byte :=
  let x := slotOf s c k
  let open_ := x.state == 1 || x.state == 2
  toBytes 64 x.item.toNat ++ toBytes 8 (if open_ then x.ablock else x.block).toNat ++ toBytes 1 (if open_ then x.adie else x.die) ++
  toBytes 1 x.state ++ toBytes 1 x.cause ++ toBytes 1 (if x.state = 1 then queuePos s c k else 0) ++ zeros 52
/-- The context header (R419). -/
def ctxHead (s : State) (c n : Nat) : List Byte :=
  toBytes 4 0x48585443 ++ toBytes 4 n ++ toBytes 8 (s.ctx c).gn ++ toBytes 4 4096 ++ zeros 44 ++ ((List.range 16).flatMap (slotHead s c)) ++ zeros 1984

/-- The records of a context, one after another, with the offsets of their poisoned units. -/
def recBytes (s : State) (l : Launch) : List Saved → List Byte × List Nat
  | [] => ([], [])
  | v :: vs =>
    let r := teamRecord s v l
    let q := recBytes s l vs
    (r.1 ++ q.1, r.2 ++ q.2.map (r.1.length + ·))

/-- The area of a context: BASE of SAVEAREA, a multiple of 4 KiB. -/
def saveBase (s : State) (c : Nat) : Nat := (s.reg (rSAVEAREA c)).toNat / 4096 * 4096
/-- The context has a backing region on a die (R374). -/
def hasRegion (s : State) (c d : Nat) : Bool := fld (s.reg (rBACKING d c)) 63 56 != 0
/-! What a backing region holds of a saved context: DESIGN CHOICE (log 11), since R355 and R374 give the sizes of its entries and batches and not
their layout. The free low bits of a deferred entry's two addresses say that it is one (bit 0), that the period in progress serves it (bit 1), and,
in the second address of the first eight, one digit of the die's count of started teams each. A batch's items lie in order; the reserved bytes
2 and 3 of each hold 1 more than the pops that it has waited, 65,535 where it is aged, and 0 where there is no item. -/

/-- The n-th place of a deferred-free queue, and the die's count of started teams (R355, R379). -/
def deferBytes (ds : List DFree) (serial n : Nat) : List Byte :=
  let digit := if n < 8 then serial / 16 ^ n % 16 else 0
  match ds[n]? with
  | some d => toBytes 8 (d.node / 8 * 8 + 1 + 2 * bbit (d.k != 0) 0) ++ toBytes 8 (d.head / 16 * 16 + digit)
  | none => zeros 8 ++ toBytes 8 digit
/-- An item in a batch. -/
def poolBytes (i : PoolItem) : List Byte :=
  let b := toBytes 64 i.item.toNat
  b.take 2 ++ toBytes 2 (if i.waited < 65534 then i.waited + 1 else 65535) ++ b.drop 4
/-- A batch of at most 32 items in 2 KiB (R374). -/
def batchBytes (l : List PoolItem) : List Byte := (List.range 32).flatMap fun k => match l[k]? with
  | some i => poolBytes i
  | none => zeros 64
/-- The batches that a die holds of a context, those of each entry oldest first. -/
def dieBatches (s : State) (c d : Nat) : List (List PoolItem) := ((s.die d).lists.filter fun e => e.1 / 16 == c).flatMap fun e => e.2
/-- A die's backing region carries the batches and the deferred frees of a context (R355, R375, R419). -/
def putRegion (s : State) (c d : Nat) : State :=
  let base := backBase s d c
  let ds := (s.ctx c).defers.filter fun e => e.die == d
  let sr := match running s c with
    | some r => mget 0 r.2.serials d
    | none => 0
  let bs := dieBatches s c d
  let room := (fld (s.reg (rBACKING d c)) 63 56 * 2 ^ 21 - 2 ^ 20) / 2048
  let q := (List.range (min 65536 (max 8 (ds.length + 1)))).flatMap (deferBytes ds sr)
  let b := (bs ++ if bs.length < room then [[]] else []).flatMap batchBytes
  let s1 := (s.perform (cellsOf base q)).perform (cellsOf (base + 2 ^ 20) b)
  let bad := (List.range bs.length).flatMap fun n => (List.range 32).filterMap fun k =>
    if (nthD ⟨0, 0, 0, none⟩ (nthD [] bs n) k).pois.isSome then some ((base + 2 ^ 20 + 2048 * n + 64 * k) / 16) else none
  { s1 with poison := bad.foldl (fun p u => msetAll false p ((List.range 4).map fun i => (u + i, true))) s1.poison }
/-- The dies of a context that have a backing region. -/
def backedDies (s : State) (c : Nat) : List Nat := (ctxDies s c).filter (hasRegion s c)
def putRegions (s : State) (c : Nat) : State := (backedDies s c).foldl (fun s d => putRegion s c d) s

/-- Every bin of a context moves to its die's backing region; a region reserves nothing less than a save needs. -/
def spillAll (s : State) (c : Nat) : State :=
  match running s c with
  | none => s
  | some r => (ctxCores s c).foldl (fun s k => (List.range 16).foldl (fun s e => (List.range 16).foldl (fun s _ => spillBatch s r.2 c k e 32) s) s) s

/-- The batches of the context are on no spine transfer. -/
def noSteal (s : State) (c : Nat) : Bool := s.dies.all fun d => d.2.stolen.all fun e => e.1 / 16 != c || e.2.isEmpty

/-- The context has left its dies: records, header and regions are in memory; its requests still on their way are no context's work any more
(R313, R418, R419, R425). -/
def finishSave (s0 : State) (c : Nat) : State :=
  let s := spillAll (orphan s0 c) c
  let vs := (s.ctx c).saves
  let l := match running s c with
    | some r => r.2
    | none => placeLaunch
  let r := recBytes s l vs
  let b := ctxHead s c vs.length ++ r.1
  let a := saveBase s c
  if !rangeOk s c a b.length || !((backedDies s c).all fun d => regionOk s d c) then
    fatalCtx s c (FaultAt.none 0x3FF (runningSlot s c)) PROTECTION 2 a 0
  else
    let s1 := putRegions (s.perform (cellsOf a b)) c
    let s2 := { s1 with poison := msetAll false s1.poison (r.2.map fun o => ((a + 4096 + o) / 16, true))
                        teams := s1.teams.filter fun e => e.2.ctx != c
                        dies := s1.dies.map fun (e : Nat × Die) => (e.1, { e.2 with lists := e.2.lists.filter fun x => x.1 / 16 != c, steal := e.2.steal.filter fun x => x.1 / 16 != c }) }
    let x := s2.ctx c
    (s2.setCtx c { x with saves := [], saving := false, defers := [], token := none, tokenQ := [], grace := false }).setReg (rCTXCTL c) (setFld (s2.reg (rCTXCTL c)) 5 4 2)

/-- The grace period in progress completes before the context leaves: every owed lane has passed, and nothing of it is left to push or to enter
(R350, R419). -/
def graceDue (s : State) (c : Nat) : Bool :=
  let x := s.ctx c
  x.grace && allPassed s c && (x.defers.all fun d => d.k != x.gn + 1) && !anyGroup s c (roomFor (x.gn + 1))

/-- CONTEXT_SAVE: CMD 1 takes effect, or, once every team is saved, the area is written and STATE becomes 2 (R413, R418, R419, R421, R425). -/
def execContextSave (ctx : Nat) (s : State) : Out :=
  if !ctxValid s ctx then .fault (.notEnabled "CONTEXT_SAVE")
  else if ctxState s ctx = 0 || ctxState s ctx = 2 then .next (writeCmd s ctx 1)
  else if ctxState s ctx = 1 && !graceDue s ctx && (s.groups.all fun e => (s.team e.2.team).ctx != ctx) && noSteal s ctx &&
    ((ctxCores s ctx).all fun k => (s.core k).flying.isEmpty) && (s.io.peerOut.all fun p => p.ctx != some ctx) then .next (finishSave s ctx)
  else .fault (.notEnabled "CONTEXT_SAVE")

/-! Reading an area. -/

/-- Values of a group record: n of them from an offset; what is left. -/
def parseVals (b : List Byte) : Nat → Nat → List PVal × Nat
  | 0, o => ([], o)
  | n + 1, o =>
    let cls := bField b (o + 4) 1 % 4
    let len := match cls with
      | 0 => 32
      | 1 => 64
      | _ => 1
    let r := parseVals b n (o + 8 + 8 * len)
    (⟨bField b o 4, cls, (List.range len).map fun k => BitVec.ofNat 64 (bField b (o + 8 + 8 * k) 8)⟩ :: r.1, r.2)

/-- A split of a split slot. -/
def parseSlot (b : List Byte) (o : Nat) : Split :=
  { Split.init with mask := BitVec.ofNat 32 (bField b o 4), hinge := bField b (o + 4) 2, hold := if bField b (o + 6) 1 = 0 then .bar 18 0 else .bar 16 0 }
/-- A group record from an offset: the group, its values, where the next begins. Bits that its registers reserve are ignored (R6, R72). DESIGN
CHOICE (log 59): R417 gives no fate to the reserved values 4 to 7 of NRM in a record; only bits [1:0] are taken. -/
def parseGroup (b : List Byte) (o tid : Nat) (l : Launch) : Group × List PVal × Nat :=
  let f (k n : Nat) : Nat := bField b (o + k) n
  let conds (c : Nat) : Word32 := maskOf (lanes32.filter fun k => f 8 8 / 4 ^ k % 4 == c)
  let w (k : Nat) : Word64 := BitVec.ofNat 64 (f k 8)
  let v := parseVals b (f 4 4) (o + 576)
  let g : Group := { Group.init with
    team := tid, idx := f 0 2 % 32, stage := f 2 1 % 4, allot := nthD 0 l.allots (f 2 1 % 4), done := conds 1, exited := conds 2
    splits := (List.range (f 3 1)).map fun i => parseSlot b (o + 16 + 16 * i)
    nrm := f 80 1 % 4, trapen := f 81 1 % 4, dstrm := f 82 1 % 16
    j := msetAll 0 [] ((List.range 4).map fun k => (k, f (88 + 2 * k) 2 % 1024))
    status := msetAll 3 [] (lanes32.map fun k => (k, BitVec.ofNat 32 (f (144 + 4 * k) 4 % 128)))
    misc := ⟨f 83 1 % 2 == 1, BitVec.ofNat 64 (f 96 4), BitVec.ofNat 64 (f 100 4 % 2 ^ 21), BitVec.ofNat 64 (f 104 4 % 2 ^ 21), w 112, w 120, BitVec.ofNat 32 (f 128 4), f 136 8, 0⟩
    tx := msetAll Tx.init [] (lanes32.map fun k => (k, { Tx.init with txpc := f (272 + 8 * k) 4, ccount := f (276 + 8 * k) 1, last := f (278 + 8 * k) 2 })) }
  (g, v.1, v.2)
/-- The group records up to the end of their section. -/
def parseGroups (b : List Byte) (tid : Nat) (l : Launch) (end_ : Nat) : Nat → Nat → List (Group × List PVal)
  | 0, _ => []
  | n + 1, o =>
    if end_ < o + 576 then []
    else let r := parseGroup b o tid l; (r.1, r.2.1) :: parseGroups b tid l end_ n r.2.2

/-- The entry of a record: the lowest used row with its size, its tiles and its groups' stages. -/
def recEntry (l : Launch) (size tiles : Nat) (gs : List Group) : Nat :=
  ((List.range 16).find? fun e =>
    let r := l.row e
    r.used && (rowRoles r).length == size && r.tiles == tiles && gs.all fun g => nthD 0 (rowRoles r) g.idx == g.stage).getD 0

/-- A record read from its bytes: the team's windows and partner are still to be found. -/
def parseTeam (b : List Byte) (c slot tid : Nat) (l : Launch) (gs : List Group) (ws : List Waiter) (vs : List (List PVal)) (pois : Option Nat) : Saved :=
  let f := bField b
  let off := f 56 4
  let n := f 32 4
  let nt := f 7 1
  let t : Team := { Team.init with
    ctx := c, slot := slot, entry := recEntry l (f 6 1) nt gs, core := f 12 4, isL := f 5 1 == 0, reg := BitVec.ofNat 64 (f 16 4)
    size := f 6 1, off := off, bytes := n, ntiles := nt, age := f 24 8, qphase := f 48 4, tbar := BitVec.ofNat 32 (f 52 4), gone := false, saved := true
    nb := msetAll (0, 0) [] ((List.range 16).map fun k => (k, (f (68 + 8 * k) 1, BitVec.ofNat 32 (f (64 + 8 * k) 4))))
    tiles := msetAll 0 [] ((List.range (nt * 4096)).map fun k => (k, BitVec.ofNat 64 (f (f 200 4 + 8 * k) 8)))
    ovf := msetAll false [] ((List.range nt).map fun k => (k, f (f 200 4 + nt * 32768 + k / 8) 1 / 2 ^ (k % 8) % 2 == 1)) }
  { team := t, tid := tid, groups := gs.map fun g => (handle tid g.idx, { g with team := tid }), isNative := f 4 1 == 1, quiet := []
    sp := msetAll 0 [] ((List.range n).map fun k => (off + k, BitVec.ofNat 8 (f (f 196 4 + k) 1)))
    full := msetAll false [] ((List.range (n / 16)).map fun k => (off / 16 + k, f (f 196 4 + n + k / 8) 1 / 2 ^ (k % 8) % 2 == 1))
    spois := [], waits := ws.map fun w => { w with gh := handle tid w.gh }, vals := vs, bad := [], pois := pois, areaRec := true }
/-- A portable record from its bytes. -/
def parsePort (b : List Byte) (c slot tid : Nat) (l : Launch) (pois : Option Nat) : Saved :=
  let gs := parseGroups b tid l (bField b 196 4) 32 (bField b 192 4)
  parseTeam b c slot tid l (gs.map Prod.fst) [] (gs.map Prod.snd) pois
/-- The group records of a native record, up to the end of their section: for each the number that the saving device had reached, the group and
its waits, its order numbers after n (R416). -/
def nativeGroups (n end_ : Nat) (b : List Byte) : Nat → Nat → Option (List (Nat × Group × List Waiter))
  | 0, _ => some []
  | k + 1, o =>
    if end_ < o + 64 then some []
    else
      let len := bField b o 8
      match nativeGet n ((b.drop (o + 8)).take len) with
      | none => none
      | some r => (nativeGroups n end_ b k (o + up64 (max (8 + len) Config.nativeSize.toNat))).map (r :: ·)
/-- A native record from its bytes, its order numbers after n. -/
def parseNative (b : List Byte) (c slot tid : Nat) (l : Launch) (pois : Option Nat) (n : Nat) : Option Saved :=
  (nativeGroups n (bField b 196 4) b 32 (bField b 192 4)).map fun gs =>
    parseTeam b c slot tid l (gs.map fun x => x.2.1) (gs.flatMap fun x => x.2.2) (gs.map fun _ => []) pois
/-- The order number that the device which wrote a native record had reached. -/
def recSeq (b : List Byte) : Nat :=
  if bField b 4 1 = 0 then 0 else ((nativeGroups 0 (bField b 196 4) b 32 (bField b 192 4)).getD []).foldl (fun m x => max m x.1) 0

/-- The bytes of the record at an offset of the area. -/
def recAt (s : State) (a : Nat) : List Byte := s.rdBytes a (s.rdNat (a + 204) 4)
/-- The first poisoned unit of a range. -/
def firstPois (s : State) (a n : Nat) : Option Nat :=
  (s.poison.find? fun e => decide (a < 16 * e.1 + 16) && decide (16 * e.1 < a + n)).map fun e => 16 * e.1
/-- What reading the records of an area gives: each with its bytes and its first poisoned unit; a block of another tag; or none where one is not a
record. -/
inductive AreaAns where
  | ok (rs : List (List Byte × Option Nat))
  | foreign
  | none
  deriving DecidableEq, Repr
/-- n records from an address of the area of a context, in order; each block is reached by its key tag before it is read (R434). -/
def areaRecs (s : State) (c : Nat) : Nat → Nat → AreaAns
  | 0, _ => .ok []
  | n + 1, a =>
    if !rangeOk s c a 256 || !rangeOk s c a (recAt s a).length then .foreign
    else
      let b := recAt s a
      if bField b 0 4 ≠ 0x4D525653 ∨ b.length < 256 then .none
      else
        match areaRecs s c n (a + up64 b.length) with
        | .ok l => .ok ((b, firstPois s a b.length) :: l)
        | r => r
/-- The device takes a native record: it is of this version and stepping, its encoding is that of the core it left, and the launch has a kernel of
that encoding (R416, R420). -/
def nativeFits (b : List Byte) (l : Launch) : Bool :=
  bField b 9 1 == 0 && bField b 10 1 == Config.stepping.toNat && (bField b 5 1 == 0) == coreIsL (bField b 12 4) &&
  (if coreIsL (bField b 12 4) then l.hasL else l.hasD)
/-- A record that this device resumes; its order numbers come after those of the device (R416, R420). -/
def recSaved (s : State) (c slot tid : Nat) (l : Launch) (r : List Byte × Option Nat) : Option Saved :=
  if bField r.1 8 1 ≠ 1 then none
  else if bField r.1 4 1 = 0 then some (parsePort r.1 c slot tid l r.2)
  else if nativeFits r.1 l then parseNative r.1 c slot tid l r.2 s.seq
  else none

/-- A window from PEERS. -/
def parsePeer (vs : List Saved) (n : Nat) : Peer :=
  if n = 2 ^ 64 - 2 then .gone
  else match vs.find? fun v => v.team.reg.toNat == n with
    | some v => .team v.tid
    | none => .unbound
/-- A restored wait in ldfe names the team of its granule as the restored windows do; a window to a retired team names none (R258). -/
def linkWait (tid own : Nat) (peers : AMap Peer) (w : Waiter) : Waiter :=
  let p := posOf (w.granule / 2 ^ 17)
  { w with team := if p = posOf own then tid else match mget Peer.unbound peers p with
    | .team u => u
    | _ => tid }
/-- The records of one core that name another as their partner's core, in the order of the area. -/
def namesPartner (vs : List (Saved × List Byte)) (core partner : Nat) : List Nat :=
  (vs.filter fun x => x.1.team.core == core && bField x.2 36 4 == partner).map fun x => x.1.tid
/-- The partner of a record: PARTNER gives only its core. Of the records of that core which name this record's core in turn, the partner is the one
that stands at the same place among them as this record among those of its core that name the other (R231, R420). DESIGN CHOICE (log 49): R417 names no
team where several pairs of the two cores are saved. -/
def partnerSaved (vs : List (Saved × List Byte)) (v : Saved) (b : List Byte) : Option Nat :=
  let p := bField b 36 4
  let own := v.team.core
  if p ≠ partnerCore own then none else (namesPartner vs p own)[findPos (· == v.tid) (namesPartner vs own p)]?
/-- A record's team with its windows and its partner. -/
def linkSaved (all : List (Saved × List Byte)) (v : Saved) (b : List Byte) : Saved :=
  let vs := all.map Prod.fst
  let own := posOf v.team.core
  let ps := (List.range 5).filterMap fun p => if p = own then none else some (p, parsePeer vs (bField b (208 + 8 * p) 8))
  let pr := partnerSaved all v b
  let peers := msetAll .unbound [] ps
  { v with team := { v.team with peers := peers, pair := pr }, waits := v.waits.map (linkWait v.tid v.team.core peers) }

/-- The groups of a portable record that are saved at hinges marked quiet (R351). -/
def quietSaved (s : State) (c core : Nat) (l : Launch) (v : Saved) : Saved :=
  if v.isNative then v
  else { v with quiet := (v.groups.filter fun e => e.2.splits.all fun p => match findRow s c core (whoTeam v.team) (fun r => r.id == p.hinge) l.htab l.hcount with
    | .row r => r.quiet
    | _ => false).map Prod.fst }

/-- A launch slot from the context header. -/
def parseLSlot (b : List Byte) (k : Nat) : LSlot :=
  let o := 64 + 128 * k
  let blk : Word64 := BitVec.ofNat 64 (bField b (o + 64) 8)
  let st := bField b (o + 73) 1
  { LSlot.init with item := BitVec.ofNat 512 (bField b o 64), block := blk, ablock := blk, die := bField b (o + 72) 1, adie := bField b (o + 72) 1
                    state := st, cause := bField b (o + 74) 1, wait := st == 1, order := if st = 1 then bField b (o + 75) 1 + 1 else 0 }

/-- The block of a restored running launch, read again: the launch, a wait, or the cause of a refusal (R363, R419). -/
def reread (s : State) (c : Nat) (x : LSlot) : Launch ⊕ (State ⊕ Nat) :=
  let core := 128 * firstDie s c
  if x.ablock.toNat % 64 ≠ 0 then .inr (.inr 2)
  else
    match devRead s c core whoArea x.ablock.toNat 256 with
    | .wait s1 => .inr (.inl s1)
    | .bad _ _ _ => .inr (.inr 3)
    | .ok b =>
      match devRead s c core whoArea (bField b 40 8) 1024 with
      | .wait s1 => .inr (.inl s1)
      | .bad _ _ _ => .inr (.inr 3)
      | .ok t => if blockOk b (parseBlock x.ablock.toNat b t) then .inl (parseBlock x.ablock.toNat b t) else .inr (.inr 2)

/-- Deferred entries from an address, up to the first empty place; k is the period in progress (R355). -/
def readDefers (s : State) (die k : Nat) : Nat → Nat → List DFree
  | 0, _ => []
  | n + 1, a =>
    let w := s.rdNat a 8
    if w % 2 = 0 then [] else ⟨die, w / 8 * 8, s.rdNat (a + 8) 8 / 16 * 16, if w / 2 % 2 = 1 then k else 0⟩ :: readDefers s die k n (a + 16)
/-- An item of a batch at an address. -/
def readPool (s : State) (a : Nat) : Option PoolItem :=
  let w := s.rdNat (a + 2) 2
  if w = 0 then none
  else some ⟨BitVec.ofNat 512 (s.rdNat a 2 + s.rdNat (a + 4) 60 * 2 ^ 32), 0, if w = 65535 then 65536 else w - 1, if s.isPoison a 64 then some a else none⟩
/-- Batches from an address, up to the first empty one (R374). -/
def readBatches (s : State) : Nat → Nat → List (List PoolItem)
  | 0, _ => []
  | n + 1, a =>
    let b := (List.range 32).filterMap fun k => readPool s (a + 64 * k)
    if b.isEmpty then [] else b :: readBatches s n (a + 2048)
/-- The contents of the backing regions return (R355, R374, R419). -/
def takeRegions (s : State) (c k : Nat) (l : Launch) : State × Launch :=
  (backedDies s c).foldl (fun (a : State × Launch) d =>
    let base := backBase a.1 d c
    let x := a.1.ctx c
    let s1 := a.1.setCtx c { x with defers := x.defers ++ readDefers a.1 d k 65536 base }
    let bs := readBatches a.1 ((fld (a.1.reg (rBACKING d c)) 63 56 * 2 ^ 21 - 2 ^ 20) / 2048) (base + 2 ^ 20)
    let sr := (List.range 8).foldl (fun n i => n + a.1.rdNat (base + 16 * i + 8) 8 % 16 * 16 ^ i) 0
    (bs.foldl (fun s b => let e := itemEntry ((b.head?.map (·.item)).getD 0); setList s d c e (listOf s d c e ++ [b])) s1,
     { a.2 with serials := mset 0 a.2.serials d sr })) (s, l)

/-- Some lane is owed, waits or is deferred for the grace period in progress (R352, R419). -/
def graceOpen (x : Ctx) : Bool :=
  (x.defers.any fun d => d.k == x.gn + 1) ||
  x.saves.any fun v => v.groups.any fun e => e.2.misc.owed != 0 || e.2.misc.owedK == x.gn + 1 || e.2.splits.any fun p => match p.hold with
    | .gwait _ k | .groom _ _ k => k == x.gn + 1
    | _ => false

/-- The context runs again with a launch's records (R419). -/
def installCtx (s : State) (c slot : Nat) (hd : List Byte) (l : Launch) (rs : List (List Byte × Option Nat)) : State :=
  let t0 := freshKey s.teams
  let ids := (List.range rs.length).map (t0 + ·)
  match allSome ((rs.zip ids).map fun x => recSaved s c slot x.2 l x.1) with
  | none => fatalCtx s c (FaultAt.none 0x3FF slot) HINGE_MAP 0 0xFFFF 0
  | some vs =>
    let all := vs.zip (rs.map Prod.fst)
    let s := endTries s c (128 * firstDie s c) whoArea
    let ws := all.map fun x => quietSaved s c (128 * firstDie s c) l (linkSaved all x.1 x.2)
    let r := takeRegions { s with seq := s.seq + rs.foldl (fun m x => max m (recSeq x.1)) 0 } c (bField hd 8 8 + 1) l
    let s1 := ws.foldl (fun s v => s.setTeam v.tid v.team) r.1
    let sl := (List.range 16).foldl (fun m k => mset LSlot.init m k (parseLSlot hd k)) []
    let sl1 := if slot < 16 then mset LSlot.init sl slot { mget LSlot.init sl slot with ok := true, blk := some r.2 } else sl
    let x : Ctx := { s1.ctx c with slots := sl1, gn := bField hd 8 8, saves := ws }
    (s1.setCtx c { x with grace := graceOpen x, saving := false }).setReg (rCTXCTL c) (setFld (s1.reg (rCTXCTL c)) 5 4 0)

/-- The resume of a context from its area (R419, R420, R434, R455). -/
def resumeCtx (s : State) (c : Nat) : State :=
  let a := saveBase s c
  let fail (code d : Nat) : State := fatalCtx s c (FaultAt.none 0x3FF 0xFF) code d a 0
  if !rangeOk s c a 4096 then fail PROTECTION 2
  else if s.isPoison a 4096 then fail POISON 0
  else
    let hd := s.rdBytes a 4096
    if bField hd 0 4 ≠ 0x48585443 then s.setReg (rCTXCTL c) (setFld (s.reg (rCTXCTL c)) 5 4 0)
    else
      match areaRecs s c (bField hd 4 4) (a + bField hd 16 4) with
      | .foreign => fail PROTECTION 2
      | .none => fail HINGE_MAP 0
      | .ok rs =>
          let bad := (backedDies s c).find? fun d => !regionOk s d c
          match (List.range 16).find? fun k => (parseLSlot hd k).state == 2 with
          | none => if bad.isNone then installCtx s c 16 hd placeLaunch rs else regionFault s (bad.getD 0) c
          | some k =>
            if bad.isSome then regionFault s (bad.getD 0) c else
            match reread s c (parseLSlot hd k) with
            | .inr (.inl s1) => s1
            | .inl l => installCtx s c k hd l rs
            | .inr (.inr cause) => endLaunch (installCtx s c k hd placeLaunch []) c k 4 cause

/-- CONTEXT_RESUME: CMD 2 takes effect, or the area is read and STATE becomes 0 (R418, R419, R425). -/
def execContextResume (ctx : Nat) (s : State) : Out :=
  if !ctxValid s ctx then .fault (.notEnabled "CONTEXT_RESUME")
  else if ctxState s ctx = 3 then .next (resumeCtx s ctx)
  else if ctxState s ctx = 1 then .fault (.notEnabled "CONTEXT_RESUME")
  else .next (writeCmd s ctx 2)

end Sys2Proof.Machine
end

