-- ==== Sys2Proof/Machine/Scalar.lean ====
section
/-! DEFINITION. Scalar arithmetic, immediates, compare and select (R167 to R171). -/
namespace Sys2Proof.Machine

/-- A scalar word with two register sources: a 64-bit result from their values (R167). -/
def sbin (d a b : Nat) (f : Nat → Nat → Nat) (s : State) : State := s.wS d (BitVec.ofNat 64 (f (s.rS a).toNat (s.rS b).toNat))
/-- A scalar word with one source. -/
def sun (d a : Nat) (f : Nat → Nat) (s : State) : State := s.wS d (BitVec.ofNat 64 (f (s.rS a).toNat))
/-- imm12 sign-extended to 64 bits (R168). -/
def simm (i : BitVec 12) : Nat := (i.signExtend 64).toNat

/-- sadd: a + b modulo 2^64 (R167). -/
def execSadd (d a b : Nat) (s : State) : Out := .next (sbin d a b (fun x y => x + y) s)
/-- ssub: a - b modulo 2^64 (R167). -/
def execSsub (d a b : Nat) (s : State) : Out := .next (sbin d a b (fun x y => x + (2 ^ 64 - y)) s)
/-- smul: low 64 bits of the product (R167). -/
def execSmul (d a b : Nat) (s : State) : Out := .next (sbin d a b (fun x y => x * y) s)
/-- smulh: high 64 bits of the signed product (R167). -/
def execSmulh (d a b : Nat) (s : State) : Out := .next (sbin d a b (mulhW true 64) s)
/-- sdiv: signed quotient (R163) (R167). -/
def execSdiv (d a b : Nat) (s : State) : Out := .next (sbin d a b (quotW true 64) s)
/-- srem: signed remainder (R163) (R167). -/
def execSrem (d a b : Nat) (s : State) : Out := .next (sbin d a b (remW true 64) s)
/-- sand: AND (R167). -/
def execSand (d a b : Nat) (s : State) : Out := .next (sbin d a b (fun x y => x &&& y) s)
/-- sor: OR (R167). -/
def execSor (d a b : Nat) (s : State) : Out := .next (sbin d a b (fun x y => x ||| y) s)
/-- sxor: exclusive OR (R167). -/
def execSxor (d a b : Nat) (s : State) : Out := .next (sbin d a b (fun x y => x ^^^ y) s)
/-- sshl: left shift (R167). -/
def execSshl (d a b : Nat) (s : State) : Out := .next (sbin d a b (shlW 64) s)
/-- sshr: right shift with zero fill (R167). -/
def execSshr (d a b : Nat) (s : State) : Out := .next (sbin d a b (shrW 64) s)
/-- ssra: right shift with sign fill (R167). -/
def execSsra (d a b : Nat) (s : State) : Out := .next (sbin d a b (sraW 64) s)
/-- smin: signed minimum (R167). -/
def execSmin (d a b : Nat) (s : State) : Out := .next (sbin d a b (minW true 64) s)
/-- smax: signed maximum (R167). -/
def execSmax (d a b : Nat) (s : State) : Out := .next (sbin d a b (maxW true 64) s)
/-- smulhN64: high 64 bits of the unsigned product (R167). -/
def execSmulhN64 (d a b : Nat) (s : State) : Out := .next (sbin d a b (mulhW false 64) s)
/-- sdivN64: unsigned quotient (R163) (R167). -/
def execSdivN64 (d a b : Nat) (s : State) : Out := .next (sbin d a b (quotW false 64) s)
/-- sremN64: unsigned remainder (R163) (R167). -/
def execSremN64 (d a b : Nat) (s : State) : Out := .next (sbin d a b (remW false 64) s)
/-- sminN64: unsigned minimum (R167). -/
def execSminN64 (d a b : Nat) (s : State) : Out := .next (sbin d a b (minW false 64) s)
/-- smaxN64: unsigned maximum (R167). -/
def execSmaxN64 (d a b : Nat) (s : State) : Out := .next (sbin d a b (maxW false 64) s)
/-- sclz: leading zeros (R167). -/
def execSclz (d a : Nat) (s : State) : Out := .next (sun d a (clzW 64) s)
/-- spop: one bits (R167). -/
def execSpop (d a : Nat) (s : State) : Out := .next (sun d a (popW 64) s)
/-- smov: copy (R167). -/
def execSmov (d a : Nat) (s : State) : Out := .next (sun d a (id) s)
/-- saddImm: with the sign-extended immediate (R168). -/
def execSaddImm (d a : Nat) (i : BitVec 12) (s : State) : Out := .next (sun d a (fun x => x + simm i) s)
/-- sandImm: with the sign-extended immediate (R168). -/
def execSandImm (d a : Nat) (i : BitVec 12) (s : State) : Out := .next (sun d a (fun x => x &&& simm i) s)
/-- sorImm: with the sign-extended immediate (R168). -/
def execSorImm (d a : Nat) (i : BitVec 12) (s : State) : Out := .next (sun d a (fun x => x ||| simm i) s)
/-- sxorImm: with the sign-extended immediate (R168). -/
def execSxorImm (d a : Nat) (i : BitVec 12) (s : State) : Out := .next (sun d a (fun x => x ^^^ simm i) s)
/-- sshlImm: with a constant count (R168). -/
def execSshlImm (d a c : Nat) (s : State) : Out := .next (sun d a (fun x => shlW 64 x c) s)
/-- sshrImm: with a constant count (R168). -/
def execSshrImm (d a c : Nat) (s : State) : Out := .next (sun d a (fun x => shrW 64 x c) s)
/-- ssraImm: with a constant count (R168). -/
def execSsraImm (d a c : Nat) (s : State) : Out := .next (sun d a (fun x => sraW 64 x c) s)
/-- sli: the sign-extended immediate (R169). -/
def execSli (d : Nat) (i : BitVec 19) (s : State) : Out := .next (s.wS d (i.signExtend 64))
/-- slih: the register shifted left by 19 with the immediate below (R169). -/
def execSlih (d : Nat) (i : BitVec 19) (s : State) : Out := .next (s.wS d ((s.rS d <<< 19) ||| i.zeroExtend 64))

/-- The conditions of scmp (R170). -/
def scmpHolds (c : Nat) (x y : Word64) : Bool :=
  match c with
  | 0 => x == y
  | 1 => x != y
  | 2 => x.slt y
  | 3 => x.sle y
  | 4 => y.slt x
  | 5 => y.sle x
  | 6 => x.ult y
  | 7 => x.ule y
  | 8 => y.ult x
  | _ => y.ule x

/-- scmp: 1 where the condition holds, else 0 (R170). -/
def execScmp (c d a b : Nat) (s : State) : Out := .next (s.wS d (if scmpHolds c (s.rS a) (s.rS b) then 1 else 0))
/-- ssel: the destination's old value chooses (R171). -/
def execSsel (d a b : Nat) (s : State) : Out := .next (s.wS d (if s.rS d = 0 then s.rS b else s.rS a))

end Sys2Proof.Machine
end

