-- ==== Sys2Proof/Machine/Dispatch.lean ====
section
/-! DEFINITION. The dispatch: one arm per constructor of Instr. -/
namespace Sys2Proof.Machine

def exec (i : Instr) (s : State) : Host.Outcome State Fault Refusal :=
  match i with
  | .sadd d a b => Sys2Proof.Machine.execSadd d a b s
  | .ssub d a b => Sys2Proof.Machine.execSsub d a b s
  | .smul d a b => Sys2Proof.Machine.execSmul d a b s
  | .smulh d a b => Sys2Proof.Machine.execSmulh d a b s
  | .sdiv d a b => Sys2Proof.Machine.execSdiv d a b s
  | .srem d a b => Sys2Proof.Machine.execSrem d a b s
  | .sand d a b => Sys2Proof.Machine.execSand d a b s
  | .sor d a b => Sys2Proof.Machine.execSor d a b s
  | .sxor d a b => Sys2Proof.Machine.execSxor d a b s
  | .sshl d a b => Sys2Proof.Machine.execSshl d a b s
  | .sshr d a b => Sys2Proof.Machine.execSshr d a b s
  | .ssra d a b => Sys2Proof.Machine.execSsra d a b s
  | .smin d a b => Sys2Proof.Machine.execSmin d a b s
  | .smax d a b => Sys2Proof.Machine.execSmax d a b s
  | .sclz d a => Sys2Proof.Machine.execSclz d a s
  | .spop d a => Sys2Proof.Machine.execSpop d a s
  | .smov d a => Sys2Proof.Machine.execSmov d a s
  | .smulhN64 d a b => Sys2Proof.Machine.execSmulhN64 d a b s
  | .sdivN64 d a b => Sys2Proof.Machine.execSdivN64 d a b s
  | .sremN64 d a b => Sys2Proof.Machine.execSremN64 d a b s
  | .sminN64 d a b => Sys2Proof.Machine.execSminN64 d a b s
  | .smaxN64 d a b => Sys2Proof.Machine.execSmaxN64 d a b s
  | .saddImm d a i0 => Sys2Proof.Machine.execSaddImm d a i0 s
  | .sandImm d a i0 => Sys2Proof.Machine.execSandImm d a i0 s
  | .sorImm d a i0 => Sys2Proof.Machine.execSorImm d a i0 s
  | .sxorImm d a i0 => Sys2Proof.Machine.execSxorImm d a i0 s
  | .sshlImm d a c => Sys2Proof.Machine.execSshlImm d a c s
  | .sshrImm d a c => Sys2Proof.Machine.execSshrImm d a c s
  | .ssraImm d a c => Sys2Proof.Machine.execSsraImm d a c s
  | .sli d i0 => Sys2Proof.Machine.execSli d i0 s
  | .slih d i0 => Sys2Proof.Machine.execSlih d i0 s
  | .scmp c d a b => Sys2Proof.Machine.execScmp c d a b s
  | .ssel d a b => Sys2Proof.Machine.execSsel d a b s
  | .sld d a i0 => Sys2Proof.Machine.execSld d a i0 s
  | .sst d a i0 => Sys2Proof.Machine.execSst d a i0 s
  | .br o => Sys2Proof.Machine.execBr o s
  | .bc c a o => Sys2Proof.Machine.execBc c a o s
  | .bq n p o => Sys2Proof.Machine.execBq n p o s
  | .bq3 p f oa ob => Sys2Proof.Machine.execBq3 p f oa ob s
  | .call a o => Sys2Proof.Machine.execCall a o s
  | .ret a => Sys2Proof.Machine.execRet a s
  | .jmpx d a => Sys2Proof.Machine.execJmpx d a s
  | .waitc vm sm as xl => Sys2Proof.Machine.execWaitc vm sm as xl s
  | .venq c o => Sys2Proof.Machine.execVenq c o s
  | .nbarImm c i0 => Sys2Proof.Machine.execNbarImm c i0 s
  | .nbarReg a i0 => Sys2Proof.Machine.execNbarReg a i0 s
  | .tbar => Sys2Proof.Machine.execTbar s
  | .qbar m => Sys2Proof.Machine.execQbar m s
  | .split pen p a v upper => Sys2Proof.Machine.execSplit pen p a v upper s
  | .take drain d => Sys2Proof.Machine.execTake drain d s
  | .done => Sys2Proof.Machine.execDone s
  | .exit => Sys2Proof.Machine.execExit s
  | .nop => Sys2Proof.Machine.execNop s
  | .hinge i0 => Sys2Proof.Machine.execHinge i0 s
  | .mig d k => Sys2Proof.Machine.execMig d k s
  | .trap c => Sys2Proof.Machine.execTrap c s
  | .tret => Sys2Proof.Machine.execTret s
  | .qpoint => Sys2Proof.Machine.execQpoint s
  | .gwait d => Sys2Proof.Machine.execGwait d s
  | .gdefer a b => Sys2Proof.Machine.execGdefer a b s
  | .gnum d => Sys2Proof.Machine.execGnum d s
  | .clock d => Sys2Proof.Machine.execClock d s
  | .mark snap c => Sys2Proof.Machine.execMark snap c s
  | .crd d n => Sys2Proof.Machine.execCrd d n s
  | .cwr a n => Sys2Proof.Machine.execCwr a n s
  | .vadd h t d a b => Sys2Proof.Machine.execVadd h t d a b s
  | .vsub h t d a b => Sys2Proof.Machine.execVsub h t d a b s
  | .vmul h t d a b => Sys2Proof.Machine.execVmul h t d a b s
  | .vmulh h t d a b => Sys2Proof.Machine.execVmulh h t d a b s
  | .vmad h t d a b c => Sys2Proof.Machine.execVmad h t d a b c s
  | .vdiv h t d a b => Sys2Proof.Machine.execVdiv h t d a b s
  | .vrem h t d a b => Sys2Proof.Machine.execVrem h t d a b s
  | .vmin h t d a b => Sys2Proof.Machine.execVmin h t d a b s
  | .vmax h t d a b => Sys2Proof.Machine.execVmax h t d a b s
  | .vabs h t d a => Sys2Proof.Machine.execVabs h t d a s
  | .vneg h t d a => Sys2Proof.Machine.execVneg h t d a s
  | .vclz h t d a => Sys2Proof.Machine.execVclz h t d a s
  | .vpop h t d a => Sys2Proof.Machine.execVpop h t d a s
  | .vand h t d a b => Sys2Proof.Machine.execVand h t d a b s
  | .vor h t d a b => Sys2Proof.Machine.execVor h t d a b s
  | .vxor h t d a b => Sys2Proof.Machine.execVxor h t d a b s
  | .vnot h t d a => Sys2Proof.Machine.execVnot h t d a s
  | .vshl h t d a b => Sys2Proof.Machine.execVshl h t d a b s
  | .vshr h t d a b => Sys2Proof.Machine.execVshr h t d a b s
  | .vsra h t d a b => Sys2Proof.Machine.execVsra h t d a b s
  | .vbfe h t d a pos len => Sys2Proof.Machine.execVbfe h t d a pos len s
  | .vbfi h t d a pos len => Sys2Proof.Machine.execVbfi h t d a pos len s
  | .vsel h t d a b c p => Sys2Proof.Machine.execVsel h t d a b c p s
  | .vmov h t d a => Sys2Proof.Machine.execVmov h t d a s
  | .vmovi h t d x => Sys2Proof.Machine.execVmovi h t d x s
  | .vidxRead h t d j off => Sys2Proof.Machine.execVidxRead h t d j off s
  | .vidxWrite h t j off a => Sys2Proof.Machine.execVidxWrite h t j off a s
  | .vcmp h t p c a b => Sys2Proof.Machine.execVcmp h t p c a b s
  | .xadd h t d a b => Sys2Proof.Machine.execXadd h t d a b s
  | .xsub h t d a b => Sys2Proof.Machine.execXsub h t d a b s
  | .xmul h t d a b => Sys2Proof.Machine.execXmul h t d a b s
  | .xfma h t d a b c => Sys2Proof.Machine.execXfma h t d a b c s
  | .xdiv h t d a b => Sys2Proof.Machine.execXdiv h t d a b s
  | .xrecip h t d a => Sys2Proof.Machine.execXrecip h t d a s
  | .xsqr h t d a => Sys2Proof.Machine.execXsqr h t d a s
  | .xsqrt h t d a => Sys2Proof.Machine.execXsqrt h t d a s
  | .xabs h t d a => Sys2Proof.Machine.execXabs h t d a s
  | .xneg h t d a => Sys2Proof.Machine.execXneg h t d a s
  | .xmin h t d a b => Sys2Proof.Machine.execXmin h t d a b s
  | .xmax h t d a b => Sys2Proof.Machine.execXmax h t d a b s
  | .xhull h t d a b => Sys2Proof.Machine.execXhull h t d a b s
  | .xmeet h t d a b => Sys2Proof.Machine.execXmeet h t d a b s
  | .xexp h t d a => Sys2Proof.Machine.execXexp h t d a s
  | .xexp2 h t d a => Sys2Proof.Machine.execXexp2 h t d a s
  | .xlog h t d a => Sys2Proof.Machine.execXlog h t d a s
  | .xlog2 h t d a => Sys2Proof.Machine.execXlog2 h t d a s
  | .xsin h t d a => Sys2Proof.Machine.execXsin h t d a s
  | .xcos h t d a => Sys2Proof.Machine.execXcos h t d a s
  | .xtanh h t d a => Sys2Proof.Machine.execXtanh h t d a s
  | .xmid h t d a => Sys2Proof.Machine.execXmid h t d a s
  | .xrad h t d a => Sys2Proof.Machine.execXrad h t d a s
  | .xwid h t d a => Sys2Proof.Machine.execXwid h t d a s
  | .xlo h t d a => Sys2Proof.Machine.execXlo h t d a s
  | .xhi h t d a => Sys2Proof.Machine.execXhi h t d a s
  | .xmake h t d a b => Sys2Proof.Machine.execXmake h t d a b s
  | .xcls h t d a => Sys2Proof.Machine.execXcls h t d a s
  | .xcmp h t p c a b => Sys2Proof.Machine.execXcmp h t p c a b s
  | .xdec h op dec => Sys2Proof.Machine.execXdec h op dec s
  | .xbis h t d a upper pen p => Sys2Proof.Machine.execXbis h t d a upper pen p s
  | .qand h pd pa pb => Sys2Proof.Machine.execQand h pd pa pb s
  | .qor h pd pa pb => Sys2Proof.Machine.execQor h pd pa pb s
  | .qxor h pd pa pb => Sys2Proof.Machine.execQxor h pd pa pb s
  | .qnot h pd pa => Sys2Proof.Machine.execQnot h pd pa s
  | .qset h pd val => Sys2Proof.Machine.execQset h pd val s
  | .qfix h pd pa tgt => Sys2Proof.Machine.execQfix h pd pa tgt s
  | .qmov h pd pa => Sys2Proof.Machine.execQmov h pd pa s
  | .qmovToScalar h d pa => Sys2Proof.Machine.execQmovToScalar h d pa s
  | .qmovFromScalar h pd a => Sys2Proof.Machine.execQmovFromScalar h pd a s
  | .vbal h d pa => Sys2Proof.Machine.execVbal h d pa s
  | .vvote h op pd pa => Sys2Proof.Machine.execVvote h op pd pa s
  | .vshfIdx h t d a b => Sys2Proof.Machine.execVshfIdx h t d a b s
  | .vshfXor h t d a dist => Sys2Proof.Machine.execVshfXor h t d a dist s
  | .vshfUp h t d a dist => Sys2Proof.Machine.execVshfUp h t d a dist s
  | .vshfDn h t d a dist => Sys2Proof.Machine.execVshfDn h t d a dist s
  | .vbcast h t d a src sel => Sys2Proof.Machine.execVbcast h t d a src sel s
  | .vred h op t d a => Sys2Proof.Machine.execVred h op t d a s
  | .cvt h df sf part d a => Sys2Proof.Machine.execCvt h df sf part d a s
  | .qnt h tgt scf d a => Sys2Proof.Machine.execQnt h tgt scf d a s
  | .dqnt h tgt scf d a => Sys2Proof.Machine.execDqnt h tgt scf d a s
  | .mloop f => Sys2Proof.Machine.execMloop f s
  | .mrdy st => Sys2Proof.Machine.execMrdy st s
  | .mwait st tile all => Sys2Proof.Machine.execMwait st tile all s
  | .mzero st tile => Sys2Proof.Machine.execMzero st tile s
  | .mld st tile a => Sys2Proof.Machine.execMld st tile a s
  | .mdrn f => Sys2Proof.Machine.execMdrn f s
  | .acrd h st tile d row => Sys2Proof.Machine.execAcrd h st tile d row s
  | .acwr h st tile a row => Sys2Proof.Machine.execAcwr h st tile a row s
  | .mpairOn d => Sys2Proof.Machine.execMpairOn d s
  | .mpairOff => Sys2Proof.Machine.execMpairOff s
  | .mcfg sel a => Sys2Proof.Machine.execMcfg sel a s
  | .ldg h t x d a => Sys2Proof.Machine.execLdg h t x d a s
  | .stg h t x a b => Sys2Proof.Machine.execStg h t x a b s
  | .lds h t x d a => Sys2Proof.Machine.execLds h t x d a s
  | .sts h t x a b => Sys2Proof.Machine.execSts h t x a b s
  | .ldfeKeep h t x d a => Sys2Proof.Machine.execLdfeKeep h t x d a s
  | .ldfeTake h t x d a => Sys2Proof.Machine.execLdfeTake h t x d a s
  | .stfe h t x a b => Sys2Proof.Machine.execStfe h t x a b s
  | .pst h t x a b c => Sys2Proof.Machine.execPst h t x a b c s
  | .pfch h x a => Sys2Proof.Machine.execPfch h x a s
  | .drop h x a => Sys2Proof.Machine.execDrop h x a s
  | .atom h t x d a b c => Sys2Proof.Machine.execAtom h t x d a b c s
  | .fence st scope order => Sys2Proof.Machine.execFence st scope order s
  | .fencex scope order mask => Sys2Proof.Machine.execFencex scope order mask s
  | .cpy f => Sys2Proof.Machine.execCpy f s
  | .cwait st => Sys2Proof.Machine.execCwait st s
  | .spawn h a b => Sys2Proof.Machine.execSpawn h a b s
  | .tbegin h st d => Sys2Proof.Machine.execTbegin h st d s
  | .tcommit h st => Sys2Proof.Machine.execTcommit h st s
  | .tabort h code => Sys2Proof.Machine.execTabort h code s
  | .tstat h d => Sys2Proof.Machine.execTstat h d s
  | .crdV h d => Sys2Proof.Machine.execCrdV h d s
  | .cwrV h a => Sys2Proof.Machine.execCwrV h a s
  | .countedResultWrite group cls => Sys2Proof.Machine.execCountedResultWrite group cls s
  | .matrixKStep core idx => Sys2Proof.Machine.execMatrixKStep core idx s
  | .matrixCommandRetire core idx => Sys2Proof.Machine.execMatrixCommandRetire core idx s
  | .pairAgreement core idx => Sys2Proof.Machine.execPairAgreement core idx s
  | .mpairJoin teamA teamB => Sys2Proof.Machine.execMpairJoin teamA teamB s
  | .copyCommandComplete core => Sys2Proof.Machine.execCopyCommandComplete core s
  | .ldfeServe core granule => Sys2Proof.Machine.execLdfeServe core granule s
  | .takeFill group sp => Sys2Proof.Machine.execTakeFill group sp s
  | .takeDrainRelease ctx => Sys2Proof.Machine.execTakeDrainRelease ctx s
  | .groupRelease group => Sys2Proof.Machine.execGroupRelease group s
  | .irrevocableTokenGrant ctx => Sys2Proof.Machine.execIrrevocableTokenGrant ctx s
  | .graceBoost ctx => Sys2Proof.Machine.execGraceBoost ctx s
  | .graceFreePush ctx die => Sys2Proof.Machine.execGraceFreePush ctx die s
  | .graceCompletion ctx => Sys2Proof.Machine.execGraceCompletion ctx s
  | .launchBlockRead ctx slot => Sys2Proof.Machine.execLaunchBlockRead ctx slot s
  | .queuedLaunchStart ctx => Sys2Proof.Machine.execQueuedLaunchStart ctx s
  | .launchComplete ctx => Sys2Proof.Machine.execLaunchComplete ctx s
  | .binTimerExpiry core bin => Sys2Proof.Machine.execBinTimerExpiry core bin s
  | .binFire core bin => Sys2Proof.Machine.execBinFire core bin s
  | .binWaitExpiry core bin => Sys2Proof.Machine.execBinWaitExpiry core bin s
  | .ineligibleBinMove core bin => Sys2Proof.Machine.execIneligibleBinMove core bin s
  | .binSpill core bin => Sys2Proof.Machine.execBinSpill core bin s
  | .binRefill core bin => Sys2Proof.Machine.execBinRefill core bin s
  | .stealRequest ctx die entry => Sys2Proof.Machine.execStealRequest ctx die entry s
  | .stealTransfer ctx die entry => Sys2Proof.Machine.execStealTransfer ctx die entry s
  | .stealRetryTimer ctx die entry => Sys2Proof.Machine.execStealRetryTimer ctx die entry s
  | .teamMigration team => Sys2Proof.Machine.execTeamMigration team s
  | .preemptBudgetExpiry group => Sys2Proof.Machine.execPreemptBudgetExpiry group s
  | .teamSave team => Sys2Proof.Machine.execTeamSave team s
  | .teamResume ctx idx => Sys2Proof.Machine.execTeamResume ctx idx s
  | .contextSave ctx => Sys2Proof.Machine.execContextSave ctx s
  | .contextResume ctx => Sys2Proof.Machine.execContextResume ctx s
  | .sideLogReplay core idx => Sys2Proof.Machine.execSideLogReplay core idx s
  | .getS line core acq stream => Sys2Proof.Machine.execGetS line core acq stream s
  | .getM line core => Sys2Proof.Machine.execGetM line core s
  | .upg line core => Sys2Proof.Machine.execUpg line core s
  | .putM line core => Sys2Proof.Machine.execPutM line core s
  | .putO line core => Sys2Proof.Machine.execPutO line core s
  | .putE line core => Sys2Proof.Machine.execPutE line core s
  | .push line core stream => Sys2Proof.Machine.execPush line core stream s
  | .invAck line core => Sys2Proof.Machine.execInvAck line core s
  | .ownerNotice line core => Sys2Proof.Machine.execOwnerNotice line core s
  | .recallData line core => Sys2Proof.Machine.execRecallData line core s
  | .install line core => Sys2Proof.Machine.execInstall line core s
  | .refuse line core => Sys2Proof.Machine.execRefuse line core s
  | .data line core => Sys2Proof.Machine.execData line core s
  | .upgAck line core => Sys2Proof.Machine.execUpgAck line core s
  | .inv line core => Sys2Proof.Machine.execInv line core s
  | .fwdS line core => Sys2Proof.Machine.execFwdS line core s
  | .fwdM line core => Sys2Proof.Machine.execFwdM line core s
  | .fwdPub line core stream => Sys2Proof.Machine.execFwdPub line core stream s
  | .recall line core => Sys2Proof.Machine.execRecall line core s
  | .fill line core => Sys2Proof.Machine.execFill line core s
  | .putAck line core => Sys2Proof.Machine.execPutAck line core s
  | .pushDone line core stream => Sys2Proof.Machine.execPushDone line core stream s
  | .sweep line core => Sys2Proof.Machine.execSweep line core s
  | .retentionWake core => Sys2Proof.Machine.execRetentionWake core s
  | .issueAgeBound group sp => Sys2Proof.Machine.execIssueAgeBound group sp s
  | .slackTimeout req => Sys2Proof.Machine.execSlackTimeout req s
  | .directoryError line => Sys2Proof.Machine.execDirectoryError line s
  | .hostHalfData line half st => Sys2Proof.Machine.execHostHalfData line half st s
  | .launchItemWrite ctx slot size item => Sys2Proof.Machine.execLaunchItemWrite ctx slot size item s
  | .launchSlotStateWrite ctx slot val => Sys2Proof.Machine.execLaunchSlotStateWrite ctx slot val s
  | .ctxcfgValidSet ctx val => Sys2Proof.Machine.execCtxcfgValidSet ctx val s
  | .ctxcfgValidClear ctx => Sys2Proof.Machine.execCtxcfgValidClear ctx s
  | .priPageRequest => Sys2Proof.Machine.execPriPageRequest s
  | .priResponse ctx page ans => Sys2Proof.Machine.execPriResponse ctx page ans s
  | .atsCompletion ctx page m => Sys2Proof.Machine.execAtsCompletion ctx page m s
  | .atsInvalidationRequest pasid lo size => Sys2Proof.Machine.execAtsInvalidationRequest pasid lo size s
  | .invalidationCompletion => Sys2Proof.Machine.execInvalidationCompletion s
  | .snoopData line half => Sys2Proof.Machine.execSnoopData line half s
  | .snoopInvalidate line half => Sys2Proof.Machine.execSnoopInvalidate line half s
  | .snoopCurrent line half => Sys2Proof.Machine.execSnoopCurrent line half s
  | .linkLost line dest link => Sys2Proof.Machine.execLinkLost line dest link s
  | .hostLinkDown => Sys2Proof.Machine.execHostLinkDown s
  | .peerAccessRequest pa q => Sys2Proof.Machine.execPeerAccessRequest pa q s
  | .peerResponse idx ans => Sys2Proof.Machine.execPeerResponse idx ans s
  | .hostBar2Access write pa len bytes => Sys2Proof.Machine.execHostBar2Access write pa len bytes s
  | .bar0BadAccess acc size => Sys2Proof.Machine.execBar0BadAccess acc size s
  | .registerWrite off size val => Sys2Proof.Machine.execRegisterWrite off size val s
  | .counterClearWrite off val => Sys2Proof.Machine.execCounterClearWrite off val s
  | .l2quotaWrite die val => Sys2Proof.Machine.execL2quotaWrite die val s
  | .keytagWrite die idx val => Sys2Proof.Machine.execKeytagWrite die idx val s
  | .trcptrHeadWrite die val => Sys2Proof.Machine.execTrcptrHeadWrite die val s
  | .secstatClear val => Sys2Proof.Machine.execSecstatClear val s
  | .snapctlArm => Sys2Proof.Machine.execSnapctlArm s
  | .snapctlHosttrig => Sys2Proof.Machine.execSnapctlHosttrig s
  | .snapshotLatch => Sys2Proof.Machine.execSnapshotLatch s
  | .msixUnmask entry => Sys2Proof.Machine.execMsixUnmask entry s
  | .mailboxExtend mr m => Sys2Proof.Machine.execMailboxExtend mr m s
  | .mailboxAttestation nonce => Sys2Proof.Machine.execMailboxAttestation nonce s
  | .firmwareUpdate image => Sys2Proof.Machine.execFirmwareUpdate image s
  | .timeDiscipline fix offset => Sys2Proof.Machine.execTimeDiscipline fix offset s
  | .securityAlarm cause => Sys2Proof.Machine.execSecurityAlarm cause s
  | .powerOn => Sys2Proof.Machine.execPowerOn s
  | .bootStageComplete ok => Sys2Proof.Machine.execBootStageComplete ok s
  | .islandFrequencyChange island mhz => Sys2Proof.Machine.execIslandFrequencyChange island mhz s
  | .retentionEntry core => Sys2Proof.Machine.execRetentionEntry core s
  | .hostLinkRestored => Sys2Proof.Machine.execHostLinkRestored s
  | .powerRemoved => Sys2Proof.Machine.execPowerRemoved s

end Sys2Proof.Machine
end

