-- ==== Sys2Proof/Machine/Issue.lean ====
section
/-! DEFINITION. The issue of a word on a partition (R39, R40, R60, R379, R380): which splits are ready, which of them issues in the slot that
is next, how long the others have been ready, and the words in flight that go on. -/
namespace Sys2Proof.Machine

/-- The vector registers of an operand code, with the odd register of an .x64 pair. -/
def codeRegs (pair : Bool) (c : Nat) : List Nat := if 768 ≤ c then [] else if pair then [c, c + 1] else [c]
/-- The vector registers that a word reads or writes, for the scoreboard (R100): its operand fields, in pairs under TYPE .x64, but for the
words that use registers otherwise. A fragment of mloop is in no scoreboard (R243). -/
def vregsOf (allot : Nat) (i : Instr) : List Nat :=
  match i with
  | .split _ _ _ v _ => (List.range 7).map (v + ·)
  | .spawn _ a b => (List.range 7).map (a + ·) ++ codeRegs false b.code
  | .vidxRead _ _ d _ _ => d :: List.range allot
  | .vidxWrite _ _ _ _ a => codeRegs false a.code ++ List.range allot
  | .cvt _ df sf _ d a => codeRegs (df == 7) d ++ codeRegs (sf == 7) a.code
  | .xcls _ t d a => codeRegs false d ++ codeRegs (t == .x64) a.code
  | .mloop _ => []
  | .acrd _ _ _ d _ => [d, d + 1]
  | .acwr _ _ _ a _ => [a, a + 1]
  | .ldg _ t _ d a | .lds _ t _ d a | .ldfeKeep _ t _ d a | .ldfeTake _ t _ d a => codeRegs (t == .x64) d ++ codeRegs false a.code
  | .stg _ t _ a b | .sts _ t _ a b | .stfe _ t _ a b | .pst _ t _ a b _ => codeRegs false a.code ++ codeRegs (t == .x64) b.code
  | .atom _ t _ d a b c => codeRegs (t == .x64) d.code ++ codeRegs false a.code ++ codeRegs (t == .x64) b.code ++ codeRegs (t == .x64) c.code
  | i => match encodeV i with
    | none => []
    | some w => let f := VF.of w; [f.d, f.a, f.b, f.c].flatMap (codeRegs (f.ty == 7))
/-- The guard of a word (R84). -/
def guardOf (i : Instr) : VH := match encodeV i with
  | none => ⟨false, 0, 0⟩
  | some w => let f := VF.of w; ⟨f.n, f.g, f.gs⟩
/-- The scoreboard holds the word back (R100). -/
def scoreHolds (s : State) (i : Instr) : Bool := scoreHeld s (active s (guardOf i)) (vregsOf s.cg.allot i)

/-- The scalar registers of an operand code, with the odd register of an .x64 pair (R63, R82). -/
def codeScalars (pair : Bool) (c : Nat) : List Nat := if 768 ≤ c ∧ c < 896 then (if pair then [c - 768, c - 767] else [c - 768]) else []
/-- The scalar registers that a word reads, and those that it writes (R82, R100). -/
def scalarRegs : Instr → List Nat × List Nat
  | .sadd d a b | .ssub d a b | .smul d a b | .smulh d a b | .sdiv d a b | .srem d a b | .sand d a b | .sor d a b | .sxor d a b
  | .sshl d a b | .sshr d a b | .ssra d a b | .smin d a b | .smax d a b | .smulhN64 d a b | .sdivN64 d a b | .sremN64 d a b
  | .sminN64 d a b | .smaxN64 d a b | .scmp _ d a b => ([a, b], [d])
  | .ssel d a b => ([d, a, b], [d])
  | .sclz d a | .spop d a | .smov d a | .jmpx d a => ([a], [d])
  | .saddImm d a _ | .sandImm d a _ | .sorImm d a _ | .sxorImm d a _ | .sshlImm d a _ | .sshrImm d a _ | .ssraImm d a _ | .sld d a _ => ([a], [d])
  | .slih d _ => ([d], [d])
  | .sli d _ | .take _ d | .mig d _ | .gwait d | .gnum d | .clock d | .crd d _ | .mpairOn d | .call d _ => ([], [d])
  | .sst d a _ => ([d, a], [])
  | .gdefer a b => ([a, b], [])
  | .bc _ a _ | .ret a | .nbarReg a _ | .cwr a _ | .mcfg _ a | .mld _ _ a => ([a], [])
  | .split _ _ a _ _ => ([a], [])
  | .mdrn f => ([f.a], [])
  | .mloop f => ((if f.asrc then [f.a, f.a + 1] else []) ++ (if f.bsrc then [f.b, f.b + 1] else []) ++ f.c.toList, [])
  | .cpy f => ([f.dst, f.src, f.ctl], [])
  | .vbal _ d _ => ([], [d, d + 1])
  | .qmovToScalar _ d _ => ([], [d])
  | .qmovFromScalar _ _ a => ([a], [])
  | .acrd _ _ _ _ (.inr k) | .acwr _ _ _ _ (.inr k) => ([k], [])
  | .pst _ t _ a b c => (c :: [a, b].flatMap fun o => codeScalars (t == .x64) o.code, [])
  | i => match encodeV i with
    | none => ([], [])
    | some w => let f := VF.of w; ([f.a, f.b, f.c].flatMap (codeScalars (f.ty == 7)), codeScalars (f.ty == 7) f.d)
/-- A scalar whose load or atomic has issued and has not finished holds back what reads or writes it on a D-core, and nothing else (R100, R166). -/
def scalarHolds (s : State) (i : Instr) : Bool :=
  let r := scalarRegs i
  !s.isL && s.cg.pend.any fun p => p.ws.any fun w => w.kind == 4 && (r.1.contains w.key || r.2.contains w.key)

/-! S-words that go ahead of the lane queue. -/

/-- Some register other than s0 is in both lists. -/
def meet (l m : List Nat) : Bool := l.any fun k => k != 0 && m.contains k
/-- The control registers among NRM, TRAPEN and j0 to j3 that a V-word reads (R67, R72, R100). -/
def cregsRead : Instr → List Nat
  | .vidxRead _ _ _ _ _ | .vidxWrite _ _ _ _ _ => [4, 5, 6, 7]
  | .cvt _ _ _ _ _ _ | .qnt _ _ _ _ _ => [0, 1]
  | .stg _ _ _ _ _ | .sts _ _ _ _ _ | .stfe _ _ _ _ _ | .pst _ _ _ _ _ _ | .acwr _ _ _ _ _ | .acrd _ _ _ _ _ => [0]
  | .vdiv _ _ _ _ _ | .vrem _ _ _ _ _ | .dqnt _ _ _ _ _ | .vred _ _ _ _ _ => [1]
  | .xadd _ _ _ _ _ | .xsub _ _ _ _ _ | .xmul _ _ _ _ _ | .xfma _ _ _ _ _ _ | .xdiv _ _ _ _ _ | .xrecip _ _ _ _ | .xsqr _ _ _ _
  | .xsqrt _ _ _ _ | .xabs _ _ _ _ | .xneg _ _ _ _ | .xmin _ _ _ _ _ | .xmax _ _ _ _ _ | .xhull _ _ _ _ _ | .xmeet _ _ _ _ _
  | .xexp _ _ _ _ | .xexp2 _ _ _ _ | .xlog _ _ _ _ | .xlog2 _ _ _ _ | .xsin _ _ _ _ | .xcos _ _ _ _ | .xtanh _ _ _ _
  | .xmid _ _ _ _ | .xrad _ _ _ _ | .xwid _ _ _ _ | .xlo _ _ _ _ | .xhi _ _ _ _ | .xmake _ _ _ _ _ | .xcls _ _ _ _
  | .xcmp _ _ _ _ _ _ | .xbis _ _ _ _ _ _ _ => [1]
  | _ => []
/-- A V-word makes accesses, orders them, or opens or ends transactions. -/
def vAccess : Instr → Bool
  | .ldg _ _ _ _ _ | .stg _ _ _ _ _ | .lds _ _ _ _ _ | .sts _ _ _ _ _ | .ldfeKeep _ _ _ _ _ | .ldfeTake _ _ _ _ _ | .stfe _ _ _ _ _
  | .pst _ _ _ _ _ _ | .pfch _ _ _ | .drop _ _ _ | .atom _ _ _ _ _ _ _ | .fence _ _ _ | .fencex _ _ _ | .cpy _ | .cwait _ | .mloop _
  | .mrdy _ | .mwait _ _ _ | .mzero _ _ | .mld _ _ _ | .mdrn _ | .acrd _ _ _ _ _ | .acwr _ _ _ _ _ | .mpairOn _ | .mpairOff | .spawn _ _ _
  | .tbegin _ _ _ | .tcommit _ _ | .tabort _ _ => true
  | _ => false
/-- An S-word may go ahead of a queued V-word: the scoreboard sees no dependence (R100), and where both make accesses their order stands (R99,
R272). -/
def freeOf (i v : Instr) : Bool :=
  let r := scalarRegs i
  let q := scalarRegs v
  !meet r.2 q.1 && !meet r.2 q.2 && !meet r.1 q.2 &&
  (match i with
   | .cwr _ n => !(cregsRead v).contains n
   | .sld _ _ _ | .sst _ _ _ => !vAccess v
   | _ => true)
/-- S-words that neither divide nor end lanes, nor order accesses or commands: the others wait for an empty lane queue (R99, R101). -/
def aheadWord : Instr → Bool
  | .sadd _ _ _ | .ssub _ _ _ | .smul _ _ _ | .smulh _ _ _ | .sdiv _ _ _ | .srem _ _ _ | .sand _ _ _ | .sor _ _ _ | .sxor _ _ _
  | .sshl _ _ _ | .sshr _ _ _ | .ssra _ _ _ | .smin _ _ _ | .smax _ _ _ | .smulhN64 _ _ _ | .sdivN64 _ _ _ | .sremN64 _ _ _
  | .sminN64 _ _ _ | .smaxN64 _ _ _ | .scmp _ _ _ _ | .ssel _ _ _ | .sclz _ _ | .spop _ _ | .smov _ _ | .saddImm _ _ _ | .sandImm _ _ _
  | .sorImm _ _ _ | .sxorImm _ _ _ | .sshlImm _ _ _ | .sshrImm _ _ _ | .ssraImm _ _ _ | .sli _ _ | .slih _ _ | .sld _ _ _ | .sst _ _ _
  | .venq _ _ | .nop | .clock _ | .mark _ _ | .crd _ _ | .cwr _ _ | .mcfg _ _ => true
  | _ => false
/-- The V-words that a split's lane queue holds, where all of them can be read and decoded. -/
def queuedWords (s : State) (t : Team) (l : Launch) (allot : Nat) : List QEnt → Option (List Instr)
  | [] => some []
  | q :: qs => match codeRead s t (l.dlbase + 12 * q.off) 12 with
    | .ok bs => (decodeHere false true allot bs).bind fun i => (queuedWords s t l allot qs).map (i :: ·)
    | _ => none
/-- The S-word in hand may issue ahead of its split's lane queue. -/
def mayAhead (s : State) (i : Instr) : Bool :=
  aheadWord i &&
  match (teamLaunch s s.ct).bind fun l => queuedWords s s.ct l s.cg.allot s.sp.queue with
  | some vs => vs.all (freeOf i) && (txLanes s.cg s.sp.mask).isEmpty
  | none => false

/-- The order of accesses holds the word back: an acquire of its stream is still to be performed (R278); an sc load comes after the earlier sc
stores of its stream (R282); the loads that an acquire fence turns into acquires are still to be performed (R280, R281); the release that a barrier, an item or a grace word makes has to wait (R290, R353); lanes end and are filled, and lane status is read,
after the accesses of the group. A mig is a barrier of its team, whose cores see its pushes already (R275, R294); the move waits for them
(R291). -/
def orderHolds (s : State) (i : Instr) : Bool :=
  let gh := s.cur.gh
  let pushed : State := s.setCg { s.cg with pushes := [] }
  let late (st : Nat) : Bool := s.cc.late.any fun w => w.gh == gh && w.m.strm == st
  let mem (x : MemX) : Bool := acquirePending s gh x.stream || (x.order == 4 && !relReady s gh x.stream s.seq)
  match i with
  | .ldg _ _ x _ _ | .lds _ _ x _ _ | .ldfeKeep _ _ x _ _ | .ldfeTake _ _ x _ _ | .stg _ _ x _ _ | .sts _ _ x _ _ | .stfe _ _ x _ _
  | .pst _ _ x _ _ _ | .atom _ _ x _ _ _ _ => mem x
  | .sld _ _ _ | .sst _ _ _ => acquirePending s gh s.cg.dstrm
  | .fence st _ o => acquires o && late st
  | .fencex _ o m => acquires o && (List.range 16).any fun st => m.getLsbD st && late st
  | .nbarImm _ _ | .nbarReg _ _ | .tbar | .qbar _ | .spawn _ _ _ | .split _ _ _ _ _ | .gwait _ | .gdefer _ _ | .gnum _ => !relReadyAll s gh
  | .mig _ _ => !relReadyAll pushed gh
  | .take _ _ | .done | .exit | .crdV _ _ | .cwrV _ _ => lateWords s gh
  | _ => false

/-- The word cannot issue yet: a register of it is pending, or an access comes first. A word in flight has issued already. -/
def wordHolds (flies : Bool) (s : State) (i : Instr) : Bool := !flies && (scoreHolds s i || scalarHolds s i || orderHolds s i)

/-- A try of a word of a split: it executes. Where it cannot issue, the try is taken back; where it issues and its merge has met a bad spill
entry, the fault of that entry stands (R44). -/
def tryAt (s : State) (gh k : Nat) (ahead : Bool) : Out :=
  match fetch s gh k ahead with
  | .ended t => .next (if t.cur.held then unissue s t gh else t)
  | .word i t bad =>
    if wordHolds (inFlight (s.splitAt (gh, k))) t i then .next (unissue s (retry t) gh)
    else
      match exec i t with
      | .next u => .next (if u.cur.held then unissue s u gh else bad.getD u)
      | r => r
/-- The word in flight of a split is one of its scalar stream. -/
def scalarFlies (p : Split) : Bool := p.mem.any (·.sw)
/-- An S-word of a split goes ahead of its lane queue, where it depends on no queued word and neither faults nor traps (R99, R100). -/
def aheadOf (s : State) (gh k : Nat) : Option Out :=
  match fetch s gh k true with
  | .ended _ => none
  | .word i t _ =>
    if !mayAhead t i then none
    else
      match tryAt s gh k true with
      | .next u => if u.cur.held || !(u.groups.any fun e => e.1 == gh) || (u.grp gh).frame != (s.grp gh).frame then none else some (.next u)
      | r => some r
/-- A try of a split: the word at the head of its lane queue, else of its scalar stream; where a queued V-word cannot issue, the S-word behind it
may (R99, R100). -/
def tryWord (s : State) (gh k : Nat) : Out :=
  let p := s.splitAt (gh, k)
  match tryAt s gh k (scalarFlies p) with
  | .next u =>
    if u.cur.held && !(s.team (s.grp gh).team).isL && !p.queue.isEmpty && !inFlight p then (aheadOf u gh k).getD (.next u) else .next u
  | r => r

/-- The word of a split can issue (R379): its try does not end held. -/
def canIssue (s : State) (c : Nat × Nat) : Bool := match tryWord s c.1 c.2 with
  | .next u => !u.cur.held
  | _ => true

/-- The splits of a partition whose next word can issue. -/
def readyOn (s : State) (core part : Nat) : List (Nat × Nat) := (candidates s core part).filter (canIssue s)

/-- The split is the one that slot 0 issued in this cycle, or a part of it. -/
def inSlot0 (s : State) (core part : Nat) (c : Nat × Nat) : Bool :=
  let x := mget (0, 0) (s.core core).slot part
  x.1 == c.1 && (s.splitAt c).mask &&& x.2 != 0

/-- The choices of slot 1 (R16, R379): the ready splits whose word can issue beside slot 0's, on a D-core none that slot 0 has issued from. Which
words can, the spec leaves to the device: a free choice for each. -/
def slot1 (s : State) (core part : Nat) (ready : List (Nat × Nat)) : List (Nat × Nat) :=
  if mget (0, 0) (s.core core).slot part = (0, 0) then []
  else ready.filter fun c => Config.freeHalf s.free 3 (c.1 * 4 + c.2) 0 && (coreIsL core || !inSlot0 s core part c)

/-- What issues next on a partition: the split, and whether it issues in slot 1. -/
def issueChoice (s : State) (core part : Nat) : Option ((Nat × Nat) × Bool) :=
  let ready := readyOn s core part
  match bestOf s (slot1 s core part ready) with
  | some c => some (c, true)
  | none => (bestOf s ready).map fun c => (c, false)

/-- A cycle of the partition in which another split issued in slot 0: a ready split has waited one cycle more, any other is not ready (R379). -/
def ageSplits (ready : List (Nat × Nat)) (gh : Nat) (g : Group) : Group :=
  { g with splits := ((List.range g.splits.length).zip g.splits).map fun (e : Nat × Split) =>
      if ready.contains (gh, e.1) then { e.2 with age := e.2.age + 1 } else { e.2 with age := 0, aged := false } }
/-- The partition's splits age, and slot 1 of the cycle is next; after slot 1 a new cycle begins. -/
def startCycle (s : State) (core part : Nat) (ready : List (Nat × Nat)) (c : (Nat × Nat) × Bool) : State :=
  let k := s.core core
  -- the groups that are ready, for the slack tags of requests (R382)
  let rdy := mset 0 k.rdy part (ready.map Prod.fst).eraseDups.length
  if c.2 then s.setCore core { k with slot := mset (0, 0) k.slot part (0, 0), rdy := rdy }
  else
    let s1 := { s with groups := s.groups.map fun (e : Nat × Group) =>
      if (s.team e.2.team).core = core ∧ e.2.part = part then (e.1, ageSplits ready e.1 e.2) else e }
    s1.setCore core { k with slot := mset (0, 0) k.slot part (c.1.1, (s.splitAt c.1).mask), rdy := rdy }

/-- An issue on a partition: the split of R379 and R40 issues its word, and the cycle goes on. -/
def issueOn (s : State) (core part : Nat) : Out :=
  match issueChoice s core part with
  | none => .next s
  | some c => tryWord (startCycle s core part (readyOn s core part) c).draw c.1.1 c.1.2

/-- The partitions that hold groups: core and number. -/
def partitions (s : State) : List (Nat × Nat) := (s.groups.map fun e => ((s.team e.2.team).core, e.2.part)).eraseDups
/-- The partition on which an issue comes next where the agenda names none: of those with a ready split, the one whose last issue is oldest. -/
def pickPart (s : State) : Option (Nat × Nat) :=
  leastBy (fun c => [((mget (0 : Nat) (s.core c.1).lastt c.2 : Nat) : Int)]) ((partitions s).filter fun c => !(readyOn s c.1 c.2).isEmpty)

/-- A state without its counters. -/
def stripped (s : State) : State := { s with free := 0, seq := 0, cur := Cur.init, io := { s.io with time := 0 } }
/-- The outcome is a next state that differs in more than counters. -/
def changes (s : State) : Out → Bool
  | .next t => decide (stripped t ≠ stripped s)
  | _ => false

/-- A split's instruction in flight goes on, or a word that cannot issue asks for what it waits for. -/
def driveDue (s : State) (c : Nat × Nat) : Bool :=
  let g := s.grp c.1
  let p := s.splitAt c
  groupHere s g && splitMay g p &&
    (if inFlight p then changes s (tryWord s c.1 c.2) else groupMay s g && splitReady g p && !canIssue s c && changes s (tryWord s c.1 c.2))
/-- The first split with an instruction in flight, or a request to make, that moves. -/
def pickDrive (s : State) : Option (Nat × Nat) :=
  (s.groups.flatMap fun e => (List.range e.2.splits.length).map fun k => (e.1, k)).find? (driveDue s)
/-- A split's instruction in flight goes on (R322, R344, R449). -/
def driveOn (s : State) (gh k : Nat) : Out := if driveDue s (gh, k) then tryWord s gh k else .next s

end Sys2Proof.Machine
end

