-- ==== Sys2Proof/Machine/Late.lean ====
section
/-! DEFINITION. Accesses performed later than their word issues (R274, R275, R293): plain loads and stores that issue and leave their accesses to
be performed lane by lane, and in 8-byte halves, in any order that the rules admit; and the words that the order of accesses holds back. -/
namespace Sys2Proof.Machine

/-! Issue. -/

/-- A plain load or store as it issues: the state after its checks, its access, and the registers that a load writes. None for any other
word. -/
def lateStart (i : Instr) (s : State) : Option (Except State (State × LateW) × List Nat) :=
  let w (m : MemW) (sw store : Bool) (t : Ty) (form hint d : Nat) (n : Bool) : LateW :=
    ⟨s.cur.gh, sw, store, t, form, hint, d, n, m, [], [], [], wordPlace s⟩
  let plain (x : MemX) : Bool := x.order == 0 && x.hint != 1
  match i with
  | .ldg h t x d a => if plain x then some ((ldStart h t x d a s).map fun r => (r.1, w r.2 false false t x.form x.hint d h.n), destRegs t d) else none
  | .lds h t x d a => if plain x then some ((ldsStart h t x d a s).map fun r => (r.1, w r.2 false false t x.form x.hint d h.n), destRegs t d) else none
  | .stg h t x a b => if plain x then some ((stStart s h t x a b 0).map fun r => (r.1, w r.2 false true t x.form x.hint 0 false), []) else none
  | .sts h t x a b => if plain x then some ((spStart true h t x a b s).map fun r => (r.1, w r.2 false true t x.form x.hint 0 false), []) else none
  | .sld d a k => some ((sldStart d a k s).map fun r => (r.1, w r.2 true false .b64 0 0 d false), [d])
  | .sst d a k => some ((sStart true s a k (s.rS d)).map fun r => (r.1, w r.2 true true .b64 0 0 0 false), [])
  | _ => none

/-- The accesses of a word may wait: no lane of it is in a transaction, no release fence makes its store a release, and each address lies on a
page at hand in device or host memory, or in the team's own allocation. -/
def lateMay (s : State) (w : LateW) : Bool :=
  let ls := lanesOf w.m.act
  !ls.isEmpty && (lanesOf s.sp.mask).all (fun l => !(txOf s.cg l).active) &&
  ls.all fun l =>
    (!w.store || (fenceScope s.cg w.m.strm (agentOf w.sw l)).isNone) &&
    if w.m.sp then
      (match spCheck s s.ct (formBytes w.ty w.form) (w.m.va l) with
       | .at_ c _ => c == s.ct.core
       | _ => false)
    else
      (match xlate s s.ct.ctx s.ct.core (w.m.va l) w.store with
       | .hit loc => !isPeer loc
       | _ => false)

/-- A load's registers have a write pending whose value is not formed yet (R94, R96, R100). -/
def latePend (s : State) (w : LateW) (rs : List Nat) : State :=
  let ws : List PW :=
    if w.sw then rs.map fun d => ⟨4, d, 0, false⟩
    else if w.n then [] else rs.flatMap fun r => (lanesOf w.m.act).map fun l => ⟨3, r * 32 + l, 0, false⟩
  let g := s.cg
  if w.store then s else s.setCg { g with pend := g.pend.map fun p => if p.id = w.m.id then { p with ws := ws } else p }

/-- The word issues and its accesses wait; none where it is not such a word, or its accesses may not wait. -/
def lateIssue (i : Instr) (s : State) : Option State :=
  match lateStart i s with
  | some (.ok (s1, w), rs) =>
    if lateMay s1 w then
      let s2 := if w.store then satLanes w.ty w.form s1 w.m else latePend s1 w rs
      some ((s2.setCore s2.ct.core { s2.cc with late := s2.cc.late ++ [w] }).tick)
    else none
  | _ => none

/-- A partition issues as R379 says; the accesses of the word wait where they may. -/
def lateOn (s : State) (core part : Nat) : Out :=
  match issueChoice s core part with
  | none => .next s
  | some c =>
    let t := (startCycle s core part (readyOn s core part) c).draw
    match fetch t c.1.1 c.1.2 false with
    | .word i u bad =>
      if wordHolds (inFlight (t.splitAt c.1)) u i then tryWord t c.1.1 c.1.2
      else
        match lateIssue i u with
        | some v => .next (bad.getD v)
        | none => tryWord t c.1.1 c.1.2
    | .ended _ => tryWord t c.1.1 c.1.2

/-! Performing. -/

/-- Bytes of one access of a word: an access of 16 bytes is two of 8 (R293). -/
def LateW.size (w : LateW) : Nat := min 8 (formBytes w.ty w.form)
/-- A half's name among accesses that wait for their pages (R430). -/
def LateW.who (w : LateW) (lane half : Nat) : List Nat := [2, w.m.id, lane, half]
/-- Its halves. -/
def LateW.halves (w : LateW) : Nat := if formBytes w.ty w.form = 16 then 2 else 1
/-- A lane's half comes next: it is still to be performed; no earlier access to the lane's bytes is, by the group on the stream, late or in the
side log, or by a group that it has synchronised with; nor any of a lower lane of the word (R275, R276, R285, R289). -/
def lateNext (c : CoreSt) (k : Nat) (w : LateW) (lane half : Nat) : Bool :=
  let n := formBytes w.ty w.form
  let va := w.m.va lane
  inMask w.m.act lane && !inMask w.m.got lane && decide (half < w.halves) && !w.did.contains (lane * 2 + half) &&
  ((c.late.take k).all fun e => !((e.gh == w.gh && e.m.strm == w.m.strm) || (w.m.sp && e.sync.contains w.gh)) || !e.meets w.m.sp va n) &&
  (w.m.sp || !logMeets c w.gh w.m.strm w.m.id va n) &&
  w.m.rest.all fun l => decide (lane ≤ l) || decide (w.m.va l + n ≤ va) || decide (va + n ≤ w.m.va l)

/-- A load is done: its elements stand where its counter's rules let them be written (R94, R95, R100). -/
def lateLoaded (s : State) (w : LateW) : State :=
  let raw (l : Nat) : Nat := (mget 0 w.m.vals (l * 2)).toNat + (mget 0 w.m.vals (l * 2 + 1)).toNat * 2 ^ 64
  let vs := (lanesOf w.m.act).map fun l => (l, loadForm w.ty w.form (raw l))
  let g := s.grp w.gh
  let val (key : Nat) : Word64 :=
    if w.sw then (loadForm w.ty w.form (raw 0)).1
    else ((loadRes w.ty w.d vs).findSome? fun r => if key / 32 = r.1 then (r.2.find? fun v => v.1 == key % 32).map Prod.snd else none).getD 0
  let formed (p : PW) : PW := { p with kind := if p.kind = 3 then 0 else if p.kind = 4 then 1 else p.kind, val := val p.key }
  let g1 := (if w.sw then g else g.orSts bNAI ((vs.filter fun v => v.2.2.2).map Prod.fst))
  let g2 := { g1 with pend := g1.pend.map fun p => if p.id = w.m.id then { p with wait := false, ws := p.ws.map formed } else p }
  let s1 := s.setGrp w.gh g2
  if (s.team g.team).isL then (if w.sw then s1 else (loadRes w.ty w.d vs).foldl (fun s r => fillLatch s w.gh w.m.id r) s1)
  else
    match g2.pend.find? fun p => p.id == w.m.id with
    | some p => dropPend (s1.setGrp w.gh (p.ws.foldl (writePW s.free) g2)) w.gh w.m.id
    | none => s1

/-- A half has been performed: the word is done with its last one. -/
def lateDid (s : State) (core k : Nat) (w : LateW) (lane half : Nat) (v : Word64) : State :=
  let did := (lane * 2 + half) :: w.did
  let full := (List.range w.halves).all fun h => did.contains (lane * 2 + h)
  let m := { w.m with vals := mset 0 w.m.vals (lane * 2 + half) v, got := if full then w.m.got ||| (1#32 <<< lane) else w.m.got }
  let w1 := { w with did := did, m := m }
  let s := endTries s (s.team (s.grp w.gh).team).ctx core (w.who lane half)
  let c := s.core core
  if m.rest.isEmpty then
    let s1 := s.setCore core { c with late := dropAt c.late k }
    if w.store then s1 else lateLoaded s1 w1
  else s.setCore core { c with late := setAt c.late k w1 }

/-- A fault of an access performed late: its word's place (R446, R455). -/
def lateFault (s : State) (w : LateW) (code detail lane : Nat) : State :=
  fatalCtx s (s.team (s.grp w.gh).team).ctx w.org code detail (w.m.va lane) (if w.sw then 0 else 1#32 <<< lane)

/-- One half of a lane's access is performed, or its line is asked for. -/
def performOn (s : State) (core k lane half : Nat) : State :=
  let c := s.core core
  match c.late[k]? with
  | none => s
  | some w =>
    if !lateNext c k w lane half then s
    else
      let n := w.size
      let va := w.m.va lane + 8 * half
      let bs := ((stBytes w.ty w.form w.m lane).1.drop (8 * half)).take n
      let ctx := (s.team (s.grp w.gh).team).ctx
      if w.m.sp then
        let off := va % 2 ^ 21
        if w.store then lateDid (s.setCore core (c.wrSp off bs)) core k w lane half 0
        else if c.spPoison off n then lateFault s w POISON 0 lane
        else lateDid s core k w lane half (BitVec.ofNat 64 (c.rdSp off n))
      else
        let waits (un : Bool) : State := match waitPage s ctx core va w.store (w.who lane half) un with
          | .ok s1 => s1
          | .error d => lateFault s w TRANSLATION_DENIED d lane
        match xlate s ctx core va w.store with
        | .miss => waits false
        | .unmapped => waits true
        | .prot d => lateFault s w PROTECTION d lane
        | .hit loc =>
          let acc := accOf s ctx va loc n w.hint 0 w.m.strm
          if w.store then
            (match stAt s w.gh (agentOf w.sw lane) core loc ⟨w.m.strm, 0, 0, w.hint, w.form, 0⟩ acc bs with
             | .ok s1 => lateDid s1 core k w lane half 0
             | .error s1 => s1)
          else
            (match ldAt s (w.gh, lane) core loc n false acc with
             | .error s1 => s1
             | .ok (s1, v, bad) => if bad then lateFault s1 w POISON 0 lane else lateDid s1 core k w lane half (BitVec.ofNat 64 v))

/-- The accesses performed late, of every core: core, word, lane, half. -/
def lateMoves (s : State) : List (Nat × Nat × Nat × Nat) :=
  s.cores.flatMap fun e => (List.range e.2.late.length).flatMap fun k => match e.2.late[k]? with
    | none => []
    | some w => w.m.rest.flatMap fun l => ((List.range w.halves).filter fun h => lateNext e.2 k w l h).map fun h => (e.1, k, l, h)
/-- The first of them that changes something. -/
def pickLate (s : State) : Option (Nat × Nat × Nat × Nat) :=
  (lateMoves s).find? fun c => changes s (.next (performOn s c.1 c.2.1 c.2.2.1 c.2.2.2))

end Sys2Proof.Machine
end

