-- ==== Sys2Proof/Machine/Auto.lean ====
section
/-! DEFINITION. Which internal event of the device moves next when the agenda names none: the first that the state admits and that changes
something, in a fixed order. Any other order is reached through the agenda. -/
namespace Sys2Proof.Machine

/-- The event by which a message in flight is received. -/
def msgEvent (m : Msg) : Option Instr := match m.kind with
  | .getS acq st => some (.getS m.line m.core acq st)
  | .getM => some (.getM m.line m.core)
  | .upg => some (.upg m.line m.core)
  | .putM => some (.putM m.line m.core)
  | .putO => some (.putO m.line m.core)
  | .putE => some (.putE m.line m.core)
  | .push st _ _ _ _ _ _ => some (.push m.line m.core st)
  | .data _ => some (.data m.line m.core)
  | .upgAck => some (.upgAck m.line m.core)
  | .inv => some (.inv m.line m.core)
  | .fwdS _ => some (.fwdS m.line m.core)
  | .fwdM _ => some (.fwdM m.line m.core)
  | .fwdPub st _ => some (.fwdPub m.line m.core st)
  | .recall => some (.recall m.line m.core)
  | .fill _ => some (.fill m.line m.core)
  | .putAck => some (.putAck m.line m.core)
  | .pushDone st _ _ => some (.pushDone m.line m.core st)
  | .sweep => some (.sweep m.line m.core)
  | .half _ _ => none
  | .invAck => some (.invAck m.line m.core)
  | .notice _ _ => some (.ownerNotice m.line m.core)
  | .recallData _ => some (.recallData m.line m.core)
  | .install => some (.install m.line m.core)
  | .refuse => some (.refuse m.line m.core)

/-- A message takes a line from a core. -/
def isProbe : MKind → Bool
  | .inv | .fwdS _ | .fwdM _ | .fwdPub _ _ | .recall | .sweep => true
  | _ => false
/-- An access on the core waits for the line and is about to be tried again: the probe comes after it. -/
def probeWaits (s : State) (m : Msg) : Bool :=
  isProbe m.kind && ((s.core m.core).l1.any fun l => l.line == m.line && !l.sbytes.isEmpty) &&
  s.groups.any fun e => (s.team e.2.team).core == m.core && groupHere s e.2 && e.2.splits.any fun p => p.mem.isSome && splitMay e.2 p

/-- The contexts that are valid. -/
def liveCtxs (s : State) : List Nat := (List.range 64).filter (ctxValid s)
/-- Events of a core's engines and side log. -/
def engineEvents (e : Nat × CoreSt) : List Instr :=
  (if e.2.ret then [.retentionWake e.1] else []) ++ (e.2.waits.map fun w => .ldfeServe (w.granule / 2 ^ 17) (w.granule % 2 ^ 17)) ++
  ((List.range e.2.mq.length).flatMap fun k => [.matrixCommandRetire e.1 k, .pairAgreement e.1 k, .matrixKStep e.1 k]) ++
  (if e.2.cq.isEmpty then [] else [.copyCommandComplete e.1]) ++ (List.range e.2.slog.length).map fun k => .sideLogReplay e.1 k
/-- Events of a group. -/
def groupEvents (e : Nat × Group) : List Instr :=
  (((List.range e.2.splits.length).filter fun k => let p := nthD Split.init e.2.splits k; decide (64 ≤ p.age) && !p.aged).map fun k =>
    .issueAgeBound e.1 k) ++
  ((e.2.pend.map (·.cls)).eraseDups.map fun c => .countedResultWrite e.1 c) ++
  (if e.2.retired then [.groupRelease e.1] else (List.range e.2.splits.length).filterMap fun k => match (nthD Split.init e.2.splits k).hold with
    | .take _ _ _ => some (.takeFill e.1 k)
    | _ => none)
/-- Events of a context. -/
def ctxEvents (s : State) (c : Nat) : List Instr :=
  [.irrevocableTokenGrant c, .takeDrainRelease c] ++ ((ctxDies s c).map fun d => .graceFreePush c d) ++ [.graceCompletion c] ++
  (((s.ctx c).slots.filter fun x => x.2.wait).map fun x => .launchBlockRead c x.1) ++ [.queuedLaunchStart c, .launchComplete c] ++
  (if ctxState s c = 1 then [.contextSave c] else if ctxState s c = 3 then [.contextResume c] else
    (List.range (s.ctx c).saves.length).map fun k => .teamResume c k)
/-- Events of a context's bins. -/
def binEvents (s : State) (c : Nat) : List Instr :=
  match running s c with
  | none => []
  | some r =>
    (ctxCores s c).flatMap fun k => (List.range 16).flatMap fun b =>
      if (r.2.row b).used then
        (if binCount (s.bin k b) = 0 then [] else [.binFire k b, .binSpill k b, .ineligibleBinMove k b]) ++
        if (listOf s (dieOf k) c b).isEmpty then [] else [.binRefill k b]
      else []
/-- Events of a team. -/
def teamEvents (s : State) (e : Nat × Team) : List Instr :=
  (if e.2.moving then [.teamMigration e.1] else []) ++ (if (preempted s e.2 || !(s.ctx e.2.ctx).saves.isEmpty) && !e.2.saved then [.teamSave e.1] else []) ++
  s.teams.filterMap fun f => if f.1 != e.1 && f.2.core == partnerCore e.2.core then some (.mpairJoin e.1 f.1) else none
/-- The internal events that may be due, in order. -/
def promptEvents (s : State) : List Instr :=
  s.groups.flatMap groupEvents ++ ((s.net.filter fun m => !probeWaits s m).filterMap msgEvent) ++ s.cores.flatMap engineEvents ++
  [.priPageRequest, .invalidationCompletion] ++ s.teams.flatMap (teamEvents s) ++ (liveCtxs s).flatMap (ctxEvents s) ++ (liveCtxs s).flatMap (binEvents s) ++
  (match s.io.trig with
   | some (t, _) => if t ≤ s.io.time then [.snapshotLatch] else []
   | none => [])
/-- Events that a time limit brings about: tried where nothing else moves, and at every 64th order number. -/
def timerEvents (s : State) : List Instr :=
  (if s.io.trig.isSome then [.snapshotLatch] else []) ++ (liveCtxs s).flatMap fun c =>
    (match running s c with
     | none => []
     | some _ =>
       ((ctxCores s c).flatMap fun k => (List.range 16).flatMap fun b =>
         if binCount (s.bin k b) = 0 then [] else [Instr.binTimerExpiry k b, .binWaitExpiry k b]) ++
       (ctxDies s c).flatMap fun d => (List.range 16).flatMap fun b => [Instr.stealTransfer c d b, .stealRequest c d b, .stealRetryTimer c d b]) ++
    [Instr.graceBoost c] ++
    (s.groups.filter fun e => (s.team e.2.team).ctx == c && preempted s (s.team e.2.team)).map fun e => .preemptBudgetExpiry e.1

/-- The event comes about in the state and changes it. -/
def isDue (s : State) (i : Instr) : Bool := changes s (exec i s.draw.tick)

/-- The first internal event that is due. -/
def autoEvent (s : State) : Option Instr :=
  match (promptEvents s).find? (isDue s) with
  | some i => some i
  | none => if s.seq % 64 == 0 then (timerEvents s).find? (isDue s) else none

/-- What moves next where the agenda names nothing: the first internal event that is due, a grant of a request, an item that enters its bin, an access still to be performed, a word in flight, an
issue, an event that a time limit brings about; none where nothing moves. -/
def autoMove (s : State) : Option Move :=
  match autoEvent s with
  | some i => some (.ev i)
  | none =>
    match pickGrant s, pickLand s, pickLate s.draw.tick, pickDrive s.draw.tick with
    | some a, _, _, _ => some (.grant a.1 a.2.1 a.2.2)
    | none, some a, _, _ => some (.land a.1 a.2)
    | none, none, some c, _ => some (.perform c.1 c.2.1 c.2.2.1 c.2.2.2)
    | none, none, none, some c => some (.drive c.1 c.2)
    | none, none, none, none =>
      match pickPart s.draw.tick with
      | some c => some (.issue c.1 c.2)
      | none => ((timerEvents s).find? (isDue s)).map .ev

end Sys2Proof.Machine
end

