-- ==== Sys2Proof/Machine/Errors.lean ====
section
/-! DEFINITION. Uncorrectable errors in data, tags and state (R453, R454): where they stand, and what becomes poison. -/
namespace Sys2Proof.Machine

/-- The units of 16 bytes that an error at a location marks: the one that was read, or all of the line where the error is in its tag or state
(R453). -/
def errorUnits (whole : Bool) (loc : Nat) : List Nat := if whole then (List.range 8).map (8 * lineOf loc + ·) else [loc / 16]

/-! Pool items. -/

/-- Where an item of a bin stands in its core's scratchpad: DESIGN CHOICE (log 86), since R368 gives the sizes of bins and banks and no layout. The
pool of a core ends with its scratchpad; bins follow one another, then banks, then items. -/
def itemPlace (l : Launch) (e k j : Nat) : Nat := 0x180000 - l.pool + e * (l.pool / 16) + k * (l.pool / 128) + 64 * j
/-- Poison in an item, at an address. -/
def PoolItem.marked (i : PoolItem) (a : Nat) : PoolItem := { i with pois := some (i.pois.getD a) }
/-- The item of a bin of a core that lies in a granule of its pool becomes poison. -/
def poisonPool (s : State) (l : Launch) (core granule : Nat) : State :=
  let o := 16 * granule + l.pool - 0x180000
  let e := o / (l.pool / 16)
  let k := o % (l.pool / 16) / (l.pool / 128)
  let j := o % (l.pool / 128) / 64
  let b := s.bin core e
  match (bankOf b k)[j]? with
  | some i => s.setBin core e (setBank b k (setAt (bankOf b k) j (i.marked (itemPlace l e k j))))
  | none => s
/-- The item of a batch in a backing region of a running launch that lies at a location becomes poison (R374; log 11 names its place). -/
def poisonBatch (s : State) (loc : Nat) : State :=
  match (List.range 64).findSome? fun c => ((ctxDies s c).find? fun d =>
      (running s c).isSome && decide (backBase s d c + 2 ^ 20 ≤ loc) && decide (loc < backBase s d c + 2 ^ 20 + 2048 * batches s d c)).map fun d => (c, d) with
  | none => s
  | some (c, d) =>
    let n := (loc - backBase s d c - 2 ^ 20) / 2048
    let j := loc % 2048 / 64
    -- batch n, counted through the lists of the context's entries
    let r := ((s.die d).lists.filter fun e => e.1 / 16 == c).foldl (fun (r : State × Nat) e =>
      if decide (r.2 ≤ n) && decide (n < r.2 + e.2.length) then
        let b := nthD [] e.2 (n - r.2)
        (match b[j]? with
         | some i => setList r.1 d c (e.1 % 16) (setAt e.2 (n - r.2) (setAt b j (i.marked loc)))
         | none => r.1, r.2 + e.2.length)
      else (r.1, r.2 + e.2.length)) (s, 0)
    r.1

/-- A read meets an uncorrectable error: what it has read becomes poison, and its die counts it (R453, R454). unit as ERRSTAT names it, plus 16 for a
tag or state field, which marks the whole line; a and b name the place: 1 location and core, 2 core and granule, 3 group and register element, 4
team and tile element, 5 and 7 location, 8 core and entry; 9 is a write of the next fault record of context a (R445). An error in a clean line of an
L1 marks that copy; in the line of an L2 it marks the line (DEDUCED, log 87). -/
def hardError (unit a b : Nat) (s : State) : State :=
  let u := unit % 16
  let units := errorUnits (decide (16 ≤ unit)) a
  let mark (die : Nat) : State := { countUe s die u with poison := units.foldl (fun p k => mset false p k true) s.poison }
  match u with
  | 1 =>
    (match l1Find (s.core b) (lineOf a) with
     | none => s
     | some x =>
       if x.st.dirty then mark (dieOf b)
       else (countUe s (dieOf b) 1).setCore b (l1SetLine (s.core b) { x with pois := x.pois ++ units.filter fun k => !x.pois.contains k }))
  | 2 =>
    if coreExists s.part a && decide (b < 0x18000) then
      match (dieCtx s (dieOf a)).bind (running s) with
      | some (_, l) =>
        if 0x180000 - l.pool ≤ 16 * b then poisonPool (countUe s (dieOf a) 2) l a b
        else (countUe s (dieOf a) 2).setCore a { s.core a with spois := mset false (s.core a).spois b true }
      | none => (countUe s (dieOf a) 2).setCore a { s.core a with spois := mset false (s.core a).spois b true }
    else s
  | 3 =>
    let g := s.grp a
    if decide (b < 32 * g.allot) && s.groups.any (fun e => e.1 == a) then
      (countUe s (dieOf (s.team g.team).core) 3).setGrp a { g with vpois := mset false g.vpois b true }
    else s
  | 4 =>
    let t := s.team a
    if decide (b < 4096 * t.ntiles) && !t.gone && !t.saved then (countUe s (dieOf t.core) 4).setTeam a { t with tpois := mset false t.tpois b true } else s
  | 5 => if (s.die (homeDie a)).l2.any (fun x => x.line == lineOf a) then poisonBatch (mark (homeDie a)) a else s
  | 7 => if isDev a then poisonBatch (mark (homeDie a)) a else s
  | 8 =>
    let c := s.core a
    (match c.slog[b]? with
     | some e => (countUe s (dieOf a) 8).setCore a { c with slog := setAt c.slog b { e with pois := (unitsOf e.bytes).map (16 * ·) } }
     | none => s)
  | 9 => if a < 64 then { countUe s (homeDie (fld (s.reg (rFQBASE a)) 63 12 * 4096)) 7 with io := { s.io with recErr := s.io.recErr ++ [a] } } else s
  | _ => s

end Sys2Proof.Machine
end

