-- ==== Sys2Proof/Machine/Step.lean ====
section
/-! DEFINITION. One step of the machine: what the agenda names, else what moves of its own accord: the first internal event that is due, a word
in flight, an issue by R379 and R40; else nothing moves. -/
namespace Sys2Proof.Machine

/-- One move, with a fresh order number and a fresh free value. -/
def runMove (m : Move) (s : State) : Host.Outcome State Fault Refusal :=
  match m with
  | .ev i => exec i s.draw.tick
  | .issue core part => issueOn s.draw.tick core part
  | .drive gh k => driveOn s.draw.tick gh k
  | .late core part => lateOn s.draw.tick core part
  | .perform core k lane half => .next (performOn s.draw.tick core k lane half)
  | .granule core k => granuleAhead core k s.draw.tick
  | .land core k => .next (landOn s.draw.tick core k)
  | .grant die stop loop => grantReq (die, stop, loop) s.draw.tick
  | .softError die => .next (if die < 8 then correctedError s.draw.tick die else s)
  | .hardError unit a b => .next (hardError unit a b s.draw.tick)
  | .hostRead off size => hostReads off size s
  | .reading island limit value mhz => takeReading island limit value mhz s

def step (s : State) : Host.Outcome State Fault Refusal :=
  match s.agenda with
  | m :: rest => runMove m { s with agenda := rest }
  | [] =>
    match autoMove s with
    | some m => runMove m s
    | none => .next s

/-- s with an instruction stored where the next step fetches: on an L-core, or on a D-core where only the D-encoding has it (R98). -/
def State.withFetchWord (s : State) (nbits w : Nat) : State :=
  placeWord s (tableBytes (w % 2 ^ nbits))
    (match decodeTableWord nbits w with
     | some (.venq _ _) => false
     | _ => true)

end Sys2Proof.Machine
end

