-- ==== Sys2Proof/Safety.lean ====
section
/-! DEFINITION. What counts as a safe run, and the terms in which statements about the machine are made: what a step leaves unchanged, what
an operand reads as, and when a word finds its operands ready. -/
namespace Sys2Proof.Machine

/-- A step is safe where the machine goes on. -/
def Safe (s : State) : Prop := ∃ t, step s = .next t

/-- A meaning answers this next state. -/
def Goes (o : Out) (t : State) : Prop := o = .next t

/-- Every byte of the memory that the device holds or shares with its host reads as before; what a peer device's memory holds is the peer's
(R509). -/
def SameMem (s t : State) : Prop := ∀ a, isPeer a = false → t.rdByte a = s.rdByte a

/-- Nothing outside the executing group has changed: memory, poison marks, host registers, contexts, dies, cores, teams, directory, messages
and the other groups are as before. -/
def OnlyGroup (s t : State) : Prop :=
  t = { s with seq := t.seq, groups := t.groups } ∧ ∀ i, i ≠ s.cur.gh → t.grp i = s.grp i

/-- Nothing outside the executing group has changed, but for the bypass latches of its core (R65). -/
def OnlyVector (s t : State) : Prop :=
  t = { s with seq := t.seq, groups := t.groups, cores := t.cores } ∧ (∀ c, t.core c = { s.core c with latch := (t.core c).latch }) ∧
  ∀ i, i ≠ s.cur.gh → t.grp i = s.grp i

/-- A scalar register as it stands in the group, before any counted write that is still to come; s0 reads as zero (R63). -/
def Group.sreg (g : Group) (k : Nat) : Word64 := if k = 0 then 0 else mget 0 g.s k
/-- A vector register element as it stands in the group. -/
def Group.velem (g : Group) (r l : Nat) : Word64 := mget 0 g.v (r * 32 + l)
/-- A predicate element as it stands in the group, two bits. -/
def Group.qelem (g : Group) (p l : Nat) : Nat := fld (mget 0 g.q p) (2 * l + 1) (2 * l)

/-- Only scalar registers of the group differ, and the marks on writes that are still to come (R96). -/
def OnlyScalars (g g' : Group) : Prop := g' = { g with s := g'.s, pend := g'.pend }
/-- Only vector registers, their poison marks, the latch tags, the status words and the marks on writes to come differ. -/
def OnlyVecs (g g' : Group) : Prop := g' = { g with v := g'.v, pend := g'.pend, vpois := g'.vpois, tags := g'.tags, status := g'.status }
/-- Only predicates, the status words and the marks on writes to come differ. -/
def OnlyPreds (g g' : Group) : Prop := g' = { g with q := g'.q, pend := g'.pend, status := g'.status }

/-- A V-word finds its operands ready: no register element it reads, itself or behind a latch, is poisoned in an active lane (R455). The scoreboard of a D-core (R100) and
the order of accesses hold a word back at its issue, before it executes: StepRunsDecodedWord says when. -/
def Ready (s : State) (act : Word32) (regs : List Nat) : Prop := ∀ r ∈ regs, poisonLanes s.cg act r = []

/-- Register d holds f in each active lane, unless N is set, and every other element is as before (R61, R83). -/
def WritesVec (s t : State) (h : VH) (act : Word32) (d : Nat) (f : Nat → Word64) : Prop :=
  ∀ r l, l < 32 → t.cg.velem r l = if r = d ∧ inMask act l = true ∧ h.n = false then f l else s.cg.velem r l

/-- No lane status word changes, but for LATCH_LOST in the active lanes where a latch that the word reads has lost its value (R66, R69). -/
def StatusLatch (s t : State) (act : Word32) (lat : List Nat) : Prop :=
  ∀ l, l < 32 → t.cg.st l = if inMask act l = true ∧ lat.any (latchLost s) = true then s.cg.st l ||| (1#32 <<< bLATCH_LOST) else s.cg.st l

/-- What a V-word with one vector result per lane does: the result in the active lanes of d, and nothing else but the latches. -/
def VecWord (s : State) (h : VH) (d : Nat) (regs lat : List Nat) (f : Nat → Word64) (o : Out) : Prop :=
  Ready s (active s h) (regs ++ latchRegs s lat) →
    ∃ t, o = .next t ∧ WritesVec s t h (active s h) d f ∧ StatusLatch s t (active s h) lat ∧ OnlyVecs s.cg t.cg ∧ OnlyVector s t

/-- The scalar register that a scalar word writes: the words of majors 0x01 to 0x0C other than sld and sst. -/
def scalarDest : Instr → Option Nat
  | .sadd d _ _ | .ssub d _ _ | .smul d _ _ | .smulh d _ _ | .sdiv d _ _ | .srem d _ _ | .sand d _ _ | .sor d _ _ | .sxor d _ _
  | .sshl d _ _ | .sshr d _ _ | .ssra d _ _ | .smin d _ _ | .smax d _ _ | .sclz d _ | .spop d _ | .smov d _
  | .smulhN64 d _ _ | .sdivN64 d _ _ | .sremN64 d _ _ | .sminN64 d _ _ | .smaxN64 d _ _
  | .saddImm d _ _ | .sandImm d _ _ | .sorImm d _ _ | .sxorImm d _ _ | .sshlImm d _ _ | .sshrImm d _ _ | .ssraImm d _ _
  | .sli d _ | .slih d _ | .scmp _ d _ _ | .ssel d _ _ | .crd d _ => some d
  | _ => none

/-- No lane of the executing split is in a transaction, so R341 does not come into play. -/
def NoTx (s : State) : Prop := txLanes s.cg s.sp.mask = []
/-- The split in hand is one of the group's splits. -/
def SplitHere (s : State) : Prop := s.cur.sp < s.cg.splits.length
/-- The words that R101 holds back in the D-encoding until the lane queue of the split is empty. -/
def needsEmptyQueue : Instr → Bool
  | .br _ | .bc _ _ _ | .bq _ _ _ | .bq3 _ _ _ _ | .call _ _ | .ret _ | .jmpx _ _ | .nbarImm _ _ | .nbarReg _ _ | .tbar | .qbar _
  | .split _ _ _ _ _ | .take _ _ | .done | .exit | .hinge _ | .mig _ _ | .trap _ | .tret => true
  | _ => false
/-- A lane is held by a split of the group at a PC, or by a deferred entry for it. -/
def laneAt (g : Group) (l pc : Nat) : Prop :=
  (∃ p ∈ g.splits, inMask p.mask l = true ∧ p.pc = pc) ∨ ∃ d ∈ g.defer, inMask d.mask l = true ∧ d.pc = pc


/-! Scalar control. -/

/-- The state once the executing split has read a row of the hinge table: its pages need be asked for no more (R408, R430). -/
def rowRead (s : State) : State := endTries s s.ct.ctx s.ct.core (whoRow s.cur.gh)

/-- The split in hand with HINGE and TWINPC set from a row of the hinge table (R72, R405). -/
def hinged (s : State) (r : HRow) : Split :=
  { s.sp with hinge := r.id, twinA := if s.isL then r.dpc else r.lpc, twinB := if s.isL then r.dlpc else 0 }
/-- Lanes of a group are no longer owed to a grace period; where some were, the group notes the order number (R351, R354). -/
def Group.passed (g : Group) (n : Nat) (m : Word32) : Group :=
  { g with misc := { g.misc with owed := g.misc.owed &&& ~~~m, passAt := if g.misc.owed &&& m = 0 then g.misc.passAt else n } }
/-- A barrier word may act: the lane queue is empty, no lane is in a transaction, and the split holds every lane that has not ended. -/
def AloneHere (s : State) : Prop :=
  queueEmpty s = true ∧ NoTx s ∧ s.cg.splits = [s.sp] ∧ s.cur.sp = 0 ∧ s.cg.defer = [] ∧ s.cg.spills = 0 ∧
  s.cur.gh = handle s.cg.team s.cg.idx ∧ s.cg.idx < 32 ∧ s.cg.idx < s.ct.size ∧ s.ct.size ≤ 32
/-- No team of the device has a group waiting at a team barrier, a quire barrier or a mig. -/
def NoBarriers (s : State) : Prop := s.ct.tbar = 0 ∧ s.ct.migarr = 0 ∧ ∀ e ∈ s.teams, e.2.qarr = 0
/-- The group at index k of the executing team after a barrier released it: its first split is past its barrier word and waits no more. -/
def Released (s t : State) (k : Nat) (waiting : Group) : Prop :=
  (t.grp (handle s.cg.team k)).splits = match waiting.splits with
    | p :: ps => { p with pc := p.pc + 4, hold := .none, age := 0 } :: ps
    | [] => []
/-- What is left of a word that cannot issue (R379): the split stands before it, marked as to be tried again, and nothing else has changed. The
step then takes the try back (StepRunsDecodedWord). -/
def StandsBefore (s t : State) : Prop :=
  t = { s with cur := { s.cur with held := true }, groups := t.groups } ∧ (∀ i, i ≠ s.cur.gh → t.grp i = s.grp i) ∧
  t.cg = { s.cg with splits := t.cg.splits } ∧ (SplitHere s → s.cur.isV = false → t.sp = { s.sp with pc := s.cur.pcA, hold := .retry })
/-- The memory that a trace record of a die may write: its 32 bytes at the tail of the die's buffer (R459). -/
def traceSlot (s : State) (die a : Nat) : Prop :=
  let at_ := mget 0 s.io.trcBase die + 32 * fld (s.reg (rTRCPTR die)) 20 0
  at_ ≤ a ∧ a < at_ + 32
/-- Bytes outside a set of locations read as before. -/
def SameMemBut (s t : State) (w : Nat → Prop) : Prop := ∀ a, isPeer a = false → ¬ w a → t.rdByte a = s.rdByte a


/-! Pool items. -/

/-- The items of a bin, of all its banks (R368). -/
def Bin.items (b : Bin) : List (BitVec 512) := b.banks.flatMap fun e => e.2.map (·.item)
/-- A bin's banks are in their canonical form: eight at most, each listed once where it is not empty. -/
def Bin.wf (b : Bin) : Prop := mwf [] b.banks = true ∧ ∀ x ∈ b.banks, x.1 < 8
/-- An item has the fields of a header in the layout of R395, and this payload (R45). -/
def HasFields (i : BitVec 512) (hd : Word64) (p : Nat → Word64) : Prop :=
  itemEntry i = fld hd 35 32 ∧ itemBits i 15 4 = fld hd 47 36 ∧ itemKey i = fld hd 31 0 ∧ ∀ j, j < 7 → itemP i j = p j
/-- Items have been made (R50): those whose bins have room are on their way to them; one whose bin is full is left with the split, which holds it
until there is room. -/
def ItemsPlaced (s t : State) (full : Nat → Bool) (is : List (BitVec 512)) : Prop :=
  t.sp.items = is.filter (fun i => full (itemEntry i)) ∧ (∀ c, c ≠ s.ct.core → t.core c = s.core c) ∧
  t.core s.ct.core = { s.cc with flying := s.cc.flying ++ is.filter fun i => !full (itemEntry i) }


/-! Values. -/

/-- An interval contains a number. -/
def Ivl.has (i : Ivl) (v : Q) : Prop := match i with
  | .mk lo hi => xLe lo (.fin v) = true ∧ xLe (.fin v) hi = true
  | _ => False
/-- Its finite bounds are fractions. -/
def Ivl.ok (i : Ivl) : Prop := match i with
  | .mk (.fin a) (.fin b) => 0 < a.d ∧ 0 < b.d
  | .mk (.fin a) _ => 0 < a.d
  | .mk _ (.fin b) => 0 < b.d
  | _ => True
/-- A source value of cvt is, or contains, a number (R208). -/
def CVal.is (v : CVal) (q : Q) : Prop := match v with
  | .int z => q = qInt z
  | .pt f (.fin neg k) => f ∈ [fp16, bf16, fp32, fp64, e4m3, e5m2] ∧ k ≤ f.top ∧ q = fpVal f neg k
  | .mk8 b => b < 256 ∧ mk8Val b = some q
  | .ivl i => i.ok ∧ 0 < q.d ∧ i.has q
  | _ => False
/-- A 32-bit or 64-bit integer format of cvt (R208). -/
def cvtInt (f : Nat) : Ty := match f with
  | 0 => .i32
  | 1 => .n32
  | 2 => .i64
  | _ => .n64
/-- The interval that a converted slot denotes (R133, R208). -/
def convertedIvl (df : Nat) (r : Nat × Nat × Bool × Bool) : Ivl := match df with
  | 6 => x32Read (BitVec.ofNat 64 r.1)
  | 7 => ivlBits fp64 r.1 r.2.1
  | 8 => ivlBits bf16 (r.1 % 2 ^ 16) (r.1 / 2 ^ 16)
  | _ => ivlBits fp16 (r.1 % 2 ^ 16) (r.1 / 2 ^ 16)
/-- A split waits in a word that is a quiescent state (R351). -/
def waitsQuiet : Hold → Bool
  | .take _ _ _ | .gwait _ _ | .groom _ _ _ => true
  | _ => false


/-! V-words. -/

/-- A V-word with one vector result per lane, from these operands. -/
def OneResult (s : State) (h : VH) (d : Nat) (ops : List Opnd) (f : Nat → Word64) (o : Out) : Prop :=
  VecWord s h d (ops.flatMap (opRegs false)) (ops.flatMap (opLatches false)) f o

/-- Register d, and for .x64 its odd neighbour, hold f in each active lane, unless N is set; every other element is as before (R61, R62, R83). -/
def WritesPair (s t : State) (h : VH) (act : Word32) (ty : Ty) (d : Nat) (f : Nat → Word64 × Word64) : Prop :=
  ∀ r l, l < 32 → t.cg.velem r l =
    if inMask act l = true ∧ h.n = false ∧ r = d then (f l).1
    else if inMask act l = true ∧ h.n = false ∧ ty = .x64 ∧ r = d + 1 then (f l).2
    else s.cg.velem r l

/-- A lane's status word once LATCH_LOST has been set where a latch read had lost its value (R66, R69). -/
def latchStatus (s : State) (lat : List Nat) (l : Nat) : Word32 :=
  if lat.any (latchLost s) = true then s.cg.st l ||| (1#32 <<< bLATCH_LOST) else s.cg.st l

/-- The status words of the active lanes become f of what they were; no other changes. -/
def StatusBy (s t : State) (act : Word32) (lat : List Nat) (f : Nat → Word32 → Word32) : Prop :=
  ∀ l, l < 32 → t.cg.st l = if inMask act l = true then f l (latchStatus s lat l) else s.cg.st l

/-- What a V-word does whose results are a register, or a pair for .x64, and status bits. -/
def PairWord (s : State) (h : VH) (ty : Ty) (d : Nat) (regs lat : List Nat) (f : Nat → Word64 × Word64) (st : Nat → Word32 → Word32) (o : Out) : Prop :=
  Ready s (active s h) (regs ++ latchRegs s lat) →
    ∃ t, o = .next t ∧ WritesPair s t h (active s h) ty d f ∧ StatusBy s t (active s h) lat st ∧ OnlyVecs s.cg t.cg ∧ OnlyVector s t

/-- What a V-word does whose result is a predicate element in each active lane (R64, R198), and status bits. -/
def PredWord (s : State) (h : VH) (p : Nat) (regs lat : List Nat) (f : Nat → Tri) (st : Nat → Word32 → Word32) (o : Out) : Prop :=
  Ready s (active s h) (regs ++ latchRegs s lat) →
    ∃ t, o = .next t ∧ (∀ r l, l < 32 → t.cg.qelem r l = if inMask (active s h) l = true ∧ r = p then f l else s.cg.qelem r l) ∧
      StatusBy s t (active s h) lat st ∧ OnlyPreds s.cg t.cg ∧ OnlyGroup s t

/-- Sticky bits ored into a status word. -/
def orBit (c : Bool) (b : Nat) (x : Word32) : Word32 := if c then x ||| (1#32 <<< b) else x
/-- A status word with DECO lowered to the least of its own and these decorations (R69). -/
def lowered (x : Word32) (ds : List Nat) : Word32 := (x &&& ~~~3#32) ||| BitVec.ofNat 32 (ds.foldl min (x.toNat % 4))

/-- What a word does that offends in these lanes with the trap enabled (R164): it has its whole effect w, and then takes INTERVAL_NAI with their
mask. -/
def NaiTrap (s : State) (act : Word32) (bad regs lat : List Nat) (w : State → Prop) (o : Out) : Prop :=
  trapNai s = true → bad ≠ [] → Ready s act (regs ++ latchRegs s lat) →
    ∃ t, o = (takeTrap t INTERVAL_NAI (maskOf bad) 0 s.cur.pcA s.cur.pcB).out ∧ w t

/-- The effect of a V-word with a register or a pair as its result, and status bits. -/
def PairEffect (s : State) (h : VH) (ty : Ty) (d : Nat) (lat : List Nat) (f : Nat → Word64 × Word64) (st : Nat → Word32 → Word32) (t : State) : Prop :=
  WritesPair s t h (active s h) ty d f ∧ StatusBy s t (active s h) lat st ∧ OnlyVecs s.cg t.cg ∧ OnlyVector s t

/-- What an interval word does (R183): its results, DECO lowered and NAI set as the results say, and the trap where it is enabled and a lane
offends. -/
def IvlWord (s : State) (h : VH) (ty : Ty) (d : Nat) (ops : List Opnd) (y : Nat → Nat → Ivl × Nat × Bool) (o : Out) : Prop :=
  let ys (l : Nat) := (List.range (ivlCount ty)).map (y l)
  let regs := ops.flatMap (opRegs (ty == .x64))
  let lat := ops.flatMap (opLatches (ty == .x64))
  let bad := (lanesOf (active s h)).filter fun l => (ys l).any fun r => r.2.2
  let f (l : Nat) : Word64 × Word64 := ivlElems ty ((ys l).map fun r => r.1)
  let st (l : Nat) (x : Word32) : Word32 := orBit ((ys l).any fun r => r.2.2) bNAI (lowered x ((ys l).map fun r => r.2.1))
  (trapNai s = false ∨ bad = [] → PairWord s h ty d regs lat f st o) ∧ NaiTrap s (active s h) bad regs lat (PairEffect s h ty d lat f st) o

/-- The writes of a counted word's vector result: the lanes for which it has a value, unless N is set; the odd register's after the even one's for
.x64 (R62, R83, R94). -/
def vecWrites (h : VH) (act : Word32) (ty : Ty) (d : Nat) (val : Nat → Option (Word64 × Word64)) : List PW :=
  let one (r : Nat) (f : Word64 × Word64 → Word64) : List PW := (lanesOf act).filterMap fun l => (val l).map fun x => ⟨0, r * 32 + l, f x, false⟩
  if h.n then [] else one d Prod.fst ++ if ty = .x64 then one (d + 1) Prod.snd else []

/-- What a counted word with a vector result does (R94, R100): in the L-encoding its writes are pending under its counter, with the order
number of its issue, and the registers are as before; in the D-encoding they are made. st: what becomes of the status words. -/
def CountedVec (s : State) (h : VH) (cls : Nat) (ty : Ty) (d : Nat) (regs lat : List Nat) (val : Nat → Option (Word64 × Word64))
    (st : Nat → Word32 → Word32) (o : Out) : Prop :=
  Ready s (active s h) (regs ++ latchRegs s lat) → roomCounter s cls = true → (s.isL = false → h.n = false) →
    ∃ t, o = .next t ∧ StatusBy s t (active s h) lat st ∧
      (s.isL = true → t = { s with seq := s.seq + 1, groups := t.groups, cores := t.cores } ∧
        t.cg = { s.cg with pend := s.cg.pend ++ [⟨cls, s.seq, false, vecWrites h (active s h) ty d val⟩], tags := t.cg.tags, status := t.cg.status } ∧
        (∀ c, t.core c = { s.core c with latch := (t.core c).latch }) ∧ ∀ i, i ≠ s.cur.gh → t.grp i = s.grp i) ∧
      (s.isL = false → OnlyGroup s t ∧ OnlyVecs s.cg t.cg ∧
        ∀ r l, l < 32 → t.cg.velem r l =
          if inMask (active s h) l = false then s.cg.velem r l
          else if r = d then ((val l).map Prod.fst).getD (s.cg.velem r l)
          else if ty = .x64 ∧ r = d + 1 then ((val l).map Prod.snd).getD (s.cg.velem r l)
          else s.cg.velem r l)

/-- What a counted word does whose writes are to scalar registers or predicates. -/
def CountedWrites (s : State) (h : VH) (cls : Nat) (regs lat : List Nat) (ws : List PW) (st : Nat → Word32 → Word32) (o : Out) : Prop :=
  Ready s (active s h) (regs ++ latchRegs s lat) → roomCounter s cls = true →
    ∃ t, o = .next t ∧ OnlyGroup s t ∧ StatusBy s t (active s h) lat st ∧
      (s.isL = true → t.seq = s.seq + 1 ∧ t.cg = { s.cg with pend := s.cg.pend ++ [⟨cls, s.seq, false, ws⟩], status := t.cg.status }) ∧
      (s.isL = false → t.seq = s.seq ∧
        t.cg = { ws.foldl (fun g w => if w.kind = 1 then g.wS w.key w.val else g.wQ (w.key / 32) (w.key % 32) w.val.toNat) s.cg with status := t.cg.status })

/-- The status words stay as they are. -/
def keepStatus (_ : Nat) (x : Word32) : Word32 := x

/-! Engines and memory. -/

/-- The result of a memory word with a vector result, whose counter rose at its issue: pending in the L-encoding, made in the D-encoding (R94,
R100). -/
def GivesVec (s t : State) (h : VH) (cls : Nat) (ty : Ty) (d : Nat) (act : Word32) (val : Nat → Word64 × Word64) : Prop :=
  (s.isL = true → t.seq = s.seq ∧ t.cg.v = s.cg.v ∧ t.cg.pend = s.cg.pend ++ [⟨cls, s.seq, false, vecWrites h act ty d fun l => some (val l)⟩]) ∧
  (s.isL = false → t.seq = s.seq ∧ ∀ r l, l < 32 → t.cg.velem r l =
    if inMask act l = false then s.cg.velem r l else if r = d then (val l).1 else if ty = .x64 ∧ r = d + 1 then (val l).2 else s.cg.velem r l)
/-- What a load does that finds all its lanes' data at hand (R94, R100): its result, NAI where the data say so, and nothing else but the latches; b
is the state with what an acquire does.
-/
def LoadsVec (s b : State) (h : VH) (ty : Ty) (d : Nat) (regs lat : List Nat) (val : Nat → Word64 × Word64) (st : Nat → Word32 → Word32) (o : Out) : Prop :=
  Ready s (active s h) (regs ++ latchRegs s lat) → roomCounter s 0 = true → (s.isL = false → h.n = false) →
    ∃ t, o = .next t ∧ GivesVec s t h 0 ty d (active s h) val ∧
      t.cg = { s.cg with v := t.cg.v, pend := t.cg.pend, vpois := t.cg.vpois, tags := t.cg.tags, status := t.cg.status } ∧
      StatusBy s t (active s h) lat st ∧ OnlyVector b t
/-- The registers, predicates and status of the executing group that a memory word leaves alone. -/
def KeepsGroup (s t : State) : Prop :=
  t.cg = { s.cg with v := t.cg.v, pend := t.cg.pend, vpois := t.cg.vpois, tags := t.cg.tags, status := t.cg.status, splits := t.cg.splits,
                     tx := t.cg.tx, pushes := t.cg.pushes, frel := t.cg.frel, s := t.cg.s }
/-- The word has not been tried before, no lane of its split is in a transaction, and no counted instruction has its order number. -/
def FreshWord (s : State) : Prop :=
  s.sp.mem = none ∧ s.sp.pmask = 0 ∧ NoTx s ∧ SplitHere s ∧ s.sp.mask ≠ 0 ∧ ∀ p ∈ s.cg.pend, p.id ≠ s.seq

/-- A command has entered the executing core's matrix queue (R227, R243), under ASYNC (R94); ws: the register writes to come. -/
def QueuesCmd (s : State) (op : MOp) (st tile : Nat) (ws : List PW) (m : GMisc) (o : Out) : Prop :=
  ∃ t, o = .next t ∧ t = { s with groups := t.groups, cores := t.cores } ∧ (∀ i, i ≠ s.cur.gh → t.grp i = s.grp i) ∧
    (∀ c, c ≠ s.ct.core → t.core c = s.core c) ∧
    t.core s.ct.core = { s.cc with mq := s.cc.mq ++ [⟨op, s.seq, s.cur.gh, st, tile, s.cg.nrm, 0, false, s.cg.v, s.cc.sp, wordPlace s⟩] } ∧
    t.cg = { s.cg with misc := m, pend := s.cg.pend ++ [⟨2, s.seq, true, ws⟩] }
/-- A matrix command has retired: it is gone from its queue, and its counter has fallen (R227, R239). -/
def RetiredCmd (s t : State) (core idx : Nat) : Prop :=
  (t.core core).mq = dropAt (s.core core).mq idx ∧
  (t.grp (cmdAt s core idx).gh).pend = (s.grp (cmdAt s core idx).gh).pend.filter fun p => p.id != (cmdAt s core idx).id
/-- An element of a tile (R68). -/
def Team.elem (t : Team) (tile row col : Nat) : Word64 := mget 0 t.tiles (tileKey tile row col)

/-- A lane's access of n bytes at a global address goes to a location of device memory: the address is aligned and canonical, its page is mapped,
and the line is neither locked (R347) nor awaited by a push (R275). -/
def LaneLoc (s : State) (va n : Nat) (write : Bool) (loc : Nat) : Prop :=
  va % n = 0 ∧ canonical va = true ∧ xlate s s.ct.ctx s.ct.core va write = .hit loc ∧ isDev loc = true ∧
  lineLocked s (lineOf loc) none = false ∧ pushPending s s.ct.core (lineOf loc) = false
/-- The executing core's L1 holds the line of a location in one of these states (R300). -/
def LineIn (s : State) (loc : Nat) (sts : List L1St) : Prop := ∃ x, l1Find (s.core s.ct.core) (lineOf loc) = some x ∧ x.st ∈ sts

/-! Messages. -/

/-- A request of a core stands first in its line's queue, and the home may serve it (R302). -/
def AtHead (s : State) (line core : Nat) (k : MKind) : Prop := headReq s line = some ⟨line, core, k⟩ ∧ homeFree s line = true
/-- A message of a line and a core, the first that meets a test, is this one. -/
def Arrives (s : State) (line core : Nat) (p : MKind → Bool) (k : MKind) : Prop := findMsg s line core p = some ⟨line, core, k⟩
/-- A message has been taken, with its tag, and these have been sent, in this order; nothing else has changed but the line's entry and what the
cores' predictors hold (R326). -/
def HomeServed (s t : State) (line : Nat) (m : Msg) (out : List (Nat × MKind)) : Prop :=
  t = { s with net := t.net, tags := setTag m none s.tags, dir := t.dir, cores := t.cores } ∧ (∀ n, n ≠ line → t.dirE n = s.dirE n) ∧
  (∀ c, t.core c = { s.core c with hot := (t.core c).hot }) ∧ t.net = eraseMsg m s.net ++ out.map fun x => ⟨line, x.1, x.2⟩
/-- The home of a line is sole holder at once: no lane has locked the line, no push of this core is on its way to it, and its entry stands in I
(R304, R347). -/
def HomeIdle (s : State) (core line : Nat) : Prop :=
  isHost (128 * line) = false ∧ lineLocked s line none = false ∧ pushPending s core line = false ∧ (s.dirE line).busy = none ∧ (s.dirE line).st = .i ∧
  (s.dirE line).psn = false
/-- An L1 has taken a message: its line stands in a new state, and these messages have gone out; nothing else has changed, but for the narrow
releases that entries record. -/
def L1Took (s t : State) (line core : Nat) (m : Msg) (st : L1St) (out : List (Nat × MKind)) : Prop :=
  t = { s with net := t.net, tags := setTag m none s.tags, cores := t.cores, dir := t.dir } ∧
  (∀ n, t.dirE n = { s.dirE n with nrels := (t.dirE n).nrels }) ∧ (∀ k, k ≠ core → t.core k = s.core k) ∧
  t.core core = { s.core core with l1 := (t.core core).l1 } ∧ l1State (t.core core) line = st ∧
  t.net = eraseMsg m s.net ++ out.map fun x => ⟨line, x.1, x.2⟩

/-- Two groups hold the same registers, predicates, status words and user control registers. -/
def SameRegs (g g' : Group) : Prop := g'.v = g.v ∧ g'.s = g.s ∧ g'.q = g.q ∧ g'.j = g.j ∧ g'.status = g.status ∧ g'.nrm = g.nrm ∧ g'.dstrm = g.dstrm ∧ g'.trapen = g.trapen

end Sys2Proof.Machine
end

