-- ==== Sys2Proof/Certificates/Slice0/Obligations.lean ====
section
/-! DEFINITION. The statements for the provers. -/
open Sys2Proof Sys2Proof.Machine

/-- R167: each word of major 0x01 writes the table's result of a and b to s[sd] and goes on. Division by zero and the overflowing quotient are
as R163 gives them. A write to s0 is discarded: State.wS does that, and ScalarWordFrame says what else it leaves. A reserved fn, and a source that a unary operation does
not have, are refused at decode. -/
def Obligations.ScalarRegisterResults : Prop :=
  (∀ w, w / 2 ^ 26 = 1 → (22 ≤ w % 32 ∨ 14 ≤ w % 32 ∧ w % 32 ≤ 16 ∧ w / 32 % 128 ≠ 0) → decodeTableWord 32 w = none) ∧
  ∀ (s : State) (d a b : Nat) (x y : Word64), s.rS a = x → s.rS b = y →
    exec (.sadd d a b) s = .next (s.wS d (x + y)) ∧
    exec (.ssub d a b) s = .next (s.wS d (x - y)) ∧
    exec (.smul d a b) s = .next (s.wS d (x * y)) ∧
    exec (.smulh d a b) s = .next (s.wS d (BitVec.ofInt 64 (x.toInt * y.toInt / 2 ^ 64))) ∧
    exec (.smulhN64 d a b) s = .next (s.wS d (BitVec.ofNat 64 (x.toNat * y.toNat / 2 ^ 64))) ∧
    exec (.sdiv d a b) s = .next (s.wS d (if y = 0 then BitVec.allOnes 64 else x.sdiv y)) ∧
    exec (.srem d a b) s = .next (s.wS d (if y = 0 then x else x.srem y)) ∧
    exec (.sdivN64 d a b) s = .next (s.wS d (if y = 0 then BitVec.allOnes 64 else x / y)) ∧
    exec (.sremN64 d a b) s = .next (s.wS d (if y = 0 then x else x % y)) ∧
    exec (.sand d a b) s = .next (s.wS d (x &&& y)) ∧
    exec (.sor d a b) s = .next (s.wS d (x ||| y)) ∧
    exec (.sxor d a b) s = .next (s.wS d (x ^^^ y)) ∧
    exec (.sshl d a b) s = .next (s.wS d (if 64 ≤ y.toNat then 0 else x <<< y.toNat)) ∧
    exec (.sshr d a b) s = .next (s.wS d (if 64 ≤ y.toNat then 0 else x >>> y.toNat)) ∧
    exec (.ssra d a b) s = .next (s.wS d (x.sshiftRight (min y.toNat 64))) ∧
    exec (.smin d a b) s = .next (s.wS d (if x.sle y then x else y)) ∧
    exec (.smax d a b) s = .next (s.wS d (if x.sle y then y else x)) ∧
    exec (.sminN64 d a b) s = .next (s.wS d (if x.ule y then x else y)) ∧
    exec (.smaxN64 d a b) s = .next (s.wS d (if x.ule y then y else x)) ∧
    (∃ n, n ≤ 64 ∧ x.toNat < 2 ^ (64 - n) ∧ (n = 64 ∨ 2 ^ (63 - n) ≤ x.toNat) ∧ exec (.sclz d a) s = .next (s.wS d (BitVec.ofNat 64 n))) ∧
    exec (.spop d a) s = .next (s.wS d (BitVec.ofNat 64 ((List.range 64).filter fun k => x.getLsbD k).length)) ∧
    exec (.smov d a) s = .next (s.wS d x)

/-- R168 and R169: the immediate forms, and the two words that form constants.
R170 and R171: scmp writes 1 where its condition holds and 0 otherwise; ssel takes its condition from the destination's old value. A shift
count of 64 or more and a reserved fn are refused at decode. -/
def Obligations.ScalarImmediatesAndCompares : Prop :=
  (∀ w, 6 ≤ w / 2 ^ 26 ∧ w / 2 ^ 26 ≤ 8 ∧ 64 ≤ w % 4096 ∨ w / 2 ^ 26 = 11 ∧ 10 ≤ w % 32 ∨ w / 2 ^ 26 = 12 ∧ w % 32 ≠ 0 → decodeTableWord 32 w = none) ∧
  (∀ (s : State) (d a c : Nat) (i : BitVec 12) (k : BitVec 19) (x : Word64), s.rS a = x →
     exec (.saddImm d a i) s = .next (s.wS d (x + i.signExtend 64)) ∧
     exec (.sandImm d a i) s = .next (s.wS d (x &&& i.signExtend 64)) ∧
     exec (.sorImm d a i) s = .next (s.wS d (x ||| i.signExtend 64)) ∧
     exec (.sxorImm d a i) s = .next (s.wS d (x ^^^ i.signExtend 64)) ∧
     (c < 64 →
       exec (.sshlImm d a c) s = .next (s.wS d (x <<< c)) ∧
       exec (.sshrImm d a c) s = .next (s.wS d (x >>> c)) ∧
       exec (.ssraImm d a c) s = .next (s.wS d (x.sshiftRight c))) ∧
     exec (.sli d k) s = .next (s.wS d (k.signExtend 64)) ∧
     exec (.slih d k) s = .next (s.wS d ((s.rS d <<< 19) ||| k.zeroExtend 64))) ∧
  ∀ (s : State) (d a b : Nat) (x y : Word64), s.rS a = x → s.rS b = y →
    let put (c : Bool) : State := s.wS d (if c then 1 else 0)
    exec (.scmp 0 d a b) s = .next (put (decide (x = y))) ∧
    exec (.scmp 1 d a b) s = .next (put (decide (x ≠ y))) ∧
    exec (.scmp 2 d a b) s = .next (put (decide (x.toInt < y.toInt))) ∧
    exec (.scmp 3 d a b) s = .next (put (decide (x.toInt ≤ y.toInt))) ∧
    exec (.scmp 4 d a b) s = .next (put (decide (y.toInt < x.toInt))) ∧
    exec (.scmp 5 d a b) s = .next (put (decide (y.toInt ≤ x.toInt))) ∧
    exec (.scmp 6 d a b) s = .next (put (decide (x.toNat < y.toNat))) ∧
    exec (.scmp 7 d a b) s = .next (put (decide (x.toNat ≤ y.toNat))) ∧
    exec (.scmp 8 d a b) s = .next (put (decide (y.toNat < x.toNat))) ∧
    exec (.scmp 9 d a b) s = .next (put (decide (y.toNat ≤ x.toNat))) ∧
    exec (.ssel d a b) s = .next (s.wS d (if s.rS d ≠ 0 then x else y))

/-- The frame of every word of majors 0x01 to 0x0C but sld and sst, and of crd: where it goes on, one scalar register at most has
changed, the one named; s0 still reads as zero; no other register, flag, predicate, control register, byte of memory or unit is touched.
R63 and R96: a write of a scalar register is what the group holds there afterwards, and s0 discards it. -/
def Obligations.ScalarWordFrame : Prop :=
  (∀ (i : Instr) (d : Nat) (s t : State), scalarDest i = some d → exec i s = .next t →
     (∀ k, k ≠ d → t.cg.sreg k = s.cg.sreg k) ∧ t.cg.sreg 0 = 0 ∧ OnlyScalars s.cg t.cg ∧ OnlyGroup s t ∧ SameMem s t) ∧
  ∀ (s : State) (d k : Nat) (x : Word64), (s.wS d x).cg.sreg k = if k = d ∧ d ≠ 0 then x else s.cg.sreg k

/-- R71 to R73: what crd reads of each register, and what cwr writes: the defined fields of NRM, TRAPEN, DSTREAM and J0 to J3. An NRM of 4 to 7
is ILLEGAL_INST at execution with NRM unchanged by the word, and a register that only system software writes is PROTECTION with DETAIL 4.
A number that names no register, and for cwr a read-only one, does not decode. The bits of a window's BASE below its SIZE read as zero.
R69 and R70: crd.v copies each active lane's status word into its element; cwr.v writes bits [6:0] of each active lane's status word and
clears the others, which are reserved. -/
def Obligations.ControlAndStatusRegisters : Prop :=
  (∀ (s : State) (d a n : Nat),
     exec (.crd d 0x000) s = .next (s.wS d (BitVec.ofNat 64 s.cg.nrm)) ∧
     exec (.crd d 0x001) s = .next (s.wS d (BitVec.ofNat 64 s.cg.trapen)) ∧
     exec (.crd d 0x002) s = .next (s.wS d (BitVec.ofNat 64 s.cg.dstrm)) ∧
     (n < 4 → exec (.crd d (4 + n)) s = .next (s.wS d (BitVec.ofNat 64 (mget 0 s.cg.j n)))) ∧
     exec (.crd d 0x010) s = .next (s.wS d (mk64 (lo32 s.ct.reg) (BitVec.ofNat 32 s.cg.idx))) ∧
     exec (.crd d 0x011) s = .next (s.wS d s.ct.reg) ∧
     exec (.crd d 0x012) s = .next (s.wS d (BitVec.ofNat 64 s.ct.core)) ∧
     exec (.crd d 0x013) s = .next (s.wS d (BitVec.ofNat 64 s.cg.stage)) ∧
     exec (.crd d 0x014) s = .next (s.wS d (if s.ct.isL then 0x10000 else 0x10001)) ∧
     exec (.crd d 0x015) s = .next (s.wS d (BitVec.ofNat 64 s.sp.hinge)) ∧
     exec (.crd d 0x016) s = .next (s.wS d (BitVec.ofNat 64 (s.sp.twinA + s.sp.twinB * 2 ^ 32))) ∧
     exec (.crd d 0x100) s = .next (s.wS d (s.reg (rPQUOTA s.ct.ctx))) ∧
     exec (.crd d 0x101) s = .next (s.wS d (s.reg (rPREEMPT s.ct.ctx))) ∧
     (n < 16 → s.ct.ctx < 64 → exec (.crd d (0x110 + n)) s = .next (s.wS d
       (let w := s.reg (rATTRWIN s.ct.ctx n)
        setFld w 35 0 (fld w 35 0 / 2 ^ fld w 41 36 * 2 ^ fld w 41 36)))) ∧
     ((s.rS a).toNat % 8 < 4 → exec (.cwr a 0x000) s = .next (s.setCg { s.cg with nrm := (s.rS a).toNat % 8 })) ∧
     (4 ≤ (s.rS a).toNat % 8 → exec (.cwr a 0x000) s = .next (fatal s ILLEGAL_INST 1 (wordAddr s) 0)) ∧
     exec (.cwr a 0x001) s = .next (s.setCg { s.cg with trapen := (s.rS a).toNat % 4 }) ∧
     exec (.cwr a 0x002) s = .next (s.setCg { s.cg with dstrm := (s.rS a).toNat % 16 }) ∧
     (n < 4 → exec (.cwr a (4 + n)) s = .next (s.setCg { s.cg with j := mset 0 s.cg.j n ((s.rS a).toNat % 1024) })) ∧
     (0x100 ≤ n → exec (.cwr a n) s = .next (fatal s PROTECTION 4 n 0))) ∧
  (∀ d n, d < 128 → n < 4096 →
     let user : Prop := n ∈ [0, 1, 2, 4, 5, 6, 7]
     let system : Prop := n = 0x100 ∨ n = 0x101 ∨ 0x110 ≤ n ∧ n ≤ 0x11F
     (user ∨ 0x10 ≤ n ∧ n ≤ 0x16 ∨ system → decodeTableWord 32 (0xB0000000 + d * 2 ^ 19 + n) = some (.crd d n)) ∧
     (¬ (user ∨ 0x10 ≤ n ∧ n ≤ 0x16 ∨ system) → decodeTableWord 32 (0xB0000000 + d * 2 ^ 19 + n) = none) ∧
     (user ∨ system → decodeTableWord 32 (0xB4000000 + d * 2 ^ 12 + n) = some (.cwr d n)) ∧
     (¬ (user ∨ system) → decodeTableWord 32 (0xB4000000 + d * 2 ^ 12 + n) = none)) ∧
  (∀ (s : State) (h : VH) (d : Nat), VecWord s h d [] [] (fun l => (s.cg.st l).zeroExtend 64) (exec (.crdV h d) s)) ∧
  ∀ (s : State) (h : VH) (a : Opnd), Ready s (active s h) (opRegs false a ++ latchRegs s (opLatches false a)) →
    ∃ t, exec (.cwrV h a) s = .next t ∧ OnlyGroup s t ∧ t.cg = { s.cg with status := t.cg.status } ∧
      ∀ l, l < 32 →
        (inMask (active s h) l = true → (opLatches false a).any (latchLost s) = false → t.cg.st l = (rdOp s a l).truncate 32 &&& 0x7F) ∧
        (inMask (active s h) l = false → t.cg.st l = s.cg.st l)

/-- R75 and R386: where a branch word sends the whole split, with PCs of 32 bits and offsets counted in words from the branch; call and jmpx
write the PC of the next word to the link register, jmpx reading its target first. The lane queue is empty (R101).
R101: in the D-encoding each of these words waits while the split's lane queue holds a V-word: the split keeps its PC at the word and tries
it again, and nothing else happens. -/
def Obligations.BranchTargetsAndQueueWaits : Prop :=
  (∀ (s : State) (a d : Nat) (o : BitVec 16), queueEmpty s = true →
     let go (s1 : State) (pc : Nat) : Host.Outcome State Fault Refusal := .next (s1.setSp { s1.sp with pc := pc })
     let there := (((s.cur.pcA : Int) + 4 * o.toInt) % 2 ^ 32).toNat
     let following := s.cur.pcA + 4
     let x := (s.rS a).toInt
     exec (.br o) s = go s there ∧
     exec (.bc 0 a o) s = go s (if x = 0 then there else following) ∧
     exec (.bc 1 a o) s = go s (if x ≠ 0 then there else following) ∧
     exec (.bc 2 a o) s = go s (if x < 0 then there else following) ∧
     exec (.bc 3 a o) s = go s (if 0 ≤ x then there else following) ∧
     exec (.bc 4 a o) s = go s (if 0 < x then there else following) ∧
     exec (.bc 5 a o) s = go s (if x ≤ 0 then there else following) ∧
     exec (.call a o) s = go (s.wS a (BitVec.ofNat 64 following)) there ∧
     exec (.ret a) s = go s (s.rS a).toNat ∧
     exec (.jmpx d a) s = go (s.wS d (BitVec.ofNat 64 following)) (s.rS a).toNat) ∧
  ∀ (i : Instr) (s : State), needsEmptyQueue i = true → queueEmpty s = false → s.sp.items = [] →
    exec i s = .next (retry s) ∧ StandsBefore s (retry s)

/-- R37, R38, R387 and R388: bq and bq3 divide the split. Every lane of it is afterwards at the target that its predicate element gives, in a
live split or, beyond four, in a deferred entry; every other split and every deferred entry is as before. The deferred stack has room here. -/
def Obligations.BranchesDivideLanes : Prop :=
  ∀ (s : State) (p f sense : Nat) (o : BitVec 16) (oa ob : BitVec 10),
    queueEmpty s = true → SplitHere s → s.cg.splits.length ≤ 4 → s.cg.defer.length ≤ 5 → f < 3 →
    let there (off : Int) : Nat := (((s.cur.pcA : Int) + 4 * off) % 2 ^ 32).toNat
    let following := s.cur.pcA + 4
    let kept (t : State) : Prop :=
      (∀ k, k < s.cg.splits.length → k ≠ s.cur.sp → nthD Split.init t.cg.splits k = nthD Split.init s.cg.splits k) ∧
      (∀ e ∈ s.cg.defer, e ∈ t.cg.defer) ∧ OnlyGroup s t ∧ t.cg = { s.cg with splits := t.cg.splits, defer := t.cg.defer }
    (∃ t, exec (.bq sense p o) s = .next t ∧ kept t ∧
      ∀ l, l < 32 → inMask s.sp.mask l = true → laneAt t.cg l (if guardOk sense (s.cg.rQ s.free p l) then there o.toInt else following)) ∧
    ∃ t, exec (.bq3 p f oa ob) s = .next t ∧ kept t ∧
      ∀ l, l < 32 → inMask s.sp.mask l = true →
        laneAt t.cg l (match f, s.cg.rQ s.free p l with
          | 0, 1 => following | 0, 0 => there oa.toInt | 0, _ => there ob.toInt
          | 1, 1 => there oa.toInt | 1, 0 => following | 1, _ => there ob.toInt
          | _, 1 => there oa.toInt | _, 0 => there ob.toInt | _, _ => following)

/-- R95, R98, R101, R331 and R335: the words that order. waitc and cwait hold the split until what they wait for is done, and otherwise do
nothing; nop does nothing; venq appends a run of the lane section to the lane queue, where it fits.
R280, R281 and R331: a fence or fencex waits where a release, or the order among its streams, has something left to wait for. Then, on a
release, the next store of each agent of the split on its streams is a release at its scope (R280), and on an acquire of DIE scope or wider the lines of the core's
read-only path are discarded (R267), and an acquire takes on the accesses that a scratchpad release passed to it (R279, R285); nothing else changes.
Choices of the model that it rests on: log entry 39. -/
def Obligations.OrderingWords : Prop :=
  ∀ (s : State) (vm sm as xl c o st scope order : Nat) (m : BitVec 16) (l : Launch),
    let sts (k : Nat) : Prop := k < 16 ∧ m.getLsbD k = true
    let ready (k : Nat) : Prop := relReady s s.cur.gh k s.seq = true
    let fenced (on : Nat → Prop) (t : State) : Prop := t = { s with cores := t.cores, groups := t.groups } ∧ (∀ k, k ≠ s.ct.core → t.core k = s.core k) ∧
      (∀ k, k ≠ s.cur.gh → t.grp k = s.grp k) ∧ t.cg = { s.cg with frel := t.cg.frel } ∧
      (∀ k a, a < 33 → on k → releases order = true → (a = 32 ∨ inMask s.sp.mask a = true) → mget 0 t.cg.frel (k * 33 + a) = scope + 1) ∧
      (∀ k a, a < 33 → ¬ (on k ∧ releases order = true ∧ (a = 32 ∨ inMask s.sp.mask a = true)) →
        mget 0 t.cg.frel (k * 33 + a) = mget 0 s.cg.frel (k * 33 + a)) ∧
      t.core s.ct.core = { s.core s.ct.core with
        ro := if acquires order = true ∧ 3 ≤ scope then [] else (s.core s.ct.core).ro
        late := if acquires order = true then (syncLate s scope).cc.late else (s.core s.ct.core).late }
    exec .nop s = .next s ∧
    exec (.waitc vm sm as xl) s =
      .next (if counter 0 s.cg ≤ vm ∧ counter 1 s.cg ≤ sm ∧ counter 2 s.cg ≤ as ∧ counter 3 s.cg ≤ xl then s else retry s) ∧
    (teamLaunch s s.ct = some l → o + c ≤ l.dllen → s.sp.queue.length + c ≤ 64 →
      exec (.venq c o) s =
        .next (s.setSp { s.sp with queue := s.sp.queue ++ (List.range c).map fun k => ⟨o + k, s.cur.pcA, decide (k + 1 = c)⟩ })) ∧
    (teamLaunch s s.ct = some l → o + c ≤ l.dllen → 64 < s.sp.queue.length + c → exec (.venq c o) s = .next (retry s)) ∧
    (NoTx s → (∀ q ∈ s.cc.cq, q.gh ≠ s.cur.gh ∨ q.f.stream ≠ st) → exec (.cwait st) s = .next s) ∧
    (NoTx s → (∃ q ∈ s.cc.cq, q.gh = s.cur.gh ∧ q.f.stream = st) → exec (.cwait st) s = .next (retry s)) ∧
    (NoTx s → releases order = false ∨ ready st → ∃ t, exec (.fence st scope order) s = .next t ∧ fenced (· = st) t) ∧
    (NoTx s → releases order = true → ¬ ready st → exec (.fence st scope order) s = .next (retry s)) ∧
    (NoTx s → (releases order = false ∧ ∀ j k, sts j → sts k → j = k) ∨ (∀ k, sts k → ready k) →
      ∃ t, exec (.fencex scope order m) s = .next t ∧ fenced sts t) ∧
    (NoTx s → releases order = true ∨ (∃ j k, sts j ∧ sts k ∧ j ≠ k) → (∃ k, sts k ∧ ¬ ready k) → exec (.fencex scope order m) s = .next (retry s))

/-- R391, R392 and R405: a group arrives at a named barrier with a count between 1 and the team's groups that agrees with the count the barrier
expects. Short of the count the group waits at its word, listed at the barrier; at the count the barrier empties and every arrived group goes on
past its word. Both ways the word sets HINGE and TWINPC from its row of the hinge table. Both forms of nbar do this. -/
def Obligations.NamedBarriers : Prop :=
  ∀ (s : State) (c i a : Nat) (r : HRow), AloneHere s → hingeRow s = .row r → 1 ≤ c → c ≤ s.ct.size → c < 64 → i < 16 →
    let b := mget (0, 0) s.ct.nb i
    (b.1 = 0 ∨ b.1 = c) → inMask b.2 s.cg.idx = false → fld (s.rS a) 5 0 = c →
    let m := b.2 ||| (1#32 <<< s.cg.idx)
    let waiting : Group := { (if r.quiet then s.cg.passed s.seq s.sp.mask else s.cg) with splits := [{ hinged s r with pc := s.cur.pcA, hold := .bar i c }] }
    exec (.nbarReg a i) s = exec (.nbarImm c i) s ∧
    ∃ t, exec (.nbarImm c i) s = .next t ∧ t = { rowRead s with groups := t.groups, teams := t.teams } ∧
      ((lanesOf m).length ≠ c → t.cg = waiting ∧ (∀ k, k ≠ s.cur.gh → t.grp k = s.grp k) ∧ t.ct = { s.ct with nb := mset (0, 0) s.ct.nb i (c, m) }) ∧
      ((lanesOf m).length = c → t.ct = { s.ct with nb := mset (0, 0) s.ct.nb i (0, 0) } ∧
        ∀ k, inMask m k = true → Released s t k (if k = s.cg.idx then waiting else s.grp (handle s.cg.team k)))

/-- R393 and R394, with R391 and R405: tbar and qbar. While a group of the team that has not retired has not arrived, the group waits at its
word; when the last of them arrives, tbar releases every one. A qbar waits too while a team that a window of its mask is bound to has not arrived at
its own qbar of that phase; it releases its team's groups where no window is bound to a team. No other team of the device has a group at a qbar
where it waits here. -/
def Obligations.TeamAndQuireBarriers : Prop :=
  ∀ (s : State) (m : Nat) (r : HRow), AloneHere s → hingeRow s = .row r →
    let waiting (h : Hold) : Group := { (if r.quiet then s.cg.passed s.seq s.sp.mask else s.cg) with splits := [{ hinged s r with pc := s.cur.pcA, hold := h }] }
    let mine := 1#32 <<< s.cg.idx
    let live := liveGroups s s.cg.team s.ct
    (live &&& ~~~(s.ct.tbar ||| mine) ≠ 0 → ∃ t, exec .tbar s = .next t ∧ t = { rowRead s with groups := t.groups, teams := t.teams } ∧
      t.cg = waiting (.bar 16 0) ∧ t.ct = { s.ct with tbar := s.ct.tbar ||| mine } ∧ ∀ k, k ≠ s.cur.gh → t.grp k = s.grp k) ∧
    (live &&& ~~~(s.ct.tbar ||| mine) = 0 → ∃ t, exec .tbar s = .next t ∧ t = { rowRead s with groups := t.groups, teams := t.teams } ∧
      t.ct = { s.ct with tbar := 0 } ∧
      ∀ k, inMask (s.ct.tbar ||| mine) k = true → Released s t k (if k = s.cg.idx then waiting (.bar 16 0) else s.grp (handle s.cg.team k))) ∧
    ((live &&& ~~~(s.ct.qarr ||| mine) ≠ 0 ∨
       ∃ p u, p < 5 ∧ p ≠ posOf s.ct.core ∧ (s.ct.qmask ||| m).testBit p = true ∧ mget Peer.unbound s.ct.peers p = .team u ∧ u ≠ s.cg.team ∧
         (s.team u).gone = false ∧ ((s.team u).saved = true ∨ (s.team u).qphase ≤ s.ct.qphase)) →
      (∀ e ∈ s.teams, e.1 ≠ s.cg.team → e.2.qarr = 0) →
      ∃ t, exec (.qbar m) s = .next t ∧ t = { rowRead s with groups := t.groups, teams := t.teams } ∧ t.cg = waiting (.bar 17 m) ∧
        t.ct = { s.ct with qarr := s.ct.qarr ||| mine, qmask := s.ct.qmask ||| m } ∧ (∀ k, k ≠ s.cur.gh → t.grp k = s.grp k) ∧
        ∀ k, k ≠ s.cg.team → t.team k = s.team k) ∧
    (live &&& ~~~(s.ct.qarr ||| mine) = 0 → s.teams = [(s.cg.team, s.ct)] → s.ct.gone = false → s.ct.saved = false →
      (∀ p, mget Peer.unbound s.ct.peers p = .unbound ∨ mget Peer.unbound s.ct.peers p = .gone) →
      ∃ t, exec (.qbar m) s = .next t ∧ t = { rowRead s with groups := t.groups, teams := t.teams } ∧
        t.ct = { s.ct with qarr := 0, qmask := 0, qphase := s.ct.qphase + 1 } ∧
        ∀ k, inMask (s.ct.qarr ||| mine) k = true → Released s t k (if k = s.cg.idx then waiting (.bar 17 m) else s.grp (handle s.cg.team k)))

/-- R410 and R411: a mig whose direction leads to the encoding that the team already runs, at which every live group has arrived, is declined:
the word writes 0 and the group goes on; a trace record of event 5 is offered. -/
def Obligations.MigrationDeclined : Prop :=
  ∀ (s : State) (d : Nat) (r : HRow), AloneHere s → hingeRow s = .row r → preempted s s.ct = false → s.ct.moving = false → s.ct.size = 1 →
    s.ct.pair = none → (s.grp (handle s.cg.team 0)).retired = false → s.groups.any (fun e => e.1 == s.cur.gh) = true →
    ∃ t, exec (.mig d (!s.isL)) s = .next t ∧ t.cg.sreg d = 0 ∧ t.ct = { s.ct with migarr := 0 } ∧
      t.cg.splits = [{ hinged s r with pc := s.cur.pcA + 4, hold := .none, age := 0 }] ∧ SameMemBut s t (traceSlot s (dieOf s.ct.core))

/-- R405, R408, R449 and R450: a hinge word sets HINGE and TWINPC from its row, passes a quiescent point where the row is quiet, and goes on. A
trap saves PC, lane queue, s124 to s127, HINGE and TWINPC in the frame, puts the cause, the lanes, the PCs and TWINPC in s124 to s127, and goes
to the handler's row; tret puts everything back. A tret without a frame is ILLEGAL_INST.
R413: where a pre-emption has been requested, a hinge outside a trap handler stops the split before the word. -/
def Obligations.HingeTrapReturn : Prop :=
  ∀ (s : State) (i c : Nat) (r : HRow) (l : Launch) (f : Frame), queueEmpty s = true → NoTx s → s.sp.mask ≠ 0 → SplitHere s →
    (hingeRow s = .row r → r.id = i → (preempted s s.ct = false ∨ s.cg.frame.isSome = true) →
      exec (.hinge i) s = .next (((rowRead s).setCg (if r.quiet then s.cg.passed s.seq s.sp.mask else s.cg)).setSp (hinged s r))) ∧
    (hingeRow s = .row r → r.id ≠ i → (preempted s s.ct = false ∨ s.cg.frame.isSome = true) → exec (.hinge i) s = .next (fatal s HINGE_MAP 0 i 0)) ∧
    (preempted s s.ct = true → s.cg.frame = none → exec (.hinge i) s = .next (s.setSp { s.sp with pc := s.cur.pcA, hold := .bar 18 0 })) ∧
    (s.cg.frame = none → teamLaunch s s.ct = some l → findRow s s.ct.ctx s.ct.core (whoRow s.cur.gh) (fun r => r.id == 0xFFFE) l.htab l.hcount = .row r →
      ∃ t, exec (.trap c) s = .next t ∧ OnlyGroup (rowRead s) t ∧
        t.cg.sreg 124 = BitVec.ofNat 64 ((if s.isL then 0 else 256) + c * 2 ^ 32) ∧ t.cg.sreg 125 = s.sp.mask.zeroExtend 64 ∧
        t.cg.sreg 126 = BitVec.ofNat 64 (s.cur.pcA + if s.isL then 0 else s.cur.pcB * 2 ^ 32) ∧
        t.cg.sreg 127 = BitVec.ofNat 64 (s.sp.twinA + s.sp.twinB * 2 ^ 32) ∧ (∀ k, k < 124 → t.cg.sreg k = s.cg.sreg k) ∧
        t.cg.frame = some ⟨s.sp.mask.toNat, s.sp.pc, s.sp.lpc, s.sp.queue, s.rS 124, s.rS 125, s.rS 126, s.rS 127, s.sp.hinge, s.sp.twinA, s.sp.twinB⟩ ∧
        t.sp = { s.sp with pc := if s.isL then r.lpc else r.dpc, queue := [], hold := .none } ∧
        t.cg = { s.cg with s := t.cg.s, pend := t.cg.pend, splits := setAt s.cg.splits s.cur.sp t.sp, frame := t.cg.frame }) ∧
    (s.cg.frame = some f → ∃ t, exec .tret s = .next t ∧ OnlyGroup s t ∧
      t.cg.sreg 124 = f.s124 ∧ t.cg.sreg 125 = f.s125 ∧ t.cg.sreg 126 = f.s126 ∧ t.cg.sreg 127 = f.s127 ∧ (∀ k, k < 124 → t.cg.sreg k = s.cg.sreg k) ∧
      t.sp = { s.sp with pc := f.pc, lpc := f.lpc, queue := f.queue, hinge := f.hinge, twinA := f.twinA, twinB := f.twinB } ∧
      t.cg = { s.cg with s := t.cg.s, pend := t.cg.pend, splits := setAt s.cg.splits s.cur.sp t.sp, frame := none }) ∧
    (s.cg.frame = none → exec .tret s = .next (illegalExec s))

/-- R400 and R35: done and exit end the split and its lanes. Where other splits of the group remain and no barrier or mig is waited at, nothing
else changes. Where it was the group's last, the group retires; its team retires with it where every other group of the team has retired, and
else not; the retirement offers a trace record of event 4. Where other lanes of the group are left, in splits or in deferred entries, the lanes
end all the same where the others wait at a tbar, a qbar, a hinge, a named barrier with a count that the barrier admits (R392), or a mig at which
another group of the team has not arrived (R410): the deferred entries that now find room become splits (R41), the lanes of every split stay
theirs, and memory is as before. -/
def Obligations.LaneEnds : Prop :=
  ∀ (s : State), queueEmpty s = true → NoTx s → SplitHere s → s.cg.spills = 0 →
    (2 ≤ s.cg.splits.length ∨ s.cg.defer ≠ [] → s.ct.migarr = 0 →
      (∀ p ∈ s.cg.splits, (∀ k n, p.hold = .bar k n → k ∈ [16, 17, 18] ∨ k < 16 ∧ 1 ≤ n ∧ n ≤ s.ct.size ∧
          ((mget (0, 0) s.ct.nb k).1 = 0 ∨ (mget (0, 0) s.ct.nb k).1 = n)) ∧
        ∀ d k, p.hold = .mig d k → ∃ e ∈ s.groups, ∃ j, j < 32 ∧ j < s.ct.size ∧ j ≠ s.cg.idx ∧ e.1 = handle s.cg.team j ∧ e.2.retired = false ∧
          e.1 ≠ s.cur.gh) →
      let n := min (4 - (s.cg.splits.length - 1)) s.cg.defer.length
      let ends (t : State) : Prop := t = { s with groups := t.groups, teams := t.teams } ∧ SameRegs s.cg t.cg ∧ t.cg.retired = s.cg.retired ∧
        t.cg.splits.map (·.mask) = (dropAt s.cg.splits s.cur.sp).map (·.mask) ++ (s.cg.defer.take n).map (·.mask) ∧ t.cg.defer = s.cg.defer.drop n
      (∃ t, exec .done s = .next t ∧ ends t ∧ t.cg.done = s.cg.done ||| s.sp.mask ∧ t.cg.exited = s.cg.exited) ∧
      ∃ t, exec .exit s = .next t ∧ ends t ∧ t.cg.exited = s.cg.exited ||| s.sp.mask ∧ t.cg.done = s.cg.done) ∧
    (s.cg.defer = [] → NoBarriers s → 2 ≤ s.cg.splits.length → (∀ p ∈ s.cg.splits, p.hold = .none) →
      exec .done s = .next (s.setCg { s.cg.passed s.seq s.sp.mask with splits := dropAt s.cg.splits s.cur.sp, done := s.cg.done ||| s.sp.mask }) ∧
      exec .exit s = .next (s.setCg { s.cg.passed s.seq s.sp.mask with splits := dropAt s.cg.splits s.cur.sp, exited := s.cg.exited ||| s.sp.mask })) ∧
    (s.cg.defer = [] → NoBarriers s → s.cg.splits.length = 1 → s.cg.retired = false → s.ct.pair = none →
      (∀ e ∈ s.cores, ∀ w ∈ e.2.waits, w.team ≠ s.cg.team) →
      let others : Prop := ∃ e ∈ s.groups, ∃ j, j < 32 ∧ j < s.ct.size ∧ e.1 = handle s.cg.team j ∧ e.2.retired = false ∧ e.1 ≠ s.cur.gh
      let team (t : State) : Prop := (s.ct.size ≤ 32 → ¬ others → t.ct.gone = true) ∧ (others → t.ct.gone = s.ct.gone)
      (∃ t, exec .done s = .next t ∧ team t ∧ t.cg.retired = true ∧ t.cg.splits = [] ∧ t.cg.done = s.cg.done ||| s.sp.mask ∧ t.cg.exited = s.cg.exited ∧
        SameMemBut s t (traceSlot s (dieOf s.ct.core))) ∧
      ∃ t, exec .exit s = .next t ∧ team t ∧ t.cg.retired = true ∧ t.cg.splits = [] ∧ t.cg.exited = s.cg.exited ||| s.sp.mask ∧ t.cg.done = s.cg.done ∧
        SameMemBut s t (traceSlot s (dieOf s.ct.core)))

/-- R398, R377, R455 and R48: take. With no done lane it writes 0 and goes on. Where its bin holds items and no split that could be filled waits for
them, the lowest done lanes, as many as there are items for them, each receive an item in the order of the pops, its P0 to P6 in v0 to v6 and
its KEY and low bits in v7; they leave the done set and join the split, the register receives their number, and the core's read-only lines are
discarded (R290); an item whose data is poison is fatal instead (R455). Else the split waits, at a quiescent point. A bin's banks are in their canonical form here. -/
def Obligations.TakeFillsLanes : Prop :=
  ∀ (s : State) (drain : Bool) (d : Nat) (l : Launch), queueEmpty s = true → NoTx s → SplitHere s → teamLaunch s s.ct = some l →
    let c := s.ct.core
    let e := s.ct.entry
    let dl := lanesOf s.cg.done
    let popped := popItems l c e dl.length s []
    let items := popped.1.map (·.item)
    let m := maskOf (dl.take items.length)
    (s.cg.done = 0 → exec (.take drain d) s = .next (s.wS d 0)) ∧
    (s.cg.done ≠ 0 → fillable s (takeWaiters s c e) = [] → binCount (s.bin c e) ≠ 0 → (s.bin c e).wf → poisonAt popped.1 = none →
      ∃ t, exec (.take drain d) s = .next t ∧ items.length = min dl.length (binCount (s.bin c e)) ∧
        binCount (t.bin c e) + items.length = binCount (s.bin c e) ∧ ((t.bin c e).items ++ items).Perm (s.bin c e).items ∧
        t.cg.done = s.cg.done &&& ~~~m ∧ t.sp.mask = s.sp.mask ||| m ∧ t.cg.sreg d = (if d = 0 then 0 else BitVec.ofNat 64 items.length) ∧
        (∀ k, k ≠ d → t.cg.sreg k = s.cg.sreg k) ∧ t.cg.q = s.cg.q ∧ t.cg.status = s.cg.status ∧ (t.core c).ro = [] ∧ SameMem s t ∧
        t = { s with groups := t.groups, cores := t.cores, free := t.free, seq := t.seq } ∧
        ∀ r k, k < 32 → t.cg.velem r k = if r < 8 ∧ inMask m k = true then
            (let i := nthD 0 items (findPos (· == k) dl)
             if r < 7 then itemP i r else BitVec.ofNat 64 (itemKey i + itemBits i 15 0 * 2 ^ 32))
          else s.cg.velem r k) ∧
    (∀ a, s.cg.done ≠ 0 → fillable s (takeWaiters s c e) = [] → binCount (s.bin c e) ≠ 0 → poisonAt popped.1 = some a →
      exec (.take drain d) s = .next (fatalGroup (stopIfEmpty popped.2 c e) s.cur.gh POISON 0 a)) ∧
    (s.cg.done ≠ 0 → binCount (s.bin c e) = 0 ∨ fillable s (takeWaiters s c e) ≠ [] →
      exec (.take drain d) s = .next ((s.setCg (s.cg.passed s.seq s.sp.mask)).setSp { s.sp with hold := .take drain d s.seq }))

/-- R45, R50 and R395 to R397: spawn and split make one item for each active lane, or for each lane whose interval can be bisected: its header as
R395 lays it out, and its payload. Each item joins the bin of its header's entry by itself: one whose bin has room is on its way to it, with a
place kept there, and the split holds the others until there is room. An item on its way enters its bin when it lands. split writes one half back and sends the other in P0, with NAI and its predicate as R397 says.
A lane whose ENTRY names an empty row is ILLEGAL_INST. A full bin here is one whose die has no room to spill.
Choices of the model that it rests on: log entries 24 and 45. -/
def Obligations.ItemsAreMade : Prop :=
  ∀ (s : State) (h : VH) (a v p : Nat) (b : Opnd) (pen upper : Bool) (l : Launch) (full : Nat → Bool), NoTx s → SplitHere s → s.sp.items = [] →
    teamLaunch s s.ct = some l →
    (∀ e, e < 16 → if full e = true then binCap l ≤ binLoad s s.ct.core e ∧ backingRoom s (dieOf s.ct.core) s.ct.ctx = false
      else binLoad s s.ct.core e + 32 ≤ binCap l) →
    let leaves (t : State) (is : List (BitVec 512)) : Prop :=
      t = { s with groups := t.groups, cores := t.cores } ∧ SameMem s t ∧ ItemsPlaced s t full is ∧ (∀ i, i ≠ s.cur.gh → t.grp i = s.grp i) ∧
      ((∀ i ∈ is, full (itemEntry i) = false) → t.sp = s.sp) ∧ ((∃ i ∈ is, full (itemEntry i) = true) → t.sp.hold = .retry)
    (Ready s (active s h) ((List.range 7).map (a + ·) ++ opRegs false b ++ latchRegs s (opLatches false b)) →
      ((∀ k ∈ lanesOf (active s h), rowUsed l (fld (rdOp s b k) 35 32) = true) →
        ∃ t is, exec (.spawn h a b) s = .next t ∧ leaves t is ∧ t.cg = { s.cg with status := t.cg.status, splits := t.cg.splits } ∧
          StatusLatch s t (active s h) (opLatches false b) ∧ is.length = (lanesOf (active s h)).length ∧
          ∀ j, j < is.length → let k := nthD 0 (lanesOf (active s h)) j
            HasFields (nthD 0 is j) (rdOp s b k) fun n => s.cg.rV s.free (a + n) k) ∧
      ((∃ k ∈ lanesOf (active s h), rowUsed l (fld (rdOp s b k) 35 32) = false) → opLatches false b = [] →
        exec (.spawn h a b) s = .next (illegalExec s))) ∧
    (∀ (core k : Nat) (i : BitVec 512) (r : Nat × Launch) (ms : List Move), s.agenda = .land core k :: ms → (s.core core).flying[k]? = some i →
      (dieCtx s (dieOf core)).bind (running s) = some r → (s.bin core (itemEntry i)).wf →
      ∃ t, step s = .next t ∧ t = { s with agenda := ms, cores := t.cores, free := t.free, seq := t.seq } ∧
        t.core core = { s.core core with flying := dropAt (s.core core).flying k, bins := (t.core core).bins } ∧ (∀ n, n ≠ core → t.core n = s.core n) ∧
        (t.bin core (itemEntry i)).items.Perm (i :: (s.bin core (itemEntry i)).items) ∧ ∀ e, e ≠ itemEntry i → t.bin core e = s.bin core e) ∧
    let x (k : Nat) : Ivl := x32Read (s.cg.rV s.free v k)
    let cut := (lanesOf s.sp.mask).filter fun k => bisectable fp32 (x k)
    (queueEmpty s = true → Ready s s.sp.mask [v] → Ready s (maskOf cut) ((List.range 6).map (v + 1 + ·)) → s.sp.mask ≠ 0 →
      (rowUsed l (fld (s.rS a) 35 32) = true →
        ∃ t is, exec (.split pen p a v upper) s = .next t ∧ leaves t is ∧ is.length = cut.length ∧
          t.cg = { s.cg with v := t.cg.v, q := t.cg.q, vpois := t.cg.vpois, pend := t.cg.pend, status := t.cg.status, splits := t.cg.splits } ∧
          (∀ j, j < is.length → let k := nthD 0 cut j
            HasFields (nthD 0 is j) (s.rS a) fun n => if n = 0 then x32Write (halfI fp32 (!upper) (x k)) else s.cg.rV s.free (v + n) k) ∧
          (∀ r k, k < 32 → t.cg.velem r k = if r = v ∧ inMask s.sp.mask k = true then
              x32Write (if bisectable fp32 (x k) then halfI fp32 upper (x k) else x k) else s.cg.velem r k) ∧
          (∀ r k, k < 32 → t.cg.qelem r k = if pen = true ∧ r = p ∧ inMask s.sp.mask k = true then
              (if bisectable fp32 (x k) = true then 1 else if (x k).isNai = true then 2 else 0) else s.cg.qelem r k) ∧
          ∀ k, k < 32 → t.cg.st k = if inMask s.sp.mask k = true then orBit (x k).isNai bNAI (s.cg.st k) else s.cg.st k) ∧
      (rowUsed l (fld (s.rS a) 35 32) = false → exec (.split pen p a v upper) s = .next (illegalExec s)))

/-- R351, R354 and R355: qpoint and gwait pass the split's lanes through a quiescent point; gwait waits for a grace period, which begins with it
where none is in progress and is then owed every lane of the group that is in no quiescent state; gnum reads the number of completed ones.
gdefer queues a node and a head, of whose addresses it asks alignment and canonical form; where its die's queue is full it waits, at a quiescent
point, with its operands and the period that serves it.
Choices of the model that it rests on: log entry 34. -/
def Obligations.GraceWords : Prop :=
  ∀ (s : State) (d a b : Nat), NoTx s → SplitHere s →
    let node := (s.rS a).toNat
    let head := (s.rS b).toNat
    exec .qpoint s = .next (s.setCg (s.cg.passed s.seq s.sp.mask)) ∧
    exec (.gnum d) s = .next (s.wS d (BitVec.ofNat 64 s.cctx.gn)) ∧
    (s.cctx.grace = true → exec (.gwait d) s = .next ((s.setCg (s.cg.passed s.seq s.sp.mask)).setSp { s.sp with hold := .gwait d 0 })) ∧
    (s.cctx.grace = false → ∃ t, exec (.gwait d) s = .next t ∧ t = { s with groups := t.groups, ctxs := t.ctxs } ∧
      t.sp = { s.sp with hold := .gwait d (s.cctx.gn + 1) } ∧ t.cctx.grace = true ∧ t.cctx.gn = s.cctx.gn ∧ t.cg.misc.owedK = s.cctx.gn + 1 ∧
      ∀ l, l < 32 → inMask t.cg.misc.owed l = (!s.cg.retired && !inMask (s.cg.done ||| s.cg.exited ||| s.sp.mask) l &&
        !(s.cg.splits.any fun p => waitsQuiet p.hold && inMask p.mask l))) ∧
    (node % 8 = 0 → head % 16 = 0 → canonical node = true → canonical head = true →
      (gdeferRoom s s.ct.ctx (dieOf s.ct.core) = true →
        ∃ t, exec (.gdefer a b) s = .next t ∧ t = { s with groups := t.groups, ctxs := t.ctxs } ∧ t.cctx.grace = true ∧
          t.cctx.defers.getLast? = some ⟨dieOf s.ct.core, node, head, if s.cctx.grace then 0 else s.cctx.gn + 1⟩ ∧
          t.cctx.defers.length = s.cctx.defers.length + 1) ∧
      (gdeferRoom s s.ct.ctx (dieOf s.ct.core) = false →
        ∃ t, exec (.gdefer a b) s = .next t ∧ t = { s with groups := t.groups, ctxs := t.ctxs } ∧ t.cctx.grace = true ∧
          t.cctx.defers.length = s.cctx.defers.length ∧ t.cg.misc.owed &&& s.sp.mask = 0 ∧
          t.sp = { s.sp with hold := .groom node head (if s.cctx.grace then 0 else s.cctx.gn + 1) })) ∧
    (node % 8 = 0 → head % 16 = 0 →
      (canonical node = false → exec (.gdefer a b) s = .next (fatal s PROTECTION 0 node 0)) ∧
      (canonical node = true → canonical head = false → exec (.gdefer a b) s = .next (fatal s PROTECTION 0 head 0))) ∧
    (node % 8 ≠ 0 → exec (.gdefer a b) s = .next (fatal s MISALIGN 8 node 0)) ∧
    (node % 8 = 0 → head % 16 ≠ 0 → exec (.gdefer a b) s = .next (fatal s MISALIGN 16 head 0))

/-- R456, R458, R459, R461 and R465: clock reads device time, which does not go back. mark offers a trace record of event 9 with its code, the
PC and the group, at the tail of its die's buffer, and touches no other memory; mark.snap also triggers a snapshot where event triggers are on.
Choices of the model that it rests on: log entry 26. -/
def Obligations.TimeAndMarks : Prop :=
  ∀ (s : State) (d c : Nat),
    let die := dieOf s.ct.core
    let at_ := mget 0 s.io.trcBase die + 32 * fld (s.reg (rTRCPTR die)) 20 0
    (∃ t, exec (.clock d) s = .next t ∧ s.io.time ≤ t.io.time ∧ t.cg.sreg d = (if d = 0 then 0 else BitVec.ofNat 64 t.io.time) ∧ OnlyScalars s.cg t.cg ∧
      (∀ k, k ≠ d → t.cg.sreg k = s.cg.sreg k) ∧ SameMem s t ∧ t = { s with groups := t.groups, free := t.free, io := { s.io with time := t.io.time, slew := t.io.slew } }) ∧
    (∃ t, exec (.mark false c) s = .next t ∧ SameMemBut s t (traceSlot s die) ∧ t.cg = { s.cg with tx := t.cg.tx } ∧
      (fld (s.reg (rTRCCTL die)) 25 25 = 0 → SameMem s t) ∧
      (fld (s.reg (rTRCCTL die)) 25 25 = 1 → isPeer (at_ + 31) = false →
        t.rdNat at_ 8 = t.io.time % 2 ^ 64 ∧ t.rdNat (at_ + 8) 2 = s.ct.core % 2 ^ 16 ∧ t.rdNat (at_ + 10) 1 = s.ct.ctx % 2 ^ 8 ∧ t.rdNat (at_ + 11) 1 = 9 ∧
        t.rdNat (at_ + 16) 8 = c % 2 ^ 64 ∧ t.rdNat (at_ + 24) 8 = (s.cur.pcA + s.cg.idx * 2 ^ 32) % 2 ^ 64 ∧
        fld (t.reg (rTRCPTR die)) 20 0 = (fld (s.reg (rTRCPTR die)) 20 0 + 1) % 2 ^ 21)) ∧
    (fld (s.reg (rTRCCTL die)) 25 25 = 0 → fld (s.reg rSNAPCTL) 1 1 = 1 → fld (s.reg rSNAPCTL) 0 0 = 1 → s.io.trig = none →
      ∃ t, exec (.mark true c) s = .next t ∧ t.io.trig = some (t.io.time + 1000, 2 ^ 5) ∧ SameMem s t)

/-- R172 and R173: the arithmetic words, on values of their TYPE, reduced to its width; the upper bits of a 32-bit result are zero.
R174: the logic and shift words, within the width of their TYPE. -/
def Obligations.VectorArithmeticAndLogic : Prop :=
  (∀ (s : State) (h : VH) (ty : Ty) (d : Nat) (a b c : Opnd),
     let x (l : Nat) : Int := valW ty (rdW s ty a l)
     let y (l : Nat) : Int := valW ty (rdW s ty b l)
     let z (l : Nat) : Int := valW ty (rdW s ty c l)
     let bits (l : Nat) : Nat := rdW s ty a l
     OneResult s h d [a, b] (fun l => elemW ty (x l + y l)) (exec (.vadd h ty d a b) s) ∧
     OneResult s h d [a, b] (fun l => elemW ty (x l - y l)) (exec (.vsub h ty d a b) s) ∧
     OneResult s h d [a, b] (fun l => elemW ty (x l * y l)) (exec (.vmul h ty d a b) s) ∧
     OneResult s h d [a, b] (fun l => elemW ty (x l * y l / 2 ^ wOf ty)) (exec (.vmulh h ty d a b) s) ∧
     OneResult s h d [a, b, c] (fun l => elemW ty (x l * y l + z l)) (exec (.vmad h ty d a b c) s) ∧
     OneResult s h d [a, b] (fun l => elemW ty (min (x l) (y l))) (exec (.vmin h ty d a b) s) ∧
     OneResult s h d [a, b] (fun l => elemW ty (max (x l) (y l))) (exec (.vmax h ty d a b) s) ∧
     (isSigned ty = true → OneResult s h d [a] (fun l => elemW ty ((x l).natAbs : Int)) (exec (.vabs h ty d a) s)) ∧
     OneResult s h d [a] (fun l => elemW ty (-x l)) (exec (.vneg h ty d a) s) ∧
     (∃ n : Nat → Nat, (∀ l, n l ≤ wOf ty ∧ bits l < 2 ^ (wOf ty - n l) ∧ (n l = wOf ty ∨ 2 ^ (wOf ty - 1 - n l) ≤ bits l)) ∧
       OneResult s h d [a] (fun l => BitVec.ofNat 64 (n l)) (exec (.vclz h ty d a) s)) ∧
     OneResult s h d [a] (fun l => BitVec.ofNat 64 ((List.range (wOf ty)).filter fun k => (bits l).testBit k).length) (exec (.vpop h ty d a) s)) ∧
  ∀ (s : State) (h : VH) (ty : Ty) (d : Nat) (a b : Opnd),
    let low : Word64 := BitVec.ofNat 64 (2 ^ wOf ty - 1)
    let x (l : Nat) : Word64 := rdOp s a l &&& low
    let y (l : Nat) : Word64 := rdOp s b l &&& low
    let n (l : Nat) : Nat := (y l).toNat
    OneResult s h d [a, b] (fun l => x l &&& y l) (exec (.vand h ty d a b) s) ∧
    OneResult s h d [a, b] (fun l => x l ||| y l) (exec (.vor h ty d a b) s) ∧
    OneResult s h d [a, b] (fun l => x l ^^^ y l) (exec (.vxor h ty d a b) s) ∧
    OneResult s h d [a] (fun l => ~~~(x l) &&& low) (exec (.vnot h ty d a) s) ∧
    OneResult s h d [a, b] (fun l => if wOf ty ≤ n l then 0 else (x l <<< n l) &&& low) (exec (.vshl h ty d a b) s) ∧
    OneResult s h d [a, b] (fun l => if wOf ty ≤ n l then 0 else x l >>> n l) (exec (.vshr h ty d a b) s) ∧
    OneResult s h d [a, b] (fun l => elemW ty (sext (wOf ty) (x l).toNat / 2 ^ min (n l) (wOf ty))) (exec (.vsra h ty d a b) s)

/-- R163, R164 and R173: vdiv and vrem round toward zero. Division by zero gives all ones, or the dividend, and sets DZ; the most negative value
by minus one gives itself, or zero, and sets OV. With the trap enabled the word writes its results and bits, and then the lanes that
offend trap with INT_DIVIDE. -/
def Obligations.VectorDivision : Prop :=
  ∀ (s : State) (h : VH) (ty : Ty) (d : Nat) (a b : Opnd),
    let x (l : Nat) : Int := valW ty (rdW s ty a l)
    let y (l : Nat) : Int := valW ty (rdW s ty b l)
    let dz (l : Nat) : Bool := decide (y l = 0)
    let ov (l : Nat) : Bool := isSigned ty && decide (x l = -(2 ^ (wOf ty - 1))) && decide (y l = -1)
    let st (l : Nat) (w : Word32) : Word32 := orBit (ov l) bOV (orBit (dz l) bDZ w)
    let regs := [a, b].flatMap (opRegs false)
    let lat := [a, b].flatMap (opLatches false)
    let q (l : Nat) : Word64 × Word64 := (if dz l then elemW ty (-1) else elemW ty ((x l).tdiv (y l)), 0)
    let r (l : Nat) : Word64 × Word64 := (if dz l then elemW ty (x l) else elemW ty ((x l).tmod (y l)), 0)
    let bad := (lanesOf (active s h)).filter fun l => dz l || ov l
    (trapDiv s = false ∨ bad = [] → PairWord s h .i64 d regs lat q st (exec (.vdiv h ty d a b) s) ∧
      PairWord s h .i64 d regs lat r st (exec (.vrem h ty d a b) s)) ∧
    (trapDiv s = true → bad ≠ [] → Ready s (active s h) (regs ++ latchRegs s lat) →
      (∃ t, exec (.vdiv h ty d a b) s = (takeTrap t INT_DIVIDE (maskOf bad) 0 s.cur.pcA s.cur.pcB).out ∧
        WritesPair s t h (active s h) .i64 d q ∧ StatusBy s t (active s h) lat st ∧ OnlyVecs s.cg t.cg ∧ OnlyVector s t) ∧
      ∃ t, exec (.vrem h ty d a b) s = (takeTrap t INT_DIVIDE (maskOf bad) 0 s.cur.pcA s.cur.pcB).out ∧
        WritesPair s t h (active s h) .i64 d r ∧ StatusBy s t (active s h) lat st ∧ OnlyVecs s.cg t.cg ∧ OnlyVector s t)

/-- R67 and R175 to R179: bit fields, select, moves, and the registers that index registers name, with REG_BOUND past the group's allotment.
R180: vcmp writes true or false; its conditions, by the values of the TYPE. -/
def Obligations.VectorFieldsMovesAndCompares : Prop :=
  (∀ (s : State) (h : VH) (ty : Ty) (d : Nat) (a b c : Opnd) (pos len p j off : Nat) (i : BitVec 32),
     let x (l : Nat) : Nat := rdW s ty a l
     let k := mget 0 s.cg.j j + off
     (1 ≤ len → pos + len ≤ wOf ty →
       OneResult s h d [a] (fun l => if isSigned ty then elemW ty (sext len (x l / 2 ^ pos)) else BitVec.ofNat 64 (x l / 2 ^ pos % 2 ^ len))
         (exec (.vbfe h ty d a pos len) s) ∧
       ∃ f : Nat → Word64, OneResult s h d [a, .v d] f (exec (.vbfi h ty d a pos len) s) ∧
         ∀ l m, m < 64 → (f l).getLsbD m =
           if pos ≤ m ∧ m < pos + len then (x l).testBit (m - pos) else (rdW s ty (.v d) l).testBit m) ∧
     OneResult s h d [a, b, c] (fun l => BitVec.ofNat 64 (if s.cg.rQ s.free p l = 1 then x l else if s.cg.rQ s.free p l = 0 then rdW s ty b l else rdW s ty c l))
       (exec (.vsel h ty d a b c p) s) ∧
     OneResult s h d [a] (fun l => BitVec.ofNat 64 (x l)) (exec (.vmov h ty d a) s) ∧
     OneResult s h d [] (fun _ => if ty = .i64 then i.signExtend 64 else i.zeroExtend 64) (exec (.vmovi h ty d i) s) ∧
     (k < s.cg.allot →
       OneResult s h d [.v k] (fun l => BitVec.ofNat 64 (rdW s ty (.v k) l)) (exec (.vidxRead h ty d j off) s) ∧
       OneResult s h k [a] (fun l => BitVec.ofNat 64 (x l)) (exec (.vidxWrite h ty j off a) s)) ∧
     (s.cg.allot ≤ k → exec (.vidxRead h ty d j off) s = .next (fatal s REG_BOUND j k 0) ∧
       exec (.vidxWrite h ty j off a) s = .next (fatal s REG_BOUND j k 0))) ∧
  ∀ (s : State) (h : VH) (ty : Ty) (p : Nat) (a b : Opnd),
    let x (l : Nat) : Int := valW ty (rdW s ty a l)
    let y (l : Nat) : Int := valW ty (rdW s ty b l)
    let holdsBy (c : Nat) (f : Nat → Bool) : Prop :=
      PredWord s h p ([a, b].flatMap (opRegs false)) ([a, b].flatMap (opLatches false)) (fun l => if f l then 1 else 0) (fun _ w => w) (exec (.vcmp h ty p c a b) s)
    holdsBy 0 (fun l => decide (x l = y l)) ∧ holdsBy 1 (fun l => decide (x l ≠ y l)) ∧ holdsBy 2 (fun l => decide (x l < y l)) ∧
    holdsBy 3 (fun l => decide (x l ≤ y l)) ∧ holdsBy 4 (fun l => decide (y l < x l)) ∧ holdsBy 5 (fun l => decide (y l ≤ x l))

/-- R183 and R185: each arithmetic and elementary word gives, for each interval of an active lane, the interval, the decoration and the NaI of its
operation on the operands' intervals. What these are, IntervalSpecialCasesAndRelations and IntervalEnclosure say.
Choices of the model that it rests on: log entry 22. -/
def Obligations.IntervalArithmetic : Prop :=
  ∀ (s : State) (h : VH) (ty : Ty) (d : Nat) (a b c : Opnd),
    let f := boundFmt ty
    let one (op : AOp) (o : Out) : Prop := IvlWord s h ty d [a] (fun l j => ivlArith f op [rdIvl s ty a l j]) o
    let two (op : AOp) (o : Out) : Prop := IvlWord s h ty d [a, b] (fun l j => ivlArith f op [rdIvl s ty a l j, rdIvl s ty b l j]) o
    two .add (exec (.xadd h ty d a b) s) ∧ two .sub (exec (.xsub h ty d a b) s) ∧ two .mul (exec (.xmul h ty d a b) s) ∧
    two .div (exec (.xdiv h ty d a b) s) ∧ two .min (exec (.xmin h ty d a b) s) ∧ two .max (exec (.xmax h ty d a b) s) ∧
    IvlWord s h ty d [a, b, c] (fun l j => ivlArith f .fma [rdIvl s ty a l j, rdIvl s ty b l j, rdIvl s ty c l j]) (exec (.xfma h ty d a b c) s) ∧
    one .recip (exec (.xrecip h ty d a) s) ∧ one .sqr (exec (.xsqr h ty d a) s) ∧ one .sqrt (exec (.xsqrt h ty d a) s) ∧
    one .abs (exec (.xabs h ty d a) s) ∧ one .neg (exec (.xneg h ty d a) s) ∧ one (.elem .exp) (exec (.xexp h ty d a) s) ∧
    one (.elem .exp2) (exec (.xexp2 h ty d a) s) ∧ one (.elem .log) (exec (.xlog h ty d a) s) ∧ one (.elem .log2) (exec (.xlog2 h ty d a) s) ∧
    one (.elem .sin) (exec (.xsin h ty d a) s) ∧ one (.elem .cos) (exec (.xcos h ty d a) s) ∧ one (.elem .tanh) (exec (.xtanh h ty d a) s)

/-- R156 and R157, for every arithmetic and elementary word: NaI in an operand gives NaI, decoration trv and the NaI mark; else an empty operand gives
the empty set and trv; else a domain that dropped part gives trv, an unbounded operand or result dac, and the rest com.
R186: the words that do not round. R161 and R192: what a comparison of two intervals yields, empty ones and NaI among them, and every bit of the class
mask. -/
def Obligations.IntervalSpecialCasesAndRelations : Prop :=
  (∀ (f : Fmt) (op : AOp) (xs : List Ivl),
    (.nai ∈ xs → ivlArith f op xs = (.nai, 0, true)) ∧ (.nai ∉ xs → .empty ∈ xs → ivlArith f op xs = (.empty, 0, false))) ∧
  (∀ (f : Fmt) (op : AOp) (bs : List (XR × XR)), bs.length = (match op with
      | .fma => 3
      | .add | .sub | .mul | .div | .min | .max => 2
      | _ => 1) →
    let r := ivlArith f op (bs.map fun b => .mk b.1 b.2)
    let dropped : Bool := match op, bs with
      | .div, [_, (c, d)] => xLe c xZero && xLe xZero d
      | .recip, [(c, d)] => xLe c xZero && xLe xZero d
      | .sqrt, [(a, b)] => xLt a xZero || xLt b xZero
      | .elem .log, [(a, b)] => xLe a xZero || xLe b xZero
      | .elem .log2, [(a, b)] => xLe a xZero || xLe b xZero
      | _, _ => false
    let far : Bool := (bs.any fun b => !(xIsFin b.1 && xIsFin b.2)) || match r.1 with
      | .mk lo hi => !(xIsFin lo && xIsFin hi)
      | _ => false
    r.2.2 = false ∧ r.2.1 = if dropped then 0 else if far then 2 else 3) ∧
  (∀ (f : Fmt) (lo hi lo' hi' : XR), (ivlArith f .neg [.mk lo hi]).1 = .mk (xNegR hi) (xNegR lo) ∧
    (ivlArith f .abs [.mk lo hi]).1 =
      (if xLe xZero lo then .mk lo hi else if xLe hi xZero then .mk (xNegR hi) (xNegR lo) else .mk xZero (xMax (xNegR lo) hi)) ∧
    (ivlArith f .min [.mk lo hi, .mk lo' hi']).1 = .mk (xMin lo lo') (xMin hi hi') ∧
    (ivlArith f .max [.mk lo hi, .mk lo' hi']).1 = .mk (xMax lo lo') (xMax hi hi')) ∧
  (∀ (c : Nat) (z : Ivl), cmpI c .nai z = 2 ∧ cmpI c z .nai = 2 ∧ (z ≠ .nai →
    let both : Tri := if z = .empty then 1 else 0
    (c < 4 → cmpI c .empty z = 0 ∧ cmpI c z .empty = 0) ∧
    cmpI 4 .empty z = both ∧ cmpI 4 z .empty = both ∧ cmpI 5 .empty z = 1 - both ∧ cmpI 5 z .empty = 1 - both ∧
    cmpI 6 .empty z = 1 ∧ cmpI 6 z .empty = both ∧ cmpI 7 .empty z = 0 ∧ cmpI 7 z .empty = 0 ∧ cmpI 8 .empty z = 1 ∧ cmpI 8 z .empty = 1)) ∧
  (∀ l h l' h' : XR,
    let x : Ivl := .mk l h
    let y : Ivl := .mk l' h'
    let three (t f : Bool) : Tri := if t then 1 else if f then 0 else 2
    cmpI 0 x y = three (xLt h l') (xLe h' l) ∧ cmpI 1 x y = three (xLe h l') (xLt h' l) ∧
    cmpI 2 x y = cmpI 0 y x ∧ cmpI 3 x y = cmpI 1 y x ∧
    cmpI 4 x y = (if xEq l l' && xEq h h' then 1 else 0) ∧ cmpI 5 x y = 1 - cmpI 4 x y ∧
    cmpI 6 x y = (if xLe l' l && xLe h h' then 1 else 0) ∧
    cmpI 8 x y = (if xLt (xMin h h') (xMax l l') then 1 else 0) ∧
    cmpI 7 x y = three (xLe l' l && xLe h h') (xLt (xMin h h') (xMax l l'))) ∧
  ∀ (f : Fmt) (lo hi : Nat), f ∈ [fp64, fp32, bf16, fp16] →
    let m := clsI f lo hi
    let odd : Bool := decide (ivlWrite f (ivlBits f lo hi) ≠ (lo, hi))
    let sub (b : Nat) : Bool := decide (0 < b % 2 ^ (f.w - 1)) && decide (b % 2 ^ (f.w - 1) < 2 ^ (f.p - 1))
    m.testBit 11 = odd ∧ m < 2 ^ 12 ∧
    (ivlBits f lo hi = .nai → m % 2 ^ 11 = 2) ∧ (ivlBits f lo hi = .empty → m % 2 ^ 11 = 1) ∧
    ∀ l h, ivlBits f lo hi = .mk l h →
      m.testBit 0 = false ∧ m.testBit 1 = false ∧ m.testBit 2 = (decide (l = .ninf) && decide (h = .pinf)) ∧ m.testBit 3 = (xIsFin l && xEq l h) ∧
      m.testBit 4 = (xIsFin l && xIsFin h) ∧ m.testBit 5 = (xLe l xZero && xLe xZero h) ∧ m.testBit 6 = xLt h xZero ∧ m.testBit 7 = xLt xZero l ∧
      m.testBit 8 = decide (l = .ninf) ∧ m.testBit 9 = decide (h = .pinf) ∧ m.testBit 10 = (sub lo || sub hi)

/-- R149 and R150: every bound is rounded outward, so that the result of an operation on intervals contains the operation's value at every
point of its operands: here for all arithmetic words, in each bound format; of a square root, the bounds' squares enclose the argument.
Rounding downward gives the greatest value of a format that is not above the number, or −∞, rounding upward the least that is not below it, or
+∞, and rounding to nearest a value that no other is closer to, an even one where two are as close. -/
def Obligations.IntervalEnclosure : Prop :=
  (∀ (f : Fmt) (x y z : Ivl) (p q r : Q), f ∈ [fp64, fp32, bf16, fp16] → x.ok → y.ok → z.ok → 0 < p.d → 0 < q.d → 0 < r.d → x.has p → y.has q → z.has r →
    let one (op : AOp) : Ivl := (ivlArith f op [x]).1
    let two (op : AOp) : Ivl := (ivlArith f op [x, y]).1
    (two .add).has (qAdd p q) ∧ (two .sub).has (qSub p q) ∧ (two .mul).has (qMul p q) ∧ (q.n ≠ 0 → (two .div).has (qDiv p q)) ∧
    (two .min).has (qMin p q) ∧ (two .max).has (qMax p q) ∧ (ivlArith f .fma [x, y, z]).1.has (qAdd (qMul p q) r) ∧
    (one .neg).has (qNeg p) ∧ (one .abs).has (qAbs p) ∧ (one .sqr).has (qMul p p) ∧ (p.n ≠ 0 → (one .recip).has (qDiv (qInt 1) p)) ∧
    (0 ≤ p.n → ∃ lo hi, one .sqrt = .mk lo hi ∧ lo ≠ .pinf ∧ hi ≠ .ninf ∧ (∀ a, lo = .fin a → a.n ≤ 0 ∨ qLe (qMul a a) p = true) ∧
      ∀ b, hi = .fin b → 0 ≤ b.n ∧ qLe p (qMul b b) = true)) ∧
  ∀ (f : Fmt) (q : Q), f ∈ [fp64, fp32, bf16, fp16, cmFmt] → 0 < q.d →
    let at_ (r : Rnd) : XR := fpXR f (roundQ f r q)
    let far (v : Q) : Q := qAbs (qSub v q)
    xLe (at_ .down) (.fin q) = true ∧ xLe (.fin q) (at_ .up) = true ∧ roundQ f .zero q = (if q.n < 0 then roundQ f .up q else roundQ f .down q) ∧
    (∀ neg k, k ≤ f.top → (qLe (fpVal f neg k) q = true → xLe (.fin (fpVal f neg k)) (at_ .down) = true) ∧
      (qLe q (fpVal f neg k) = true → xLe (at_ .up) (.fin (fpVal f neg k)) = true)) ∧
    (∀ neg k, roundQ f .near q = .fin neg k → k ≤ f.top ∧ ∀ neg' k', k' ≤ f.top → qLe (far (fpVal f neg k)) (far (fpVal f neg' k')) = true ∧
      (qLe (far (fpVal f neg' k')) (far (fpVal f neg k)) = true → qEq (fpVal f neg k) (fpVal f neg' k') = true ∨ k % 2 = 0)) ∧
    (∀ neg, roundQ f .near q = .inf neg → neg = decide (q.n < 0) ∧ qLt (maxQ f) (qAbs q) = true) ∧ roundQ f .near q ≠ .nan ∧
    ∀ r, fpOf f (fpBits f (roundQ f r q)) = roundQ f r q

/-- R158 and R189 to R191: the words that keep DECO: hull, intersection, the five numbers of an interval, and an interval from two bound fields;
NAI where they meet or make NaI. The midpoint of a bounded interval lies in it and is the rounded half of the sum; the radius is the least
number that reaches both bounds from it, the width the least that is not below their distance; an infinite number is written as an
interval from the largest finite value. An interval made from its own bounds is itself. -/
def Obligations.IntervalSetsAndBounds : Prop :=
  (∀ f : Fmt, f ∈ [fp64, fp32, bf16, fp16] →
    let far : Ivl := .mk (.fin (maxQ f)) .pinf
    let point (q : Q) : Ivl := .mk (.fin q) (.fin q)
    let number (i : Ivl) (enough : Q → Bool) : Prop :=
      (i = far ∧ ∀ k, k ≤ f.top → enough (magVal f k) = false) ∨
        ∃ k, k ≤ f.top ∧ i = point (magVal f k) ∧ ∀ j, j ≤ f.top → (enough (magVal f j) = true ↔ k ≤ j)
    (∀ op, boundOp f op .nai = .nai ∧ boundOp f op .empty = .nai) ∧
    (∀ q, boundOp f .mid (.mk .ninf (.fin q)) = point (qNeg (maxQ f)) ∧ boundOp f .mid (.mk (.fin q) .pinf) = point (maxQ f)) ∧
    boundOp f .mid (.mk .ninf .pinf) = point (qInt 0) ∧
    (∀ l h, xIsFin l = false ∨ xIsFin h = false → boundOp f .rad (.mk l h) = far ∧ boundOp f .wid (.mk l h) = far) ∧
    (∀ l h q, boundOp f .lo (.mk (.fin q) h) = point q ∧ boundOp f .hi (.mk l (.fin q)) = point q ∧
      boundOp f .lo (.mk .ninf h) = .mk .ninf (.fin (qNeg (maxQ f))) ∧ boundOp f .hi (.mk l .pinf) = far) ∧
    (∀ na nb ka kb, ka ≤ f.top → kb ≤ f.top →
      let a := fpVal f na ka
      let b := fpVal f nb kb
      qLe a b = true → ∃ neg k, k ≤ f.top ∧
        let m := fpVal f neg k
        roundQ f .near (qMul (qAdd a b) ⟨1, 2⟩) = .fin neg k ∧ qLe a m = true ∧ qLe m b = true ∧ boundOp f .mid (.mk (.fin a) (.fin b)) = point m ∧
        number (boundOp f .rad (.mk (.fin a) (.fin b))) (fun r => qLe (qSub m a) r && qLe (qSub b m) r) ∧
        number (boundOp f .wid (.mk (.fin a) (.fin b))) (fun r => qLe (qSub b a) r)) ∧
    ∀ lo hi : Nat,
      let u := fpOf f lo
      let v := fpOf f hi
      makeI f lo hi = (if u = .nan ∨ v = .nan ∨ u = .inf false ∨ v = .inf true ∨ xLe (fpXR f u) (fpXR f v) = false then .nai else .mk (fpXR f u) (fpXR f v)) ∧
      let a := ivlBits f lo hi
      (a ≠ .nai → a ≠ .empty → makeI f (ivlWrite f (boundOp f .lo a)).1 (ivlWrite f (boundOp f .hi a)).2 = a)) ∧
  ∀ (s : State) (h : VH) (ty : Ty) (d : Nat) (a b : Opnd),
    let f := boundFmt ty
    let x (l j : Nat) : Ivl := rdIvl s ty a l j
    let y (l j : Nat) : Ivl := rdIvl s ty b l j
    let plain (ops : List Opnd) (v : Nat → Nat → Ivl) (o : Out) : Prop := IvlWord s h ty d ops (fun l j => (v l j, 3, decide (v l j = .nai))) o
    let hull : Ivl → Ivl → Ivl := fun
      | .nai, _ => .nai
      | _, .nai => .nai
      | .empty, q => q
      | p, .empty => p
      | .mk l u, .mk l' u' => .mk (xMin l l') (xMax u u')
    let meet : Ivl → Ivl → Ivl := fun
      | .nai, _ => .nai
      | _, .nai => .nai
      | .mk l u, .mk l' u' => if xLe (xMax l l') (xMin u u') then .mk (xMax l l') (xMin u u') else .empty
      | _, _ => .empty
    plain [a, b] (fun l j => hull (x l j) (y l j)) (exec (.xhull h ty d a b) s) ∧
    plain [a, b] (fun l j => meet (x l j) (y l j)) (exec (.xmeet h ty d a b) s) ∧
    plain [a] (fun l j => boundOp f .mid (x l j)) (exec (.xmid h ty d a) s) ∧
    plain [a] (fun l j => boundOp f .rad (x l j)) (exec (.xrad h ty d a) s) ∧
    plain [a] (fun l j => boundOp f .wid (x l j)) (exec (.xwid h ty d a) s) ∧
    plain [a] (fun l j => match x l j with | .mk lo _ => numI f lo | _ => .nai) (exec (.xlo h ty d a) s) ∧
    plain [a] (fun l j => match x l j with | .mk _ hi => numI f hi | _ => .nai) (exec (.xhi h ty d a) s) ∧
    plain [a, b] (fun l j => makeI f (rdBounds s ty a l j).1 (rdBounds s ty b l j).2) (exec (.xmake h ty d a b) s)

/-- R158, R161, R164 and R192 to R196: the class mask, the comparisons into a predicate, the decoration floor, and bisection, with the trap
INTERVAL_NAI after all lanes are written. An interval is bisectable where a value of the format lies strictly between its bounds; its halves then meet in
its midpoint, which is strictly inside, and are together the whole. -/
def Obligations.IntervalTests : Prop :=
  (∀ (f : Fmt) (lo hi : Nat) (l h : XR), f ∈ [fp64, fp32, bf16, fp16] → ivlBits f lo hi = .mk l h →
    (bisectable f (.mk l h) = true ↔ ∃ neg k, k ≤ f.top ∧ xLt l (.fin (fpVal f neg k)) = true ∧ xLt (.fin (fpVal f neg k)) h = true) ∧
    (bisectable f (.mk l h) = true → ∃ p, boundOp f .mid (.mk l h) = .mk p p ∧ halfI f false (.mk l h) = .mk l p ∧ halfI f true (.mk l h) = .mk p h ∧
      xLt l p = true ∧ xLt p h = true)) ∧
  (∀ f, bisectable f .nai = false ∧ bisectable f .empty = false) ∧
  ∀ (s : State) (h : VH) (ty : Ty) (d p c op dec : Nat) (a b : Opnd) (upper pen : Bool),
    let f := boundFmt ty
    let x (l j : Nat) : Ivl := rdIvl s ty a l j
    let y (l j : Nat) : Ivl := rdIvl s ty b l j
    let pair := ty == .x64
    let naiX (l : Nat) : Bool := (List.range (ivlCount ty)).any fun j => (x l j).isNai
    let cls (l j : Nat) : Nat := clsI f (rdBounds s ty a l j).1 (rdBounds s ty a l j).2
    let act := active s h
    let nai (l : Nat) (w : Word32) : Word32 := orBit (naiX l) bNAI w
    let bad := (lanesOf act).filter naiX
    let mask (l : Nat) : Word64 × Word64 := (BitVec.ofNat 64 (cls l 0 + if ivlCount ty = 2 then cls l 1 * 2 ^ 16 else 0), 0)
    let half (l j : Nat) : Ivl := if bisectable f (x l j) then halfI f upper (x l j) else x l j
    let bis (t : State) : Prop := OnlyVector s t ∧ WritesPair s t h act ty d (fun l => ivlElems ty ((List.range (ivlCount ty)).map (half l))) ∧
      StatusBy s t act (opLatches pair a) nai ∧
      (∀ r l, l < 32 → t.cg.qelem r l = if pen = true ∧ r = p ∧ inMask act l = true then
        (if bisectable f (x l 0) then 1 else if (x l 0).isNai then 2 else 0) else s.cg.qelem r l) ∧
      t.cg = { s.cg with v := t.cg.v, q := t.cg.q, pend := t.cg.pend, vpois := t.cg.vpois, tags := t.cg.tags, status := t.cg.status }
    let badC := (lanesOf act).filter fun l => (x l 0).isNai || (y l 0).isNai
    let naiC (l : Nat) (w : Word32) : Word32 := orBit ((x l 0).isNai || (y l 0).isNai) bNAI w
    let regsC := [a, b].flatMap (opRegs pair)
    let latC := [a, b].flatMap (opLatches pair)
    (trapNai s = false ∨ bad = [] → PairWord s h .i64 d (opRegs pair a) (opLatches pair a) mask nai (exec (.xcls h ty d a) s) ∧
      (Ready s act (opRegs pair a ++ latchRegs s (opLatches pair a)) → ∃ t, exec (.xbis h ty d a upper pen p) s = .next t ∧ bis t)) ∧
    NaiTrap s act bad (opRegs pair a) (opLatches pair a) (PairEffect s h .i64 d (opLatches pair a) mask nai) (exec (.xcls h ty d a) s) ∧
    NaiTrap s act bad (opRegs pair a) (opLatches pair a) bis (exec (.xbis h ty d a upper pen p) s) ∧
    (trapNai s = false ∨ badC = [] → PredWord s h p regsC latC (fun l => cmpI c (x l 0) (y l 0)) naiC (exec (.xcmp h ty p c a b) s)) ∧
    NaiTrap s act badC regsC latC (fun t => (∀ r l, l < 32 → t.cg.qelem r l = if inMask act l = true ∧ r = p then cmpI c (x l 0) (y l 0) else s.cg.qelem r l) ∧
      StatusBy s t act latC naiC ∧ OnlyPreds s.cg t.cg ∧ OnlyGroup s t) (exec (.xcmp h ty p c a b) s) ∧
    (dec < 4 → ∃ t, exec (.xdec h op dec) s = .next t ∧ OnlyGroup s t ∧ t.cg = { s.cg with status := t.cg.status } ∧
      StatusBy s t (active s h) [] fun _ w =>
        (w &&& ~~~3#32) ||| BitVec.ofNat 32 (if op = 0 then dec else min dec (w.toNat % 4)))

/-- R64, R162, R198 and R199: the predicate words, with false below undecided below true, and the moves between a predicate and a scalar register. -/
def Obligations.PredicateWords : Prop :=
  ∀ (s : State) (h : VH) (pd pa pb v d a : Nat),
    let x (l : Nat) : Tri := s.cg.rQ s.free pa l
    let y (l : Nat) : Tri := s.cg.rQ s.free pb l
    let rank (q : Tri) : Nat := if q = 0 then 0 else if q = 2 then 1 else 2
    let gives (f : Nat → Tri) (o : Out) : Prop := PredWord s h pd [] [] f keepStatus o
    gives (fun l => if rank (x l) ≤ rank (y l) then x l else y l) (exec (.qand h pd pa pb) s) ∧
    gives (fun l => if rank (x l) ≤ rank (y l) then y l else x l) (exec (.qor h pd pa pb) s) ∧
    gives (fun l => if x l = 2 ∨ y l = 2 then 2 else if x l = y l then 0 else 1) (exec (.qxor h pd pa pb) s) ∧
    gives (fun l => if x l = 0 then 1 else if x l = 1 then 0 else 2) (exec (.qnot h pd pa) s) ∧
    (v < 3 → gives (fun _ => v) (exec (.qset h pd v) s) ∧ gives (fun l => if x l = 2 then v else x l) (exec (.qfix h pd pa v) s)) ∧
    gives x (exec (.qmov h pd pa) s) ∧
    (∃ w : Word64, exec (.qmovToScalar h d pa) s = .next (s.wS d w) ∧ ∀ l, l < 32 → fld w (2 * l + 1) (2 * l) = x l) ∧
    gives (fun l => if fld (s.rS a) (2 * l + 1) (2 * l) = 3 then 2 else fld (s.rS a) (2 * l + 1) (2 * l)) (exec (.qmovFromScalar h pd a) s)

/-- R94 and R202 to R205: votes, shuffles and broadcasts, counted in XLANE; a lane whose source is not active gets nothing. -/
def Obligations.CrossLaneWords : Prop :=
  ∀ (s : State) (h : VH) (ty : Ty) (d pa pd op dist src k : Nat) (a b : Opnd) (sel : Option Nat),
    let act := active s h
    let q (l : Nat) : Tri := s.cg.rQ s.free pa l
    let el (l : Nat) : Word64 := BitVec.ofNat 64 (rdW s ty a l)
    let from_ (i : Int) : Option (Word64 × Word64) := if 0 ≤ i ∧ i < 32 ∧ inMask act i.toNat = true then some (el i.toNat, 0) else none
    let vote : Tri := match op with
      | 0 => if ∀ l ∈ lanesOf act, q l = 1 then 1 else if ∃ l ∈ lanesOf act, q l = 0 then 0 else 2
      | 1 => if ∃ l ∈ lanesOf act, q l = 1 then 1 else if ∀ l ∈ lanesOf act, q l = 0 then 0 else 2
      | _ => if ∀ l ∈ lanesOf act, ∀ m ∈ lanesOf act, q l = q m then 1 else 0
    let shuffles (ops : List Opnd) (i : Nat → Int) (o : Out) : Prop :=
      CountedVec s h 3 .i64 d (ops.flatMap (opRegs false)) (ops.flatMap (opLatches false)) (fun l => from_ (i l)) keepStatus o
    let source : Nat := match sel with
      | some r => (s.rS r).toNat % 32
      | none => src
    (∃ w w' : Word64, (∀ l, l < 32 → w.getLsbD l = (inMask act l && decide (q l = 1)) ∧ w.getLsbD (32 + l) = (inMask act l && decide (q l = 0)) ∧
        w'.getLsbD l = (inMask act l && decide (q l = 2)) ∧ w'.getLsbD (32 + l) = false) ∧
      CountedWrites s h 3 [] [] [⟨1, d, w, false⟩, ⟨1, d + 1, w', false⟩] keepStatus (exec (.vbal h d pa) s)) ∧
    CountedWrites s h 3 [] [] ((lanesOf act).map fun l => ⟨2, pd * 32 + l, BitVec.ofNat 64 vote, false⟩) keepStatus (exec (.vvote h op pd pa) s) ∧
    shuffles [a, b] (fun l => ((rdOp s b l).toNat % 32 : Nat)) (exec (.vshfIdx h ty d a b) s) ∧
    shuffles [a] (fun l => (l ^^^ dist : Nat)) (exec (.vshfXor h ty d a dist) s) ∧
    shuffles [a] (fun l => (l : Int) - dist) (exec (.vshfUp h ty d a dist) s) ∧
    shuffles [a] (fun l => (l : Int) + dist) (exec (.vshfDn h ty d a dist) s) ∧
    shuffles [a] (fun _ => (source : Int)) (exec (.vbcast h ty (.v d) a src sel) s) ∧
    CountedWrites s h 3 (opRegs false a) (opLatches false a) ((from_ source).map fun x => (⟨1, k, x.1, false⟩ : PW)).toList keepStatus
      (exec (.vbcast h ty (.s k) a src sel) s)

/-- R206 and R207: vred combines the active lanes' values. For the integer operations the order does not matter: the result is that of going
through the lanes one after the other. The interval operations follow the tree of R207, with the lowest decoration of its nodes, and NaI where a lane or a node has
one; while INTERVAL_NAI is enabled they have their results at once, and trap where there is a NaI (R164). Choices of the model that it rests on: log
entries 58 and 77. -/
def Obligations.Reductions : Prop :=
  ∀ (s : State) (h : VH) (op : Nat) (ty : Ty) (d k : Nat) (a : Opnd),
    let act := active s h
    let w := wOf ty
    let step (x y : Nat) : Nat := match op with
      | 0 => (x + y) % 2 ^ w
      | 1 => if valW ty x ≤ valW ty y then x else y
      | 2 => if valW ty x ≤ valW ty y then y else x
      | 3 => x &&& y
      | 4 => x ||| y
      | _ => x ^^^ y
    let total : Option Nat := match (lanesOf act).map (rdW s ty a) with
      | [] => none
      | x :: xs => some (xs.foldl step x)
    let leaf (l : Nat) : RedX := let is := (List.range (ivlCount ty)).map (rdIvl s ty a l); (is, 3, is.any Ivl.isNai)
    let tree := redTree (redX op ty) (lanes32.map fun l => if inMask act l then some (leaf l) else none)
    let pair := ty == .x64
    let elems : Option (Word64 × Word64) := tree.map fun r => ivlElems ty r.1
    let st (_ : Nat) (x : Word32) : Word32 := match tree with
      | some r => orBit r.2.2 bNAI (if op = 6 then lowered x [r.2.1] else x)
      | none => x
    (op < 6 →
      CountedVec s h 3 .i64 d (opRegs false a) (opLatches false a) (fun _ => total.map fun x => (BitVec.ofNat 64 x, 0)) keepStatus (exec (.vred h op ty (.v d) a) s) ∧
      CountedWrites s h 3 (opRegs false a) (opLatches false a) (total.map fun x => (⟨1, k, BitVec.ofNat 64 x, false⟩ : PW)).toList keepStatus
        (exec (.vred h op ty (.s k) a) s)) ∧
    (6 ≤ op → trapNai s = false →
      CountedVec s h 3 ty d ([a].flatMap (opRegs pair)) ([a].flatMap (opLatches pair)) (fun _ => elems) st (exec (.vred h op ty (.v d) a) s) ∧
      CountedWrites s h 3 ([a].flatMap (opRegs pair)) ([a].flatMap (opLatches pair))
        (match elems with
         | some e => ⟨1, k, e.1, false⟩ :: if ty = .x64 then [⟨1, k + 1, e.2, false⟩] else []
         | none => []) st (exec (.vred h op ty (.s k) a) s)) ∧
    (6 ≤ op → trapNai s = true → Ready s act ([a].flatMap (opRegs pair) ++ latchRegs s ([a].flatMap (opLatches pair))) → roomCounter s 3 = true →
      (s.isL = true → counter 3 s.cg = 0) →
      let bad : Bool := tree.any fun r => r.2.2
      let ends (o : Out) (t : State) : Prop := o = if bad then (takeTrap t INTERVAL_NAI (maskOf (lanesOf act)) 0 s.cur.pcA s.cur.pcB).out else .next t
      (∃ t, ends (exec (.vred h op ty (.v d) a) s) t ∧ PairEffect s h ty d ([a].flatMap (opLatches pair)) (fun _ => elems.getD (0, 0)) st t) ∧
      ∃ t, ends (exec (.vred h op ty (.s k) a) s) t ∧ OnlyGroup s t ∧ StatusBy s t act ([a].flatMap (opLatches pair)) st ∧
        t.cg = { s.cg with s := t.cg.s, pend := t.cg.pend, status := t.cg.status } ∧
        ∀ j, t.cg.sreg j = match elems with
          | some e => if j = k ∧ k ≠ 0 then e.1 else if ty = .x64 ∧ j = k + 1 then e.2 else s.cg.sreg j
          | none => s.cg.sreg j)

/-- R208, R209 and R212: cvt fills the slots of the destination that PART names, one from each slot of the source that it names, and keeps the
others where the destination has more; SAT where a slot saturates, NAI where one meets or makes NaI, with the trap after the results.
R210 and R211: an integer into an integer is clamped with SAT; a conversion into an interval contains the value it read; a number into a binary
point rounds below under LOWER and above under UPPER.
R142 and R213: qnt forms one block of the active lanes' points: a point that is no number gives the NaN patterns, only zeros give a scale of one,
and else the scale times the format's largest value covers every point, unless it is the largest scale, and each byte is the rounded quotient.
R141 and R214: dqnt gives, lane by lane, an interval that contains the product of byte and scale, and NaI where one of them is no number.
Choices of the model that it rests on: log entries 23 and 68. -/
def Obligations.Conversions : Prop :=
  (∀ (s : State) (h : VH) (df sf part d : Nat) (a : Opnd), df < 20 → sf < 20 →
    let pair := sf == 7
    let cs := cvtCnt sf
    let cd := cvtCnt df
    let wd := cvtWidth df
    let regs := opRegs pair a ++ if cs < cd then [d] else []
    let lat := opLatches pair a
    let act := active s h
    let lo (l : Nat) : Nat := (if pair then rdOpLo s a l else rdOp s a l).toNat
    let hi (l : Nat) : Nat := if pair then (rdOpHi s a l).toNat else 0
    let slot (l k : Nat) : Nat × Nat × Bool × Bool :=
      cvtSlot df sf s.cg.nrm (lo l / 2 ^ (cvtWidth sf * k) % 2 ^ cvtWidth sf) (cvtRead sf k (lo l) (hi l))
    let slots : List Nat := (List.range (min cs cd)).map fun k => if cd < cs then part * cd + k else k
    let sat (l : Nat) : Bool := slots.any fun k => (slot l k).2.2.1
    let nai (l : Nat) : Bool := slots.any fun k => (slot l k).2.2.2
    let bad := (lanesOf act).filter nai
    let ty : Ty := if df = 7 then .x64 else .i64
    let st (l : Nat) (w : Word32) : Word32 := orBit (nai l) bNAI (orBit (sat l) bSAT w)
    (if cs < cd then (part + 1) * cs ≤ cd else (part + 1) * cd ≤ cs) →
    ∃ e : Nat → Word64,
      (∀ l, (e l).toNat < 2 ^ (wd * cd) ∧ ∀ j, j < cd → (e l).toNat / 2 ^ (wd * j) % 2 ^ wd =
        if cd < cs then (slot l (part * cd + j)).1 % 2 ^ wd
        else if cs < cd then
          (if part * cs ≤ j ∧ j < part * cs + cs then (slot l (j - part * cs)).1 % 2 ^ wd else (s.cg.rV s.free d l).toNat / 2 ^ (wd * j) % 2 ^ wd)
        else (slot l j).1 % 2 ^ wd) ∧
      let f (l : Nat) : Word64 × Word64 := (e l, BitVec.ofNat 64 (slot l (slots.headD 0)).2.1)
      (trapNai s = false ∨ bad = [] → PairWord s h ty d regs lat f st (exec (.cvt h df sf part d a) s)) ∧
      (trapNai s = true → bad ≠ [] → Ready s act (regs ++ latchRegs s lat) → ∃ t, exec (.cvt h df sf part d a) s = (takeTrap t INTERVAL_NAI (maskOf bad) 0 s.cur.pcA s.cur.pcB).out ∧
        WritesPair s t h act ty d f ∧ StatusBy s t act lat st ∧ OnlyVecs s.cg t.cg ∧ OnlyVector s t)) ∧
  (∀ (s : State) (h : VH) (df sf d : Nat) (a : Opnd), df < 4 → sf < 4 →
    let x (l : Nat) : Int := valW (cvtInt sf) (rdW s (cvtInt sf) a l)
    let least : Int := if df = 0 then -(2 ^ 31) else if df = 2 then -(2 ^ 63) else 0
    let most : Int := match df with
      | 0 => 2 ^ 31 - 1
      | 1 => 2 ^ 32 - 1
      | 2 => 2 ^ 63 - 1
      | _ => 2 ^ 64 - 1
    PairWord s h .i64 d (opRegs false a) (opLatches false a) (fun l => (elemW (cvtInt df) (max least (min most (x l))), 0))
      (fun l w => orBit (decide (x l < least) || decide (most < x l)) bSAT w) (exec (.cvt h df sf 0 d a) s)) ∧
  (∀ (df sf nrm raw : Nat) (v : CVal) (q : Q), v.is q → sf < 20 →
    (df ∈ [6, 7, 8, 9] → (convertedIvl df (cvtSlot df sf nrm raw v)).has q) ∧
    (df ∈ [16, 17, 18, 19] → (∀ i, v ≠ .ivl i) →
      let r := fpXR (cvtPt df) (fpOf (cvtPt df) (cvtSlot df sf nrm raw v).1)
      (nrm = 0 → xLe r (.fin q) = true) ∧ (nrm = 1 → xLe (.fin q) r = true))) ∧
  (∀ (s : State) (h : VH) (tgt scf d : Nat) (a : Opnd), tgt < 3 → scf < 2 →
    let ls := lanesOf (active s h)
    let x (l : Nat) : Ivl := rdIvl s .x32 a l 0
    let block := qntBlock tgt scf (ls.map fun l => (narrowFp fp32 s.cg.nrm (x l)).1)
    let byteOf (l : Nat) : Nat × Bool := nthD (0, false) block.2 (findPos (· == l) ls)
    let y (l : Nat) : Ivl := dqntI tgt scf ((rdOp s a l).toNat % 2 ^ 8) ((rdOp s a l).toNat / 2 ^ 16 % 2 ^ 16)
    let trapped (f : Nat → Word64 × Word64) (st : Nat → Word32 → Word32) (bad : List Nat) (o : Out) : Prop :=
      (trapNai s = false ∨ bad = [] → PairWord s h .i64 d (opRegs false a) (opLatches false a) f st o) ∧
      (trapNai s = true → bad ≠ [] → Ready s (active s h) (opRegs false a ++ latchRegs s (opLatches false a)) → ∃ t, o = (takeTrap t INTERVAL_NAI (maskOf bad) 0 s.cur.pcA s.cur.pcB).out ∧
        WritesPair s t h (active s h) .i64 d f ∧ StatusBy s t (active s h) (opLatches false a) st ∧ OnlyVecs s.cg t.cg ∧ OnlyVector s t)
    trapped (fun l => (BitVec.ofNat 64 (block.1 * 2 ^ 16 + (byteOf l).1), 0)) (fun l w => orBit (x l).isNai bNAI (orBit (byteOf l).2 bSAT w))
      (ls.filter fun l => (x l).isNai) (exec (.qnt h tgt scf d a) s) ∧
    trapped (fun l => (x32Write (y l), 0)) (fun l w => orBit (y l).isNai bNAI w) (ls.filter fun l => (y l).isNai) (exec (.dqnt h tgt scf d a) s)) ∧
  ∀ (tgt scf byte scale : Nat) (pts : List Fp), tgt < 3 → scf < 2 → byte < 256 →
    let fmt := if tgt = 1 then e4m3 else e5m2
    let mag (p : Fp) : Q := qAbs (fpQ fp32 p)
    let number (p : Fp) : Prop := ∃ neg k, p = .fin neg k ∧ k ≤ fp32.top
    let b := qntBlock tgt scf pts
    b.2.length = pts.length ∧
    ((∃ p ∈ pts, ∀ neg k, p ≠ .fin neg k) → b.1 = (if scf = 0 then 0x7FC0 else 0xFF) ∧
      ∀ r ∈ b.2, r = (if tgt = 0 then 0x80 else if tgt = 1 then 0x7F else 0x7E, false)) ∧
    ((∀ p ∈ pts, number p ∧ (mag p).n = 0) → b.1 = (if scf = 0 then 0x3F80 else 0x7F) ∧ ∀ r ∈ b.2, r = (0, false)) ∧
    ((∀ p ∈ pts, number p) → (∃ p ∈ pts, (mag p).n ≠ 0) →
      ∃ sv, scaleVal scf b.1 = some sv ∧
        ((∀ p ∈ pts, qLe (mag p) (qMul sv (qntMax tgt)) = true) ∨ ∀ c w, scaleVal scf c = some w → qLe w sv = true) ∧
        ∀ j, j < pts.length → (nthD (0, false) b.2 j).1 = (qntByte tgt (nthD .nan pts j) (qDiv (fpQ fp32 (nthD .nan pts j)) sv)).1) ∧
    (scaleVal scf scale = none ∨ (if tgt = 0 then byte = 0x80 else fpOf fmt byte = .nan) → dqntI tgt scf byte scale = .nai) ∧
    ∀ sv q, scaleVal scf scale = some sv → (if tgt = 0 then mk8Val byte = some q else ∃ neg k, fpOf fmt byte = .fin neg k ∧ q = fpVal fmt neg k) →
      (x32Read (x32Write (dqntI tgt scf byte scale))).has (qMul q sv)

/-- R68, R94, R227, R240, R243, R245, R247 and R248: a matrix word whose checks pass puts its command at the end of the engine's queue, with the
registers and the scratchpad as they stand; nothing else changes but the counter and, for mloop, OPREADY. A tile the team does not have is
ACS_RANGE. A loop without OPREADY is ILLEGAL_INST. -/
def Obligations.MatrixIssue : Prop :=
  ∀ (s : State) (f : MloopF) (g : MdrnF) (h : VH) (st tile a d : Nat) (row : Nat ⊕ Nat), NoTx s → roomCounter s 2 = true → s.cc.mq.length < 16 →
    let r : Nat := match row with
      | .inl r => r
      | .inr k => fld (s.rS k) 5 0
    let inc := match f.c with
      | some c => s.rS c
      | none => 0
    let fits (src : Bool) (reg i : Nat) : Prop :=
      if src then
        descBase (s.rS reg) % 16 = 0 ∧ descPitch (s.rS reg) % 16 = 0 ∧ descT (s.rS (reg + 1)) % 16 = 0 ∧ descRot (s.rS (reg + 1)) < 6 ∧
          ∀ k j q, k ≤ f.ksteps → j < 64 → q < 2 → ownRange s (descOff (s.rS reg) (s.rS (reg + 1)) k j q) 16 = true
      else ∀ k, k ≤ f.ksteps → reg + 8 * i * k + 7 < s.cg.allot
    let d2 (src : Bool) (k : Nat) : Word64 := if src then s.rS k else 0
    let x := s.rS a
    (f.tile < s.ct.ntiles → fits f.asrc f.a (fld inc 7 0) → fits f.bsrc f.b (fld inc 15 8) →
      (s.cg.misc.opready = true → (f.pair = true → s.isL = false ∧ s.ct.pair.isSome = true) →
        QueuesCmd s (.loop f (d2 f.asrc f.a) (d2 f.asrc (f.a + 1)) (d2 f.bsrc f.b) (d2 f.bsrc (f.b + 1)) (fld inc 7 0) (fld inc 15 8)) f.stream f.tile []
          { s.cg.misc with opready := false } (exec (.mloop f) s)) ∧
      (s.cg.misc.opready = false → exec (.mloop f) s = .next (illegalExec s))) ∧
    (s.ct.ntiles ≤ f.tile → fits f.asrc f.a (fld inc 7 0) → fits f.bsrc f.b (fld inc 15 8) →
      exec (.mloop f) s = .next (fatal s ACS_RANGE s.ct.ntiles f.tile 0)) ∧
    (tile < s.ct.ntiles → QueuesCmd s .zero st tile [] s.cg.misc (exec (.mzero st tile) s)) ∧
    (tile < s.ct.ntiles → fld x 47 32 % 16 = 0 → 512 ≤ fld x 47 32 → fld x 31 0 % 16 = 0 → ownPos s (fld x 31 0) = true →
      ownRange s (fld x 31 0 % 2 ^ 21) (63 * fld x 47 32 + 512) = true →
      QueuesCmd s (.load (fld x 31 0 % 2 ^ 21) (fld x 47 32)) st tile [] s.cg.misc (exec (.mld st tile a) s)) ∧
    (g.tile < s.ct.ntiles → (∀ c ∈ drainChecks s g (s.rS g.a), c.1 = false) →
      QueuesCmd s (.drain g (s.rS g.a) s.cg.misc) g.stream g.tile [] s.cg.misc (exec (.mdrn g) s)) ∧
    (tile < s.ct.ntiles → QueuesCmd s (.rd (active s h) d r) st tile
      ((lanesOf (active s h)).flatMap fun l => [⟨3, d * 32 + l, 0, false⟩, ⟨3, (d + 1) * 32 + l, 0, false⟩]) s.cg.misc (exec (.acrd h st tile d row) s)) ∧
    (tile < s.ct.ntiles → Ready s (active s h) [a, a + 1] →
      QueuesCmd s (.wr (active s h) a r) st tile [] s.cg.misc (exec (.acwr h st tile a row) s)) ∧
    (s.ct.ntiles ≤ tile → exec (.mzero st tile) s = .next (fatal s ACS_RANGE s.ct.ntiles tile 0) ∧
      exec (.mld st tile a) s = .next (fatal s ACS_RANGE s.ct.ntiles tile 0) ∧ exec (.acrd h st tile d row) s = .next (fatal s ACS_RANGE s.ct.ntiles tile 0))

/-- R242, R244, R246 and R249: mrdy sets OPREADY and mwait goes on where nothing they wait for is left, and they hold the split otherwise; mcfg
writes the defined bits of one drain register; mpair.on reads the partner core where a pairing stands, and waits for one otherwise; mpair.off
ends the pairing of both teams.
R229, R230 and R249: two teams that wait first on partner cores are paired, and their waits end with the partner's core ID. Two paired
commands at the front of their tiles agree where tile, steps and formats match, and are a PAIR_MISMATCH of both words where they differ.
Choices of the model that it rests on: log entry 38. -/
def Obligations.MatrixControlAndPairs : Prop :=
  (∀ (s : State) (st tile d a u : Nat) (all : Bool), NoTx s →
     let mine (c : MCmd) : Bool := decide (c.gh = s.cur.gh) && decide (c.stream = st) && (all || decide (c.tile = tile))
     let x := s.rS a
     let m := s.cg.misc
     let quiet : Prop := (∀ p ∈ s.cg.pend, p.cls = 2) ∧
       (∀ c ∈ s.cc.mq, c.gh = s.cur.gh → (∀ act r w, c.op ≠ .rd act r w) ∧ ∀ f dst x, c.op = .drain f dst x → f.glob = true) ∧
       (∀ p ∈ s.cg.splits, ∀ w, p.mem = some w → w.sp = false ∨ w.wr = false) ∧
       (∀ w ∈ s.cc.late, w.gh = s.cur.gh → w.m.sp = false ∨ w.store = false) ∧ ∀ c ∈ s.cc.cq, c.gh ≠ s.cur.gh ∨ c.f.stream ≠ st
     let partner := match s.ct.core % 8 with
       | 1 => s.ct.core + 1
       | 2 => s.ct.core - 1
       | 3 => s.ct.core + 1
       | 4 => s.ct.core - 1
       | _ => 0
     (quiet → exec (.mrdy st) s = .next (s.setCg { s.cg with misc := { m with opready := true } })) ∧
     (¬ quiet → exec (.mrdy st) s = .next (retry s)) ∧
     ((∀ c ∈ s.cc.mq, mine c = false) → exec (.mwait st tile all) s = .next s) ∧
     ((∃ c ∈ s.cc.mq, mine c = true) → exec (.mwait st tile all) s = .next (retry s)) ∧
     exec (.mcfg 0 a) s = .next (s.setCg { s.cg with misc := { m with dpitch := x &&& 0xFFFFFFFF } }) ∧
     exec (.mcfg 1 a) s = .next (s.setCg { s.cg with misc := { m with biasoff := x &&& 0x1FFFFF } }) ∧
     exec (.mcfg 2 a) s = .next (s.setCg { s.cg with misc := { m with actoff := x &&& 0x1FFFFF } }) ∧
     exec (.mcfg 3 a) s = .next (s.setCg { s.cg with misc := { m with amaxaddr := x } }) ∧
     exec (.mcfg 4 a) s = .next (s.setCg { s.cg with misc := { m with scaleaddr := x } }) ∧
     (s.isL = false → s.ct.pair = some u → exec (.mpairOn d) s = .next (s.wS d (BitVec.ofNat 64 partner))) ∧
     (s.isL = false → s.ct.pair = none → exec (.mpairOn d) s = .next (s.setSp { s.sp with hold := .mpair d s.seq })) ∧
     (s.isL = true → exec (.mpairOn d) s = .next (fatal s PAIR_MISMATCH 2 partner 0)) ∧
     (s.ct.pair = none → exec .mpairOff s = .next s) ∧
     (s.ct.pair = some u → u ≠ s.cg.team → pairWaits s s.cg.team = none → pairWaits s u = none →
       exec .mpairOff s = .next ((s.setTeam s.cg.team { s.ct with pair := none }).setTeam u { s.team u with pair := none }))) ∧
  ∀ (s : State) (core idx i j u a b : Nat),
    let c := cmdAt s core i
    let e := cmdAt s (partnerCore core) j
    (partnerCore (s.team a).core = (s.team b).core → (s.team a).core ≠ (s.team b).core → (s.team a).ctx = (s.team b).ctx →
      pairFirst s (s.team a).core = some a → pairFirst s (s.team b).core = some b →
      ∃ t, exec (.mpairJoin a b) s = .next t ∧ t = { s with groups := t.groups, teams := t.teams } ∧
        (t.team a) = { s.team a with pair := some b } ∧ (t.team b) = { s.team b with pair := some a }) ∧
    (i = idx → (s.team (c.gh / 32)).pair = some u → pairedAt s core (c.gh / 32) = some i → pairedAt s (partnerCore core) u = some j →
      tileFree s core i = true → tileFree s (partnerCore core) j = true → lockStep s core = false → lockStep s (partnerCore core) = false →
      (samePair c e = true → ∃ t, exec (.pairAgreement core idx) s = .next t ∧ t = { s with cores := t.cores } ∧
        cmdAt t core i = (if core = partnerCore core ∧ i = j then { e with agreed := true } else { c with agreed := true }) ∧
        cmdAt t (partnerCore core) j = { e with agreed := true }) ∧
      (samePair c e = false → exec (.pairAgreement core idx) s = .next (fatalAll s (s.team (c.gh / 32)).ctx
        (c.org, PAIR_MISMATCH, 1, partnerCore core, 0) [(e.org, PAIR_MISMATCH, 1, core, 0)])))

/-- R222 to R225, R227 and R240: a K-step of an unpaired loop adds to every element of the tile the sum over K of the products of its row of A and its
column of B: for i8, exactly and modulo 2^32, with the overflow mark; for the point formats, to both bounds, rounded outward, so that the element encloses
what it held and the sum, and a factor that is no number makes it NaI; for midpoint-radius operands, to midpoint and radius by the two exact sums, the
midpoint to nearest and the radius upward, with the special elements in their order. The step touches
nothing but the tile and the command's count of steps. Choices of the model that it rests on: log entries 23, 42 and 80. -/
def Obligations.MatrixStep : Prop :=
  (∀ (s : State) (core idx ai bi : Nat) (f : MloopF) (a0 a1 b0 b1 : Word64),
    let c := cmdAt s core idx
    let t := s.team (c.gh / 32)
    let a := operandRows s core c f.asrc f.a a0 a1 ai
    let b := operandRows s core c f.bsrc f.b b0 b1 bi
    let r := kStep f.afmt f.bfmt c.tile t.tiles a.1 b.1
    c.op = .loop f a0 a1 b0 b1 ai bi → tileFree s core idx = true → c.step ≤ f.ksteps → f.pair = false → lockStep s core = false →
    syncedLate s core c = false →
    a.2 = none → b.2 = none → tilePoison t c.tile = false →
      exec (.matrixKStep core idx) s = .next ((s.setTeam (c.gh / 32)
        { t with tiles := msetAll 0 t.tiles r.1, ovf := if r.2 then mset false t.ovf c.tile true else t.ovf }).setCore core
          { s.core core with mq := setAt (s.core core).mq idx { c with step := c.step + 1 } })) ∧
  ∀ (tile af bf i j : Nat) (tiles : AMap Word64) (a b : List Nat), a.length = 64 → b.length = 64 → i < 64 → j < 64 →
    let old := mget 0 tiles (tileKey tile i j)
    let new := mget 0 (msetAll 0 tiles (kStep af bf tile tiles a b).1) (tileKey tile i j)
    let byte (row k : Nat) : Nat := row / 2 ^ (8 * k) % 2 ^ 8
    let half (row k : Nat) : Nat := row / 2 ^ (16 * k) % 2 ^ 16
    let number (f : Fmt) (w : Nat) : Option Q := match fpOf f w with
      | .fin neg k => some (fpVal f neg k)
      | _ => none
    let sum := ((List.range 32).map fun k => sext 8 (byte (nthD 0 a i) k) * sext 8 (byte (nthD 0 b j) k)).sum
    (af = 3 → bf = 3 → new = BitVec.ofNat 64 ((sext 32 (lo32 old).toNat + sum) % 2 ^ 32).toNat ∧
      ((kStep af bf tile tiles a b).2 = false → -(2 ^ 31) ≤ sext 32 (lo32 old).toNat + sum ∧ sext 32 (lo32 old).toNat + sum < 2 ^ 31)) ∧
    (af ∈ [0, 1, 2] ∧ bf ∈ [0, 1, 2] ∨ af ∈ [4, 5] ∧ bf ∈ [4, 5] →
      let n := if af < 3 then 32 else 16
      let val (f row k : Nat) : Option Q := match f with
        | 0 => mk8Val (byte row k)
        | 1 => number e4m3 (byte row k)
        | 2 => number e5m2 (byte row k)
        | 4 => number bf16 (half row k)
        | _ => number fp16 (half row k)
      let x (k : Nat) := val af (nthD 0 a i) k
      let y (k : Nat) := val bf (nthD 0 b j) k
      let total := (List.range n).foldl (fun acc k => qAdd acc (qMul ((x k).getD (qInt 0)) ((y k).getD (qInt 0)))) (qInt 0)
      ((∃ k, k < n ∧ (x k = none ∨ y k = none)) → new = 0x7FC000007FC00000) ∧
      ((∀ k, k < n → x k ≠ none ∧ y k ≠ none) →
        (x32Read old = .nai ∨ x32Read old = .empty → new = old) ∧
        (∀ lo hi, x32Read old = .mk lo hi → x32Read new = outward fp32 (.mk (xAddR lo (.fin total)) (xAddR hi (.fin total)))) ∧
        ∀ q, 0 < q.d → (x32Read old).has q → (x32Read new).has (qAdd q total))) ∧
    (af = 6 →
      let mr (row k : Nat) : Ivl := mrRead bf16 (half row (2 * k)) (half row (2 * k + 1))
      let mid (row k : Nat) : Q := fpQ bf16 (fpOf bf16 (half row (2 * k)))
      let rad (row k : Nat) : Q := qAbs (fpQ bf16 (fpOf bf16 (half row (2 * k + 1))))
      let x := nthD 0 a i
      let y := nthD 0 b j
      let some_ (i : Ivl) : Prop := ∃ k, k < 8 ∧ (mr x k = i ∨ mr y k = i)
      let e : Ivl := mrRead fp32 (lo32 old).toNat (hi32 old).toNat
      let entire : Ivl := .mk .ninf .pinf
      let sum (g : Nat → Q) : Q := (List.range 8).foldl (fun acc k => qAdd acc (g k)) (qInt 0)
      let t := qAdd (fpQ fp32 (fpOf fp32 (lo32 old).toNat)) (sum fun k => qMul (mid x k) (mid y k))
      let r := qAdd (qAbs (fpQ fp32 (fpOf fp32 (hi32 old).toNat)))
        (sum fun k => qAdd (qAdd (qMul (qAbs (mid x k)) (rad y k)) (qMul (rad x k) (qAbs (mid y k)))) (qMul (rad x k) (rad y k)))
      (some_ .nai → new = 0x7FC000007FC00000) ∧
      (¬ some_ .nai → e = .nai ∨ e = .empty → new = old) ∧
      (¬ some_ .nai → e ≠ .nai → e ≠ .empty → some_ .empty → new = 0xFF80000000000000) ∧
      (¬ some_ .nai → ¬ some_ .empty → e = entire → new = old) ∧
      (¬ some_ .nai → ¬ some_ .empty → e ≠ .nai → e ≠ .empty → e ≠ entire → some_ entire → new = 0x7F80000000000000) ∧
      (¬ some_ .nai → ¬ some_ .empty → ¬ some_ entire → e ≠ .nai → e ≠ .empty → e ≠ entire →
        match roundQ fp32 .near t with
        | .fin neg k => match roundQ fp32 .up (qAdd r (qAbs (qSub t (fpVal fp32 neg k)))) with
          | .fin _ u => (hi32 new).toNat = u ∧ (lo32 new).toNat % 2 ^ 31 = k ∧ (k ≠ 0 → (lo32 new).toNat / 2 ^ 31 = if neg then 1 else 0)
          | _ => new = 0x7F80000000000000
        | _ => new = 0x7F80000000000000))

/-- R227, R232, R245, R247 and R248: what each kind of command does as it retires. A loop only leaves; mzero clears the tile, mld reads it from the
scratchpad, acrd and acwr move one row between it and a register pair, and a plain drain to the scratchpad stores the rows' intervals in their
canonical form (R134). In the L-encoding an acrd first has its values, for a read of its registers to find (R96), and then writes them.
Choices of the model that it rests on: log entry 41. -/
def Obligations.MatrixRetirement : Prop :=
  ∀ (s : State) (core idx : Nat) (act : Word32) (d a row o pitch : Nat) (f : MloopF) (g : MdrnF) (a0 a1 b0 b1 dst : Word64) (ai bi : Nat) (m : GMisc),
    let c := cmdAt s core idx
    let tm := s.team (c.gh / 32)
    let out := exec (.matrixCommandRetire core idx) s
    retireReady s core idx = true → (s.grp c.gh).team = c.gh / 32 →
    (c.op = .loop f a0 a1 b0 b1 ai bi → f.pair = false → ∃ t, out = .next t ∧ RetiredCmd s t core idx ∧ t = { s with groups := t.groups, cores := t.cores }) ∧
    (c.op = .zero → ∃ t, out = .next t ∧ RetiredCmd s t core idx ∧ t = { s with groups := t.groups, cores := t.cores, teams := t.teams } ∧
      ∀ k i j, i < 64 → j < 64 → (t.team (c.gh / 32)).elem k i j = if k = c.tile then 0 else tm.elem k i j) ∧
    (c.op = .load o pitch → (∀ i, i < 64 → (s.core core).spPoison (o + i * pitch) 512 = false) →
      ∃ t, out = .next t ∧ RetiredCmd s t core idx ∧ t = { s with groups := t.groups, cores := t.cores, teams := t.teams } ∧
        ∀ k i j, i < 64 → j < 64 → (t.team (c.gh / 32)).elem k i j =
          if k = c.tile then BitVec.ofNat 64 ((s.core core).rdSp (o + i * pitch + 8 * j) 8) else tm.elem k i j) ∧
    (c.op = .rd act d row → tm.isL = true → c.step = 0 →
      (∀ l, l < 32 → mget false tm.tpois (tileKey c.tile row l) = false ∧ mget false tm.tpois (tileKey c.tile row (32 + l)) = false) →
      ∃ t, out = .next t ∧ t = { s with groups := t.groups, cores := t.cores } ∧ (t.core core).mq = setAt (s.core core).mq idx { c with step := 1 } ∧
        (t.grp c.gh).v = (s.grp c.gh).v ∧ ∀ p ∈ (t.grp c.gh).pend, p.id = c.id → ∀ w ∈ p.ws, ∀ l, l < 32 → inMask act l = true →
          (w.key = d * 32 + l → w.kind = 0 ∧ w.val = tm.elem c.tile row l) ∧
          (w.key = (d + 1) * 32 + l → w.kind = 0 ∧ w.val = tm.elem c.tile row (32 + l))) ∧
    (c.op = .rd act d row → tm.isL = false ∨ c.step ≠ 0 → (∀ l, l < 32 → mget false tm.tpois (tileKey c.tile row l) = false ∧ mget false tm.tpois (tileKey c.tile row (32 + l)) = false) →
      (∀ p ∈ (s.grp c.gh).pend, ∀ w ∈ p.ws, w.con = false) →
      ∃ t, out = .next t ∧ (t.core core).mq = dropAt (s.core core).mq idx ∧ t = { s with groups := t.groups, cores := t.cores } ∧
        ∀ r l, l < 32 → (t.grp c.gh).velem r l =
          if inMask act l = true ∧ r = d then tm.elem c.tile row l
          else if inMask act l = true ∧ r = d + 1 then tm.elem c.tile row (32 + l) else (s.grp c.gh).velem r l) ∧
    (c.op = .wr act a row → c.vSnap = (s.grp c.gh).v → row < 64 →
      ∃ t, out = .next t ∧ RetiredCmd s t core idx ∧ t = { s with groups := t.groups, cores := t.cores, teams := t.teams } ∧
        ∀ k i j, i < 64 → j < 64 → (t.team (c.gh / 32)).elem k i j =
          if k = c.tile ∧ i = row ∧ inMask act (j % 32) = true then (s.grp c.gh).velem (a + j / 32) (j % 32) else tm.elem k i j) ∧
    (c.op = .drain g dst m → c.step = 0 → g.mode = 0 → g.qnt = false → g.bias = false → g.act = false → g.amax = false → g.glob = false →
      tilePoison tm c.tile = false →
      (∀ e ∈ (s.core core).slog, e.gh = c.gh → e.id ≠ c.id) → (∀ p ∈ s.io.peerOut, p.gh = c.gh → p.id ≠ c.id) → dst.toNat < 2 ^ 24 → 512 ≤ m.dpitch.toNat → dst.toNat % 2 ^ 21 + g.nrows * m.dpitch.toNat + 512 ≤ 2 ^ 21 →
      ∃ t, out = .next t ∧ RetiredCmd s t core idx ∧ t = { s with groups := t.groups, cores := t.cores } ∧
        ∀ r j, r ≤ g.nrows → j < 64 →
          (t.core core).rdSp (dst.toNat % 2 ^ 21 + r * m.dpitch.toNat + 8 * j) 8 = (x32Write (x32Read (tm.elem c.tile (g.row0 + r) j))).toNat)

/-- R255, R268, R269, R319, R321 and R324: scratchpad words where every lane's address passes its checks. A load returns the bytes as its form reads
them; a store writes the active lanes' bytes, the highest lane last, and nothing else; stfe also sets the granules full; ldfe.keep and ldfe.take
complete at once where the granules are full and awaited by no lane, and take empties them. An acquiring lds also does what an acquire does. No earlier
access to the bytes is outstanding.
Choices of the model that it rests on: log entries 17 and 18. -/
def Obligations.ScratchpadWords : Prop :=
  ∀ (s : State) (h : VH) (ty : Ty) (x : MemX) (d : Nat) (a b : Opnd) (place : Nat → Nat × Nat), FreshWord s →
    let act := active s h
    let n := formBytes ty x.form
    let pair := ty == .x64
    let v (l : Nat) := loadForm ty x.form ((s.core (place l).1).rdSp (place l).2 n)
    let bytes (l : Nat) : Nat := (storeForm ty x.form s.cg.nrm (data0 s ty b l) (data1 s ty b l)).1
    let nai (l : Nat) (w : Word32) : Word32 := orBit (v l).2.2 bNAI w
    let hits (c o : Nat) (l : Nat) : Prop := inMask act l = true ∧ (place l).1 = c ∧ (place l).2 ≤ o ∧ o < (place l).2 + n
    (∀ l, l < 32 → inMask act l = true → spCheck s s.ct n (spAddr s a x.off l) = .at_ (place l).1 (place l).2 ∧
      lateHolds s s.cur.gh x.stream s.seq true (spAddr s a x.off l) n = false ∧ passHolds s n (spAddr s a x.off l) = false) →
    ((∀ l, l < 32 → inMask act l = true → (s.core (place l).1).spPoison (place l).2 n = false) →
      LoadsVec s (acquired s x.order x.scope) h ty d (opRegs false a) (opLatches false a) (fun l => ((v l).1, (v l).2.1)) nai (exec (.lds h ty x d a) s) ∧
      ((∀ l, l < 32 → inMask act l = true → granuleFree s (place l).1 (place l).2 = true) →
        LoadsVec s s h ty d (opRegs false a) (opLatches false a) (fun l => ((v l).1, (v l).2.1)) nai (exec (.ldfeKeep h ty x d a) s) ∧
        ((∀ l k, l < 32 → k < 32 → inMask act l = true → inMask act k = true → l ≠ k → (place l).1 = (place k).1 → (place l).2 / 16 ≠ (place k).2 / 16) →
          Ready s act (opRegs false a ++ latchRegs s (opLatches false a)) → roomCounter s 0 = true → (s.isL = false → h.n = false) →
          ∃ t, exec (.ldfeTake h ty x d a) s = .next t ∧ GivesVec s t h 0 ty d act (fun l => ((v l).1, (v l).2.1)) ∧ KeepsGroup s t ∧
            StatusBy s t act (opLatches false a) nai ∧ t = { s with seq := t.seq, groups := t.groups, cores := t.cores } ∧
            ∀ c, t.core c = { s.core c with full := (t.core c).full, latch := (t.core c).latch } ∧
              ∀ k, (t.core c).isFull k = ((s.core c).isFull k && !(lanesOf act).any fun l => (place l).1 == c && (place l).2 / 16 == k)))) ∧
    (Ready s act (opRegs false a ++ opRegs pair b ++ latchRegs s (opLatches false a ++ opLatches pair b)) →
      let stores (fe : Bool) (o : Out) : Prop :=
        ∃ t, o = .next t ∧ KeepsGroup s t ∧ OnlyVecs { s.cg with splits := t.cg.splits, frel := t.cg.frel } t.cg ∧ t.cg.v = s.cg.v ∧ SameMem s t ∧
          t = { s with groups := t.groups, cores := t.cores } ∧
          (∀ c o, (∀ l, l < 32 → ¬ hits c o l) → mget 0 (t.core c).sp o = mget 0 (s.core c).sp o) ∧
          (∀ l o, l < 32 → hits (place l).1 o l → (∀ k, k < 32 → l < k → ¬ hits (place l).1 o k) →
            mget 0 (t.core (place l).1).sp o = BitVec.ofNat 8 (bytes l / 2 ^ (8 * (o - (place l).2)))) ∧
          ∀ c k, (t.core c).isFull k = ((s.core c).isFull k || (fe && (lanesOf act).any fun l => (place l).1 == c && (place l).2 / 16 == k))
      (releases x.order = false ∨ relReady s s.cur.gh x.stream s.seq = true → stores false (exec (.sts h ty x a b) s)) ∧
      (relReady s s.cur.gh x.stream s.seq = true → stores true (exec (.stfe h ty x a b) s)))

/-- R143 to R147, R252, R301, R317, R319 and R321: ldg and stg, where every active lane's address is aligned, canonical and mapped in device memory
and the core's L1 holds its line: in any valid state for a load, in E or M for a store. The load gives each lane the bytes at its location as
its form reads them and changes no memory. The store writes each lane's bytes, the highest lane last, and no other byte.
R252, R317, R319 and R336: sld and sst access 8 bytes for the split as a whole; an address that is not aligned is MISALIGN with DETAIL 8.
R129, R139, R140, R145 to R147 and R160: the memory forms. raw keeps the bits; pair reads and writes FP64 bounds; a point loads as itself, as what may
have overflowed to its infinity, or as NaI; an interval is stored in a point form as its narrowed point, for k8 as the nearest MK8 value of that;
a cm word is read by its rows, and a cm store followed by a cm load encloses the interval, with the least radius code that does.
Choices of the model that it rests on: log entries 17 and 18. -/
def Obligations.GlobalAndScalarLoadStore : Prop :=
  (∀ (nrm v : Nat) (a b : Word64),
    let x : Ivl := x32Read a
    let load (form : Nat) : Word64 × Word64 × Bool := loadForm .x32 form v
    let is (i : Ivl) (form : Nat) : Prop := load form = (x32Write i, 0, decide (i = .nai))
    let store (form : Nat) : Nat := (storeForm .x32 form nrm a b).1
    let w := store 2
    let bounds : Ivl := ivlBits fp64 (v % 2 ^ 64) (v / 2 ^ 64)
    let entire : Word64 := 0x7F800000FF800000
    let low (q : Q × Q) : Q := qSub q.1 q.2
    let high (q : Q × Q) : Q := qAdd q.1 q.2
    let ulp (e : Nat) : Q := if e = 0 then qPow2 (-141) else qPow2 ((e : Int) - 142)
    let arm (m : Q) (e r : Nat) : Q × Q := (m, qMul (qInt r) (ulp e))
    let point (f : Fmt) : Fp := match x, nrm with
      | .mk (.fin l) _, 0 => roundQ f .down l
      | .mk _ _, 0 => .inf true
      | .mk _ (.fin h), 1 => roundQ f .up h
      | .mk _ _, 1 => .inf false
      | .mk (.fin l) (.fin h), 2 => roundQ f .near (qMul (qAdd l h) ⟨1, 2⟩)
      | .mk (.fin l) (.fin h), _ => roundQ f .zero (qMul (qAdd l h) ⟨1, 2⟩)
      | .mk .ninf (.fin _), _ => .fin true f.top
      | .mk (.fin _) .pinf, _ => .fin false f.top
      | .mk _ _, _ => .fin false 0
      | _, _ => .nan
    (∀ ty, v < 2 ^ (8 * formBytes ty 0) → (loadForm ty 0 v).1.toNat + (if ty = .x64 then (loadForm ty 0 v).2.1.toNat * 2 ^ 64 else 0) = v ∧
      (loadForm ty 0 v).2.2 = false ∧ (storeForm ty 0 nrm a b).1 = (if ty = .x64 then a.toNat + b.toNat * 2 ^ 64 else a.toNat % 2 ^ (8 * formBytes ty 0))) ∧
    is bounds 1 ∧
    loadForm .x64 1 v = (BitVec.ofNat 64 (ivlWrite fp64 bounds).1, BitVec.ofNat 64 (ivlWrite fp64 bounds).2, decide (bounds = .nai)) ∧
    ivlBits fp64 (store 1 % 2 ^ 64) (store 1 / 2 ^ 64) = outward fp64 x ∧ x32Read (loadForm .x32 1 (store 1)).1 = x ∧
    (let i := ivlBits fp64 a.toNat b.toNat
     (storeForm .x64 1 nrm a b).1 = (ivlWrite fp64 i).1 + (ivlWrite fp64 i).2 * 2 ^ 64) ∧
    (v < 2 ^ 32 → match fpOf fp32 v with
      | .nan => is .nai 3
      | .inf neg => load 3 = (if neg then 0xFF7FFFFFFF800000 else 0x7F8000007F7FFFFF, 0, false)
      | .fin _ k => load 3 = (if k = 0 then 0 else BitVec.ofNat 64 (v * 2 ^ 32 + v), 0, false)) ∧
    (v < 2 ^ 16 → match fpOf bf16 v with
      | .nan => is .nai 5
      | .inf neg => load 5 = (if neg then 0xFF7F0000FF800000 else 0x7F8000007F7F0000, 0, false)
      | .fin _ k => load 5 = (if k = 0 then 0 else BitVec.ofNat 64 (v * 2 ^ 48 + v * 2 ^ 16), 0, false)) ∧
    (match mk8Val v with
      | none => is .nai 4
      | some q => is (.mk (.fin q) (.fin q)) 4 ∧ (v < 256 → (x32Read (load 4).1).has q)) ∧
    (v < 2 ^ 32 →
      let e := v / 2 ^ 23 % 2 ^ 8
      let r := v % 2 ^ 8
      let fract := v / 2 ^ 8 % 2 ^ 15
      (e = 255 → fract ≠ 0 → is .nai 2) ∧ (v = 0x7F800000 → is .empty 2) ∧
      (v ≠ 0x7F800000 → (e = 255 ∧ fract = 0) ∨ (e ≠ 255 ∧ r = 255) → load 2 = (entire, 0, false)) ∧
      (e ≠ 255 → r ≠ 255 →
        let d := arm (fpVal fp32 (decide (2 ^ 31 ≤ v)) (v % 2 ^ 31 / 2 ^ 8 * 2 ^ 8)) e r
        is (.mk (.fin (low d)) (.fin (high d))) 2)) ∧
    store 3 = fpBits fp32 (point fp32) ∧ store 5 = fpBits bf16 (point bf16) ∧
    (match point fp32 with
      | .nan => storeForm .x32 4 nrm a b = (0x80, false)
      | .inf neg => storeForm .x32 4 nrm a b = (if neg then 0xFF else 0x7F, true)
      | .fin neg k =>
        let q := fpVal fp32 neg k
        (qLt ⟨631, 64⟩ (qAbs q) = true → storeForm .x32 4 nrm a b = (if neg then 0xFF else 0x7F, true)) ∧
        (qLe (qAbs q) ⟨631, 64⟩ = true → (storeForm .x32 4 nrm a b).2 = false ∧ store 4 < 256 ∧
          ∃ u, mk8Val (store 4) = some u ∧ ∀ c u', c < 256 → mk8Val c = some u' → qLe (qAbs (qSub u q)) (qAbs (qSub u' q)) = true ∧
            (c ≠ store 4 → qLe (qAbs (qSub u' q)) (qAbs (qSub u q)) = true → store 4 % 2 = 0))) ∧
    (x = .nai → w = 0x7FC00000) ∧ (x = .empty → w = 0x7F800000) ∧ (∀ l h, x = .mk l h → xIsFin l = false ∨ xIsFin h = false → w = 0xFF) ∧
    (∀ q, 0 < q.d → x.has q → (x32Read (loadForm .x32 2 w).1).has q) ∧
    ∀ l h neg k, x = .mk (.fin l) (.fin h) → roundQ cmFmt .near (qMul (qAdd l h) ⟨1, 2⟩) = .fin neg k →
      w / 2 ^ 8 % 2 ^ 23 = k ∧ (k ≠ 0 → w / 2 ^ 31 = if neg then 1 else 0) ∧
      ∀ r, r < w % 2 ^ 8 →
        let d := arm (fpVal cmFmt neg k) (k / 2 ^ 15) r
        (qLe (low d) l && qLe h (high d)) = false) ∧
  (∀ (s : State) (h : VH) (ty : Ty) (x : MemX) (d : Nat) (a b : Opnd) (loc : Nat → Nat), FreshWord s →
     let act := active s h
     let n := formBytes ty x.form
     let pair := ty == .x64
     let va (l : Nat) : Nat := gAddr s a x.off l
     let v (l : Nat) := loadForm ty x.form (s.rdNat (loc l) n)
     let bytes (l : Nat) : Nat := (storeForm ty x.form s.cg.nrm (data0 s ty b l) (data1 s ty b l)).1
     let hits (o l : Nat) : Prop := inMask act l = true ∧ loc l ≤ o ∧ o < loc l + n
     (∀ l, l < 32 → inMask act l = true → logHolds s s.cur.gh x.stream s.seq (va l) n = false) →
     (x.hint ≠ 1 → Ready s act (opRegs false a ++ latchRegs s (opLatches false a)) → roomCounter s 0 = true → (s.isL = false → h.n = false) →
       (∀ l, l < 32 → inMask act l = true → LaneLoc s (va l) n false (loc l) ∧ LineIn s (loc l) [.s, .e, .o, .m] ∧
         copyPoison s s.ct.core (loc l) n false = false) →
       ∃ t, exec (.ldg h ty x d a) s = .next t ∧ GivesVec s t h 0 ty d act (fun l => ((v l).1, (v l).2.1)) ∧ KeepsGroup s t ∧ SameMem s t ∧
         StatusBy s t act (opLatches false a) (fun l w => orBit (v l).2.2 bNAI w) ∧ t = { s with seq := t.seq, groups := t.groups, cores := t.cores }) ∧
     (Ready s act (opRegs false a ++ opRegs pair b ++ latchRegs s (opLatches false a ++ opLatches pair b)) → releases x.order = false ∨ relReady s s.cur.gh x.stream s.seq = true →
       (∀ l, l < 32 → inMask act l = true → LaneLoc s (va l) n true (loc l) ∧ LineIn s (loc l) [.e, .m]) →
       ∃ t, exec (.stg h ty x a b) s = .next t ∧ KeepsGroup s t ∧ t.cg.v = s.cg.v ∧ t.cg.s = s.cg.s ∧
         (∀ o, isPeer o = false → (∀ l, l < 32 → ¬ hits o l) → t.rdByte o = s.rdByte o) ∧
         (∀ l o, l < 32 → hits o l → (∀ k, k < 32 → l < k → ¬ hits o k) → t.rdByte o = BitVec.ofNat 8 (bytes l / 2 ^ (8 * (o - loc l)))) ∧
         t = { s with mem := t.mem, enc := t.enc, poison := t.poison, groups := t.groups, cores := t.cores, dir := t.dir })) ∧
  ∀ (s : State) (d a : Nat) (i : BitVec 12) (loc : Nat), FreshWord s →
    let va := (((s.rS a).toNat + i.toInt) % 2 ^ 64).toNat
    logHolds s s.cur.gh s.cg.dstrm s.seq va 8 = false →
    (roomCounter s 1 = true → LaneLoc s va 8 false loc → LineIn s loc [.s, .e, .o, .m] → copyPoison s s.ct.core loc 8 false = false →
      ∃ t, exec (.sld d a i) s = .next t ∧ SameMem s t ∧ KeepsGroup s t ∧ t.cg.v = s.cg.v ∧ t = { s with seq := t.seq, groups := t.groups, cores := t.cores } ∧
        (s.isL = true → t.cg.pend = s.cg.pend ++ [⟨1, s.seq, false, [⟨1, d, BitVec.ofNat 64 (s.rdNat loc 8), false⟩]⟩] ∧ t.cg.s = s.cg.s) ∧
        (s.isL = false → ∀ k, t.cg.sreg k = if k = d ∧ d ≠ 0 then BitVec.ofNat 64 (s.rdNat loc 8) else s.cg.sreg k)) ∧
    (LaneLoc s va 8 true loc → LineIn s loc [.e, .m] →
      ∃ t, exec (.sst d a i) s = .next t ∧ KeepsGroup s t ∧ t.cg.v = s.cg.v ∧ t.cg.s = s.cg.s ∧
        t = { s with mem := t.mem, enc := t.enc, poison := t.poison, groups := t.groups, cores := t.cores, dir := t.dir } ∧
        ∀ o, isPeer o = false → t.rdByte o =
          if loc ≤ o ∧ o < loc + 8 then BitVec.ofNat 8 ((s.rS d).toNat / 2 ^ (8 * (o - loc))) else s.rdByte o) ∧
    (va % 8 ≠ 0 → exec (.sst d a i) s = .next (fatal s MISALIGN 8 va 0) ∧ (roomCounter s 1 = true → exec (.sld d a i) s = .next (fatal s MISALIGN 8 va 0)))

/-- R276, R322, R325 and R326: an atomic whose lanes' places do not overlap, performed in the L1 where the line is in E or M, or at the home
where nobody holds the line (.home, and .auto where the core's predictor has the line as contended): each lane's location receives the
operation's value of what it held, and a vector destination receives what it held. With a scalar destination the split acts as one, by its
lowest active lane. Without a destination it only performs. No other byte changes. The operation's value, by operation and type: the sum modulo the
width, the least or greatest by the type's sign, the bitwise combinations, the operand, the operand where the old value is the one compared with, and for
intervals the sum rounded outward and the hull, in canonical form.
Choices of the model that it rests on: log entries 17 and 24. -/
def Obligations.Atomics : Prop :=
  (∀ (ty : Ty) (old b c : Nat), old < 2 ^ (8 * formBytes ty 0) → b < 2 ^ (8 * formBytes ty 0) →
    let value (aop : Nat) : Nat := atomNew ty aop old b c
    let num (x : Nat) : Int := valW ty x
    let pair (x : Nat) : Ivl := ivlBits fp64 (x % 2 ^ 64) (x / 2 ^ 64)
    let el (x : Nat) : Ivl := x32Read (BitVec.ofNat 64 x)
    let flat (p : Nat × Nat) : Nat := p.1 + 2 ^ 64 * p.2
    let hull : Ivl → Ivl → Ivl := fun
      | .nai, _ => .nai
      | _, .nai => .nai
      | .empty, q => q
      | p, .empty => p
      | .mk l u, .mk l' u' => .mk (xMin l l') (xMax u u')
    (ty ∈ [.i32, .n32, .i64, .n64] →
      value 0 = (old + b) % 2 ^ wOf ty ∧
      (value 1 = old ∨ value 1 = b) ∧ num (value 1) = min (num old) (num b) ∧ (value 2 = old ∨ value 2 = b) ∧ num (value 2) = max (num old) (num b)) ∧
    (ty ∈ [.i32, .n32, .i64, .n64, .b32, .b64] → ∀ k, (value 3).testBit k = (old.testBit k && b.testBit k) ∧
      (value 4).testBit k = (old.testBit k || b.testBit k) ∧ (value 5).testBit k = (old.testBit k != b.testBit k)) ∧
    value 6 = b ∧ value 7 = (if old = c then b else old) ∧
    (ty = .x32 → value 0 = (x32Write (ivlArith fp32 .add [el old, el b]).1).toNat ∧ value 4 = (x32Write (hull (el old) (el b))).toNat) ∧
    (ty = .x64 → value 0 = flat (ivlWrite fp64 (ivlArith fp64 .add [pair old, pair b]).1) ∧ value 4 = flat (ivlWrite fp64 (hull (pair old) (pair b))))) ∧
  ∀ (s : State) (h : VH) (ty : Ty) (x : MemX) (d k : Nat) (a b c : Opnd) (loc : Nat → Nat), FreshWord s →
    let act := active s h
    let n := formBytes ty 0
    let pair := ty == .x64
    let va (l : Nat) : Nat := gAddr s a x.off l
    let raw (o : Opnd) (l : Nat) : Nat := atomVal ty (data0 s ty o l) (data1 s ty o l)
    let old (l : Nat) : Nat := s.rdNat (loc l) n
    let new (l : Nat) : Nat := atomNew ty x.form (old l) (raw b l) (raw c l)
    let hits (o l : Nat) : Prop := inMask act l = true ∧ loc l ≤ o ∧ o < loc l + n
    let wrote (t : State) (w : Nat → Prop) : Prop :=
      (∀ o, isPeer o = false → (∀ l, l < 32 → w l → ¬ hits o l) → t.rdByte o = s.rdByte o) ∧
      (∀ l o, l < 32 → w l → hits o l → t.rdByte o = BitVec.ofNat 8 (new l / 2 ^ (8 * (o - loc l)))) ∧
      t = { s with seq := t.seq, mem := t.mem, enc := t.enc, poison := t.poison, groups := t.groups, cores := t.cores, dir := t.dir, dies := t.dies } ∧ KeepsGroup s t
    Ready s act (opRegs false a ++ opRegs pair b ++ opRegs pair c ++ latchRegs s (opLatches false a ++ opLatches pair b ++ opLatches pair c)) → releases x.order = false ∨ relReady s s.cur.gh x.stream s.seq = true →
    (s.isL = false → h.n = false) →
    let hot (l : Nat) : Prop := lineOf (loc l) ∈ (s.core s.ct.core).hot
    (∀ l, l < 32 → inMask act l = true → LaneLoc s (va l) n true (loc l) ∧ logHolds s s.cur.gh x.stream s.seq (va l) n = false ∧ copyPoison s s.ct.core (loc l) n false = false ∧
      (x.hint ≠ 2 → (x.hint = 0 → ¬ hot l) → LineIn s (loc l) [.e, .m]) ∧
      (x.hint = 2 ∨ (x.hint = 0 ∧ hot l) → (s.dirE (lineOf (loc l))).st = .i ∧ (s.dirE (lineOf (loc l))).busy = none ∧ (s.dirE (lineOf (loc l))).psn = false)) →
    (∀ l m o, l < 32 → m < 32 → hits o l → hits o m → l = m) →
    (roomCounter s 0 = true → ∃ t, exec (.atom h ty x (.v d) a b c) s = .next t ∧ wrote t (fun _ => True) ∧
      GivesVec s t h 0 ty d act fun l => ((loadForm ty 0 (old l)).1, (loadForm ty 0 (old l)).2.1)) ∧
    (∃ t, exec (.atom h ty x .zero a b c) s = .next t ∧ wrote t (fun _ => True) ∧ t.cg.v = s.cg.v ∧ t.seq = s.seq) ∧
    (act = 0 → exec (.atom h ty x (.s k) a b c) s = .next s) ∧
    (∀ l, roomCounter s 1 = true → l < 32 → inMask act l = true → (∀ m, m < l → inMask act m = false) →
      ∃ t, exec (.atom h ty x (.s k) a b c) s = .next t ∧ wrote t (fun m => m = l) ∧
        (s.isL = false → (0 < k → t.cg.sreg k = (loadForm ty 0 (old l)).1) ∧ (ty = .x64 → t.cg.sreg (k + 1) = (loadForm ty 0 (old l)).2.1) ∧
          ∀ j, j ≠ k → (ty = .x64 → j ≠ k + 1) → t.cg.sreg j = s.cg.sreg j) ∧
        (s.isL = true → t.cg.s = s.cg.s ∧ t.cg.pend = s.cg.pend ++ [⟨1, s.seq, false, ⟨1, k, (loadForm ty 0 (old l)).1, false⟩ ::
          if ty = .x64 then [⟨1, k + 1, (loadForm ty 0 (old l)).2.1, false⟩] else []⟩]))

/-- R304, R308 and R328: pst sends the active lanes' bytes of one line to its home as one message with the destination set, and the push stays
outstanding; where the set is empty pst stores as stg does. A reserved set is ILLEGAL_INST, unless no lane is active: pst then does nothing. Choices of the model that it rests on: log entry 17. -/
def Obligations.PushStores : Prop :=
  ∀ (s : State) (h : VH) (ty : Ty) (x : MemX) (a b : Opnd) (c line : Nat) (loc : Nat → Nat), FreshWord s →
    let act := active s h
    let n := formBytes ty x.form
    let va (l : Nat) : Nat := gAddr s a x.off l
    let bytes (l : Nat) : List Byte := toBytes n (storeForm ty x.form s.cg.nrm (data0 s ty b l) (data1 s ty b l)).1
    Ready s act (opRegs false a ++ opRegs (ty == .x64) b ++ latchRegs s (opLatches false a ++ opLatches (ty == .x64) b)) → releases x.order = false ∨ relReady s s.cur.gh x.stream s.seq = true →
    (∀ l, l < 32 → inMask act l = true → logHolds s s.cur.gh x.stream s.seq (va l) n = false ∧ LaneLoc s (va l) n true (loc l)) →
    (∀ ds, destSet (s.rS c) = some ds → ds ≠ [] → act ≠ 0 → pushOut s s.ct.core x.stream ds = false →
      (∀ l, l < 32 → inMask act l = true → lineOf (loc l) = line) →
      ∃ t, exec (.pst h ty x a b c) s = .next t ∧ t = { s with groups := t.groups, net := t.net, tags := t.tags, dies := t.dies } ∧ KeepsGroup s t ∧
        t.cg.v = s.cg.v ∧ t.cg.s = s.cg.s ∧
        t.net = s.net ++ [⟨line, s.ct.core, .push x.stream s.ct.ctx s.cur.gh s.seq ds ((lanesOf act).flatMap fun l => cellsOf (loc l) (bytes l)) []⟩] ∧
        t.cg.pushes = s.cg.pushes ++ [⟨s.seq, line, s.ct.core, x.stream, ds⟩]) ∧
    (destSet (s.rS c) = some [] → (∀ l, l < 32 → inMask act l = true → LineIn s (loc l) [.e, .m]) →
      ∃ t, exec (.pst h ty x a b c) s = .next t ∧ KeepsGroup s t ∧ t.cg.v = s.cg.v ∧
        (∀ o, isPeer o = false → (∀ l, l < 32 → inMask act l = true → ¬ (loc l ≤ o ∧ o < loc l + n)) → t.rdByte o = s.rdByte o) ∧
        ∀ l k, l < 32 → inMask act l = true → k < n → (∀ m, m < 32 → l < m → inMask act m = true → ¬ (loc m ≤ loc l + k ∧ loc l + k < loc m + n)) →
          t.rdByte (loc l + k) = nthD 0 (bytes l) k) ∧
    (destSet (s.rS c) = none → act ≠ 0 → exec (.pst h ty x a b c) s = .next (illegalExec s)) ∧
    (act = 0 → ∃ t, exec (.pst h ty x a b c) s = .next t ∧ t = { s with groups := t.groups } ∧ (∀ i, i ≠ s.cur.gh → t.grp i = s.grp i) ∧ t.cg = s.cg)

/-- R265, R322, R329 and R330: pfch and drop fault on nothing and change no memory and no register. A prefetch whose lines are in the core's L1
and not being put back, or whose addresses lead nowhere, completes at once; so does one lane's whose line is absent and finds a way: it asks the home for the line, and
does not wait for it. drop completes where its translations are at hand: each line becomes evict-first in the core's L1 and in its home's L2. -/
def Obligations.PrefetchAndDrop : Prop :=
  ∀ (s : State) (h : VH) (x : MemX) (a : Opnd),
    let va (l : Nat) : Nat := gAddr s a x.off l
    let on (l : Nat) : Prop := l < 32 ∧ inMask (active s h) l = true ∧ canonical (va l) = true
    let quiet (t : State) : Prop := SameMem s t ∧ t.cg = { s.cg with status := t.cg.status, splits := t.cg.splits } ∧
      (∀ i, i ≠ s.cur.gh → t.grp i = s.grp i) ∧ t.teams = s.teams ∧ t.ctxs = s.ctxs ∧ t.regs = s.regs ∧ t.mem = s.mem ∧ t.poison = s.poison ∧ t.dir = s.dir
    let through (t : State) : Prop := t.cur = s.cur ∧ t.sp = s.sp
    (∃ t, exec (.pfch h x a) s = .next t ∧ quiet t) ∧ (∃ t, exec (.drop h x a) s = .next t ∧ quiet t) ∧
    (SplitHere s → s.sp.mem = none → s.sp.pmask = 0 →
      ((∀ l, on l → match xlate s s.ct.ctx s.ct.core (va l) false with
          | .hit loc => isPeer loc = true ∨ (isDev loc = true ∧ (l1Find s.cc (lineOf loc)).any (fun y => !y.st.leaving) = true)
          | .miss => False
          | _ => True) →
        ∃ t, exec (.pfch h x a) s = .next t ∧ through t ∧ t.net = s.net ∧ quiet t) ∧
      (∀ l loc, active s h = 1#32 <<< l → on l → xlate s s.ct.ctx s.ct.core (va l) false = .hit loc → isDev loc = true → l1Find s.cc (lineOf loc) = none →
        (∃ s1, makeWay s s.ct.core (lineOf loc) = .free s1) →
        ∃ t, exec (.pfch h x a) s = .next t ∧ through t ∧ l1State (t.core s.ct.core) (lineOf loc) = .isd ∧
          t.net = s.net ++ [⟨lineOf loc, s.ct.core, .getS false x.stream⟩] ∧ quiet t) ∧
      ((∀ l, on l → xlateAny s s.ct.ctx s.ct.core (va l) ≠ .miss) →
        ∃ t, exec (.drop h x a) s = .next t ∧ through t ∧ t.net = s.net ∧ quiet t ∧
          ∀ l loc, on l → xlateAny s s.ct.ctx s.ct.core (va l) = .hit loc → isPeer loc = false →
            (∀ y ∈ (t.core s.ct.core).l1, y.line = lineOf loc → y.prio = 0) ∧
            ∀ y ∈ (t.die (homeDie (128 * lineOf loc))).l2, y.line = lineOf loc → y.prio = 0))

/-- R94, R333 to R335: a copy whose checks pass joins the copy engine's queue under ASYNC; one of length zero is done at issue. The engine
copies a range of scratchpad of the own core granule by granule and the command leaves: the target holds what the source held, a copy with FE
leaves its granules full, and no other byte of the scratchpad and no memory changes. Choices of the model that it rests on: log entry 41. -/
def Obligations.CopyCommands : Prop :=
  (∀ (s : State) (f : CpyF), NoTx s → roomCounter s 2 = true →
    let ctl := s.rS f.ctl
    let dst := cpyAddr (cpyDsp ctl) (s.rS f.dst)
    let src := cpyAddr (cpySsp ctl) (s.rS f.src)
    let len := fld ctl 31 0
    (f.fe = true → cpyDsp ctl = true) → dst % 16 = 0 → src % 16 = 0 → len % 16 = 0 →
    (∃ c o, cpyRange s (cpyDsp ctl) dst len = .at_ c o) → (∃ c o, cpyRange s (cpySsp ctl) src len = .at_ c o) →
    (len = 0 → f.step = false → exec (.cpy f) s = .next s) ∧
    (len ≠ 0 → ∃ t, exec (.cpy f) s = .next t ∧ t = { s with groups := t.groups, cores := t.cores } ∧
      t.core s.ct.core = { s.cc with cq := s.cc.cq ++ [⟨f, s.seq, s.cur.gh, s.rS f.dst, s.rS f.src, ctl, false, 0, [], wordPlace s⟩] } ∧
      (∀ k, k ≠ s.ct.core → t.core k = s.core k) ∧ (∀ i, i ≠ s.cur.gh → t.grp i = s.grp i) ∧
      t.cg = { s.cg with pend := s.cg.pend ++ [⟨2, s.seq, true, []⟩] })) ∧
  ∀ (s : State) (core : Nat) (c : CCmd) (rest : List CCmd),
    let tm := s.team (s.grp c.gh).team
    let len := fld c.ctl 31 0
    let src := c.src.toNat % 2 ^ 21
    let dst := c.dst.toNat % 2 ^ 21
    let inside (a o : Nat) : Prop := a % 2 ^ 32 / 2 ^ 24 = 0 ∧ a / 2 ^ 21 % 8 = 7 ∧ tm.off ≤ o ∧ o + len ≤ tm.off + tm.bytes ∧ o + len ≤ 0x180000 ∧ o % 16 = 0
    (s.core core).cq = c :: rest → tm.core = core → c.begun = true → c.pos = 0 → c.early = [] →
    (∀ p ∈ s.io.peerOut, ¬ (p.id = c.id ∧ p.gh = c.gh)) → c.f.step = false → c.f.redop = 0 → cpyDsp c.ctl = true → cpySsp c.ctl = true →
    c.src.toNat < 2 ^ 32 → c.dst.toNat < 2 ^ 32 → len % 16 = 0 → inside c.src.toNat src → inside c.dst.toNat dst → (src + len ≤ dst ∨ dst + len ≤ src) →
    ∃ t, exec (.copyCommandComplete core) s = .next t ∧ t = { s with groups := t.groups, cores := t.cores } ∧ (t.core core).cq = rest ∧
      (∀ o, mget 0 (t.core core).sp o = if dst ≤ o ∧ o < dst + len then mget 0 (s.core core).sp (src + (o - dst)) else mget 0 (s.core core).sp o) ∧
      (∀ k, (t.core core).isFull k = ((s.core core).isFull k || (c.f.fe && decide (dst / 16 ≤ k) && decide (k < (dst + len) / 16)))) ∧
      (t.grp c.gh).pend = (s.grp c.gh).pend.filter fun p => p.id != c.id

/-- R338 to R347: tbegin opens a transaction in each active lane with the abort point behind the word, irrevocable in a lane whose CCOUNT is 8 where
the group holds the token; without it the word waits and the group stands in the token's queue. tabort aborts the active lanes that are in a
transaction: their status words are written, and they resume at their abort points. tstat reads the lane's word. tcommit: lanes of another
stream abort FORBIDDEN, and of lanes that conflict, the later abort CONFLICT_LANE; each of the others whose recorded bytes still stand and whose
lines nobody holds writes what it buffered, all lanes together, and ends its transaction; no other byte changes. A lane whose recorded bytes have
changed aborts CONFLICT_MEM. Choices of the model that it rests on: log entries 44 and 73. -/
def Obligations.Transactions : Prop :=
  let status (code detail cc : Nat) : Word64 := BitVec.ofNat 64 (code + detail * 2 ^ 8 + cc * 2 ^ 16 + if cc = 8 then 2 ^ 20 else 0)
  let room (s : State) (ls : List Nat) : Prop := s.cg.defer.length + ((ls.map fun l => (txOf s.cg l).abortA).eraseDups).length ≤ 8
  let closed (x : Tx) : Prop := x.active = false ∧ x.irrev = false ∧ x.rlines = [] ∧ x.wlines = [] ∧ x.wattr = [] ∧ x.rbytes = [] ∧ x.wbytes = []
  (∀ (s : State) (h : VH) (st d : Nat), txLanes s.cg (active s h) = [] →
    let pc := if s.isL then s.cur.pcA else s.cur.pcB
    let cc (l : Nat) : Nat := if (txOf s.cg l).txpc = pc then (txOf s.cg l).ccount else 0
    let last : Prop := ∃ l, l < 32 ∧ inMask (active s h) l = true ∧ cc l = 8
    (s.isL = false → s.cur.last = false → exec (.tbegin h st d) s = .next (illegalExec s)) ∧
    ((s.isL = true ∨ s.cur.last = true) →
      (last → s.cctx.token ≠ some s.cur.gh → ∃ t, exec (.tbegin h st d) s = .next t ∧ s.cur.gh ∈ t.cctx.tokenQ ∧ t.cur.held = true ∧
        t = { s with cur := t.cur, groups := t.groups, ctxs := t.ctxs } ∧ t.cg = { s.cg with splits := t.cg.splits }) ∧
      (¬ last ∨ s.cctx.token = some s.cur.gh →
        ∃ t, exec (.tbegin h st d) s = .next t ∧ OnlyGroup s t ∧ t.cg = { s.cg with tx := t.cg.tx, v := t.cg.v, pend := t.cg.pend, vpois := t.cg.vpois } ∧
          (∀ r l, l < 32 → t.cg.velem r l = if r = d ∧ inMask (active s h) l = true then status 0 0 (cc l) else s.cg.velem r l) ∧
          ∀ l, l < 32 → txOf t.cg l = if inMask (active s h) l = true then
            { txOf s.cg l with active := true, irrev := decide (cc l = 8), stream := st, statreg := d, abortA := s.cur.pcA + (if s.isL then 12 else 4),
                               abortB := s.cur.pcB + 1, txpc := pc, ccount := cc l, doomed := false, rlines := [], wlines := [], wattr := [], rbytes := [], wbytes := [] }
            else txOf s.cg l))) ∧
  (∀ (s : State) (h : VH) (d code : Nat), SplitHere s →
    let ls := txLanes s.cg (active s h)
    OneResult s h d [] (fun l => let x := txOf s.cg l
      BitVec.ofNat 64 (x.last % 2 ^ 16 + x.ccount * 2 ^ 16 + x.wlines.length * 2 ^ 20 + x.rlines.length * 2 ^ 24 + (if x.irrev then 2 ^ 30 else 0) +
        if x.active then 2 ^ 31 else 0)) (exec (.tstat h d) s) ∧
    (ls = [] → exec (.tabort h code) s = .next s) ∧
    (ls ≠ [] → room s ls →
      ∃ t, exec (.tabort h code) s = .next t ∧ t = { s with groups := t.groups, ctxs := t.ctxs } ∧ (∀ i, i ≠ s.cur.gh → t.grp i = s.grp i) ∧
        (∀ l ∈ ls, laneAt t.cg l (txOf s.cg l).abortA ∧ closed (txOf t.cg l) ∧ (txOf t.cg l).ccount = (txOf s.cg l).ccount) ∧
        (∀ l, l ∉ ls → txOf t.cg l = txOf s.cg l) ∧
        ∀ r l, l < 32 → t.cg.velem r l = if l ∈ ls ∧ r = (txOf s.cg l).statreg then status 6 code (txOf s.cg l).ccount else s.cg.velem r l)) ∧
  ∀ (s : State) (h : VH) (st : Nat), SplitHere s → s.sp.mask ≠ 0 → (∀ todo ab, s.sp.hold ≠ .commit todo ab) →
    let ls := txLanes s.cg (active s h)
    let wrong := ls.filter fun l => (txOf s.cg l).stream != st
    let r := resolveLanes s.cg (ls.filter fun l => (txOf s.cg l).stream == st)
    let free (l : Nat) : Prop := (∀ line ∈ txAll (txOf s.cg l), lineLocked s line (some (s.cur.gh, l)) = false) ∧
      ∀ line ∈ (txOf s.cg l).wlines, isHost (128 * line) = false ∧ lineLocked s line (some (s.cur.gh, l)) = false ∧ pushPending s s.ct.core line = false ∧
        (s.dirE line).busy = none ∧ (s.dirE line).st = .i ∧ (s.dirE line).psn = false
    let stands (l : Nat) : Prop := (∀ b ∈ (txOf s.cg l).rbytes, s.rdByte b.1 = b.2)
    let sets (l : Nat) : Prop := ((txOf s.cg l).wbytes.map Prod.fst).Nodup ∧ (∀ b ∈ (txOf s.cg l).wbytes, isDev b.1 = true ∧ lineOf b.1 ∈ (txOf s.cg l).wlines) ∧
      ∀ b ∈ (txOf s.cg l).rbytes, lineOf b.1 ∈ txAll (txOf s.cg l)
    (r.1 ≠ [] → relReady s s.cur.gh st s.seq = false →
      ∃ t, exec (.tcommit h st) s = .next t ∧ SameMem s t ∧ t.cg.v = s.cg.v ∧ ∃ todo ab, t.sp.hold = .commit todo ab) ∧
    ((r.1 = [] ∨ relReady s s.cur.gh st s.seq = true) → (∀ l ∈ r.1, free l ∧ sets l ∧ if (txOf s.cg l).irrev then (txOf s.cg l).doomed = false ∧ meetsLower s.cg l = false else stands l) → room s (wrong ++ r.2) →
      ∃ t, exec (.tcommit h st) s = .next t ∧ (∀ l ∈ r.1, ∀ b ∈ (txOf s.cg l).wbytes, t.rdByte b.1 = b.2) ∧
        SameMemBut s t (fun o => ∃ l ∈ r.1, ∃ b ∈ (txOf s.cg l).wbytes, b.1 = o) ∧ t.cg.s = s.cg.s ∧
        (∀ l ∈ r.1, closed (txOf t.cg l) ∧ (txOf t.cg l).ccount = 0) ∧
        (∀ l ∈ wrong ++ r.2, closed (txOf t.cg l) ∧ laneAt t.cg l (txOf s.cg l).abortA) ∧
        (∀ q l, l < 32 → t.cg.velem q l = if l ∈ wrong ∧ q = (txOf s.cg l).statreg then status 5 0 (txOf s.cg l).ccount
          else if l ∈ r.2 ∧ q = (txOf s.cg l).statreg then status 1 0 (min ((txOf s.cg l).ccount + 1) 8) else s.cg.velem q l) ∧
        (wrong ++ r.2 = [] → t.sp = { s.sp with hold := .none })) ∧
    (∀ l, ls = [l] → wrong = [] → relReady s s.cur.gh st s.seq = true → (txOf s.cg l).irrev = false → free l → ¬ stands l → s.cg.defer.length < 8 →
      ∃ t, exec (.tcommit h st) s = .next t ∧ SameMem s t ∧ laneAt t.cg l (txOf s.cg l).abortA ∧ closed (txOf t.cg l) ∧
        ∀ q k, k < 32 → t.cg.velem q k = if k = l ∧ q = (txOf s.cg l).statreg then status 2 0 (min ((txOf s.cg l).ccount + 1) 8) else s.cg.velem q k)

/-- R94 to R96, R347, R379, R382 and R400: the events of the issue machinery. The oldest counted instruction of a class writes its results, where no
later word has written there, and leaves its counter; a ready split reaches the age rank; a retired, drained group's registers are released; the
first live group that asked receives the token; a request that waited too long competes with slack 0, and an arbiter grants the lowest slack, then
the longest wait, then the lower core, but none ahead of its own core's earlier request to its line.
R269, R377, R398 and R399: what ends the waits. The split that began to wait first in take receives its bin's items; a drained launch ends
every take.drain with 0, also in native records; the lane that waited first on a full granule reads it, in the D-encoding into its register.
Choices of the model that it rests on: log entries 15 and 19. -/
def Obligations.IssueAndWaitEvents : Prop :=
  (∀ (s : State) (gh cls sp c req : Nat) (p : Pend) (m : Msg),
     let g := s.grp gh
     let q := nthD Split.init g.splits sp
     (g.pend.find? (fun p => p.cls == cls) = some p → p.wait = false → cls ≠ 2 → (∀ w ∈ p.ws, w.con = false ∧ w.kind < 3) →
       (p.ws.map fun w => (w.kind, w.key)).Nodup →
       ∃ t, exec (.countedResultWrite gh cls) s = .next t ∧ t = { s with free := t.free, groups := t.groups, cores := t.cores } ∧
         (∀ i, i ≠ gh → t.grp i = s.grp i) ∧ (t.grp gh).pend.map (·.id) = (g.pend.map (·.id)).filter (· != p.id) ∧
         (∀ r l, l < 32 → (t.grp gh).velem r l = match p.ws.find? fun w => w.kind == 0 && w.key == r * 32 + l with
           | some w => w.val
           | none => g.velem r l) ∧
         ∀ k, (t.grp gh).sreg k = if k = 0 then 0 else match p.ws.find? fun w => w.kind == 1 && w.key == k with
           | some w => w.val
           | none => g.sreg k) ∧
     (sp < g.splits.length → splitReady g q = true → groupMay s g = true → q.aged = false → 64 ≤ q.age →
       exec (.issueAgeBound gh sp) s = .next (s.setGrp gh { g with splits := setAt g.splits sp { q with aged := true } })) ∧
     (g.retired = true → groupQuiet s gh = true → ∃ t, exec (.groupRelease gh) s = .next t ∧ t = { s with groups := merase s.groups gh, cores := t.cores, teams := t.teams } ∧
       ∀ k, (t.core k) = { s.core k with latch := (t.core k).latch }) ∧
     (∀ rest, (s.ctx c).token = none → (s.ctx c).tokenQ.filter (fun h => s.groups.any fun e => e.1 == h && !e.2.retired) = gh :: rest →
       exec (.irrevocableTokenGrant c) s = .next (s.setCtx c { s.ctx c with token := some gh, tokenQ := rest })) ∧
     (s.net[req]? = some m → isReq m.kind = true → (s.tagOf m).arr = 0 →
       ∃ t, exec (.slackTimeout req) s = .next t ∧ t = { s with tags := t.tags } ∧ t.tagOf m = { s.tagOf m with out := true } ∧
         ∀ y, y ≠ m → t.tagOf y = s.tagOf y) ∧
     (∀ (l : List ReqTag) (a : ReqTag), arbiter l = some a →
       let first (i : Nat) (y : ReqTag) : Prop := l[i]? = some y ∧ ∀ (j : Nat) (x : ReqTag), j < i → l[j]? = some x → ¬ (x.msg.core = y.msg.core ∧ x.msg.line = y.msg.line)
       let slack (y : ReqTag) : Nat := if y.out then 0 else y.slack
       ∃ i, first i a ∧ ∀ j y, first j y → slack a < slack y ∨ (slack a = slack y ∧ (a.since < y.since ∨ (a.since = y.since ∧ a.msg.core ≤ y.msg.core))))) ∧
  ∀ (s : State) (gh k d since c core gran : Nat) (drain : Bool) (l : Launch) (w : Waiter),
    let g := s.grp gh
    let t0 := s.team g.team
    ((nthD Split.init g.splits k).hold = .take drain d since → k < g.splits.length → teamLaunch s t0 = some l →
      firstWaiter (fillable s (takeWaiters s t0.core t0.entry)) = some (gh, k) → binCount (s.bin t0.core t0.entry) ≠ 0 → g.done ≠ 0 →
      poisonAt (popItems l t0.core t0.entry (lanesOf g.done).length s []).1 = none →
      ∃ t m, exec (.takeFill gh k) s = .next t ∧ t = { s with groups := t.groups, cores := t.cores, free := t.free } ∧ SameMem s t ∧
        (t.grp gh).done = g.done &&& ~~~m ∧ m &&& ~~~g.done = 0 ∧ (t.grp gh).sreg d = (if d = 0 then 0 else BitVec.ofNat 64 (lanesOf m).length) ∧
        (nthD Split.init (t.grp gh).splits k).mask = (nthD Split.init g.splits k).mask ||| m ∧ (nthD Split.init (t.grp gh).splits k).hold = .none) ∧
    (drained s c = true → drainWaits s c = true → ∃ t, exec (.takeDrainRelease c) s = .next t ∧ t = { s with groups := t.groups, ctxs := t.ctxs } ∧
      t.ctx c = { s.ctx c with saves := (s.ctx c).saves.map fun v => { v with groups := v.groups.map fun e => (e.1, drainSplits e.2) } } ∧
      (∀ n, n ≠ c → t.ctx n = s.ctx n) ∧
      (t0.ctx = c → s.groups.any (fun e => e.1 == gh) = true → k < g.splits.length → (nthD Split.init g.splits k).hold = .take true d since →
        (t.grp gh).sreg d = 0 ∧ nthD Split.init (t.grp gh).splits k = { nthD Split.init g.splits k with hold := .none })) ∧
    ((s.core core).waits.find? (fun w => w.granule == core * 2 ^ 17 + gran && feResident s w core) = some w → (s.core core).isFull gran = true →
      (s.core core).spPoison w.addr (formBytes w.ty w.form) = false → w.lane < 32 →
      let v := loadForm w.ty w.form ((s.core core).rdSp w.addr (formBytes w.ty w.form))
      ∃ t, exec (.ldfeServe core gran) s = .next t ∧ t = { s with groups := t.groups, cores := t.cores } ∧
        (t.core core).isFull gran = !w.take ∧ (t.core core).waits.length + 1 = (s.core core).waits.length ∧ (t.core core).sp = (s.core core).sp ∧
        ((s.team (s.grp w.gh).team).isL = true → (t.grp w.gh).v = (s.grp w.gh).v ∧
          (t.grp w.gh).pend.map (fun p => (p.id, p.ws)) = (s.grp w.gh).pend.map fun p =>
            (p.id, p.ws ++ if p.id = w.pend ∧ w.n = false then pws (loadRes w.ty w.d [(w.lane, v)]) else [])) ∧
        ((s.team (s.grp w.gh).team).isL = false → w.n = false → ∀ r i, i < 32 → (t.grp w.gh).velem r i = if i = w.lane ∧ r = w.d then v.1
          else if i = w.lane ∧ w.ty = .x64 ∧ r = w.d + 1 then v.2.1 else (s.grp w.gh).velem r i))

/-- R350 to R357: splits with a lane still owed have the boost from then on, until the period completes; where none is owed, the first entry of a die's queue is pushed on its free list:
the node points to the old first node, the head to the node, and the count rises, and an entry that waited for room enters the queue; when the
queues are empty the grace period completes and every gwait that it serves returns its number; a gwait that no period serves yet begins the next.
Choices of the model that it rests on: log entry 43. -/
def Obligations.GraceEvents : Prop :=
  ∀ (s : State) (c die nodeL headL gh d i : Nat) (e : DFree),
    let x := s.ctx c
    let k := x.gn + 1
    let here : Prop := s.groups.any (fun e => e.1 == gh) = true ∧ (s.team (s.grp gh).team).ctx = c
    (x.grace = true → allPassed s c = false → exec (.graceBoost c) s = .next (s.setCtx c { x with boosted := true }) ∧
      let t := s.setCtx c { x with boosted := true }
      (here → ∀ p ∈ (s.grp gh).splits, boosted t (s.grp gh) p = decide (p.mask &&& (s.grp gh).misc.owed ≠ 0)) ∧
      ((s.team (s.grp gh).team).ctx ≠ c → ∀ p ∈ (s.grp gh).splits, boosted t (s.grp gh) p = boosted s (s.grp gh) p)) ∧
    (x.grace = true → allPassed s c = true → x.defers.find? (fun d => d.die == die && d.k == k) = some e →
      xlate s c (128 * die) e.node true = .hit nodeL → xlate s c (128 * die) e.head true = .hit headL → isDev nodeL = true → isDev headL = true →
      s.isPoison headL 16 = false → (nodeL + 8 ≤ headL ∨ headL + 16 ≤ nodeL) → (x.defers.filter fun d => d.die == die).length ≤ 65536 →
      (∀ a, a = nodeL ∨ a = headL → lineLocked s (lineOf a) none = false ∧ pushPending s (128 * die) (lineOf a) = false ∧
        (s.dirE (lineOf a)).busy = none ∧ (s.dirE (lineOf a)).st = .i ∧ (s.dirE (lineOf a)).psn = false) →
      ∃ t, exec (.graceFreePush c die) s = .next t ∧ t.rdNat nodeL 8 = s.rdNat headL 8 ∧ t.rdNat headL 8 = e.node % 2 ^ 64 ∧
        t.rdNat (headL + 8) 8 = (s.rdNat (headL + 8) 8 + 1) % 2 ^ 64 ∧
        (∀ a, isPeer a = false → ¬ (nodeL ≤ a ∧ a < nodeL + 8) → ¬ (headL ≤ a ∧ a < headL + 16) → t.rdByte a = s.rdByte a) ∧
        (t.ctx c).pushed = x.pushed + 1 ∧ (t.ctx c).defers = x.defers.erase e ++ ((roomWaiter s c die).map fun w => w.2.2).toList ∧
        ∀ w, roomWaiter s c die = some w →
          nthD Split.init (t.grp w.1).splits w.2.1 = { nthD Split.init (s.grp w.1).splits w.2.1 with hold := .none, age := 0 }) ∧
    (x.grace = true → allPassed s c = true → (∀ d ∈ x.defers, d.k ≠ k) → anyGroup s c (roomFor k) = false → owedDone s c k = true →
      ∃ t, exec (.graceCompletion c) s = .next t ∧ (t.ctx c).gn = k ∧ (t.ctx c).boosted = false ∧ SameMemBut s t (traceSlot s (firstDie s c)) ∧
        ((∀ d ∈ x.defers, d.k ≠ 0) → anyGroup s c gwaitNew = false → (t.ctx c).grace = false) ∧ (anyGroup s c gwaitNew = true → (t.ctx c).grace = true) ∧
        (here → i < (s.grp gh).splits.length → (nthD Split.init (s.grp gh).splits i).hold = .gwait d k →
          (t.grp gh).sreg d = (if d = 0 then 0 else BitVec.ofNat 64 k) ∧ nthD Split.init (t.grp gh).splits i = { nthD Split.init (s.grp gh).splits i with hold := .none }))

/-- R361 to R366, R378 and R504 to R506: a 64-byte item written to an idle slot of a resident context is accepted; its block is read and checked
in the stated order, and refused with the stated cause, or starts where no launch runs and its turn has come: its root item goes to the list of
its die, and every bin of the partition is empty; otherwise it stays queued. A launch
completes when no item and no group is left. A write of 0 returns a finished slot to idle. -/
def Obligations.LaunchEvents : Prop :=
  ∀ (s : State) (c k cause : Nat) (item : BitVec 512) (b tb : List Byte),
    let x := slotOf s c k
    let l := parseBlock x.ablock.toNat b tb
    let core := 128 * firstDie s c
    let root (t : State) (y : LSlot) : Prop := t = { s with ctxs := t.ctxs, cores := t.cores, dies := t.dies } ∧
      listOf t (rootDie s c y) c (itemEntry y.item) = listOf s (rootDie s c y) c (itemEntry y.item) ++ [[⟨y.item, 0, 0, none⟩]] ∧
      ∀ n ∈ ctxCores s c, (t.core n).bins = [] ∧ (t.core n).flying = []
    let read : DevRead := if x.head = [] then devRead s c core (whoLaunch k) x.ablock.toNat 256 else .ok x.head
    let rowOf (b tb : List Byte) : LSlot := { x with wait := false, head := [], ok := true, blk := some (parseBlock x.ablock.toNat b tb) }
    (k < 16 → c < 64 → x.state = 0 → ctxResident s c = true → deviceReady s = true → ∃ t, exec (.launchItemWrite c k 64 item) s = .next t ∧
      slotOf t c k = { x with item := item, ablock := x.block, adie := x.die, state := 1, cause := 0, wait := true, head := [], ok := false, blk := none, order := 0 } ∧
      SameMemBut s t (traceSlot s (firstDie s c))) ∧
    (x.state ≠ 0 → exec (.launchItemWrite c k 64 item) s = .next s) ∧
    (k < 16 → (x.state = 3 ∨ x.state = 4) → ctxResident s c = true →
      exec (.launchSlotStateWrite c k 0) s = .next (setSlot s c k { x with state := 0, cause := 0 })) ∧
    (x.wait = true → ctxResident s c = true → deviceReady s = true →
      let dieBad : Prop := x.adie ≠ 0xFF ∧ (ctxDies s c).length ≤ x.adie
      let backBad : Prop := ∃ d ∈ ctxDies s c, fld (s.reg (rBACKING d c)) 63 56 < 2
      (cause = (if x.adie ≠ 0xFF ∧ (ctxDies s c).length ≤ x.adie then 4 else if (ctxDies s c).any (fun d => decide (fld (s.reg (rBACKING d c)) 63 56 < 2)) then 5 else 2) →
        (dieBad ∨ backBad ∨ x.ablock.toNat % 64 ≠ 0) →
        ∃ t, exec (.launchBlockRead c k) s = .next t ∧ (slotOf t c k).state = 4 ∧ (slotOf t c k).cause = cause) ∧
      (¬ dieBad → ¬ backBad → x.ablock.toNat % 64 = 0 → read = .ok b → devRead s c core (whoLaunch k) (bField b 40 8) 1024 = .ok tb →
        (blockOk b l = false → ∃ t, exec (.launchBlockRead c k) s = .next t ∧ (slotOf t c k).state = 4 ∧ (slotOf t c k).cause = 2) ∧
        (blockOk b l = true → (l.row (itemEntry x.item)).used = false →
          ∃ t, exec (.launchBlockRead c k) s = .next t ∧ (slotOf t c k).state = 4 ∧ (slotOf t c k).cause = 1) ∧
        (blockOk b l = true → (l.row (itemEntry x.item)).used = true → x.state = 1 →
          let turn : Prop := nextQueued (setSlot s c k (rowOf b tb)) c = some k
          (running s c = none → turn → backingRoom s (rootDie s c x) c = true → regionOk s (rootDie s c x) c = true →
            ∃ t, exec (.launchBlockRead c k) s = .next t ∧ slotOf t c k = { rowOf b tb with state := 2 } ∧ root t x) ∧
          ((running s c).isSome = true ∨ ¬ turn →
            ∃ t, exec (.launchBlockRead c k) s = .next t ∧ slotOf t c k = rowOf b tb ∧ t = { s with ctxs := t.ctxs, cores := t.cores } ∧
              ∀ n, t.core n = { s.core n with tries := (t.core n).tries }))) ∧
      (∀ code dt a, ¬ dieBad → ¬ backBad → x.ablock.toNat % 64 = 0 → read = .bad code dt a →
        ∃ t, exec (.launchBlockRead c k) s = .next t ∧ (slotOf t c k).state = 4 ∧ (slotOf t c k).cause = 3)) ∧
    (nextQueued s c = some k → (∀ e ∈ (s.ctx c).slots, e.2.state ≠ 2) → backingRoom s (rootDie s c x) c = true → regionOk s (rootDie s c x) c = true →
      ctxValid s c = true → ctxState s c = 0 → ∃ t, exec (.queuedLaunchStart c) s = .next t ∧ slotOf t c k = { x with state := 2 } ∧ root t x) ∧
    (∀ q, running s c = some (k, q) → noItems s c = true → noGroups s c = true → ctxValid s c = true → ctxState s c = 0 →
      ∃ t, exec (.launchComplete c) s = .next t ∧ slotOf t c k = { x with state := 3, cause := 0, wait := false, head := [], ok := false, blk := none } ∧
        SameMemBut s t (traceSlot s (firstDie s c)) ∧ ∀ n ∈ ctxCores s c, (t.core n).bins = [] ∧ (t.core n).flying = [])

/-- R34, R47 to R49, R72 and R76, with R373: a bin that fires starts one team of its row: the groups of the row with their allotments and roles, s1
to s4 as R49 says, the popped items in lanes from 0 upward, the other lanes done, every group at its role's PC. A timer that runs on a bin with
items can expire. Choices of the model that it rests on: log entry 25. -/
def Obligations.TeamsStart : Prop :=
  ∀ (s : State) (core e c slot off : Nat) (l : Launch) (ps : List Nat),
    let items := (popItems l core e 32 s []).1.map (·.item)
    let tid := freshKey s.teams
    let r := l.row e
    let isL := coreIsL core
    let pc (n : Nat) : Nat × Nat := rolePc r isL n
    ((s.bin core e).timer = true → (s.bin core e).expired = false → 0 < binCount (s.bin core e) →
      exec (.binTimerExpiry core e) s = .next (s.setBin core e { s.bin core e with expired := true })) ∧
    (coreLaunch s core = some (c, slot, l) → canStart s l r core = some (ps, off) → binRipe (s.bin core e) = true → fillable s (takeWaiters s core e) = [] →
      poisonAt (popItems l core e 32 s []).1 = none → ps.length ≤ 32 → ∃ t, exec (.binFire core e) s = .next t ∧ SameMemBut s t (traceSlot s (dieOf core)) ∧
        (let x := t.team tid
         x.ctx = c ∧ x.slot = slot ∧ x.entry = e ∧ x.core = core ∧ x.isL = isL ∧ x.size = ps.length ∧ x.off = off ∧ x.bytes = l.scratch ∧ x.ntiles = r.tiles ∧
         x.gone = false ∧ x.pair = none ∧ x.tiles = []) ∧
        ∀ i, i < ps.length →
          let g := t.grp (handle tid i)
          let n := nthD 0 (rowRoles r) i
          g.team = tid ∧ g.idx = i ∧ g.stage = n ∧ g.allot = nthD 0 l.allots n ∧ g.part = nthD 0 ps i ∧ g.nrm = 2 ∧ g.trapen = 0 ∧ g.exited = 0 ∧ g.q = [] ∧
          g.sreg 1 = BitVec.ofNat 64 l.addr ∧ g.sreg 2 = BitVec.ofNat 64 (7 * 2 ^ 21 + off) ∧ g.sreg 3 = BitVec.ofNat 64 l.scratch ∧
          g.sreg 4 = BitVec.ofNat 64 items.length ∧
          (∀ j m, j < items.length → m < 7 → g.velem m j = itemP (nthD 0 items j) m) ∧
          (∀ j, j < items.length → g.velem 7 j = BitVec.ofNat 64 (itemKey (nthD 0 items j) + itemBits (nthD 0 items j) 15 0 * 2 ^ 32)) ∧
          ∃ p, g.splits = [p] ∧ p.pc = (pc n).1 ∧ p.lpc = (pc n).2 ∧ p.hold = .none ∧
            ∀ j, j < 32 → inMask p.mask j = (r.active || decide (j < items.length)) ∧ inMask g.done j = !(r.active || decide (j < items.length)))

/-- R372 and R375: a spill moves items from the tails of a bin to the end of its die's list in batches of at most 32, and loses none; a refill
places the oldest batch in the bin.
R376: a die under low water asks the others in order of hops; the first over high water hands over its oldest batch, which then joins the
asker's list; where none does, the asker waits before it asks again. Choices of the model that it rests on: log entries 52 and 61. -/
def Obligations.BinSpillsRefillsAndSteals : Prop :=
  (∀ (s : State) (core e c slot : Nat) (l : Launch),
     let b := s.bin core e
     let die := dieOf core
     let lists := listOf s die c e
     let canon : Prop := mwf [] b.banks = true ∧ ∀ x ∈ b.banks, x.1 < 8
     let spills (o : Out) : Prop := ∃ t new, o = .next t ∧ t = { s with cores := t.cores, dies := t.dies } ∧
       listOf t die c e = lists ++ new ∧ (∀ y ∈ new, 0 < y.length ∧ y.length ≤ 32) ∧
       binCount (t.bin core e) + (new.map List.length).sum = binCount b
     coreLaunch s core = some (c, slot, l) → canon → regionOk s die c = true →
     (binRipe b = true → canStart s l (l.row e) core = none → spills (exec (.binWaitExpiry core e) s)) ∧
     (eligible l (l.row e) (coreIsL core) = false → 0 < binCount b → spills (exec (.ineligibleBinMove core e) s)) ∧
     (binCap l * 3 < binCount b * 4 → backingRoom s die c = true → spills (exec (.binSpill core e) s)) ∧
     (∀ y rest, lists = y :: rest → refillNext s l c die = some (core, e) →
       ∃ t, exec (.binRefill core e) s = .next t ∧ listOf t die c e = rest ∧ SameMem s t ∧
         t = { s with cores := t.cores, dies := t.dies, free := t.free, seq := t.seq } ∧
         ∀ i ∈ y, ∃ k, ∃ z ∈ bankOf (t.bin core e) k, z.item = i.item)) ∧
  ∀ (s : State) (c die e slot d : Nat) (l : Launch) (b : List PoolItem) (rest : List (List PoolItem)),
    let key := c * 16 + e
    let st (t : State) (n : Nat) : Nat := mget 0 (t.die n).steal key
    (running s c = some (slot, l) → die ∈ ctxDies s c → rowUsed l e = true → underLow s l c die e = true → st s die = 0 →
      ((∀ x ∈ stealOrder s c die, (listOf s x c e).length < 4) → ∃ t, exec (.stealRequest c die e) s = .next t ∧ st t die = 2 ∧ t = { s with dies := t.dies } ∧
        ∀ n, listOf t n c e = listOf s n c e) ∧
      ((stealOrder s c die).find? (fun d => 4 ≤ (listOf s d c e).length) = some d → listOf s d c e = b :: rest → regionOk s d c = true →
        ∃ t, exec (.stealRequest c die e) s = .next t ∧ st t die = 1 ∧ t = { s with dies := t.dies } ∧ mget [] (t.die die).stolen key = b ∧
          ∀ n, listOf t n c e = if n = d then rest else listOf s n c e)) ∧
    (st s die = 1 → mget [] (s.die die).stolen key = b → b ≠ [] → backingRoom s die c = true → regionOk s die c = true →
      ∃ t, exec (.stealTransfer c die e) s = .next t ∧ st t die = 0 ∧ t = { s with dies := t.dies } ∧ mget [] (t.die die).stolen key = [] ∧
        listOf t die c e = listOf s die c e ++ [b]) ∧
    (st s die = 2 → ∃ t, exec (.stealRetryTimer c die e) s = .next t ∧ st t die = 0 ∧ t = { s with dies := t.dies } ∧ ∀ n, listOf t n c e = listOf s n c e)

/-- R297, R302 and R304: what the home does with each request that stands first in its line's queue, on a line of device memory whose entry is
not poisoned: the grant or the forward it sends, to whom, and what its entry becomes; an acquire from outside the scope of an unpublished narrow
release forces the publish; the requests that must first take copies away wait in BUSY. Choices of the model that it rests on: log entries 53
and 71. -/
def Obligations.HomeRequests : Prop :=
  ∀ (s : State) (line core stream : Nat) (acq : Bool),
    let e := s.dirE line
    let listed0 := sharersOf s e
    let sh := sharersOf s { e with lost := e.lost.filter (· != core) }
    let after (t : State) : DirEnt := t.dirE line
    isHost (128 * line) = false → e.psn = false → coreExists s.part core = true → (∀ k ∈ e.sharers, coreExists s.part k = true) →
    let owns (t : State) : Prop := (after t).st = .em ∧ (after t).owner = some core ∧ sharersOf t (after t) = [] ∧ (after t).busy = none
    let waits (t : State) (req : Nat) (acks : List Nat) (fwd : Option Nat) : Prop :=
      ∃ b, after t = { e with lost := (after t).lost, taint := (after t).taint, busy := some b } ∧ b.req = req ∧ b.core = core ∧ b.acks = acks ∧ b.fwd = fwd ∧ b.fills = [] ∧ b.sweep = []
    let shared (t : State) : Prop := core ∈ sharersOf t (after t) ∧ ∀ k ∈ sh, k ∈ sharersOf t (after t)
    let exclusive (m : Msg) (o : Out) : Prop :=
      (e.st = .i → ∃ t, o = .next t ∧ HomeServed s t line m [(core, .data .m)] ∧ owns t) ∧
      (∀ k, e.st = .em → e.owner = some k → ∃ t, o = .next t ∧ HomeServed s t line m [(k, .fwdM core)] ∧ owns t) ∧
      (e.st = .s → ∃ t, o = .next t ∧ HomeServed s t line m (if sh = [] then [(core, .data .m)] else sh.map fun k => (k, .inv)) ∧
        (sh = [] → owns t) ∧ (sh ≠ [] → waits t 2 sh none)) ∧
      (∀ k, e.st = .o → e.owner = some k → ∃ t, o = .next t ∧ HomeServed s t line m ((k, .fwdM core) :: (sh.filter (· != k)).map fun k => (k, .inv)) ∧
        (sh.filter (· != k) = [] → owns t) ∧ (sh.filter (· != k) ≠ [] → waits t 2 (sh.filter (· != k)) none))
    let put (k : MKind) (o : Out) : Prop := AtHead s line core k → ∃ t, o = .next t ∧ HomeServed s t line ⟨line, core, k⟩ [(core, .putAck)] ∧
      (e.owner = some core → (after t).owner = none ∧ (after t).st = (if e.st = .o then .s else .i) ∧ (e.st = .o → sharersOf t (after t) = listed0)) ∧
      (e.owner ≠ some core → after t = e)
    let forward : MKind := match if acq then outsideRel e core else none with
      | some r => .fwdPub r.2.1 core
      | none => .fwdS core
    (AtHead s line core (.getS acq stream) →
      let m : Msg := ⟨line, core, .getS acq stream⟩
      (e.st = .i → ∃ t, exec (.getS line core acq stream) s = .next t ∧ HomeServed s t line m [(core, .data .e)] ∧ owns t) ∧
      (e.st = .s → ∃ t, exec (.getS line core acq stream) s = .next t ∧ HomeServed s t line m [(core, .data .s)] ∧ (after t).st = .s ∧ shared t) ∧
      (∀ o, e.owner = some o → e.st = .em ∨ e.st = .o →
        ∃ t, exec (.getS line core acq stream) s = .next t ∧ HomeServed s t line m [(o, if e.st = .em then forward else .fwdS core)] ∧
          (e.st = .em → waits t 1 [] (some o)) ∧ (e.st = .o → (after t).st = .o ∧ (after t).owner = some o ∧ shared t))) ∧
    (AtHead s line core .getM → exclusive ⟨line, core, .getM⟩ (exec (.getM line core) s)) ∧
    (AtHead s line core .upg →
      let others := sh.filter fun c => c != core && some c != e.owner
      let owner := e.owner.filter (· != core)
      let inv := if e.coarse then others else others ++ owner.toList
      let fwd := if e.coarse then owner else none
      (listed e core = true → ∃ t, exec (.upg line core) s = .next t ∧
        HomeServed s t line ⟨line, core, .upg⟩ (if inv = [] ∧ fwd = none then [(core, .upgAck)] else (inv.map fun k => (k, .inv)) ++ fwd.toList.map fun k => (k, .recall)) ∧
        (inv = [] → fwd = none → owns t) ∧ (inv ≠ [] ∨ fwd ≠ none → waits t 3 inv fwd)) ∧
      (listed e core = false → exclusive ⟨line, core, .upg⟩ (exec (.upg line core) s))) ∧
    put .putM (exec (.putM line core) s) ∧ put .putO (exec (.putO line core) s) ∧ put .putE (exec (.putE line core) s) ∧
    ∀ ctx gh id dests cells po, AtHead s line core (.push stream ctx gh id dests cells po) →
      let m : Msg := ⟨line, core, .push stream ctx gh id dests cells po⟩
      (e.st = .i → (∀ d ∈ dests, coreExists s.part d = true) → (cells.map Prod.fst).Nodup →
        ∃ t, exec (.push line core stream) s = .next t ∧
          t.net = eraseMsg m s.net ++ (if dests = [] then [⟨line, core, .pushDone stream gh id⟩] else dests.map fun d => ⟨line, d, .fill ctx⟩) ∧
          (∀ c ∈ cells, isPeer c.1 = false → t.rdByte c.1 = c.2) ∧ SameMemBut s t (fun a => ∃ c ∈ cells, c.1 = a) ∧
          (dests = [] → (after t).st = .i ∧ (after t).busy = none) ∧
          (dests ≠ [] → ∃ b, (after t).busy = some b ∧ b.req = 7 ∧ b.core = core ∧ b.gh = gh ∧ b.id = id ∧ b.fills = dests)) ∧
      (e.st ≠ .i →
        let inv := listed0.filter fun c => some c != e.owner
        inv ≠ [] ∨ e.owner.isSome = true →
        ∃ t, exec (.push line core stream) s = .next t ∧ t = { s with net := t.net, dir := t.dir, tags := t.tags } ∧
          t.net = s.net ++ (inv.map fun k => ⟨line, k, .inv⟩) ++ (e.owner.map fun o => ⟨line, o, .recall⟩).toList ∧
          ∃ b, after t = { e with busy := some b } ∧ b.req = 7 ∧ b.core = core ∧ b.gh = gh ∧ b.id = id ∧ b.acks = inv ∧ b.fwd = e.owner)

/-- R302, R304, R309 and R314: the answers that a BUSY entry waits for. Each one is struck off; the last one ends BUSY: a waiting GetM or Upg is
granted, a forwarded line's entry takes the owner's report, a push is reported done with its installers as sharers, a sweep leaves an empty entry
that is poisoned where more than one copy was dirty, and only then counts as an uncorrectable error. Choices of the model that it rests on: log entry 53. -/
def Obligations.HomeAnswers : Prop :=
  ∀ (s : State) (line core : Nat) (b : Busy) (dirty : Bool) (supply : Option (Nat × L1St)),
    let e := s.dirE line
    let after (t : State) : DirEnt := t.dirE line
    let others : Prop := b.fills = [] ∧ b.sweep = []
    let d := homeDie (128 * line)
    e.busy = some b →
    (Arrives s line core (· == .invAck) .invAck → core ∈ b.acks →
      let m : Msg := ⟨line, core, .invAck⟩
      let rest := b.acks.filter (· != core)
      (rest ≠ [] ∨ b.fwd ≠ none → ∃ t, exec (.invAck line core) s = .next t ∧ HomeServed s t line m [] ∧ after t = { e with busy := some { b with acks := rest } }) ∧
      (rest = [] → b.fwd = none → others →
        (b.req = 2 → b.dirty = 0 → ∃ t, exec (.invAck line core) s = .next t ∧ HomeServed s t line m [(b.core, .data .m)] ∧
          (after t).st = .em ∧ (after t).owner = some b.core ∧ (after t).busy = none) ∧
        (b.req = 3 → ∃ t, exec (.invAck line core) s = .next t ∧ HomeServed s t line m [(b.core, .upgAck)] ∧
          (after t).st = .em ∧ (after t).owner = some b.core ∧ (after t).busy = none) ∧
        (b.req = 10 → ∃ t, exec (.invAck line core) s = .next t ∧ HomeServed s t line m [] ∧ (after t).st = .i ∧ (after t).owner = none ∧ (after t).busy = none))) ∧
    (Arrives s line core isNotice (.notice dirty supply) → b.fwd = some core → b.req = 1 → suppliesM supply = false → b.acks = [] → others → e.sharers = [] → e.coarse = false →
      core ≠ b.core →
      ∃ t, exec (.ownerNotice line core) s = .next t ∧
        HomeServed s t line ⟨line, core, .notice dirty supply⟩ (supply.map fun x => (x.1, .data x.2)).toList ∧ (after t).busy = none ∧
        (after t).st = (if dirty then .o else .s) ∧ (after t).owner = (if dirty then e.owner else none) ∧
        (after t).sharers = if dirty then [b.core] else [core, b.core]) ∧
    (Arrives s line core isRecallData (.recallData dirty) → b.acks = [] → b.fills = [] →
      let m : Msg := ⟨line, core, .recallData dirty⟩
      (b.fwd = some core → b.req = 10 → b.sweep = [] →
        ∃ t, exec (.recallData line core) s = .next t ∧ HomeServed s t line m [] ∧ (after t).st = .i ∧ (after t).owner = none ∧ (after t).busy = none) ∧
      (b.req = 8 → b.fwd = none → b.sweep = [core] → b.next ≠ .s →
        let n := b.dirty + if dirty then 1 else 0
        ∃ t, exec (.recallData line core) s = .next t ∧ t.net = eraseMsg m s.net ∧
          after t = { DirEnt.init with psn := e.psn || decide (2 ≤ n), lost := e.lost } ∧
          (e.psn = true ∨ 2 ≤ n → (∀ k, k < 8 → mget false t.poison (8 * line + k) = true) ∧
            fld (t.reg (rERRSTAT d)) 31 16 = min (fld (s.reg (rERRSTAT d)) 31 16 + 1) 0xFFFF) ∧
          (isHost (128 * line) = false → (e.psn = false → n < 2 → t.poison = s.poison ∧ t.regs = s.regs ∧ t.outbox = s.outbox ++ if n = 0 then [.corrected line] else []) ∧
            t = { s with net := t.net, tags := t.tags, dir := t.dir, poison := t.poison, outbox := t.outbox, regs := t.regs }))) ∧
    (b.req = 7 → b.dirty = 1 → core ∈ b.fills → b.acks = [] → b.fwd = none → b.sweep = [] →
      let rest := b.fills.filter (· != core)
      let ends (k : MKind) (got : List Nat) (o : Out) : Prop := Arrives s line core (· == k) k →
        ∃ t, o = .next t ∧ HomeServed s t line ⟨line, core, k⟩ (if rest = [] then [(b.core, .pushDone b.stream b.gh b.id)] else []) ∧
          (rest ≠ [] → after t = { e with busy := some { b with fills := rest, got := got } }) ∧
          (rest = [] → (after t).busy = none ∧ (after t).owner = none ∧ (after t).st = (if got = [] then .i else .s) ∧
            (got.length ≤ 4 → got.Nodup → (after t).sharers = got))
      ends .install (b.got ++ [core]) (exec (.install line core) s) ∧ ends .refuse b.got (exec (.refuse line core) s))

/-- R298, R301, R305 to R307 and R309: what an L1 does with each message by the state of its line. A state in which R301 marks the message as an
error starts the recovery of the line. A FwdPub publishes what the owner's agents have left unpublished on its stream. A line whose store is about
to perform leaves after it. Data takes a way of the set, from a victim where all are held. A Fill is installed in S at normal priority where the quota, the set, the data array and residence allow it;
otherwise it is refused and counted. A data array enters retention, and leaves it for a message that needs a dirty line.
Choices of the model that it rests on: log entry 53. -/
def Obligations.L1Messages : Prop :=
  ∀ (s : State) (line core tgt stream ctx : Nat) (g old new : L1St) (d : Option Bool),
    let st := l1State (s.core core) line
    let takes (k : MKind) (p : MKind → Bool) (o : Out) (out : List (Nat × MKind)) : Prop :=
      Arrives s line core p k → st = old → ∃ t, o = .next t ∧ L1Took s t line core ⟨line, core, k⟩ new out ∧ match k with
        | .fwdPub _ _ => ∀ n r, r ∈ (t.dirE n).nrels ↔ r ∈ (s.dirE n).nrels ∧
            ¬ ((s.dirE n).owner = some core ∧ r.2.1 = stream ∧ ∃ q ∈ (s.dirE line).nrels, q.1 = r.1 ∧ q.2.1 = stream)
        | _ => t.dir = s.dir
    let errs (k : MKind) (p : MKind → Bool) (o : Out) : Prop := Arrives s line core p k → ∃ t, o = .next t ∧ sweeping t line = true
    let awake : Prop := (s.core core).ret = false
    let settled : Prop := storeDue s core line = false
    let dirty : Bool := [L1St.m, .o, .mia, .oia, .oma].contains old
    let full : Prop := 16 ≤ (l1Ways s core line).1.length + (l1Ways s core line).2
    let whole : Prop := ∀ x, l1Find (s.core core) line = some x → x.pois = []
    ((g, old, new) ∈ [(.s, .isd, .s), (.e, .isd, .e), (.m, .ima, .m), (.m, .sma, .m), (.m, .oma, .m)] →
      ((∀ x, l1Find (s.core core) line = some x → x.way = true) ∨ ¬ full → takes (.data g) isData (exec (.data line core) s) []) ∧
      ((∃ u, makeWay s core line = .free u) → Arrives s line core isData (.data g) → st = old →
        ∃ t, exec (.data line core) s = .next t ∧ l1State (t.core core) line = new ∧ ∀ x, l1Find (t.core core) line = some x → x.way = true)) ∧
    ((old, new) ∈ [(L1St.sma, L1St.m), (.oma, .m)] → takes .upgAck (· == .upgAck) (exec (.upgAck line core) s) []) ∧
    ((old, new) ∈ [(L1St.mia, L1St.i), (.oia, .i), (.eia, .i), (.iia, .i)] → takes .putAck (· == .putAck) (exec (.putAck line core) s) []) ∧
    ((old, new) ∈ [(L1St.i, L1St.i), (.s, .i), (.o, .i), (.isd, .isd), (.ima, .ima), (.sma, .ima), (.oma, .ima), (.oia, .iia), (.iia, .iia)] →
      takes .inv (· == .inv) (exec (.inv line core) s) [(core, .invAck)]) ∧
    ((old, new, d) ∈ [(L1St.e, L1St.s, some false), (.m, .o, some true), (.o, .o, none), (.oma, .oma, none), (.mia, .oia, some true), (.oia, .oia, none),
        (.eia, .iia, some false)] → awake → settled → whole → tgt ≠ 0x3FF →
      let out : List (Nat × MKind) := (tgt, .data .s) :: (d.map fun x => (core, .notice x none)).toList
      takes (.fwdS tgt) isFwdS (exec (.fwdS line core) s) out ∧ takes (.fwdPub stream tgt) (isFwdPub stream) (exec (.fwdPub line core stream) s) out) ∧
    ((old, new) ∈ [(L1St.e, L1St.i), (.o, .i), (.m, .i), (.oma, .ima), (.mia, .iia), (.oia, .iia), (.eia, .iia)] → awake → settled → whole →
      (tgt ≠ 0x3FF → takes (.fwdM tgt) isFwdM (exec (.fwdM line core) s) [(tgt, .data .m)]) ∧
      takes .recall (· == .recall) (exec (.recall line core) s) [(core, .recallData dirty)]) ∧
    ((old, new) ∈ [(L1St.m, L1St.i), (.o, .i), (.e, .i), (.s, .i), (.i, .i), (.mia, .iia), (.oia, .iia), (.eia, .iia), (.iia, .iia), (.oma, .ima),
        (.sma, .ima), (.ima, .ima), (.isd, .isd)] → awake → findMsg s line core isFill = none → takes .sweep (· == .sweep) (exec (.sweep line core) s) [(core, .recallData dirty)]) ∧
    (st ∈ [L1St.e, .m, .mia, .eia] → errs .inv (· == .inv) (exec (.inv line core) s)) ∧
    (st ∈ [L1St.i, .s, .isd, .iia] → errs (.fwdS tgt) isFwdS (exec (.fwdS line core) s) ∧ errs (.fwdM tgt) isFwdM (exec (.fwdM line core) s) ∧
      errs .recall (· == .recall) (exec (.recall line core) s)) ∧
    (Arrives s line core isFill (.fill ctx) → st = .i →
      let m : Msg := ⟨line, core, .fill ctx⟩
      let c := s.core core
      let free : Prop := ∃ u, makeWay s core line = .free u
      let set_ := (l1Ways s core line).1
      let refused (die k : Nat) (t : State) : Prop := t.net = eraseMsg m s.net ++ [⟨line, core, .refuse⟩] ∧ t.core core = c ∧
        fld (t.reg (rPUSHSTAT die ctx)) (16 * k + 15) (16 * k) = min (fld (s.reg (rPUSHSTAT die ctx)) (16 * k + 15) (16 * k) + 1) 0xFFFF
      (pquota s ctx ≤ untouched c ctx → ∃ t, exec (.fill line core) s = .next t ∧ refused (dieOf core) 0 t) ∧
      (untouched c ctx < pquota s ctx → full → (∀ x ∈ set_, x.st.stable = false ∨ x.line ∈ pinnedLines s core) →
        ∃ t, exec (.fill line core) s = .next t ∧ refused (dieOf core) 3 t) ∧
      (untouched c ctx < pquota s ctx → free →
        (c.ret = true → ∃ t, exec (.fill line core) s = .next t ∧ refused (dieOf core) 2 t) ∧
        (c.ret = false → residentOn s ctx core = false → ∃ t, exec (.fill line core) s = .next t ∧ refused (homeDie (128 * line)) 1 t) ∧
        (c.ret = false → residentOn s ctx core = true →
          ∃ t, exec (.fill line core) s = .next t ∧ l1Find (t.core core) line = some ⟨line, .s, 1, some ctx, [], true, none, []⟩ ∧
            (¬ full → L1Took s t line core m .s [(core, .install)])))) ∧
    (∀ gh id p, Arrives s line core (isPushDone stream) (.pushDone stream gh id) → p ∈ (s.grp gh).pushes → p.line = line → p.id = id →
      ∃ t, exec (.pushDone line core stream) s = .next t ∧ t = { s with net := t.net, tags := t.tags, groups := t.groups } ∧
        t.net = eraseMsg ⟨line, core, .pushDone stream gh id⟩ s.net ∧ (∀ i, i ≠ gh → t.grp i = s.grp i) ∧
        t.grp gh = { s.grp gh with pushes := (t.grp gh).pushes } ∧ (t.grp gh).pushes.length + 1 = (s.grp gh).pushes.length ∧
        ∀ q ∈ (s.grp gh).pushes, q.line ≠ line ∨ q.id ≠ id → q ∈ (t.grp gh).pushes) ∧
    (coreExists s.part core = true → (s.core core).ret = false →
      exec (.retentionEntry core) s = .next (s.setCore core { s.core core with ret := true })) ∧
    ((s.core core).ret = true → (∃ m ∈ s.net, m.core = core ∧ m.kind = .recall ∧ l1State (s.core core) m.line = .m) →
      exec (.retentionWake core) s = .next (s.setCore core { s.core core with ret := false }))

/-- R310 to R314 and R453: host memory at its home, and what is lost. A half that the host sends is present in the state that it came with, with the
host's bytes where it was absent. A host snoop on a half that no core has to give up answers at once with the bytes it asks for, poison marked, and
leaves the half as the kind of snoop says; one that must reach cores asks them first, an owner with a narrow release that it has not published by a
forward that publishes, and answers when their last answer is in. A directory error sweeps the
line through every core. A message that cannot be delivered over a link of its way poisons the entry, and the context that made the request is
lost; a reader that the home then serves receives poison. Choices of the model that it rests on: log entries 30, 53 and 54. -/
def Obligations.HostCoherence : Prop :=
  ∀ (s : State) (line half n dest tgt core kind : Nat) (dirty : Bool) (b : Busy),
    let e := s.dirE line
    let inv := (sharersOf s e).filter fun c => some c != e.owner
    let base := 128 * line + 64 * half
    let was := halfState e half
    let after (t : State) : Nat := halfState (t.dirE line) half
    let other (t : State) : Prop := halfState (t.dirE line) (1 - half) = halfState e (1 - half)
    let left (k : Nat) : Nat := if k = 0 then 1 else if k = 1 then 0 else was
    let sent (k : Nat) : OutMsg := .read (if was = 3 ∨ k = 2 then s.rdBytes base 64 else []) (if was = 3 ∨ k = 2 then s.poisUnits base 64 else [])
    let snoop (k : Nat) : Instr := if k = 0 then .snoopData line half else if k = 1 then .snoopInvalidate line half else .snoopCurrent line half
    let d := homeDie (128 * line)
    (isHost (128 * line) = true → half < 2 → 1 ≤ n → n ≤ 3 → (∃ m ∈ s.net, m.line = line ∧ ∃ x, m.kind = .half half x ∧ (x = true → 2 ≤ n)) →
      ∃ t, exec (.hostHalfData line half n) s = .next t ∧ t = { s with free := t.free, mem := t.mem, poison := t.poison, dir := t.dir, net := t.net, tags := t.tags, cores := t.cores } ∧
        (∀ k, t.core k = { s.core k with ro := (t.core k).ro }) ∧ after t = max n was ∧ other t ∧ (∀ m ∈ t.net, m.line = line → ∀ x, m.kind = .half half x → x = true ∧ n = 1) ∧
        SameMemBut s t (fun a => base ≤ a ∧ a < base + 64) ∧ (was = 0 → ∀ k, k < 64 → t.rdByte (base + k) = Config.hostByte s.free (base + k)) ∧
        (was ≠ 0 → SameMem s t)) ∧
    (isHost (128 * line) = true → half < 2 → was ≠ 0 → homeFree s line = true →
      (e.owner = none →
        (∀ k, k = 0 ∨ k = 2 → ∃ t, exec (snoop k) s = .next t ∧ t = { s with dir := t.dir, outbox := s.outbox ++ [sent k] } ∧ after t = left k ∧ other t) ∧
        (inv = [] → ∃ t, exec (.snoopInvalidate line half) s = .next t ∧ t = { s with dir := t.dir, groups := t.groups, outbox := s.outbox ++ [sent 1] } ∧
          after t = left 1 ∧ other t ∧ (t.dirE line).st = .i)) ∧
      (∀ k, k < 3 →
        let asks (out : List Msg) (acks : List Nat) : Prop := ∃ t x, exec (snoop k) s = .next t ∧ t = { s with dir := t.dir, net := s.net ++ out } ∧
          t.dirE line = { e with busy := some x } ∧ x.req = 9 ∧ x.dirty = half + 2 * k ∧ x.acks = acks ∧ x.fwd = e.owner
        (outsideRel e 0x3FF = none → k = 1 ∧ inv ≠ [] ∨ e.owner ≠ none →
          asks ((if k = 1 then inv.map fun c => ⟨line, c, .inv⟩ else []) ++ (e.owner.map fun o => ⟨line, o, .recall⟩).toList) (if k = 1 then inv else [])) ∧
        ∀ o r, e.owner = some o → outsideRel e 0x3FF = some r → asks [⟨line, o, .fwdPub r.2.1 0x3FF⟩] [])) ∧
    (e.busy = some b → b.req = 9 → half < 2 → kind < 3 → b.dirty = half + 2 * kind → b.fwd = some core → b.acks = [] → b.fills = [] → b.sweep = [] →
      Arrives s line core isRecallData (.recallData dirty) →
      ∃ t, exec (.recallData line core) s = .next t ∧ after t = left kind ∧ other t ∧ t.outbox = s.outbox ++ [sent kind] ∧ (t.dirE line).busy = none ∧
        (kind = 1 → b.next = .i → (t.dirE line).st = .i)) ∧
    (sweeping s line = false →
      ∃ t, exec (.directoryError line) s = .next t ∧ sweeping t line = true ∧ (∀ k, coreExists s.part k = true → ⟨line, k, .sweep⟩ ∈ t.net) ∧
        fld (t.reg (rERRSTAT d)) 63 16 = fld (s.reg (rERRSTAT d)) 63 16 ∧ fld (t.reg (rERRSTAT d)) 7 0 = 6 ∧ SameMem s t) ∧
    (n ∈ linkStops line dest → (∃ k, findMsg s line dest isFanOut = some ⟨line, dest, k⟩) → ∃ t, exec (.linkLost line dest n) s = .next t ∧ (t.dirE line).psn = true) ∧
    (n ∈ linkStops line dest → findMsg s line dest isFanOut = some ⟨line, dest, .fwdS tgt⟩ → e.busy = none → tgt ≠ 0x3FF →
      let hit : Option Nat := match lineWaiter s tgt line with
        | some w => some (s.team (s.grp w.1).team).ctx
        | none => (l1Find (s.core tgt) line).bind (·.ctx)
      ∃ t, exec (.linkLost line dest n) s = .next t ∧
        t.net = List.filter (fun (m : Msg) => hit.all fun c => !isPushOf c m.kind) (eraseMsg ⟨line, dest, .fwdS tgt⟩ s.net ++ [⟨line, tgt, .data .s⟩]) ∧
        (t.dirE line).sharers = e.sharers.filter (· != dest) ∧ tgt ∈ (t.dirE line).taint ∧ ∀ c, hit = some c → ∀ e ∈ t.teams, e.2.ctx ≠ c)

/-- R428 to R431, R322 and R451: translation. A completion fills the caches of every core that asked; one without access marks the page unmapped,
and after four misses in a row denies it; one into the device's registers fills nothing. A page request goes out within the allocation, with the
context's PASID; its answer
lets the accesses translate again or denies them; after a Response Failure nothing more is asked for the PASID. An invalidation drops exactly the
entries of its context that meet the range, and completes once nothing that used one is on its way. A logged store whose page has come performs.
Choices of the model that it rests on: log entries 29, 37, 55 and 75. -/
def Obligations.Translation : Prop :=
  ∀ (s : State) (ctx core idx page pasid lo size loc : Nat) (r : PReq) (rest : List PReq) (m : PageMap) (i : Inval) (irest : List Inval) (e : SEnt) (x : L1Line),
    let va := page * 4096
    let asked := s.io.atsWait.filter fun r => r.ctx == ctx && r.page == page
    (s.io.priWait = r :: rest → s.io.priSent.length < s.io.oprAlloc → s.io.linkDown = false →
      exec .priPageRequest s = .next { s with outbox := s.outbox ++ [.pri (pasidOf s r.ctx) r.page r.write], io := { s.io with priWait := rest, priSent := s.io.priSent ++ [r] } }) ∧
    (s.io.priSent.find? (fun r => r.ctx == ctx && r.page == page) = some r → (s.ctx ctx).unmap.any (fun u => u.1 == page) = true →
      let after (a : PriAnswer) (p : State → Prop) : Prop := ∃ t, exec (.priResponse ctx page a) s = .next t ∧ p t ∧ t = { s with ctxs := t.ctxs, io := t.io } ∧
        t.io = { s.io with priSent := eraseOne r s.io.priSent, priWait := if a = .failure then s.io.priWait.filter (·.ctx != ctx) else s.io.priWait } ∧
        ∀ k, k ≠ ctx → t.ctx k = s.ctx k
      (r.core = deadReq → ∀ a, exec (.priResponse ctx page a) s = .next { s with io := { s.io with priSent := eraseOne r s.io.priSent } }) ∧
      (r.core ≠ deadReq →
      after .success (fun t => (t.ctx ctx).unmap.any (fun u => u.1 == page) = false) ∧ after .invalid (fun t => denied t ctx va = some 0) ∧
      after .failure (fun t => denied t ctx va = some 1 ∧ (t.ctx ctx).priOff = true))) ∧
    (asked ≠ [] → m.log2 ∈ [12, 16, 21, 30] → m.va = va / 2 ^ m.log2 * 2 ^ m.log2 → m.pa % 2 ^ m.log2 = 0 →
      (m.r = false → m.w = false → ∃ t, exec (.atsCompletion ctx page m) s = .next t ∧ t = { s with ctxs := t.ctxs, io := t.io } ∧
        (t.ctx ctx).unmap.any (fun u => u.1 == page) = true ∧ (∀ q ∈ t.io.atsWait, q.ctx ≠ ctx ∨ q.page ≠ page) ∧
        (mget 0 (s.ctx ctx).misses page = 4 → denied t ctx va = some 2)) ∧
      (m.r = true ∨ m.w = true → busLoc s (m.pa + va % 2 ^ m.log2) = none →
        ∃ t, exec (.atsCompletion ctx page m) s = .next t ∧ t = { s with ctxs := t.ctxs, io := t.io } ∧ (t.ctx ctx).regsp.contains page = true) ∧
      (m.r = true ∨ m.w = true → (busLoc s (m.pa + va % 2 ^ m.log2)).isSome = true →
        ∃ t, exec (.atsCompletion ctx page m) s = .next t ∧ t = { s with ctxs := t.ctxs, io := t.io, cores := t.cores, dies := t.dies, free := t.free } ∧
          (∀ q ∈ t.io.atsWait, q.ctx ≠ ctx ∨ q.page ≠ page) ∧ mget 0 (t.ctx ctx).misses page = 0 ∧
          ∀ q ∈ asked, xEntry t ctx q.core va = some ⟨ctx, m, entryTag s m⟩)) ∧
    (pasidSlot s pasid = some ctx → ∃ t, exec (.atsInvalidationRequest pasid lo size) s = .next t ∧
      t = { s with ctxs := t.ctxs, io := { s.io with inval := s.io.inval ++ [⟨pasid, lo, size⟩] }, cores := t.cores, dies := t.dies } ∧
      (∀ k, t.core k = { s.core k with tlb := (s.core k).tlb.filter fun x => !(x.ctx == ctx && x.meets lo size) }) ∧
      ∀ d, t.die d = { s.die d with tlb := (s.die d).tlb.filter fun x => !(x.ctx == ctx && x.meets lo size) }) ∧
    (pasidSlot s pasid = none → exec (.atsInvalidationRequest pasid lo size) s =
      .next { s with io := { s.io with inval := s.io.inval ++ [⟨pasid, lo, size⟩] } }) ∧
    (s.io.inval = i :: irest → (∀ c, pasidSlot s i.pasid = some c → wayOut s c = false) → (∀ p ∈ s.io.peerOut, p.pasid ≠ i.pasid) → s.io.linkDown = false →
      exec .invalidationCompletion s = .next { s with outbox := s.outbox ++ [.invDone i.pasid i.lo i.size], io := { s.io with inval := irest } }) ∧
    (replayable (s.core core) idx = some e →
      let c := (s.team (s.grp e.gh).team).ctx
      let at_ (b : Host.Cell) : Nat := loc + (b.1 - e.va)
      let tries := tryCount s c core e.who (pageOf e.va)
      (xlate s c core e.va true = .miss → Sys2Proof.Machine.asked s c core e.va = true → exec (.sideLogReplay core idx) s = .next s) ∧
      (xlate s c core e.va true = .miss → Sys2Proof.Machine.asked s c core e.va = false → s.io.linkDown = false →
        (tries < 4 → ∃ t, exec (.sideLogReplay core idx) s = .next t ∧ SameMem s t ∧ t = { s with outbox := s.outbox ++ [.ats (pasidOf s c) (pageOf e.va)], cores := t.cores, io := t.io } ∧
          t.io = { s.io with atsWait := s.io.atsWait ++ [⟨c, core, pageOf e.va, true⟩] } ∧ (∀ k, t.core k = { s.core k with tries := (t.core k).tries }) ∧
          tryCount t c core e.who (pageOf e.va) = if tries = 0 then 0 else tries + 1) ∧
        (4 ≤ tries → exec (.sideLogReplay core idx) s = .next (fatalGroup s e.gh TRANSLATION_DENIED 2 e.va))) ∧
      (xlate s c core e.va true = .hit loc → e.op = .store → e.pois = [] → isDev loc = true → (∀ b ∈ e.bytes, e.va ≤ b.1 ∧ isDev (at_ b) = true) →
        (e.bytes.map Prod.fst).Nodup → lineLocked s (lineOf loc) none = false → pushPending s core (lineOf loc) = false →
        l1Find (s.core core) (lineOf loc) = some x → x.st = .e ∨ x.st = .m →
        ∃ t, exec (.sideLogReplay core idx) s = .next t ∧ (t.core core).slog = dropAt (s.core core).slog idx ∧ (∀ b ∈ e.bytes, t.rdByte (at_ b) = b.2) ∧
          SameMemBut s t (fun a => ∃ b ∈ e.bytes, at_ b = a) ∧
          t = { s with mem := t.mem, enc := t.enc, poison := t.poison, cores := t.cores, groups := t.groups, dir := t.dir }))

/-- R424 to R426, R432 to R434 and R438 to R440: contexts begin and end. A write of CTXCFG that sets VALID creates the context with STATE 0 and a new
key pair where the slot, the PASID and the dies are free, and is ignored elsewhere; clearing VALID ends its work, its translations and its key; its
pushes that have not been performed go, and their Fills install in no later context. A block takes its owner's tag, and no byte of another block reads
otherwise than before. An alarm ends every context and its key; the fused policy says what becomes of the system's key.
Choices of the model that it rests on: log entries 3 and 55. -/
def Obligations.ContextLife : Prop :=
  ∀ (s : State) (ctx die idx b cause : Nat) (val : BitVec 64) (tag : BitVec 8),
    let v : Word64 := (val &&& 0x807C0000000FFFFF) ||| (1#64 <<< 63)
    let dies := (List.range (2 ^ fld v 51 50)).map (fld v 54 52 + ·)
    let foreign (c a : Nat) : Prop := isPeer a = false ∧ ∀ e ∈ s.keytag, ¬ (e.1 = blockOf a ∧ e.2 = c)
    let free : Prop := ctx < 64 ∧ deviceReady s = true ∧ ctxValid s ctx = false ∧ fld v 54 52 % 2 ^ fld v 51 50 = 0 ∧
      (∀ c, c < 64 → ctxValid s c = true → fld (s.reg (rCTXCFG c)) 19 0 ≠ fld v 19 0) ∧
      ∀ c, c < 64 → ctxResident s c = true → ∀ d ∈ ctxDies s c, d ∉ dies
    (free → ∃ t, exec (.ctxcfgValidSet ctx val) s = .next t ∧ t = { s with free := t.free, keys := t.keys, regs := t.regs, ctxs := t.ctxs } ∧
      ctxValid t ctx = true ∧ ctxState t ctx = 0 ∧ t.reg (rCTXCFG ctx) = v ∧ (t.ctx ctx).gn = 0 ∧ (t.ctx ctx).defers = [] ∧ (t.ctx ctx).saves = [] ∧
      mget none t.keys ctx = some ⟨Config.freeKey s.free, Config.freeKey (s.free + 1)⟩ ∧ (∀ k, k ≠ ctx → mget none t.keys k = mget none s.keys k) ∧ (∀ k, k ≠ ctx → t.ctx k = s.ctx k) ∧ ∀ a, foreign ctx a → t.rdByte a = s.rdByte a) ∧
    (¬ free → exec (.ctxcfgValidSet ctx val) s = .next s) ∧
    (ctx < 64 → ctxValid s ctx = true → ∃ t, exec (.ctxcfgValidClear ctx) s = .next t ∧ ctxValid t ctx = false ∧ (∀ e ∈ t.teams, e.2.ctx ≠ ctx) ∧
      (∀ k, ∀ x ∈ (t.core k).tlb, x.ctx ≠ ctx) ∧ (∀ d, ∀ x ∈ (t.die d).tlb, x.ctx ≠ ctx) ∧ (∀ k, k ≠ ctx → t.ctx k = s.ctx k) ∧
      (∀ a, foreign ctx a → t.rdByte a = s.rdByte a) ∧ t.outbox = s.outbox ∧ t.keytag = s.keytag ∧ mget none t.keys ctx = none ∧
      t.net = ((s.net.filter fun m => !isPushOf ctx m.kind).map fun m => if m.kind = .fill ctx then { m with kind := .fill 64 } else m) ∧
      ∀ n, t.dirE n = { s.dirE n with busy := (s.dirE n).busy.map fun b => { b with ctx := b.ctx.filter (· != ctx) } }) ∧
    (die < 8 → idx < 65536 → kthBlock die (2 ^ 19) 0 idx = some b → blockBusy s b = false → hostUp s = true →
      ∃ t, exec (.keytagWrite die idx tag) s = .next t ∧ t = { s with cores := t.cores, dies := t.dies, keytag := t.keytag } ∧
        keyTag t b = (if 65 ≤ tag.toNat % 128 then 127 else tag.toNat % 128) ∧ (∀ k, k ≠ b → keyTag t k = keyTag s k) ∧
        SameMemBut s t fun a => isDev a = true ∧ blockOf a = b) ∧
    (s.io.linkDown = false → s.io.powered = true → exec (.secstatClear val) s =
      .next (s.setReg rSECSTAT (s.reg rSECSTAT &&& ~~~(val &&& if 2 ≤ Config.alarmPolicy.toNat then 0xE else 0xF)))) ∧
    (1 ≤ cause → cause ≤ 3 → s.io.powered = true → ∃ t, exec (.securityAlarm cause) s = .next t ∧
      fld (t.reg rSECSTAT) 0 0 = 1 ∧ fld (t.reg rSECSTAT) cause cause = 1 ∧
      fld (t.reg rSECSTAT) 63 32 = min (fld (s.reg rSECSTAT) 63 32 + 1) 0xFFFFFFFF ∧
      (fld (s.reg rSECSTAT) 0 0 = 1 → t = { s with regs := t.regs }) ∧
      (fld (s.reg rSECSTAT) 0 0 = 0 → (∀ c, c < 64 → ctxValid t c = false) ∧ (1 ≤ Config.alarmPolicy.toNat → mget none t.keys 64 = none) ∧
        ∀ c, c < 64 → ctxValid s c = true → mget none t.keys c = none ∧ ∀ e ∈ t.teams, e.2.ctx ≠ c))

/-- R349, R408, R409, R411 to R420: pre-emption, saves, resumes and moves. A group of a pre-empted team that does not reach a hinge is stopped, and
the open transactions of its team abort with CCOUNT unchanged. A pre-empted team is saved with its scratchpad as it stands and, stopped, with its
registers; at its hinges, with the values that their maps name. The scheduler pre-empts a team where saved work comes first and no core can take it.
A resume puts the team back on a core with the record's groups, each value in the register that the map of the core's encoding names. A migration
first reserves its target, or declines with 0 where no core can take the team; then it places each value of the hinge's map in the register that the
other encoding names for it, and the group goes on behind its mig with 1. A context's header, its records' heads and its STATE follow R417 to R419.
Choices of the model that it rests on: log entries 11, 48, 49 and 63. -/
def Obligations.SavesAndMoves : Prop :=
  (∀ (s : State) (gh : Nat),
    let g := s.grp gh
    let x := s.team g.team
    let live := liveHandles s g.team
    let open_ : Nat := (live.map fun h => (lanes32.filter fun l => (txOf (s.grp h) l).active).length).sum
    preempted s x = true → s.groups.any (fun e => e.1 == gh) = true → g.retired = false → g.stopped = false → x.moving = false → atHingeAll s g = false →
    x.size ≤ 32 →
    (open_ = 0 → ∃ t, exec (.preemptBudgetExpiry gh) s = .next t ∧ t = { s with groups := t.groups, cur := t.cur, ctxs := t.ctxs } ∧
      t.grp gh = { g with stopped := true, isNative := true } ∧ ∀ i, i ≠ gh → t.grp i = s.grp i) ∧
    ((∀ h ∈ live, (s.grp h).defer.length + (lanes32.filter fun l => (txOf (s.grp h) l).active).length ≤ 8) →
      ∃ t, exec (.preemptBudgetExpiry gh) s = .next t ∧ t = { s with groups := t.groups, cur := t.cur, ctxs := t.ctxs, cores := t.cores } ∧
        (t.grp gh).stopped = true ∧ (t.grp gh).isNative = true ∧ (∀ i, i ≠ gh → i ∉ live → t.grp i = s.grp i) ∧
        ∀ h ∈ live, (t.ctx x.ctx).token ≠ some h ∧ h ∉ (t.ctx x.ctx).tokenQ ∧ (t.grp h).s = (s.grp h).s ∧ (t.grp h).q = (s.grp h).q ∧
          ∀ l, l < 32 → (txOf (t.grp h) l).active = false ∧ (txOf (t.grp h) l).ccount = (txOf (s.grp h) l).ccount)) ∧
  (∀ (s : State) (tid : Nat) (l : Launch),
    let x := s.team tid
    let live := liveHandles s tid
    let who := whoTeam x
    x.gone = false → x.saved = false → x.moving = false → x.pair = none → teamLaunch s x = some l →
    (preempted s x = false → ctxState s x.ctx = 0 → makesRoom s x.ctx l = true → exec (.teamSave tid) s = .next (s.setTeam tid { x with preempt := true })) ∧
    (preempted s x = true → live ≠ [] → teamAsks s tid = none → teamStuck s tid = none → (∀ gh ∈ live, (s.grp gh).retired = false ∧ leaves s gh true = true) →
      let saved (nat : Bool) (p : State → Saved → Prop) : Prop := ∃ t sv, exec (.teamSave tid) s = .next t ∧ t.team tid = { x with saved := true, preempt := false } ∧
        (∀ e ∈ t.groups, e.1 / 32 ≠ tid) ∧ (t.ctx x.ctx).saves = (s.ctx x.ctx).saves ++ [sv] ∧ sv.tid = tid ∧ sv.isNative = nat ∧
        sv.groups.map Prod.fst = live ∧ (∀ o, x.off ≤ o → o < x.off + x.bytes → mget 0 sv.sp o = mget 0 (s.core x.core).sp o) ∧
        SameMemBut s t (traceSlot s (dieOf x.core)) ∧ p t sv
      ((∀ gh ∈ live, (s.grp gh).stopped = true ∧ (s.grp gh).isNative = true ∧ wordsHeld s (s.grp gh) = true) →
        saved true fun _ sv => ∀ e ∈ sv.groups, e.2 = { s.grp e.1 with stopped := false, isNative := false }) ∧
      ((if x.isL then l.hasL else l.hasD) = true → (∀ gh ∈ live, let g := s.grp gh
        g.team = tid ∧ g.stopped = false ∧ g.isNative = false ∧ g.frame = none ∧ g.defer = [] ∧ g.spills = 0 ∧ g.pend = [] ∧
        ∃ p r es w, g.splits = [p] ∧ stoppedSplit (inMask x.migarr g.idx) p = true ∧ wordAt s x.ctx x.core who l x.isL p.pc = .inl w ∧
          hingeAt s x l p.pc = .row r ∧ (∀ n, hingeId w = some n → n = r.id) ∧ readMap s x.ctx x.core who l r g.allot = .ok es) →
        saved false fun _ sv => ∀ gh ∈ live, ∀ p r es, (s.grp gh).splits = [p] → hingeAt s x l p.pc = .row r →
          readMap s x.ctx x.core who l r (s.grp gh).allot = .ok es →
          ∃ g' vs, ((gh, g'), vs) ∈ sv.groups.zip sv.vals ∧ g'.v = [] ∧ g'.status = (s.grp gh).status ∧ g'.j = (s.grp gh).j ∧
            (∃ q, g'.splits = [q] ∧ q.mask = p.mask ∧ q.hinge = r.id) ∧
            (∀ e ∈ es, e.cls = 0 → ∃ y ∈ vs, y.num = e.num ∧ ∀ n, n < 32 → nthD 0 y.vals n = (s.grp gh).velem (e.reg x.isL) n) ∧
            ∀ e ∈ es, e.cls = 2 → ∃ y ∈ vs, y.num = e.num ∧ nthD 0 y.vals 0 = (s.grp gh).sreg (e.reg x.isL)))) ∧
  (∀ (s : State) (c idx core : Nat) (sv : Saved) (l : Launch) (ps : List Nat),
    (sv.isNative = true → planPlaces s l [(sv, core, ps)] = .ok [(sv, core, sv.groups.map fun e => (e.1, nativeGroup (nthD 0 ps e.2.idx) e.2))]) ∧
    (∀ gs, (s.ctx c).saves[idx]? = some sv → sv.team.ctx = c → sv.pois = none → sv.waits = [] → teamLaunch s sv.team = some l →
      (s.ctx c).saving = false → ctxState s c = 0 → ctxValid s c = true → comesLater s c sv = false → resumePlaces s c l sv = some [(sv, core, ps)] →
      planPlaces s l [(sv, core, ps)] = .ok [(sv, core, gs)] → (∀ e ∈ s.teams, e.2.qarr = 0) → (∀ e ∈ s.cores, ∀ w ∈ e.2.waits, w.gh / 32 ≠ sv.tid) →
      (∀ e ∈ s.groups, ∀ p ∈ e.2.splits, ∀ n h k, p.hold ≠ .groom n h k) →
      (gs.map Prod.fst).Nodup → (∀ e ∈ gs, e.2.tx = [] ∧ ∀ p ∈ e.2.splits, p.hold = .none) → mwf 0 sv.sp = true →
      (∀ e ∈ sv.sp, sv.team.off ≤ e.1 ∧ e.1 < sv.team.off + sv.team.bytes) →
      ∃ t, exec (.teamResume c idx) s = .next t ∧
        t.team sv.tid = { s.team sv.tid with core := core, isL := coreIsL core, saved := false, qarr := 0, qmask := 0, migarr := 0 } ∧
        (∀ e ∈ gs, SameRegs e.2 (t.grp e.1) ∧ (t.grp e.1).splits = e.2.splits ∧ (t.grp e.1).done = e.2.done ∧ (t.grp e.1).exited = e.2.exited) ∧
        (∀ o, sv.team.off ≤ o → o < sv.team.off + sv.team.bytes → mget 0 (t.core core).sp o = mget 0 sv.sp o) ∧
        (t.ctx c).saves = (s.ctx c).saves.filter (fun v => v.tid != sv.tid) ∧ SameMemBut s t (traceSlot s (dieOf core))) ∧
    ∀ (gh part : Nat) (g g' : Group) (vs : List PVal) (p : Split) (r : HRow) (es : List MapEnt), sv.isNative = false → g.splits = [p] →
      (if coreIsL core then l.hasL else l.hasD) = true → findRow s sv.team.ctx core (whoTeam sv.team) (fun r => r.id == p.hinge) l.htab l.hcount = .row r →
      readMap s sv.team.ctx core (whoTeam sv.team) l r g.allot = .ok es → resumeGroups s sv l core [((gh, g), vs, part)] = .ok [(gh, g')] →
        (∀ e ∈ es, e.cls = 0 → ∀ y ∈ vs, y.num = e.num → ∀ n, n < 32 → g'.velem (e.reg (coreIsL core)) n = nthD 0 y.vals n) ∧
        (∀ e ∈ es, e.cls = 2 → ∀ y ∈ vs, y.num = e.num → g'.sreg (e.reg (coreIsL core)) = nthD 0 y.vals 0) ∧
        ∃ q, g'.splits = [q] ∧ q.pc = (rowPc r (coreIsL core)).1 ∧ q.mask = p.mask ∧ q.hinge = r.id) ∧
  (∀ (s : State) (tid core : Nat) (l : Launch) (ps : List Nat) (gs : List (Nat × Group)), let x := s.team tid
    x.moving = true → x.gone = false → x.saved = false → teamLaunch s x = some l →
    (x.target = none → migTarget s l x = none → ∃ t, exec (.teamMigration tid) s = .next t ∧ t.team tid = { x with moving := false, migarr := 0 } ∧
      SameMemBut s t (traceSlot s (dieOf x.core)) ∧
      ∀ i p d k, i < x.size → (s.grp (handle tid i)).splits = [p] → p.hold = .mig d k →
        (t.grp (handle tid i)).sreg d = 0 ∧ ∃ q, (t.grp (handle tid i)).splits = [q] ∧ q.pc = p.pc + 4 ∧ q.hold = .none) ∧
    (x.target = none → migTarget s l x = some core →
      exec (.teamMigration tid) s = .next (s.setTeam tid { x with target := some (core, (canTake s l (l.row x.entry) core x.off).getD []) })) ∧
    (x.target = some (core, ps) → teamQuiet s tid = true → mwf 0 (s.core x.core).sp = true →
      moveGroups s x l core (((List.range x.size).filter fun i => s.groups.any fun e => e.1 == handle tid i).map fun i =>
        (handle tid i, nthD 0 ps i)) [] = .inr gs →
      ∃ t, exec (.teamMigration tid) s = .next t ∧
        t.team tid = { x with core := core, isL := coreIsL core, moving := false, target := none, migarr := 0 } ∧
        (∀ e ∈ gs, (t.grp e.1).v = e.2.v ∧ (t.grp e.1).s = e.2.s ∧ (t.grp e.1).q = e.2.q ∧ (t.grp e.1).splits = e.2.splits) ∧
        (∀ o, x.off ≤ o → o < x.off + x.bytes → mget 0 (t.core core).sp o = mget 0 (s.core x.core).sp o) ∧ SameMemBut s t (traceSlot s (dieOf core)))) ∧
  (∀ (s : State) (x : Team) (l : Launch) (core part d : Nat) (g g' : Group) (p : Split) (r : HRow) (es : List MapEnt) (k : Bool),
    let tgt := coreIsL core
    l.hasL = true → l.hasD = true → g.splits = [p] → hingeAt s x l p.pc = .row r →
    readMap s x.ctx x.core (whoTeam x) l r g.allot = .ok es → wordAt s x.ctx x.core (whoTeam x) l tgt (rowPc r tgt).1 = .inl (some (.mig d k)) → moveGroup s x l core part g = .ok g' →
      (∀ e ∈ es, e.cls = 0 → ∀ n, n < 32 → g'.velem (e.reg tgt) n = g.velem (e.reg x.isL) n) ∧
      (∀ e ∈ es, e.cls = 2 → e.reg tgt ≠ d → g'.sreg (e.reg tgt) = g.sreg (e.reg x.isL)) ∧
      (∀ e ∈ es, e.cls = 3 → ∀ n, n < 32 → g'.qelem (e.reg tgt) n = g.qelem (e.reg x.isL) n) ∧ (0 < d → g'.sreg d = 1) ∧
      ∃ q, g'.splits = [q] ∧ q.pc = (rowPc r tgt).1 + 4 ∧ q.lpc = (rowPc r tgt).2 ∧ q.mask = p.mask ∧ q.hold = .none ∧ q.hinge = r.id) ∧
  ∀ (s : State) (c : Nat), ctxValid s c = true → c < 64 →
    let a := saveBase s c
    let vs := (s.ctx c).saves
    (ctxState s c = 0 → exec (.contextSave c) s =
      .next ((s.setReg (rCTXCTL c) (setFld (s.reg (rCTXCTL c)) 5 4 1)).setCtx c { s.ctx c with saving := true })) ∧
    (ctxState s c = 2 → exec (.contextSave c) s = .next s) ∧
    (ctxState s c = 1 → (∀ e ∈ s.groups, (s.team e.2.team).ctx ≠ c) → noSteal s c = true → graceDue s c = false →
      (∀ k ∈ ctxCores s c, (s.core k).flying = []) → (∀ p ∈ s.io.peerOut, p.ctx ≠ some c) →
      let u := spillAll (orphan s c) c
      let l := match running u c with | some r => r.2 | none => placeLaunch
      let n := 4096 + (recBytes u l vs).1.length
      let size (d : Nat) : Nat := fld (s.reg (rBACKING d c)) 63 56 * 2 ^ 21
      let region (x : Nat) : Prop := ∃ d ∈ ctxDies s c, hasRegion s c d = true ∧ backBase s d c ≤ x ∧ x < backBase s d c + size d
      rangeOk s c a n = true → (∀ d ∈ ctxDies s c, hasRegion s c d = true → regionOk s d c = true ∧ (dieBatches u c d).length ≤ (size d - 2 ^ 20) / 2048) →
      (∀ x, region x → x < a ∨ a + n ≤ x) →
      ∃ t, exec (.contextSave c) s = .next t ∧ ctxState t c = 2 ∧ ctxValid t c = true ∧ (∀ e ∈ t.teams, e.2.ctx ≠ c) ∧ (t.ctx c).saving = false ∧
        (t.ctx c).saves = [] ∧ t.rdNat a 4 = 0x48585443 ∧ t.rdNat (a + 4) 4 = vs.length % 2 ^ 32 ∧ t.rdNat (a + 8) 8 = (s.ctx c).gn % 2 ^ 64 ∧
        t.rdNat (a + 16) 4 = 4096 ∧ (∀ k, k < 16 → t.rdNat (a + 137 + 128 * k) 1 = (slotOf s c k).state % 256) ∧
        (∀ v vs', vs = v :: vs' → t.rdNat (a + 4096) 4 = 0x4D525653 ∧ t.rdNat (a + 4100) 1 = (if v.isNative then 1 else 0) ∧
          t.rdNat (a + 4102) 1 = v.team.size % 2 ^ 8 ∧ t.rdNat (a + 4112) 8 = v.team.reg.toNat) ∧
        SameMemBut s t fun x => a ≤ x ∧ x < a + n ∨ region x) ∧
    (ctxState s c = 2 → (∀ e ∈ (s.ctx c).slots, e.2.state = 0) → othersHold s c = false →
      exec (.contextResume c) s = .next (s.setReg (rCTXCTL c) (setFld (s.reg (rCTXCTL c)) 5 4 3))) ∧
    ∀ rs ws, ctxState s c = 3 → rangeOk s c a 4096 = true → s.isPoison a 4096 = false → s.rdNat a 4 = 0x48585443 →
      areaRecs s c (s.rdNat (a + 4) 4) (a + s.rdNat (a + 16) 4) = .ok rs →
      allSome ((rs.zip ((List.range rs.length).map (freshKey s.teams + ·))).map fun x => recSaved s c 16 x.2 placeLaunch x.1) = some ws →
      (∀ d ∈ ctxDies s c, hasRegion s c d = true → regionOk s d c = true) → (∀ k, k < 16 → s.rdNat (a + 137 + 128 * k) 1 ≠ 2) →
      ∃ t, exec (.contextResume c) s = .next t ∧ ctxState t c = 0 ∧ (t.ctx c).gn = s.rdNat (a + 8) 8 ∧
        (t.ctx c).saves.map (fun v => (v.tid, v.groups, v.vals, v.sp)) = ws.map (fun v => (v.tid, v.groups, v.vals, v.sp)) ∧
        (ws = [] → (s.ctx c).defers = [] → (∀ d ∈ ctxDies s c, hasRegion s c d = false) → (t.ctx c).grace = false) ∧
        (∀ k, k < 16 → (slotOf t c k).state = s.rdNat (a + 137 + 128 * k) 1) ∧
        t = { s with seq := t.seq, regs := t.regs, ctxs := t.ctxs, teams := t.teams, cores := t.cores, dies := t.dies }

/-- R501, R503, R507 to R510, R435, R454 and R514: accesses from outside. A host or peer access to lines that nobody holds is performed at their
homes, and data read carries its poison marks; a peer access that no window admits is refused and does nothing. A peer's answer to an access of the
device ends it: poisoned data is fatal for a load and marks what a copy has made of it, and a refusal and a lost link are fatal, each at the word,
the lanes and the address that made the access. An access of another size to BAR0 is aborted. While the host link is down every resident
context is lost and no message goes out. Choices of the model that it rests on: log entries 33 and 65. -/
def Obligations.PeersAndLink : Prop :=
  ∀ (s : State) (pa n off size idx : Nat) (bs : List Byte) (p : PeerOut) (aop : Nat) (ty : Ty) (b c : Nat),
    let idle (k : Nat) : Prop := 0 < k ∧ pa + k ≤ 2 ^ 40 ∧ ∀ line, pa / 128 ≤ line → line * 128 < pa + k → HomeIdle s 0x3FF line
    let only (t : State) : Prop := t = { s with mem := t.mem, enc := t.enc, poison := t.poison, dir := t.dir, dies := t.dies, cores := t.cores, groups := t.groups, outbox := t.outbox }
    let wrote (t : State) (bytes : List Byte) : Prop := only t ∧ (∀ k, k < bytes.length → t.rdByte (pa + k) = nthD 0 bytes k) ∧
      SameMemBut s t fun a => pa ≤ a ∧ a < pa + bytes.length
    let data (k : Nat) : OutMsg := .read (s.rdBytes pa k) (s.poisUnits pa k)
    let read (t : State) (k : Nat) : Prop := only t ∧ SameMem s t ∧ t.outbox = s.outbox ++ [data k]
    let an := formBytes ty 0
    let aligned : Prop := (size = 4 ∨ size = 8) ∧ off % size = 0 ∧ off + size ≤ 2 ^ 23
    (hostUp s = true → memoryUp s = true →
      (idle n → ∃ t, exec (.hostBar2Access false pa n bs) s = .next t ∧ read t n) ∧
      (idle bs.length → ∃ t, exec (.hostBar2Access true pa n bs) s = .next t ∧ wrote t bs ∧ t.outbox = s.outbox)) ∧
    (memoryUp s = true →
      (idle n → peerAdmits s pa n false = true → ∃ t, exec (.peerAccessRequest pa (.read n)) s = .next t ∧ read t n) ∧
      (idle bs.length → peerAdmits s pa bs.length true = true → ∃ t, exec (.peerAccessRequest pa (.write bs)) s = .next t ∧ wrote t bs ∧
        t.outbox = s.outbox ++ [.read [] []]) ∧
      (idle an → peerAdmits s pa an true = true → ∃ t, exec (.peerAccessRequest pa (.atom aop ty b c)) s = .next t ∧
        wrote t (toBytes an (atomNew ty aop (s.rdNat pa an) b c)) ∧ t.outbox = s.outbox ++ [data an]) ∧
      (0 < n → pa + n ≤ 2 ^ 40 → peerAdmits s pa n false = false →
        exec (.peerAccessRequest pa (.read n)) s = .next { s with outbox := s.outbox ++ [.refused pa] })) ∧
    (s.io.peerOut[idx]? = some p →
      let s1 : State := { s with io := { s.io with peerOut := dropAt s.io.peerOut idx } }
      let fault (code detail addr : Nat) : State := match p.ctx with
        | some k => fatalCtx s1 k p.org code detail addr p.mask
        | none => s1
      exec (.peerResponse idx .done) s = .next s1 ∧
      exec (.peerResponse idx .poisoned) s = .next (if p.load then fault POISON 0 p.va else markAll s1 p.mark) ∧
      exec (.peerResponse idx .denied) s = .next (fault PROTECTION 1 p.va) ∧
      exec (.peerResponse idx .lost) s = .next (fault LINK_LOST (0x10 + routePort s p.loc) (peerPa p.loc / 128 * 128))) ∧
    (off < 2 ^ 23 → s.io.linkDown = false → ¬ aligned →
      let aborts (acc : BarAccess) : Prop := exec (.bar0BadAccess acc size) s = .next { s with outbox := s.outbox ++ [.abort off size] }
      (¬ (readsWide off = true ∧ size ∈ [1, 2, 16, 32, 64] ∧ off % size = 0) → aborts (.read off)) ∧
      (¬ (size = 64 ∧ 0x100000 ≤ off ∧ off < 0x140000 ∧ off % 0x1000 < 0x800 ∧ off % 128 = 0) → aborts (.write off))) ∧
    (s.io.linkDown = false → ∃ t, exec .hostLinkDown s = .next t ∧ t.io.linkDown = true ∧ t.outbox = s.outbox ∧
      ((∀ c, c < 64 → ctxResident s c = false) → t = { s with io := { s.io with linkDown := true } }) ∧
      ∀ c, c < 64 → ctxResident s c = true → ∀ e ∈ t.teams, e.2.ctx ≠ c) ∧
    (s.io.linkDown = true → s.io.powered = true → 1 ≤ fld (s.reg rBOOTSTAT) 7 4 → ∃ t, exec .hostLinkRestored s = .next t ∧ t = { s with io := t.io } ∧
      t.io.linkDown = false ∧ t.io.trained = true ∧ (s.io.trained = true → t.io = { s.io with linkDown := false }) ∧
      (s.io.trained = false → t.io.bar0 % 2 ^ 23 = 0 ∧ t.io.bar2 % 2 ^ 40 = 0))

/-- R5, R264, R307, R453, R463 to R465, R502, R503 and R505: host-mapped registers. A write of 8 bytes, or of one half, changes exactly the fields
that the host may write; a saturating counter is cleared by zero and left by any other value; L2QUOTA takes only quotas that sum to 16; HEAD moves
only within the ring's interval; snapshots arm, trigger, count what they miss and latch each of their registers; an unmasked vector with a pending bit sends its message.
Choices of the model that it rests on: log entries 7, 28 and 65. -/
def Obligations.HostRegisters : Prop :=
  ∀ (s : State) (c die entry T bits : Nat) (v : Word64), c < 64 → die < 8 → hostUp s = true →
    let old (o : Nat) : Word64 := s.reg o
    let goes (i : Instr) (o : Nat) (x : Word64) : Prop := exec i s = .next (s.setReg o x)
    let q (k : Nat) : Nat := fld v (4 * k + 3) (4 * k)
    let p := old (rTRCPTR die)
    let e := old (rERRSTAT die)
    let snap := old rSNAPCTL
    let missed (t : State) : Prop := t.io.trig = s.io.trig ∧ fld (t.reg rSNAPCTL) 63 48 = min (fld snap 63 48 + 1) 0xFFFF
    goes (.registerWrite (rSAVEAREA c) 8 v) (rSAVEAREA c) v ∧
    goes (.registerWrite (rSAVEAREA c) 4 v) (rSAVEAREA c) (mk64 (hi32 (old (rSAVEAREA c))) (lo32 v)) ∧
    goes (.registerWrite (rSAVEAREA c + 4) 4 v) (rSAVEAREA c) (mk64 (lo32 v) (lo32 (old (rSAVEAREA c)))) ∧
    goes (.registerWrite (rPQUOTA c) 8 v) (rPQUOTA c) ((old (rPQUOTA c) &&& ~~~0x1FFF) ||| (v &&& 0x1FFF)) ∧
    goes (.registerWrite (rPREEMPT c) 8 v) (rPREEMPT c) ((old (rPREEMPT c) &&& ~~~0xFFFFFFFF) ||| (v &&& 0xFFFFFFFF)) ∧
    (∃ x, goes (.counterClearWrite (rERRSTAT die) v) (rERRSTAT die) x ∧ fld x 63 32 = (if fld v 63 32 = 0 then 0 else fld e 63 32) ∧
      fld x 31 16 = (if fld v 31 16 = 0 then 0 else fld e 31 16) ∧ fld x 15 0 = fld e 15 0) ∧
    (q 0 ≠ 0 → q 1 ≠ 0 → q 2 ≠ 0 → q 3 ≠ 0 → q 0 + q 1 + q 2 + q 3 = 16 → goes (.l2quotaWrite die v) (rL2QUOTA die) (v &&& 0xFFFF)) ∧
    (q 0 = 0 ∨ q 1 = 0 ∨ q 2 = 0 ∨ q 3 = 0 ∨ q 0 + q 1 + q 2 + q 3 ≠ 16 → exec (.l2quotaWrite die v) s = .next s) ∧
    (let far (x : Nat) : Nat := (x + 2 ^ 21 - fld p 52 32) % 2 ^ 21
     (far (fld v 52 32) ≤ far (fld p 20 0) → ∃ x, goes (.trcptrHeadWrite die v) (rTRCPTR die) x ∧ fld x 52 32 = fld v 52 32 ∧ fld x 20 0 = fld p 20 0) ∧
     (far (fld p 20 0) < far (fld v 52 32) → exec (.trcptrHeadWrite die v) s = .next s)) ∧
    goes .snapctlArm rSNAPCTL (snap ||| 1) ∧
    (fld snap 0 0 = 1 → s.io.trig = none → ∃ t, exec .snapctlHosttrig s = .next t ∧ t.io.trig = some (t.io.time + 1000, 2 ^ 6) ∧ s.io.time ≤ t.io.time ∧
      t = { s with free := t.free, io := t.io }) ∧
    (fld snap 0 0 = 0 → s.io.trig = none → ∃ t, exec .snapctlHosttrig s = .next t ∧ missed t ∧ t = { s with free := t.free, regs := t.regs, io := t.io }) ∧
    (s.io.trig = some (T, bits) → ∃ t, exec .snapshotLatch s = .next t ∧ t.io.trig = none ∧ fld (t.reg rSNAPCTL) 0 0 = 0 ∧
      fld (t.reg rSNAPCTL) 6 4 = bits / 16 % 8 ∧ t.reg rSNAPTIME = BitVec.ofNat 64 T ∧ T ≤ t.io.time ∧ t.io.snapSeq = s.io.snapSeq + 1 ∧
      t.io.snap = ((List.range Config.snapshotCount).map fun r => match Config.snapshotSource r with
        | some o => s.reg o
        | none => Config.snapshotValue s.free r) ∧
      SameMemBut s t (traceSlot s 0)) ∧
    (entry < 32 → ∃ t, exec (.msixUnmask entry) s = .next t ∧ t = { s with regs := t.regs, outbox := t.outbox } ∧ fld (t.reg (16 * entry + 8)) 32 32 = 0 ∧
      fld (t.reg 0x800) entry entry = 0 ∧ t.outbox = s.outbox ++ if fld (old 0x800) entry entry = 1 then [.msix entry] else [])

/-- R435 to R437, R457, R511 to R516: bring-up runs its stages in order, and each one extends its measurement; a stage that fails, or firmware that
does not pass its checks, sets RECOVERY. The host link has trained after stage 1; stage 2 draws the system's key and places each die's trace buffer in
a run of 64 MiB tagged as system, of the die's own blocks where it holds such a run; stage 3 clocks the compute dies. Power-on starts from reset with
the image that flash holds; flash alone outlives power. The mailbox extends only MR3 to MR7 and signs a report for a 32-byte nonce. Time is stepped
only forward, and by more than 1 ms; every other correction is slewed, by at most 200 ppm of the time that passes. A limit that is not met asks for a
frequency; an island's clock falls to the lowest one asked for, and rises by one step at a time while none is. Choices of the model that it rests on:
log entries 8, 10, 27, 56, 57 and 74. -/
def Obligations.Platform : Prop :=
  ∀ (s : State) (k n mr image ns offset island mhz limit value : Nat) (z : Int) (pps : Bool) (m nonce : List Byte),
    let r := s.reg rBOOTSTAT
    let boots : Prop := fld r 7 4 < 4 ∧ fld r 0 0 = 0 ∧ fld (s.reg rSECSTAT) 0 0 = 0 ∧ s.io.powered = true
    let checked : Prop := fld r 7 4 = 1 ∨ fld r 7 4 = 2
    let extended (k : Nat) (m : List Byte) : List Byte := shake256 (s.mr k ++ shake256 m 64) 64
    let cleared (t : State) : Prop := t = { State.reset with part := s.part, agenda := s.agenda, free := s.free, seq := s.seq, outbox := s.outbox, io := t.io }
    let freq := mget 1800 s.io.freq island
    let asks : Nat := (List.range 3).foldl (fun a i => min a (mget 1800 s.io.asks (3 * island + i))) 1800
    let mhzOk : Prop := island < 24 ∧ 600 ≤ mhz ∧ mhz ≤ 1800 ∧ mhz % 50 = 0 ∧ s.io.powered = true
    (boots → exec (.bootStageComplete false) s = .next (s.setReg rBOOTSTAT (r ||| 1))) ∧
    (boots → checked → stagePasses s.io.image (fld r 7 4) = false → exec (.bootStageComplete true) s = .next (s.setReg rBOOTSTAT (r ||| 1))) ∧
    (boots → fld r 7 4 = n → (checked → stagePasses s.io.image n = true) → ∃ t, exec (.bootStageComplete true) s = .next t ∧
      fld (t.reg rBOOTSTAT) 7 4 = n + 1 ∧ fld (t.reg rBOOTSTAT) 0 0 = 0 ∧
      (n = 0 → t = { s with regs := t.regs }) ∧
      (n = 1 → t.mr 0 = extended 0 (Config.stageBytes s.io.image 1) ∧ (s.io.trained = false → t.io.linkDown = false) ∧
        t = { s with regs := t.regs, io := t.io }) ∧
      (n = 2 → t.mr 1 = extended 1 (Config.stageBytes s.io.image 2) ∧
        mget none t.keys 64 = some ⟨Config.freeKey s.free, Config.freeKey (s.free + 1)⟩ ∧
        ∀ d, d < 8 → ∃ b, mget 0 t.io.trcBase d = b * 2 ^ 21 ∧ b + 32 ≤ 2 ^ 19 ∧
          ∀ j, j < 32 → keyTag t (b + j) = 64 ∧ (traceRuns d ≠ [] → blockDie (b + j) = d)) ∧
      (n = 3 → t.mr 2 = extended 2 [BitVec.ofNat 8 Config.alarmPolicy.toNat, match s.part with | .pkg640 => 1 | .mod640 => 2 | .mod600 => 3] ∧
        t.io.clocked = true ∧ t = { s with regs := t.regs, io := t.io })) ∧
    (s.io.powered = false → ∃ t, exec .powerOn s = .next t ∧ cleared t ∧ t.io = { State.reset.io with flash := s.io.flash, image := s.io.flash }) ∧
    (s.io.powered = true → ∃ t, exec .powerRemoved s = .next t ∧ cleared t ∧ t.io = { State.reset.io with flash := s.io.flash, powered := false }) ∧
    (s.io.powered = true → exec (.firmwareUpdate image) s = .next { s with io := { s.io with flash := image } }) ∧
    (3 ≤ mr → mr ≤ 7 → hostUp s = true → ∃ t, exec (.mailboxExtend mr m) s = .next t ∧ t.mr mr = extended mr m ∧ (t.mr mr).length = 64 ∧
      (∀ k, k ≠ mr → t.mr k = s.mr k) ∧ t = { s with io := { s.io with mrs := t.io.mrs } }) ∧
    (nonce.length = 32 → inService s = true → 1 ≤ fld r 7 4 → ∃ t body sig, exec (.mailboxAttestation nonce) s = .next t ∧
      t = { s with io := { s.io with report := t.io.report } } ∧ t.io.report = body ++ sig ∧ sig.length = 3309 ∧
      ((Config.mlDsaSign body).length = 3309 → sig = Config.mlDsaSign body) ∧ (body.drop 4).take 32 = nonce ∧
      (k < 8 → (∀ j, j < 8 → (s.mr j).length = 64) → (body.drop (36 + 64 * k)).take 64 = s.mr k)) ∧
    (let stat : Word64 := BitVec.ofNat 64 (min offset 0xFFFFFFFF * 2 ^ 32 + (if pps then 2 else 0) + if offset ≤ 100 then 1 else 0)
     let done (io : Io) : State := { s.setReg rTIMESTAT stat with io := { io with locked := decide (offset ≤ 100) } }
     let e := Config.elapsedNs s.free
     (s.io.powered = true → 1000000 < ns → s.io.trig = none → exec (.timeDiscipline (.step ns pps) offset) s = .next (done { s.io with time := s.io.time + ns })) ∧
     (s.io.powered = true → z ≤ 1000000 → exec (.timeDiscipline (.slew z pps) offset) s = .next (done { s.io with slew := z })) ∧
     (s.io.trig = none → s.io.time + e - e / 5000 ≤ s.now.io.time ∧ s.now.io.time ≤ s.io.time + e + e / 5000 ∧ s.io.time ≤ s.now.io.time ∧
       (s.now.io.time : Int) + s.now.io.slew = s.io.time + e + s.io.slew)) ∧
    (mhzOk → limit < 3 → islandLimit s island limit < value → ∃ t, takeReading island limit value mhz s = .next t ∧
      t = { s with io := { s.io with asks := t.io.asks } } ∧ askedMHz t island ≤ mhz) ∧
    (mhzOk → (if asks < 1800 then mhz = asks ∧ mhz < freq else mhz = freq + 50) →
      exec (.islandFrequencyChange island mhz) s = .next { s with io := { s.io with freq := mset 1800 s.io.freq island mhz } })

/-- R443 to R447, R460 and R505: a fatal fault of a context. Its work ends and its open launch slots return to IDLE; other contexts' groups keep
their registers; one record goes to the fault queue with the fields that R446 gives, or is counted where there is no room, or where its write meets an
uncorrectable error, and the next record says so; one message is sent. -/
def Obligations.FatalFault : Prop :=
  ∀ (s : State) (c code detail addr : Nat) (a : FaultAt) (mask : Word32), c < 64 →
    let d := if a.core = 0x3FF then firstDie s c else dieOf a.core
    let t := fatalCtx s c a code detail addr mask
    let q := s.reg (rFQCTL c)
    let n := fld (s.reg (rFQBASE c)) 3 0
    let tail := fld q 31 16
    let at_ := fld (s.reg (rFQBASE c)) 63 12 * 4096 + 64 * tail
    let next := (tail + 1) % 2 ^ n
    let v := fld q 36 32
    let room : Prop := 6 ≤ n ∧ next ≠ fld q 15 0 % 2 ^ n ∧ keyTag s (blockOf at_) = c ∧ isDev at_ = true ∧ c ∉ s.io.recErr
    d < 8 →
      (∀ e ∈ t.teams, e.2.ctx ≠ c) ∧
      (∀ gh, (∀ e ∈ s.teams, e.2.ctx = c → gh / 32 ≠ e.1) → t.grp gh = { s.grp gh with tx := (t.grp gh).tx }) ∧
      (∀ gh, (∃ e ∈ s.teams, e.2.ctx = c ∧ gh / 32 = e.1) → t.grp gh = Group.init) ∧
      (∀ k, (slotOf s c k).state = 1 ∨ (slotOf s c k).state = 2 → (slotOf t c k).state = 0) ∧ (∀ k, k ≠ c → t.ctx k = s.ctx k) ∧
      (room → fld (t.reg (rFQCTL c)) 31 16 = next ∧ SameMemBut s t (fun x => traceSlot s d x ∨ at_ ≤ x ∧ x < at_ + 64) ∧
        (fld (s.reg (rTRCCTL d)) 23 23 = 0 →
          t.rdNat at_ 1 = code % 2 ^ 8 ∧ t.rdNat (at_ + 1) 1 = (if a.isD then 1 else 0) + 2 + (if a.hinge ≠ 0xFFFF then 4 else 0) + (if mget false s.io.lost c then 8 else 0) ∧
           t.rdNat (at_ + 2) 2 = a.core % 2 ^ 16 ∧ t.rdNat (at_ + 4) 2 = a.hinge % 2 ^ 16 ∧ t.rdNat (at_ + 6) 1 = a.group % 2 ^ 8 ∧
          t.rdNat (at_ + 7) 1 = a.slot % 2 ^ 8 ∧ t.rdNat (at_ + 8) 8 = a.team.toNat ∧ t.rdNat (at_ + 16) 4 = a.pcA % 2 ^ 32 ∧
          t.rdNat (at_ + 20) 4 = a.pcB % 2 ^ 32 ∧ t.rdNat (at_ + 24) 4 = a.twinA % 2 ^ 32 ∧ t.rdNat (at_ + 28) 4 = a.twinB % 2 ^ 32 ∧
          t.rdNat (at_ + 32) 4 = mask.toNat ∧ t.rdNat (at_ + 36) 4 = detail % 2 ^ 32 ∧ t.rdNat (at_ + 40) 8 = addr % 2 ^ 64 ∧ t.rdNat (at_ + 56) 8 = 0)) ∧
      (¬ room → fld (t.reg (rFQCTL c)) 31 16 = tail ∧ fld (t.reg (rFQCTL c)) 63 48 = min (fld q 63 48 + 1) 0xFFFF ∧ mget false t.io.lost c = true ∧ SameMemBut s t (traceSlot s d)) ∧
      (s.io.linkDown = false → fld (s.reg (16 * v + 8)) 32 32 = 0 → t.outbox = s.outbox ++ [.msix v]) ∧
      (s.io.linkDown = true → t.outbox = s.outbox)

/-- R76, R264, R306, R414, R436, R456 and R514: what reset leaves: no group and no team, bring-up at stage 0, no context, the L2's quotas at four
each, the registers of R306 and R414 at their reset values, measurements of zeros, time at zero, no link that has trained, memory that lists nothing in its canonical form.
Choices of the model that it rests on: log entry 2. -/
def Obligations.ResetState : Prop :=
  State.reset.groups = [] ∧ State.reset.teams = [] ∧ fld (State.reset.reg rBOOTSTAT) 7 4 = 0 ∧ fld (State.reset.reg rBOOTSTAT) 0 0 = 0 ∧
  State.reset.io.time = 0 ∧ State.reset.io.powered = true ∧ State.reset.io.linkDown = true ∧ (∀ k, State.reset.mr k = List.replicate 64 0) ∧
  (∀ d, d < 8 → State.reset.reg (rL2QUOTA d) = 0x4444 ∧ State.reset.reg (rERRSTAT d) = 0 ∧ State.reset.reg (rTRCCTL d) = 0) ∧
  (∀ c, c < 64 → ctxValid State.reset c = false ∧ State.reset.reg (rPQUOTA c) = 256 ∧ State.reset.reg (rPREEMPT c) = 0x100000 ∧
    ∀ k, k < 16 → (slotOf State.reset c k).state = 0) ∧
  Memory.wf State.reset.mem = true

/-- R91, R92, R97, R102, R379 and R40: a step runs what the agenda names: an event, or an issue on a partition: the split that R40 ranks first among
its group's ready ones tries the word that its code holds at its PC. The split has moved past the word, and exec gives the rest; a word that the
scoreboard or the order of accesses holds back, or that cannot act, leaves its split as it was. A PC outside its code, and bytes that are no
instruction of the encoding, are ILLEGAL_INST. Without an agenda the step runs the first internal event that is due, else what autoMove names, else
nothing moves. Choices of the model that it rests on: log entries 12, 13, 19 and 46. -/
def Obligations.StepRunsDecodedWord : Prop :=
  (∀ (s : State) (i : Instr) (rest : List Move), s.agenda = .ev i :: rest → step s = exec i ({ s with agenda := rest } : State).draw.tick) ∧
  (∀ (s : State) (i : Instr), s.agenda = [] → autoEvent s = some i → step s = exec i s.draw.tick) ∧
  (∀ s : State, s.agenda = [] → autoMove s = none → step s = .next s) ∧
  (∀ (s : State) (core part : Nat), s.agenda = [] → autoMove s = some (.issue core part) → step s = step { s with agenda := [.issue core part] }) ∧
  (∀ (s : State) (core part gh k : Nat) (one : Bool), issueChoice s core part = some ((gh, k), one) → (gh, k) ∈ readyOn s core part ∧
    ∀ j, one = false → (gh, j) ∈ readyOn s core part → keyLt (splitKey (s.splitAt (gh, j))) (splitKey (s.splitAt (gh, k))) = false) ∧
  (∀ (s : State) (core part gh k : Nat) (one : Bool) (rest : List Move), s.agenda = .issue core part :: rest →
    let s0 : State := ({ s with agenda := rest } : State).draw.tick
    (issueChoice s0 core part = none → step s = .next s0) ∧
    (issueChoice s0 core part = some ((gh, k), one) →
      let s1 : State := (startCycle s0 core part (readyOn s0 core part) ((gh, k), one)).draw
      step s = tryWord s1 gh k ∧ s1 = { s0 with groups := s1.groups, cores := s1.cores, free := s0.free + 1 } ∧
        ∀ i, s1.grp i = { s0.grp i with splits := (s1.grp i).splits } ∧
          (s1.grp i).splits.map (fun p => { p with age := 0, aged := false }) = (s0.grp i).splits.map fun p => { p with age := 0, aged := false })) ∧
  ∀ (s : State) (gh k : Nat) (l : Launch) (ahead : Bool),
    let g := s.grp gh
    let x := s.team g.team
    let p := nthD Split.init g.splits k
    let q := inQueue p ahead
    let c0 : State := { s with cur := ⟨gh, k, p.fromA, p.fromB, false, true, false⟩ }
    k < g.splits.length → (∀ code m imm a b, p.hold ≠ .trapw code m imm a b) → doomedLanes g p.mask = [] → joins x.isL g k = [] → teamLaunch s x = some l →
    (x.isL = true ∨ p.queue = [] ∨ inFlight p = true → tryWord s gh k = tryAt s gh k (scalarFlies p)) ∧
    (∀ u, x.isL = false → p.queue ≠ [] → inFlight p = false → tryAt s gh k false = .next u →
      (u.cur.held = false → tryWord s gh k = .next u) ∧
      (u.cur.held = true → tryWord s gh k = .next u ∨
        ∃ i t bad, fetch u gh k true = .word i t bad ∧ mayAhead t i = true ∧ tryWord s gh k = tryAt u gh k true)) ∧
    (fetchCode c0 x l p ahead = .outside → tryAt s gh k ahead = .next (fatal c0 ILLEGAL_INST 2 p.pc 0)) ∧
    ∀ bs, fetchCode c0 x l p ahead = .ok bs →
      let t := advance s gh k x.isL (x.isL && decide (192 ≤ (nthD 0 bs 3).toNat)) ahead
      (t = { s with cur := t.cur, groups := t.groups, cores := t.cores } ∧ t.cg = { g with splits := setAt g.splits k t.sp } ∧
        (∀ j, j ≠ gh → t.grp j = s.grp j) ∧ t.cur.gh = gh ∧ t.cur.sp = k ∧ t.cur.held = false ∧ t.sp.mask = p.mask ∧ t.sp.age = 0 ∧
        (committing p.hold = false → t.sp.hold = .none) ∧
        (x.isL = true → t.cur.pcA = p.pc ∧ t.sp.pc = p.pc + (if 192 ≤ (nthD 0 bs 3).toNat then 12 else 4) ∧ t.sp.queue = p.queue) ∧
        (x.isL = false → q = [] → t.cur.pcA = p.pc ∧ t.sp.pc = p.pc + 4 ∧ t.sp.queue = p.queue) ∧
        (∀ h hs, x.isL = false → q = h :: hs → t.cur.pcA = h.pc ∧ t.cur.pcB = h.off ∧ t.cur.isV = true ∧ t.sp.pc = p.pc ∧ t.sp.queue = hs)) ∧
      (decodeHere x.isL (!x.isL && !q.isEmpty) g.allot bs = none → tryAt s gh k ahead = .next (fatal t ILLEGAL_INST 0 (wordAddr t) 0)) ∧
      ∀ i, decodeHere x.isL (!x.isL && !q.isEmpty) g.allot bs = some i →
        (wordHolds (inFlight p) t i = true → tryAt s gh k ahead = .next (unissue s (retry t) gh)) ∧
        (wordHolds (inFlight p) t i = false → tryAt s gh k ahead = match exec i t with
          | .next u => .next (if u.cur.held then unissue s u gh else u)
          | r => r)

/-- R77 to R93, on a few words written out from the tables of their encodings. -/
def Obligations.DecodeWords : Prop :=
  decodeTableWord 32 0xB0280000 = some (.crd 5 0) ∧ decodeTableWord 32 0xB4009000 = some (.cwr 9 0) ∧
  decodeTableWord 32 0x481C0020 = some (.bq 4 3 0x20) ∧ decodeTableWord 32 0x6C0000A8 = some (.take true 40) ∧
  decodeTableWord 96 0x00C13840C0002400 = some (.vadd ⟨false, 0, 0⟩ .i32 9 (.v 0) (.s 4)) ∧ decodeTableWord 32 0x5403E000 = some (.ret 62) ∧ decodeTableWord 32 0x88080007 = some (.mark true 7) ∧
  decodeTableWord 32 0 = none

/-- The encoder and the decoder agree: every well-formed instruction that has an encoding, with every operand at every value that the encoding
admits, is read back from its own bytes, and what follows it is left. -/
def Obligations.DecodeInvertsEncode : Prop :=
  ∀ (i : Instr) (rest : List Byte), i.wellFormed = true → i.isEvent = false →
    decodeBytes ((encodeParcels i).flatMap (fun p => toBytes 4 p) ++ rest) = .ok (i, rest)

/-- Every step keeps memory's canonical form: addresses strictly rising, and no entry that equals what an unlisted address reads as. That it holds at
reset, ResetState says. Choices of the model that it rests on: log entry 2. -/
def Obligations.MemoryStaysCanonical : Prop :=
  ∀ (s t : State), Memory.wf s.mem = true → step s = .next t → Memory.wf t.mem = true
end

