-- ==== Sys2Proof/Laws/Maps.lean ====
section
/-! SUPPORT. Laws of the finite maps: read after write, and the canonical form that every write keeps; laws of the list helpers. -/
namespace Sys2Proof.Machine

@[simp] theorem mget_nil {α : Type} (d : α) (i : Nat) : mget d [] i = d := rfl

theorem mget_merase_same {α : Type} (d : α) (m : AMap α) (i : Nat) : mget d (merase m i) i = d := by
  induction m with
  | nil => rfl
  | cons e m ih =>
    obtain ⟨k, x⟩ := e
    by_cases h : k = i <;> simp [merase, mget, h, ih]

theorem mget_merase_ne {α : Type} (d : α) (m : AMap α) {i j : Nat} (hne : j ≠ i) : mget d (merase m i) j = mget d m j := by
  induction m with
  | nil => rfl
  | cons e m ih =>
    obtain ⟨k, x⟩ := e
    by_cases h : k = i
    · simp [merase, mget, h, ih, Ne.symm hne]
    · simp [merase, mget, h, ih]

theorem mget_minsert_ne {α : Type} (d : α) (m : AMap α) {i j : Nat} (x : α) (hne : j ≠ i) : mget d (minsert m i x) j = mget d m j := by
  induction m with
  | nil => simp [minsert, mget, Ne.symm hne]
  | cons e m ih =>
    obtain ⟨k, y⟩ := e
    by_cases h : i < k
    · simp [minsert, mget, h, Ne.symm hne]
    · simp [minsert, mget, h, ih]

theorem mget_minsert_merase_same {α : Type} (d : α) (m : AMap α) (i : Nat) (x : α) : mget d (minsert (merase m i) i x) i = x := by
  induction m with
  | nil => simp [merase, minsert, mget]
  | cons e m ih =>
    obtain ⟨k, y⟩ := e
    by_cases h : k = i
    · simp [merase, h, ih]
    · by_cases h2 : i < k <;> simp [merase, minsert, mget, h, h2, ih]

/-- Read after write of the same key. -/
@[simp] theorem mget_mset_same {α : Type} [DecidableEq α] (d : α) (m : AMap α) (i : Nat) (x : α) : mget d (mset d m i x) i = x := by
  by_cases h : x = d
  · simp [mset, h, mget_merase_same]
  · simp [mset, h, mget_minsert_merase_same]

/-- Read after write of another key. -/
theorem mget_mset_ne {α : Type} [DecidableEq α] (d : α) (m : AMap α) {i j : Nat} (x : α) (hne : j ≠ i) : mget d (mset d m i x) j = mget d m j := by
  by_cases h : x = d
  · simp [mset, h, mget_merase_ne _ _ hne]
  · simp [mset, h, mget_minsert_ne _ _ _ hne, mget_merase_ne _ _ hne]

theorem mget_mset {α : Type} [DecidableEq α] (d : α) (m : AMap α) (i j : Nat) (x : α) : mget d (mset d m i x) j = if j = i then x else mget d m j := by
  by_cases h : j = i
  · simp [h]
  · simp [h, mget_mset_ne]

/-! The canonical form. -/

theorem mwfFrom_le {α : Type} [DecidableEq α] (d : α) : ∀ (m : AMap α) (lo lo' : Nat), lo' ≤ lo → mwfFrom d lo m = true → mwfFrom d lo' m = true
  | [], _, _, _, _ => rfl
  | (k, x) :: m, lo, lo', h, hm => by
    simp only [mwfFrom, Bool.and_eq_true, decide_eq_true_eq] at hm ⊢
    exact ⟨⟨Nat.le_trans h hm.1.1, hm.1.2⟩, hm.2⟩

theorem mwfFrom_merase {α : Type} [DecidableEq α] (d : α) (i : Nat) : ∀ (m : AMap α) (lo : Nat), mwfFrom d lo m = true → mwfFrom d lo (merase m i) = true
  | [], _, _ => rfl
  | (k, x) :: m, lo, h => by
    simp only [mwfFrom, Bool.and_eq_true, decide_eq_true_eq] at h
    by_cases hk : k = i
    · simpa [merase, hk] using mwfFrom_le d _ _ _ (Nat.le_succ_of_le h.1.1) (mwfFrom_merase d i m _ h.2)
    · simp only [merase, hk, if_false, mwfFrom, Bool.and_eq_true, decide_eq_true_eq]
      exact ⟨h.1, mwfFrom_merase d i m _ h.2⟩

theorem mwfFrom_minsert {α : Type} [DecidableEq α] (d : α) (i : Nat) (x : α) (hx : x ≠ d) :
    ∀ (m : AMap α) (lo : Nat), lo ≤ i → (∀ y, (i, y) ∉ m) → mwfFrom d lo m = true → mwfFrom d lo (minsert m i x) = true
  | [], lo, hlo, _, _ => by simp [minsert, mwfFrom, hlo, hx]
  | (k, y) :: m, lo, hlo, hn, h => by
    simp only [mwfFrom, Bool.and_eq_true, decide_eq_true_eq] at h
    have hk : k ≠ i := fun e => hn y (by simp [e])
    by_cases hik : i < k
    · simp only [minsert, hik, if_true, mwfFrom, Bool.and_eq_true, decide_eq_true_eq]
      exact ⟨⟨hlo, by simp [hx]⟩, ⟨hik, h.1.2⟩, h.2⟩
    · simp only [minsert, hik, if_false, mwfFrom, Bool.and_eq_true, decide_eq_true_eq]
      exact ⟨h.1, mwfFrom_minsert d i x hx m (k + 1) (by omega) (fun z hz => hn z (by simp [hz])) h.2⟩

theorem not_mem_merase {α : Type} (i : Nat) (y : α) : ∀ m : AMap α, (i, y) ∉ merase m i
  | [] => by simp [merase]
  | (k, x) :: m => by
    by_cases h : k = i
    · simpa [merase, h] using not_mem_merase i y m
    · simp only [merase, h, if_false, List.mem_cons, Prod.mk.injEq, not_or, not_and]
      exact ⟨fun e => absurd e.symm h, not_mem_merase i y m⟩

/-- Every write keeps the canonical form. -/
theorem mwf_mset {α : Type} [DecidableEq α] (d : α) (m : AMap α) (i : Nat) (x : α) (h : mwf d m = true) : mwf d (mset d m i x) = true := by
  by_cases hx : x = d
  · simpa [mset, hx, mwf] using mwfFrom_merase d i m 0 h
  · simpa [mset, hx, mwf] using mwfFrom_minsert d i x hx _ 0 (Nat.zero_le _) (fun y => not_mem_merase i y m) (mwfFrom_merase d i m 0 h)

theorem mwf_msetAll {α : Type} [DecidableEq α] (d : α) (l : List (Nat × α)) : ∀ m : AMap α, mwf d m = true → mwf d (msetAll d m l) = true := by
  induction l with
  | nil => exact fun m h => h
  | cons e l ih => exact fun m h => ih _ (mwf_mset d m e.1 e.2 h)

/-- A key that a run of writes does not name keeps its value. -/
theorem mget_msetAll_ne {α : Type} [DecidableEq α] (d : α) (l : List (Nat × α)) (j : Nat) (h : ∀ e ∈ l, e.1 ≠ j) :
    ∀ m : AMap α, mget d (msetAll d m l) j = mget d m j := by
  induction l with
  | nil => exact fun m => rfl
  | cons e l ih =>
    intro m
    have h1 := ih (fun e' he => h e' (by simp [he])) (mset d m e.1 e.2)
    rw [show msetAll d m (e :: l) = msetAll d (mset d m e.1 e.2) l from rfl, h1]
    exact mget_mset_ne d m e.2 (fun hh => h e (by simp) hh.symm)

/-! Lists by position. -/

@[simp] theorem setAt_length {α : Type} : ∀ (l : List α) (i : Nat) (x : α), (setAt l i x).length = l.length
  | [], _, _ => rfl
  | _ :: _, 0, _ => rfl
  | _ :: l, i + 1, x => by simp [setAt, setAt_length l i x]

theorem nthD_setAt_same {α : Type} (d x : α) : ∀ (l : List α) (i : Nat), i < l.length → nthD d (setAt l i x) i = x
  | [], _, h => by simp at h
  | _ :: _, 0, _ => rfl
  | _ :: l, i + 1, h => by simpa [setAt, nthD] using nthD_setAt_same d x l i (by simpa using h)

theorem nthD_setAt_ne {α : Type} (d x : α) : ∀ (l : List α) (i j : Nat), i ≠ j → nthD d (setAt l i x) j = nthD d l j
  | [], _, _, _ => rfl
  | _ :: _, 0, 0, h => absurd rfl h
  | _ :: _, 0, _ + 1, _ => rfl
  | _ :: _, _ + 1, 0, _ => rfl
  | _ :: l, i + 1, j + 1, h => by simpa [setAt, nthD] using nthD_setAt_ne d x l i j (by omega)

theorem setAt_setAt {α : Type} (x y : α) : ∀ (l : List α) (i : Nat), setAt (setAt l i x) i y = setAt l i y
  | [], _ => rfl
  | _ :: _, 0 => rfl
  | _ :: l, i + 1 => by simp [setAt, setAt_setAt x y l i]

/-! A run of keys written. -/

/-- The keys from a place on, n of them, take a function's values. -/
theorem mget_msetAll_run {α : Type} [DecidableEq α] (d : α) (m : AMap α) (o n : Nat) (f : Nat → α) {x : Nat} (hl : o ≤ x) (hh : x < o + n) :
    mget d (msetAll d m ((List.range n).map fun i => (o + i, f (o + i)))) x = f x := by
  induction n with
  | zero => omega
  | succ n ih =>
    simp only [msetAll, List.range_succ, List.map_append, List.map_cons, List.map_nil, List.foldl_append, List.foldl_cons, List.foldl_nil]
    by_cases hx : x = o + n
    · rw [hx, mget_mset_same]
    · rw [mget_mset_ne _ _ _ hx]
      exact ih (by omega)

theorem mget_msetAll_out {α : Type} [DecidableEq α] (d : α) (m : AMap α) (o n : Nat) (f : Nat → α) {x : Nat} (h : x < o ∨ o + n ≤ x) :
    mget d (msetAll d m ((List.range n).map fun i => (o + i, f (o + i)))) x = mget d m x := by
  refine mget_msetAll_ne d _ x (fun e he => ?_) m
  simp only [List.mem_map, List.mem_range] at he
  obtain ⟨i, hi, rfl⟩ := he
  simp only
  omega

end Sys2Proof.Machine
end

