-- ==== Sys2Proof/Laws/State.lean ====
section
/-! SUPPORT. What each named update leaves in each field of State, what each accessor reads after it, and the same for the updates of a group. -/
namespace Sys2Proof.Machine

/-! One lemma for each field and update. -/

@[simp] theorem State.setGrp_part (s : State) (gh : Nat) (g : Group) : (s.setGrp gh g).part = s.part := rfl
@[simp] theorem State.setGrp_agenda (s : State) (gh : Nat) (g : Group) : (s.setGrp gh g).agenda = s.agenda := rfl
@[simp] theorem State.setGrp_free (s : State) (gh : Nat) (g : Group) : (s.setGrp gh g).free = s.free := rfl
@[simp] theorem State.setGrp_seq (s : State) (gh : Nat) (g : Group) : (s.setGrp gh g).seq = s.seq := rfl
@[simp] theorem State.setGrp_cur (s : State) (gh : Nat) (g : Group) : (s.setGrp gh g).cur = s.cur := rfl
@[simp] theorem State.setGrp_mem (s : State) (gh : Nat) (g : Group) : (s.setGrp gh g).mem = s.mem := rfl
@[simp] theorem State.setGrp_poison (s : State) (gh : Nat) (g : Group) : (s.setGrp gh g).poison = s.poison := rfl
@[simp] theorem State.setGrp_enc (s : State) (gh : Nat) (g : Group) : (s.setGrp gh g).enc = s.enc := rfl
@[simp] theorem State.setGrp_keys (s : State) (gh : Nat) (g : Group) : (s.setGrp gh g).keys = s.keys := rfl
@[simp] theorem State.setGrp_keytag (s : State) (gh : Nat) (g : Group) : (s.setGrp gh g).keytag = s.keytag := rfl
@[simp] theorem State.setGrp_regs (s : State) (gh : Nat) (g : Group) : (s.setGrp gh g).regs = s.regs := rfl
@[simp] theorem State.setGrp_ctxs (s : State) (gh : Nat) (g : Group) : (s.setGrp gh g).ctxs = s.ctxs := rfl
@[simp] theorem State.setGrp_dies (s : State) (gh : Nat) (g : Group) : (s.setGrp gh g).dies = s.dies := rfl
@[simp] theorem State.setGrp_cores (s : State) (gh : Nat) (g : Group) : (s.setGrp gh g).cores = s.cores := rfl
@[simp] theorem State.setGrp_teams (s : State) (gh : Nat) (g : Group) : (s.setGrp gh g).teams = s.teams := rfl
@[simp] theorem State.setGrp_groups (s : State) (gh : Nat) (g : Group) : (s.setGrp gh g).groups = mset Group.init s.groups gh g := rfl
@[simp] theorem State.setGrp_dir (s : State) (gh : Nat) (g : Group) : (s.setGrp gh g).dir = s.dir := rfl
@[simp] theorem State.setGrp_net (s : State) (gh : Nat) (g : Group) : (s.setGrp gh g).net = s.net := rfl
@[simp] theorem State.setGrp_tags (s : State) (gh : Nat) (g : Group) : (s.setGrp gh g).tags = s.tags := rfl
@[simp] theorem State.setGrp_outbox (s : State) (gh : Nat) (g : Group) : (s.setGrp gh g).outbox = s.outbox := rfl
@[simp] theorem State.setGrp_io (s : State) (gh : Nat) (g : Group) : (s.setGrp gh g).io = s.io := rfl

@[simp] theorem State.setCore_part (s : State) (c : Nat) (k : CoreSt) : (s.setCore c k).part = s.part := rfl
@[simp] theorem State.setCore_agenda (s : State) (c : Nat) (k : CoreSt) : (s.setCore c k).agenda = s.agenda := rfl
@[simp] theorem State.setCore_free (s : State) (c : Nat) (k : CoreSt) : (s.setCore c k).free = s.free := rfl
@[simp] theorem State.setCore_seq (s : State) (c : Nat) (k : CoreSt) : (s.setCore c k).seq = s.seq := rfl
@[simp] theorem State.setCore_cur (s : State) (c : Nat) (k : CoreSt) : (s.setCore c k).cur = s.cur := rfl
@[simp] theorem State.setCore_mem (s : State) (c : Nat) (k : CoreSt) : (s.setCore c k).mem = s.mem := rfl
@[simp] theorem State.setCore_poison (s : State) (c : Nat) (k : CoreSt) : (s.setCore c k).poison = s.poison := rfl
@[simp] theorem State.setCore_enc (s : State) (c : Nat) (k : CoreSt) : (s.setCore c k).enc = s.enc := rfl
@[simp] theorem State.setCore_keys (s : State) (c : Nat) (k : CoreSt) : (s.setCore c k).keys = s.keys := rfl
@[simp] theorem State.setCore_keytag (s : State) (c : Nat) (k : CoreSt) : (s.setCore c k).keytag = s.keytag := rfl
@[simp] theorem State.setCore_regs (s : State) (c : Nat) (k : CoreSt) : (s.setCore c k).regs = s.regs := rfl
@[simp] theorem State.setCore_ctxs (s : State) (c : Nat) (k : CoreSt) : (s.setCore c k).ctxs = s.ctxs := rfl
@[simp] theorem State.setCore_dies (s : State) (c : Nat) (k : CoreSt) : (s.setCore c k).dies = s.dies := rfl
@[simp] theorem State.setCore_cores (s : State) (c : Nat) (k : CoreSt) : (s.setCore c k).cores = mset CoreSt.init s.cores c k := rfl
@[simp] theorem State.setCore_teams (s : State) (c : Nat) (k : CoreSt) : (s.setCore c k).teams = s.teams := rfl
@[simp] theorem State.setCore_groups (s : State) (c : Nat) (k : CoreSt) : (s.setCore c k).groups = s.groups := rfl
@[simp] theorem State.setCore_dir (s : State) (c : Nat) (k : CoreSt) : (s.setCore c k).dir = s.dir := rfl
@[simp] theorem State.setCore_net (s : State) (c : Nat) (k : CoreSt) : (s.setCore c k).net = s.net := rfl
@[simp] theorem State.setCore_tags (s : State) (c : Nat) (k : CoreSt) : (s.setCore c k).tags = s.tags := rfl
@[simp] theorem State.setCore_outbox (s : State) (c : Nat) (k : CoreSt) : (s.setCore c k).outbox = s.outbox := rfl
@[simp] theorem State.setCore_io (s : State) (c : Nat) (k : CoreSt) : (s.setCore c k).io = s.io := rfl

@[simp] theorem State.setTeam_part (s : State) (t : Nat) (x : Team) : (s.setTeam t x).part = s.part := rfl
@[simp] theorem State.setTeam_agenda (s : State) (t : Nat) (x : Team) : (s.setTeam t x).agenda = s.agenda := rfl
@[simp] theorem State.setTeam_free (s : State) (t : Nat) (x : Team) : (s.setTeam t x).free = s.free := rfl
@[simp] theorem State.setTeam_seq (s : State) (t : Nat) (x : Team) : (s.setTeam t x).seq = s.seq := rfl
@[simp] theorem State.setTeam_cur (s : State) (t : Nat) (x : Team) : (s.setTeam t x).cur = s.cur := rfl
@[simp] theorem State.setTeam_mem (s : State) (t : Nat) (x : Team) : (s.setTeam t x).mem = s.mem := rfl
@[simp] theorem State.setTeam_poison (s : State) (t : Nat) (x : Team) : (s.setTeam t x).poison = s.poison := rfl
@[simp] theorem State.setTeam_enc (s : State) (t : Nat) (x : Team) : (s.setTeam t x).enc = s.enc := rfl
@[simp] theorem State.setTeam_keys (s : State) (t : Nat) (x : Team) : (s.setTeam t x).keys = s.keys := rfl
@[simp] theorem State.setTeam_keytag (s : State) (t : Nat) (x : Team) : (s.setTeam t x).keytag = s.keytag := rfl
@[simp] theorem State.setTeam_regs (s : State) (t : Nat) (x : Team) : (s.setTeam t x).regs = s.regs := rfl
@[simp] theorem State.setTeam_ctxs (s : State) (t : Nat) (x : Team) : (s.setTeam t x).ctxs = s.ctxs := rfl
@[simp] theorem State.setTeam_dies (s : State) (t : Nat) (x : Team) : (s.setTeam t x).dies = s.dies := rfl
@[simp] theorem State.setTeam_cores (s : State) (t : Nat) (x : Team) : (s.setTeam t x).cores = s.cores := rfl
@[simp] theorem State.setTeam_teams (s : State) (t : Nat) (x : Team) : (s.setTeam t x).teams = mset Team.init s.teams t x := rfl
@[simp] theorem State.setTeam_groups (s : State) (t : Nat) (x : Team) : (s.setTeam t x).groups = s.groups := rfl
@[simp] theorem State.setTeam_dir (s : State) (t : Nat) (x : Team) : (s.setTeam t x).dir = s.dir := rfl
@[simp] theorem State.setTeam_net (s : State) (t : Nat) (x : Team) : (s.setTeam t x).net = s.net := rfl
@[simp] theorem State.setTeam_tags (s : State) (t : Nat) (x : Team) : (s.setTeam t x).tags = s.tags := rfl
@[simp] theorem State.setTeam_outbox (s : State) (t : Nat) (x : Team) : (s.setTeam t x).outbox = s.outbox := rfl
@[simp] theorem State.setTeam_io (s : State) (t : Nat) (x : Team) : (s.setTeam t x).io = s.io := rfl

@[simp] theorem State.setCtx_part (s : State) (c : Nat) (x : Ctx) : (s.setCtx c x).part = s.part := rfl
@[simp] theorem State.setCtx_agenda (s : State) (c : Nat) (x : Ctx) : (s.setCtx c x).agenda = s.agenda := rfl
@[simp] theorem State.setCtx_free (s : State) (c : Nat) (x : Ctx) : (s.setCtx c x).free = s.free := rfl
@[simp] theorem State.setCtx_seq (s : State) (c : Nat) (x : Ctx) : (s.setCtx c x).seq = s.seq := rfl
@[simp] theorem State.setCtx_cur (s : State) (c : Nat) (x : Ctx) : (s.setCtx c x).cur = s.cur := rfl
@[simp] theorem State.setCtx_mem (s : State) (c : Nat) (x : Ctx) : (s.setCtx c x).mem = s.mem := rfl
@[simp] theorem State.setCtx_poison (s : State) (c : Nat) (x : Ctx) : (s.setCtx c x).poison = s.poison := rfl
@[simp] theorem State.setCtx_enc (s : State) (c : Nat) (x : Ctx) : (s.setCtx c x).enc = s.enc := rfl
@[simp] theorem State.setCtx_keys (s : State) (c : Nat) (x : Ctx) : (s.setCtx c x).keys = s.keys := rfl
@[simp] theorem State.setCtx_keytag (s : State) (c : Nat) (x : Ctx) : (s.setCtx c x).keytag = s.keytag := rfl
@[simp] theorem State.setCtx_regs (s : State) (c : Nat) (x : Ctx) : (s.setCtx c x).regs = s.regs := rfl
@[simp] theorem State.setCtx_ctxs (s : State) (c : Nat) (x : Ctx) : (s.setCtx c x).ctxs = mset Ctx.init s.ctxs c x := rfl
@[simp] theorem State.setCtx_dies (s : State) (c : Nat) (x : Ctx) : (s.setCtx c x).dies = s.dies := rfl
@[simp] theorem State.setCtx_cores (s : State) (c : Nat) (x : Ctx) : (s.setCtx c x).cores = s.cores := rfl
@[simp] theorem State.setCtx_teams (s : State) (c : Nat) (x : Ctx) : (s.setCtx c x).teams = s.teams := rfl
@[simp] theorem State.setCtx_groups (s : State) (c : Nat) (x : Ctx) : (s.setCtx c x).groups = s.groups := rfl
@[simp] theorem State.setCtx_dir (s : State) (c : Nat) (x : Ctx) : (s.setCtx c x).dir = s.dir := rfl
@[simp] theorem State.setCtx_net (s : State) (c : Nat) (x : Ctx) : (s.setCtx c x).net = s.net := rfl
@[simp] theorem State.setCtx_tags (s : State) (c : Nat) (x : Ctx) : (s.setCtx c x).tags = s.tags := rfl
@[simp] theorem State.setCtx_outbox (s : State) (c : Nat) (x : Ctx) : (s.setCtx c x).outbox = s.outbox := rfl
@[simp] theorem State.setCtx_io (s : State) (c : Nat) (x : Ctx) : (s.setCtx c x).io = s.io := rfl

@[simp] theorem State.setDie_part (s : State) (d : Nat) (x : Die) : (s.setDie d x).part = s.part := rfl
@[simp] theorem State.setDie_agenda (s : State) (d : Nat) (x : Die) : (s.setDie d x).agenda = s.agenda := rfl
@[simp] theorem State.setDie_free (s : State) (d : Nat) (x : Die) : (s.setDie d x).free = s.free := rfl
@[simp] theorem State.setDie_seq (s : State) (d : Nat) (x : Die) : (s.setDie d x).seq = s.seq := rfl
@[simp] theorem State.setDie_cur (s : State) (d : Nat) (x : Die) : (s.setDie d x).cur = s.cur := rfl
@[simp] theorem State.setDie_mem (s : State) (d : Nat) (x : Die) : (s.setDie d x).mem = s.mem := rfl
@[simp] theorem State.setDie_poison (s : State) (d : Nat) (x : Die) : (s.setDie d x).poison = s.poison := rfl
@[simp] theorem State.setDie_enc (s : State) (d : Nat) (x : Die) : (s.setDie d x).enc = s.enc := rfl
@[simp] theorem State.setDie_keys (s : State) (d : Nat) (x : Die) : (s.setDie d x).keys = s.keys := rfl
@[simp] theorem State.setDie_keytag (s : State) (d : Nat) (x : Die) : (s.setDie d x).keytag = s.keytag := rfl
@[simp] theorem State.setDie_regs (s : State) (d : Nat) (x : Die) : (s.setDie d x).regs = s.regs := rfl
@[simp] theorem State.setDie_ctxs (s : State) (d : Nat) (x : Die) : (s.setDie d x).ctxs = s.ctxs := rfl
@[simp] theorem State.setDie_dies (s : State) (d : Nat) (x : Die) : (s.setDie d x).dies = mset Die.init s.dies d x := rfl
@[simp] theorem State.setDie_cores (s : State) (d : Nat) (x : Die) : (s.setDie d x).cores = s.cores := rfl
@[simp] theorem State.setDie_teams (s : State) (d : Nat) (x : Die) : (s.setDie d x).teams = s.teams := rfl
@[simp] theorem State.setDie_groups (s : State) (d : Nat) (x : Die) : (s.setDie d x).groups = s.groups := rfl
@[simp] theorem State.setDie_dir (s : State) (d : Nat) (x : Die) : (s.setDie d x).dir = s.dir := rfl
@[simp] theorem State.setDie_net (s : State) (d : Nat) (x : Die) : (s.setDie d x).net = s.net := rfl
@[simp] theorem State.setDie_tags (s : State) (d : Nat) (x : Die) : (s.setDie d x).tags = s.tags := rfl
@[simp] theorem State.setDie_outbox (s : State) (d : Nat) (x : Die) : (s.setDie d x).outbox = s.outbox := rfl
@[simp] theorem State.setDie_io (s : State) (d : Nat) (x : Die) : (s.setDie d x).io = s.io := rfl

@[simp] theorem State.setDirE_part (s : State) (l : Nat) (e : DirEnt) : (s.setDirE l e).part = s.part := rfl
@[simp] theorem State.setDirE_agenda (s : State) (l : Nat) (e : DirEnt) : (s.setDirE l e).agenda = s.agenda := rfl
@[simp] theorem State.setDirE_free (s : State) (l : Nat) (e : DirEnt) : (s.setDirE l e).free = s.free := rfl
@[simp] theorem State.setDirE_seq (s : State) (l : Nat) (e : DirEnt) : (s.setDirE l e).seq = s.seq := rfl
@[simp] theorem State.setDirE_cur (s : State) (l : Nat) (e : DirEnt) : (s.setDirE l e).cur = s.cur := rfl
@[simp] theorem State.setDirE_mem (s : State) (l : Nat) (e : DirEnt) : (s.setDirE l e).mem = s.mem := rfl
@[simp] theorem State.setDirE_poison (s : State) (l : Nat) (e : DirEnt) : (s.setDirE l e).poison = s.poison := rfl
@[simp] theorem State.setDirE_enc (s : State) (l : Nat) (e : DirEnt) : (s.setDirE l e).enc = s.enc := rfl
@[simp] theorem State.setDirE_keys (s : State) (l : Nat) (e : DirEnt) : (s.setDirE l e).keys = s.keys := rfl
@[simp] theorem State.setDirE_keytag (s : State) (l : Nat) (e : DirEnt) : (s.setDirE l e).keytag = s.keytag := rfl
@[simp] theorem State.setDirE_regs (s : State) (l : Nat) (e : DirEnt) : (s.setDirE l e).regs = s.regs := rfl
@[simp] theorem State.setDirE_ctxs (s : State) (l : Nat) (e : DirEnt) : (s.setDirE l e).ctxs = s.ctxs := rfl
@[simp] theorem State.setDirE_dies (s : State) (l : Nat) (e : DirEnt) : (s.setDirE l e).dies = s.dies := rfl
@[simp] theorem State.setDirE_cores (s : State) (l : Nat) (e : DirEnt) : (s.setDirE l e).cores = s.cores := rfl
@[simp] theorem State.setDirE_teams (s : State) (l : Nat) (e : DirEnt) : (s.setDirE l e).teams = s.teams := rfl
@[simp] theorem State.setDirE_groups (s : State) (l : Nat) (e : DirEnt) : (s.setDirE l e).groups = s.groups := rfl
@[simp] theorem State.setDirE_dir (s : State) (l : Nat) (e : DirEnt) : (s.setDirE l e).dir = mset DirEnt.init s.dir l e := rfl
@[simp] theorem State.setDirE_net (s : State) (l : Nat) (e : DirEnt) : (s.setDirE l e).net = s.net := rfl
@[simp] theorem State.setDirE_tags (s : State) (l : Nat) (e : DirEnt) : (s.setDirE l e).tags = s.tags := rfl
@[simp] theorem State.setDirE_outbox (s : State) (l : Nat) (e : DirEnt) : (s.setDirE l e).outbox = s.outbox := rfl
@[simp] theorem State.setDirE_io (s : State) (l : Nat) (e : DirEnt) : (s.setDirE l e).io = s.io := rfl

@[simp] theorem State.setReg_part (s : State) (o : Nat) (x : Word64) : (s.setReg o x).part = s.part := rfl
@[simp] theorem State.setReg_agenda (s : State) (o : Nat) (x : Word64) : (s.setReg o x).agenda = s.agenda := rfl
@[simp] theorem State.setReg_free (s : State) (o : Nat) (x : Word64) : (s.setReg o x).free = s.free := rfl
@[simp] theorem State.setReg_seq (s : State) (o : Nat) (x : Word64) : (s.setReg o x).seq = s.seq := rfl
@[simp] theorem State.setReg_cur (s : State) (o : Nat) (x : Word64) : (s.setReg o x).cur = s.cur := rfl
@[simp] theorem State.setReg_mem (s : State) (o : Nat) (x : Word64) : (s.setReg o x).mem = s.mem := rfl
@[simp] theorem State.setReg_poison (s : State) (o : Nat) (x : Word64) : (s.setReg o x).poison = s.poison := rfl
@[simp] theorem State.setReg_enc (s : State) (o : Nat) (x : Word64) : (s.setReg o x).enc = s.enc := rfl
@[simp] theorem State.setReg_keys (s : State) (o : Nat) (x : Word64) : (s.setReg o x).keys = s.keys := rfl
@[simp] theorem State.setReg_keytag (s : State) (o : Nat) (x : Word64) : (s.setReg o x).keytag = s.keytag := rfl
@[simp] theorem State.setReg_regs (s : State) (o : Nat) (x : Word64) : (s.setReg o x).regs = mset 0 s.regs o (x ^^^ regReset o) := rfl
@[simp] theorem State.setReg_ctxs (s : State) (o : Nat) (x : Word64) : (s.setReg o x).ctxs = s.ctxs := rfl
@[simp] theorem State.setReg_dies (s : State) (o : Nat) (x : Word64) : (s.setReg o x).dies = s.dies := rfl
@[simp] theorem State.setReg_cores (s : State) (o : Nat) (x : Word64) : (s.setReg o x).cores = s.cores := rfl
@[simp] theorem State.setReg_teams (s : State) (o : Nat) (x : Word64) : (s.setReg o x).teams = s.teams := rfl
@[simp] theorem State.setReg_groups (s : State) (o : Nat) (x : Word64) : (s.setReg o x).groups = s.groups := rfl
@[simp] theorem State.setReg_dir (s : State) (o : Nat) (x : Word64) : (s.setReg o x).dir = s.dir := rfl
@[simp] theorem State.setReg_net (s : State) (o : Nat) (x : Word64) : (s.setReg o x).net = s.net := rfl
@[simp] theorem State.setReg_tags (s : State) (o : Nat) (x : Word64) : (s.setReg o x).tags = s.tags := rfl
@[simp] theorem State.setReg_outbox (s : State) (o : Nat) (x : Word64) : (s.setReg o x).outbox = s.outbox := rfl
@[simp] theorem State.setReg_io (s : State) (o : Nat) (x : Word64) : (s.setReg o x).io = s.io := rfl

@[simp] theorem State.say_part (s : State) (m : OutMsg) : (s.say m).part = s.part := rfl
@[simp] theorem State.say_agenda (s : State) (m : OutMsg) : (s.say m).agenda = s.agenda := rfl
@[simp] theorem State.say_free (s : State) (m : OutMsg) : (s.say m).free = s.free := rfl
@[simp] theorem State.say_seq (s : State) (m : OutMsg) : (s.say m).seq = s.seq := rfl
@[simp] theorem State.say_cur (s : State) (m : OutMsg) : (s.say m).cur = s.cur := rfl
@[simp] theorem State.say_mem (s : State) (m : OutMsg) : (s.say m).mem = s.mem := rfl
@[simp] theorem State.say_poison (s : State) (m : OutMsg) : (s.say m).poison = s.poison := rfl
@[simp] theorem State.say_enc (s : State) (m : OutMsg) : (s.say m).enc = s.enc := rfl
@[simp] theorem State.say_keys (s : State) (m : OutMsg) : (s.say m).keys = s.keys := rfl
@[simp] theorem State.say_keytag (s : State) (m : OutMsg) : (s.say m).keytag = s.keytag := rfl
@[simp] theorem State.say_regs (s : State) (m : OutMsg) : (s.say m).regs = s.regs := rfl
@[simp] theorem State.say_ctxs (s : State) (m : OutMsg) : (s.say m).ctxs = s.ctxs := rfl
@[simp] theorem State.say_dies (s : State) (m : OutMsg) : (s.say m).dies = s.dies := rfl
@[simp] theorem State.say_cores (s : State) (m : OutMsg) : (s.say m).cores = s.cores := rfl
@[simp] theorem State.say_teams (s : State) (m : OutMsg) : (s.say m).teams = s.teams := rfl
@[simp] theorem State.say_groups (s : State) (m : OutMsg) : (s.say m).groups = s.groups := rfl
@[simp] theorem State.say_dir (s : State) (m : OutMsg) : (s.say m).dir = s.dir := rfl
@[simp] theorem State.say_net (s : State) (m : OutMsg) : (s.say m).net = s.net := rfl
@[simp] theorem State.say_tags (s : State) (m : OutMsg) : (s.say m).tags = s.tags := rfl
@[simp] theorem State.say_outbox (s : State) (m : OutMsg) : (s.say m).outbox = s.outbox ++ [m] := rfl
@[simp] theorem State.say_io (s : State) (m : OutMsg) : (s.say m).io = s.io := rfl

@[simp] theorem State.send_part (s : State) (m : Msg) : (s.send m).part = s.part := rfl
@[simp] theorem State.send_agenda (s : State) (m : Msg) : (s.send m).agenda = s.agenda := rfl
@[simp] theorem State.send_free (s : State) (m : Msg) : (s.send m).free = s.free := rfl
@[simp] theorem State.send_seq (s : State) (m : Msg) : (s.send m).seq = s.seq := rfl
@[simp] theorem State.send_cur (s : State) (m : Msg) : (s.send m).cur = s.cur := rfl
@[simp] theorem State.send_mem (s : State) (m : Msg) : (s.send m).mem = s.mem := rfl
@[simp] theorem State.send_poison (s : State) (m : Msg) : (s.send m).poison = s.poison := rfl
@[simp] theorem State.send_enc (s : State) (m : Msg) : (s.send m).enc = s.enc := rfl
@[simp] theorem State.send_keys (s : State) (m : Msg) : (s.send m).keys = s.keys := rfl
@[simp] theorem State.send_keytag (s : State) (m : Msg) : (s.send m).keytag = s.keytag := rfl
@[simp] theorem State.send_regs (s : State) (m : Msg) : (s.send m).regs = s.regs := rfl
@[simp] theorem State.send_ctxs (s : State) (m : Msg) : (s.send m).ctxs = s.ctxs := rfl
@[simp] theorem State.send_dies (s : State) (m : Msg) : (s.send m).dies = s.dies := rfl
@[simp] theorem State.send_cores (s : State) (m : Msg) : (s.send m).cores = s.cores := rfl
@[simp] theorem State.send_teams (s : State) (m : Msg) : (s.send m).teams = s.teams := rfl
@[simp] theorem State.send_groups (s : State) (m : Msg) : (s.send m).groups = s.groups := rfl
@[simp] theorem State.send_dir (s : State) (m : Msg) : (s.send m).dir = s.dir := rfl
@[simp] theorem State.send_net (s : State) (m : Msg) : (s.send m).net = s.net ++ [m] := rfl
@[simp] theorem State.send_tags (s : State) (m : Msg) : (s.send m).tags = if isReq m.kind then s.tags ++ [⟨m, slackOf s m.core, 0, 0, s.seq, false⟩] else s.tags := rfl
@[simp] theorem State.send_outbox (s : State) (m : Msg) : (s.send m).outbox = s.outbox := rfl
@[simp] theorem State.send_io (s : State) (m : Msg) : (s.send m).io = s.io := rfl

@[simp] theorem State.tick_part (s : State) : (s.tick).part = s.part := rfl
@[simp] theorem State.tick_agenda (s : State) : (s.tick).agenda = s.agenda := rfl
@[simp] theorem State.tick_free (s : State) : (s.tick).free = s.free := rfl
@[simp] theorem State.tick_seq (s : State) : (s.tick).seq = s.seq + 1 := rfl
@[simp] theorem State.tick_cur (s : State) : (s.tick).cur = s.cur := rfl
@[simp] theorem State.tick_mem (s : State) : (s.tick).mem = s.mem := rfl
@[simp] theorem State.tick_poison (s : State) : (s.tick).poison = s.poison := rfl
@[simp] theorem State.tick_enc (s : State) : (s.tick).enc = s.enc := rfl
@[simp] theorem State.tick_keys (s : State) : (s.tick).keys = s.keys := rfl
@[simp] theorem State.tick_keytag (s : State) : (s.tick).keytag = s.keytag := rfl
@[simp] theorem State.tick_regs (s : State) : (s.tick).regs = s.regs := rfl
@[simp] theorem State.tick_ctxs (s : State) : (s.tick).ctxs = s.ctxs := rfl
@[simp] theorem State.tick_dies (s : State) : (s.tick).dies = s.dies := rfl
@[simp] theorem State.tick_cores (s : State) : (s.tick).cores = s.cores := rfl
@[simp] theorem State.tick_teams (s : State) : (s.tick).teams = s.teams := rfl
@[simp] theorem State.tick_groups (s : State) : (s.tick).groups = s.groups := rfl
@[simp] theorem State.tick_dir (s : State) : (s.tick).dir = s.dir := rfl
@[simp] theorem State.tick_net (s : State) : (s.tick).net = s.net := rfl
@[simp] theorem State.tick_tags (s : State) : (s.tick).tags = s.tags := rfl
@[simp] theorem State.tick_outbox (s : State) : (s.tick).outbox = s.outbox := rfl
@[simp] theorem State.tick_io (s : State) : (s.tick).io = s.io := rfl

@[simp] theorem State.draw_part (s : State) : (s.draw).part = s.part := rfl
@[simp] theorem State.draw_agenda (s : State) : (s.draw).agenda = s.agenda := rfl
@[simp] theorem State.draw_free (s : State) : (s.draw).free = s.free + 1 := rfl
@[simp] theorem State.draw_seq (s : State) : (s.draw).seq = s.seq := rfl
@[simp] theorem State.draw_cur (s : State) : (s.draw).cur = s.cur := rfl
@[simp] theorem State.draw_mem (s : State) : (s.draw).mem = s.mem := rfl
@[simp] theorem State.draw_poison (s : State) : (s.draw).poison = s.poison := rfl
@[simp] theorem State.draw_enc (s : State) : (s.draw).enc = s.enc := rfl
@[simp] theorem State.draw_keys (s : State) : (s.draw).keys = s.keys := rfl
@[simp] theorem State.draw_keytag (s : State) : (s.draw).keytag = s.keytag := rfl
@[simp] theorem State.draw_regs (s : State) : (s.draw).regs = s.regs := rfl
@[simp] theorem State.draw_ctxs (s : State) : (s.draw).ctxs = s.ctxs := rfl
@[simp] theorem State.draw_dies (s : State) : (s.draw).dies = s.dies := rfl
@[simp] theorem State.draw_cores (s : State) : (s.draw).cores = s.cores := rfl
@[simp] theorem State.draw_teams (s : State) : (s.draw).teams = s.teams := rfl
@[simp] theorem State.draw_groups (s : State) : (s.draw).groups = s.groups := rfl
@[simp] theorem State.draw_dir (s : State) : (s.draw).dir = s.dir := rfl
@[simp] theorem State.draw_net (s : State) : (s.draw).net = s.net := rfl
@[simp] theorem State.draw_tags (s : State) : (s.draw).tags = s.tags := rfl
@[simp] theorem State.draw_outbox (s : State) : (s.draw).outbox = s.outbox := rfl
@[simp] theorem State.draw_io (s : State) : (s.draw).io = s.io := rfl

@[simp] theorem State.setCg_part (s : State) (g : Group) : (s.setCg g).part = s.part := rfl
@[simp] theorem State.setCg_agenda (s : State) (g : Group) : (s.setCg g).agenda = s.agenda := rfl
@[simp] theorem State.setCg_free (s : State) (g : Group) : (s.setCg g).free = s.free := rfl
@[simp] theorem State.setCg_seq (s : State) (g : Group) : (s.setCg g).seq = s.seq := rfl
@[simp] theorem State.setCg_cur (s : State) (g : Group) : (s.setCg g).cur = s.cur := rfl
@[simp] theorem State.setCg_mem (s : State) (g : Group) : (s.setCg g).mem = s.mem := rfl
@[simp] theorem State.setCg_poison (s : State) (g : Group) : (s.setCg g).poison = s.poison := rfl
@[simp] theorem State.setCg_enc (s : State) (g : Group) : (s.setCg g).enc = s.enc := rfl
@[simp] theorem State.setCg_keys (s : State) (g : Group) : (s.setCg g).keys = s.keys := rfl
@[simp] theorem State.setCg_keytag (s : State) (g : Group) : (s.setCg g).keytag = s.keytag := rfl
@[simp] theorem State.setCg_regs (s : State) (g : Group) : (s.setCg g).regs = s.regs := rfl
@[simp] theorem State.setCg_ctxs (s : State) (g : Group) : (s.setCg g).ctxs = s.ctxs := rfl
@[simp] theorem State.setCg_dies (s : State) (g : Group) : (s.setCg g).dies = s.dies := rfl
@[simp] theorem State.setCg_cores (s : State) (g : Group) : (s.setCg g).cores = s.cores := rfl
@[simp] theorem State.setCg_teams (s : State) (g : Group) : (s.setCg g).teams = s.teams := rfl
@[simp] theorem State.setCg_groups (s : State) (g : Group) : (s.setCg g).groups = mset Group.init s.groups s.cur.gh g := rfl
@[simp] theorem State.setCg_dir (s : State) (g : Group) : (s.setCg g).dir = s.dir := rfl
@[simp] theorem State.setCg_net (s : State) (g : Group) : (s.setCg g).net = s.net := rfl
@[simp] theorem State.setCg_tags (s : State) (g : Group) : (s.setCg g).tags = s.tags := rfl
@[simp] theorem State.setCg_outbox (s : State) (g : Group) : (s.setCg g).outbox = s.outbox := rfl
@[simp] theorem State.setCg_io (s : State) (g : Group) : (s.setCg g).io = s.io := rfl

@[simp] theorem State.setSp_part (s : State) (p : Split) : (s.setSp p).part = s.part := rfl
@[simp] theorem State.setSp_agenda (s : State) (p : Split) : (s.setSp p).agenda = s.agenda := rfl
@[simp] theorem State.setSp_free (s : State) (p : Split) : (s.setSp p).free = s.free := rfl
@[simp] theorem State.setSp_seq (s : State) (p : Split) : (s.setSp p).seq = s.seq := rfl
@[simp] theorem State.setSp_cur (s : State) (p : Split) : (s.setSp p).cur = s.cur := rfl
@[simp] theorem State.setSp_mem (s : State) (p : Split) : (s.setSp p).mem = s.mem := rfl
@[simp] theorem State.setSp_poison (s : State) (p : Split) : (s.setSp p).poison = s.poison := rfl
@[simp] theorem State.setSp_enc (s : State) (p : Split) : (s.setSp p).enc = s.enc := rfl
@[simp] theorem State.setSp_keys (s : State) (p : Split) : (s.setSp p).keys = s.keys := rfl
@[simp] theorem State.setSp_keytag (s : State) (p : Split) : (s.setSp p).keytag = s.keytag := rfl
@[simp] theorem State.setSp_regs (s : State) (p : Split) : (s.setSp p).regs = s.regs := rfl
@[simp] theorem State.setSp_ctxs (s : State) (p : Split) : (s.setSp p).ctxs = s.ctxs := rfl
@[simp] theorem State.setSp_dies (s : State) (p : Split) : (s.setSp p).dies = s.dies := rfl
@[simp] theorem State.setSp_cores (s : State) (p : Split) : (s.setSp p).cores = s.cores := rfl
@[simp] theorem State.setSp_teams (s : State) (p : Split) : (s.setSp p).teams = s.teams := rfl
@[simp] theorem State.setSp_groups (s : State) (p : Split) : (s.setSp p).groups = mset Group.init s.groups s.cur.gh { s.cg with splits := setAt s.cg.splits s.cur.sp p } := rfl
@[simp] theorem State.setSp_dir (s : State) (p : Split) : (s.setSp p).dir = s.dir := rfl
@[simp] theorem State.setSp_net (s : State) (p : Split) : (s.setSp p).net = s.net := rfl
@[simp] theorem State.setSp_tags (s : State) (p : Split) : (s.setSp p).tags = s.tags := rfl
@[simp] theorem State.setSp_outbox (s : State) (p : Split) : (s.setSp p).outbox = s.outbox := rfl
@[simp] theorem State.setSp_io (s : State) (p : Split) : (s.setSp p).io = s.io := rfl

/-! The accessors. -/

@[simp] theorem State.setGrp_core (s : State) (gh : Nat) (g : Group) (i : Nat) : (s.setGrp gh g).core i = s.core i := rfl
@[simp] theorem State.setGrp_team (s : State) (gh : Nat) (g : Group) (i : Nat) : (s.setGrp gh g).team i = s.team i := rfl
@[simp] theorem State.setGrp_ctx (s : State) (gh : Nat) (g : Group) (i : Nat) : (s.setGrp gh g).ctx i = s.ctx i := rfl
@[simp] theorem State.setGrp_die (s : State) (gh : Nat) (g : Group) (i : Nat) : (s.setGrp gh g).die i = s.die i := rfl
@[simp] theorem State.setGrp_dirE (s : State) (gh : Nat) (g : Group) (i : Nat) : (s.setGrp gh g).dirE i = s.dirE i := rfl
@[simp] theorem State.setGrp_reg (s : State) (gh : Nat) (g : Group) (i : Nat) : (s.setGrp gh g).reg i = s.reg i := rfl
@[simp] theorem State.setCore_grp (s : State) (c : Nat) (k : CoreSt) (i : Nat) : (s.setCore c k).grp i = s.grp i := rfl
@[simp] theorem State.setCore_team (s : State) (c : Nat) (k : CoreSt) (i : Nat) : (s.setCore c k).team i = s.team i := rfl
@[simp] theorem State.setCore_ctx (s : State) (c : Nat) (k : CoreSt) (i : Nat) : (s.setCore c k).ctx i = s.ctx i := rfl
@[simp] theorem State.setCore_die (s : State) (c : Nat) (k : CoreSt) (i : Nat) : (s.setCore c k).die i = s.die i := rfl
@[simp] theorem State.setCore_dirE (s : State) (c : Nat) (k : CoreSt) (i : Nat) : (s.setCore c k).dirE i = s.dirE i := rfl
@[simp] theorem State.setCore_reg (s : State) (c : Nat) (k : CoreSt) (i : Nat) : (s.setCore c k).reg i = s.reg i := rfl
@[simp] theorem State.setCore_cg (s : State) (c : Nat) (k : CoreSt) : (s.setCore c k).cg = s.cg := rfl
@[simp] theorem State.setCore_sp (s : State) (c : Nat) (k : CoreSt) : (s.setCore c k).sp = s.sp := rfl
@[simp] theorem State.setTeam_grp (s : State) (t : Nat) (x : Team) (i : Nat) : (s.setTeam t x).grp i = s.grp i := rfl
@[simp] theorem State.setTeam_core (s : State) (t : Nat) (x : Team) (i : Nat) : (s.setTeam t x).core i = s.core i := rfl
@[simp] theorem State.setTeam_ctx (s : State) (t : Nat) (x : Team) (i : Nat) : (s.setTeam t x).ctx i = s.ctx i := rfl
@[simp] theorem State.setTeam_die (s : State) (t : Nat) (x : Team) (i : Nat) : (s.setTeam t x).die i = s.die i := rfl
@[simp] theorem State.setTeam_dirE (s : State) (t : Nat) (x : Team) (i : Nat) : (s.setTeam t x).dirE i = s.dirE i := rfl
@[simp] theorem State.setTeam_reg (s : State) (t : Nat) (x : Team) (i : Nat) : (s.setTeam t x).reg i = s.reg i := rfl
@[simp] theorem State.setTeam_cg (s : State) (t : Nat) (x : Team) : (s.setTeam t x).cg = s.cg := rfl
@[simp] theorem State.setTeam_sp (s : State) (t : Nat) (x : Team) : (s.setTeam t x).sp = s.sp := rfl
@[simp] theorem State.setCtx_grp (s : State) (c : Nat) (x : Ctx) (i : Nat) : (s.setCtx c x).grp i = s.grp i := rfl
@[simp] theorem State.setCtx_core (s : State) (c : Nat) (x : Ctx) (i : Nat) : (s.setCtx c x).core i = s.core i := rfl
@[simp] theorem State.setCtx_team (s : State) (c : Nat) (x : Ctx) (i : Nat) : (s.setCtx c x).team i = s.team i := rfl
@[simp] theorem State.setCtx_die (s : State) (c : Nat) (x : Ctx) (i : Nat) : (s.setCtx c x).die i = s.die i := rfl
@[simp] theorem State.setCtx_dirE (s : State) (c : Nat) (x : Ctx) (i : Nat) : (s.setCtx c x).dirE i = s.dirE i := rfl
@[simp] theorem State.setCtx_reg (s : State) (c : Nat) (x : Ctx) (i : Nat) : (s.setCtx c x).reg i = s.reg i := rfl
@[simp] theorem State.setCtx_cg (s : State) (c : Nat) (x : Ctx) : (s.setCtx c x).cg = s.cg := rfl
@[simp] theorem State.setCtx_sp (s : State) (c : Nat) (x : Ctx) : (s.setCtx c x).sp = s.sp := rfl
@[simp] theorem State.setDie_grp (s : State) (d : Nat) (x : Die) (i : Nat) : (s.setDie d x).grp i = s.grp i := rfl
@[simp] theorem State.setDie_core (s : State) (d : Nat) (x : Die) (i : Nat) : (s.setDie d x).core i = s.core i := rfl
@[simp] theorem State.setDie_team (s : State) (d : Nat) (x : Die) (i : Nat) : (s.setDie d x).team i = s.team i := rfl
@[simp] theorem State.setDie_ctx (s : State) (d : Nat) (x : Die) (i : Nat) : (s.setDie d x).ctx i = s.ctx i := rfl
@[simp] theorem State.setDie_dirE (s : State) (d : Nat) (x : Die) (i : Nat) : (s.setDie d x).dirE i = s.dirE i := rfl
@[simp] theorem State.setDie_reg (s : State) (d : Nat) (x : Die) (i : Nat) : (s.setDie d x).reg i = s.reg i := rfl
@[simp] theorem State.setDie_cg (s : State) (d : Nat) (x : Die) : (s.setDie d x).cg = s.cg := rfl
@[simp] theorem State.setDie_sp (s : State) (d : Nat) (x : Die) : (s.setDie d x).sp = s.sp := rfl
@[simp] theorem State.setDirE_grp (s : State) (l : Nat) (e : DirEnt) (i : Nat) : (s.setDirE l e).grp i = s.grp i := rfl
@[simp] theorem State.setDirE_core (s : State) (l : Nat) (e : DirEnt) (i : Nat) : (s.setDirE l e).core i = s.core i := rfl
@[simp] theorem State.setDirE_team (s : State) (l : Nat) (e : DirEnt) (i : Nat) : (s.setDirE l e).team i = s.team i := rfl
@[simp] theorem State.setDirE_ctx (s : State) (l : Nat) (e : DirEnt) (i : Nat) : (s.setDirE l e).ctx i = s.ctx i := rfl
@[simp] theorem State.setDirE_die (s : State) (l : Nat) (e : DirEnt) (i : Nat) : (s.setDirE l e).die i = s.die i := rfl
@[simp] theorem State.setDirE_reg (s : State) (l : Nat) (e : DirEnt) (i : Nat) : (s.setDirE l e).reg i = s.reg i := rfl
@[simp] theorem State.setDirE_cg (s : State) (l : Nat) (e : DirEnt) : (s.setDirE l e).cg = s.cg := rfl
@[simp] theorem State.setDirE_sp (s : State) (l : Nat) (e : DirEnt) : (s.setDirE l e).sp = s.sp := rfl
@[simp] theorem State.setReg_grp (s : State) (o : Nat) (x : Word64) (i : Nat) : (s.setReg o x).grp i = s.grp i := rfl
@[simp] theorem State.setReg_core (s : State) (o : Nat) (x : Word64) (i : Nat) : (s.setReg o x).core i = s.core i := rfl
@[simp] theorem State.setReg_team (s : State) (o : Nat) (x : Word64) (i : Nat) : (s.setReg o x).team i = s.team i := rfl
@[simp] theorem State.setReg_ctx (s : State) (o : Nat) (x : Word64) (i : Nat) : (s.setReg o x).ctx i = s.ctx i := rfl
@[simp] theorem State.setReg_die (s : State) (o : Nat) (x : Word64) (i : Nat) : (s.setReg o x).die i = s.die i := rfl
@[simp] theorem State.setReg_dirE (s : State) (o : Nat) (x : Word64) (i : Nat) : (s.setReg o x).dirE i = s.dirE i := rfl
@[simp] theorem State.setReg_cg (s : State) (o : Nat) (x : Word64) : (s.setReg o x).cg = s.cg := rfl
@[simp] theorem State.setReg_sp (s : State) (o : Nat) (x : Word64) : (s.setReg o x).sp = s.sp := rfl
@[simp] theorem State.say_grp (s : State) (m : OutMsg) (i : Nat) : (s.say m).grp i = s.grp i := rfl
@[simp] theorem State.say_core (s : State) (m : OutMsg) (i : Nat) : (s.say m).core i = s.core i := rfl
@[simp] theorem State.say_team (s : State) (m : OutMsg) (i : Nat) : (s.say m).team i = s.team i := rfl
@[simp] theorem State.say_ctx (s : State) (m : OutMsg) (i : Nat) : (s.say m).ctx i = s.ctx i := rfl
@[simp] theorem State.say_die (s : State) (m : OutMsg) (i : Nat) : (s.say m).die i = s.die i := rfl
@[simp] theorem State.say_dirE (s : State) (m : OutMsg) (i : Nat) : (s.say m).dirE i = s.dirE i := rfl
@[simp] theorem State.say_reg (s : State) (m : OutMsg) (i : Nat) : (s.say m).reg i = s.reg i := rfl
@[simp] theorem State.say_cg (s : State) (m : OutMsg) : (s.say m).cg = s.cg := rfl
@[simp] theorem State.say_sp (s : State) (m : OutMsg) : (s.say m).sp = s.sp := rfl
@[simp] theorem State.send_grp (s : State) (m : Msg) (i : Nat) : (s.send m).grp i = s.grp i := rfl
@[simp] theorem State.send_core (s : State) (m : Msg) (i : Nat) : (s.send m).core i = s.core i := rfl
@[simp] theorem State.send_team (s : State) (m : Msg) (i : Nat) : (s.send m).team i = s.team i := rfl
@[simp] theorem State.send_ctx (s : State) (m : Msg) (i : Nat) : (s.send m).ctx i = s.ctx i := rfl
@[simp] theorem State.send_die (s : State) (m : Msg) (i : Nat) : (s.send m).die i = s.die i := rfl
@[simp] theorem State.send_dirE (s : State) (m : Msg) (i : Nat) : (s.send m).dirE i = s.dirE i := rfl
@[simp] theorem State.send_reg (s : State) (m : Msg) (i : Nat) : (s.send m).reg i = s.reg i := rfl
@[simp] theorem State.send_cg (s : State) (m : Msg) : (s.send m).cg = s.cg := rfl
@[simp] theorem State.send_sp (s : State) (m : Msg) : (s.send m).sp = s.sp := rfl
@[simp] theorem State.tick_grp (s : State) (i : Nat) : (s.tick).grp i = s.grp i := rfl
@[simp] theorem State.tick_core (s : State) (i : Nat) : (s.tick).core i = s.core i := rfl
@[simp] theorem State.tick_team (s : State) (i : Nat) : (s.tick).team i = s.team i := rfl
@[simp] theorem State.tick_ctx (s : State) (i : Nat) : (s.tick).ctx i = s.ctx i := rfl
@[simp] theorem State.tick_die (s : State) (i : Nat) : (s.tick).die i = s.die i := rfl
@[simp] theorem State.tick_dirE (s : State) (i : Nat) : (s.tick).dirE i = s.dirE i := rfl
@[simp] theorem State.tick_reg (s : State) (i : Nat) : (s.tick).reg i = s.reg i := rfl
@[simp] theorem State.tick_cg (s : State) : (s.tick).cg = s.cg := rfl
@[simp] theorem State.tick_sp (s : State) : (s.tick).sp = s.sp := rfl
@[simp] theorem State.draw_grp (s : State) (i : Nat) : (s.draw).grp i = s.grp i := rfl
@[simp] theorem State.draw_core (s : State) (i : Nat) : (s.draw).core i = s.core i := rfl
@[simp] theorem State.draw_team (s : State) (i : Nat) : (s.draw).team i = s.team i := rfl
@[simp] theorem State.draw_ctx (s : State) (i : Nat) : (s.draw).ctx i = s.ctx i := rfl
@[simp] theorem State.draw_die (s : State) (i : Nat) : (s.draw).die i = s.die i := rfl
@[simp] theorem State.draw_dirE (s : State) (i : Nat) : (s.draw).dirE i = s.dirE i := rfl
@[simp] theorem State.draw_reg (s : State) (i : Nat) : (s.draw).reg i = s.reg i := rfl
@[simp] theorem State.draw_cg (s : State) : (s.draw).cg = s.cg := rfl
@[simp] theorem State.draw_sp (s : State) : (s.draw).sp = s.sp := rfl
@[simp] theorem State.setCg_core (s : State) (g : Group) (i : Nat) : (s.setCg g).core i = s.core i := rfl
@[simp] theorem State.setCg_team (s : State) (g : Group) (i : Nat) : (s.setCg g).team i = s.team i := rfl
@[simp] theorem State.setCg_ctx (s : State) (g : Group) (i : Nat) : (s.setCg g).ctx i = s.ctx i := rfl
@[simp] theorem State.setCg_die (s : State) (g : Group) (i : Nat) : (s.setCg g).die i = s.die i := rfl
@[simp] theorem State.setCg_dirE (s : State) (g : Group) (i : Nat) : (s.setCg g).dirE i = s.dirE i := rfl
@[simp] theorem State.setCg_reg (s : State) (g : Group) (i : Nat) : (s.setCg g).reg i = s.reg i := rfl
@[simp] theorem State.setSp_core (s : State) (p : Split) (i : Nat) : (s.setSp p).core i = s.core i := rfl
@[simp] theorem State.setSp_team (s : State) (p : Split) (i : Nat) : (s.setSp p).team i = s.team i := rfl
@[simp] theorem State.setSp_ctx (s : State) (p : Split) (i : Nat) : (s.setSp p).ctx i = s.ctx i := rfl
@[simp] theorem State.setSp_die (s : State) (p : Split) (i : Nat) : (s.setSp p).die i = s.die i := rfl
@[simp] theorem State.setSp_dirE (s : State) (p : Split) (i : Nat) : (s.setSp p).dirE i = s.dirE i := rfl
@[simp] theorem State.setSp_reg (s : State) (p : Split) (i : Nat) : (s.setSp p).reg i = s.reg i := rfl

@[simp] theorem State.grp_setGrp (s : State) (gh : Nat) (g : Group) : (s.setGrp gh g).grp gh = g := mget_mset_same _ _ _ _
theorem State.grp_setGrp_ne (s : State) {gh i : Nat} (g : Group) (h : i ≠ gh) : (s.setGrp gh g).grp i = s.grp i := mget_mset_ne _ _ _ h
@[simp] theorem State.core_setCore (s : State) (c : Nat) (k : CoreSt) : (s.setCore c k).core c = k := mget_mset_same _ _ _ _
theorem State.core_setCore_ne (s : State) {c i : Nat} (k : CoreSt) (h : i ≠ c) : (s.setCore c k).core i = s.core i := mget_mset_ne _ _ _ h
@[simp] theorem State.team_setTeam (s : State) (t : Nat) (x : Team) : (s.setTeam t x).team t = x := mget_mset_same _ _ _ _
theorem State.team_setTeam_ne (s : State) {t i : Nat} (x : Team) (h : i ≠ t) : (s.setTeam t x).team i = s.team i := mget_mset_ne _ _ _ h
@[simp] theorem State.ctx_setCtx (s : State) (c : Nat) (x : Ctx) : (s.setCtx c x).ctx c = x := mget_mset_same _ _ _ _
theorem State.ctx_setCtx_ne (s : State) {c i : Nat} (x : Ctx) (h : i ≠ c) : (s.setCtx c x).ctx i = s.ctx i := mget_mset_ne _ _ _ h
@[simp] theorem State.die_setDie (s : State) (d : Nat) (x : Die) : (s.setDie d x).die d = x := mget_mset_same _ _ _ _
@[simp] theorem State.dirE_setDirE (s : State) (l : Nat) (e : DirEnt) : (s.setDirE l e).dirE l = e := mget_mset_same _ _ _ _
@[simp] theorem State.reg_setReg (s : State) (o : Nat) (x : Word64) : (s.setReg o x).reg o = x := by
  simp [State.reg, State.setReg]
theorem State.reg_setReg_ne (s : State) {o i : Nat} (x : Word64) (h : i ≠ o) : (s.setReg o x).reg i = s.reg i := by
  simp [State.reg, State.setReg, mget_mset_ne _ _ _ h]
@[simp] theorem State.cg_setCg (s : State) (g : Group) : (s.setCg g).cg = g := mget_mset_same _ _ _ _
theorem State.grp_setCg_ne (s : State) {i : Nat} (g : Group) (h : i ≠ s.cur.gh) : (s.setCg g).grp i = s.grp i := mget_mset_ne _ _ _ h
@[simp] theorem State.cg_setSp (s : State) (p : Split) : (s.setSp p).cg = { s.cg with splits := setAt s.cg.splits s.cur.sp p } := mget_mset_same _ _ _ _
theorem State.sp_setSp (s : State) (p : Split) (h : s.cur.sp < s.cg.splits.length) : (s.setSp p).sp = p := by
  simp only [State.sp, State.cg_setSp, State.setSp_cur]
  exact nthD_setAt_same _ _ _ _ h
@[simp] theorem State.rdByte_setGrp (s : State) (gh : Nat) (g : Group) (a : Nat) : (s.setGrp gh g).rdByte a = s.rdByte a := rfl
@[simp] theorem State.rdByte_setCg (s : State) (g : Group) (a : Nat) : (s.setCg g).rdByte a = s.rdByte a := rfl
@[simp] theorem State.rdByte_setSp (s : State) (p : Split) (a : Nat) : (s.setSp p).rdByte a = s.rdByte a := rfl
@[simp] theorem State.rdByte_setCore (s : State) (c : Nat) (k : CoreSt) (a : Nat) : (s.setCore c k).rdByte a = s.rdByte a := rfl

/-! Updates of a group. -/

@[simp] theorem Group.wS_team (g : Group) (k : Nat) (x : Word64) : (g.wS k x).team = g.team := by unfold Group.wS; split <;> rfl
@[simp] theorem Group.wS_idx (g : Group) (k : Nat) (x : Word64) : (g.wS k x).idx = g.idx := by unfold Group.wS; split <;> rfl
@[simp] theorem Group.wS_stage (g : Group) (k : Nat) (x : Word64) : (g.wS k x).stage = g.stage := by unfold Group.wS; split <;> rfl
@[simp] theorem Group.wS_allot (g : Group) (k : Nat) (x : Word64) : (g.wS k x).allot = g.allot := by unfold Group.wS; split <;> rfl
@[simp] theorem Group.wS_part (g : Group) (k : Nat) (x : Word64) : (g.wS k x).part = g.part := by unfold Group.wS; split <;> rfl
@[simp] theorem Group.wS_v (g : Group) (k : Nat) (x : Word64) : (g.wS k x).v = g.v := by unfold Group.wS; split <;> rfl
@[simp] theorem Group.wS_q (g : Group) (k : Nat) (x : Word64) : (g.wS k x).q = g.q := by unfold Group.wS; split <;> rfl
@[simp] theorem Group.wS_j (g : Group) (k : Nat) (x : Word64) : (g.wS k x).j = g.j := by unfold Group.wS; split <;> rfl
@[simp] theorem Group.wS_status (g : Group) (k : Nat) (x : Word64) : (g.wS k x).status = g.status := by unfold Group.wS; split <;> rfl
@[simp] theorem Group.wS_done (g : Group) (k : Nat) (x : Word64) : (g.wS k x).done = g.done := by unfold Group.wS; split <;> rfl
@[simp] theorem Group.wS_exited (g : Group) (k : Nat) (x : Word64) : (g.wS k x).exited = g.exited := by unfold Group.wS; split <;> rfl
@[simp] theorem Group.wS_tags (g : Group) (k : Nat) (x : Word64) : (g.wS k x).tags = g.tags := by unfold Group.wS; split <;> rfl
@[simp] theorem Group.wS_nrm (g : Group) (k : Nat) (x : Word64) : (g.wS k x).nrm = g.nrm := by unfold Group.wS; split <;> rfl
@[simp] theorem Group.wS_trapen (g : Group) (k : Nat) (x : Word64) : (g.wS k x).trapen = g.trapen := by unfold Group.wS; split <;> rfl
@[simp] theorem Group.wS_dstrm (g : Group) (k : Nat) (x : Word64) : (g.wS k x).dstrm = g.dstrm := by unfold Group.wS; split <;> rfl
@[simp] theorem Group.wS_misc (g : Group) (k : Nat) (x : Word64) : (g.wS k x).misc = g.misc := by unfold Group.wS; split <;> rfl
@[simp] theorem Group.wS_tx (g : Group) (k : Nat) (x : Word64) : (g.wS k x).tx = g.tx := by unfold Group.wS; split <;> rfl
@[simp] theorem Group.wS_frame (g : Group) (k : Nat) (x : Word64) : (g.wS k x).frame = g.frame := by unfold Group.wS; split <;> rfl
@[simp] theorem Group.wS_splits (g : Group) (k : Nat) (x : Word64) : (g.wS k x).splits = g.splits := by unfold Group.wS; split <;> rfl
@[simp] theorem Group.wS_defer (g : Group) (k : Nat) (x : Word64) : (g.wS k x).defer = g.defer := by unfold Group.wS; split <;> rfl
@[simp] theorem Group.wS_spills (g : Group) (k : Nat) (x : Word64) : (g.wS k x).spills = g.spills := by unfold Group.wS; split <;> rfl
@[simp] theorem Group.wS_spillFrom (g : Group) (k : Nat) (x : Word64) : (g.wS k x).spillFrom = g.spillFrom := by unfold Group.wS; split <;> rfl
@[simp] theorem Group.wS_vpois (g : Group) (k : Nat) (x : Word64) : (g.wS k x).vpois = g.vpois := by unfold Group.wS; split <;> rfl
@[simp] theorem Group.wS_pushes (g : Group) (k : Nat) (x : Word64) : (g.wS k x).pushes = g.pushes := by unfold Group.wS; split <;> rfl
@[simp] theorem Group.wS_frel (g : Group) (k : Nat) (x : Word64) : (g.wS k x).frel = g.frel := by unfold Group.wS; split <;> rfl
@[simp] theorem Group.wS_stopped (g : Group) (k : Nat) (x : Word64) : (g.wS k x).stopped = g.stopped := by unfold Group.wS; split <;> rfl
@[simp] theorem Group.wS_isNative (g : Group) (k : Nat) (x : Word64) : (g.wS k x).isNative = g.isNative := by unfold Group.wS; split <;> rfl
@[simp] theorem Group.wS_retired (g : Group) (k : Nat) (x : Word64) : (g.wS k x).retired = g.retired := by unfold Group.wS; split <;> rfl

@[simp] theorem Group.wV_team (g : Group) (r l : Nat) (x : Word64) : (g.wV r l x).team = g.team := rfl
@[simp] theorem Group.wV_idx (g : Group) (r l : Nat) (x : Word64) : (g.wV r l x).idx = g.idx := rfl
@[simp] theorem Group.wV_stage (g : Group) (r l : Nat) (x : Word64) : (g.wV r l x).stage = g.stage := rfl
@[simp] theorem Group.wV_allot (g : Group) (r l : Nat) (x : Word64) : (g.wV r l x).allot = g.allot := rfl
@[simp] theorem Group.wV_part (g : Group) (r l : Nat) (x : Word64) : (g.wV r l x).part = g.part := rfl
@[simp] theorem Group.wV_s (g : Group) (r l : Nat) (x : Word64) : (g.wV r l x).s = g.s := rfl
@[simp] theorem Group.wV_q (g : Group) (r l : Nat) (x : Word64) : (g.wV r l x).q = g.q := rfl
@[simp] theorem Group.wV_j (g : Group) (r l : Nat) (x : Word64) : (g.wV r l x).j = g.j := rfl
@[simp] theorem Group.wV_status (g : Group) (r l : Nat) (x : Word64) : (g.wV r l x).status = g.status := rfl
@[simp] theorem Group.wV_done (g : Group) (r l : Nat) (x : Word64) : (g.wV r l x).done = g.done := rfl
@[simp] theorem Group.wV_exited (g : Group) (r l : Nat) (x : Word64) : (g.wV r l x).exited = g.exited := rfl
@[simp] theorem Group.wV_tags (g : Group) (r l : Nat) (x : Word64) : (g.wV r l x).tags = g.tags := rfl
@[simp] theorem Group.wV_nrm (g : Group) (r l : Nat) (x : Word64) : (g.wV r l x).nrm = g.nrm := rfl
@[simp] theorem Group.wV_trapen (g : Group) (r l : Nat) (x : Word64) : (g.wV r l x).trapen = g.trapen := rfl
@[simp] theorem Group.wV_dstrm (g : Group) (r l : Nat) (x : Word64) : (g.wV r l x).dstrm = g.dstrm := rfl
@[simp] theorem Group.wV_misc (g : Group) (r l : Nat) (x : Word64) : (g.wV r l x).misc = g.misc := rfl
@[simp] theorem Group.wV_tx (g : Group) (r l : Nat) (x : Word64) : (g.wV r l x).tx = g.tx := rfl
@[simp] theorem Group.wV_frame (g : Group) (r l : Nat) (x : Word64) : (g.wV r l x).frame = g.frame := rfl
@[simp] theorem Group.wV_splits (g : Group) (r l : Nat) (x : Word64) : (g.wV r l x).splits = g.splits := rfl
@[simp] theorem Group.wV_defer (g : Group) (r l : Nat) (x : Word64) : (g.wV r l x).defer = g.defer := rfl
@[simp] theorem Group.wV_spills (g : Group) (r l : Nat) (x : Word64) : (g.wV r l x).spills = g.spills := rfl
@[simp] theorem Group.wV_spillFrom (g : Group) (r l : Nat) (x : Word64) : (g.wV r l x).spillFrom = g.spillFrom := rfl
@[simp] theorem Group.wV_pushes (g : Group) (r l : Nat) (x : Word64) : (g.wV r l x).pushes = g.pushes := rfl
@[simp] theorem Group.wV_frel (g : Group) (r l : Nat) (x : Word64) : (g.wV r l x).frel = g.frel := rfl
@[simp] theorem Group.wV_stopped (g : Group) (r l : Nat) (x : Word64) : (g.wV r l x).stopped = g.stopped := rfl
@[simp] theorem Group.wV_isNative (g : Group) (r l : Nat) (x : Word64) : (g.wV r l x).isNative = g.isNative := rfl
@[simp] theorem Group.wV_retired (g : Group) (r l : Nat) (x : Word64) : (g.wV r l x).retired = g.retired := rfl

@[simp] theorem Group.wQ_team (g : Group) (p l : Nat) (x : Tri) : (g.wQ p l x).team = g.team := rfl
@[simp] theorem Group.wQ_idx (g : Group) (p l : Nat) (x : Tri) : (g.wQ p l x).idx = g.idx := rfl
@[simp] theorem Group.wQ_stage (g : Group) (p l : Nat) (x : Tri) : (g.wQ p l x).stage = g.stage := rfl
@[simp] theorem Group.wQ_allot (g : Group) (p l : Nat) (x : Tri) : (g.wQ p l x).allot = g.allot := rfl
@[simp] theorem Group.wQ_part (g : Group) (p l : Nat) (x : Tri) : (g.wQ p l x).part = g.part := rfl
@[simp] theorem Group.wQ_v (g : Group) (p l : Nat) (x : Tri) : (g.wQ p l x).v = g.v := rfl
@[simp] theorem Group.wQ_s (g : Group) (p l : Nat) (x : Tri) : (g.wQ p l x).s = g.s := rfl
@[simp] theorem Group.wQ_j (g : Group) (p l : Nat) (x : Tri) : (g.wQ p l x).j = g.j := rfl
@[simp] theorem Group.wQ_status (g : Group) (p l : Nat) (x : Tri) : (g.wQ p l x).status = g.status := rfl
@[simp] theorem Group.wQ_done (g : Group) (p l : Nat) (x : Tri) : (g.wQ p l x).done = g.done := rfl
@[simp] theorem Group.wQ_exited (g : Group) (p l : Nat) (x : Tri) : (g.wQ p l x).exited = g.exited := rfl
@[simp] theorem Group.wQ_tags (g : Group) (p l : Nat) (x : Tri) : (g.wQ p l x).tags = g.tags := rfl
@[simp] theorem Group.wQ_nrm (g : Group) (p l : Nat) (x : Tri) : (g.wQ p l x).nrm = g.nrm := rfl
@[simp] theorem Group.wQ_trapen (g : Group) (p l : Nat) (x : Tri) : (g.wQ p l x).trapen = g.trapen := rfl
@[simp] theorem Group.wQ_dstrm (g : Group) (p l : Nat) (x : Tri) : (g.wQ p l x).dstrm = g.dstrm := rfl
@[simp] theorem Group.wQ_misc (g : Group) (p l : Nat) (x : Tri) : (g.wQ p l x).misc = g.misc := rfl
@[simp] theorem Group.wQ_tx (g : Group) (p l : Nat) (x : Tri) : (g.wQ p l x).tx = g.tx := rfl
@[simp] theorem Group.wQ_frame (g : Group) (p l : Nat) (x : Tri) : (g.wQ p l x).frame = g.frame := rfl
@[simp] theorem Group.wQ_splits (g : Group) (p l : Nat) (x : Tri) : (g.wQ p l x).splits = g.splits := rfl
@[simp] theorem Group.wQ_defer (g : Group) (p l : Nat) (x : Tri) : (g.wQ p l x).defer = g.defer := rfl
@[simp] theorem Group.wQ_spills (g : Group) (p l : Nat) (x : Tri) : (g.wQ p l x).spills = g.spills := rfl
@[simp] theorem Group.wQ_spillFrom (g : Group) (p l : Nat) (x : Tri) : (g.wQ p l x).spillFrom = g.spillFrom := rfl
@[simp] theorem Group.wQ_vpois (g : Group) (p l : Nat) (x : Tri) : (g.wQ p l x).vpois = g.vpois := rfl
@[simp] theorem Group.wQ_pushes (g : Group) (p l : Nat) (x : Tri) : (g.wQ p l x).pushes = g.pushes := rfl
@[simp] theorem Group.wQ_frel (g : Group) (p l : Nat) (x : Tri) : (g.wQ p l x).frel = g.frel := rfl
@[simp] theorem Group.wQ_stopped (g : Group) (p l : Nat) (x : Tri) : (g.wQ p l x).stopped = g.stopped := rfl
@[simp] theorem Group.wQ_isNative (g : Group) (p l : Nat) (x : Tri) : (g.wQ p l x).isNative = g.isNative := rfl
@[simp] theorem Group.wQ_retired (g : Group) (p l : Nat) (x : Tri) : (g.wQ p l x).retired = g.retired := rfl

@[simp] theorem Group.setSt_team (g : Group) (l : Nat) (x : Word32) : (g.setSt l x).team = g.team := rfl
@[simp] theorem Group.setSt_idx (g : Group) (l : Nat) (x : Word32) : (g.setSt l x).idx = g.idx := rfl
@[simp] theorem Group.setSt_stage (g : Group) (l : Nat) (x : Word32) : (g.setSt l x).stage = g.stage := rfl
@[simp] theorem Group.setSt_allot (g : Group) (l : Nat) (x : Word32) : (g.setSt l x).allot = g.allot := rfl
@[simp] theorem Group.setSt_part (g : Group) (l : Nat) (x : Word32) : (g.setSt l x).part = g.part := rfl
@[simp] theorem Group.setSt_v (g : Group) (l : Nat) (x : Word32) : (g.setSt l x).v = g.v := rfl
@[simp] theorem Group.setSt_s (g : Group) (l : Nat) (x : Word32) : (g.setSt l x).s = g.s := rfl
@[simp] theorem Group.setSt_q (g : Group) (l : Nat) (x : Word32) : (g.setSt l x).q = g.q := rfl
@[simp] theorem Group.setSt_j (g : Group) (l : Nat) (x : Word32) : (g.setSt l x).j = g.j := rfl
@[simp] theorem Group.setSt_done (g : Group) (l : Nat) (x : Word32) : (g.setSt l x).done = g.done := rfl
@[simp] theorem Group.setSt_exited (g : Group) (l : Nat) (x : Word32) : (g.setSt l x).exited = g.exited := rfl
@[simp] theorem Group.setSt_tags (g : Group) (l : Nat) (x : Word32) : (g.setSt l x).tags = g.tags := rfl
@[simp] theorem Group.setSt_nrm (g : Group) (l : Nat) (x : Word32) : (g.setSt l x).nrm = g.nrm := rfl
@[simp] theorem Group.setSt_trapen (g : Group) (l : Nat) (x : Word32) : (g.setSt l x).trapen = g.trapen := rfl
@[simp] theorem Group.setSt_dstrm (g : Group) (l : Nat) (x : Word32) : (g.setSt l x).dstrm = g.dstrm := rfl
@[simp] theorem Group.setSt_pend (g : Group) (l : Nat) (x : Word32) : (g.setSt l x).pend = g.pend := rfl
@[simp] theorem Group.setSt_misc (g : Group) (l : Nat) (x : Word32) : (g.setSt l x).misc = g.misc := rfl
@[simp] theorem Group.setSt_tx (g : Group) (l : Nat) (x : Word32) : (g.setSt l x).tx = g.tx := rfl
@[simp] theorem Group.setSt_frame (g : Group) (l : Nat) (x : Word32) : (g.setSt l x).frame = g.frame := rfl
@[simp] theorem Group.setSt_splits (g : Group) (l : Nat) (x : Word32) : (g.setSt l x).splits = g.splits := rfl
@[simp] theorem Group.setSt_defer (g : Group) (l : Nat) (x : Word32) : (g.setSt l x).defer = g.defer := rfl
@[simp] theorem Group.setSt_spills (g : Group) (l : Nat) (x : Word32) : (g.setSt l x).spills = g.spills := rfl
@[simp] theorem Group.setSt_spillFrom (g : Group) (l : Nat) (x : Word32) : (g.setSt l x).spillFrom = g.spillFrom := rfl
@[simp] theorem Group.setSt_vpois (g : Group) (l : Nat) (x : Word32) : (g.setSt l x).vpois = g.vpois := rfl
@[simp] theorem Group.setSt_pushes (g : Group) (l : Nat) (x : Word32) : (g.setSt l x).pushes = g.pushes := rfl
@[simp] theorem Group.setSt_frel (g : Group) (l : Nat) (x : Word32) : (g.setSt l x).frel = g.frel := rfl
@[simp] theorem Group.setSt_stopped (g : Group) (l : Nat) (x : Word32) : (g.setSt l x).stopped = g.stopped := rfl
@[simp] theorem Group.setSt_isNative (g : Group) (l : Nat) (x : Word32) : (g.setSt l x).isNative = g.isNative := rfl
@[simp] theorem Group.setSt_retired (g : Group) (l : Nat) (x : Word32) : (g.setSt l x).retired = g.retired := rfl

@[simp] theorem Group.orSt_team (g : Group) (l b : Nat) : (g.orSt l b).team = g.team := rfl
@[simp] theorem Group.orSt_idx (g : Group) (l b : Nat) : (g.orSt l b).idx = g.idx := rfl
@[simp] theorem Group.orSt_stage (g : Group) (l b : Nat) : (g.orSt l b).stage = g.stage := rfl
@[simp] theorem Group.orSt_allot (g : Group) (l b : Nat) : (g.orSt l b).allot = g.allot := rfl
@[simp] theorem Group.orSt_part (g : Group) (l b : Nat) : (g.orSt l b).part = g.part := rfl
@[simp] theorem Group.orSt_v (g : Group) (l b : Nat) : (g.orSt l b).v = g.v := rfl
@[simp] theorem Group.orSt_s (g : Group) (l b : Nat) : (g.orSt l b).s = g.s := rfl
@[simp] theorem Group.orSt_q (g : Group) (l b : Nat) : (g.orSt l b).q = g.q := rfl
@[simp] theorem Group.orSt_j (g : Group) (l b : Nat) : (g.orSt l b).j = g.j := rfl
@[simp] theorem Group.orSt_done (g : Group) (l b : Nat) : (g.orSt l b).done = g.done := rfl
@[simp] theorem Group.orSt_exited (g : Group) (l b : Nat) : (g.orSt l b).exited = g.exited := rfl
@[simp] theorem Group.orSt_tags (g : Group) (l b : Nat) : (g.orSt l b).tags = g.tags := rfl
@[simp] theorem Group.orSt_nrm (g : Group) (l b : Nat) : (g.orSt l b).nrm = g.nrm := rfl
@[simp] theorem Group.orSt_trapen (g : Group) (l b : Nat) : (g.orSt l b).trapen = g.trapen := rfl
@[simp] theorem Group.orSt_dstrm (g : Group) (l b : Nat) : (g.orSt l b).dstrm = g.dstrm := rfl
@[simp] theorem Group.orSt_pend (g : Group) (l b : Nat) : (g.orSt l b).pend = g.pend := rfl
@[simp] theorem Group.orSt_misc (g : Group) (l b : Nat) : (g.orSt l b).misc = g.misc := rfl
@[simp] theorem Group.orSt_tx (g : Group) (l b : Nat) : (g.orSt l b).tx = g.tx := rfl
@[simp] theorem Group.orSt_frame (g : Group) (l b : Nat) : (g.orSt l b).frame = g.frame := rfl
@[simp] theorem Group.orSt_splits (g : Group) (l b : Nat) : (g.orSt l b).splits = g.splits := rfl
@[simp] theorem Group.orSt_defer (g : Group) (l b : Nat) : (g.orSt l b).defer = g.defer := rfl
@[simp] theorem Group.orSt_spills (g : Group) (l b : Nat) : (g.orSt l b).spills = g.spills := rfl
@[simp] theorem Group.orSt_spillFrom (g : Group) (l b : Nat) : (g.orSt l b).spillFrom = g.spillFrom := rfl
@[simp] theorem Group.orSt_vpois (g : Group) (l b : Nat) : (g.orSt l b).vpois = g.vpois := rfl
@[simp] theorem Group.orSt_pushes (g : Group) (l b : Nat) : (g.orSt l b).pushes = g.pushes := rfl
@[simp] theorem Group.orSt_frel (g : Group) (l b : Nat) : (g.orSt l b).frel = g.frel := rfl
@[simp] theorem Group.orSt_stopped (g : Group) (l b : Nat) : (g.orSt l b).stopped = g.stopped := rfl
@[simp] theorem Group.orSt_isNative (g : Group) (l b : Nat) : (g.orSt l b).isNative = g.isNative := rfl
@[simp] theorem Group.orSt_retired (g : Group) (l b : Nat) : (g.orSt l b).retired = g.retired := rfl

@[simp] theorem Group.setDeco_team (g : Group) (l d : Nat) : (g.setDeco l d).team = g.team := rfl
@[simp] theorem Group.setDeco_idx (g : Group) (l d : Nat) : (g.setDeco l d).idx = g.idx := rfl
@[simp] theorem Group.setDeco_stage (g : Group) (l d : Nat) : (g.setDeco l d).stage = g.stage := rfl
@[simp] theorem Group.setDeco_allot (g : Group) (l d : Nat) : (g.setDeco l d).allot = g.allot := rfl
@[simp] theorem Group.setDeco_part (g : Group) (l d : Nat) : (g.setDeco l d).part = g.part := rfl
@[simp] theorem Group.setDeco_v (g : Group) (l d : Nat) : (g.setDeco l d).v = g.v := rfl
@[simp] theorem Group.setDeco_s (g : Group) (l d : Nat) : (g.setDeco l d).s = g.s := rfl
@[simp] theorem Group.setDeco_q (g : Group) (l d : Nat) : (g.setDeco l d).q = g.q := rfl
@[simp] theorem Group.setDeco_j (g : Group) (l d : Nat) : (g.setDeco l d).j = g.j := rfl
@[simp] theorem Group.setDeco_done (g : Group) (l d : Nat) : (g.setDeco l d).done = g.done := rfl
@[simp] theorem Group.setDeco_exited (g : Group) (l d : Nat) : (g.setDeco l d).exited = g.exited := rfl
@[simp] theorem Group.setDeco_tags (g : Group) (l d : Nat) : (g.setDeco l d).tags = g.tags := rfl
@[simp] theorem Group.setDeco_nrm (g : Group) (l d : Nat) : (g.setDeco l d).nrm = g.nrm := rfl
@[simp] theorem Group.setDeco_trapen (g : Group) (l d : Nat) : (g.setDeco l d).trapen = g.trapen := rfl
@[simp] theorem Group.setDeco_dstrm (g : Group) (l d : Nat) : (g.setDeco l d).dstrm = g.dstrm := rfl
@[simp] theorem Group.setDeco_pend (g : Group) (l d : Nat) : (g.setDeco l d).pend = g.pend := rfl
@[simp] theorem Group.setDeco_misc (g : Group) (l d : Nat) : (g.setDeco l d).misc = g.misc := rfl
@[simp] theorem Group.setDeco_tx (g : Group) (l d : Nat) : (g.setDeco l d).tx = g.tx := rfl
@[simp] theorem Group.setDeco_frame (g : Group) (l d : Nat) : (g.setDeco l d).frame = g.frame := rfl
@[simp] theorem Group.setDeco_splits (g : Group) (l d : Nat) : (g.setDeco l d).splits = g.splits := rfl
@[simp] theorem Group.setDeco_defer (g : Group) (l d : Nat) : (g.setDeco l d).defer = g.defer := rfl
@[simp] theorem Group.setDeco_spills (g : Group) (l d : Nat) : (g.setDeco l d).spills = g.spills := rfl
@[simp] theorem Group.setDeco_spillFrom (g : Group) (l d : Nat) : (g.setDeco l d).spillFrom = g.spillFrom := rfl
@[simp] theorem Group.setDeco_vpois (g : Group) (l d : Nat) : (g.setDeco l d).vpois = g.vpois := rfl
@[simp] theorem Group.setDeco_pushes (g : Group) (l d : Nat) : (g.setDeco l d).pushes = g.pushes := rfl
@[simp] theorem Group.setDeco_frel (g : Group) (l d : Nat) : (g.setDeco l d).frel = g.frel := rfl
@[simp] theorem Group.setDeco_stopped (g : Group) (l d : Nat) : (g.setDeco l d).stopped = g.stopped := rfl
@[simp] theorem Group.setDeco_isNative (g : Group) (l d : Nat) : (g.setDeco l d).isNative = g.isNative := rfl
@[simp] theorem Group.setDeco_retired (g : Group) (l d : Nat) : (g.setDeco l d).retired = g.retired := rfl

@[simp] theorem Group.lowerDeco_team (g : Group) (l d : Nat) : (g.lowerDeco l d).team = g.team := by unfold Group.lowerDeco; split <;> rfl
@[simp] theorem Group.lowerDeco_idx (g : Group) (l d : Nat) : (g.lowerDeco l d).idx = g.idx := by unfold Group.lowerDeco; split <;> rfl
@[simp] theorem Group.lowerDeco_stage (g : Group) (l d : Nat) : (g.lowerDeco l d).stage = g.stage := by unfold Group.lowerDeco; split <;> rfl
@[simp] theorem Group.lowerDeco_allot (g : Group) (l d : Nat) : (g.lowerDeco l d).allot = g.allot := by unfold Group.lowerDeco; split <;> rfl
@[simp] theorem Group.lowerDeco_part (g : Group) (l d : Nat) : (g.lowerDeco l d).part = g.part := by unfold Group.lowerDeco; split <;> rfl
@[simp] theorem Group.lowerDeco_v (g : Group) (l d : Nat) : (g.lowerDeco l d).v = g.v := by unfold Group.lowerDeco; split <;> rfl
@[simp] theorem Group.lowerDeco_s (g : Group) (l d : Nat) : (g.lowerDeco l d).s = g.s := by unfold Group.lowerDeco; split <;> rfl
@[simp] theorem Group.lowerDeco_q (g : Group) (l d : Nat) : (g.lowerDeco l d).q = g.q := by unfold Group.lowerDeco; split <;> rfl
@[simp] theorem Group.lowerDeco_j (g : Group) (l d : Nat) : (g.lowerDeco l d).j = g.j := by unfold Group.lowerDeco; split <;> rfl
@[simp] theorem Group.lowerDeco_done (g : Group) (l d : Nat) : (g.lowerDeco l d).done = g.done := by unfold Group.lowerDeco; split <;> rfl
@[simp] theorem Group.lowerDeco_exited (g : Group) (l d : Nat) : (g.lowerDeco l d).exited = g.exited := by unfold Group.lowerDeco; split <;> rfl
@[simp] theorem Group.lowerDeco_tags (g : Group) (l d : Nat) : (g.lowerDeco l d).tags = g.tags := by unfold Group.lowerDeco; split <;> rfl
@[simp] theorem Group.lowerDeco_nrm (g : Group) (l d : Nat) : (g.lowerDeco l d).nrm = g.nrm := by unfold Group.lowerDeco; split <;> rfl
@[simp] theorem Group.lowerDeco_trapen (g : Group) (l d : Nat) : (g.lowerDeco l d).trapen = g.trapen := by unfold Group.lowerDeco; split <;> rfl
@[simp] theorem Group.lowerDeco_dstrm (g : Group) (l d : Nat) : (g.lowerDeco l d).dstrm = g.dstrm := by unfold Group.lowerDeco; split <;> rfl
@[simp] theorem Group.lowerDeco_pend (g : Group) (l d : Nat) : (g.lowerDeco l d).pend = g.pend := by unfold Group.lowerDeco; split <;> rfl
@[simp] theorem Group.lowerDeco_misc (g : Group) (l d : Nat) : (g.lowerDeco l d).misc = g.misc := by unfold Group.lowerDeco; split <;> rfl
@[simp] theorem Group.lowerDeco_tx (g : Group) (l d : Nat) : (g.lowerDeco l d).tx = g.tx := by unfold Group.lowerDeco; split <;> rfl
@[simp] theorem Group.lowerDeco_frame (g : Group) (l d : Nat) : (g.lowerDeco l d).frame = g.frame := by unfold Group.lowerDeco; split <;> rfl
@[simp] theorem Group.lowerDeco_splits (g : Group) (l d : Nat) : (g.lowerDeco l d).splits = g.splits := by unfold Group.lowerDeco; split <;> rfl
@[simp] theorem Group.lowerDeco_defer (g : Group) (l d : Nat) : (g.lowerDeco l d).defer = g.defer := by unfold Group.lowerDeco; split <;> rfl
@[simp] theorem Group.lowerDeco_spills (g : Group) (l d : Nat) : (g.lowerDeco l d).spills = g.spills := by unfold Group.lowerDeco; split <;> rfl
@[simp] theorem Group.lowerDeco_spillFrom (g : Group) (l d : Nat) : (g.lowerDeco l d).spillFrom = g.spillFrom := by unfold Group.lowerDeco; split <;> rfl
@[simp] theorem Group.lowerDeco_vpois (g : Group) (l d : Nat) : (g.lowerDeco l d).vpois = g.vpois := by unfold Group.lowerDeco; split <;> rfl
@[simp] theorem Group.lowerDeco_pushes (g : Group) (l d : Nat) : (g.lowerDeco l d).pushes = g.pushes := by unfold Group.lowerDeco; split <;> rfl
@[simp] theorem Group.lowerDeco_frel (g : Group) (l d : Nat) : (g.lowerDeco l d).frel = g.frel := by unfold Group.lowerDeco; split <;> rfl
@[simp] theorem Group.lowerDeco_stopped (g : Group) (l d : Nat) : (g.lowerDeco l d).stopped = g.stopped := by unfold Group.lowerDeco; split <;> rfl
@[simp] theorem Group.lowerDeco_isNative (g : Group) (l d : Nat) : (g.lowerDeco l d).isNative = g.isNative := by unfold Group.lowerDeco; split <;> rfl
@[simp] theorem Group.lowerDeco_retired (g : Group) (l d : Nat) : (g.lowerDeco l d).retired = g.retired := by unfold Group.lowerDeco; split <;> rfl

@[simp] theorem Group.orSts_team (g : Group) (b : Nat) (ls : List Nat) : (g.orSts b ls).team = g.team := by
  unfold Group.orSts; induction ls generalizing g with | nil => rfl | cons a l ih => exact (ih _).trans (Group.orSt_team g a b)
@[simp] theorem Group.orSts_idx (g : Group) (b : Nat) (ls : List Nat) : (g.orSts b ls).idx = g.idx := by
  unfold Group.orSts; induction ls generalizing g with | nil => rfl | cons a l ih => exact (ih _).trans (Group.orSt_idx g a b)
@[simp] theorem Group.orSts_stage (g : Group) (b : Nat) (ls : List Nat) : (g.orSts b ls).stage = g.stage := by
  unfold Group.orSts; induction ls generalizing g with | nil => rfl | cons a l ih => exact (ih _).trans (Group.orSt_stage g a b)
@[simp] theorem Group.orSts_allot (g : Group) (b : Nat) (ls : List Nat) : (g.orSts b ls).allot = g.allot := by
  unfold Group.orSts; induction ls generalizing g with | nil => rfl | cons a l ih => exact (ih _).trans (Group.orSt_allot g a b)
@[simp] theorem Group.orSts_part (g : Group) (b : Nat) (ls : List Nat) : (g.orSts b ls).part = g.part := by
  unfold Group.orSts; induction ls generalizing g with | nil => rfl | cons a l ih => exact (ih _).trans (Group.orSt_part g a b)
@[simp] theorem Group.orSts_v (g : Group) (b : Nat) (ls : List Nat) : (g.orSts b ls).v = g.v := by
  unfold Group.orSts; induction ls generalizing g with | nil => rfl | cons a l ih => exact (ih _).trans (Group.orSt_v g a b)
@[simp] theorem Group.orSts_s (g : Group) (b : Nat) (ls : List Nat) : (g.orSts b ls).s = g.s := by
  unfold Group.orSts; induction ls generalizing g with | nil => rfl | cons a l ih => exact (ih _).trans (Group.orSt_s g a b)
@[simp] theorem Group.orSts_q (g : Group) (b : Nat) (ls : List Nat) : (g.orSts b ls).q = g.q := by
  unfold Group.orSts; induction ls generalizing g with | nil => rfl | cons a l ih => exact (ih _).trans (Group.orSt_q g a b)
@[simp] theorem Group.orSts_j (g : Group) (b : Nat) (ls : List Nat) : (g.orSts b ls).j = g.j := by
  unfold Group.orSts; induction ls generalizing g with | nil => rfl | cons a l ih => exact (ih _).trans (Group.orSt_j g a b)
@[simp] theorem Group.orSts_done (g : Group) (b : Nat) (ls : List Nat) : (g.orSts b ls).done = g.done := by
  unfold Group.orSts; induction ls generalizing g with | nil => rfl | cons a l ih => exact (ih _).trans (Group.orSt_done g a b)
@[simp] theorem Group.orSts_exited (g : Group) (b : Nat) (ls : List Nat) : (g.orSts b ls).exited = g.exited := by
  unfold Group.orSts; induction ls generalizing g with | nil => rfl | cons a l ih => exact (ih _).trans (Group.orSt_exited g a b)
@[simp] theorem Group.orSts_tags (g : Group) (b : Nat) (ls : List Nat) : (g.orSts b ls).tags = g.tags := by
  unfold Group.orSts; induction ls generalizing g with | nil => rfl | cons a l ih => exact (ih _).trans (Group.orSt_tags g a b)
@[simp] theorem Group.orSts_nrm (g : Group) (b : Nat) (ls : List Nat) : (g.orSts b ls).nrm = g.nrm := by
  unfold Group.orSts; induction ls generalizing g with | nil => rfl | cons a l ih => exact (ih _).trans (Group.orSt_nrm g a b)
@[simp] theorem Group.orSts_trapen (g : Group) (b : Nat) (ls : List Nat) : (g.orSts b ls).trapen = g.trapen := by
  unfold Group.orSts; induction ls generalizing g with | nil => rfl | cons a l ih => exact (ih _).trans (Group.orSt_trapen g a b)
@[simp] theorem Group.orSts_dstrm (g : Group) (b : Nat) (ls : List Nat) : (g.orSts b ls).dstrm = g.dstrm := by
  unfold Group.orSts; induction ls generalizing g with | nil => rfl | cons a l ih => exact (ih _).trans (Group.orSt_dstrm g a b)
@[simp] theorem Group.orSts_pend (g : Group) (b : Nat) (ls : List Nat) : (g.orSts b ls).pend = g.pend := by
  unfold Group.orSts; induction ls generalizing g with | nil => rfl | cons a l ih => exact (ih _).trans (Group.orSt_pend g a b)
@[simp] theorem Group.orSts_misc (g : Group) (b : Nat) (ls : List Nat) : (g.orSts b ls).misc = g.misc := by
  unfold Group.orSts; induction ls generalizing g with | nil => rfl | cons a l ih => exact (ih _).trans (Group.orSt_misc g a b)
@[simp] theorem Group.orSts_tx (g : Group) (b : Nat) (ls : List Nat) : (g.orSts b ls).tx = g.tx := by
  unfold Group.orSts; induction ls generalizing g with | nil => rfl | cons a l ih => exact (ih _).trans (Group.orSt_tx g a b)
@[simp] theorem Group.orSts_frame (g : Group) (b : Nat) (ls : List Nat) : (g.orSts b ls).frame = g.frame := by
  unfold Group.orSts; induction ls generalizing g with | nil => rfl | cons a l ih => exact (ih _).trans (Group.orSt_frame g a b)
@[simp] theorem Group.orSts_splits (g : Group) (b : Nat) (ls : List Nat) : (g.orSts b ls).splits = g.splits := by
  unfold Group.orSts; induction ls generalizing g with | nil => rfl | cons a l ih => exact (ih _).trans (Group.orSt_splits g a b)
@[simp] theorem Group.orSts_defer (g : Group) (b : Nat) (ls : List Nat) : (g.orSts b ls).defer = g.defer := by
  unfold Group.orSts; induction ls generalizing g with | nil => rfl | cons a l ih => exact (ih _).trans (Group.orSt_defer g a b)
@[simp] theorem Group.orSts_spills (g : Group) (b : Nat) (ls : List Nat) : (g.orSts b ls).spills = g.spills := by
  unfold Group.orSts; induction ls generalizing g with | nil => rfl | cons a l ih => exact (ih _).trans (Group.orSt_spills g a b)
@[simp] theorem Group.orSts_spillFrom (g : Group) (b : Nat) (ls : List Nat) : (g.orSts b ls).spillFrom = g.spillFrom := by
  unfold Group.orSts; induction ls generalizing g with | nil => rfl | cons a l ih => exact (ih _).trans (Group.orSt_spillFrom g a b)
@[simp] theorem Group.orSts_vpois (g : Group) (b : Nat) (ls : List Nat) : (g.orSts b ls).vpois = g.vpois := by
  unfold Group.orSts; induction ls generalizing g with | nil => rfl | cons a l ih => exact (ih _).trans (Group.orSt_vpois g a b)
@[simp] theorem Group.orSts_pushes (g : Group) (b : Nat) (ls : List Nat) : (g.orSts b ls).pushes = g.pushes := by
  unfold Group.orSts; induction ls generalizing g with | nil => rfl | cons a l ih => exact (ih _).trans (Group.orSt_pushes g a b)
@[simp] theorem Group.orSts_frel (g : Group) (b : Nat) (ls : List Nat) : (g.orSts b ls).frel = g.frel := by
  unfold Group.orSts; induction ls generalizing g with | nil => rfl | cons a l ih => exact (ih _).trans (Group.orSt_frel g a b)
@[simp] theorem Group.orSts_stopped (g : Group) (b : Nat) (ls : List Nat) : (g.orSts b ls).stopped = g.stopped := by
  unfold Group.orSts; induction ls generalizing g with | nil => rfl | cons a l ih => exact (ih _).trans (Group.orSt_stopped g a b)
@[simp] theorem Group.orSts_isNative (g : Group) (b : Nat) (ls : List Nat) : (g.orSts b ls).isNative = g.isNative := by
  unfold Group.orSts; induction ls generalizing g with | nil => rfl | cons a l ih => exact (ih _).trans (Group.orSt_isNative g a b)
@[simp] theorem Group.orSts_retired (g : Group) (b : Nat) (ls : List Nat) : (g.orSts b ls).retired = g.retired := by
  unfold Group.orSts; induction ls generalizing g with | nil => rfl | cons a l ih => exact (ih _).trans (Group.orSt_retired g a b)

end Sys2Proof.Machine
end

