-- ==== Sys2Proof/Laws/Memory.lean ====
section
/-! SUPPORT. What the operations over memory can do: each keeps the canonical form, a byte written is read back, and every other byte reads as before. -/
namespace Sys2Proof.Machine

/-- Reset lists nothing, in the canonical form. -/
theorem reset_mem_wf : Memory.wf State.reset.mem = true := rfl

/-! One byte. -/

theorem reenc_wf (s : State) (a : Nat) (h : Memory.wf s.mem = true) : Memory.wf (s.reenc a).mem = true := by
  unfold State.reenc
  split
  · exact h
  · exact mwf_msetAll 0 _ s.mem h

theorem wrByte_wf (s : State) (a : Nat) (b : Byte) (h : Memory.wf s.mem = true) : Memory.wf (s.wrByte a b).mem = true := by
  unfold State.wrByte
  split
  · exact h
  · exact mwf_mset 0 (s.reenc a).mem a _ (reenc_wf s a h)

theorem reenc_only (s : State) (a : Nat) : s.reenc a = { s with mem := (s.reenc a).mem, enc := (s.reenc a).enc } := by
  unfold State.reenc
  split <;> rfl

theorem wrByte_only (s : State) (a : Nat) (b : Byte) : s.wrByte a b = { s with mem := (s.wrByte a b).mem, enc := (s.wrByte a b).enc } := by
  unfold State.wrByte
  split
  · rfl
  · simp only
    rw [reenc_only]

/-- The key of a location is a matter of its block's tag and the keys. -/
theorem curKey_congr {s t : State} (hk : t.keys = s.keys) (ht : t.keytag = s.keytag) (a : Nat) : curKey t a = curKey s a := by
  simp [curKey, keyTag, hk, ht]

theorem curKey_unit (s : State) {a x : Nat} (h : x / 16 = a / 16) : curKey s x = curKey s a := by
  have hb : blockOf x = blockOf a := by simp only [blockOf]; omega
  have hd : isDev x = isDev a := by simp only [isDev, decide_eq_decide]; omega
  simp [curKey, hb, hd]

/-- After reenc a location stands under its own key. -/
theorem reenc_key (s : State) (a : Nat) : encKey (s.reenc a) a = curKey (s.reenc a) a := by
  unfold State.reenc
  split
  · assumption
  · simp only [encKey, curKey, keyTag]
    split
    · rw [mget_mset_same]
    · rfl

/-- reenc changes the reading of no byte. -/
theorem rdByte_reenc (s : State) (a x : Nat) : (s.reenc a).rdByte x = s.rdByte x := by
  by_cases he : encKey s a = curKey s a
  · simp [State.reenc, he]
  have hd : isDev a = true := by
    rcases hb : isDev a with _ | _
    · simp [encKey, curKey, hb] at he
    · rfl
  have ht : s.reenc a = { s with mem := msetAll 0 s.mem ((List.range 16).map fun i => (a / 16 * 16 + i, s.rdByte (a / 16 * 16 + i))),
                                 enc := mset none s.enc (a / 16) (curKey s a) } := by simp [State.reenc, he]
  by_cases hx : x / 16 = a / 16
  · have hdx : isDev x = true := by simp only [isDev, decide_eq_true_eq] at hd ⊢; omega
    have hp : isPeer x = false := by simp only [isDev, decide_eq_true_eq] at hdx; simp only [isPeer, decide_eq_false_iff_not]; omega
    have hk : encKey (s.reenc a) x = curKey (s.reenc a) x := by
      rw [ht]
      simp only [encKey, hdx, if_true, hx, mget_mset_same]
      exact (curKey_unit s hx).symm
    have hv : mget 0 (s.reenc a).mem x = s.rdByte x := by
      rw [ht]
      exact mget_msetAll_run 0 s.mem (a / 16 * 16) 16 s.rdByte (by omega) (by omega)
    rw [State.rdByte, hp, if_neg (by simp), if_pos hk, hv]
  · have hm : ∀ y, y / 16 = x / 16 → mget 0 (s.reenc a).mem y = mget 0 s.mem y := by
      intro y hy
      rw [ht]
      exact mget_msetAll_out 0 s.mem (a / 16 * 16) 16 s.rdByte (by omega)
    have hk : encKey (s.reenc a) x = encKey s x := by
      rw [ht]
      simp only [encKey, mget_mset_ne _ _ _ hx]
    have hc : curKey (s.reenc a) x = curKey s x := by rw [ht]; rfl
    have hu : unitBytes (s.reenc a) x = unitBytes s x := by
      simp only [unitBytes]
      refine List.map_congr_left fun i hi => hm _ ?_
      have := List.mem_range.mp hi
      omega
    have hf : (s.reenc a).free = s.free := by rw [ht]
    simp only [State.rdByte, hk, hc, hu, hf, hm x rfl]

theorem rdByte_wrByte_same (s : State) (a : Nat) (b : Byte) (h : isPeer a = false) : (s.wrByte a b).rdByte a = b := by
  have hk : encKey (s.wrByte a b) a = curKey (s.wrByte a b) a := by
    simp only [State.wrByte, h]
    exact reenc_key s a
  rw [State.rdByte, h, if_neg (by simp), if_pos hk]
  simp [State.wrByte, h]

theorem rdByte_wrByte_ne (s : State) {a x : Nat} (b : Byte) (hx : x ≠ a) : (s.wrByte a b).rdByte x = s.rdByte x := by
  by_cases hp : isPeer a = true
  · simp [State.wrByte, hp]
  have hw : s.wrByte a b = { s.reenc a with mem := mset 0 (s.reenc a).mem a b } := by simp [State.wrByte, hp]
  by_cases hu : x / 16 = a / 16
  · have hk : encKey (s.reenc a) x = curKey (s.reenc a) x := by
      have hd : isDev x = isDev a := by simp only [isDev, decide_eq_decide]; omega
      have := reenc_key s a
      rw [curKey_unit _ hu, ← this]
      simp [encKey, hd, hu]
    have hk' : encKey (s.wrByte a b) x = curKey (s.wrByte a b) x := by rw [hw]; exact hk
    have hf : (s.wrByte a b).free = (s.reenc a).free := by rw [hw]
    have hm : mget 0 (s.wrByte a b).mem x = mget 0 (s.reenc a).mem x := by rw [hw]; exact mget_mset_ne _ _ _ hx
    rw [← rdByte_reenc s a x, State.rdByte, State.rdByte, hf, if_pos hk', if_pos hk, hm]
  · have hm : ∀ y, y / 16 = x / 16 → mget 0 (s.wrByte a b).mem y = mget 0 (s.reenc a).mem y := by
      intro y hy
      rw [hw]
      exact mget_mset_ne _ _ _ (by rintro rfl; exact hu hy.symm)
    have hub : unitBytes (s.wrByte a b) x = unitBytes (s.reenc a) x := by
      simp only [unitBytes]
      refine List.map_congr_left fun i hi => hm _ ?_
      have := List.mem_range.mp hi
      omega
    have hk : encKey (s.wrByte a b) x = encKey (s.reenc a) x := by rw [hw]; rfl
    have hc : curKey (s.wrByte a b) x = curKey (s.reenc a) x := by rw [hw]; rfl
    have hf : (s.wrByte a b).free = (s.reenc a).free := by rw [hw]
    rw [← rdByte_reenc s a x, State.rdByte, State.rdByte, hk, hc, hf, hub, hm x rfl]

/-! A run of cells. -/

theorem wrCells_wf : ∀ (l : List Host.Cell) (s : State), Memory.wf s.mem = true → Memory.wf (s.wrCells l).mem = true
  | [], _, h => h
  | c :: l, s, h => wrCells_wf l (s.wrByte c.1 c.2) (wrByte_wf s c.1 c.2 h)

theorem wrCells_to : ∀ (l : List Host.Cell) (s : State), ∃ m e, s.wrCells l = { s with mem := m, enc := e }
  | [], s => ⟨s.mem, s.enc, rfl⟩
  | c :: l, s => by
    obtain ⟨m, e, h⟩ := wrCells_to l (s.wrByte c.1 c.2)
    rw [wrByte_only] at h
    refine ⟨m, e, ?_⟩
    change (s.wrByte c.1 c.2).wrCells l = _
    rw [wrByte_only]
    exact h

theorem wrCells_only (l : List Host.Cell) (s : State) : s.wrCells l = { s with mem := (s.wrCells l).mem, enc := (s.wrCells l).enc } := by
  obtain ⟨m, e, h⟩ := wrCells_to l s
  rw [h]

theorem rdByte_wrCells_ne {x : Nat} : ∀ (l : List Host.Cell) (s : State), (∀ c ∈ l, c.1 ≠ x) → (s.wrCells l).rdByte x = s.rdByte x
  | [], _, _ => rfl
  | c :: l, s, h => by
    have ih := rdByte_wrCells_ne l (s.wrByte c.1 c.2) (fun d hd => h d (by simp [hd]))
    rw [rdByte_wrByte_ne s c.2 (fun e => h c (by simp) e.symm)] at ih
    exact ih

/-- The last cell of a run that names an address is what the address reads as. -/
theorem rdByte_wrCells_last {x : Nat} {b : Byte} (hp : isPeer x = false) (l r : List Host.Cell) (s : State) (h : ∀ c ∈ r, c.1 ≠ x) :
    (s.wrCells (l ++ (x, b) :: r)).rdByte x = b := by
  have e : s.wrCells (l ++ (x, b) :: r) = ((s.wrCells l).wrByte x b).wrCells r := by simp [State.wrCells]
  rw [e, rdByte_wrCells_ne r _ h, rdByte_wrByte_same _ x b hp]

/-! A whole write, with the lanes it dooms and the marks it clears. -/

@[simp] theorem roNote_mem (s : State) (l : List Host.Cell) : (roNote s l).mem = s.mem := rfl
@[simp] theorem doomLanes_mem (s : State) (ls : List Nat) (p : Option (Nat × Nat)) : (doomLanes s ls p).mem = s.mem := rfl

theorem performFor_wf (s : State) (p : Option (Nat × Nat)) (l : List Host.Cell) (h : Memory.wf s.mem = true) :
    Memory.wf (s.performFor p l).mem = true := wrCells_wf l _ h

theorem perform_wf (s : State) (l : List Host.Cell) (h : Memory.wf s.mem = true) : Memory.wf (s.perform l).mem = true :=
  performFor_wf s none l h

/-- A write changes memory and the keys its units stand under, the doomed marks of lanes, the read-only path's notes and the poison marks, nothing else. -/
theorem performFor_only (s : State) (p : Option (Nat × Nat)) (l : List Host.Cell) :
    s.performFor p l = { s with mem := (s.performFor p l).mem, enc := (s.performFor p l).enc, groups := (s.performFor p l).groups, cores := (s.performFor p l).cores,
                                poison := (s.performFor p l).poison } := by
  simp only [State.performFor]
  rw [wrCells_only]
  rfl

theorem rdByte_performFor_ne (s : State) (p : Option (Nat × Nat)) {x : Nat} (l : List Host.Cell) (h : ∀ c ∈ l, c.1 ≠ x) :
    (s.performFor p l).rdByte x = s.rdByte x :=
  rdByte_wrCells_ne l (doomLanes (roNote s l) _ p) h

theorem rdByte_perform_ne (s : State) {x : Nat} (l : List Host.Cell) (h : ∀ c ∈ l, c.1 ≠ x) : (s.perform l).rdByte x = s.rdByte x :=
  rdByte_performFor_ne s none l h

/-- The cells of bytes stored from a location lie in its run. -/
theorem cellsOf_range {a : Nat} {bs : List Byte} {c : Host.Cell} (h : c ∈ cellsOf a bs) : a ≤ c.1 ∧ c.1 < a + bs.length := by
  simp only [cellsOf, List.mem_map, List.mem_range] at h
  obtain ⟨k, hk, rfl⟩ := h
  simp only
  omega

/-- Storing bytes leaves every byte outside their run. -/
theorem rdByte_perform_cellsOf (s : State) {a x : Nat} (bs : List Byte) (h : x < a ∨ a + bs.length ≤ x) :
    (s.perform (cellsOf a bs)).rdByte x = s.rdByte x :=
  rdByte_perform_ne s _ fun c hc => by have := cellsOf_range hc; omega

/-! Messages and trace records. -/

@[simp] theorem now_mem (s : State) : s.now.mem = s.mem := rfl
@[simp] theorem msix_mem (s : State) (v : Nat) : (msix s v).mem = s.mem := by
  unfold msix
  split
  · rfl
  · split <;> rfl
@[simp] theorem snapTrigger_mem (s : State) (c : Nat) : (snapTrigger s c).mem = s.mem := by
  unfold snapTrigger
  simp only
  split <;> split <;> rfl

theorem snapIf_mem (s : State) (p : Prop) [Decidable p] (c : Nat) : (if p then snapTrigger s c else s).mem = s.mem := by
  split
  · exact snapTrigger_mem s c
  · rfl

theorem traceRec_wf (s : State) (die core ctx ev a0 a1 : Nat) (h : Memory.wf s.mem = true) :
    Memory.wf (traceRec s die core ctx ev a0 a1).mem = true := by
  unfold traceRec
  simp only
  by_cases hc : fld (s.now.reg (rTRCCTL die)) (16 + ev) (16 + ev) = 0
  · rw [if_pos hc]
    exact h
  · rw [if_neg hc, snapIf_mem, State.setReg_mem]
    refine perform_wf _ _ ?_
    rw [State.setReg_mem]
    exact h

theorem writeRecord_wf (s : State) (c : Nat) (a : FaultAt) (code detail addr : Nat) (mask : Word32) (first : Bool) (h : Memory.wf s.mem = true) :
    Memory.wf (writeRecord s c a code detail addr mask first).mem = true := by
  unfold writeRecord
  simp only
  split
  · exact h
  · split
    · exact h
    · simp only [State.setReg_mem]
      exact perform_wf _ _ h

@[simp] theorem discardWork_mem (s : State) (c : Nat) : (discardWork s c).mem = s.mem := by
  unfold discardWork
  simp only [State.setCtx]
  split <;> rfl

/-- The faults of a context keep memory's canonical form, however many are detected together. -/
theorem fatalAll_wf (s : State) (c : Nat) (f : FaultRec) (more : List FaultRec) (h : Memory.wf s.mem = true) :
    Memory.wf (fatalAll s c f more).mem = true := by
  have key : ∀ (l : List FaultRec) (s : State), Memory.wf s.mem = true →
      Memory.wf (l.foldl (fun s r => writeRecord s c r.1 r.2.1 r.2.2.1 r.2.2.2.1 r.2.2.2.2 false) s).mem = true := by
    intro l
    induction l with
    | nil => exact fun _ h => h
    | cons r l ih => exact fun s h => ih _ (writeRecord_wf _ _ _ _ _ _ _ _ h)
  unfold fatalAll
  simp only [msix_mem]
  exact traceRec_wf _ _ _ _ _ _ _ (key _ _ (writeRecord_wf _ _ _ _ _ _ _ _ (by simpa using h)))

theorem fatal_wf (s : State) (code detail addr : Nat) (mask : Word32) (h : Memory.wf s.mem = true) : Memory.wf (fatal s code detail addr mask).mem = true :=
  fatalAll_wf s _ _ [] h

end Sys2Proof.Machine
end

