-- ==== Sys2Proof/Laws/Vector.lean ====
section
/-! SUPPORT. What the shared frames of the V-words can do, said once: reading operands, writing results, the latches, the status words. -/
namespace Sys2Proof.Machine

theorem mem_lanes32 {l : Nat} : l ∈ lanes32 ↔ l < 32 := by simp [lanes32]

theorem mem_lanesOf {m : Word32} {l : Nat} : l ∈ lanesOf m ↔ l < 32 ∧ inMask m l = true := by
  simp [lanesOf, mem_lanes32]

theorem nodup_lanesOf (m : Word32) : (lanesOf m).Nodup := List.Nodup.filter _ List.nodup_range

/-- Two elements have one key only if they are the same element. -/
theorem velem_key {r l d k : Nat} (hl : l < 32) (hk : k < 32) : r * 32 + l = d * 32 + k ↔ r = d ∧ l = k := by omega

@[simp] theorem Group.velem_wV (g : Group) (d k r l : Nat) (x : Word64) (hl : l < 32) (hk : k < 32) :
    (g.wV d k x).velem r l = if r = d ∧ l = k then x else g.velem r l := by
  simp only [Group.velem, Group.wV, mget_mset, velem_key hl hk]

/-- A run of element writes of one register. -/
theorem wrVals_velem (d : Nat) (f : Nat → Word64) (r l : Nat) (hl : l < 32) :
    ∀ (ls : List Nat) (g : Group), (∀ k ∈ ls, k < 32) →
      (wrVals g d (ls.map fun k => (k, f k))).velem r l = if r = d ∧ l ∈ ls then f l else g.velem r l
  | [], g, _ => by simp [wrVals]
  | k :: ls, g, h => by
    have hk : k < 32 := h k (by simp)
    have ih := wrVals_velem d f r l hl ls (g.wV d k (f k)) (fun j hj => h j (by simp [hj]))
    simp only [wrVals, List.map_cons, List.foldl_cons] at ih ⊢
    rw [ih, Group.velem_wV _ _ _ _ _ _ hl hk]
    by_cases hr : r = d <;> by_cases hm : l ∈ ls <;> by_cases he : l = k <;> simp [hr, hm, he]

/-- A run of element writes touches nothing but elements, marks and poison. -/
theorem wrVals_frame (d : Nat) : ∀ (vals : LaneVals) (g : Group),
    wrVals g d vals = { g with v := (wrVals g d vals).v, pend := (wrVals g d vals).pend, vpois := (wrVals g d vals).vpois }
  | [], g => rfl
  | x :: vals, g => by
    have ih := wrVals_frame d vals (g.wV d x.1 x.2)
    simp only [wrVals, List.foldl_cons] at ih ⊢
    exact ih

/-! Status words. -/

@[simp] theorem Group.st_setSt (g : Group) (k l : Nat) (x : Word32) : (g.setSt k x).st l = if l = k then x else g.st l := by
  simp only [Group.st, Group.setSt, mget_mset]

theorem Group.st_orSts (b : Nat) (l : Nat) : ∀ (ls : List Nat) (g : Group),
    (g.orSts b ls).st l = if l ∈ ls then g.st l ||| (1#32 <<< b) else g.st l
  | [], g => by simp [Group.orSts]
  | k :: ls, g => by
    have ih := Group.st_orSts b l ls (g.orSt k b)
    simp only [Group.orSts, List.foldl_cons] at ih ⊢
    rw [ih]
    by_cases h1 : l ∈ ls <;> by_cases h2 : l = k <;> simp [h1, h2, Group.orSt, BitVec.or_assoc]

theorem Group.orSts_only (g : Group) (b : Nat) (ls : List Nat) : g.orSts b ls = { g with status := (g.orSts b ls).status } := by
  unfold Group.orSts
  induction ls generalizing g with
  | nil => rfl
  | cons a l ih => exact ih (g.orSt a b)

/-! Reading operands. -/

/-- A V-word whose operands are ready reads them, and does nothing more than set LATCH_LOST. -/
theorem vpre_ready {s : State} {act : Word32} {regs lat : List Nat} (h : Ready s act (regs ++ latchRegs s lat)) :
    vpre s act regs lat = .ok (if lat.any (latchLost s) then s.setCg (s.cg.orSts bLATCH_LOST (lanesOf act)) else s) := by
  have hf : (regs ++ latchRegs s lat).find? (fun r => !(poisonLanes s.cg act r).isEmpty) = none := by
    simp only [List.find?_eq_none]
    intro r hr
    simp [h r hr]
  simp only [vpre, hf]
  by_cases hl : lat.any (latchLost s) <;> simp [hl]

/-- The state after the operands were read. -/
def afterRead (s : State) (act : Word32) (lat : List Nat) : State :=
  if lat.any (latchLost s) then s.setCg (s.cg.orSts bLATCH_LOST (lanesOf act)) else s

theorem afterRead_cur (s : State) (act : Word32) (lat : List Nat) : (afterRead s act lat).cur = s.cur := by unfold afterRead; split <;> rfl

theorem afterRead_cg (s : State) (act : Word32) (lat : List Nat) :
    (afterRead s act lat).cg = { s.cg with status := (afterRead s act lat).cg.status } := by
  unfold afterRead
  split
  · rw [State.cg_setCg]; exact Group.orSts_only _ _ _
  · rfl

theorem afterRead_st (s : State) (act : Word32) (lat : List Nat) (l : Nat) (hl : l < 32) :
    (afterRead s act lat).cg.st l = if inMask act l = true ∧ lat.any (latchLost s) = true then s.cg.st l ||| (1#32 <<< bLATCH_LOST) else s.cg.st l := by
  unfold afterRead
  by_cases h : lat.any (latchLost s) = true
  · simp [h, Group.st_orSts, mem_lanesOf, hl]
  · simp [h]

theorem OnlyGroup.refl (s : State) : OnlyGroup s s := ⟨rfl, fun _ _ => rfl⟩

/-- Writing the executing group leaves everything else. -/
theorem OnlyGroup.setCg (s : State) (g : Group) : OnlyGroup s (s.setCg g) := ⟨rfl, fun _ h => State.grp_setCg_ne s g h⟩

theorem OnlyGroup.cur {s t : State} (h : OnlyGroup s t) : t.cur = s.cur := by rw [h.1]
theorem OnlyVector.cur {s t : State} (h : OnlyVector s t) : t.cur = s.cur := by rw [h.1]

theorem OnlyGroup.trans {s t u : State} (h : OnlyGroup s t) (k : OnlyGroup t u) : OnlyGroup s u :=
  ⟨by rw [k.1, h.1], fun i hi => (k.2 i (by rw [h.cur]; exact hi)).trans (h.2 i hi)⟩

theorem OnlyVector.refl (s : State) : OnlyVector s s := ⟨rfl, fun _ => rfl, fun _ _ => rfl⟩

theorem OnlyVector.trans {s t u : State} (h : OnlyVector s t) (k : OnlyVector t u) : OnlyVector s u :=
  ⟨by rw [k.1, h.1], fun c => by rw [k.2.1 c, h.2.1 c], fun i hi => (k.2.2 i (by rw [h.cur]; exact hi)).trans (h.2.2 i hi)⟩

theorem OnlyGroup.toVector {s t : State} (h : OnlyGroup s t) : OnlyVector s t :=
  ⟨by rw [h.1], fun c => by rw [h.1]; rfl, h.2⟩

theorem OnlyVector.sameMem {s t : State} (h : OnlyVector s t) : SameMem s t := by
  intro a ha
  have hm : t.mem = s.mem := by rw [h.1]
  have he : t.enc = s.enc := by rw [h.1]
  have hk : t.keys = s.keys := by rw [h.1]
  have ht : t.keytag = s.keytag := by rw [h.1]
  have e1 : encKey t a = encKey s a := by simp [encKey, he]
  have e2 : curKey t a = curKey s a := by simp [curKey, keyTag, hk, ht]
  have e3 : unitBytes t a = unitBytes s a := by simp [unitBytes, hm]
  simp only [State.rdByte, ha, e1, e2, e3, hm]
  rfl

theorem OnlyGroup.sameMem {s t : State} (h : OnlyGroup s t) : SameMem s t := h.toVector.sameMem

theorem afterRead_only (s : State) (act : Word32) (lat : List Nat) : OnlyGroup s (afterRead s act lat) := by
  unfold afterRead
  split
  · exact OnlyGroup.setCg _ _
  · exact OnlyGroup.refl s

/-! Writing results. -/

theorem pushLatch_cg (s : State) (d : Nat) (n : Bool) (vals : LaneVals) (pend : Option Nat) :
    (pushLatch s d n vals pend).cg = { s.cg with tags := ((d, n) :: s.cg.tags).take 4 } := by
  simp [pushLatch]

theorem pushLatch_only (s : State) (d : Nat) (n : Bool) (vals : LaneVals) (pend : Option Nat) : OnlyVector s (pushLatch s d n vals pend) := by
  refine ⟨rfl, fun c => ?_, fun i hi => ?_⟩
  · by_cases h : c = s.ct.core
    · subst h; simp [pushLatch, State.cc]
    · simp [pushLatch, State.core_setCore_ne _ _ h]
  · exact State.grp_setCg_ne (s.setCore _ _) _ hi

/-- A single result, without a counter: its register elements, then in the L-encoding the latches. -/
theorem putVec_one (s : State) (h : VH) (d : Nat) (act : Word32) (f : Nat → Word64) :
    WritesVec s (putVec s h.n [(d, vlanes act f)]) h act d f ∧
    (∀ l, (putVec s h.n [(d, vlanes act f)]).cg.st l = s.cg.st l) ∧
    OnlyVecs s.cg (putVec s h.n [(d, vlanes act f)]).cg ∧ OnlyVector s (putVec s h.n [(d, vlanes act f)]) := by
  have key : ∀ s1 : State, OnlyVector s s1 → s1.cg = (if h.n then s.cg else wrVals s.cg d (vlanes act f)) →
      ∀ t : State, OnlyVector s1 t → t.cg = { s1.cg with tags := t.cg.tags } →
      WritesVec s t h act d f ∧ (∀ l, t.cg.st l = s.cg.st l) ∧ OnlyVecs s.cg t.cg ∧ OnlyVector s t := by
    intro s1 h1 hg t h2 ht
    have hfr := wrVals_frame d (vlanes act f) s.cg
    refine ⟨fun r l hl => ?_, fun l => ?_, ?_, h1.trans h2⟩
    · have : t.cg.velem r l = s1.cg.velem r l := by rw [Group.velem, ht]; rfl
      rw [this, hg]
      by_cases hn : h.n = true
      · simp [hn]
      · simp only [hn, if_false, Bool.false_eq_true]
        rw [show vlanes act f = (lanesOf act).map fun k => (k, f k) from rfl,
          wrVals_velem d f r l hl _ _ (fun k hk => (mem_lanesOf.1 hk).1)]
        simp [mem_lanesOf, hl]
    · have : t.cg.st l = s1.cg.st l := by rw [Group.st, ht]; rfl
      rw [this, hg]
      by_cases hn : h.n = true
      · simp [hn]
      · simp only [hn, if_false, Bool.false_eq_true]
        rw [Group.st, hfr]; rfl
    · unfold OnlyVecs
      rw [ht, hg]
      by_cases hn : h.n = true
      · simp [hn]
      · simp only [hn, if_false, Bool.false_eq_true]
        rw [hfr]
  by_cases hn : h.n = true
  · by_cases hL : s.isL = true
    · have e : putVec s h.n [(d, vlanes act f)] = pushLatch s d h.n (vlanes act f) none := by simp [putVec, hn, hL]
      rw [e]
      exact key s (OnlyVector.refl s) (by simp [hn]) _ (pushLatch_only _ _ _ _ _) (by rw [pushLatch_cg])
    · have e : putVec s h.n [(d, vlanes act f)] = s := by simp [putVec, hn, hL]
      rw [e]
      exact key s (OnlyVector.refl s) (by simp [hn]) _ (OnlyVector.refl s) rfl
  · have hL : (s.setCg (wrVals s.cg d (vlanes act f))).isL = s.isL := by
      simp only [State.isL, State.ct, State.cg_setCg, State.setCg_team]
      rw [wrVals_frame d (vlanes act f) s.cg]
    by_cases hi : s.isL = true
    · have e : putVec s h.n [(d, vlanes act f)] = pushLatch (s.setCg (wrVals s.cg d (vlanes act f))) d h.n (vlanes act f) none := by
        simp [putVec, hn, hi]
      rw [e]
      exact key _ (OnlyGroup.setCg _ _).toVector (by simp [hn]) _ (pushLatch_only _ _ _ _ _) (by rw [pushLatch_cg])
    · have e : putVec s h.n [(d, vlanes act f)] = s.setCg (wrVals s.cg d (vlanes act f)) := by simp [putVec, hn, hi]
      rw [e]
      exact key _ (OnlyGroup.setCg _ _).toVector (by simp [hn]) _ (OnlyVector.refl _) rfl

/-- Everything a word with one vector result per lane can do once its operands are ready. -/
theorem vword_ready (s : State) (h : VH) (d : Nat) (regs : List Nat) (ops : List Opnd) (f : State → Nat → Word64) :
    VecWord s h d (regs ++ ops.flatMap (opRegs false)) (ops.flatMap (opLatches false)) (f s) (vword s h d regs ops f).out := by
  intro hr
  have hv := vpre_ready (lat := ops.flatMap (opLatches false)) hr
  let s1 := afterRead s (active s h) (ops.flatMap (opLatches false))
  have hp := putVec_one s1 h d (active s h) (f s)
  refine ⟨putVec s1 h.n [(d, vlanes (active s h) (f s))], ?_, ?_, ?_, ?_, ?_⟩
  · simp only [vword, hv]; rfl
  · intro r l hl
    rw [hp.1 r l hl]
    have : s1.cg.velem r l = s.cg.velem r l := by rw [Group.velem, afterRead_cg]; rfl
    rw [this]
  · intro l hl
    rw [hp.2.1 l]; exact afterRead_st s _ _ l hl
  · have a := hp.2.2.1
    have b := afterRead_cg s (active s h) (ops.flatMap (opLatches false))
    unfold OnlyVecs at a ⊢
    rw [a, show s1.cg = _ from b]
  · exact (afterRead_only s _ _).toVector.trans hp.2.2.2

end Sys2Proof.Machine
end

