-- ==== Sys2Proof/Tests/Slice0.lean ====
section
/-! SUPPORT. Tests of the model: ill-formed terms that WellFormed refuses, words written out from the spec's encodings, one step on small
states with results from the spec's own examples, and for each statement a state and operands that meet its hypotheses. -/
namespace Sys2Proof.Tests
open Sys2Proof.Machine

set_option Elab.async false

/-! Helpers: the machine with a word in hand, as fetch leaves it, and small changes of that state. -/

/-- The machine after the fetch of a word placed at PC 0 of a team of one group. -/
def fetched (isL : Bool) (w : Nat) : State :=
  match fetch (placeWord State.reset (tableBytes w) isL).draw.tick 0 0 false with
  | .word _ t _ => { t with agenda := [] }
  | .ended t => t
/-- A nop in hand on an L-core and on a D-core. -/
def handL : State := fetched true 0x70000000
def handD : State := fetched false 0x70000000
/-- What a step that goes on leaves, as f sees it. -/
def after {α : Type} (o : Out) (f : State → α) : Option α := match o with
  | .next t => some (f t)
  | _ => none
/-- A meaning goes on. -/
def goesOn (o : Out) : Bool := (after o fun _ => ()).isSome
theorem goesOn_next {o : Out} (h : goesOn o = true) : ∃ t, o = .next t := by
  cases o with
  | next t => exact ⟨t, rfl⟩
  | fault r => exact nomatch h
  | refused r => exact nomatch h
def group (s : State) (f : Group → Group) : State := s.setCg (f s.cg)
def team (s : State) (f : Team → Team) : State := s.setTeam s.cg.team (f s.ct)
def ctx0 (s : State) (f : Ctx → Ctx) : State := s.setCtx 0 (f (s.ctx 0))
def onCore (s : State) (f : CoreSt → CoreSt) : State := s.setCore s.ct.core (f s.cc)
def split (s : State) (f : Split → Split) : State := s.setSp (f s.sp)
/-- The launch of context 0 changed. -/
def launch (s : State) (f : Launch → Launch) : State :=
  ctx0 s fun x => { x with slots := x.slots.map fun e => (e.1, { e.2 with blk := e.2.blk.map f }) }
/-- One row of the hinge table, at address 4096, with this ID and QUIET set. -/
def rowed (s : State) (id : Nat) : State :=
  (launch s fun l => { l with hcount := 1 }).wrCells (cellsOf (2 ^ 25 + 4096) (toBytes 2 id ++ [1]))
/-- Two lanes, 0 and 5, go on; the others are outside the split. -/
def two (s : State) : State := split s fun p => { p with mask := 0x21 }
/-- One more split of all lanes. -/
def more (s : State) (n : Nat) : State := group s fun g => { g with splits := g.splits ++ List.replicate n placeSplit }
def plain : VH := VH.plain
/-- A guard that admits no lane of a group whose predicates are false. -/
def never : VH := ⟨false, 1, 1⟩
def item0 : PoolItem := ⟨0, 0, 0, none⟩
def copy0 : CpyF := ⟨.b32, 0, 0, 0, 0, 0, false, false, 0, 0, 0, 0⟩
def ccmd0 : CCmd := ⟨copy0, 0, 0, 0, 0, 0, false, 0, [], FaultAt.none 0 0⟩
def mcmd0 : MCmd := MCmd.init

/-! Witnesses: for each statement with hypotheses, a state and operands that meet them. -/

theorem wit_ScalarRegisterResults : handL.rS 2 = 0xE00000 ∧ handL.rS 3 = 4096 ∧ handD.rS 0 = 0 := by decide +kernel

theorem wit_ScalarImmediatesAndCompares : handL.rS 3 = 4096 ∧ (63 < 64) ∧ handD.rS 4 = 1 := by decide +kernel

theorem wit_ScalarWordFrame :
    (∃ t, scalarDest (.sadd 5 2 3) = some 5 ∧ exec (.sadd 5 2 3) handL = .next t) ∧ (∃ t, scalarDest (.crd 0 0) = some 0 ∧ exec (.crd 0 0) handD = .next t) := by
  obtain ⟨t, h⟩ := goesOn_next (show goesOn (exec (.sadd 5 2 3) handL) = true by decide +kernel)
  obtain ⟨u, k⟩ := goesOn_next (show goesOn (exec (.crd 0 0) handD) = true by decide +kernel)
  exact ⟨⟨t, rfl, h⟩, u, rfl, k⟩

theorem wit_ControlAndStatusRegisters :
    ((handL.wS 5 3).rS 5).toNat % 8 < 4 ∧ 4 ≤ ((handL.wS 5 4).rS 5).toNat % 8 ∧ inMask (active handL plain) 31 = true ∧ (opLatches false (.v 3)).any (latchLost handL) = false ∧
    inMask (active handL never) 31 = false := by decide +kernel
theorem wit_ready : Ready handL (active handL plain) [0, 1, 2, 3, 4, 5, 6, 7, 767] ∧ Ready handD (active handD plain) [0, 1, 2, 3, 4, 5, 6, 7, 767] := by
  unfold Ready; decide +kernel

def queued (n : Nat) : State := split handD fun p => { p with queue := List.replicate n ⟨0, 0, true⟩ }
theorem wit_BranchTargetsAndQueueWaits :
    queueEmpty handL = true ∧ queueEmpty handD = true ∧ needsEmptyQueue (.br 0) = true ∧ queueEmpty (queued 1) = false ∧ (queued 1).sp.items = [] ∧ (queued 1).cur.isV = false ∧
    SplitHere (queued 1) := by unfold SplitHere; decide +kernel

def fourSplits : State := group (more handL 3) fun g => { g with defer := List.replicate 5 ⟨2, 8, 0, 0, 0, 0, 0, 0⟩ }
theorem wit_BranchesDivideLanes :
    queueEmpty fourSplits = true ∧ SplitHere fourSplits ∧ fourSplits.cg.splits.length ≤ 4 ∧ fourSplits.cg.defer.length ≤ 5 ∧ inMask fourSplits.sp.mask 31 = true := by
  unfold SplitHere; decide +kernel

def copying : State := onCore handL fun c => { c with cq := [ccmd0] }
theorem wit_OrderingWords :
    (teamLaunch handD handD.ct = some placeLaunch ∧ 0 + 1 ≤ placeLaunch.dllen ∧ (queued 63).sp.queue.length + 1 ≤ 64 ∧ 64 < (queued 64).sp.queue.length + 1 ∧
      teamLaunch (queued 64) (queued 64).ct = some placeLaunch) ∧
    (NoTx handL ∧ ∀ q ∈ handL.cc.cq, q.gh ≠ handL.cur.gh ∨ q.f.stream ≠ 0) ∧ (NoTx copying ∧ ∃ q ∈ copying.cc.cq, q.gh = copying.cur.gh ∧ q.f.stream = 0) ∧
    (releases 3 = true ∧ relReady handL handL.cur.gh 0 handL.seq = true ∧ releases 1 = false) ∧ relReady copying copying.cur.gh 0 copying.seq = false ∧
    (∀ k, k < 16 → (0x8001#16).getLsbD k = true → relReady handL handL.cur.gh k handL.seq = true) ∧
    ((0x8001#16).getLsbD 0 = true ∧ (0x8001#16).getLsbD 15 = true ∧ inMask handL.sp.mask 31 = true) := by
  unfold NoTx; decide +kernel

/-- A team of n groups, of which only group 0 is here, and a barrier that every other one has reached. -/
def sized (n : Nat) (b : Nat × Word32) : State := team (rowed handL 17) fun t => { t with size := n, nb := [(15, b)] }
theorem wit_NamedBarriers :
    (AloneHere (sized 1 (0, 0)) ∧ hingeRow (sized 1 (0, 0)) = .row ⟨17, true, 0, 0, 0, 0, 0⟩ ∧ 1 ≤ (sized 1 (0, 0)).ct.size ∧ fld ((sized 1 (0, 0)).rS 4) 5 0 = 1 ∧
      (lanesOf (0#32 ||| (1#32 <<< (sized 1 (0, 0)).cg.idx))).length = 1) ∧
    (AloneHere (sized 32 (32, 0xFFFFFFFE)) ∧ (sized 32 (32, 0xFFFFFFFE)).cg.idx = 0 ∧ inMask 0xFFFFFFFE 0 = false ∧
      mget (0, 0) (sized 32 (32, 0xFFFFFFFE)).ct.nb 15 = (32, 0xFFFFFFFE) ∧ fld (((sized 32 (32, 0xFFFFFFFE)).wS 5 32).rS 5) 5 0 = 32 ∧ (lanesOf 0xFFFFFFFF).length = 32) ∧
    (AloneHere (sized 2 (0, 0)) ∧ fld (((sized 2 (0, 0)).wS 5 2).rS 5) 5 0 = 2 ∧ (lanesOf (0#32 ||| (1#32 <<< (sized 2 (0, 0)).cg.idx))).length ≠ 2) := by
  unfold AloneHere NoTx; decide +kernel

def pairOfGroups : State := (sized 2 (0, 0)).setGrp 1 { handL.cg with idx := 1 }
theorem wit_TeamAndQuireBarriers :
    AloneHere (rowed handL 17) ∧ hingeRow (rowed handL 17) = .row ⟨17, true, 0, 0, 0, 0, 0⟩ ∧
    (AloneHere pairOfGroups ∧ liveGroups pairOfGroups 0 pairOfGroups.ct &&& ~~~(pairOfGroups.ct.tbar ||| (1#32 <<< pairOfGroups.cg.idx)) ≠ 0) ∧
    (let s := rowed handL 17
     liveGroups s s.cg.team s.ct &&& ~~~(s.ct.tbar ||| (1#32 <<< s.cg.idx)) = 0 ∧ liveGroups s s.cg.team s.ct &&& ~~~(s.ct.qarr ||| (1#32 <<< s.cg.idx)) = 0 ∧
     s.teams = [(s.cg.team, s.ct)] ∧ s.ct.gone = false ∧ s.ct.saved = false ∧ s.ct.peers = []) := by
  unfold AloneHere NoTx; decide +kernel
/-- A window of the team is bound to the team of core 1, which has not come to its qbar. -/
def boundPair : State := (team (rowed handL 17) fun t => { t with peers := [(1, .team 1)] }).setTeam 1 { handL.ct with core := 1 }
theorem wit_TeamAndQuireBarriers_bound :
    let s := boundPair
    AloneHere s ∧ hingeRow s = .row ⟨17, true, 0, 0, 0, 0, 0⟩ ∧ liveGroups s s.cg.team s.ct &&& ~~~(s.ct.qarr ||| (1#32 <<< s.cg.idx)) = 0 ∧
    (1 < 5 ∧ 1 ≠ posOf s.ct.core ∧ (s.ct.qmask ||| 2).testBit 1 = true ∧ mget Peer.unbound s.ct.peers 1 = .team 1 ∧ 1 ≠ s.cg.team ∧ (s.team 1).gone = false ∧
      (s.team 1).qphase ≤ s.ct.qphase) ∧ ∀ e ∈ s.teams, e.1 ≠ s.cg.team → e.2.qarr = 0 := by
  unfold AloneHere NoTx; decide +kernel

theorem wit_MigrationDeclined :
    let s := rowed handL 17
    AloneHere s ∧ hingeRow s = .row ⟨17, true, 0, 0, 0, 0, 0⟩ ∧ preempted s s.ct = false ∧ s.ct.moving = false ∧ s.ct.size = 1 ∧ s.ct.pair = none ∧
    (s.grp (handle s.cg.team 0)).retired = false ∧ s.groups.any (fun e => e.1 == s.cur.gh) = true := by
  unfold AloneHere NoTx; decide +kernel

def frame0 : Frame := ⟨0xFFFFFFFF, 4, 0, [], 1, 2, 3, 4, 5, 6, 7⟩
theorem wit_HingeTrapReturn :
    (let s := rowed handL 17
     queueEmpty s = true ∧ NoTx s ∧ s.sp.mask ≠ 0 ∧ SplitHere s ∧ hingeRow s = .row ⟨17, true, 0, 0, 0, 0, 0⟩ ∧ preempted s s.ct = false ∧ s.cg.frame = none) ∧
    (let s := team (rowed handL 17) fun t => { t with preempt := true }
     queueEmpty s = true ∧ preempted s s.ct = true ∧ s.cg.frame = none) ∧
    (let s := rowed handD 0xFFFE
     queueEmpty s = true ∧ NoTx s ∧ s.sp.mask ≠ 0 ∧ SplitHere s ∧ s.cg.frame = none ∧ teamLaunch s s.ct = some { placeLaunch with hcount := 1 } ∧
     findRow s s.ct.ctx s.ct.core (whoRow s.cur.gh) (fun r => r.id == 0xFFFE) 4096 1 = .row ⟨0xFFFE, true, 0, 0, 0, 0, 0⟩) ∧
    (group handL fun g => { g with frame := some frame0 }).cg.frame = some frame0 := by
  unfold NoTx SplitHere; decide +kernel

theorem wit_LaneEnds :
    (queueEmpty handL = true ∧ NoTx handL ∧ SplitHere handL ∧ handL.cg.defer = [] ∧ handL.cg.spills = 0 ∧ NoBarriers handL ∧ handL.cg.splits.length = 1 ∧
      handL.cg.retired = false ∧ handL.ct.pair = none ∧ ∀ e ∈ handL.cores, ∀ w ∈ e.2.waits, w.team ≠ handL.cg.team) ∧
    (let s := more handL 1
     NoBarriers s ∧ 2 ≤ s.cg.splits.length ∧ ∀ p ∈ s.cg.splits, p.hold = .none) ∧
    (let s := group handL fun g => { g with splits := g.splits ++ [{ placeSplit with hold := .bar 16 0 }], defer := List.replicate 8 ⟨2, 8, 0, 0, 0, 0, 0, 0⟩ }
     s.cg.defer ≠ [] ∧ s.ct.migarr = 0 ∧ s.cg.splits.map (·.hold) = [.none, .bar 16 0]) := by
  unfold NoTx SplitHere NoBarriers; decide +kernel
/-- Two other splits of the group wait: at a named barrier that one group completes, and at a mig at which the team's other group has not arrived. -/
theorem wit_LaneEnds_waits :
    let s := group pairOfGroups fun g => { g with splits := g.splits ++ [{ placeSplit with hold := .bar 3 1 }, { placeSplit with hold := .mig 5 true }] }
    queueEmpty s = true ∧ NoTx s ∧ SplitHere s ∧ s.cg.spills = 0 ∧ s.cg.splits.map (·.hold) = [.none, .bar 3 1, .mig 5 true] ∧ s.ct.migarr = 0 ∧ 1 ≤ s.ct.size ∧
    (mget (0, 0) s.ct.nb 3).1 = 0 ∧ (s.groups.any fun e => e.1 == handle s.cg.team 1 && !e.2.retired && e.1 != s.cur.gh) = true ∧ 1 < s.ct.size ∧ 1 ≠ s.cg.idx := by
  unfold NoTx SplitHere; decide +kernel
/-- A team of one group, and one with another group that has not retired. -/
theorem wit_LaneEnds_team :
    handL.groups.map Prod.fst = [handL.cur.gh] ∧ handL.ct.size ≤ 32 ∧ NoBarriers pairOfGroups ∧ pairOfGroups.cg.splits.length = 1 ∧
    (pairOfGroups.groups.any fun e => e.1 == handle pairOfGroups.cg.team 1 && !e.2.retired && e.1 != pairOfGroups.cur.gh) = true := by
  unfold NoBarriers; decide +kernel

/-- Lanes 4 to 31 are done, and bin 0 of the core holds items. -/
def doneLanes (s : State) (n : Nat) : State :=
  (group s fun g => { g with done := 0xFFFFFFF0 }).setBin s.ct.core 0 { Bin.init with banks := if n = 0 then [] else [(0, List.replicate n item0)] }
theorem wit_TakeFillsLanes :
    (queueEmpty handL = true ∧ NoTx handL ∧ SplitHere handL ∧ teamLaunch handL handL.ct = some placeLaunch ∧ handL.cg.done = 0) ∧
    (let s := doneLanes handL 1
     NoTx s ∧ s.cg.done ≠ 0 ∧ fillable s (takeWaiters s s.ct.core s.ct.entry) = [] ∧ binCount (s.bin s.ct.core s.ct.entry) ≠ 0 ∧ (s.bin s.ct.core s.ct.entry).wf) ∧
    (let s := doneLanes handL 0
     s.cg.done ≠ 0 ∧ binCount (s.bin s.ct.core s.ct.entry) = 0) ∧
    (let s := doneLanes (more handL 1) 1
     let w := s.setCg { s.cg with splits := [s.sp, { placeSplit with hold := .take false 5 3 }] }
     fillable w (takeWaiters w w.ct.core w.ct.entry) ≠ []) := by
  unfold NoTx SplitHere Bin.wf; decide +kernel
theorem wit_TakeFillsLanes_poison :
    ∀ p ∈ [none, some 7], let s := (doneLanes handL 1).setBin 0 0 { Bin.init with pops := 2 ^ 16, banks := [(0, [{ item0 with pois := p }])] }
      poisonAt (popItems placeLaunch 0 0 28 s []).1 = p ∧ fillable s (takeWaiters s 0 0) = [] ∧ binCount (s.bin 0 0) ≠ 0 := by decide +kernel

/-- Bin 0 is full, where its die has no backing region. -/
def fullBin : State := handL.setBin 0 0 { Bin.init with banks := [(7, List.replicate 64 item0)] }
theorem wit_ItemsAreMade :
    (NoTx handL ∧ SplitHere handL ∧ handL.sp.items = [] ∧ teamLaunch handL handL.ct = some placeLaunch ∧
      (∀ e, e < 16 → (handL.bin handL.ct.core e).wf ∧ binCount (handL.bin handL.ct.core e) + 32 ≤ binCap placeLaunch)) ∧
    (∀ e, e < 16 → (fullBin.bin fullBin.ct.core e).wf ∧
      if e = 0 then binCap placeLaunch ≤ binCount (fullBin.bin fullBin.ct.core e) ∧ backingRoom fullBin (dieOf fullBin.ct.core) fullBin.ct.ctx = false
      else binCount (fullBin.bin fullBin.ct.core e) + 32 ≤ binCap placeLaunch) ∧
    Ready handL (active handL plain) ((List.range 7).map (10 + ·) ++ opRegs false .zero) ∧
    (∀ k ∈ lanesOf (active handL plain), rowUsed placeLaunch (fld (rdOp handL .zero k) 35 32) = true) ∧ queueEmpty handL = true ∧
    (∃ k ∈ lanesOf (active handL plain), rowUsed placeLaunch (fld (rdOp ((handL.wS 5 0x700000000)) (.s 5) k) 35 32) = false) ∧
    Ready handL handL.sp.mask ((List.range 7).map (10 + ·)) ∧ handL.sp.mask ≠ 0 ∧ rowUsed placeLaunch (fld (handL.rS 5) 35 32) = true ∧
    rowUsed placeLaunch (fld ((handL.wS 5 0x700000000).rS 5) 35 32) = false ∧
    bisectable fp32 (x32Read 0x400000003F800000) = true ∧ bisectable fp32 (x32Read 0) = false := by
  unfold NoTx SplitHere Ready Bin.wf; decide +kernel
/-- An item for bin 0 is on its way to core 8. -/
def landing : State := { (handL).setCore 8 { handL.core 8 with flying := [0] } with agenda := [.land 8 0] }
theorem wit_ItemsAreMade_landing :
    landing.agenda = [.land 8 0] ∧ (landing.core 8).flying[0]? = some 0 ∧ itemEntry 0 = 0 ∧ (landing.bin 8 (itemEntry 0)).wf ∧ running landing 0 = some (0, placeLaunch) := by
  unfold Bin.wf; decide +kernel
theorem wit_ItemsAreMade_load :
    (∀ e, e < 16 → binLoad handL handL.ct.core e + 32 ≤ binCap placeLaunch) ∧ binCap placeLaunch ≤ binLoad fullBin fullBin.ct.core 0 ∧
    Ready handL (maskOf ((lanesOf handL.sp.mask).filter fun k => bisectable fp32 (x32Read (handL.cg.rV handL.free 10 k)))) ((List.range 6).map (11 + ·)) := by
  unfold Ready; decide +kernel

theorem wit_GraceWords :
    (NoTx handL ∧ SplitHere handL ∧ handL.cctx.grace = false) ∧ (ctx0 handL fun x => { x with grace := true }).cctx.grace = true ∧
    ((handL.rS 0).toNat % 8 = 0 ∧ (handL.rS 3).toNat % 16 = 0 ∧ canonical 0 = true ∧ canonical 4096 = true ∧ gdeferRoom handL handL.ct.ctx (dieOf handL.ct.core) = true) ∧
    canonical 0x8000000000000000 = false ∧
    ((handL.wS 5 4).rS 5).toNat % 8 ≠ 0 ∧ ((handL.wS 5 8).rS 5).toNat % 16 ≠ 0 ∧ ((handL.wS 5 8).rS 5).toNat % 8 = 0 := by
  unfold NoTx SplitHere; decide +kernel

/-- A die whose queue of deferred frees is full. -/
theorem wit_GraceWords_full (s : State) (n : Nat) (h : 65536 ≤ n) :
    gdeferRoom (ctx0 s fun x => { x with defers := List.replicate n ⟨0, 0, 0, 0⟩ }) 0 0 = false := by
  simpa [gdeferRoom, ctx0, List.filter_replicate] using h

/-- Trace events on, at die 0; snapshots armed for event triggers. -/
def tracing (s : State) : State := s.setReg (rTRCCTL 0) 0x02000000
def armed (s : State) : State := s.setReg rSNAPCTL 3
theorem wit_TimeAndMarks :
    dieOf handL.ct.core = 0 ∧ fld (handL.reg (rTRCCTL 0)) 25 25 = 0 ∧ fld ((tracing handL).reg (rTRCCTL 0)) 25 25 = 1 ∧
    isPeer (mget 0 (tracing handL).io.trcBase 0 + 32 * fld ((tracing handL).reg (rTRCPTR 0)) 20 0 + 31) = false ∧
    fld ((armed handL).reg (rTRCCTL 0)) 25 25 = 0 ∧ fld ((armed handL).reg rSNAPCTL) 1 1 = 1 ∧ fld ((armed handL).reg rSNAPCTL) 0 0 = 1 ∧ (armed handL).io.trig = none := by
  decide +kernel

theorem wit_VectorArithmeticAndLogic : isSigned .i32 = true ∧ isSigned .i64 = true ∧ Ready handD (active handD plain) ([.v 3, .s 2, .lane].flatMap (opRegs false)) := by
  unfold Ready; decide +kernel

def trapping (s : State) (n : Nat) : State := group s fun g => { g with trapen := n }
theorem wit_VectorDivision :
    trapDiv handL = false ∧
    (let bad (s : State) (b : Opnd) := (lanesOf (active s plain)).filter fun l => decide (valW .i32 (rdW s .i32 b l) = 0)
     trapDiv (trapping handL 1) = true ∧ bad (trapping handL 1) .zero ≠ [] ∧ bad (trapping handL 1) (.s 4) = [] ∧
     Ready (trapping handL 1) (active (trapping handL 1) plain) ([.s 3, .zero].flatMap (opRegs false))) := by
  unfold Ready; decide +kernel

def indexed (n : Nat) : State := group handL fun g => { g with j := [(3, n)] }
theorem wit_VectorFieldsMovesAndCompares :
    (31 + 1 ≤ wOf .i32 ∧ 0 + 64 ≤ wOf .b64) ∧ mget 0 (indexed 767).cg.j 3 + 0 < (indexed 767).cg.allot ∧ (indexed 768).cg.allot ≤ mget 0 (indexed 768).cg.j 3 + 0 ∧
    (indexed 0).cg.allot ≤ mget 0 (indexed 0).cg.j 3 + 768 := by decide +kernel

theorem wit_IntervalArithmetic :
    trapNai handL = false ∧ trapNai (trapping handL 2) = true ∧
    (∀ l, l < 32 → inMask (active (trapping handL 2) plain) l = true →
      ((List.range (ivlCount .x32)).map fun j => ivlArith (boundFmt .x32) .add [rdIvl (trapping handL 2) .x32 .zero l j, rdIvl (trapping handL 2) .x32 .zero l j]).any
        (fun r => r.2.2) = false) ∧
    Ready handL (active handL plain) ([.v 0, .v 2].flatMap (opRegs true)) := by
  unfold Ready; decide +kernel
/-- v3 holds NaI in lane 0 and [1, 2] in lane 1; the trap INTERVAL_NAI is enabled. -/
def withNai : State := group (trapping handL 2) fun g => { g with v := [(96, 0x7FC000007FC00000), (97, 0x400000003F800000)] }
theorem wit_IntervalArithmetic_trap :
    trapNai withNai = true ∧ ((lanesOf (active withNai plain)).filter fun l => ((List.range (ivlCount .x32)).map fun j =>
      ivlArith (boundFmt .x32) .neg [rdIvl withNai .x32 (.v 3) l j]).any fun r => r.2.2) = [0] ∧ Ready withNai (active withNai plain) ([.v 3].flatMap (opRegs false)) := by
  unfold Ready; decide +kernel

theorem wit_IntervalSpecialCasesAndRelations :
    Ivl.nai ∈ [Ivl.nai, .empty] ∧ Ivl.nai ∉ [Ivl.empty] ∧ Ivl.empty ∈ [Ivl.empty] ∧
    ((Q.mk (-1) 1).n < 0 ∧ 0 < (Q.mk (-1) 1).d) ∧ ((Q.mk 0 1).n ≤ 0 ∧ 0 ≤ (Q.mk 0 1).n) ∧
    (ivlBits fp32 0x3F800000 0x3F800000 = .mk (.fin ⟨8388608, 8388608⟩) (.fin ⟨8388608, 8388608⟩)) ∧ ivlBits fp32 0x7FC00000 0x7FC00000 = .nai ∧ ivlBits fp32 0x7F800000 0xFF800000 = .empty := by
  decide +kernel
/-- The three decorations: a dropped domain, an unbounded operand, neither. -/
theorem wit_IntervalSpecialCasesAndRelations_deco :
    ([(xZero, .pinf)] : List (XR × XR)).length = 1 ∧ (xLe xZero xZero && xLe xZero .pinf) = true ∧
    ([(xZero, .pinf)].any fun (b : XR × XR) => !(xIsFin b.1 && xIsFin b.2)) = true ∧ (match (ivlArith fp32 .neg [.mk xZero xZero]).1 with
      | .mk lo hi => !(xIsFin lo && xIsFin hi)
      | _ => false) = false := by decide +kernel

theorem wit_IntervalEnclosure :
    let x : Ivl := .mk (.fin ⟨1, 1⟩) .pinf
    x.ok ∧ x.has ⟨1, 1⟩ ∧ x.has ⟨7, 2⟩ ∧ (0 : Int) < 1 ∧ fp64 ∈ [fp64, fp32, bf16, fp16] :=
  ⟨by simp [Ivl.ok], ⟨by decide +kernel, by decide +kernel⟩, ⟨by decide +kernel, by decide +kernel⟩, by decide, by decide⟩
theorem wit_IntervalEnclosure_rounding :
    cmFmt ∈ [fp64, fp32, bf16, fp16, cmFmt] ∧ roundQ fp16 .near ⟨1, 3⟩ = .fin false 0x3555 ∧ 0x3555 ≤ fp16.top ∧ qLe (fpVal fp16 false 0x3555) ⟨1, 3⟩ = true ∧
    qLe ⟨1, 3⟩ (fpVal fp16 false 0x3556) = true ∧ roundQ fp16 .near ⟨-70000, 1⟩ = .inf true := by decide +kernel

theorem wit_IntervalSetsAndBounds : trapNai handD = false ∧ Ready handD (active handD plain) ([.v 1, .v 2].flatMap (opRegs false)) := by
  unfold Ready; decide +kernel
theorem wit_IntervalSetsAndBounds_numbers :
    0x3C00 ≤ fp16.top ∧ qLe (fpVal fp16 true 0x3C00) (fpVal fp16 false 0x3C00) = true ∧ ivlBits fp16 0xBC00 0x3C00 ≠ .nai ∧ ivlBits fp16 0xBC00 0x3C00 ≠ .empty ∧
    xIsFin .pinf = false ∧ qLe (fpVal fp16 false fp16.top) (fpVal fp16 false fp16.top) = true := by decide +kernel
theorem wit_IntervalSetsAndBounds_trap :
    trapNai withNai = true ∧ ((lanesOf (active withNai plain)).filter fun l => (rdIvl withNai .x32 (.v 3) l 0).isNai) = [0] := by decide +kernel

theorem wit_IntervalTests :
    trapNai handL = false ∧ trapNai (trapping handL 2) = true ∧
    (∀ l, l < 32 → inMask (active (trapping handL 2) plain) l = true → (rdIvl (trapping handL 2) .x32 (.v 0) l 0).isNai = false) ∧ (3 < 4) ∧
    (∃ half : Nat → Nat → Ivl, ∀ l j, half l j =
      if bisectable fp32 (rdIvl handL .x32 (.v 0) l j) then halfI fp32 true (rdIvl handL .x32 (.v 0) l j) else rdIvl handL .x32 (.v 0) l j) := by
  refine ⟨by decide +kernel, by decide +kernel, by decide +kernel, by decide, ?_⟩
  exact ⟨fun l j => if bisectable fp32 (rdIvl handL .x32 (.v 0) l j) then halfI fp32 true (rdIvl handL .x32 (.v 0) l j) else rdIvl handL .x32 (.v 0) l j, fun _ _ => rfl⟩
theorem wit_IntervalTests_halves :
    (∃ l h, ivlBits fp32 0x3F800000 0x40000000 = .mk l h ∧ bisectable fp32 (.mk l h) = true) ∧ ∃ l h, ivlBits fp32 0x3F800000 0x3F800001 = .mk l h ∧ bisectable fp32 (.mk l h) = false :=
  ⟨⟨.fin ⟨8388608, 8388608⟩, .fin ⟨8388608, 4194304⟩, by decide +kernel, by decide +kernel⟩, .fin ⟨8388608, 8388608⟩, .fin ⟨8388609, 8388608⟩, by decide +kernel, by decide +kernel⟩
theorem wit_IntervalTests_trap :
    trapNai withNai = true ∧ (lanesOf (active withNai plain)).filter (fun l => (List.range (ivlCount .x32)).any fun j => (rdIvl withNai .x32 (.v 3) l j).isNai) = [0] ∧
    Ready withNai (active withNai plain) (opRegs false (.v 3)) := by
  unfold Ready; decide +kernel

theorem wit_PredicateWords : Ready handL (active handL plain) [] ∧ (2 < 3) ∧ (0 < 3) := by
  unfold Ready; decide +kernel

/-- 62 counted instructions of a class outstanding. -/
def counted (cls : Nat) : State := group handL fun g => { g with pend := List.replicate 62 ⟨cls, 0, false, []⟩ }
theorem wit_CrossLaneWords :
    Ready (counted 3) (active (counted 3) plain) (opRegs false (.v 1)) ∧ roomCounter (counted 3) 3 = true ∧ (counted 3).isL = true ∧ roomCounter handD 3 = true ∧
    plain.n = false ∧ Ready handD (active handD never) [] := by
  unfold Ready; decide +kernel

theorem wit_Reductions :
    (5 < 6) ∧ (6 ≤ 6) ∧ trapNai handL = false ∧ Ready handL (active handL plain) ([.v 2].flatMap (opRegs true)) ∧ roomCounter handL 3 = true := by
  unfold Ready; decide +kernel
theorem wit_Reductions_trap :
    trapNai withNai = true ∧ Ready withNai (active withNai plain) ([.v 3].flatMap (opRegs false)) ∧ roomCounter withNai 3 = true ∧ counter 3 withNai.cg = 0 ∧
    (redTree (redX 6 .x32) (lanes32.map fun l => if inMask (active withNai plain) l then
      (let is := (List.range (ivlCount .x32)).map (rdIvl withNai .x32 (.v 3) l); some (is, 3, is.any Ivl.isNai)) else none)).any (fun r => r.2.2) = true := by
  unfold Ready; decide +kernel

theorem wit_Conversions :
    trapNai handL = false ∧ Ready handL (active handL plain) (opRegs true (.v 2) ++ [4]) ∧ trapNai (trapping handL 2) = true ∧
    (∀ l, l < 32 → inMask (active (trapping handL 2) plain) l = true → (rdIvl (trapping handL 2) .x32 (.v 0) l 0).isNai = false) ∧
    (∀ l, l < 32 → inMask (active (trapping handL 2) plain) l = true →
      (dqntI 0 1 ((rdOp (trapping handL 2) (.v 0) l).toNat % 2 ^ 8) ((rdOp (trapping handL 2) (.v 0) l).toNat / 2 ^ 16 % 2 ^ 16)).isNai = false) := by
  unfold Ready; decide +kernel

/-- The team has 32 tiles and 64 KiB of scratchpad; s10 and s11 describe a matrix operand at its start, s12 a matrix for mld. -/
def tiled (s : State) : State :=
  (((team s fun t => { t with ntiles := 32, bytes := 65536 }).wS 10 0x0000004000000000).wS 12 0x0000020000E00000).wS 13 0xE00000
def ready (s : State) : State := group s fun g => { g with misc := { g.misc with opready := true, dpitch := 512 } }
def loop0 : MloopF := ⟨0, 31, 0, 0, true, false, false, 0, 10, 8, none⟩
def drain0 : MdrnF := ⟨0, 31, 13, 0, false, false, false, false, 0, 0, false, 0, 63⟩
theorem wit_MatrixIssue :
    let s := ready (tiled handL)
    NoTx s ∧ roomCounter s 2 = true ∧ (onCore s fun c => { c with mq := List.replicate 15 mcmd0 }).cc.mq.length < 16 ∧ loop0.tile < s.ct.ntiles ∧
    (descBase (s.rS 10) % 16 = 0 ∧ descPitch (s.rS 10) % 16 = 0 ∧ descT (s.rS 11) % 16 = 0 ∧ descRot (s.rS 11) < 6 ∧
      ∀ j, j < 64 → ∀ q, q < 2 → ownRange s (descOff (s.rS 10) (s.rS 11) 0 j q) 16 = true) ∧ 760 + 7 < s.cg.allot ∧
    s.cg.misc.opready = true ∧ loop0.pair = false ∧ (tiled handL).cg.misc.opready = false ∧
    ((team handD fun t => { t with pair := some 1 }).isL = false ∧ (team handD fun t => { t with pair := some 1 }).ct.pair.isSome = true) ∧
    (fld (s.rS 12) 47 32 % 16 = 0 ∧ 512 ≤ fld (s.rS 12) 47 32 ∧ fld (s.rS 12) 31 0 % 16 = 0 ∧ ownPos s (fld (s.rS 12) 31 0) = true ∧
      ownRange s (fld (s.rS 12) 31 0 % 2 ^ 21) (63 * fld (s.rS 12) 47 32 + 512) = true) ∧
    (team s fun t => { t with ntiles := 31 }).ct.ntiles ≤ loop0.tile ∧ (∀ c ∈ drainChecks s drain0 (s.rS 13), c.1 = false) ∧ Ready s (active s plain) [766, 767] ∧ s.ct.ntiles ≤ 32 := by
  unfold NoTx Ready; decide +kernel

/-- Two teams on the cores 1 and 2, a pair; each waits in mpair.on. -/
def twoTeams : State :=
  ((split handD fun p => { p with hold := .mpair 5 3 }).setTeam 1 { handD.ct with core := 2 }).setGrp 32
    { handD.cg with team := 1, splits := [{ handD.sp with hold := .mpair 6 4 }] }
def pairLoop : MloopF := { loop0 with pair := true }
/-- The same two teams, paired, each with a paired command at the front of its queue; the second's loop has n more steps. -/
def twoCmds (n : Nat) : State :=
  let s := (twoTeams.setTeam 0 { twoTeams.team 0 with pair := some 1 }).setTeam 1 { twoTeams.team 1 with pair := some 0 }
  (s.setCore 1 { s.core 1 with mq := [{ mcmd0 with op := .loop pairLoop 0 0 0 0 0 0 }] }).setCore 2
    { s.core 2 with mq := [{ mcmd0 with gh := 32, op := .loop { pairLoop with ksteps := n } 0 0 0 0 0 0 }] }
theorem wit_MatrixControlAndPairs :
    (NoTx handL ∧ (∀ p ∈ handL.cg.pend, p.cls = 2) ∧ (∀ c ∈ handL.cc.mq, c.gh ≠ handL.cur.gh) ∧ (∀ p ∈ handL.cg.splits, p.mem = none) ∧ handL.cc.late = [] ∧ handL.cc.cq = []) ∧
    (¬ ∀ p ∈ (counted 0).cg.pend, p.cls = 2) ∧ (∃ c ∈ (onCore handL fun c => { c with mq := [mcmd0] }).cc.mq, c.gh = handL.cur.gh ∧ c.stream = 0) ∧
    (handD.isL = false ∧ handD.ct.pair = none ∧ (twoCmds 0).isL = false ∧ (twoCmds 0).ct.pair = some 1 ∧ handL.isL = true ∧ 1 ≠ (twoCmds 0).cg.team) ∧
    (let s := team handD fun t => { t with pair := some 1 }
     s.ct.pair = some 1 ∧ pairWaits s s.cg.team = none ∧ pairWaits s 1 = none) ∧
    (partnerCore (twoTeams.team 0).core = (twoTeams.team 1).core ∧ (twoTeams.team 0).core ≠ (twoTeams.team 1).core ∧ (twoTeams.team 0).ctx = (twoTeams.team 1).ctx ∧
      pairFirst twoTeams (twoTeams.team 0).core = some 0 ∧ pairFirst twoTeams (twoTeams.team 1).core = some 1) ∧
    (∀ n, n < 2 → let s := twoCmds n
      (s.team ((cmdAt s 1 0).gh / 32)).pair = some 1 ∧ pairedAt s 1 ((cmdAt s 1 0).gh / 32) = some 0 ∧ pairedAt s (partnerCore 1) 1 = some 0 ∧
      tileFree s 1 0 = true ∧ tileFree s (partnerCore 1) 0 = true ∧ lockStep s 1 = false ∧ lockStep s (partnerCore 1) = false ∧
      samePair (cmdAt s 1 0) (cmdAt s (partnerCore 1) 0) = decide (n = 0)) := by
  unfold NoTx; decide +kernel

/-- One matrix command at the front of the core's queue. -/
def cmd (s : State) (op : MOp) (k : Nat) : State := onCore (tiled s) fun c => { c with mq := [{ mcmd0 with op := op, tile := 31, step := k, vSnap := s.cg.v }] }
def loopOp : MOp := .loop { loop0 with asrc := false, a := 0, bsrc := false, b := 8 } 0 0 0 0 0 0
theorem wit_MatrixStep :
    let s := cmd handL loopOp 0
    (cmdAt s 0 0).op = loopOp ∧ tileFree s 0 0 = true ∧ (cmdAt s 0 0).step ≤ 0 ∧ lockStep s 0 = false ∧
    (operandRows s 0 (cmdAt s 0 0) false 0 0 0 0).2 = none ∧ (operandRows s 0 (cmdAt s 0 0) false 8 0 0 0).2 = none ∧
    syncedLate s 0 (cmdAt s 0 0) = false ∧ tilePoison (s.team ((cmdAt s 0 0).gh / 32)) (cmdAt s 0 0).tile = false ∧ (List.replicate 64 0).length = 64 := by decide +kernel
/-- Elements and factors of every kind that the formats distinguish. -/
theorem wit_MatrixStep_kinds :
    (mk8Val 0x80 = none ∧ mk8Val 0 ≠ none ∧ fpOf e4m3 0x7F = .nan ∧ fpOf e5m2 0x7C = .inf false) ∧
    (x32Read 0x7FC000007FC00000 = .nai ∧ x32Read 0x7F800000FF800000 = .mk .ninf .pinf ∧ x32Read 0xFF8000007F800000 = .empty) ∧
    (mrRead bf16 0x7FC0 0 = .nai ∧ mrRead bf16 0 0xFF80 = .empty ∧ mrRead bf16 0 0x7F80 = .mk .ninf .pinf ∧ mrRead fp32 0 0 ≠ .nai ∧ mrRead fp32 0 0 ≠ .mk .ninf .pinf) ∧
    (x32Read 0x400000003F800000).has ⟨3, 2⟩ :=
  ⟨by decide +kernel, by decide +kernel, by decide +kernel, by decide +kernel, by decide +kernel⟩

theorem wit_MatrixRetirement :
    (∀ op ∈ [loopOp, .zero, .load 0 512, .rd 0xFFFFFFFF 766 63, .wr 1 4 63, .drain drain0 0xE00000 { GMisc.init with dpitch := 512 }],
      let s := cmd handL op (if op = loopOp then 1 else 0)
      retireReady s 0 0 = true ∧ (s.grp (cmdAt s 0 0).gh).team = (cmdAt s 0 0).gh / 32 ∧ (cmdAt s 0 0).op = op ∧ (cmdAt s 0 0).vSnap = (s.grp (cmdAt s 0 0).gh).v ∧
      tilePoison (s.team ((cmdAt s 0 0).gh / 32)) (cmdAt s 0 0).tile = false ∧ (s.grp (cmdAt s 0 0).gh).pend = [] ∧ (s.core 0).slog = [] ∧ s.io.peerOut = []) ∧
    (let s := cmd handD (.rd 0xFFFFFFFF 766 63) 0
     retireReady s 1 0 = true ∧ (s.team ((cmdAt s 1 0).gh / 32)).isL = false) ∧ retireReady (cmd handL (.rd 0xFFFFFFFF 766 63) 1) 0 0 = true ∧
    (let s := cmd handL (.load 0 512) 0
     (∀ i, i < 64 → (s.core 0).spPoison (0 + i * 512) 512 = false) ∧
     ∀ l, l < 32 → mget false (s.team 0).tpois (tileKey 31 63 l) = false ∧ mget false (s.team 0).tpois (tileKey 31 63 (32 + l)) = false) ∧
    (0xE00000#64).toNat < 2 ^ 24 ∧ (0xE00000#64).toNat % 2 ^ 21 + drain0.nrows * 512 + 512 ≤ 2 ^ 21 := by decide +kernel

/-! Memory words: lanes 0 and 5 go on, at two granules of the scratchpad, or at two places of one line that the core's L1 holds. -/

def lineA : Nat := (2 ^ 25 + 0x2000) / 128
/-- v10 holds the addresses x and x + 16 in lanes 0 and 5. -/
def at2 (s : State) (x : Nat) : State := group (two s) fun g => { g with v := [(320, BitVec.ofNat 64 x), (325, BitVec.ofNat 64 (x + 16))] }
def spWord (s : State) : State := onCore (at2 s 0xE00000) fun c => { c with full := [(0, true), (1, true)] }
def mx0 : MemX := ⟨0, 0, 0, 0, 0, 0⟩
def sp2 (s : State) (l : Nat) : Nat × Nat := (s.ct.core, if l = 0 then 0 else 16)
/-- What the scratchpad words ask of a state, in each active lane. -/
def spLanesAt (s : State) : Prop :=
  ∀ l, l < 32 → inMask (active s plain) l = true →
    spCheck s s.ct 16 (spAddr s (.v 10) 0 l) = .at_ (sp2 s l).1 (sp2 s l).2 ∧ lateHolds s s.cur.gh 0 s.seq true (spAddr s (.v 10) 0 l) 16 = false ∧
    passHolds s 16 (spAddr s (.v 10) 0 l) = false ∧ (s.core (sp2 s l).1).spPoison (sp2 s l).2 16 = false ∧ granuleFree s (sp2 s l).1 (sp2 s l).2 = true
def spWordL : State := spWord handL
def spWordD : State := spWord handD
theorem wit_ScratchpadWords_L : FreshWord spWordL ∧ spLanesAt spWordL := by
  unfold FreshWord NoTx SplitHere spLanesAt; decide +kernel
theorem wit_ScratchpadWords_D : FreshWord spWordD ∧ spLanesAt spWordD := by
  unfold FreshWord NoTx SplitHere spLanesAt; decide +kernel
theorem wit_ScratchpadWords_stores :
    lanesOf (active spWordD plain) = [0, 5] ∧ (sp2 spWordD 0).2 / 16 ≠ (sp2 spWordD 5).2 / 16 ∧ Ready spWordD (active spWordD plain) (opRegs false (.v 10) ++ opRegs true (.v 20)) ∧
    roomCounter spWordD 0 = true ∧ relReady spWordD spWordD.cur.gh 0 spWordD.seq = true := by
  unfold Ready; decide +kernel

/-- The core's L1 holds the line in this state. -/
def lined (s : State) (st : L1St) : State := onCore (at2 s 0x2000) fun c => { c with l1 := [⟨lineA, st, 1, none, [], true, none, []⟩] }
theorem wit_line (s : State) (st : L1St) (h : l1Find ((lined s st).core (lined s st).ct.core) lineA = some ⟨lineA, st, 1, none, [], true, none, []⟩) (sts : List L1St) (k : st ∈ sts)
    (loc : Nat) (hl : lineOf loc = lineA) : LineIn (lined s st) loc sts := ⟨_, by rw [hl]; exact h, k⟩
def loc2 (l : Nat) : Nat := 2 ^ 25 + 0x2000 + if l = 0 then 0 else 16
/-- What the memory words ask of a state, in each active lane, at accesses of 16 bytes. -/
def lanesAt (s : State) (write : Bool) : Prop :=
  ∀ l, l < 32 → inMask (active s plain) l = true → LaneLoc s (gAddr s (.v 10) 0 l) 16 write (loc2 l) ∧ logHolds s s.cur.gh 0 s.seq (gAddr s (.v 10) 0 l) 16 = false ∧
    copyPoison s s.ct.core (loc2 l) 16 false = false ∧ lineOf (loc2 l) = lineA
def lineL : State := lined handL .m
def lineD : State := lined handD .m
theorem wit_GlobalAndScalarLoadStore_L :
    FreshWord lineL ∧ l1Find (lineL.core lineL.ct.core) lineA = some ⟨lineA, .m, 1, none, [], true, none, []⟩ ∧
    Ready lineL (active lineL plain) (opRegs false (.v 10) ++ opRegs true (.v 20)) := by
  unfold FreshWord NoTx SplitHere Ready; decide +kernel
theorem wit_GlobalAndScalarLoadStore_lanes : lanesAt lineL false := by
  unfold lanesAt LaneLoc; decide +kernel
theorem wit_GlobalAndScalarLoadStore_D :
    FreshWord lineD ∧ roomCounter lineD 0 = true ∧ roomCounter lineD 1 = true ∧ relReady lineD 0 0 lineD.seq = true := by
  unfold FreshWord NoTx SplitHere; decide +kernel
theorem wit_GlobalAndScalarLoadStore_stores : lanesAt lineD true := by
  unfold lanesAt LaneLoc; decide +kernel
theorem wit_GlobalAndScalarLoadStore_scalar :
    let s := (lined handL .e).wS 5 0x2008
    let va := (((s.rS 5).toNat + (0xFF8#12).toInt) % 2 ^ 64).toNat
    va = 0x2000 ∧ logHolds s s.cur.gh s.cg.dstrm s.seq va 8 = false ∧ LaneLoc s va 8 true (2 ^ 25 + 0x2000) ∧ copyPoison s s.ct.core (2 ^ 25 + 0x2000) 8 false = false ∧
    (((s.rS 5).toNat + (0xFFC#12).toInt) % 2 ^ 64).toNat % 8 ≠ 0 := by
  unfold LaneLoc; decide +kernel

/-- The core's predictor has the line as contended. -/
def hotD : State := onCore (at2 handD 0x2000) fun c => { c with hot := [lineA] }
theorem wit_Atomics_L1 :
    FreshWord lineL ∧ Ready lineL (active lineL plain) (opRegs false (.v 10) ++ opRegs true (.v 20) ++ opRegs true .zero) ∧
    releases 3 = true ∧ relReady lineL 0 0 lineL.seq = true ∧ lineA ∉ (lineL.core lineL.ct.core).hot ∧ active lineL plain ≠ 0 ∧ active lineL never = 0 ∧
    lanesOf (active lineL plain) = [0, 5] ∧ loc2 0 + 16 ≤ loc2 5 := by
  unfold FreshWord NoTx SplitHere Ready; decide +kernel
theorem wit_Atomics_lanes : lanesAt lineL true := by
  unfold lanesAt LaneLoc; decide +kernel
theorem wit_Atomics_home :
    FreshWord hotD ∧ lineA ∈ (hotD.core hotD.ct.core).hot ∧ (hotD.dirE lineA).st = .i ∧ (hotD.dirE lineA).busy = none ∧ (hotD.dirE lineA).psn = false ∧
    inMask (active hotD plain) 0 = true := by
  unfold FreshWord NoTx SplitHere; decide +kernel
theorem wit_Atomics_homeLanes : lanesAt hotD true := by
  unfold lanesAt LaneLoc; decide +kernel
theorem wit_Atomics_values : Ty.x64 ∉ [Ty.i32, .n32, .i64, .n64] ∧ 2 ^ 127 < 2 ^ (8 * formBytes .x64 0) ∧ 0xFFFFFFFF < 2 ^ (8 * formBytes .n32 0) := by decide
theorem wit_GlobalAndScalarLoadStore_forms :
    (mk8Val 0x80 = none ∧ mk8Val 0x7F ≠ none) ∧ (fpOf fp32 0x7F800000 = .inf false ∧ fpOf bf16 0x7FC0 = .nan) ∧
    (0x7F800100 / 2 ^ 23 % 2 ^ 8 = 255 ∧ 0x7F800100 / 2 ^ 8 % 2 ^ 15 ≠ 0) ∧ (0xFF / 2 ^ 23 % 2 ^ 8 ≠ 255 ∧ 0xFF % 2 ^ 8 = 255) ∧
    (x32Read 0x400000003F800000).has ⟨3, 2⟩ ∧ roundQ cmFmt .near (qMul (qAdd ⟨1, 1⟩ ⟨2, 1⟩) ⟨1, 2⟩) = .fin false 0x3FC000 :=
  ⟨by decide +kernel, by decide +kernel, by decide +kernel, by decide +kernel, ⟨by decide +kernel, by decide +kernel⟩, by decide +kernel⟩

def pushing : State := at2 (((handL.wS 5 0xFFFFFFFC07).wS 6 0xFFFFFFFFFF).wS 7 0x8000000000000000) 0x2000
theorem wit_PushStores :
    FreshWord pushing ∧ Ready pushing (active pushing plain) (opRegs false (.v 10) ++ opRegs false (.v 20)) ∧ relReady pushing pushing.cur.gh 0 pushing.seq = true := by
  unfold FreshWord NoTx SplitHere Ready; decide +kernel
theorem wit_PushStores_lanes : lanesAt pushing true := by
  unfold lanesAt LaneLoc; decide +kernel
theorem wit_PushStores_sets :
    destSet (pushing.rS 5) = some [7] ∧ destSet (pushing.rS 6) = some [] ∧ destSet (pushing.rS 7) = none ∧ active pushing plain ≠ 0 ∧ active pushing never = 0 ∧
    pushOut pushing pushing.ct.core 0 [7] = false := by decide +kernel
theorem wit_PushStores_line : LineIn (lined handL .e) (2 ^ 25 + 0x2000) [.e, .m] :=
  wit_line _ _ (by decide +kernel) _ (by decide) _ (by decide)

/-- Only lane 5 goes on. -/
def lane5 (s : State) : State := split s fun p => { p with mask := 32 }
theorem wit_PrefetchAndDrop :
    (let s := lane5 (at2 handL 0x2000)
     SplitHere s ∧ s.sp.mem = none ∧ s.sp.pmask = 0 ∧ active s plain = 1#32 <<< 5 ∧ xlate s s.ct.ctx s.ct.core (gAddr s (.v 10) 0 5) false = .hit (2 ^ 25 + 0x2010) ∧
     isDev (2 ^ 25 + 0x2010) = true ∧ canonical (gAddr s (.v 10) 0 5) = true ∧ l1Find s.cc (lineOf (2 ^ 25 + 0x2010)) = none ∧
     xlateAny s s.ct.ctx s.ct.core (gAddr s (.v 10) 0 5) = .hit (2 ^ 25 + 0x2010)) ∧
    (let s := lane5 lineL
     active s plain = 1#32 <<< 5 ∧ SplitHere s ∧ s.sp.mem = none ∧ s.sp.pmask = 0 ∧ xlate s s.ct.ctx s.ct.core (gAddr s (.v 10) 0 5) false = .hit (2 ^ 25 + 0x2010) ∧
     (l1Find s.cc (lineOf (2 ^ 25 + 0x2010))).isSome = true) := by
  unfold SplitHere; decide +kernel
def wayFree : WayAns → Bool
  | .free _ => true
  | _ => false
theorem wayFree_some {a : WayAns} (h : wayFree a = true) : ∃ s, a = .free s := by
  cases a <;> first | exact ⟨_, rfl⟩ | exact nomatch h
theorem wit_PrefetchAndDrop_free : ∃ s1, makeWay (lane5 (at2 handL 0x2000)) 0 lineA = .free s1 := wayFree_some (by decide +kernel)

/-- A copy from offset 256 to offset 0 of the scratchpad, of n bytes: s5 holds the target, s6 the source, s7 the control word. -/
def copyRegs (n : Nat) : State := ((handL.wS 5 0xE00000).wS 6 0xE00100).wS 7 (BitVec.ofNat 64 (3 * 2 ^ 32 + n))
def copyF : CpyF := { copy0 with fe := true, dst := 5, src := 6, ctl := 7 }
def copyQ (n : Nat) : State :=
  onCore handL fun c => { c with cq := [{ ccmd0 with f := copyF, dst := 0xE00000, src := 0xE00100, ctl := BitVec.ofNat 64 (3 * 2 ^ 32 + n), begun := true }] }
theorem wit_CopyCommands :
    (∀ n ∈ [0, 16], let s := copyRegs n
      let ctl := s.rS 7
      NoTx s ∧ roomCounter s 2 = true ∧ cpyDsp ctl = true ∧ cpyAddr true (s.rS 5) % 16 = 0 ∧ cpyAddr true (s.rS 6) % 16 = 0 ∧ fld ctl 31 0 = n ∧
      cpyRange s (cpyDsp ctl) (cpyAddr (cpyDsp ctl) (s.rS 5)) n = .at_ 0 0 ∧
      cpyRange s (cpySsp ctl) (cpyAddr (cpySsp ctl) (s.rS 6)) n = .at_ 0 256) ∧
    (let s := copyQ 256
     let tm := s.team (s.grp 0).team
     tm.core = 0 ∧ (s.core 0).cq.length = 1 ∧ (∀ c ∈ (s.core 0).cq, c.begun = true ∧ c.pos = 0 ∧ c.early = [] ∧ c.f.redop = 0 ∧ c.f.step = false ∧ cpyDsp c.ctl = true ∧ cpySsp c.ctl = true ∧
       fld c.ctl 31 0 = 256 ∧ c.src.toNat % 2 ^ 21 = 256 ∧ c.dst.toNat % 2 ^ 21 = 0 ∧ c.src.toNat < 2 ^ 32 ∧ c.dst.toNat < 2 ^ 32 ∧ c.src.toNat / 2 ^ 24 = 0 ∧
       c.src.toNat / 2 ^ 21 % 8 = 7) ∧
     s.io.peerOut = [] ∧ tm.off ≤ 0 ∧ 256 + 256 ≤ tm.off + tm.bytes ∧ 0 + 256 ≤ 256) := by
  unfold NoTx; decide +kernel

/-- Lane 5 is in a transaction that has read one byte and buffered another, in two lines. -/
def tx5 : Tx :=
  { Tx.init with
    active := true
    abortA := 16
    ccount := 7
    statreg := 9
    rlines := [lineA]
    wlines := [lineA + 1]
    rbytes := [(2 ^ 25 + 0x2000, 0)]
    wbytes := [(2 ^ 25 + 0x2080, 7)] }
def inTx (s : State) : State := group (two s) fun g => setTx g 5 tx5
/-- Lane 5 has failed eight times at this tbegin; the group has no token. -/
def lastTry (token : Option Nat) : State := ctx0 (group (two handL) fun g => setTx g 5 { Tx.init with ccount := 8, txpc := 0 }) fun x => { x with token := token }
theorem wit_Transactions :
    (txLanes handL.cg (active handL plain) = [] ∧ handL.isL = true ∧ handD.cur.last = true ∧ (split handD id).isL = false ∧
      ∀ l, l < 32 → inMask (active handL plain) l = true → (if (txOf handL.cg l).txpc = handL.cur.pcA then (txOf handL.cg l).ccount else 0) ≠ 8) ∧
    ({ handD with cur := { handD.cur with last := false } } : State).cur.last = false ∧
    (∀ o ∈ [none, some 0], let s := lastTry o
      txLanes s.cg (active s plain) = [] ∧ s.cctx.token = o ∧ s.cur.gh = 0 ∧ inMask (active s plain) 5 = true ∧
      (if (txOf s.cg 5).txpc = s.cur.pcA then (txOf s.cg 5).ccount else 0) = 8) ∧
    (SplitHere handL ∧ handL.sp.mask ≠ 0) := by
  unfold SplitHere; decide +kernel
def lane5Tx (s : State) : Prop :=
  SplitHere s ∧ s.sp.mask ≠ 0 ∧ s.sp.hold = .none ∧ txLanes s.cg (active s plain) = [5] ∧ s.cg.defer.length + (([5].map fun l => (txOf s.cg l).abortA).eraseDups).length ≤ 8 ∧
  relReady s s.cur.gh 0 s.seq = true ∧ (txOf s.cg 5).stream = 0 ∧ (txOf s.cg 5).irrev = false ∧ resolveLanes s.cg [5] = ([5], []) ∧
  ((txOf s.cg 5).wbytes.map Prod.fst).Nodup ∧ (∀ b ∈ (txOf s.cg 5).wbytes, isDev b.1 = true ∧ lineOf b.1 ∈ (txOf s.cg 5).wlines) ∧
  (∀ b ∈ (txOf s.cg 5).rbytes, lineOf b.1 ∈ txAll (txOf s.cg 5)) ∧ (∀ line ∈ txAll (txOf s.cg 5), lineLocked s line (some (s.cur.gh, 5)) = false) ∧
  ∀ line ∈ (txOf s.cg 5).wlines, isHost (128 * line) = false ∧ pushPending s s.ct.core line = false ∧ (s.dirE line).busy = none ∧ (s.dirE line).st = .i ∧
    (s.dirE line).psn = false
/-- A transaction whose recorded byte still stands, and one whose byte has changed. -/
theorem wit_Transactions_commit :
    lane5Tx (inTx handL) ∧ (∀ b ∈ (txOf (inTx handL).cg 5).rbytes, (inTx handL).rdByte b.1 = b.2) := by
  unfold lane5Tx SplitHere; decide +kernel
def changed : State := (inTx handL).wrCells [(2 ^ 25 + 0x2000, 1)]
theorem wit_Transactions_changed : lane5Tx changed ∧ ¬ ∀ b ∈ (txOf changed.cg 5).rbytes, changed.rdByte b.1 = b.2 := by
  unfold lane5Tx SplitHere; decide +kernel
/-- tcommit waits while the copy engine holds an earlier command of the group on the stream. -/
theorem wit_Transactions_wait :
    let s := onCore (inTx handL) fun c => { c with cq := [ccmd0] }
    SplitHere s ∧ s.sp.mask ≠ 0 ∧ txLanes s.cg (active s plain) = [5] ∧ (resolveLanes s.cg [5]).1 = [5] ∧ relReady s s.cur.gh 0 s.seq = false := by
  unfold SplitHere; decide +kernel

/-! Events of the issue machinery, launches and pools. -/

/-- Context 0 is valid and resident on n dies from die 0, and bring-up has finished; die d has a backing region of 4 MiB with the context's tag. -/
def ctxRegs (n : Nat) : AMap Word64 :=
  [(0x100800, BitVec.ofNat 64 (2 ^ 63 + (n - 1) * 2 ^ 50)), (0x400800, 0x0200000000800000), (0x420800, 0x0200000000800000), (0x500020, 0x40)]
def onDies (s : State) (n : Nat) : State := { s with regs := ctxRegs n, keytag := [(4, 0), (5, 0)], io := { s.io with clocked := true, trained := true } }
/-- CTXCTL of context 0 as reset leaves it: STATE 0, whatever NATIVESIZE is. -/
theorem wit_ctxState {s : State} (h : mget 0 s.regs 0x100808 = 0) : ctxState s 0 = 0 := by
  have e : s.reg (rCTXCTL 0) = Config.nativeSize.zeroExtend 64 <<< 32 := by
    show mget 0 s.regs 0x100808 ^^^ regReset 0x100808 = _
    rw [h]
    simp [regReset]
  simp only [ctxState, e, fld, BitVec.toNat_shiftLeft, BitVec.truncate_eq_setWidth, BitVec.toNat_setWidth, Nat.shiftLeft_eq]
  have := Config.nativeSize.isLt
  omega
theorem wit_resident {s : State} (h : mget 0 s.regs 0x100808 = 0) (v : ctxValid s 0 = true) : ctxResident s 0 = true := by
  simp [ctxResident, v, wit_ctxState h]
theorem wit_dieCtx {s : State} (h : mget 0 s.regs 0x100808 = 0) (v : ctxValid s 0 = true) (d : Nat) (m : (ctxDies s 0).contains d = true) : dieCtx s d = some 0 := by
  have r := wit_resident h v
  simp only [dieCtx, List.range_succ_eq_map (n := 63), List.find?_cons, r, m, Bool.and_self]
theorem wit_coreLaunch {s : State} (h : mget 0 s.regs 0x100808 = 0) (v : ctxValid s 0 = true) (k : Nat) (e : coreExists s.part k = true)
    (m : (ctxDies s 0).contains (dieOf k) = true) (n : (s.ctx 0).saving = false) : coreLaunch s k = (running s 0).map fun r => (0, r.1, r.2) := by
  simp [coreLaunch, e, wit_dieCtx h v _ m, n]

def pend0 : Pend := ⟨0, 7, false, [⟨0, 5 * 32 + 3, 9, false⟩, ⟨1, 6, 8, false⟩]⟩
def waiter0 : Waiter := ⟨2 ^ 17 + 2, 0, 0, 0, 5, 32, true, .x64, 0, 10, false, 0⟩
def taking (drain : Bool) (s : State) : State := split s fun p => { p with hold := .take drain 5 3 }
theorem wit_IssueAndWaitEvents :
    (let g := (group handL fun g => { g with pend := [pend0] }).grp 0
     g.pend.find? (fun p => p.cls == 0) = some pend0 ∧ pend0.wait = false ∧ (∀ w ∈ pend0.ws, w.con = false ∧ w.kind < 3) ∧ (pend0.ws.map fun w => (w.kind, w.key)).Nodup) ∧
    (0 < (handL.grp 0).splits.length ∧ splitReady (handL.grp 0) handL.sp = true ∧ groupMay handL (handL.grp 0) = true ∧ handL.sp.aged = false ∧ 64 ≤ (split handL fun p => { p with age := 64 }).sp.age) ∧
    (let s := group handL fun g => { g with retired := true }
     (s.grp 0).retired = true ∧ groupQuiet s 0 = true) ∧
    (let s := ctx0 handL fun x => { x with tokenQ := [0] }
     (s.ctx 0).token = none ∧ (s.ctx 0).tokenQ.filter (fun h => s.groups.any fun e => e.1 == h && !e.2.retired) = 0 :: []) ∧
    (let s := { handL with net := [⟨1, 2, .getM⟩, ⟨1, 3, .getM⟩] }
     s.net[1]? = some ⟨1, 3, .getM⟩ ∧ isReq (.getM) = true ∧ (s.tagOf ⟨1, 3, .getM⟩).arr = 0) ∧
    (let tag (core slack since : Nat) (out : Bool) : ReqTag := ⟨⟨1, core, .getM⟩, slack, 0, 0, since, out⟩
     arbiter [tag 5 3 9 false, tag 6 3 8 false, tag 7 3 8 false] = some (tag 6 3 8 false) ∧ arbiter [tag 5 3 1 false, tag 6 7 8 true] = some (tag 6 7 8 true)) ∧
    (let s := taking false (doneLanes handL 1)
     let g := s.grp 0
     (nthD Split.init g.splits 0).hold = .take false 5 3 ∧ 0 < g.splits.length ∧ teamLaunch s (s.team 0) = some placeLaunch ∧
     firstWaiter (fillable s (takeWaiters s (s.team 0).core (s.team 0).entry)) = some (0, 0) ∧ binCount (s.bin (s.team 0).core (s.team 0).entry) ≠ 0 ∧ g.done ≠ 0) ∧
    (let s := taking true handL
     drained s 0 = true ∧ drainWaits s 0 = true ∧ (s.team 0).ctx = 0 ∧ s.groups.any (fun e => e.1 == 0) = true ∧ (nthD Split.init (s.grp 0).splits 0).hold = .take true 5 3) ∧
    (let s := onCore handD fun c => { c with waits := [waiter0], full := [(2, true)] }
     (s.core 1).waits.find? (fun w => w.granule == 1 * 2 ^ 17 + 2 && feResident s w 1) = some waiter0 ∧ (s.core 1).isFull 2 = true ∧
     (s.core 1).spPoison waiter0.addr 16 = false ∧ (s.team (s.grp 0).team).isL = false) := by decide +kernel

/-- A grace period in progress; the split's lanes owed or not; a deferred free of the node at 0x2000 to the head at 0x2010. -/
def grace (owed : Word32) (ds : List DFree) : State := group (ctx0 handL fun x => { x with grace := true, defers := ds }) fun g => { g with misc := { g.misc with owed := owed, owedK := 1 } }
theorem wit_GraceEvents :
    ((grace 1 []).ctx 0).grace = true ∧ allPassed (grace 1 []) 0 = false ∧
    (let s := grace 0 [⟨0, 0x2000, 0x2010, 1⟩]
     (s.ctx 0).grace = true ∧ allPassed s 0 = true ∧ roomWaiter s 0 0 = none ∧ (s.ctx 0).defers.find? (fun d => d.die == 0 && d.k == (s.ctx 0).gn + 1) = some ⟨0, 0x2000, 0x2010, 1⟩ ∧
     xlate s 0 (128 * 0) 0x2000 true = .hit (2 ^ 25 + 0x2000) ∧ xlate s 0 (128 * 0) 0x2010 true = .hit (2 ^ 25 + 0x2010) ∧ isDev (2 ^ 25 + 0x2010) = true ∧
     s.isPoison (2 ^ 25 + 0x2010) 16 = false ∧ lineLocked s lineA none = false ∧ pushPending s 0 lineA = false ∧ (s.dirE lineA).busy = none ∧ (s.dirE lineA).st = .i ∧
     (s.dirE lineA).psn = false ∧ lineOf (2 ^ 25 + 0x2010) = lineA) ∧
    (let s := split (grace 0 [⟨0, 0x2000, 0x2010, 0⟩]) fun p => { p with hold := .gwait 5 1 }
     allPassed s 0 = true ∧ (∀ d ∈ (s.ctx 0).defers, d.k ≠ (s.ctx 0).gn + 1) ∧ owedDone s 0 ((s.ctx 0).gn + 1) = true ∧
     anyGroup s 0 (roomFor ((s.ctx 0).gn + 1)) = false ∧ (s.grp 0).splits = [s.sp] ∧ s.sp.hold = .gwait 5 1) ∧
    (let s := split (grace 0 []) fun p => { p with hold := .gwait 5 1 }
     (s.ctx 0).defers = [] ∧ anyGroup s 0 gwaitNew = false) ∧
    (let s := split (grace 0 []) fun p => { p with hold := .gwait 5 0 }
     anyGroup s 0 gwaitNew = true ∧ allPassed s 0 = true ∧ owedDone s 0 ((s.ctx 0).gn + 1) = true) ∧
    (let s := split (grace 0 [⟨0, 0x2000, 0x2010, 1⟩]) fun p => { p with hold := .groom 0x3000 0x3010 0 }
     roomWaiter s 0 0 = some (0, 0, ⟨0, 0x3000, 0x3010, 0⟩) ∧ (0x2000 + 8 ≤ 0x2010)) := by decide +kernel

/-- A launch block of a kernel with one L entry of one group, and a slot that names it. -/
def block (row0 : Nat) : List Host.Cell :=
  cellsOf (2 ^ 25 + 4096) [0x4D, 0x4B, 0x4C, 0x42] ++ cellsOf (2 ^ 25 + 4096 + 6) [1] ++ cellsOf (2 ^ 25 + 4096 + 9) [1] ++ cellsOf (2 ^ 25 + 4096 + 14) [1] ++
  cellsOf (2 ^ 25 + 4096 + 41) [0x20] ++ cellsOf (2 ^ 25 + 4096 + 56) [12] ++ cellsOf (2 ^ 25 + 4096 + 72) [16] ++ cellsOf (2 ^ 25 + 4096 + 128) [0xFF] ++
  cellsOf (2 ^ 25 + 4096 + 132) [BitVec.ofNat 8 row0]
def accepted (die : Nat) : LSlot := { LSlot.init with ablock := 4096, adie := die, state := 1, wait := true }
/-- No launch runs; slot 3 holds an accepted launch for a die, whose block lies in memory. -/
def launching (die row0 : Nat) : State :=
  let s := ctx0 (onDies handL 1) fun x => { x with slots := [(3, accepted die)] }
  { s.wrCells (block row0) with groups := [], teams := [] }
def bytesOf : DevRead → List Byte
  | .ok bs => bs
  | _ => []
def isOk : DevRead → Bool
  | .ok _ => true
  | _ => false
theorem isOk_bytes {d : DevRead} (h : isOk d = true) : d = .ok (bytesOf d) := by
  cases d <;> first | rfl | exact nomatch h
def blockOf0 (s : State) : List Byte := bytesOf (devRead s 0 0 (whoLaunch 3) 4096 256)
def tableOf0 (s : State) : List Byte := bytesOf (devRead s 0 0 (whoLaunch 3) 8192 1024)
/-- The slot once its block has been read. -/
def rowOf0 (s : State) : LSlot := { slotOf s 0 3 with wait := false, head := [], ok := true, blk := some (parseBlock 4096 (blockOf0 s) (tableOf0 s)) }
/-- A slot that was queued before holds it back; a block already read is not read again. -/
theorem wit_LaunchEvents_turn :
    (let s := ctx0 (launching 0 1) fun x => { x with slots := (0, { accepted 0 with order := 5 }) :: x.slots }
     nextQueued (setSlot s 0 3 (rowOf0 s)) 0 ≠ some 3) ∧ (setSlot (launching 0 1) 0 3 { accepted 0 with head := List.replicate 256 1 }).ctxs ≠ (launching 0 1).ctxs := by
  decide +kernel
theorem wit_LaunchEvents_item :
    (let s := onDies handL 1
     (slotOf s 0 1).state = 0 ∧ ctxResident s 0 = true ∧ deviceReady s = true) ∧ (slotOf handL 0 0).state ≠ 0 ∧
    (let s := ctx0 (onDies handL 1) fun x => { x with slots := [(15, { LSlot.init with state := 4 }), (0, { LSlot.init with state := 3 })] }
     (slotOf s 0 15).state = 4 ∧ (slotOf s 0 0).state = 3 ∧ ctxResident s 0 = true) :=
  ⟨⟨by decide +kernel, wit_resident (by decide +kernel) (by decide +kernel), by decide +kernel⟩, by decide +kernel,
    by decide +kernel, by decide +kernel, wit_resident (by decide +kernel) (by decide +kernel)⟩
theorem wit_LaunchEvents_refused :
    (let s := launching 1 1
     (slotOf s 0 3).wait = true ∧ ctxResident s 0 = true ∧ deviceReady s = true ∧ (slotOf s 0 3).adie ≠ 0xFF ∧ (ctxDies s 0).length ≤ (slotOf s 0 3).adie) ∧
    (let s := { launching 0xFF 1 with regs := [(0x100800, 0x8000000000000000), (0x400800, 0x01FFFFFFFFFFFFFF), (0x500020, 0x40)] }
     deviceReady s = true ∧ ∃ d ∈ ctxDies s 0, fld (s.reg (rBACKING d 0)) 63 56 < 2) ∧
    (let s := launching 0 2
     (¬ ∃ d ∈ ctxDies s 0, fld (s.reg (rBACKING d 0)) 63 56 < 2) ∧ (slotOf s 0 3).ablock.toNat % 64 = 0 ∧ ctxDies s 0 = [0]) :=
  ⟨⟨by decide +kernel, wit_resident (by decide +kernel) (by decide +kernel), by decide +kernel, by decide +kernel, by decide +kernel⟩, by decide +kernel, by decide +kernel⟩
theorem wit_LaunchEvents_read :
    (let s := launching 0 1
     isOk (devRead s 0 0 (whoLaunch 3) 4096 256) = true ∧ bField (blockOf0 s) 40 8 = 8192 ∧ isOk (devRead s 0 0 (whoLaunch 3) 8192 1024) = true ∧
     blockOk (blockOf0 s) (parseBlock 4096 (blockOf0 s) (tableOf0 s)) = true ∧ ((parseBlock 4096 (blockOf0 s) (tableOf0 s)).row (itemEntry (slotOf s 0 3).item)).used = true ∧
     backingRoom s (rootDie s 0 (slotOf s 0 3)) 0 = true ∧ regionOk s (rootDie s 0 (slotOf s 0 3)) 0 = true ∧ (slotOf s 0 3).head = [] ∧ running s 0 = none ∧
     nextQueued (setSlot s 0 3 (rowOf0 s)) 0 = some 3) ∧
    (let s := ctx0 (launching 0 1) fun x => { x with slots := (0, { LSlot.init with state := 2, ok := true, blk := some placeLaunch }) :: x.slots }
     (slotOf s 0 3).wait = true ∧ (running s 0).isSome = true) ∧
    (let s := launching 0 0
     blockOk (blockOf0 s) (parseBlock 4096 (blockOf0 s) (tableOf0 s)) = true ∧ ((parseBlock 4096 (blockOf0 s) (tableOf0 s)).row 0).used = false) ∧
    (let s := launching 0 17
     blockOk (blockOf0 s) (parseBlock 4096 (blockOf0 s) (tableOf0 s)) = false) := by decide +kernel
theorem wit_LaunchEvents_start :
    (let s := ctx0 (launching 0 1) fun x => { x with slots := [(3, { accepted 0 with wait := false, ok := true, blk := some placeLaunch })] }
     nextQueued s 0 = some 3 ∧ (∀ e ∈ (s.ctx 0).slots, e.2.state ≠ 2) ∧ backingRoom s (rootDie s 0 (slotOf s 0 3)) 0 = true ∧ regionOk s (rootDie s 0 (slotOf s 0 3)) 0 = true ∧
     ctxValid s 0 = true ∧ ctxState s 0 = 0) ∧
    (let s := ctx0 (launching 0 1) fun x => { x with slots := [(3, { accepted 0 with state := 2, wait := false, ok := true, blk := some placeLaunch })] }
     running s 0 = some (3, placeLaunch) ∧ (s.ctx 0).slots = [(3, slotOf s 0 3)] ∧ noItems s 0 = true ∧ noGroups s 0 = true ∧ ctxValid s 0 = true ∧ ctxState s 0 = 0) :=
  have h := wit_ctxState (s := ctx0 (launching 0 1) fun x => { x with slots := [(3, { accepted 0 with wait := false, ok := true, blk := some placeLaunch })] }) (by decide +kernel)
  have k := wit_ctxState (s := ctx0 (launching 0 1) fun x => { x with slots := [(3, { accepted 0 with state := 2, wait := false, ok := true, blk := some placeLaunch })] }) (by decide +kernel)
  ⟨by simp only [h, and_true]; decide +kernel, by simp only [k, and_true]; decide +kernel⟩

/-- n items in one bank of bin 0 of core 8, an L-core on which no team runs. -/
def binned (n : Nat) (s : State) : State :=
  s.setBin 8 0 { Bin.init with timer := true, banks := [(7, List.replicate n item0)] }
theorem wit_TeamsStart :
    (let b := (binned 1 handL).bin 8 0
     b.timer = true ∧ b.expired = false ∧ 0 < binCount b) ∧
    (let s := binned 32 (onDies handL 1)
     coreLaunch s 8 = some (0, 0, placeLaunch) ∧ canStart s placeLaunch (placeLaunch.row 0) 8 = some ([0], 0) ∧ binRipe (s.bin 8 0) = true ∧ takeWaiters s 8 0 = []) := by
  refine ⟨by decide +kernel, ?_, by decide +kernel, by decide +kernel, by decide +kernel⟩
  rw [wit_coreLaunch (by decide +kernel) (by decide +kernel) 8 (by decide +kernel) (by decide +kernel) (by decide +kernel)]
  decide +kernel

/-- The bins of entry 0 on die 0 have fallen low in the order of their cores. -/
def lowBins (s : State) : State := (List.range 128).foldl (fun s k => s.setBin k 0 { Bin.init with low := k + 1 }) s
def canonBanks (s : State) : Prop := mwf [] (s.bin 8 0).banks = true ∧ ∀ x ∈ (s.bin 8 0).banks, x.1 < 8
theorem wit_BinSpillsRefillsAndSteals_bins :
    (let s := binned 32 (launch (onDies handL 1) fun l => { l with scratch := 0x180000, allots := [0x1000, 0, 0, 0] })
     canonBanks s ∧ regionOk s 0 0 = true ∧ binRipe (s.bin 8 0) = true ∧
     canStart s { placeLaunch with scratch := 0x180000, allots := [0x1000, 0, 0, 0] } ({ placeLaunch with scratch := 0x180000, allots := [0x1000, 0, 0, 0] }.row 0) 8 = none ∧
     takeWaiters s 8 0 = []) ∧
    (eligible { placeLaunch with hasL := false } (placeLaunch.row 0) (coreIsL 8) = false ∧ 0 < binCount ((binned 32 handL).bin 8 0)) ∧
    (let s := binned 49 (onDies handL 1)
     binCap placeLaunch * 3 < binCount (s.bin 8 0) * 4 ∧ backingRoom s 0 0 = true ∧ regionOk s 0 0 = true) ∧
    (let s := lowBins (setList (onDies handL 1) 0 0 0 [[item0], [item0, item0]])
     listOf s 0 0 0 = [item0] :: [[item0, item0]] ∧ refillNext s placeLaunch 0 0 = some (0, 0)) := by
  unfold canonBanks; decide +kernel
theorem wit_BinSpillsRefillsAndSteals_core :
    coreLaunch (binned 49 (onDies handL 1)) 8 = some (0, 0, placeLaunch) ∧ coreLaunch (lowBins (setList (onDies handL 1) 0 0 0 [[item0], [item0, item0]])) 0 = some (0, 0, placeLaunch) := by
  constructor
  · rw [wit_coreLaunch (by decide +kernel) (by decide +kernel) 8 (by decide +kernel) (by decide +kernel) (by decide +kernel)]
    decide +kernel
  · rw [wit_coreLaunch (by decide +kernel) (by decide +kernel) 0 (by decide +kernel) (by decide +kernel) (by decide +kernel)]
    decide +kernel
theorem wit_BinSpillsRefillsAndSteals_steals :
    (let s := onDies handL 2
     running s 0 = some (0, placeLaunch) ∧ 0 ∈ ctxDies s 0 ∧ rowUsed placeLaunch 0 = true ∧ underLow s placeLaunch 0 0 0 = true ∧ mget 0 (s.die 0).steal 0 = 0 ∧
     ∀ x ∈ stealOrder s 0 0, (listOf s x 0 0).length < 4) ∧
    (let s := setList (onDies handL 2) 1 0 0 (List.replicate 4 [item0])
     underLow s placeLaunch 0 0 0 = true ∧ (stealOrder s 0 0).find? (fun d => 4 ≤ (listOf s d 0 0).length) = some 1 ∧ regionOk s 1 0 = true ∧ listOf s 1 0 0 = [item0] :: List.replicate 3 [item0]) ∧
    (let s := (onDies handL 2).setDie 0 { Die.init with steal := [(0, 1)], stolen := [(0, [item0])] }
     mget 0 (s.die 0).steal 0 = 1 ∧ mget [] (s.die 0).stolen 0 = [item0] ∧ backingRoom s 0 0 = true ∧ regionOk s 0 0 = true) ∧
    mget 0 ((handL.setDie 0 { Die.init with steal := [(0, 2)] }).die 0).steal 0 = 2 := by decide +kernel

/-! The home, the L1, host memory. -/

/-- Line 5 of device memory with an entry and one message of core 8, which has reached the home. -/
def home (k : MKind) (e : DirEnt) : State := { State.reset with net := [⟨5, 8, k⟩], tags := [⟨⟨5, 8, k⟩, 8, 1, 0, 0, true⟩], dir := [(5, e)] }
def ent (st : DSt) (owner : Option Nat) (sharers : List Nat) : DirEnt := { DirEnt.init with st := st, owner := owner, sharers := sharers }
theorem wit_HomeRequests :
    (∀ k ∈ [MKind.getS true 3, .getM, .upg, .putM, .putO, .putE, .push 3 0 0 7 [16, 24] [(640, 1), (641, 2)] [], .push 3 0 0 7 [] [] []],
      ∀ e ∈ [ent .i none [], ent .em (some 8) [], ent .s none [8, 16], ent .o (some 16) [8, 24], ent .o (some 8) [], ent .em (some 24) []],
        AtHead (home k e) 5 8 k ∧ (home k e).dirE 5 = e ∧ e.psn = false ∧ ∀ j ∈ e.sharers, coreExists State.reset.part j = true) ∧
    isHost (128 * 5) = false ∧ coreExists State.reset.part 8 = true ∧ coreExists State.reset.part 1023 = false ∧
    (listed (ent .s none [8, 16]) 8 = true ∧ listed (ent .s none [16]) 8 = false) ∧ ([(640, 1), (641, 2)] : List (Nat × Nat)).map Prod.fst = [640, 641] ∧
    (∀ d ∈ [16, 24], coreExists State.reset.part d = true) ∧ sharersOf State.reset (ent .s none []) = [] := by
  unfold AtHead; decide +kernel

def busy (req : Nat) (acks : List Nat) (fwd : Option Nat) (fills sweep : List Nat) (dirty : Nat) : Busy := { Busy.init with req := req, core := 16, acks := acks, fwd := fwd, fills := fills, sweep := sweep, dirty := dirty }
def waiting (k : MKind) (b : Busy) : State := home k { ent .em (some 8) [] with busy := some b }
/-- Core 8 owns the line and holds an unpublished release of group 0 on stream 3 with die scope: core 16 lies inside its scope, core 200 does not. -/
theorem wit_HomeRequests_release :
    let e := { ent .em (some 8) [] with nrels := [(0, 3, 3)] }
    outsideRel e 16 = none ∧ outsideRel e 200 = some (0, 3, 3) := by decide +kernel
theorem wit_HomeAnswers :
    (∀ b ∈ [busy 2 [8, 24] none [] [] 0, busy 2 [8] none [] [] 0, busy 3 [8] none [] [] 0, busy 10 [8] none [] [] 0],
      Arrives (waiting .invAck b) 5 8 (· == .invAck) .invAck ∧ 8 ∈ b.acks ∧ ((waiting .invAck b).dirE 5).busy = some b) ∧
    ((busy 2 [8, 24] none [] [] 0).acks.filter (· != 8) ≠ [] ∧ (busy 3 [8] none [] [] 0).acks.filter (· != 8) = []) ∧
    (∀ d ∈ [true, false], Arrives (waiting (.notice d (some (16, .s))) (busy 1 [] (some 8) [] [] 0)) 5 8 isNotice (.notice d (some (16, .s))) ∧
      Arrives (waiting (.recallData d) (busy 10 [] (some 8) [] [] 0)) 5 8 isRecallData (.recallData d) ∧
      Arrives (waiting (.recallData d) (busy 8 [] none [] [8] 1)) 5 8 isRecallData (.recallData d)) ∧
    (∀ k ∈ [MKind.install, .refuse], ∀ b ∈ [busy 7 [] none [8] [] 1, busy 7 [] none [8, 24] [] 1],
      Arrives (waiting k b) 5 8 (· == k) k ∧ 8 ∈ b.fills ∧ b.req = 7 ∧ b.dirty = 1) ∧ (8 ≠ (busy 1 [] (some 8) [] [] 0).core) ∧ DSt.i ≠ .s := by
  unfold Arrives; decide +kernel

/-- Core 8 holds line 5 in a state, and a message is on its way to it. -/
def held (k : MKind) (st : L1St) : State :=
  { State.reset with net := [⟨5, 8, k⟩], cores := [(8, { CoreSt.init with l1 := if st = .i then [] else [⟨5, st, 1, none, [], true, none, []⟩] })] }
/-- A Fill for context 0 on its way to core 8, on which a team of it lives or not. -/
def filling (ret resident : Bool) (quota : Nat) : State :=
  { held (.fill 0) .i with
    cores := [(8, { CoreSt.init with ret := ret })]
    teams := if resident then [(0, { Team.init with core := 8, gone := false })] else []
    regs := [(0x100830, BitVec.ofNat 64 quota ^^^ 256)] }
theorem wit_L1Messages :
    (∀ st ∈ [L1St.i, .s, .e, .o, .m, .isd, .ima, .sma, .oma, .mia, .oia, .eia, .iia],
       l1State ((held .inv st).core 8) 5 = st ∧ (∀ x ∈ (l1Find ((held .inv st).core 8) 5).toList, x.way = true ∧ x.pois = []) ∧ findMsg (held .sweep st) 5 8 isFill = none ∧ Arrives (held (.data .m) st) 5 8 isData (.data .m) ∧ Arrives (held .upgAck st) 5 8 (· == .upgAck) .upgAck ∧
      Arrives (held .putAck st) 5 8 (· == .putAck) .putAck ∧ Arrives (held .inv st) 5 8 (· == .inv) .inv ∧ Arrives (held (.fwdS 16) st) 5 8 isFwdS (.fwdS 16) ∧
      Arrives (held (.fwdPub 3 16) st) 5 8 (isFwdPub 3) (.fwdPub 3 16) ∧ Arrives (held (.fwdM 16) st) 5 8 isFwdM (.fwdM 16) ∧
      Arrives (held .recall st) 5 8 (· == .recall) .recall ∧ Arrives (held .sweep st) 5 8 (· == .sweep) .sweep) ∧
    ((held .inv .m).core 8).ret = false ∧ (16 ≠ 0x3FF) ∧ storeDue (held .recall .m) 8 5 = false := by
  unfold Arrives; decide +kernel
theorem wit_L1Messages_fill :
    (∀ q ∈ [0, 1], ∀ ret ∈ [true, false], ∀ res ∈ [true, false], let s := filling ret res q
      Arrives s 5 8 isFill (.fill 0) ∧ l1State (s.core 8) 5 = .i ∧ (s.core 8).ret = ret ∧ residentOn s 0 8 = res ∧ pquota s 0 = q ∧ untouched (s.core 8) 0 = 0 ∧
      wayFree (makeWay s 8 5) = true) := by
  unfold Arrives; decide +kernel
/-- The set of line 5 is full of lines that wait for their data. -/
def fullSet : State :=
  { held (.fill 0) .i with cores := [(8, { CoreSt.init with l1 := (List.range 16).map fun k => ⟨5 + 4096 * (k + 1), .isd, 1, none, [], true, none, []⟩ })] }
theorem wit_L1Messages_fullSet :
    Arrives fullSet 5 8 isFill (.fill 0) ∧ l1State (fullSet.core 8) 5 = .i ∧ untouched (fullSet.core 8) 0 < pquota fullSet 0 ∧
    16 ≤ (l1Ways fullSet 8 5).1.length + (l1Ways fullSet 8 5).2 ∧ ∀ x ∈ (l1Ways fullSet 8 5).1, x.st.stable = false := by
  unfold Arrives; decide +kernel
theorem wit_L1Messages_more :
    (let s := { held (.pushDone 3 0 7) .i with groups := [(0, { Group.init with pushes := [⟨7, 5, 8, 3, []⟩] })] }
     Arrives s 5 8 (isPushDone 3) (.pushDone 3 0 7) ∧ (⟨7, 5, 8, 3, []⟩ : PushOut) ∈ (s.grp 0).pushes) ∧
    (let s := (held .recall .m).setCore 8 { (held .recall .m).core 8 with ret := true }
     (s.core 8).ret = true ∧ ∃ m ∈ s.net, m.core = 8 ∧ m.kind = .recall ∧ l1State (s.core 8) m.line = .m) ∧
    coreExists (held .recall .m).part 8 = true := by
  unfold Arrives; decide +kernel

/-- Host line 2^53 with an entry. -/
def hostAt (e : DirEnt) (net : List Msg) : State := { State.reset with dir := [(2 ^ 53, e)], net := net }
theorem wit_HostCoherence :
    isHost (128 * 2 ^ 53) = true ∧
    (∃ m ∈ (hostAt DirEnt.init [⟨2 ^ 53, 8, .half 1 true⟩]).net, m.line = 2 ^ 53 ∧ m.kind = .half 1 true) ∧
    (∀ e ∈ [{ ent .i none [] with half1 := 3 }, { ent .s none [8] with half1 := 1 }, { ent .em (some 8) [] with half1 := 2 }, { ent .o (some 8) [16] with half1 := 3 }],
      let s := hostAt e []
      halfState (s.dirE (2 ^ 53)) 1 ≠ 0 ∧ homeFree s (2 ^ 53) = true ∧ sweeping s (2 ^ 53) = false) ∧
    (let s := hostAt (ent .em (some 200) []) [⟨2 ^ 53, 200, .fwdS 16⟩]
     1 ∈ linkStops (2 ^ 53) 200 ∧ findMsg s (2 ^ 53) 200 isFanOut = some ⟨2 ^ 53, 200, .fwdS 16⟩ ∧ (s.dirE (2 ^ 53)).busy = none ∧ s.groups = [] ∧ dieCtx s (dieOf 16) = none) ∧
    (∀ kind, kind < 3 → let b := busy 9 [] (some 8) [] [] (1 + 2 * kind)
     let s := hostAt { ent .em (some 8) [] with busy := some b, half1 := 2 } [⟨2 ^ 53, 8, .recallData true⟩]
     (s.dirE (2 ^ 53)).busy = some b ∧ Arrives s (2 ^ 53) 8 isRecallData (.recallData true)) := by
  unfold Arrives; decide +kernel
theorem wit_HostCoherence_context : dieCtx (onDies (hostAt (ent .em (some 200) []) [⟨2 ^ 53, 200, .fwdS 16⟩]) 1) (dieOf 16) = some 0 :=
  wit_dieCtx (by decide +kernel) (by decide +kernel) _ (by decide +kernel)

/-! Translation and contexts. -/

def preq0 : PReq := ⟨0, 8, 3, true⟩
def page3 (r w : Bool) : PageMap := ⟨0x3000, 12, 0x5000, r, w⟩
def asking (s : State) : State := { s with io := { s.io with linkDown := false, atsWait := [preq0, ⟨0, 16, 3, false⟩], priWait := [preq0], oprAlloc := 1, bar0 := 2 ^ 41 } }
def logged : SEnt := { id := 0, hint := 0, gh := 0, stream := 3, scope := 0, order := 0, op := .store, bytes := [(0x2000, 1), (0x2001, 2)], pois := [] }
theorem wit_Translation_requests :
    (let s := asking State.reset
     s.io.priWait = preq0 :: [] ∧ s.io.priSent.length < s.io.oprAlloc ∧ s.io.linkDown = false) ∧
    (let s := { (ctx0 State.reset fun x => { x with unmap := [(3, true)] }) with io := { State.reset.io with priSent := [preq0] } }
     s.io.priSent.find? (fun r => r.ctx == 0 && r.page == 3) = some preq0 ∧ (s.ctx 0).unmap.any (fun u => u.1 == 3) = true ∧ preq0.core ≠ deadReq) ∧
    (∀ s ∈ [{ (ctx0 State.reset fun x => { x with unmap := [(3, true)] }) with io := { State.reset.io with priSent := [{ preq0 with core := deadReq }] } }],
     s.io.priSent.find? (fun r => r.ctx == 0 && r.page == 3) = some { preq0 with core := deadReq }) ∧
    mget 0 ((ctx0 (asking State.reset) fun x => { x with misses := [(3, 4)] }).ctx 0).misses 3 = 4 ∧
    (let s := asking State.reset
     s.io.atsWait.filter (fun r => r.ctx == 0 && r.page == 3) ≠ [] ∧ (page3 true false).va = 3 * 4096 / 2 ^ 12 * 2 ^ 12 ∧ (page3 false false).pa % 2 ^ 12 = 0 ∧
     (busLoc s ((page3 true false).pa + 3 * 4096 % 2 ^ 12)).isSome = true) ∧
    (pasidSlot (onDies State.reset 1) 0 = some 0 ∧ pasidSlot (onDies State.reset 1) 1 = none ∧ wayOut (onDies State.reset 1) 0 = false) := by decide +kernel
theorem wit_Translation_replay :
    (let s := onCore handL fun c => { c with slog := [logged], l1 := [⟨lineA, .m, 1, none, [], true, none, []⟩] }
     replayable (s.core 0) 0 = some logged ∧ xlate s 0 0 logged.va true = .hit (2 ^ 25 + 0x2000) ∧ (∀ b ∈ logged.bytes, logged.va ≤ b.1) ∧
     (logged.bytes.map Prod.fst).Nodup ∧ lineLocked s lineA none = false ∧ pushPending s 0 lineA = false ∧ l1Find (s.core 0) lineA = some ⟨lineA, .m, 1, none, [], true, none, []⟩ ∧
     lineOf (2 ^ 25 + 0x2000) = lineA ∧ (s.team (s.grp logged.gh).team).ctx = 0) ∧
    (let s := onCore handL fun c => { c with slog := [logged], tlb := [] }
     replayable (s.core 0) 0 = some logged ∧ xlate s 0 0 logged.va true = .miss) := by decide +kernel
theorem wit_Translation_tries :
    let s := onCore handL fun c => { c with slog := [logged], tlb := [] }
    asked s 0 0 logged.va = false ∧ s.io.linkDown = false ∧ tryCount s 0 0 logged.who (pageOf logged.va) = 0 ∧
    tryCount (setTry s 0 0 logged.who (pageOf logged.va) 4) 0 0 logged.who (pageOf logged.va) = 4 ∧
    (let t := { s with io := { s.io with atsWait := [⟨0, 0, pageOf logged.va, true⟩] } }
     asked t 0 0 logged.va = true) := by decide +kernel

/-- The value of CTXCFG for PASID 5, on die 1 alone, with the reserved bits that a write leaves out. -/
def cfg5 : BitVec 64 := 0x8010000000000005
theorem wit_ContextLife_free :
    let s := onDies handL 1
    let v : Word64 := (cfg5 &&& 0x807C0000000FFFFF) ||| (1#64 <<< 63)
    deviceReady s = true ∧ ctxValid s 63 = false ∧ fld v 54 52 % 2 ^ fld v 51 50 = 0 ∧ fld v 19 0 = 5 ∧ fld (s.reg (rCTXCFG 0)) 19 0 = 0 ∧
    (∀ c, c < 64 → ctxValid s c = true → c = 0) ∧ ctxDies s 0 = [0] ∧ 0 ∉ (List.range (2 ^ fld v 51 50)).map (fld v 54 52 + ·) := by decide +kernel
theorem wit_ContextLife :
    (ctxValid (onDies handL 1) 0 = true) ∧ (¬ deviceReady handL = true) ∧ blockBusy handL 0 = false ∧
    (1 ≤ 3 ∧ handL.io.powered = true ∧ fld (handL.reg rSECSTAT) 0 0 = 0 ∧ fld ((handL.setReg rSECSTAT 3).reg rSECSTAT) 0 0 = 1) := by
  decide +kernel
/-- The first block of the die that holds block 0. -/
theorem wit_ContextLife_block : blockDie 0 < 8 ∧ kthBlock (blockDie 0) (2 ^ 19) 0 0 = some 0 := by
  refine ⟨?_, by rw [show 2 ^ 19 = 524287 + 1 from rfl, kthBlock, if_pos rfl, if_pos rfl]⟩
  simp only [blockDie, placeBlock, blocksUsed, mget, dieBlocks]
  split <;> omega
theorem wit_ContextLife_host : hostUp handL = true ∧ handL.io.linkDown = false ∧ handL.io.powered = true := by decide +kernel

/-! Saves and moves. -/

def saving (s : State) : State := ctx0 s fun x => { x with saving := true }
def frozen : State := group (saving handL) fun g => { g with stopped := true, isNative := true }
/-- A native record of the group in hand, with one byte of scratchpad. -/
def record0 : Saved :=
  { team := { handL.team 0 with saved := true }, tid := 0, groups := [(0, handL.grp 0)], isNative := true, quiet := [], sp := [(5, 9)], full := [], spois := [],
    waits := [], vals := [], bad := [], pois := none, areaRec := false }
def resumable : State :=
  { ctx0 (onDies handL 1) (fun x => { x with saves := [record0] }) with groups := [], teams := [(0, { handL.team 0 with saved := true })] }
/-- The team in hand waits to migrate at hinge 17, whose map has one vector, one scalar and one predicate entry; a mig word stands in both encodings. -/
def migrating : State :=
  let masks (v r q : Nat) : List Byte := toBytes 96 (2 ^ v) ++ toBytes 16 (2 ^ r) ++ toBytes 2 (2 ^ q) ++ List.replicate 14 0
  let m : List Byte := toBytes 2 17 ++ toBytes 2 3 ++ List.replicate 12 0 ++ masks 5 20 3 ++ masks 6 21 4 ++ toBytes 8 (5 * 2 ^ 52 + 6 * 2 ^ 42 + 1) ++
    toBytes 8 (2 * 2 ^ 62 + 20 * 2 ^ 52 + 21 * 2 ^ 42 + 2) ++ toBytes 8 (3 * 2 ^ 62 + 3 * 2 ^ 52 + 4 * 2 ^ 42 + 3)
  let s := ((rowed handL 17).wrCells (cellsOf (2 ^ 25 + 4160) m)).wrCells (cellsOf (2 ^ 25) (toBytes 4 0x78380001))
  team (split s fun p => { p with pc := 0 }) fun t => { t with moving := true }
def isInl {α β : Type} : α ⊕ β → Bool
  | .inl _ => true
  | .inr _ => false
def isInr {α β : Type} : α ⊕ β → Bool
  | .inr _ => true
  | .inl _ => false
theorem isInr_eq {α β : Type} {x : α ⊕ β} (h : isInr x = true) : ∃ b, x = .inr b := by
  cases x with
  | inr b => exact ⟨b, rfl⟩
  | inl a => exact nomatch h
/-- The launch of the team in hand, with its one hinge row. -/
def hinged : Launch := { placeLaunch with hcount := 1 }
/-- The team stands at its hinge 17, whose map names three values, and is pre-empted. -/
def atHinge : State :=
  team (split migrating fun p => { p with hold := .bar 16 0 }) fun t => { t with moving := false, preempt := true }
/-- A saved team whose lanes are owed to a grace period that has lasted long, bound to another team, with its core taken. -/
def crowded : State :=
  (ctx0 handL fun x =>
    { x with grace := true, boosted := true,
             saves := [{ record0 with tid := 1, groups := [(32, { handL.grp 0 with misc := { GMisc.init with owed := 1 } })] }] }).setTeam 1
    { handL.team 0 with saved := true, peers := [(1, .team 9)] }
theorem wit_SavesAndMoves_stops :
    ∀ s ∈ [saving handL, saving (inTx handL)],
      preempted s (s.team 0) = true ∧ s.groups.any (fun e => e.1 == 0) = true ∧ (s.grp 0).retired = false ∧ (s.grp 0).stopped = false ∧
      (s.team 0).moving = false ∧ atHingeAll s (s.grp 0) = false ∧ (s.team 0).size ≤ 32 ∧ liveHandles s 0 = [0] ∧
      (s.grp 0).defer.length + (lanes32.filter fun l => (txOf (s.grp 0) l).active).length ≤ 8 := by decide +kernel
theorem wit_SavesAndMoves_room : let s := crowded
    (preempted s (s.team 0) = false ∧ (s.team 0).gone = false ∧ (s.team 0).saved = false ∧ (s.team 0).moving = false ∧ (s.team 0).pair = none ∧
      teamLaunch s (s.team 0) = some placeLaunch ∧ makesRoom s 0 placeLaunch = true) ∧ ctxState s 0 = 0 :=
  ⟨by decide +kernel, wit_ctxState (by decide +kernel)⟩
theorem wit_SavesAndMoves_saves :
    (let s := frozen
     preempted s (s.team 0) = true ∧ (s.team 0).gone = false ∧ (s.team 0).saved = false ∧ (s.team 0).moving = false ∧ (s.team 0).pair = none ∧
     (teamLaunch s (s.team 0)).isSome = true ∧ liveHandles s 0 = [0] ∧ teamAsks s 0 = none ∧ teamStuck s 0 = none ∧ (s.grp 0).stopped = true ∧ (s.grp 0).isNative = true ∧
     wordsHeld s (s.grp 0) = true ∧      (s.grp 0).retired = false ∧ leaves s 0 true = true) ∧
    (let s := atHinge
     let g := s.grp 0
     preempted s (s.team 0) = true ∧ (s.team 0).pair = none ∧ (s.team 0).moving = false ∧ teamLaunch s (s.team 0) = some hinged ∧ liveHandles s 0 = [0] ∧ teamAsks s 0 = none ∧ teamStuck s 0 = none ∧
     g.retired = false ∧ leaves s 0 true = true ∧ (s.team 0).isL = true ∧ hinged.hasL = true ∧ g.team = 0 ∧ g.stopped = false ∧ g.isNative = false ∧ g.frame = none ∧
     g.defer = [] ∧ g.spills = 0 ∧ g.pend = [] ∧ g.splits = [s.sp] ∧ stoppedSplit (inMask (s.team 0).migarr g.idx) s.sp = true ∧ isInl (wordAt s 0 0 (whoTeam (s.team 0)) hinged true s.sp.pc) = true ∧ hingeAt s (s.team 0) hinged s.sp.pc = .row ⟨17, true, 0, 0, 0, 0, 0⟩ ∧
     readMap s 0 0 (whoTeam (s.team 0)) hinged ⟨17, true, 0, 0, 0, 0, 0⟩ g.allot = .ok [⟨0, 5, 6, 1, 0⟩, ⟨2, 20, 21, 2, 0⟩, ⟨3, 3, 4, 3, 0⟩]) := by decide +kernel
def resumed : List (Nat × Group) := [(0, nativeGroup 0 (handL.grp 0))]
theorem wit_SavesAndMoves_resume :
    (let s := resumable
     (s.ctx 0).saves[0]? = some record0 ∧ record0.team.ctx = 0 ∧ record0.isNative = true ∧ record0.pois = none ∧ record0.waits = [] ∧
     teamLaunch s record0.team = some placeLaunch ∧ (s.ctx 0).saving = false ∧ ctxValid s 0 = true ∧ comesLater s 0 record0 = false ∧
     resumePlaces s 0 placeLaunch record0 = some [(record0, 0, [0])]) ∧ ctxState resumable 0 = 0 :=
  ⟨by decide +kernel, wit_ctxState (by decide +kernel)⟩
theorem wit_SavesAndMoves_plan : planPlaces resumable placeLaunch [(record0, 0, [0])] = .ok [(record0, 0, resumed)] := by
  simp [planPlaces, resumeGroups, record0, resumed, nthD, show (handL.grp 0).idx = 0 by decide +kernel]
theorem wit_SavesAndMoves_resumeGroups :
    (∀ e ∈ resumable.teams, e.2.qarr = 0) ∧ (∀ e ∈ resumable.cores, ∀ w ∈ e.2.waits, w.gh / 32 ≠ 0) ∧ (resumed.map Prod.fst).Nodup ∧
    (∀ e ∈ resumed, e.2.tx = [] ∧ ∀ p ∈ e.2.splits, p.hold = .none) ∧ mwf 0 record0.sp = true ∧
    ∀ e ∈ record0.sp, record0.team.off ≤ e.1 ∧ e.1 < record0.team.off + record0.team.bytes := by decide +kernel
def planOk {α : Type} : Plan α → Bool
  | .ok _ => true
  | _ => false
theorem planOk_some {α : Type} {p : Plan α} (h : planOk p = true) : ∃ a, p = .ok a := by
  cases p <;> first | exact ⟨_, rfl⟩ | exact nomatch h
/-- The values of the group in hand go to a D-core by the map of hinge 17. -/
def migratingD : State := migrating.setCore 1 { migrating.core 1 with tlb := (migrating.core 0).tlb }
def portable : Saved := { record0 with isNative := false }
def portableGroup : Group := { handL.grp 0 with splits := [{ handL.sp with hinge := 17, hold := .bar 16 0 }] }
def portableVals : List PVal := takeVals (handL.grp 0) true [(0xFFFFFFFF, [⟨0, 5, 6, 1, 0⟩, ⟨2, 20, 21, 2, 0⟩, ⟨3, 3, 4, 3, 0⟩])]
theorem wit_SavesAndMoves_portable :
    findRow migratingD 0 1 (whoTeam portable.team) (fun r => r.id == 17) hinged.htab hinged.hcount = .row ⟨17, true, 0, 0, 0, 0, 0⟩ ∧ hinged.hasD = true ∧ coreIsL 1 = false ∧
    readMap migratingD 0 1 (whoTeam portable.team) hinged ⟨17, true, 0, 0, 0, 0, 0⟩ portableGroup.allot = .ok [⟨0, 5, 6, 1, 0⟩, ⟨2, 20, 21, 2, 0⟩, ⟨3, 3, 4, 3, 0⟩] ∧
    planOk (resumeGroups migratingD portable hinged 1 [((0, portableGroup), portableVals, 0)]) = true := by decide +kernel
theorem wit_SavesAndMoves_moves :
    (let s := migrating
     (s.team 0).moving = true ∧ (s.team 0).gone = false ∧ (s.team 0).saved = false ∧ teamLaunch s (s.team 0) = some hinged ∧ (s.team 0).target = none ∧
     migTarget s hinged (s.team 0) = some 1) ∧
    (let s := team migrating fun t => { t with target := some (1, [0]) }
     (s.team 0).moving = true ∧ teamLaunch s (s.team 0) = some hinged ∧ teamQuiet s 0 = true ∧ mwf 0 (s.core 0).sp = true ∧
     isInr (moveGroups s (s.team 0) hinged 1 [(0, 0)] []) = true) ∧
    (let s := launch migrating fun l => { l with hasD := false }
     (s.team 0).moving = true ∧ (s.team 0).target = none ∧ teamLaunch s (s.team 0) = some { hinged with hasD := false } ∧
     migTarget s { hinged with hasD := false } (s.team 0) = none) := by decide +kernel
theorem wit_SavesAndMoves_move :
    let s := migrating
    let l : Launch := { placeLaunch with hcount := 1 }
    let r : HRow := ⟨17, true, 0, 0, 0, 0, 0⟩
    (s.grp 0).splits = [s.sp] ∧ hingeAt s (s.team 0) l 0 = .row r ∧ s.sp.pc = 0 ∧
    readMap s 0 0 (whoTeam (s.team 0)) l r (s.grp 0).allot = .ok [⟨0, 5, 6, 1, 0⟩, ⟨2, 20, 21, 2, 0⟩, ⟨3, 3, 4, 3, 0⟩] ∧ wordAt s 0 0 (whoTeam (s.team 0)) l false (rowPc r false).1 = .inl (some (.mig 7 true)) ∧
    (match moveGroup s (s.team 0) l 1 0 (s.grp 0) with | .ok _ => true | _ => false) = true := by decide +kernel
/-- Context 0 is valid with no backing region, its save area at 2^23 begins with the MAGIC; CTXCTL's STATE is as given. -/
def inState (st : Nat) : State :=
  ({ State.reset with regs := [(0x100800, BitVec.ofNat 64 (2 ^ 63)), (0x100808, BitVec.ofNat 64 (16 * st) ^^^ regReset 0x100808), (0x100810, 0x800000)],
                      keytag := [(4, 0)] } : State).wrCells (cellsOf 0x800000 (toBytes 4 0x48585443))
theorem wit_SavesAndMoves_ctxState (st : Nat) (h : st < 4) : ctxState (inState st) 0 = st := by
  show fld ((BitVec.ofNat 64 (16 * st) ^^^ regReset 0x100808) ^^^ regReset 0x100808) 5 4 = st
  rw [BitVec.xor_assoc, BitVec.xor_self, BitVec.xor_zero]
  interval_cases st <;> decide
theorem wit_SavesAndMoves_area (s : State) (c a : Nat) (l : Launch) :
    areaRecs s c 0 a = .ok [] ∧ recBytes s l [] = ([], []) ∧ allSome ([] : List (Option Saved)) = some [] := by
  rw [areaRecs, recBytes, allSome]; exact ⟨rfl, rfl, rfl⟩
theorem wit_SavesAndMoves_context :
    ∀ st, st < 4 → let s := inState st
      let a := saveBase s 0
      ctxValid s 0 = true ∧ (∀ e ∈ s.groups, (s.team e.2.team).ctx ≠ 0) ∧ noSteal s 0 = true ∧ graceDue s 0 = false ∧ s.io.peerOut = [] ∧ s.cores = [] ∧
      running s 0 = none ∧ (s.ctx 0).saves = [] ∧ (∀ d ∈ ctxDies s 0, hasRegion s 0 d = false) ∧ rangeOk s 0 a 4096 = true ∧ (∀ e ∈ (s.ctx 0).slots, e.2.state = 0) ∧
      othersHold s 0 = false ∧ s.isPoison a 4096 = false ∧ s.rdNat a 4 = 0x48585443 ∧ s.rdNat (a + 4) 4 = 0 ∧ (∀ k, k < 16 → s.rdNat (a + 137 + 128 * k) 1 ≠ 2) ∧
      (s.ctx 0).defers = [] := by decide +kernel
/-! Peers, registers, the platform, faults, the step. -/

theorem wit_idle : 0 < 4 ∧ 256 + 4 ≤ 2 ^ 40 ∧ ∀ line, 256 / 128 ≤ line → line * 128 < 256 + 4 → HomeIdle State.reset 0x3FF line := by
  refine ⟨by decide, by decide, fun line h1 h2 => ?_⟩
  obtain rfl : line = 2 := by omega
  unfold HomeIdle
  decide +kernel
theorem wit_idle_top : 0 < 4 ∧ (2 ^ 40 - 4) + 4 ≤ 2 ^ 40 ∧ ∀ line, (2 ^ 40 - 4) / 128 ≤ line → line * 128 < (2 ^ 40 - 4) + 4 → HomeIdle State.reset 0x3FF line := by
  refine ⟨by decide, by decide, fun line h1 h2 => ?_⟩
  obtain rfl : line = 2 ^ 33 - 1 := by omega
  unfold HomeIdle
  decide +kernel
/-- Window 3 admits reads of block 0 alone; window 15 admits all of device memory to writes. -/
def windows (all : Bool) : State := { State.reset with regs := if all then [(0x510878, 0xD300000000000000)] else [(0x510818, 0x8000000000000000)] }
def peer0 : PeerOut := ⟨1, 0, 3, some 0, 0, 0x2000, 1, FaultAt.none 0 0, 2 ^ 41 + 5, true, false, [(0x5000, 16)]⟩
/-- The host link is up and the HBM4E stacks have trained; accesses that no window admits are refused. -/
def linked (s : State) : State := { s with regs := s.regs ++ [(0x500020, 0x40)], io := { s.io with linkDown := false } }
theorem wit_PeersAndLink :
    (hostUp (linked State.reset) = true ∧ memoryUp (linked (windows true)) = true ∧ memoryUp (linked (windows false)) = true) ∧
    (peerAdmits (windows true) 256 4 true = true ∧ peerAdmits (windows true) (2 ^ 40 - 4) 4 false = true ∧ peerAdmits (windows false) 256 4 false = true ∧
     peerAdmits (windows false) (2 ^ 21 - 4) 4 false = true ∧ peerAdmits (windows false) (2 ^ 21 - 2) 4 false = false ∧ peerAdmits State.reset 256 4 false = false) ∧
    (∀ p ∈ [peer0, { peer0 with load := false }], ({ handL.io with peerOut := [p] } : Io).peerOut[0]? = some p) ∧
    (2 < 2 ^ 23 ∧ 2 % 4 ≠ 0 ∧ 16 ≠ 4 ∧ 16 ≠ 8 ∧ 16 ≠ 64) ∧ (State.reset.io.linkDown = true ∧ State.reset.io.powered = true ∧ State.reset.io.trained = false) ∧
    (1 ≤ fld ((linked State.reset).reg rBOOTSTAT) 7 4 ∧ (linked State.reset).io.linkDown = false) ∧
    (readsWide 0x900800 = false ∧ readsWide 0x101000 = false ∧ readsWide 0x501000 = true) := by decide +kernel
theorem wit_PeersAndLink_idle_in_windows : ∀ line, 256 / 128 ≤ line → line * 128 < 256 + 4 → HomeIdle (linked (windows true)) 0x3FF line ∧ HomeIdle (linked (windows false)) 0x3FF line := by
  intro line h1 h2
  obtain rfl : line = 2 := by omega
  unfold HomeIdle
  decide +kernel
theorem wit_PeersAndLink_resident : ctxResident (onDies handL 1) 0 = true ∧ (onDies handL 1).io.linkDown = false :=
  ⟨wit_resident (by decide +kernel) (by decide +kernel), by decide +kernel⟩
theorem wit_PeersAndLink_no_context : ∀ c, c < 64 → ctxResident State.reset c = false := by decide +kernel

/-- HEAD and TAIL of the trace ring of die 0. -/
def ring (head tail : Nat) : Word64 := BitVec.ofNat 64 (head * 2 ^ 32 + tail)
def snapped (armed : Bool) (trig : Option (Nat × Nat)) : State :=
  { State.reset with regs := if armed then [(0x500010, 1)] else [], io := { State.reset.io with trig := trig } }
def nib (v : Word64) (k : Nat) : Nat := fld v (4 * k + 3) (4 * k)
def far (p : Word64) (x : Nat) : Nat := (x + 2 ^ 21 - fld p 52 32) % 2 ^ 21
def quotasFit (v : Word64) : Prop := nib v 0 ≠ 0 ∧ nib v 1 ≠ 0 ∧ nib v 2 ≠ 0 ∧ nib v 3 ≠ 0 ∧ nib v 0 + nib v 1 + nib v 2 + nib v 3 = 16
theorem wit_HostRegisters_quotas : quotasFit 0x4444 ∧ quotasFit 0xD111 := by unfold quotasFit; decide +kernel
theorem wit_HostRegisters_quotas_bad : nib 0x4448 0 + nib 0x4448 1 + nib 0x4448 2 + nib 0x4448 3 ≠ 16 ∧ nib 0x0880 3 = 0 := by decide +kernel
theorem wit_HostRegisters_ring :
    (∀ h ∈ [2097088, 0, 64], far (ring 2097088 64) (fld (ring h 0) 52 32) ≤ far (ring 2097088 64) (fld (ring 2097088 64) 20 0)) ∧
    far (ring 2097088 64) (fld (ring 2097088 64) 20 0) < far (ring 2097088 64) (fld (ring 128 0) 52 32) := by decide +kernel
theorem wit_HostRegisters :
    (∀ a ∈ [true, false], ∀ t ∈ [none, some (5, 64)], hostUp (linked (snapped a t)) = true) ∧
    (fld ((snapped true none).reg rSNAPCTL) 0 0 = 1 ∧ (snapped true none).io.trig = none ∧ fld ((snapped false none).reg rSNAPCTL) 0 0 = 0 ∧
     (snapped true (some (5, 64))).io.trig = some (5, 64)) ∧
    (fld (({ State.reset with regs := [(0x800, 1)] } : State).reg 0x800) 0 0 = 1 ∧ fld (State.reset.reg 0x800) 31 31 = 0) ∧
    ({ State.reset with regs := [(0x400018, ring 2097088 64)] } : State).reg (rTRCPTR 0) = ring 2097088 64 := by decide +kernel

/-- Bring-up has finished stage n. -/
def booting (n : Nat) : State := { State.reset with regs := if n = 0 then [] else [(0x500020, BitVec.ofNat 64 (16 * n))] }
theorem wit_Platform :
    (∀ n, n < 4 → let s := booting n
      let r := s.reg rBOOTSTAT
      fld r 7 4 < 4 ∧ fld r 0 0 = 0 ∧ fld (s.reg rSECSTAT) 0 0 = 0 ∧ s.io.powered = true ∧ fld r 7 4 = n) ∧
    (({ State.reset.io with powered := false } : Io).powered = false) ∧ (List.replicate 32 (0 : Byte)).length = 32 ∧ (∀ j, j < 8 → (State.reset.mr j).length = 64) ∧
    (1000000 < 1000001) ∧ (600 % 50 = 0 ∧ 1800 % 50 = 0) ∧
    (600 < mget 1800 State.reset.io.freq 23 ∧ 1750 < mget 1800 State.reset.io.freq 0) ∧
    (let s : State := { State.reset with io := { State.reset.io with freq := [(0, 1750)] } }
     1800 = mget 1800 s.io.freq 0 + 50) := by decide +kernel
/-- Of the two outcomes of the firmware check one meets the statement's premise about a stage that fails, the other that of one that passes. -/
theorem wit_Platform_check (image n : Nat) : stagePasses image n = false ∨ (n = 1 ∨ n = 2 → stagePasses image n = true) := by
  cases stagePasses image n <;> simp
/-- A limit of an island that is not met, an island that a limit holds down, and the bounds of a correction. -/
theorem wit_Platform_limits :
    islandLimit State.reset 0 2 < 1001 ∧ (0 < 24 ∧ 600 ≤ 650 ∧ 650 ≤ 1800 ∧ 650 % 50 = 0 ∧ State.reset.io.powered = true) ∧ askedMHz State.reset 0 = 1800 ∧
    (let s : State := { State.reset with io := { State.reset.io with asks := [(2, 650)] } }
     askedMHz s 0 = 650 ∧ 650 < mget 1800 s.io.freq 0) ∧ ((-5 : Int) ≤ 1000000) ∧ State.reset.io.trig = none ∧ hostUp (linked State.reset) = true ∧ inService (booting 1) = true := by decide +kernel

/-- The fault queue of context 0: 64 records at 2^23, in blocks with its tag; HEAD and TAIL as given. -/
def queueAt (head tail : Nat) : State := { handL with regs := [(0x100818, 0x800006), (0x100820, BitVec.ofNat 64 (tail * 2 ^ 16 + head))], keytag := [(4, 0)] }
theorem wit_FatalFault :
    (∀ e ∈ [(0, 0), (5, 4), (0, 62), (1, 63)], let s := queueAt e.1 e.2
      let q := s.reg (rFQCTL 0)
      let n := fld (s.reg (rFQBASE 0)) 3 0
      let tail := fld q 31 16
      let at_ := fld (s.reg (rFQBASE 0)) 63 12 * 4096 + 64 * tail
      ((tail + 1) % 2 ^ n = fld q 15 0 % 2 ^ n ↔ e = (5, 4)) ∧ 6 ≤ n ∧ keyTag s (blockOf at_) = 0 ∧ isDev at_ = true ∧ fld (s.reg (rTRCCTL 0)) 23 23 = 0 ∧
      s.io.linkDown = false ∧ fld (s.reg (16 * fld q 36 32 + 8)) 32 32 = 1) ∧
    (fld (({ handL with regs := [(8, 0x100000000)] } : State).reg 8) 32 32 = 0) ∧
    (dieOf 0 < 8 ∧ firstDie handL 0 < 8 ∧ fld (State.reset.reg (rFQBASE 0)) 3 0 < 6) ∧ ({ handL.io with linkDown := true } : Io).linkDown = true ∧
    (∃ e ∈ handL.teams, e.2.ctx = 0 ∧ 0 / 32 = e.1) ∧ (∀ e ∈ handL.teams, e.2.ctx = 0 → 32 / 32 ≠ e.1) := by decide +kernel
theorem wit_FatalFault_recErr : 0 ∉ (queueAt 0 0).io.recErr ∧ 0 ∈ ({ (queueAt 0 0).io with recErr := [0] } : Io).recErr := by decide +kernel

/-- A split about to fetch on an L-core, on a D-core. -/
def aboutTo (w : Nat) (isL : Bool) : State := placeWord State.reset (tableBytes w) isL
def fetching (w : Nat) (isL : Bool) : State := ({ aboutTo w isL with agenda := [] } : State).draw.tick
def onCur (s : State) : State := { s with cur := ⟨0, 0, 0, 0, false, true, false⟩ }
def nopHere (w : Nat) (isL : Bool) : Bool :=
  let s := fetching w isL
  match fetchCode (onCur s) (s.team 0) placeLaunch (nthD Split.init (s.grp 0).splits 0) false with
  | .ok bs => decodeHere isL false (s.grp 0).allot bs == some .nop
  | _ => false
theorem wit_StepRunsDecodedWord_fetch (isL : Bool) :
    let s0 := fetching 0x70000000 isL
    let g := s0.grp 0
    let p := nthD Split.init g.splits 0
    (aboutTo 0x70000000 isL).agenda = [.issue (if isL then 0 else 1) 0] ∧ issueChoice s0 (if isL then 0 else 1) 0 = some ((0, 0), false) ∧
    (0, 0) ∈ readyOn s0 (if isL then 0 else 1) 0 ∧ 0 < g.splits.length ∧ p.hold = .none ∧ doomedLanes g p.mask = [] ∧ joins (s0.team g.team).isL g 0 = [] ∧
    p.fromA = 0 ∧ p.fromB = 0 ∧ p.queue = [] ∧ g.team = 0 ∧ teamLaunch (onCur s0) (s0.team 0) = some placeLaunch ∧ (s0.team 0).isL = isL ∧
    nopHere 0x70000000 isL = true ∧ wordHolds (inFlight p) (advance s0 0 0 isL false false) .nop = false := by
  cases isL <;> decide +kernel
theorem wit_StepRunsDecodedWord :
    (State.reset.agenda = [] ∧ autoEvent State.reset = none ∧ autoMove State.reset = none) ∧
    autoMove { aboutTo 0x70000000 true with agenda := [] } = some (.issue 0 0) ∧
    (autoEvent (home (.getS true 0) DirEnt.init)).isSome = true ∧ ({ State.reset with agenda := [.ev .nop] } : State).agenda = .ev .nop :: [] ∧
    (let s := group (fetching 0x58000000 true) fun g => { g with splits := g.splits.map fun p => { p with pc := 2 ^ 20 } }
     fetchCode (onCur s) (s.team 0) placeLaunch (nthD Split.init (s.grp 0).splits 0) false = .outside) := by decide +kernel
/-- A D-core's split with a queued V-word; where an acrd of its operand is outstanding, the word cannot issue. -/
def queuedV (ps : List Pend) : State :=
  group (fetching 0x00C13840C0002400 false) fun g => { g with pend := ps, splits := g.splits.map fun p => { p with queue := [⟨0, 0, true⟩] } }
def heldAfter (o : Out) : Option Bool := after o fun u => u.cur.held
theorem wit_StepRunsDecodedWord_queue :
    (∀ ps ∈ [[], [(⟨2, 7, true, [⟨3, 0, 0, false⟩]⟩ : Pend)]], let s := queuedV ps
      let p := nthD Split.init (s.grp 0).splits 0
      (s.team 0).isL = false ∧ p.queue ≠ [] ∧ inFlight p = false ∧ 0 < (s.grp 0).splits.length ∧ doomedLanes (s.grp 0) p.mask = [] ∧
      joins (s.team 0).isL (s.grp 0) 0 = [] ∧ teamLaunch s (s.team 0) = some placeLaunch) ∧
    heldAfter (tryAt (queuedV []) 0 0 false) = some false ∧ heldAfter (tryAt (queuedV [⟨2, 7, true, [⟨3, 0, 0, false⟩]⟩]) 0 0 false) = some true := by decide +kernel
theorem wit_DecodeInvertsEncode : (Instr.nop).wellFormed = true ∧ (Instr.nop).isEvent = false ∧ (Instr.br 0xFFFC).wellFormed = true := by decide +kernel
theorem wit_MemoryStaysCanonical : Memory.wf (State.reset.withFetchWord 32 0x70000000).mem = true ∧ goesOn (step (State.reset.withFetchWord 32 0x70000000)) = true := by decide +kernel

/-! Ill-formed terms, one or more for each check of WellFormed: refused. -/

def m0 : MemX := ⟨0, 0, 0, 0, 0, 0⟩
def ml0 : MloopF := ⟨2, 3, 0, 0, true, true, false, 3, 10, 12, none⟩
def md0 : MdrnF := ⟨0, 0, 0, 0, false, false, false, false, 0, 0, false, 0, 0⟩
theorem test_illformed_scalar :
    [Instr.sadd 128 0 0, .sclz 0 128, .saddImm 0 128 0, .sshlImm 0 0 64, .sli 128 0, .scmp 10 0 0 0, .bc 6 0 0, .bq 0 0 0, .bq 7 0 0, .bq3 0 3 0 0, .call 128 0,
     .waitc 64 0 0 0, .venq 0 0, .venq 65 0, .nbarImm 0 0, .nbarImm 64 0, .nbarReg 0 0, .nbarImm 1 16, .qbar 32, .split false 2 0 0 false, .split true 0 0 762 false,
     .take false 128, .hinge 0xFFFF, .mig 128 true, .trap 1048576, .gwait 128, .mark false 524288, .crd 0 3, .crd 0 0x102, .cwr 0 0x10, .cwr 128 0].all (fun i => !i.wellFormed) = true := by decide +kernel
theorem test_illformed_vector :
    [Instr.vadd plain .b32 0 .zero .zero, .vadd plain .x32 0 .zero .zero, .vadd plain .i32 768 .zero .zero, .vadd plain .i32 0 (.v 768) .zero, .vadd plain .i32 0 (.s 128) .zero,
     .vadd plain .i32 0 (.b 4) .zero, .vadd ⟨false, 0, 7⟩ .i32 0 .zero .zero, .vadd ⟨false, 3, 0⟩ .i32 0 .zero .zero, .vadd ⟨false, 16, 1⟩ .i32 0 .zero .zero,
     .vabs plain .n32 0 .zero, .vbfe plain .i32 0 .zero 28 5, .vbfe plain .i32 0 .zero 0 0, .vsel plain .i32 0 .zero .zero .zero 16, .vidxRead plain .i32 0 0 0,
     .vidxRead plain .b32 0 4 0, .vidxRead plain .b32 0 0 1024, .vidxWrite ⟨true, 0, 0⟩ .b32 0 0 .zero, .vcmp plain .b32 0 2 .zero .zero, .vcmp plain .i32 0 6 .zero .zero,
     .xadd plain .i32 0 .zero .zero, .xadd plain .x32 0 .lane .zero, .xadd plain .x64 1 .zero .zero, .xadd plain .x64 0 (.v 1) .zero, .xadd plain .x64 0 (.b 3) .zero,
     .xcmp plain .xb16 0 0 .zero .zero, .xdec plain 2 0, .xbis plain .x32 0 .zero true false 1, .xbis plain .xb16 0 .zero true true 0,
     .qset plain 0 3, .qfix plain 0 0 2, .qmov ⟨true, 0, 0⟩ 0 0, .vbal plain 0 0, .vbal plain 127 0, .vvote plain 3 0 0, .vshfXor plain .b32 0 .zero 32,
     .vshfIdx plain .i32 0 .zero .zero, .vbcast plain .b32 .zero .zero 0 none, .vbcast plain .b32 (.v 0) .zero 3 (some 1), .vred plain 0 .b32 (.v 0) .zero,
     .vred plain 6 .i32 (.v 0) .zero, .vred ⟨true, 0, 0⟩ 0 .i32 (.s 1) .zero, .cvt plain 4 6 0 0 .zero, .cvt plain 10 6 8 0 .zero, .cvt plain 7 6 0 1 .zero,
     .qnt plain 3 0 0 .zero, .dqnt plain 0 2 0 .zero].all (fun i => !i.wellFormed) = true := by decide +kernel
theorem test_illformed_matrix :
    [Instr.mloop { ml0 with afmt := 3 }, .mloop { ml0 with a := 0 }, .mloop { ml0 with asrc := false, a := 12 }, .mloop { ml0 with ksteps := 4096 }, .mloop { ml0 with tile := 32 },
     .mloop { ml0 with c := some 128 }, .mrdy 16, .mwait 0 1 true, .mzero 0 32, .mld 0 0 128, .mdrn { md0 with mode := 3 }, .mdrn { md0 with qtgt := 1 },
     .mdrn { md0 with row0 := 63, nrows := 1 }, .acrd plain 0 0 767 (.inl 0), .acwr plain 0 0 0 (.inl 64), .mpairOn 128, .mcfg 5 0].all (fun i => !i.wellFormed) = true := by decide +kernel
theorem test_illformed_memory :
    [Instr.ldg plain .i32 { m0 with order := 2 } 0 .zero, .ldg plain .i32 { m0 with scope := 1 } 0 .zero, .ldg plain .i32 { m0 with stream := 16 } 0 .zero,
     .ldg plain .i32 { m0 with hint := 5 } 0 .zero, .ldg plain .i32 { m0 with hint := 1, order := 1 } 0 .zero, .ldg plain .i32 { m0 with form := 1 } 0 .zero,
     .ldg plain .i32 m0 0 .lane, .stg plain .i32 { m0 with order := 1 } .zero .zero, .stg plain .i32 { m0 with hint := 1 } .zero .zero, .lds plain .i32 { m0 with order := 1, scope := 3 } 0 .zero,
     .sts plain .i32 { m0 with hint := 2 } .zero .zero, .ldfeKeep plain .i32 { m0 with order := 1 } 0 .zero, .ldfeTake plain .i32 m0 0 .zero, .stfe ⟨true, 0, 0⟩ .i32 m0 .zero .zero,
     .pst plain .i32 m0 .zero .zero 0, .pfch plain { m0 with form := 1 } .zero, .drop plain { m0 with hint := 1 } .zero, .atom plain .b32 m0 .zero .zero .zero .zero,
     .atom plain .i32 m0 .zero .zero .zero (.v 1), .atom plain .i32 { m0 with hint := 3 } .zero .zero .zero .zero, .atom plain .i32 m0 (.s 0) .zero .zero .zero,
     .atom plain .i32 m0 (.s 1) (.v 1) .zero .zero, .atom ⟨true, 0, 0⟩ .i32 m0 (.s 1) .zero .zero .zero, .fence 0 0 0, .fence 0 6 1, .fencex 0 0 0, .fencex 1 0 1,
     .cpy { copy0 with order := 1 }, .cpy { copy0 with redop := 1 }, .cpy { copy0 with stepid := 1 }, .cpy { copy0 with hint := 7 }, .cwait 16, .spawn plain 762 .zero, .spawn plain 0 .lane,
     .tbegin plain 16 0, .tcommit ⟨true, 0, 0⟩ 0, .tabort plain 256, .tstat plain 768, .crdV ⟨true, 0, 0⟩ 0, .cwrV plain (.v 768)].all (fun i => !i.wellFormed) = true := by decide +kernel

/-! Words written out from the tables of their encodings. -/

def sw (w : Nat) : Option Instr := decodeTableWord 32 w
def vw (a b c : Nat) : Option Instr := decodeTableWord 96 (a + b * 2 ^ 32 + c * 2 ^ 64)
theorem test_decode_scalar :
    sw 0x243001FC = some (.sli 6 0x1FC) ∧ sw 0x28374008 = some (.slih 6 0x74008) ∧ sw 0x4449FFF0 = some (.bc 1 9 0xFFF0) ∧ sw 0x4D604080 = some (.bq3 5 2 16 128) ∧
    sw 0x580FFFFC = some (.waitc 0 63 63 63) ∧ sw 0x6000C003 = some (.nbarReg 12 3) ∧ sw 0x6410001E = some (.qbar 30) ∧ sw 0x6891E050 = some (.split true 2 30 20 false) ∧
    sw 0x6C0000A8 = some (.take true 40) ∧ sw 0x74000011 = some (.hinge 17) ∧ sw 0x78380001 = some (.mig 7 true) ∧ sw 0x7C000005 = some (.trap 5) ∧
    sw 0x80280001 = some (.gwait 5) ∧ sw 0x800060E2 = some (.gdefer 6 7) ∧ sw 0x84280000 = some (.clock 5) ∧ sw 0x34484018 = some (.sld 9 4 0x18) := by decide +kernel
theorem test_decode_vector :
    vw 0xC0002400 0x00C13840 0 = some (.vadd plain .i32 9 (.v 0) (.s 4)) ∧ vw 0xC10E1000 0x0AC2784D 0x24 = some (.vcmp plain .i32 4 2 (.v 10) (.s 9)) ∧
    vw 0xC66E1000 0x14E13847 3 = some (.xcmp plain .x32 3 0 (.v 20) .zero) ∧ vw 0xC4602000 0x00E13846 0 = some (.xsqr plain .x32 8 (.v 0)) ∧
    vw 0xFE40506F 0x84E13840 0 = some (.crdV ⟨false, 3, 3⟩ 20) ∧ vw 0xCA503000 0x04E13840 0x0003060A = some (.cvt plain 10 6 3 12 (.v 4)) ∧
    vw 0xC94C7803 0x84E13840 0x10 = some (.vbal plain 30 1) ∧ vw 0xC95C6800 0x0DE13847 4 = some (.vred plain 4 .b64 (.s 26) (.v 13)) := by decide +kernel
theorem test_decode_engines_and_memory :
    vw 0xD06E1003 0x0AC33840 0x21818003 = some (.mloop ml0) ∧ vw 0xD8605000 0x0AE13840 0x18400010 = some (.ldg plain .x32 ⟨1, 4, 1, 0, 0, 16⟩ 20 (.v 10)) ∧
    vw 0xD8603067 0x29E13844 0 = some (.ldfeKeep ⟨false, 3, 1⟩ .x32 m0 12 (.s 41)) ∧ vw 0xE0402003 0x84E13840 0x20000000 = some (.tbegin plain 2 8) ∧
    vw 0xD85C1803 0x15C17099 0x08C70000 = some (.atom plain .b64 ⟨0, 4, 3, 0, 7, 0⟩ (.s 6) (.s 21) (.s 5) (.s 9)) ∧
    vw 0xD85E1027 0x18C671F6 0x08A80000 = some (.pst ⟨false, 1, 1⟩ .b64 ⟨0, 4, 2, 5, 0, 0⟩ (.s 24) (.s 25) 31) ∧
    vw 0xDC5E1000 0x0A047840 0 = some (.spawn plain 10 (.v 17)) ∧ vw 0xD85E1003 0x14E13848 0 = some (.drop plain m0 (.s 20)) := by decide +kernel
theorem test_decode_refuses : sw 0 = none ∧ sw 0x7400FFFF = none ∧ sw 0xFFFFFFFF = none ∧ vw 0xC0502400 0x00C13840 0 = none := by decide +kernel

/-! One step, or one meaning, on the examples that the spec works out. -/

/-- R169's table: 0x7F3A00401000 is built by sli and two slih. -/
theorem test_sli_slih :
    after (exec (.sli 6 0x1FC) handL) (fun t => t.cg.sreg 6) = some 0x1FC ∧
    after (exec (.slih 6 0x74008) (group handL fun g => { g with s := [(6, 0x1FC)] })) (fun t => t.cg.sreg 6) = some 0xFE74008 ∧
    after (exec (.slih 6 0x1000) (group handL fun g => { g with s := [(6, 0xFE74008)] })) (fun t => t.cg.sreg 6) = some 0x7F3A00401000 := by decide +kernel
/-- R175's example. -/
theorem test_vbfe : after (exec (.vbfe plain .i32 7 (.v 3) 8 5) (group handL fun g => { g with v := [(96, 0x1F00)] })) (fun t => t.cg.velem 7 0) = some 0xFFFFFFFF := by decide +kernel
def divided : State :=
  group handL fun g => { g with v := [(320, 7), (321, 0xFFFFFFF9), (322, 5), (323, 0x80000000), (352, 0xFFFFFFFE), (353, 2), (355, 0xFFFFFFFF)] }
/-- R173's example: quotients and remainders. -/
theorem test_vdiv :
    after (exec (.vdiv plain .i32 20 (.v 10) (.v 11)) divided) (fun t => [t.cg.velem 20 0, t.cg.velem 20 1, t.cg.velem 20 2, t.cg.velem 20 3]) =
      some [0xFFFFFFFD, 0xFFFFFFFD, 0xFFFFFFFF, 0x80000000] := by decide +kernel
theorem test_vrem :
    after (exec (.vrem plain .i32 20 (.v 10) (.v 11)) divided) (fun t => [t.cg.velem 20 0, t.cg.velem 20 1, t.cg.velem 20 2, t.cg.velem 20 3]) =
      some [1, 0xFFFFFFFF, 5, 0] := by decide +kernel
/-- The sum of the enclosures of 0.1 and 0.2. -/
theorem test_xadd :
    after (exec (.xadd plain .x32 7 (.v 3) (.v 4)) (group handL fun g => { g with v := [(96, 0x3DCCCCCD3DCCCCCC), (128, 0x3E4CCCCD3E4CCCCC)] }))
      (fun t => t.cg.velem 7 0) = some 0x3E99999A3E999999 := by decide +kernel
/-- R183's example of a class word. -/
theorem test_xcls : after (exec (.xcls plain .x32 7 (.v 3)) (group handL fun g => { g with v := [(96, 0x3F80000080000000)] })) (fun t => t.cg.velem 7 0) = some 0x830 := by
  decide +kernel
/-- R140's example: 0.3 is 0x27, −0.3 is 0xA7, and 12 saturates to 0x7F. -/
theorem test_mk8 : mk8Of (.fin false 0) ⟨3, 10⟩ = (0x27, false) ∧ mk8Of (.fin true 0) ⟨-3, 10⟩ = (0xA7, false) ∧ mk8Of (.fin false 0) ⟨12, 1⟩ = (0x7F, true) := by decide +kernel
/-- R400's example: the lane keeps [1, 1.5] and its item carries [1.5, 2]. -/
theorem test_split_lower :
    after (exec (.split true 2 30 20 false) (launch (onCore (group handL fun g => { g with splits := [{ placeSplit with mask := 1 }], v := [(640, 0x400000003F800000)] }) id) id))
      (fun t => t.cg.velem 20 0) = some 0x3FC000003F800000 := by decide +kernel
/-- R73: core 0x2A3 is on die 5, in quire 4, at position 3, a D-core, and its matrix engine is that of position 4. -/
theorem test_core_id : dieOf 0x2A3 = 5 ∧ 0x2A3 / 8 % 16 = 4 ∧ posOf 0x2A3 = 3 ∧ coreIsL 0x2A3 = false := by decide
/-- R497: a device offset's physical address. -/
theorem test_peer_address : peerPa (peerLoc 0x2A5 0x1234567880) = 0xC2A51234567880 := by decide +kernel
end Sys2Proof.Tests
end

section
/-! The division of a split among targets (R37, R38, R387 to R389). -/
namespace Sys2Proof.Machine

/-! The lane sets of a division. -/

theorem inMask_or (m n : Word32) (l : Nat) : inMask (m ||| n) l = (inMask m l || inMask n l) := by simp [inMask]

theorem inMask_bit {k : Nat} (hk : k < 32) (l : Nat) : inMask (1#32 <<< k) l = decide (l = k) := by
  rw [inMask, ← BitVec.twoPow_eq, BitVec.getLsbD_twoPow]
  simp [hk, eq_comm]

/-- The set of a target holds its lanes afterwards. -/
theorem exists_mem_insertSet_self (x : Nat × Word32) : ∀ ss, ∃ y ∈ insertSet x ss, y.1 = x.1 ∧ ∀ l, inMask x.2 l = true → inMask y.2 l = true
  | [] => ⟨x, by simp [insertSet]⟩
  | z :: ss => by
    obtain ⟨y, hy, he, hm⟩ := exists_mem_insertSet_self x ss
    by_cases h1 : x.1 = z.1
    · exact ⟨(z.1, z.2 ||| x.2), by simp [insertSet, h1], h1.symm, fun l hl => by simp [inMask_or, hl]⟩
    · by_cases h2 : x.1 < z.1
      · exact ⟨x, by simp [insertSet, h1, h2], rfl, fun _ => id⟩
      · exact ⟨y, by simp [insertSet, h1, h2, hy], he, hm⟩

/-- No set loses a lane. -/
theorem exists_mem_insertSet_of_mem (x : Nat × Word32) {z : Nat × Word32} :
    ∀ ss, z ∈ ss → ∃ y ∈ insertSet x ss, y.1 = z.1 ∧ ∀ l, inMask z.2 l = true → inMask y.2 l = true
  | [], h => by simp at h
  | w :: ss, h => by
    by_cases h1 : x.1 = w.1
    · rcases List.mem_cons.1 h with rfl | h
      · exact ⟨(z.1, z.2 ||| x.2), by simp [insertSet, h1], rfl, fun l hl => by simp [inMask_or, hl]⟩
      · exact ⟨z, by simp [insertSet, h1, h], rfl, fun _ => id⟩
    · by_cases h2 : x.1 < w.1
      · exact ⟨z, by simpa [insertSet, h1, h2] using Or.inr (List.mem_cons.1 h), rfl, fun _ => id⟩
      · rcases List.mem_cons.1 h with rfl | h
        · exact ⟨z, by simp [insertSet, h1, h2], rfl, fun _ => id⟩
        · obtain ⟨y, hy, he, hm⟩ := exists_mem_insertSet_of_mem x ss h
          exact ⟨y, by simp [insertSet, h1, h2, hy], he, hm⟩

/-- A division makes no target up. -/
theorem key_of_mem_insertSet (x : Nat × Word32) {y : Nat × Word32} : ∀ ss, y ∈ insertSet x ss → y.1 = x.1 ∨ ∃ z ∈ ss, z.1 = y.1
  | [], h => by simp [insertSet] at h; simp [h]
  | w :: ss, h => by
    have ih := key_of_mem_insertSet x (y := y) ss
    by_cases h1 : x.1 = w.1 <;> by_cases h2 : x.1 < w.1 <;> simp only [insertSet, h1, h2, if_true, if_false, List.mem_cons] at h
    all_goals grind

/-- The sets stand in rising order of target, each target once. -/
theorem insertSet_sorted (x : Nat × Word32) : ∀ ss : List (Nat × Word32), ss.Pairwise (fun a b => a.1 < b.1) → (insertSet x ss).Pairwise (fun a b => a.1 < b.1)
  | [], _ => by simp [insertSet]
  | w :: ss, h => by
    obtain ⟨hw, hs⟩ := List.pairwise_cons.1 h
    by_cases h1 : x.1 = w.1
    · simp only [insertSet, h1, if_true, List.pairwise_cons]; exact ⟨hw, hs⟩
    · by_cases h2 : x.1 < w.1
      · simp only [insertSet, h1, h2, if_true, if_false, List.pairwise_cons, List.mem_cons]
        exact ⟨fun y hy => hy.elim (· ▸ h2) fun hy => h2.trans (hw y hy), hw, hs⟩
      · simp only [insertSet, h1, h2, if_false, List.pairwise_cons]
        refine ⟨fun y hy => ?_, insertSet_sorted x ss hs⟩
        rcases key_of_mem_insertSet x ss hy with he | ⟨z, hz, he⟩
        · omega
        · exact he ▸ hw z hz

/-- What the sets of a list of lanes are: in order, of targets of the lanes, each lane in the set of its target. -/
def SetsFor (ls : List Nat) (target : Nat → Nat) (ss : List (Nat × Word32)) : Prop :=
  ss.Pairwise (fun a b => a.1 < b.1) ∧ (∀ y ∈ ss, ∃ k ∈ ls, target k = y.1) ∧ ∀ k ∈ ls, ∃ y ∈ ss, y.1 = target k ∧ inMask y.2 k = true

theorem setsFor_foldl (target : Nat → Nat) : ∀ (ls : List Nat) (done : List Nat) (ss : List (Nat × Word32)), (∀ k ∈ ls, k < 32) → SetsFor done target ss →
    SetsFor (done ++ ls) target (ls.foldl (fun l k => insertSet (target k, 1#32 <<< k) l) ss)
  | [], done, ss, _, h => by simpa using h
  | k :: ls, done, ss, hl, ⟨hs, hk, hc⟩ => by
    have hk32 : k < 32 := hl k (by simp)
    have hstep : SetsFor (done ++ [k]) target (insertSet (target k, 1#32 <<< k) ss) := by
      refine ⟨insertSet_sorted _ ss hs, fun y hy => ?_, fun j hj => ?_⟩
      · rcases key_of_mem_insertSet _ ss hy with he | ⟨z, hz, he⟩
        · exact ⟨k, by simp, he.symm⟩
        · obtain ⟨j, hj, ht⟩ := hk z hz
          exact ⟨j, by simp [hj], ht.trans he⟩
      · rcases List.mem_append.1 hj with hj | hj
        · obtain ⟨z, hz, he, hm⟩ := hc j hj
          obtain ⟨y, hy, hye, hym⟩ := exists_mem_insertSet_of_mem (target k, 1#32 <<< k) ss hz
          exact ⟨y, hy, hye.trans he, hym j hm⟩
        · obtain rfl : j = k := by simpa using hj
          obtain ⟨y, hy, hye, hym⟩ := exists_mem_insertSet_self (target j, 1#32 <<< j) ss
          exact ⟨y, hy, hye, hym j (by simp [inMask_bit hk32])⟩
    simpa using setsFor_foldl target ls (done ++ [k]) _ (fun j hj => hl j (by simp [hj])) hstep

theorem setsFor_laneSets (m : Word32) (target : Nat → Nat) : SetsFor (lanesOf m) target (laneSets m target) := by
  simpa only [laneSets, List.nil_append] using
    setsFor_foldl target (lanesOf m) [] [] (fun k hk => (mem_lanesOf.1 hk).1) ⟨List.Pairwise.nil, by simp, by simp⟩

/-- A division has no more sets than it has targets. -/
theorem laneSets_length_le (m : Word32) (target : Nat → Nat) (ts : List Nat) (h : ∀ k, target k ∈ ts) : (laneSets m target).length ≤ ts.length := by
  obtain ⟨hs, hk, -⟩ := setsFor_laneSets m target
  have hn : ((laneSets m target).map Prod.fst).Nodup := List.pairwise_map.2 (hs.imp fun h => Nat.ne_of_lt h)
  have hsub : (laneSets m target).map Prod.fst ⊆ ts := by
    intro x hx
    obtain ⟨y, hy, rfl⟩ := List.mem_map.1 hx
    obtain ⟨k, -, hk⟩ := hk y hy
    exact hk ▸ h k
  simpa using (hn.subperm hsub).length_le

/-! Parking, and the division itself. -/

/-- The deferred entry of a set that a branch parks (R38, R75). -/
def parkedEntry (s : State) (p : Split) (lpc : Nat × Word32 → Nat) (x : Nat × Word32) : Defer :=
  ⟨x.2, x.1, lpc x, p.hinge, p.twinA, p.twinB, s.cur.pcA, s.cur.pcB⟩

/-- Sets for which the deferred stack has room are parked on it, and nothing else happens. -/
theorem parkSets_room (p : Split) (lpc : Nat × Word32 → Nat) : ∀ (xs : List (Nat × Word32)) (s : State), s.cg.defer.length + xs.length ≤ 8 →
    ∃ t, parkSets s.cur.gh p lpc xs s = .ok t ∧ OnlyGroup s t ∧ t.cg = { s.cg with defer := (xs.map (parkedEntry s p lpc)).reverse ++ s.cg.defer }
  | [], s, _ => ⟨s, rfl, OnlyGroup.refl s, by simp⟩
  | x :: xs, s, h => by
    let s1 := s.setCg { s.cg with defer := parkedEntry s p lpc x :: s.cg.defer }
    have hpush : pushDefer s s.cur.gh (parkedEntry s p lpc x) = .ok s1 := by
      have hlt : (s.grp s.cur.gh).defer.length < 8 := by simp only [State.cg, List.length_cons] at h; omega
      simp only [pushDefer, hlt, if_true]; rfl
    have h1 : s1.cg = { s.cg with defer := parkedEntry s p lpc x :: s.cg.defer } := State.cg_setCg _ _
    obtain ⟨t, ht, hot, hcg⟩ := parkSets_room p lpc xs s1 (by simp only [h1, List.length_cons] at h ⊢; omega)
    refine ⟨t, ?_, (OnlyGroup.setCg _ _).trans hot, ?_⟩
    · calc parkSets s.cur.gh p lpc (x :: xs) s = (pushDefer s s.cur.gh (parkedEntry s p lpc x)).bind fun s1 => parkSets s.cur.gh p lpc xs s1 := rfl
        _ = parkSets s1.cur.gh p lpc xs s1 := by rw [hpush]; rfl
        _ = .ok t := ht
    · have he : parkedEntry s1 p lpc = parkedEntry s p lpc := rfl
      simp [hcg, h1, he]

theorem nthD_append_left {α : Type} (d : α) : ∀ (l r : List α) (i : Nat), i < l.length → nthD d (l ++ r) i = nthD d l i
  | [], _, _, h => by simp at h
  | _ :: _, _, 0, _ => rfl
  | _ :: l, r, i + 1, h => by simpa [nthD] using nthD_append_left d l r i (by simpa using h)

theorem mem_setAt {α : Type} (x : α) : ∀ (l : List α) (i : Nat), i < l.length → x ∈ setAt l i x
  | [], _, h => by simp at h
  | _ :: _, 0, _ => by simp [setAt]
  | _ :: l, i + 1, h => by simpa [setAt] using Or.inr (mem_setAt x l i (by simpa using h))

/-- Only the split in hand has changed among those that the group had, and no deferred entry has gone. -/
def KeepsOthers (s t : State) : Prop :=
  (∀ k, k < s.cg.splits.length → k ≠ s.cur.sp → nthD Split.init t.cg.splits k = nthD Split.init s.cg.splits k) ∧
  (∀ e ∈ s.cg.defer, e ∈ t.cg.defer) ∧ OnlyGroup s t ∧ t.cg = { s.cg with splits := t.cg.splits, defer := t.cg.defer }

theorem KeepsOthers.refl (s : State) : KeepsOthers s s := ⟨fun _ _ _ => rfl, fun _ => id, OnlyGroup.refl s, rfl⟩

/-- The executing split goes to one target. -/
theorem KeepsOthers.setSp (s : State) (p : Split) : KeepsOthers s (s.setSp p) := by
  refine ⟨fun k _ hne => ?_, fun e he => ?_, OnlyGroup.setCg _ _, ?_⟩
  · simp [nthD_setAt_ne _ _ _ _ _ (Ne.symm hne)]
  · simpa using he
  · simp

/-- A division for which there is room puts each lane of the split at the target of its set. -/
theorem divide_room (s : State) (sets : List (Nat × Word32)) (hh : SplitHere s) (hr : s.cg.defer.length + sets.length ≤ 9) :
    ∃ t, divide s sets = .ok t ∧ KeepsOthers s t ∧ ∀ y ∈ sets, ∀ l, inMask s.sp.mask l = true → inMask y.2 l = true → laneAt t.cg l y.1 := by
  match sets, hr with
  | [], _ => exact ⟨s, rfl, KeepsOthers.refl s, by simp⟩
  | [x], _ =>
    refine ⟨_, rfl, KeepsOthers.setSp _ _, ?_⟩
    rintro y hy l hl -
    obtain rfl : y = x := by simpa using hy
    refine .inl ⟨{ s.sp with pc := y.1 }, ?_, hl, rfl⟩
    rw [State.cg_setSp]
    exact mem_setAt _ _ _ hh
  | x :: x' :: xs, hr =>
    let p := s.sp
    let room := 4 - (s.cg.splits.length - 1)
    let mk (y : Nat × Word32) : Split := { p with pc := y.1, mask := y.2, pmask := p.pmask &&& y.2, age := 0 }
    let rest := x' :: xs
    let s1 := s.setCg { s.cg with splits := setAt s.cg.splits s.cur.sp (mk x) ++ (rest.take (room - 1)).map mk }
    let park := (rest.drop (room - 1)).reverse
    have h1 : s1.cg = { s.cg with splits := setAt s.cg.splits s.cur.sp (mk x) ++ (rest.take (room - 1)).map mk } := State.cg_setCg _ _
    have hfit : s1.cg.defer.length + park.length ≤ 8 := by
      simp only [h1, park, List.length_reverse, List.length_drop, List.length_cons, rest] at hr ⊢; omega
    obtain ⟨t, ht, hot, hcg⟩ := parkSets_room p (fun _ => p.lpc) park s1 hfit
    refine ⟨t, ht, ⟨fun k hk hne => ?_, fun e he => ?_, (OnlyGroup.setCg _ _).trans hot, ?_⟩, fun y hy l _ hl => ?_⟩
    · rw [hcg, h1, nthD_append_left _ _ _ _ (by simpa using hk), nthD_setAt_ne _ _ _ _ _ (Ne.symm hne)]
    · rw [hcg, h1]; exact List.mem_append_right _ he
    · rw [hcg, h1]
    · have hcases : y = x ∨ y ∈ rest.take (room - 1) ∨ y ∈ rest.drop (room - 1) := by
        rw [← List.mem_append, List.take_append_drop]; exact List.mem_cons.1 hy
      rcases hcases with rfl | hy | hy
      · refine .inl ⟨mk y, ?_, hl, rfl⟩
        rw [hcg, h1]; exact List.mem_append_left _ (mem_setAt _ _ _ hh)
      · refine .inl ⟨mk y, ?_, hl, rfl⟩
        rw [hcg, h1]; exact List.mem_append_right _ (List.mem_map_of_mem hy)
      · refine .inr ⟨parkedEntry s1 p (fun _ => p.lpc) y, ?_, hl, rfl⟩
        rw [hcg]; exact List.mem_append_left _ (List.mem_reverse.2 (List.mem_map_of_mem (List.mem_reverse.2 hy)))

/-- A branch to at most three targets, with room for its sets, puts each lane at its own. -/
theorem divide_laneSets (s : State) (target : Nat → Nat) (ts : List Nat) (hq : queueEmpty s = true) (hh : SplitHere s) (hd : s.cg.defer.length ≤ 5)
    (ht : ∀ k, target k ∈ ts) (h3 : ts.length ≤ 3) :
    ∃ t, Res.out (emptyQ s (divide s (laneSets s.sp.mask target))) = .next t ∧ KeepsOthers s t ∧
      ∀ l, l < 32 → inMask s.sp.mask l = true → laneAt t.cg l (target l) := by
  have hlen := laneSets_length_le s.sp.mask target ts ht
  obtain ⟨t, hgo, hkeep, hat⟩ := divide_room s (laneSets s.sp.mask target) hh (by omega)
  refine ⟨t, by simp [emptyQ, hq, hgo, Res.out], hkeep, fun l hl hm => ?_⟩
  obtain ⟨y, hy, hye, hym⟩ := (setsFor_laneSets s.sp.mask target).2.2 l (mem_lanesOf.2 ⟨hl, hm⟩)
  exact hye ▸ hat y hy l hm hym

/-- The targets of bq3 are three: the next word and those of its two offsets. -/
theorem bq3Target_mem (s : State) (f : Nat) (oa ob : BitVec 10) (o : Tri) : bq3Target s f oa ob o ∈ [nextPc s, relPc s oa.toInt, relPc s ob.toInt] := by
  unfold bq3Target
  simp only
  split_ifs <;> simp

end Sys2Proof.Machine

open Sys2Proof Sys2Proof.Machine

/-- Settles O6: the sets of a branch are at most as many as its targets, so the free splits and the deferred stack hold them all. -/
theorem branchesDivideLanes : Obligations.BranchesDivideLanes := by
  unfold Obligations.BranchesDivideLanes
  intro s p f sense o oa ob hq hh _ hd hf
  dsimp only
  constructor
  · refine divide_laneSets s (fun l => if guardOk sense (s.cg.rQ s.free p l) then relPc s o.toInt else nextPc s) [relPc s o.toInt, nextPc s] hq hh hd
      (fun k => ?_) (by simp)
    split <;> simp
  · obtain ⟨t, hgo, hkeep, hat⟩ := divide_laneSets s (fun l => bq3Target s f oa ob (s.cg.rQ s.free p l)) [nextPc s, relPc s oa.toInt, relPc s ob.toInt] hq hh hd
      (fun k => bq3Target_mem s f oa ob _) (by simp)
    refine ⟨t, hgo, hkeep, fun l hl hm => ?_⟩
    have h := hat l hl hm
    generalize s.cg.rQ s.free p l = x at h ⊢
    obtain rfl | rfl | rfl : f = 0 ∨ f = 1 ∨ f = 2 := by omega
    all_goals rcases x with _ | _ | x <;> exact h
end

section
/-! Pool items in bins: what a write of one bank, a pop, a landing and a fill leave, as multisets of items (R368 to R370, R375). -/
namespace Sys2Proof.Machine

/-! Lists and maps as multisets. -/

theorem nthD_cons_dropAt_perm {α : Type} (d : α) : ∀ (l : List α) (j : Nat), j < l.length → (nthD d l j :: dropAt l j).Perm l
  | [], _, h => by simp at h
  | x :: l, 0, _ => by simp [nthD, dropAt]
  | x :: l, j + 1, h => by
    have ih := nthD_cons_dropAt_perm d l j (by simpa using h)
    exact (List.Perm.swap x (nthD d l j) (dropAt l j)).trans (ih.cons x)

theorem minsert_perm {α : Type} (i : Nat) (x : α) : ∀ m : AMap α, (minsert m i x).Perm ((i, x) :: m)
  | [] => by simp [minsert]
  | (k, y) :: m => by
    by_cases h : i < k
    · simp [minsert, h]
    · simpa [minsert, h] using ((minsert_perm i x m).cons (k, y)).trans (List.Perm.swap (i, x) (k, y) m)

theorem merase_of_lt {α : Type} [DecidableEq α] (d : α) (i : Nat) : ∀ (m : AMap α) (lo : Nat), i < lo → mwfFrom d lo m = true → merase m i = m
  | [], _, _, _ => rfl
  | (k, x) :: m, lo, hlo, h => by
    simp only [mwfFrom, Bool.and_eq_true, decide_eq_true_eq] at h
    have hk : k ≠ i := by omega
    simp [merase, hk, merase_of_lt d i m (k + 1) (by omega) h.2]

/-- In a canonical map each key stands once: the entries are those of the other keys and its own. -/
theorem flatMap_merase_perm {α β : Type} [DecidableEq α] (d : α) (F : α → List β) (hF : F d = []) (i : Nat) :
    ∀ (m : AMap α) (lo : Nat), mwfFrom d lo m = true → (F (mget d m i) ++ (merase m i).flatMap fun e => F e.2).Perm (m.flatMap fun e => F e.2)
  | [], _, _ => by simp [merase, hF]
  | (k, x) :: m, lo, h => by
    simp only [mwfFrom, Bool.and_eq_true, decide_eq_true_eq] at h
    by_cases hk : k = i
    · subst hk
      simp [merase, mget, merase_of_lt d k m (k + 1) (by omega) h.2]
    · have ih := flatMap_merase_perm d F hF i m (k + 1) h.2
      simp only [merase, mget, hk, if_false, List.flatMap_cons]
      calc (F (mget d m i) ++ (F x ++ (merase m i).flatMap fun e => F e.2)).Perm (F x ++ (F (mget d m i) ++ (merase m i).flatMap fun e => F e.2)) := by
            simpa only [List.append_assoc] using (List.perm_append_comm (l₁ := F (mget d m i)) (l₂ := F x)).append_right _
        _ |>.Perm (F x ++ m.flatMap fun e => F e.2) := ih.append_left _

/-- A write of one key exchanges what stood there for what is written. -/
theorem flatMap_mset_perm {α β : Type} [DecidableEq α] (d : α) (F : α → List β) (hF : F d = []) (m : AMap α) (i : Nat) (x : α) (h : mwf d m = true) :
    (F (mget d m i) ++ (mset d m i x).flatMap fun e => F e.2).Perm (F x ++ m.flatMap fun e => F e.2) := by
  have hset : ((mset d m i x).flatMap fun e => F e.2).Perm (F x ++ (merase m i).flatMap fun e => F e.2) := by
    by_cases hx : x = d
    · simp [mset, hx, hF]
    · simpa [mset, hx] using (minsert_perm i x (merase m i)).flatMap_right fun e => F e.2
  have herase := flatMap_merase_perm d F hF i m 0 h
  calc (F (mget d m i) ++ (mset d m i x).flatMap fun e => F e.2).Perm (F (mget d m i) ++ (F x ++ (merase m i).flatMap fun e => F e.2)) := hset.append_left _
    _ |>.Perm (F x ++ (F (mget d m i) ++ (merase m i).flatMap fun e => F e.2)) := by
      simpa only [List.append_assoc] using (List.perm_append_comm (l₁ := F (mget d m i)) (l₂ := F x)).append_right _
    _ |>.Perm (F x ++ m.flatMap fun e => F e.2) := herase.append_left _

theorem mem_of_mem_merase {α : Type} {e : Nat × α} (i : Nat) : ∀ m : AMap α, e ∈ merase m i → e ∈ m
  | [], h => h
  | (k, x) :: m, h => by
    by_cases hk : k = i
    · exact List.mem_cons_of_mem _ (mem_of_mem_merase i m (by simpa [merase, hk] using h))
    · rcases List.mem_cons.1 (by simpa only [merase, hk, if_false] using h) with rfl | h
      · simp
      · exact List.mem_cons_of_mem _ (mem_of_mem_merase i m h)

theorem mem_of_mem_mset {α : Type} [DecidableEq α] {d x : α} {e : Nat × α} {i : Nat} {m : AMap α} (h : e ∈ mset d m i x) : e = (i, x) ∨ e ∈ m := by
  by_cases hx : x = d
  · exact .inr (mem_of_mem_merase i m (by simpa [mset, hx] using h))
  · rw [mset, if_neg hx] at h
    exact (List.mem_cons.1 ((minsert_perm i x _).mem_iff.1 h)).imp_right (mem_of_mem_merase i m)

/-- A listed key's entry stands in the map. -/
theorem mem_of_mget_ne {α : Type} {d : α} {i : Nat} : ∀ {m : AMap α}, mget d m i ≠ d → (i, mget d m i) ∈ m
  | [], h => absurd rfl h
  | (k, x) :: m, h => by
    by_cases hk : k = i
    · simp [mget, hk]
    · simp only [mget, hk, if_false] at h ⊢
      exact List.mem_cons_of_mem _ (mem_of_mget_ne h)

/-- An entry of a canonical map is what its key reads. -/
theorem mget_of_mem {α : Type} [DecidableEq α] {d : α} {e : Nat × α} : ∀ {m : AMap α} {lo : Nat}, mwfFrom d lo m = true → e ∈ m → mget d m e.1 = e.2 ∧ lo ≤ e.1
  | [], _, _, h => by simp at h
  | (k, x) :: m, lo, hw, h => by
    simp only [mwfFrom, Bool.and_eq_true, decide_eq_true_eq] at hw
    rcases List.mem_cons.1 h with rfl | h
    · exact ⟨by simp [mget], hw.1.1⟩
    · obtain ⟨hv, hlo⟩ := mget_of_mem hw.2 h
      have hk : k ≠ e.1 := by omega
      exact ⟨by simpa [mget, hk] using hv, by omega⟩

/-! A bin's items. -/

theorem binCount_eq_length (b : Bin) : binCount b = b.items.length := by
  have h : ∀ (m : AMap (List PoolItem)) (n : Nat), m.foldl (fun n e => n + e.2.length) n = n + (m.flatMap fun e => e.2.map (·.item)).length := by
    intro m
    induction m with
    | nil => simp
    | cons e m ih => intro n; simp only [List.foldl_cons, ih, List.flatMap_cons, List.length_append, List.length_map]; omega
  simpa [binCount, Bin.items] using h b.banks 0

theorem items_congr {b b' : Bin} (h : b'.banks = b.banks) : b'.items = b.items := by simp [Bin.items, h]
theorem Bin.wf_congr {b b' : Bin} (h : b'.banks = b.banks) (hw : b.wf) : b'.wf := by simpa only [Bin.wf, h] using hw

theorem setBank_wf {b : Bin} {k : Nat} (l : List PoolItem) (hw : b.wf) (hk : k < 8) : (setBank b k l).wf := by
  refine ⟨mwf_mset _ _ _ _ hw.1, fun x hx => ?_⟩
  rcases mem_of_mem_mset hx with rfl | hx
  · exact hk
  · exact hw.2 x hx

/-- A bank written exchanges its items. -/
theorem setBank_items_perm {b : Bin} (k : Nat) (l : List PoolItem) (hw : b.wf) :
    ((bankOf b k).map (·.item) ++ (setBank b k l).items).Perm (l.map (·.item) ++ b.items) :=
  flatMap_mset_perm [] (fun l => l.map (·.item)) rfl b.banks k l hw.1

theorem binCount_ne_zero_of_bank {b : Bin} {k : Nat} (h : bankOf b k ≠ []) : binCount b ≠ 0 := by
  rw [binCount_eq_length, Bin.items, Ne, List.length_eq_zero_iff, List.flatMap_eq_nil_iff]
  exact fun hall => h (List.map_eq_nil_iff.1 (hall _ (mem_of_mget_ne h)))

theorem exists_bank_of_binCount {b : Bin} (hw : b.wf) (h : binCount b ≠ 0) : ∃ k, k < 8 ∧ bankOf b k ≠ [] := by
  rw [binCount_eq_length, Bin.items, Ne, List.length_eq_zero_iff, List.flatMap_eq_nil_iff] at h
  push Not at h
  obtain ⟨e, he, hne⟩ := h
  refine ⟨e.1, hw.2 e he, fun h0 => hne ?_⟩
  have hv : mget [] b.banks e.1 = e.2 := (mget_of_mem hw.1 he).1
  rw [← hv]
  simpa [bankOf] using h0

theorem bankInsert_perm (i : PoolItem) : ∀ l, (bankInsert i l).Perm (i :: l)
  | [] => by simp [bankInsert]
  | x :: l => by
    by_cases h : itemKey i.item < itemKey x.item
    · simp [bankInsert, h]
    · simpa [bankInsert, h] using ((bankInsert_perm i l).cons x).trans (List.Perm.swap i x l)

/-! Where a pop takes its item. -/

/-- A place that holds an item: a bank, and a position in it. -/
def IsPlace (b : Bin) (x : Nat × Nat) : Prop := x.1 < 8 ∧ x.2 < (bankOf b x.1).length

theorem agedItem_isPlace {b : Bin} {x : Nat × Nat} (h : agedItem b = some x) : IsPlace b x := by
  let P (best : Option (Nat × Nat × Nat)) : Prop := ∀ y, best = some y → IsPlace b (y.1, y.2.1)
  have hall : P ((List.range 8).foldl (fun (best : Option (Nat × Nat × Nat)) k =>
    ((List.range (bankOf b k).length).foldl (fun (best : Option (Nat × Nat × Nat)) j =>
      let w := waitedPops b (nthD ⟨0, 0, 0, none⟩ (bankOf b k) j)
      if w < 2 ^ 16 then best
      else match best with
        | none => some (k, j, w)
        | some x => if x.2.2 < w then some (k, j, w) else best) best)) none) := by
    refine List.foldlRecOn _ _ (fun y hy => by simp at hy) fun best hbest k hk => List.foldlRecOn _ _ hbest fun best hbest j hj => ?_
    have hkj : IsPlace b (k, j) := ⟨List.mem_range.1 hk, List.mem_range.1 hj⟩
    dsimp only
    split
    · exact hbest
    · split
      · rintro y ⟨⟩; exact hkj
      · split
        · rintro y ⟨⟩; exact hkj
        · exact hbest
  obtain ⟨y, hy, rfl⟩ := Option.map_eq_some_iff.1 h
  exact hall y hy

theorem head_pos {l : List PoolItem} {i : PoolItem} (h : l.head? = some i) : 0 < l.length := by
  cases l with
  | nil => simp at h
  | cons _ _ => simp

theorem betterBank_isPlace {b : Bin} {x y k : Nat} (hx : x < 8) (hy : y < 8) (h : betterBank b x y = some k) : IsPlace b (k, 0) := by
  have hmin : min x y < 8 := by omega
  have hmax : max x y < 8 := by omega
  unfold betterBank at h
  split at h
  · cases h
  case h_2 _ hi _ => cases h; exact ⟨hmin, head_pos hi⟩
  case h_3 _ _ hj => cases h; exact ⟨hmax, head_pos hj⟩
  case h_4 _ _ hi hj =>
    split at h <;> cases h
    · exact ⟨hmax, head_pos hj⟩
    · exact ⟨hmin, head_pos hi⟩

theorem twoBanks_lt (n : Nat) : (twoBanks n).1 < 8 ∧ (twoBanks n).2 < 8 := by simp only [twoBanks]; omega

/-- A pop takes an item that is there. -/
theorem popPlace_isPlace {b : Bin} {n : Nat} {x : Nat × Nat} (h : popPlace b n = some x) : IsPlace b x := by
  unfold popPlace at h
  split at h
  case h_1 y hy => cases h; exact agedItem_isPlace hy
  case h_2 =>
    split at h
    case h_1 k hk => cases h; exact betterBank_isPlace (twoBanks_lt n).1 (twoBanks_lt n).2 hk
    case h_2 =>
      obtain ⟨k, hk, rfl⟩ := Option.map_eq_some_iff.1 h
      have hne := List.find?_some hk
      have hmem := List.mem_of_find?_eq_some hk
      exact ⟨List.mem_range.1 hmem, List.length_pos_iff.2 (by simpa using hne)⟩

/-- A pop that finds no item finds every bank empty. -/
theorem bankOf_of_popPlace_none {b : Bin} {n k : Nat} (h : popPlace b n = none) (hk : k < 8) : bankOf b k = [] := by
  unfold popPlace at h
  split at h
  · cases h
  · split at h
    · cases h
    · have := List.find?_eq_none.1 (Option.map_eq_none_iff.1 h) k (List.mem_range.2 hk)
      simpa using this

theorem popPlace_eq_none_iff {b : Bin} (hw : b.wf) (n : Nat) : popPlace b n = none ↔ binCount b = 0 := by
  constructor
  · intro h
    by_contra h0
    obtain ⟨k, hk, hne⟩ := exists_bank_of_binCount hw h0
    exact hne (bankOf_of_popPlace_none h hk)
  · intro h
    by_contra h0
    obtain ⟨x, hx⟩ := Option.ne_none_iff_exists'.1 h0
    have hlt := (popPlace_isPlace hx).2
    exact binCount_ne_zero_of_bank (List.ne_nil_of_length_pos (Nat.zero_lt_of_lt hlt)) h

/-! What an operation on a bin leaves. -/

@[simp] theorem State.bin_setBin (s : State) (core e : Nat) (b : Bin) : (s.setBin core e b).bin core e = b := by
  simp [State.bin, State.setBin]
theorem State.bin_setBin_ne (s : State) (core : Nat) {e k : Nat} (b : Bin) (h : k ≠ e) : (s.setBin core e b).bin core k = s.bin core k := by
  simp [State.bin, State.setBin, mget_mset_ne _ _ _ h]
@[simp] theorem State.bin_tick (s : State) (core e : Nat) : s.tick.bin core e = s.bin core e := rfl

/-- One bin of a core may differ, and what the model counts; nothing else does. -/
def OnlyBin (s t : State) (core e : Nat) : Prop :=
  t = { s with cores := t.cores, free := t.free, seq := t.seq } ∧ (∀ n, n ≠ core → t.core n = s.core n) ∧
  t.core core = { s.core core with bins := (t.core core).bins } ∧ ∀ k, k ≠ e → t.bin core k = s.bin core k

theorem OnlyBin.refl (s : State) (core e : Nat) : OnlyBin s s core e := ⟨rfl, fun _ _ => rfl, rfl, fun _ _ => rfl⟩

theorem OnlyBin.trans {s t u : State} {core e : Nat} (h : OnlyBin s t core e) (k : OnlyBin t u core e) : OnlyBin s u core e := by
  obtain ⟨h1, h2, h3, h4⟩ := h
  obtain ⟨k1, k2, k3, k4⟩ := k
  exact ⟨by rw [k1, h1], fun n hn => (k2 n hn).trans (h2 n hn), by rw [k3, h3], fun i hi => (k4 i hi).trans (h4 i hi)⟩

theorem OnlyBin.setBin (s : State) (core e : Nat) (b : Bin) : OnlyBin s (s.setBin core e b) core e :=
  ⟨rfl, fun _ hn => State.core_setCore_ne _ _ hn, by simp [State.setBin], fun _ hk => State.bin_setBin_ne _ _ _ hk⟩
theorem OnlyBin.draw (s : State) (core e : Nat) : OnlyBin s s.draw core e := ⟨rfl, fun _ _ => rfl, rfl, fun _ _ => rfl⟩
theorem OnlyBin.tick (s : State) (core e : Nat) : OnlyBin s s.tick core e := ⟨rfl, fun _ _ => rfl, rfl, fun _ _ => rfl⟩
theorem OnlyBin.noteLow (s : State) (l : Launch) (core e : Nat) : OnlyBin s (noteLow s l core e) core e := OnlyBin.setBin _ _ _ _

theorem OnlyBin.grp {s t : State} {core e : Nat} (h : OnlyBin s t core e) (i : Nat) : t.grp i = s.grp i := by rw [h.1]; rfl
theorem OnlyBin.team {s t : State} {core e : Nat} (h : OnlyBin s t core e) (i : Nat) : t.team i = s.team i := by rw [h.1]; rfl

theorem noteLow_banks (s : State) (l : Launch) (core e : Nat) : ((noteLow s l core e).bin core e).banks = (s.bin core e).banks := by
  simp [noteLow]

/-! Pops. -/

/-- The bin after an item at a place was popped. -/
def popped (b : Bin) (k j : Nat) : Bin := { setBank b k (dropAt (bankOf b k) j) with pops := (b.pops + 1) % 2 ^ 32 }

theorem popped_wf {b : Bin} {k j : Nat} (hw : b.wf) (hk : k < 8) : (popped b k j).wf := Bin.wf_congr (b := setBank b k _) rfl (setBank_wf _ hw hk)

/-- A pop takes one item out of the bin. -/
theorem popped_items_perm {b : Bin} {x : Nat × Nat} (hw : b.wf) (hx : IsPlace b x) :
    ((nthD ⟨0, 0, 0, none⟩ (bankOf b x.1) x.2).item :: (popped b x.1 x.2).items).Perm b.items := by
  have hbank := ((nthD_cons_dropAt_perm ⟨0, 0, 0, none⟩ (bankOf b x.1) x.2 hx.2).map (·.item)).append_right (popped b x.1 x.2).items
  have hset : ((bankOf b x.1).map (·.item) ++ (popped b x.1 x.2).items).Perm ((dropAt (bankOf b x.1) x.2).map (·.item) ++ b.items) :=
    setBank_items_perm x.1 (dropAt (bankOf b x.1) x.2) hw
  refine (List.perm_append_left_iff ((dropAt (bankOf b x.1) x.2).map (·.item))).1 (List.Perm.trans ?_ (hbank.trans hset))
  simp

theorem popItem_eq {s : State} (l : Launch) {core e : Nat} {x : Nat × Nat} (h : popPlace (s.bin core e) (Config.freeNat s.free) = some x) :
    popItem s l core e = some (nthD ⟨0, 0, 0, none⟩ (bankOf (s.bin core e) x.1) x.2, noteLow (s.draw.setBin core e (popped (s.bin core e) x.1 x.2)) l core e) := by
  simp only [popItem, h]; rfl

theorem popItem_eq_none {s : State} (l : Launch) {core e : Nat} (h : popPlace (s.bin core e) (Config.freeNat s.free) = none) : popItem s l core e = none := by
  simp only [popItem, h]

theorem popItem_only {s t : State} {l : Launch} {core e : Nat} {i : PoolItem} (h : popItem s l core e = some (i, t)) : OnlyBin s t core e := by
  rcases hp : popPlace (s.bin core e) (Config.freeNat s.free) with _ | x
  · simp [popItem_eq_none l hp] at h
  · obtain ⟨-, rfl⟩ := Prod.mk.inj (Option.some.inj ((popItem_eq l hp).symm.trans h))
    exact ((OnlyBin.draw s core e).trans (OnlyBin.setBin _ _ _ _)).trans (OnlyBin.noteLow _ _ _ _)

/-- A bin with items gives one of them. -/
theorem popItem_of_items (s : State) (l : Launch) (core e : Nat) (hw : (s.bin core e).wf) (h : binCount (s.bin core e) ≠ 0) :
    ∃ i t, popItem s l core e = some (i, t) ∧ (t.bin core e).wf ∧ (i.item :: (t.bin core e).items).Perm (s.bin core e).items := by
  obtain ⟨x, hx⟩ := Option.ne_none_iff_exists'.1 (mt (popPlace_eq_none_iff hw (Config.freeNat s.free)).1 h)
  have hplace := popPlace_isPlace hx
  have hbanks : ((noteLow (s.draw.setBin core e (popped (s.bin core e) x.1 x.2)) l core e).bin core e).banks = (popped (s.bin core e) x.1 x.2).banks := by
    rw [noteLow_banks, State.bin_setBin]
  refine ⟨_, _, popItem_eq l hx, Bin.wf_congr hbanks (popped_wf hw hplace.1), ?_⟩
  rw [items_congr hbanks]
  exact popped_items_perm hw hplace

theorem popItems_only (l : Launch) (core e : Nat) : ∀ (n : Nat) (s : State) (acc : List PoolItem),
    OnlyBin s (popItems l core e n s acc).2 core e ∧ (popItems l core e n s acc).1.length ≤ acc.length + n
  | 0, s, acc => ⟨OnlyBin.refl s core e, by simp [popItems]⟩
  | n + 1, s, acc => by
    rcases h : popItem s l core e with _ | ⟨i, t⟩
    · simp only [popItems, h]
      exact ⟨OnlyBin.refl s core e, by omega⟩
    · obtain ⟨ho, hl⟩ := popItems_only l core e n t (acc ++ [i])
      simp only [popItems, h]
      exact ⟨(popItem_only h).trans ho, by simp only [List.length_append, List.length_singleton] at hl; omega⟩

/-- Up to n pops give as many items as the bin holds for them, and take just these out of it (R370). -/
theorem popItems_of_wf (l : Launch) (core e : Nat) : ∀ (n : Nat) (s : State) (acc : List PoolItem), (s.bin core e).wf →
    ∃ is t, popItems l core e n s acc = (acc ++ is, t) ∧ is.length = min n (binCount (s.bin core e)) ∧
      ((t.bin core e).items ++ is.map (·.item)).Perm (s.bin core e).items
  | 0, s, acc, _ => ⟨[], s, by simp [popItems], by simp, by simp⟩
  | n + 1, s, acc, hw => by
    by_cases h0 : binCount (s.bin core e) = 0
    · have hp := popItem_eq_none l ((popPlace_eq_none_iff hw (Config.freeNat s.free)).2 h0)
      exact ⟨[], s, by simp [popItems, hp], by simp [h0], by simp⟩
    · obtain ⟨i, t, hp, hwt, hperm⟩ := popItem_of_items s l core e hw h0
      obtain ⟨is, u, hps, hlen, hperm2⟩ := popItems_of_wf l core e n t (acc ++ [i]) hwt
      have hcount : binCount (s.bin core e) = binCount (t.bin core e) + 1 := by
        simpa [binCount_eq_length] using hperm.length_eq.symm
      refine ⟨i :: is, u, by simp [popItems, hp, hps], by simp only [List.length_cons, hlen]; omega, ?_⟩
      calc ((u.bin core e).items ++ (i :: is).map (·.item)).Perm (i.item :: ((u.bin core e).items ++ is.map (·.item))) := by simp
        _ |>.Perm (i.item :: (t.bin core e).items) := hperm2.cons _
        _ |>.Perm (s.bin core e).items := hperm

theorem stopIfEmpty_only (s : State) (core e : Nat) : OnlyBin s (stopIfEmpty s core e) core e := by
  unfold stopIfEmpty
  dsimp only
  split
  · exact OnlyBin.setBin _ _ _ _
  · exact OnlyBin.refl _ _ _

theorem stopIfEmpty_banks (s : State) (core e : Nat) : ((stopIfEmpty s core e).bin core e).banks = (s.bin core e).banks := by
  unfold stopIfEmpty
  dsimp only
  split
  · rw [State.bin_setBin]
  · rfl

/-! Placing. -/

theorem placeItem_only (s : State) (l : Launch) (core e : Nat) (i : PoolItem) : OnlyBin s (placeItem s l core e i) core e :=
  ((OnlyBin.draw s core e).trans (OnlyBin.setBin _ _ _ _)).trans (OnlyBin.tick _ _ _)

/-- An item that enters a bin stands in it beside those that were there. -/
theorem placeItem_items_perm (s : State) (l : Launch) (core e : Nat) (i : PoolItem) (hw : (s.bin core e).wf) :
    ((placeItem s l core e i).bin core e).items.Perm (i.item :: (s.bin core e).items) := by
  let k := bankWithRoom l (s.bin core e) (Config.freeNat s.free % 8)
  let b1 := setBank (s.bin core e) k (bankInsert i (bankOf (s.bin core e) k))
  have hbanks : ((placeItem s l core e i).bin core e).banks = b1.banks := by
    simp only [placeItem, State.bin_tick, State.bin_setBin]
    split <;> rfl
  rw [items_congr hbanks]
  have hset := setBank_items_perm k (bankInsert i (bankOf (s.bin core e) k)) hw
  have hins := ((bankInsert_perm i (bankOf (s.bin core e) k)).map (·.item)).append_right (s.bin core e).items
  refine (List.perm_append_left_iff ((bankOf (s.bin core e) k).map (·.item))).1 ((hset.trans hins).trans ?_)
  simpa using List.perm_middle.symm

end Sys2Proof.Machine
end

section
/-! Filling done lanes from a bin: take (R48, R377, R398). -/
namespace Sys2Proof.Machine

/-! Masks and positions. -/

theorem inMask_maskOf {ls : List Nat} (h : ∀ k ∈ ls, k < 32) (l : Nat) : inMask (maskOf ls) l = decide (l ∈ ls) := by
  have key : ∀ (ls : List Nat) (m : Word32), (∀ k ∈ ls, k < 32) → inMask (ls.foldl (fun m k => m ||| (1#32 <<< k)) m) l = (inMask m l || decide (l ∈ ls)) := by
    intro ls
    induction ls with
    | nil => simp
    | cons k ls ih =>
      intro m h
      rw [List.foldl_cons, ih _ fun j hj => h j (by simp [hj]), inMask_or, inMask_bit (h k (by simp))]
      simp [Bool.or_assoc]
  simpa [maskOf, inMask] using key ls 0 h

theorem findPos_eq_idxOf (k : Nat) : ∀ ls : List Nat, findPos (· == k) ls = ls.idxOf k
  | [] => rfl
  | x :: ls => by
    by_cases h : x = k <;> simp [findPos, h, findPos_eq_idxOf k ls]

/-! A lane that receives an item. -/

/-- What an item puts in register r of its lane (R48). -/
def itemReg (i : BitVec 512) (r : Nat) : Word64 := if r < 7 then itemP i r else BitVec.ofNat 64 (itemKey i + itemBits i 15 0 * 2 ^ 32)

/-- Only register elements of the group differ, with their poison marks and the marks on writes that are still to come. -/
def OnlyElems (g g' : Group) : Prop := g' = { g with v := g'.v, pend := g'.pend, vpois := g'.vpois }

theorem OnlyElems.trans {g g' g'' : Group} (h : OnlyElems g g') (k : OnlyElems g' g'') : OnlyElems g g'' := by
  unfold OnlyElems at *
  rw [k, h]

theorem OnlyElems.foldl_wV {α : Type} (r l : α → Nat) (x : α → Word64) (ls : List α) (g : Group) :
    OnlyElems g (ls.foldl (fun g a => g.wV (r a) (l a) (x a)) g) :=
  List.foldlRecOn ls _ rfl fun _ h _ _ => h.trans rfl

theorem giveItem_only (g : Group) (l : Nat) (i : BitVec 512) : OnlyElems g (giveItem g l i) :=
  (OnlyElems.foldl_wV (fun k => k) (fun _ => l) (itemP i) (List.range 7) g).trans rfl

theorem giveItem_velem (g : Group) (l : Nat) (i : BitVec 512) (r k : Nat) (hl : l < 32) (hk : k < 32) :
    (giveItem g l i).velem r k = if k = l ∧ r < 8 then itemReg i r else g.velem r k := by
  have key : ∀ n, ((List.range n).foldl (fun g j => g.wV j l (itemP i j)) g).velem r k = if k = l ∧ r < n then itemP i r else g.velem r k := by
    intro n
    induction n with
    | zero => simp
    | succ n ih =>
      simp only [List.range_succ, List.foldl_append, List.foldl_cons, List.foldl_nil, Group.velem_wV _ _ _ _ _ _ hk hl, ih]
      grind
  simp only [giveItem, Group.velem_wV _ _ _ _ _ _ hk hl, key, itemReg, itemV7]
  grind

/-- Lanes receive items, each its own (R48). -/
def giveAll (g : Group) (ps : List (Nat × BitVec 512)) : Group := ps.foldl (fun g x => giveItem g x.1 x.2) g

theorem giveAll_only (ps : List (Nat × BitVec 512)) (g : Group) : OnlyElems g (giveAll g ps) :=
  List.foldlRecOn ps _ rfl fun _ h _ _ => h.trans (giveItem_only _ _ _)

/-- The lanes of a list receive the items of another, in order; the lanes beyond them receive none. -/
theorem giveAll_velem (r k : Nat) (hk : k < 32) : ∀ (ls : List Nat) (is : List (BitVec 512)) (g : Group), ls.Nodup → (∀ l ∈ ls, l < 32) →
    (giveAll g (ls.zip is)).velem r k = if r < 8 ∧ k ∈ ls.take is.length then itemReg (nthD 0 is (ls.idxOf k)) r else g.velem r k
  | [], is, g, _, _ => by simp [giveAll]
  | l :: ls, [], g, _, _ => by simp [giveAll]
  | l :: ls, i :: is, g, hn, hl => by
    obtain ⟨hnot, hn⟩ := List.nodup_cons.1 hn
    have ih := giveAll_velem r k hk ls is (giveItem g l i) hn fun j hj => hl j (by simp [hj])
    simp only [giveAll, List.zip_cons_cons, List.foldl_cons] at ih ⊢
    rw [ih, giveItem_velem g l i r k (hl l (by simp)) hk]
    by_cases hkl : k = l
    · subst hkl
      have : k ∉ ls.take is.length := fun h => hnot (List.mem_of_mem_take h)
      by_cases hr : r < 8 <;> simp [this, hr, nthD]
    · simp only [hkl, false_and, if_false, List.length_cons, List.take_succ_cons, List.mem_cons, false_or, List.idxOf_cons_ne ls (Ne.symm hkl), nthD]

/-! Filling. -/

/-- The group whose done lanes have received items: the lanes join split k, and the register d receives their number (R377, R398). -/
def filledGroup (g : Group) (k d : Nat) (is : List (BitVec 512)) : Group :=
  let pairs := (lanesOf g.done).zip is
  let m := maskOf (pairs.map Prod.fst)
  let g1 := giveAll g pairs
  let p := nthD Split.init g1.splits k
  { g1 with done := g1.done &&& ~~~m, splits := setAt g1.splits k { p with mask := p.mask ||| m, hold := .none, age := 0 } }.wS d (BitVec.ofNat 64 pairs.length)

section
variable (g : Group) (k d : Nat) {is : List (BitVec 512)}

theorem filledGroup_mask : maskOf (((lanesOf g.done).zip is).map Prod.fst) = maskOf ((lanesOf g.done).take is.length) := by
  congr 1
  rw [List.zip_eq_zip_take_min, List.map_fst_zip (by simp), List.take_eq_take_iff]
  omega

theorem filledGroup_done : (filledGroup g k d is).done = g.done &&& ~~~maskOf ((lanesOf g.done).take is.length) := by
  simp only [filledGroup, Group.wS_done, filledGroup_mask]; rw [giveAll_only]

theorem filledGroup_q : (filledGroup g k d is).q = g.q := by
  simp only [filledGroup, Group.wS_q]; rw [giveAll_only]

theorem filledGroup_status : (filledGroup g k d is).status = g.status := by
  simp only [filledGroup, Group.wS_status]; rw [giveAll_only]

theorem filledGroup_splits : (filledGroup g k d is).splits =
    setAt g.splits k { nthD Split.init g.splits k with
      mask := (nthD Split.init g.splits k).mask ||| maskOf ((lanesOf g.done).take is.length), hold := .none, age := 0 } := by
  simp only [filledGroup, Group.wS_splits, filledGroup_mask]; rw [giveAll_only]

theorem Group.sreg_wS (g : Group) (d : Nat) (x : Word64) (j : Nat) : (g.wS d x).sreg j = if j = d ∧ d ≠ 0 then x else g.sreg j := by
  by_cases hd : d = 0
  · simp [Group.wS, hd]
  · by_cases hj : j = d
    · simp [Group.wS, Group.sreg, hd, hj]
    · simp [Group.wS, Group.sreg, hd, hj, mget_mset_ne]

theorem filledGroup_sreg (hlen : is.length ≤ (lanesOf g.done).length) (j : Nat) :
    (filledGroup g k d is).sreg j = if j = d ∧ d ≠ 0 then BitVec.ofNat 64 is.length else g.sreg j := by
  have hz : ((lanesOf g.done).zip is).length = is.length := by simp [hlen]
  simp only [filledGroup, Group.sreg_wS, hz]
  rw [giveAll_only]; rfl

theorem filledGroup_velem (r l : Nat) (hl : l < 32) : (filledGroup g k d is).velem r l =
    if r < 8 ∧ inMask (maskOf ((lanesOf g.done).take is.length)) l = true then itemReg (nthD 0 is (findPos (· == l) (lanesOf g.done))) r else g.velem r l := by
  have hlt : ∀ j ∈ lanesOf g.done, j < 32 := fun j hj => (mem_lanesOf.1 hj).1
  have hg := giveAll_velem r l hl (lanesOf g.done) is g (nodup_lanesOf _) hlt
  rw [inMask_maskOf fun j hj => hlt j (List.mem_of_mem_take hj), findPos_eq_idxOf]
  simp only [decide_eq_true_eq]
  rw [← hg]
  simp only [filledGroup, Group.velem, Group.wS_v]

end

/-- The state that a fill by the split in hand leaves once the items are popped, which left s1: the lanes have the items, and the core's read-only
lines are discarded (R290, R377). -/
def filledState (s s1 : State) (c d : Nat) (is : List (BitVec 512)) : State :=
  (s1.setCore c { s1.core c with ro := [] }).setGrp s.cur.gh (filledGroup s.cg s.cur.sp d is)

section
variable {s : State} {l : Launch} {d : Nat} {r : List PoolItem × State} (hr : popItems l s.ct.core s.ct.entry (lanesOf s.cg.done).length s [] = r)
include hr

/-- A fill from items that are not poison (R377). -/
theorem fillLanes_eq (hp : poisonAt r.1 = none) :
    fillLanes s l s.cur.gh s.cur.sp d = filledState s (stopIfEmpty r.2 s.ct.core s.ct.entry) s.ct.core d (r.1.map (·.item)) := by
  subst hr
  have hg := ((popItems_only l s.ct.core s.ct.entry (lanesOf s.cg.done).length s []).1.trans (stopIfEmpty_only _ s.ct.core s.ct.entry)).grp s.cur.gh
  simp only [State.ct, State.cg] at hp hg
  simp only [fillLanes, hp, hg, filledState, filledGroup, giveAll, State.ct, State.cg]

/-- A fill that meets poison is fatal (R455). -/
theorem fillLanes_poison {a : Nat} (hp : poisonAt r.1 = some a) :
    fillLanes s l s.cur.gh s.cur.sp d = fatalGroup (stopIfEmpty r.2 s.ct.core s.ct.entry) s.cur.gh POISON 0 a := by
  subst hr
  simp only [State.ct, State.cg] at hp
  simp only [fillLanes, hp, State.ct, State.cg]

end

/-! The word. -/

/-- R341 does not come into play for a split with no lane in a transaction. -/
theorem outsideTx_of_noTx {s : State} (h : NoTx s) (f : State → Res) : outsideTx s f = f s := by
  have : forbidTx s s.sp.mask = .ok s := by simp [forbidTx, show txLanes s.cg s.sp.mask = [] from h]
  simp only [outsideTx, this]; rfl

/-- Memory reads alike where its bytes and the keys that they stand and are read under are the same. -/
theorem sameMem_of_eq {s t : State} (hm : t.mem = s.mem) (he : t.enc = s.enc) (hk : t.keys = s.keys) (ht : t.keytag = s.keytag) : SameMem s t := by
  intro a ha
  have e1 : encKey t a = encKey s a := by simp [encKey, he]
  have e2 : curKey t a = curKey s a := curKey_congr hk ht a
  have e3 : unitBytes t a = unitBytes s a := by simp [unitBytes, hm]
  simp only [State.rdByte, ha, e1, e2, e3, hm]
  rfl

section
variable {s s1 : State} {c e : Nat} (h : OnlyBin s s1 c e) (d : Nat) (is : List (BitVec 512))
include h

theorem filledState_cg : (filledState s s1 c d is).cg = filledGroup s.cg s.cur.sp d is := by
  have hcur : s1.cur = s.cur := by rw [h.1]
  simp only [filledState, State.cg, State.setGrp_cur, State.setCore_cur, hcur, State.grp_setGrp]

theorem filledState_mask (hh : SplitHere s) :
    (filledState s s1 c d is).sp.mask = s.sp.mask ||| maskOf ((lanesOf s.cg.done).take is.length) := by
  have hcur : (filledState s s1 c d is).cur = s.cur := by
    simp only [filledState, State.setGrp_cur, State.setCore_cur]; rw [h.1]
  rw [State.sp, filledState_cg h, hcur, filledGroup_splits, nthD_setAt_same _ _ _ _ hh, State.sp]

theorem filledState_frame : filledState s s1 c d is =
    { s with groups := (filledState s s1 c d is).groups, cores := (filledState s s1 c d is).cores,
             free := (filledState s s1 c d is).free, seq := (filledState s s1 c d is).seq } := by
  simp only [filledState, State.setGrp, State.setCore]
  rw [h.1]

theorem filledState_sameMem : SameMem s (filledState s s1 c d is) :=
  sameMem_of_eq (by rw [filledState_frame h]) (by rw [filledState_frame h]) (by rw [filledState_frame h]) (by rw [filledState_frame h])

omit h in
theorem filledState_ro : ((filledState s s1 c d is).core c).ro = [] := by simp [filledState]

omit h in
theorem filledState_bin : (filledState s s1 c d is).bin c e = s1.bin c e := by simp [filledState, State.bin]

end

theorem merase_minsert {α : Type} (i : Nat) (x : α) : ∀ m : AMap α, merase (minsert m i x) i = merase m i
  | [] => by simp [minsert, merase]
  | (k, y) :: m => by
    by_cases h : i < k
    · simp [minsert, merase, h]
    · by_cases hk : k = i <;> simp [minsert, merase, h, hk, merase_minsert i x m]

theorem merase_merase {α : Type} (i : Nat) : ∀ m : AMap α, merase (merase m i) i = merase m i
  | [] => rfl
  | (k, y) :: m => by by_cases hk : k = i <;> simp [merase, hk, merase_merase i m]

/-- The later of two writes of one key stands. -/
theorem mset_mset {α : Type} [DecidableEq α] (d : α) (m : AMap α) (i : Nat) (x y : α) : mset d (mset d m i x) i y = mset d m i y := by
  have h : merase (mset d m i x) i = merase m i := by
    by_cases hx : x = d
    · simp [mset, hx, merase_merase]
    · simp [mset, hx, merase_minsert, merase_merase]
  rw [mset, h, mset]

theorem State.setCg_setCg (s : State) (g h : Group) : (s.setCg g).setCg h = s.setCg h := by
  simp only [State.setCg, State.setGrp, mset_mset]

/-- take may fill at once: its bin holds items, and no split that could be filled waits for them (R377). -/
def mayFill (s : State) : Bool := (fillable s (takeWaiters s s.ct.core s.ct.entry)).isEmpty && binCount (s.bin s.ct.core s.ct.entry) != 0

theorem mayFill_iff (s : State) : mayFill s = true ↔ fillable s (takeWaiters s s.ct.core s.ct.entry) = [] ∧ binCount (s.bin s.ct.core s.ct.entry) ≠ 0 := by
  simp [mayFill]

theorem execTake_eq {s : State} {l : Launch} (drain : Bool) (d : Nat) (hq : queueEmpty s = true) (hn : NoTx s) (hl : teamLaunch s s.ct = some l) :
    exec (.take drain d) s = .next (
      if s.cg.done = 0 then s.wS d 0
      else if mayFill s = true then fillLanes s l s.cur.gh s.cur.sp d
      else passPoint (s.setSp { s.sp with hold := .take drain d s.seq }) s.cur.gh s.sp.mask) := by
  change execTake drain d s = _
  simp only [execTake, emptyQ, hq, if_true, outsideTx_of_noTx hn, hl]
  by_cases h0 : s.cg.done = 0
  · rw [if_pos h0, if_pos h0]; rfl
  · rw [if_neg h0, if_neg h0]
    by_cases hm : mayFill s = true
    · rw [if_pos hm]; exact congrArg Res.out (if_pos hm)
    · rw [if_neg hm]; exact congrArg Res.out (if_neg hm)

/-- A quiescent point of the waiting split, before the wait is written and after it. -/
theorem passPoint_setSp (s : State) (p : Split) (m : Word32) : passPoint (s.setSp p) s.cur.gh m = (s.setCg (s.cg.passed s.seq m)).setSp p := by
  have h : (s.setSp p).grp s.cur.gh = { s.cg with splits := setAt s.cg.splits s.cur.sp p } := State.cg_setSp s p
  rw [passPoint, h]
  change (s.setCg _).setCg _ = (s.setCg _).setCg _
  rw [State.setCg_setCg, State.setCg_setCg, State.cg_setCg]
  rfl

end Sys2Proof.Machine

open Sys2Proof Sys2Proof.Machine

/-- Settles O13: each pop takes one item out of the bin, and the items popped go to the lowest done lanes. -/
theorem takeFillsLanes : Obligations.TakeFillsLanes := by
  unfold Obligations.TakeFillsLanes
  intro s drain d l hq hn hh hl
  have hexec := execTake_eq drain d hq hn hl
  extract_lets c e dl popped items m
  have hpop : popItems l s.ct.core s.ct.entry (lanesOf s.cg.done).length s [] = popped := rfl
  refine ⟨fun h0 => ?_, fun h0 hw hb hwf hp => ?_, fun a h0 hw hb hp => ?_, fun h0 hw => ?_⟩
  · rw [hexec, if_pos h0]
  · rw [if_neg h0, if_pos ((mayFill_iff s).2 ⟨hw, hb⟩), fillLanes_eq hpop hp] at hexec
    have honly : OnlyBin s (stopIfEmpty popped.2 c e) c e := (popItems_only l c e dl.length s []).1.trans (stopIfEmpty_only _ c e)
    obtain ⟨is, u, hu, hlen, hperm⟩ := popItems_of_wf l c e dl.length s [] hwf
    have hitems : items = is.map (·.item) := by simp only [items, popped, hu, List.nil_append]
    have hlen : items.length = min dl.length (binCount (s.bin c e)) := by simpa [hitems] using hlen
    have hfits : items.length ≤ (lanesOf s.cg.done).length := hlen ▸ Nat.min_le_left _ _
    have hbin : ((filledState s (stopIfEmpty popped.2 c e) c d items).bin c e).items = (u.bin c e).items := by
      rw [filledState_bin, items_congr (stopIfEmpty_banks popped.2 c e), show popped.2 = u by simp only [popped, hu]]
    rw [← hitems, ← hbin] at hperm
    have hcg := filledState_cg honly d items
    refine ⟨_, hexec, hlen, ?_, hperm, ?_, filledState_mask honly d items hh, ?_, fun k hk => ?_, ?_, ?_, filledState_ro d items,
      filledState_sameMem honly d items, filledState_frame honly d items, fun r k hk => ?_⟩
    · simpa [binCount_eq_length] using hperm.length_eq
    · exact (congrArg Group.done hcg).trans (filledGroup_done _ _ _)
    · refine (congrArg (Group.sreg · d) hcg).trans ((filledGroup_sreg _ _ _ hfits d).trans ?_)
      by_cases hd : d = 0 <;> simp [hd, Group.sreg]
    · exact (congrArg (Group.sreg · k) hcg).trans ((filledGroup_sreg _ _ _ hfits k).trans (if_neg (by simp [hk])))
    · exact (congrArg Group.q hcg).trans (filledGroup_q _ _ _)
    · exact (congrArg Group.status hcg).trans (filledGroup_status _ _ _)
    · exact (congrArg (Group.velem · r k) hcg).trans (filledGroup_velem _ _ _ r k hk)
  · rw [hexec, if_neg h0, if_pos ((mayFill_iff s).2 ⟨hw, hb⟩), fillLanes_poison hpop hp]
  · have hnot : ¬ mayFill s = true := by
      rw [mayFill_iff]
      exact fun h => hw.elim h.2 fun hne => hne h.1
    rw [hexec, if_neg h0, if_neg hnot, passPoint_setSp]
end

section
/-! Making items: their fields, their places, and the words spawn and split (R45, R50, R395 to R397). -/
namespace Sys2Proof.Machine

/-! The fields of an item. -/

/-- Words packed above bit 64, the k-th from bit 64 + 64 k on. -/
def packAbove (a : Nat) (w : Nat → Nat) (n : Nat) : Nat := (List.range n).foldl (fun x k => x + w k * 2 ^ (64 + 64 * k)) a

theorem packAbove_succ (a : Nat) (w : Nat → Nat) (n : Nat) : packAbove a w (n + 1) = packAbove a w n + w n * 2 ^ (64 + 64 * n) := by
  simp [packAbove, List.range_succ]

theorem packAbove_eq_add (a : Nat) (w : Nat → Nat) : ∀ n, packAbove a w n = a + packAbove 0 w n
  | 0 => by simp [packAbove]
  | n + 1 => by rw [packAbove_succ, packAbove_succ, packAbove_eq_add a w n, Nat.add_assoc]

section
variable {a : Nat} {w : Nat → Nat} (ha : a < 2 ^ 64) (hw : ∀ k, w k < 2 ^ 64)
include ha hw

theorem packAbove_lt : ∀ n, packAbove a w n < 2 ^ (64 + 64 * n)
  | 0 => by simpa [packAbove] using ha
  | n + 1 => by
    have ih := packAbove_lt n
    have hn := hw n
    have hpow : 2 ^ (64 + 64 * (n + 1)) = 2 ^ 64 * 2 ^ (64 + 64 * n) := by rw [← Nat.pow_add]; congr 1; omega
    rw [packAbove_succ, hpow]
    generalize 2 ^ (64 + 64 * n) = q at ih ⊢
    calc packAbove a w n + w n * q < q + w n * q := by omega
      _ = (w n + 1) * q := by ring
      _ ≤ 2 ^ 64 * q := Nat.mul_le_mul_right q hn

omit hw in
theorem packAbove_mod : ∀ n, packAbove a w n % 2 ^ 64 = a
  | 0 => by simpa [packAbove] using ha
  | n + 1 => by
    rw [packAbove_succ, Nat.pow_add, ← Nat.mul_assoc, Nat.mul_right_comm, Nat.add_mul_mod_self_right]
    exact packAbove_mod n

theorem packAbove_word {j : Nat} : ∀ {n : Nat}, j < n → packAbove a w n / 2 ^ (64 + 64 * j) % 2 ^ 64 = w j
  | 0, h => by omega
  | n + 1, h => by
    have hpos : 0 < 2 ^ (64 + 64 * j) := Nat.two_pow_pos _
    rw [packAbove_succ]
    rcases Nat.lt_succ_iff_lt_or_eq.1 h with h | rfl
    · have hpow : 2 ^ (64 + 64 * n) = 2 ^ 64 * 2 ^ (64 * (n - j - 1)) * 2 ^ (64 + 64 * j) := by
        rw [← Nat.pow_add, ← Nat.pow_add]; congr 1; omega
      rw [hpow, ← Nat.mul_assoc, Nat.add_mul_div_right _ _ hpos, Nat.mul_left_comm, Nat.add_mul_mod_self_left]
      exact packAbove_word h
    · rw [Nat.add_mul_div_right _ _ hpos, Nat.div_eq_of_lt (packAbove_lt ha hw j), Nat.zero_add, Nat.mod_eq_of_lt (hw j)]

end

/-- The low word of an item with a header in the layout of R395. -/
def itemHeader (h : Word64) : Nat := fld h 47 32 / 16 * 16 + fld h 35 32 + fld h 31 0 * 2 ^ 32

theorem itemHeader_lt (h : Word64) : itemHeader h < 2 ^ 64 := by simp only [itemHeader, fld]; omega

theorem toNat_ofNat_of_lt {w n : Nat} (h : n < 2 ^ w) : (BitVec.ofNat w n).toNat = n := by rw [BitVec.toNat_ofNat, Nat.mod_eq_of_lt h]

theorem mkItem_toNat (h : Word64) (ps : List Word64) : (mkItem h ps).toNat = packAbove (itemHeader h) (fun k => (nthD 0 ps k).toNat) 7 := by
  have hlt : packAbove (itemHeader h) (fun k => (nthD 0 ps k).toNat) 7 < 2 ^ (64 + 64 * 7) := packAbove_lt (itemHeader_lt h) (fun k => (nthD 0 ps k).isLt) 7
  have he : mkItem h ps = BitVec.ofNat 512 (itemHeader h + packAbove 0 (fun k => (nthD 0 ps k).toNat) 7) := rfl
  rw [he, ← packAbove_eq_add]
  exact toNat_ofNat_of_lt (w := 64 + 64 * 7) hlt

/-- Where the fields of a header stand in an item. -/
theorem header_fields (h : Word64) {n : Nat} (hn : n % 2 ^ 64 = itemHeader h) :
    n % 2 ^ 4 = fld h 35 32 ∧ n / 2 ^ 4 % 2 ^ 12 = fld h 47 36 ∧ n / 2 ^ 32 % 2 ^ 32 = fld h 31 0 := by
  have hx := h.isLt
  simp only [itemHeader, fld, Nat.reducePow, Nat.reduceAdd, Nat.reduceSub, Nat.div_one] at hn hx ⊢
  generalize h.toNat = x at hn hx ⊢
  have hclass : x / 4294967296 % 65536 / 16 = x / 68719476736 % 4096 := by
    rw [show 65536 = 16 * 4096 from rfl, Nat.mod_mul_right_div_self, Nat.div_div_eq_div_mul]
  rw [hclass] at hn
  have he : x / 4294967296 % 16 < 16 := Nat.mod_lt _ (by omega)
  have hc : x / 68719476736 % 4096 < 4096 := Nat.mod_lt _ (by omega)
  have hk : x % 4294967296 < 4294967296 := Nat.mod_lt _ (by omega)
  generalize x / 4294967296 % 16 = e at hn he ⊢
  generalize x / 68719476736 % 4096 = c at hn hc ⊢
  generalize x % 4294967296 = k at hn hk ⊢
  have hdiv := Nat.div_add_mod n 18446744073709551616
  generalize n / 18446744073709551616 = q at hdiv
  rw [hn] at hdiv
  subst hdiv
  refine ⟨?_, ?_, ?_⟩ <;> omega

/-- An item that is made has its header's fields and its payload (R45, R395). -/
theorem hasFields_mkItem (h : Word64) (ps : List Word64) : HasFields (mkItem h ps) h (nthD 0 ps) := by
  have hn := mkItem_toNat h ps
  obtain ⟨hentry, hclass, hkey⟩ := header_fields h (n := (mkItem h ps).toNat) (by rw [hn]; exact packAbove_mod (itemHeader_lt h) 7)
  refine ⟨?_, hclass, hkey, fun j hj => ?_⟩
  · simpa only [itemEntry, itemBits, Nat.pow_zero, Nat.div_one] using hentry
  · have hlen : 127 + 64 * j + 1 - (64 + 64 * j) = 64 := by omega
    rw [itemP, itemBits, hn, hlen, packAbove_word (itemHeader_lt h) (fun k => (nthD 0 ps k).isLt) hj, BitVec.ofNat_toNat, BitVec.setWidth_eq]

end Sys2Proof.Machine
end

section
/-! The places of items in the bins of a core, and their landing (R50, R375). -/
namespace Sys2Proof.Machine

/-! Asking for places. -/

/-- Each bin of a core is full, on a die with no room to spill, or has room for n more items. -/
def RoomFor (s : State) (l : Launch) (c core : Nat) (full : Nat → Bool) (n : Nat) : Prop :=
  ∀ e, e < 16 → if full e = true then binCap l ≤ binLoad s core e ∧ backingRoom s (dieOf core) c = false else binLoad s core e + n ≤ binCap l

theorem RoomFor.mono {s : State} {l : Launch} {c core n m : Nat} {full : Nat → Bool} (h : RoomFor s l c core full n) (hm : m ≤ n) :
    RoomFor s l c core full m := by
  intro e he
  have := h e he
  split at this <;> simp_all
  omega

theorem itemEntry_lt (i : BitVec 512) : itemEntry i < 16 := Nat.mod_lt _ (by omega)

theorem binLoad_fly (s : State) (core : Nat) (i : BitVec 512) (e : Nat) :
    binLoad (fly s core i) core e = binLoad s core e + if itemEntry i = e then 1 else 0 := by
  by_cases h : itemEntry i = e <;> simp [binLoad, fly, State.bin, h, Nat.add_assoc]

/-- An item that goes to its bin takes one of the places there. -/
theorem RoomFor.after_fly {s : State} {l : Launch} {c core n : Nat} {full : Nat → Bool} {i : BitVec 512} (h : RoomFor s l c core full (n + 1)) :
    RoomFor (fly s core i) l c core full n := by
  intro e he
  have hroom : backingRoom (fly s core i) (dieOf core) c = backingRoom s (dieOf core) c := rfl
  have := h e he
  rw [binLoad_fly, hroom]
  split
  next hf =>
    rw [if_pos hf] at this
    exact ⟨by omega, this.2⟩
  next hf =>
    rw [if_neg hf] at this
    split <;> omega

theorem takePlace_of_room {s : State} {l : Launch} {c core n : Nat} {full : Nat → Bool} {i : BitVec 512} (h : RoomFor s l c core full (n + 1)) :
    takePlace s l c core i = if full (itemEntry i) = true then .full else .taken (fly s core i) := by
  have := h (itemEntry i) (itemEntry_lt i)
  split at this
  next hf => simp [takePlace, hf, Nat.not_lt.2 this.1, this.2]
  next hf =>
    have hlt : binLoad s core (itemEntry i) < binCap l := by omega
    simp [takePlace, hf, hlt]

/-- Items are on their way to the bins of a core; nothing else has changed. -/
def Flown (s t : State) (core : Nat) (is : List (BitVec 512)) : Prop :=
  t = { s with cores := t.cores } ∧ (∀ n, n ≠ core → t.core n = s.core n) ∧ t.core core = { s.core core with flying := (s.core core).flying ++ is }

theorem Flown.nil (s : State) (core : Nat) : Flown s s core [] := ⟨rfl, fun _ _ => rfl, by simp⟩

theorem Flown.cons {s t : State} {core : Nat} {i : BitVec 512} {is : List (BitVec 512)} (h : Flown (fly s core i) t core is) : Flown s t core (i :: is) := by
  obtain ⟨h1, h2, h3⟩ := h
  refine ⟨by rw [h1]; rfl, fun n hn => ?_, ?_⟩
  · rw [h2 n hn, fly, State.core_setCore_ne _ _ hn]
  · simp [h3, fly]

/-- Items ask for their places: those of full bins are left over, the others go. -/
theorem placeAll_of_room (l : Launch) (c core : Nat) (full : Nat → Bool) : ∀ (is : List (BitVec 512)) (s : State), RoomFor s l c core full is.length →
    ∃ t, placeAll l c core is s = (t, is.filter (fun i => full (itemEntry i)), false) ∧ Flown s t core (is.filter fun i => !full (itemEntry i))
  | [], s, _ => ⟨s, rfl, Flown.nil s core⟩
  | i :: is, s, h => by
    have htake := takePlace_of_room (i := i) h
    by_cases hf : full (itemEntry i) = true
    · obtain ⟨t, ht, hfl⟩ := placeAll_of_room l c core full is s (h.mono (by simp))
      rw [if_pos hf] at htake
      exact ⟨t, by simp [placeAll, htake, ht, hf], by simpa [hf] using hfl⟩
    · obtain ⟨t, ht, hfl⟩ := placeAll_of_room l c core full is (fly s core i) h.after_fly
      rw [if_neg hf] at htake
      exact ⟨t, by simp [placeAll, htake, ht, hf], by simpa [hf] using hfl.cons⟩

/-! The word that makes items. -/

/-- What a word leaves that has made items (R50): only its group and the bins of its core have changed; the split stands past the word where each
item is on its way, else before it. -/
def MadeItems (s t : State) (full : Nat → Bool) (is : List (BitVec 512)) : Prop :=
  t = { s with groups := t.groups, cores := t.cores } ∧ SameMem s t ∧ ItemsPlaced s t full is ∧ (∀ i, i ≠ s.cur.gh → t.grp i = s.grp i) ∧
  ((∀ i ∈ is, full (itemEntry i) = false) → t.sp = s.sp) ∧ ((∃ i ∈ is, full (itemEntry i) = true) → t.sp.hold = .retry)

/-- The group of the split in hand may have changed, but not its splits nor its team; nothing else has. -/
def SplitsKept (s u : State) : Prop :=
  u = { s with groups := u.groups } ∧ (∀ i, i ≠ s.cur.gh → u.grp i = s.grp i) ∧ u.cg.splits = s.cg.splits ∧ u.cg.team = s.cg.team

theorem SplitsKept.refl (s : State) : SplitsKept s s := ⟨rfl, fun _ _ => rfl, rfl, rfl⟩

theorem SplitsKept.setCg (s : State) {g : Group} (hs : g.splits = s.cg.splits) (ht : g.team = s.cg.team) : SplitsKept s (s.setCg g) :=
  ⟨rfl, fun _ hi => State.grp_setCg_ne _ _ hi, by rw [State.cg_setCg, hs], by rw [State.cg_setCg, ht]⟩

theorem SplitsKept.afterRead (s : State) (act : Word32) (lat : List Nat) : SplitsKept s (afterRead s act lat) := by
  unfold Machine.afterRead
  split
  · exact SplitsKept.setCg s (Group.orSts_splits _ _ _) (Group.orSts_team _ _ _)
  · exact SplitsKept.refl s

section
variable {s u : State} (h : SplitsKept s u)
include h

theorem SplitsKept.cur : u.cur = s.cur := by rw [h.1]
theorem SplitsKept.ct : u.ct = s.ct := by rw [State.ct, h.2.2.2, h.1]; rfl
theorem SplitsKept.sp : u.sp = s.sp := by rw [State.sp, h.2.2.1, h.cur]; rfl
theorem SplitsKept.core (c : Nat) : u.core c = s.core c := by rw [h.1]; rfl
theorem SplitsKept.teamLaunch (x : Team) : teamLaunch u x = teamLaunch s x := by rw [h.1]; rfl

theorem SplitsKept.roomFor {l : Launch} {c core n : Nat} {full : Nat → Bool} (hr : RoomFor s l c core full n) : RoomFor u l c core full n := by
  rw [h.1]; exact hr

end

/-- The split in hand written, after items went to the bins of the core. -/
theorem madeItems_setSp {s u v : State} {full : Nat → Bool} {is : List (BitVec 512)} {p : Split} (hu : SplitsKept s u) (hh : SplitHere s)
    (hv : Flown u v s.ct.core (is.filter fun i => !full (itemEntry i))) (hi : p.items = is.filter fun i => full (itemEntry i))
    (hn : (∀ i ∈ is, full (itemEntry i) = false) → p = s.sp) (hr : (∃ i ∈ is, full (itemEntry i) = true) → p.hold = .retry) :
    MadeItems s (v.setSp p) full is ∧ (v.setSp p).cg = { u.cg with splits := (v.setSp p).cg.splits } := by
  obtain ⟨hv1, hv2, hv3⟩ := hv
  have hcur : v.cur = s.cur := by rw [hv1, hu.1]
  have hcg : v.cg = u.cg := by rw [State.cg, State.cg, hv1]; rfl
  have hsp : (v.setSp p).sp = p := State.sp_setSp v p (by rw [hcur, hcg, hu.2.2.1]; exact hh)
  have hvs : v = { s with groups := v.groups, cores := v.cores } := by rw [hv1, hu.1]
  have hframe : v.setSp p = { s with groups := (v.setSp p).groups, cores := (v.setSp p).cores } := by
    change { v with groups := (v.setSp p).groups } = _
    rw [hvs]; rfl
  refine ⟨⟨hframe, sameMem_of_eq (by rw [hframe]) (by rw [hframe]) (by rw [hframe]) (by rw [hframe]), ⟨by rw [hsp, hi], fun c hc => ?_, ?_⟩, fun i hne => ?_,
    fun hall => by rw [hsp, hn hall], fun hex => by rw [hsp, hr hex]⟩, ?_⟩
  · exact (hv2 c hc).trans (hu.core c)
  · change v.core s.ct.core = _
    rw [hv3, hu.core]; rfl
  · rw [State.setSp, State.grp_setCg_ne _ _ (by rw [hcur]; exact hne), ← hu.2.1 i hne]
    change mget _ v.groups i = _
    rw [hv1]; rfl
  · rw [State.cg_setSp, hcg]

theorem State.setSp_setSp (s : State) (p q : Split) : (s.setSp p).setSp q = s.setSp q := by
  have h : (s.setSp p).setSp q = (s.setSp p).setCg { s.cg with splits := setAt s.cg.splits s.cur.sp q } := by
    rw [State.setSp, State.cg_setSp, State.setSp_cur, setAt_setAt]
  rw [h]
  exact State.setCg_setCg _ _ _

/-- A split that is to stand before its word again keeps its items. -/
theorem rewind_setSp (s : State) (p : Split) (h : SplitHere s) : ∃ q, rewind (s.setSp p) = s.setSp q ∧ q.items = p.items ∧ q.hold = .retry := by
  have hp : (s.setSp p).sp = p := State.sp_setSp s p h
  refine ⟨_, State.setSp_setSp _ _ _, ?_, rfl⟩
  change (s.setSp p).sp.items = p.items
  rw [hp]

theorem placeItems_eq {u v : State} {l : Launch} {is left : List (BitVec 512)} (hl : teamLaunch u u.ct = some l)
    (hv : placeAll l u.ct.ctx u.ct.core is u = (v, left, false)) :
    placeItems u is = if left = [] then .ok (v.setSp { v.sp with items := [] }) else .error (rewind (v.setSp { v.sp with items := left })) := by
  simp only [placeItems, hl, hv, Bool.false_eq_true, if_false, List.isEmpty_iff]

/-- The items of a word find their places, or hold the split (R50). -/
theorem placeItems_of_room {s u : State} {l : Launch} {full : Nat → Bool} {is : List (BitVec 512)} (hu : SplitsKept s u) (hh : SplitHere s) (hi : s.sp.items = [])
    (hl : teamLaunch s s.ct = some l) (hr : RoomFor s l s.ct.ctx s.ct.core full is.length) :
    ∃ t, Res.out (placeItems u is) = .next t ∧ MadeItems s t full is ∧ t.cg = { u.cg with splits := t.cg.splits } := by
  obtain ⟨v, hv, hfl⟩ := placeAll_of_room l s.ct.ctx s.ct.core full is u (hu.roomFor hr)
  have hvcg : v.cg = u.cg := by rw [State.cg, State.cg, hfl.1]; rfl
  have hvcur : v.cur = s.cur := by rw [hfl.1, ← hu.cur]
  have hvsp : v.sp = s.sp := by rw [State.sp, hvcg, hvcur, hu.2.2.1, State.sp]
  have hvh : SplitHere v := by rw [SplitHere, hvcg, hvcur, hu.2.2.1]; exact hh
  have hgo := placeItems_eq (u := u) (by rw [hu.teamLaunch, hu.ct, hl]) (by rw [hu.ct, hv])
  by_cases hleft : is.filter (fun i => full (itemEntry i)) = []
  · have hnone : ∀ i ∈ is, full (itemEntry i) = false := by simpa using hleft
    rw [if_pos hleft] at hgo
    exact ⟨_, by rw [hgo]; rfl, madeItems_setSp hu hh hfl hleft.symm (fun _ => by rw [hvsp, ← hi]) fun ⟨i, hm, hf⟩ => by simp [hnone i hm] at hf⟩
  · obtain ⟨q, hq, hqi, hqr⟩ := rewind_setSp v { v.sp with items := is.filter fun i => full (itemEntry i) } hvh
    rw [if_neg hleft, hq] at hgo
    refine ⟨_, by rw [hgo]; rfl, madeItems_setSp hu hh hfl hqi (fun hall => absurd ?_ hleft) fun _ => hqr⟩
    simpa using hall

/-! Landing. -/

/-- An item that lands stands in its bin, and is on its way no more (R50, R370). -/
theorem landItem_spec (s : State) (l : Launch) (core k : Nat) (i : BitVec 512) (hw : (s.bin core (itemEntry i)).wf) :
    let t := landItem s l core k i
    t = { s with cores := t.cores, free := t.free, seq := t.seq } ∧ t.core core = { s.core core with flying := dropAt (s.core core).flying k, bins := (t.core core).bins } ∧
    (∀ n, n ≠ core → t.core n = s.core n) ∧ (t.bin core (itemEntry i)).items.Perm (i :: (s.bin core (itemEntry i)).items) ∧
    ∀ e, e ≠ itemEntry i → t.bin core e = s.bin core e := by
  let s1 := s.setCore core { s.core core with flying := dropAt (s.core core).flying k }
  have hbin : ∀ e, s1.bin core e = s.bin core e := fun e => by simp [s1, State.bin]
  let j : PoolItem := ⟨i, (s1.bin core (itemEntry i)).pops, 0, none⟩
  have honly : OnlyBin s1 (landItem s l core k i) core (itemEntry i) := (placeItem_only s1 l core _ j).trans (OnlyBin.noteLow _ l core _)
  have hperm := placeItem_items_perm s1 l core (itemEntry i) j (by rw [hbin]; exact hw)
  obtain ⟨h1, h2, h3, h4⟩ := honly
  refine ⟨by rw [h1]; rfl, ?_, fun n hn => ?_, ?_, fun e he => (h4 e he).trans (hbin e)⟩
  · rw [h3]; simp [s1]
  · rw [h2 n hn, State.core_setCore_ne _ _ hn]
  · rw [← hbin (itemEntry i)]
    have := items_congr (noteLow_banks (placeItem s1 l core (itemEntry i) j) l core (itemEntry i))
    exact this ▸ hperm

/-- The step that lands an item. -/
theorem step_land {s : State} {core k : Nat} {i : BitVec 512} {r : Nat × Launch} {ms : List Move} (ha : s.agenda = .land core k :: ms)
    (hi : (s.core core).flying[k]? = some i) (hr : (dieCtx s (dieOf core)).bind (running s) = some r) :
    step s = .next (landItem ({ s with agenda := ms } : State).draw.tick r.2 core k i) := by
  let s1 : State := ({ s with agenda := ms } : State).draw.tick
  have hi1 : (s1.core core).flying[k]? = some i := hi
  have hr1 : (dieCtx s1 (dieOf core)).bind (running s1) = some r := hr
  simp only [step, ha, runMove]
  change Host.Outcome.next (landOn s1 core k) = _
  simp only [landOn, hr1, hi1, s1]

end Sys2Proof.Machine
end

section
/-! The words spawn and split (R395 to R397). -/
namespace Sys2Proof.Machine

/-! Fields of two bits: the elements of a predicate (R64). -/

theorem testBit_fld (w : Word64) (hi lo i : Nat) : (fld w hi lo).testBit i = (decide (i < hi + 1 - lo) && w.getLsbD (lo + i)) := by
  rw [fld, Nat.testBit_mod_two_pow, Nat.testBit_div_two_pow, BitVec.testBit_toNat, Nat.add_comm i lo]

theorem getLsbD_setFld (w : Word64) (hi lo x : Nat) {j : Nat} (hj : j < 64) :
    (setFld w hi lo x).getLsbD j = if lo ≤ j ∧ j - lo < hi + 1 - lo then x.testBit (j - lo) else w.getLsbD j := by
  simp only [setFld, BitVec.getLsbD_or, BitVec.getLsbD_and, BitVec.getLsbD_not, BitVec.getLsbD_ofNat, Nat.testBit_mul_two_pow, Nat.testBit_two_pow_sub_one,
    Nat.testBit_mod_two_pow, hj, decide_true, Bool.true_and]
  by_cases h1 : lo ≤ j <;> by_cases h2 : j - lo < hi + 1 - lo <;> simp [h1, h2]

theorem fld_setFld_element (w : Word64) (x : Nat) {l k : Nat} (hl : l < 32) :
    fld (setFld w (2 * k + 1) (2 * k) x) (2 * l + 1) (2 * l) = if l = k then x % 2 ^ 2 else fld w (2 * l + 1) (2 * l) := by
  have hn : 2 * l + 1 + 1 - 2 * l = 2 := by omega
  refine Nat.eq_of_testBit_eq fun i => ?_
  rw [testBit_fld, hn, apply_ite (fun n : Nat => n.testBit i), testBit_fld, hn, Nat.testBit_mod_two_pow]
  by_cases hi : i < 2
  · rw [getLsbD_setFld _ _ _ _ (by omega)]
    by_cases hlk : l = k
    · subst hlk
      simp [hi, hn]
    · rw [if_neg (by omega), if_neg hlk]
  · simp [hi]

theorem Group.qelem_wQ (g : Group) (p k : Nat) (x : Tri) (r l : Nat) (hl : l < 32) :
    (g.wQ p k x).qelem r l = if r = p ∧ l = k then x % 2 ^ 2 else g.qelem r l := by
  by_cases hr : r = p
  · subst hr
    simp [Group.qelem, Group.wQ, fld_setFld_element _ _ hl]
  · simp [Group.qelem, Group.wQ, mget_mset_ne _ _ _ hr, hr]

/-- A run of element writes of one predicate. -/
theorem wrQs_qelem (p : Nat) (f : Nat → Tri) (hf : ∀ k, f k < 2 ^ 2) (r l : Nat) (hl : l < 32) : ∀ (ls : List Nat) (g : Group),
    (wrQs g p (ls.map fun k => (k, f k))).qelem r l = if r = p ∧ l ∈ ls then f l else g.qelem r l
  | [], g => by simp [wrQs]
  | k :: ls, g => by
    have ih := wrQs_qelem p f hf r l hl ls (g.wQ p k (f k))
    simp only [wrQs, List.map_cons, List.foldl_cons] at ih ⊢
    rw [ih, Group.qelem_wQ _ _ _ _ _ _ hl, Nat.mod_eq_of_lt (hf k)]
    by_cases hr : r = p <;> by_cases hm : l ∈ ls <;> by_cases he : l = k <;> simp [hr, hm, he]

theorem wrQs_frame (p : Nat) : ∀ (xs : List (Nat × Tri)) (g : Group), wrQs g p xs = { g with q := (wrQs g p xs).q, pend := (wrQs g p xs).pend }
  | [], _ => rfl
  | x :: xs, g => wrQs_frame p xs (g.wQ p x.1 x.2)

/-! Lists by position. -/

theorem nthD_map {α β : Type} (d : α) (d' : β) (f : α → β) : ∀ (l : List α) (j : Nat), j < l.length → nthD d' (l.map f) j = f (nthD d l j)
  | [], _, h => by simp at h
  | _ :: _, 0, _ => rfl
  | _ :: l, j + 1, h => by simpa [nthD] using nthD_map d d' f l j (by simpa using h)

theorem nthD_eq_getElem {α : Type} (d : α) : ∀ (l : List α) (j : Nat) (h : j < l.length), nthD d l j = l[j]
  | [], _, h => by simp at h
  | _ :: _, 0, _ => rfl
  | _ :: l, j + 1, h => nthD_eq_getElem d l j (by simpa using h)

theorem nthD_range {n j : Nat} (h : j < n) : nthD 0 (List.range n) j = j := by
  rw [nthD_eq_getElem _ _ _ (by simpa using h), List.getElem_range]

/-! The lanes that act. -/

theorem lanesOf_length_le (m : Word32) : (lanesOf m).length ≤ 32 := by
  simpa [lanesOf, lanes32] using List.length_filter_le (inMask m) (List.range 32)

theorem lanesOf_ne_nil {m : Word32} (h : m ≠ 0) : lanesOf m ≠ [] := by
  intro h0
  refine h (BitVec.eq_of_getLsbD_eq fun i hi => ?_)
  have hnot : i ∉ lanesOf m := by simp [h0]
  simpa [mem_lanesOf, hi, inMask] using hnot

theorem inMask_active {s : State} {h : VH} {l : Nat} (ha : inMask (active s h) l = true) : inMask s.sp.mask l = true := by
  unfold active at ha
  split at ha
  · exact ha
  · rw [inMask_maskOf fun k hk => (mem_lanesOf.1 (List.mem_of_mem_filter hk)).1, decide_eq_true_eq, List.mem_filter] at ha
    exact (mem_lanesOf.1 ha.1).2

/-- R341 does not come into play for the lanes that act in a split with none in a transaction. -/
theorem forbidTx_active {s : State} (h : VH) (hn : NoTx s) : forbidTx s (active s h) = .ok s := by
  have hnone : txLanes s.cg (active s h) = [] := by
    rw [txLanes, List.filter_eq_nil_iff]
    intro l hl
    obtain ⟨hl32, hla⟩ := mem_lanesOf.1 hl
    exact (List.filter_eq_nil_iff.1 hn) l (mem_lanesOf.2 ⟨hl32, inMask_active hla⟩)
  simp [forbidTx, hnone]

theorem afterRead_nil (s : State) (act : Word32) : afterRead s act [] = s := by simp [afterRead]

theorem entryBad_eq {s u : State} {l : Launch} (hu : SplitsKept s u) (hl : teamLaunch s s.ct = some l) (hs : List Nat) :
    entryBad u hs = hs.any fun e => !rowUsed l e := by
  rw [entryBad, hu.ct, hu.teamLaunch, hl]; rfl

/-! spawn. -/

/-- The items of a spawn (R396). -/
def spawnItems (s : State) (h : VH) (a : Nat) (b : Opnd) : List (BitVec 512) :=
  (lanesOf (active s h)).map fun k => mkItem (rdOp s b k) ((List.range 7).map fun n => s.cg.rV s.free (a + n) k)

theorem spawnItems_fields (s : State) (h : VH) (a : Nat) (b : Opnd) {j : Nat} (hj : j < (spawnItems s h a b).length) :
    let k := nthD 0 (lanesOf (active s h)) j
    HasFields (nthD 0 (spawnItems s h a b) j) (rdOp s b k) fun n => s.cg.rV s.free (a + n) k := by
  intro k
  rw [spawnItems, nthD_map 0 0 _ _ _ (by simpa [spawnItems] using hj)]
  obtain ⟨he, hc, hk, hp⟩ := hasFields_mkItem (rdOp s b k) ((List.range 7).map fun n => s.cg.rV s.free (a + n) k)
  refine ⟨he, hc, hk, fun n hn => ?_⟩
  rw [hp n hn, nthD_map 0 0 _ _ _ (by simpa using hn), nthD_range hn]

theorem execSpawn_eq {s : State} {h : VH} {a : Nat} {b : Opnd} (hn : NoTx s) (hi : s.sp.items = [])
    (hr : Ready s (active s h) ((List.range 7).map (a + ·) ++ opRegs false b ++ latchRegs s (opLatches false b))) :
    let s1 := afterRead s (active s h) (opLatches false b)
    exec (.spawn h a b) s = Res.out (if entryBad s1 ((lanesOf (active s h)).map fun k => fld (rdOp s b k) 35 32) = true then .error (illegalExec s1)
      else placeItems s1 (spawnItems s h a b)) := by
  have hv := vpre_ready hr
  change execSpawn h a b s = _
  simp only [execSpawn, hi, List.isEmpty_nil, Bool.not_true, Bool.false_eq_true, if_false, forbidTx_active h hn]
  simp only [bind, Except.bind, hv]
  rfl

/-! split. -/

/-- The interval of a lane that split bisects (R397). -/
def splitIvl (s : State) (v k : Nat) : Ivl := x32Read (s.cg.rV s.free v k)
/-- The lanes whose intervals can be bisected. -/
def splitLanes (s : State) (v : Nat) : List Nat := (lanesOf s.sp.mask).filter fun k => bisectable fp32 (splitIvl s v k)
/-- What split writes to its predicate. -/
def splitTri (s : State) (v k : Nat) : Tri := if bisectable fp32 (splitIvl s v k) = true then 1 else if (splitIvl s v k).isNai = true then 2 else 0
/-- What split leaves in its register. -/
def splitHalf (s : State) (v : Nat) (upper : Bool) (k : Nat) : Word64 :=
  x32Write (if bisectable fp32 (splitIvl s v k) then halfI fp32 upper (splitIvl s v k) else splitIvl s v k)
/-- The items of a split (R397). -/
def splitItems (s : State) (a v : Nat) (upper : Bool) : List (BitVec 512) :=
  (splitLanes s v).map fun k => mkItem (s.rS a) (x32Write (halfI fp32 (!upper) (splitIvl s v k)) :: (List.range 6).map fun n => s.cg.rV s.free (v + 1 + n) k)
/-- The group after its intervals were split, before its items ask for their places. -/
def splitGroup (s : State) (pen : Bool) (p v : Nat) (upper : Bool) : Group :=
  let g := wrVals s.cg v (vlanes s.sp.mask (splitHalf s v upper))
  let g1 := if pen then wrQs g p (vlanes s.sp.mask (splitTri s v)) else g
  g1.orSts bNAI ((lanesOf s.sp.mask).filter fun k => (splitIvl s v k).isNai)

theorem splitItems_fields (s : State) (a v : Nat) (upper : Bool) {j : Nat} (hj : j < (splitItems s a v upper).length) :
    let k := nthD 0 (splitLanes s v) j
    HasFields (nthD 0 (splitItems s a v upper) j) (s.rS a) fun n => if n = 0 then x32Write (halfI fp32 (!upper) (splitIvl s v k)) else s.cg.rV s.free (v + n) k := by
  intro k
  rw [splitItems, nthD_map 0 0 _ _ _ (by simpa [splitItems] using hj)]
  obtain ⟨he, hc, hk, hp⟩ := hasFields_mkItem (s.rS a)
    (x32Write (halfI fp32 (!upper) (splitIvl s v k)) :: (List.range 6).map fun n => s.cg.rV s.free (v + 1 + n) k)
  refine ⟨he, hc, hk, fun n hn => (hp n hn).trans ?_⟩
  cases n with
  | zero => rfl
  | succ n =>
    have hn6 : n < 6 := by omega
    simp only [nthD, Nat.succ_ne_zero, if_false]
    rw [nthD_map 0 0 _ _ _ (by simpa using hn6), nthD_range hn6, Nat.add_assoc, Nat.add_comm 1 n]

section
variable (s : State) (pen : Bool) (p v : Nat) (upper : Bool)

theorem splitGroup_frame : splitGroup s pen p v upper = { s.cg with
    v := (splitGroup s pen p v upper).v, q := (splitGroup s pen p v upper).q, vpois := (splitGroup s pen p v upper).vpois,
    pend := (splitGroup s pen p v upper).pend, status := (splitGroup s pen p v upper).status } := by
  unfold splitGroup
  dsimp only
  rw [Group.orSts_only]
  cases pen
  · simp only [Bool.false_eq_true, if_false]
    rw [wrVals_frame]
  · simp only [if_true]
    rw [wrQs_frame, wrVals_frame]

theorem splitGroup_velem (r k : Nat) (hk : k < 32) : (splitGroup s pen p v upper).velem r k =
    if r = v ∧ inMask s.sp.mask k = true then splitHalf s v upper k else s.cg.velem r k := by
  have hvals := wrVals_velem v (splitHalf s v upper) r k hk (lanesOf s.sp.mask) s.cg fun j hj => (mem_lanesOf.1 hj).1
  simp only [mem_lanesOf, hk, true_and] at hvals
  rw [← hvals]
  simp only [splitGroup, Group.velem, Group.orSts_v]
  cases pen
  · rfl
  · rw [if_pos rfl, wrQs_frame]; rfl

theorem splitGroup_qelem (r k : Nat) (hk : k < 32) : (splitGroup s pen p v upper).qelem r k =
    if pen = true ∧ r = p ∧ inMask s.sp.mask k = true then splitTri s v k else s.cg.qelem r k := by
  have hframe : ∀ vals, (wrVals s.cg v vals).qelem r k = s.cg.qelem r k := fun vals => by rw [wrVals_frame]; rfl
  cases pen
  · simpa only [splitGroup, Group.qelem, Group.orSts_q, Bool.false_eq_true, if_false, false_and] using hframe _
  · have hf : ∀ k, splitTri s v k < 2 ^ 2 := fun k => by unfold splitTri; split_ifs <;> decide
    have hq := wrQs_qelem p (splitTri s v) hf r k hk (lanesOf s.sp.mask) (wrVals s.cg v (vlanes s.sp.mask (splitHalf s v upper)))
    simp only [mem_lanesOf, hk, true_and, hframe] at hq
    simp only [splitGroup, Group.qelem, Group.orSts_q, if_true, true_and]
    exact hq

theorem splitGroup_st (k : Nat) (hk : k < 32) : (splitGroup s pen p v upper).st k =
    if inMask s.sp.mask k = true then orBit (splitIvl s v k).isNai bNAI (s.cg.st k) else s.cg.st k := by
  have hframe : ∀ vals, (wrVals s.cg v vals).st k = s.cg.st k := fun vals => by rw [wrVals_frame]; rfl
  have hframeq : ∀ vals xs, (wrQs (wrVals s.cg v vals) p xs).st k = s.cg.st k := fun vals xs => by rw [wrQs_frame]; exact hframe vals
  have hmem : k ∈ (lanesOf s.sp.mask).filter (fun k => (splitIvl s v k).isNai) ↔ inMask s.sp.mask k = true ∧ (splitIvl s v k).isNai = true := by
    simp [mem_lanesOf, hk]
  unfold splitGroup
  dsimp only
  rw [Group.st_orSts]
  have hst : (if pen = true then wrQs (wrVals s.cg v (vlanes s.sp.mask (splitHalf s v upper))) p (vlanes s.sp.mask (splitTri s v))
      else wrVals s.cg v (vlanes s.sp.mask (splitHalf s v upper))).st k = s.cg.st k := by
    split
    · exact hframeq _ _
    · exact hframe _
  rw [hst]
  simp only [hmem, orBit]
  by_cases h1 : inMask s.sp.mask k = true <;> by_cases h2 : (splitIvl s v k).isNai = true <;> simp [h1, h2]

end

theorem execSplit_eq {s : State} {pen : Bool} {p a v : Nat} {upper : Bool} (hq : queueEmpty s = true) (hn : NoTx s) (hi : s.sp.items = [])
    (hr : Ready s s.sp.mask [v]) (hr2 : Ready s (maskOf (splitLanes s v)) ((List.range 6).map (v + 1 + ·))) :
    exec (.split pen p a v upper) s = Res.out (if entryBad s ((lanesOf s.sp.mask).map fun _ => fld (s.rS a) 35 32) = true then .error (illegalExec s)
      else placeItems (s.setCg (splitGroup s pen p v upper)) (splitItems s a v upper)) := by
  have hv : vpre s s.sp.mask [v] [] = .ok s := vpre_ready (lat := []) (by simpa [latchRegs] using hr)
  have hv2 : vpre s (maskOf (splitLanes s v)) ((List.range 6).map (v + 1 + ·)) [] = .ok s := vpre_ready (lat := []) (by simpa [latchRegs] using hr2)
  change execSplit pen p a v upper s = _
  simp only [execSplit, hi, List.isEmpty_nil, Bool.not_true, Bool.false_eq_true, if_false, emptyQ, hq, if_true, outsideTx_of_noTx hn]
  simp only [splitLanes, splitIvl] at hv2
  simp only [bind, Except.bind, hv, hv2]
  rfl

end Sys2Proof.Machine

open Sys2Proof Sys2Proof.Machine

/-- Settles O14: the items ask for their places one by one, at most 32 of them, so each meets its bin as the word found it. -/
theorem itemsAreMade : Obligations.ItemsAreMade := by
  unfold Obligations.ItemsAreMade
  intro s h a v p b pen upper l full hn hh hi hl hroom
  have hroom : RoomFor s l s.ct.ctx s.ct.core full 32 := hroom
  refine ⟨fun hr => ⟨fun hrow => ?_, fun hrow hlat => ?_⟩, fun core k i r ms ha hf hrun hw => ⟨_, step_land ha hf hrun, landItem_spec _ _ _ _ _ hw⟩,
    fun hq hr hr2 hm => ⟨fun hrow => ?_, fun hrow => ?_⟩⟩
  · have hu := SplitsKept.afterRead s (active s h) (opLatches false b)
    have hlen : (spawnItems s h a b).length = (lanesOf (active s h)).length := by simp [spawnItems]
    have hgood : entryBad (afterRead s (active s h) (opLatches false b)) ((lanesOf (active s h)).map fun k => fld (rdOp s b k) 35 32) = false := by
      rw [entryBad_eq hu hl]; simpa using hrow
    obtain ⟨t, ht, hmade, hcg⟩ := placeItems_of_room (is := spawnItems s h a b) hu hh hi hl (hroom.mono (hlen ▸ lanesOf_length_le _))
    have hcg' : t.cg = { s.cg with status := t.cg.status, splits := t.cg.splits } := by rw [hcg, afterRead_cg]
    refine ⟨t, spawnItems s h a b, ?_, hmade, hcg', fun j hj => ?_, hlen, fun j hj => spawnItems_fields s h a b hj⟩
    · rw [execSpawn_eq hn hi hr, if_neg (Bool.eq_false_iff.1 hgood), ht]
    · rw [← afterRead_st s (active s h) (opLatches false b) j hj, hcg]; rfl
  · have hbad : entryBad s ((lanesOf (active s h)).map fun k => fld (rdOp s b k) 35 32) = true := by
      rw [entryBad_eq (SplitsKept.refl s) hl]; simpa using hrow
    rw [execSpawn_eq hn hi hr, hlat, afterRead_nil, if_pos hbad]; rfl
  · have hu : SplitsKept s (s.setCg (splitGroup s pen p v upper)) := SplitsKept.setCg s (by rw [splitGroup_frame]) (by rw [splitGroup_frame])
    have hlen : (splitItems s a v upper).length = (splitLanes s v).length := by simp [splitItems]
    have hle : (splitItems s a v upper).length ≤ 32 := hlen ▸ (List.length_filter_le _ _).trans (lanesOf_length_le _)
    obtain ⟨t, ht, hmade, hcg⟩ := placeItems_of_room (is := splitItems s a v upper) hu hh hi hl (hroom.mono hle)
    rw [State.cg_setCg] at hcg
    have hgood : entryBad s ((lanesOf s.sp.mask).map fun _ => fld (s.rS a) 35 32) = false := by
      rw [entryBad_eq (SplitsKept.refl s) hl]; simp [hrow]
    refine ⟨t, splitItems s a v upper, ?_, hmade, hlen, ?_, fun j hj => splitItems_fields s a v upper hj, fun r k hk => ?_, fun r k hk => ?_, fun k hk => ?_⟩
    · rw [execSplit_eq hq hn hi hr hr2, if_neg (Bool.eq_false_iff.1 hgood), ht]
    · rw [hcg, splitGroup_frame]
    · exact (congrArg (Group.velem · r k) hcg).trans (splitGroup_velem s pen p v upper r k hk)
    · exact (congrArg (Group.qelem · r k) hcg).trans (splitGroup_qelem s pen p v upper r k hk)
    · exact (congrArg (Group.st · k) hcg).trans (splitGroup_st s pen p v upper k hk)
  · have hbad : entryBad s ((lanesOf s.sp.mask).map fun _ => fld (s.rS a) 35 32) = true := by
      rw [entryBad_eq (SplitsKept.refl s) hl]; simp [hrow, lanesOf_ne_nil hm]
    rw [execSplit_eq hq hn hi hr hr2, if_pos hbad]; rfl
end

section
/-! A bin that fires: the start of a team (R34, R47 to R49, R72, R76, R373). -/
namespace Sys2Proof.Machine

/-! Maps whose entries are changed in place. -/

/-- A key whose entry a change leaves alone reads as before. -/
theorem mget_map_fixed {α : Type} (d : α) (f : Nat × α → Nat × α) (i : Nat) (hf : ∀ e, (f e).1 = e.1) :
    ∀ m : AMap α, f (i, mget d m i) = (i, mget d m i) → mget d (m.map f) i = mget d m i
  | [], _ => rfl
  | (k, x) :: m, h => by
    have hk := hf (k, x)
    obtain ⟨k', y, hy⟩ : ∃ k' y, f (k, x) = (k', y) := ⟨_, _, rfl⟩
    obtain rfl : k' = k := by simpa [hy] using hk
    by_cases hi : k' = i
    · subst hi
      simp only [mget, if_true] at h ⊢
      rw [List.map_cons, h, mget, if_pos rfl]
    · simp only [mget, hi, if_false] at h
      simp only [List.map_cons, hy, mget, hi, if_false]
      exact mget_map_fixed d f i hf m h

/-! A trace record (R459, R462). -/

/-- A group without transactions is not doomed by a write. -/
theorem doomLanes_grp (s : State) (ls : List Nat) (p : Option (Nat × Nat)) {i : Nat} (h : (s.grp i).tx = []) : (doomLanes s ls p).grp i = s.grp i := by
  refine mget_map_fixed Group.init _ i (fun e => ?_) s.groups ?_
  · dsimp only
    split <;> rfl
  · have : (mget Group.init s.groups i).tx = [] := h
    simp [this]

theorem perform_grp (s : State) (l : List Host.Cell) {i : Nat} (h : (s.grp i).tx = []) : (s.perform l).grp i = s.grp i := by
  have hw : ((doomLanes (roNote s l) ((l.map fun c => lineOf c.1).eraseDups) none).wrCells l).groups =
      (doomLanes (roNote s l) ((l.map fun c => lineOf c.1).eraseDups) none).groups := by rw [wrCells_only]
  have hg : (s.perform l).grp i = (doomLanes (roNote s l) ((l.map fun c => lineOf c.1).eraseDups) none).grp i :=
    congrArg (mget Group.init · i) hw
  rw [hg]
  exact doomLanes_grp (roNote s l) _ none h

/-- What a snapshot trigger can do: registers of the host and the state of the I/O dies. -/
theorem snapTrigger_only (s : State) (c : Nat) : ∃ r io, snapTrigger s c = { s with regs := r, io := io } := by
  unfold snapTrigger
  dsimp only
  split
  · split
    · exact ⟨_, _, rfl⟩
    · exact ⟨_, s.io, rfl⟩
  · split
    · exact ⟨_, _, rfl⟩
    · exact ⟨_, s.io, rfl⟩

theorem snapIf_only {Q : State → Prop} {s : State} {c : Nat} (P : Prop) [Decidable P] (h : ∀ r io, Q { s with regs := r, io := io }) :
    Q (if P then snapTrigger s c else s) := by
  split
  · obtain ⟨r, io, hs⟩ := snapTrigger_only s c
    exact hs ▸ h r io
  · exact h s.regs s.io

/-- Where the next record of a die's trace buffer goes (R459). -/
def traceTail (s : State) (die : Nat) : Nat := mget 0 s.io.trcBase die + 32 * fld (s.reg (rTRCPTR die)) 20 0

/-- A state in which 32 bytes have been written at the tail of a die's trace buffer (R459). -/
def Traced (s : State) (die : Nat) (t : State) : Prop :=
  ∃ r r' io bs, bs.length = 32 ∧ t = { ({ s with regs := r } : State).perform (cellsOf (traceTail s die) bs) with regs := r', io := io }

theorem Traced.of_perform {s : State} {die : Nat} (o : Nat) (w : Word64) {bs : List Byte} (h : bs.length = 32) (o' : Nat) (w' : Word64) (r : AMap Word64) (io : Io) :
    Traced s die { ((s.setReg o w).perform (cellsOf (traceTail s die) bs)).setReg o' w' with regs := r, io := io } :=
  ⟨(s.setReg o w).regs, r, io, bs, h, rfl⟩

/-- What a trace record can do: device time passes; where its event is enabled, it is written. -/
theorem traceRec_cases (s : State) (die core ctx ev a0 a1 : Nat) :
    traceRec s die core ctx ev a0 a1 = s.now ∨ Traced s.now die (traceRec s die core ctx ev a0 a1) := by
  unfold traceRec
  dsimp only
  by_cases h : fld (s.now.reg (rTRCCTL die)) (16 + ev) (16 + ev) = 0
  · exact .inl (if_pos h)
  · rw [if_neg h]
    exact .inr (snapIf_only (Q := Traced s.now die) _ fun r io => Traced.of_perform _ _ (by simp [toBytes]) _ _ r io)

theorem traceRec_sameMemBut (s : State) (die core ctx ev a0 a1 : Nat) : SameMemBut s (traceRec s die core ctx ev a0 a1) (traceSlot s die) := by
  intro a hp hw
  have hnow : s.now.rdByte a = s.rdByte a := sameMem_of_eq (s := s) (t := s.now) rfl rfl rfl rfl a hp
  rcases traceRec_cases s die core ctx ev a0 a1 with h | ⟨r, r', io, bs, hlen, h⟩
  · rw [h, hnow]
  · have hout : a < traceTail s.now die ∨ traceTail s.now die + bs.length ≤ a := by
      have hw : ¬ (traceTail s.now die ≤ a ∧ a < traceTail s.now die + 32) := hw
      omega
    rw [h]
    exact (rdByte_perform_cellsOf { s.now with regs := r } bs hout).trans hnow

theorem traceRec_team (s : State) (die core ctx ev a0 a1 k : Nat) : (traceRec s die core ctx ev a0 a1).team k = s.team k := by
  rcases traceRec_cases s die core ctx ev a0 a1 with h | ⟨r, r', io, bs, -, h⟩
  · rw [h]; rfl
  · rw [h, State.perform, performFor_only]; rfl

theorem traceRec_grp (s : State) (die core ctx ev a0 a1 : Nat) {i : Nat} (ht : (s.grp i).tx = []) : (traceRec s die core ctx ev a0 a1).grp i = s.grp i := by
  rcases traceRec_cases s die core ctx ev a0 a1 with h | ⟨r, r', io, bs, -, h⟩
  · rw [h]; rfl
  · rw [h]
    exact perform_grp { s.now with regs := r } _ ht

/-! The groups of a team at its start. -/

/-- A group at its start, before its items are given. -/
def startBase (l : Launch) (r : EntryRow) (isL : Bool) (tid idx stage part off n : Nat) : Group :=
  let occ := maskOf (List.range n)
  let pc := rolePc r isL stage
  { Group.init with
    team := tid
    idx := idx
    stage := stage
    allot := nthD 0 l.allots stage
    part := part
    s := msetAll 0 [] [(1, BitVec.ofNat 64 l.addr), (2, BitVec.ofNat 64 (7 * 2 ^ 21 + off)), (3, BitVec.ofNat 64 l.scratch), (4, BitVec.ofNat 64 n)]
    done := if r.active then 0 else ~~~occ
    splits := [{ Split.init with mask := if r.active then 0xFFFFFFFF else occ, pc := pc.1, lpc := pc.2, fromA := pc.1, fromB := pc.2 }] }

section
variable (l : Launch) (r : EntryRow) (isL : Bool) (tid idx stage part off : Nat) (items : List (BitVec 512))

theorem startGroup_eq : startGroup l r isL tid idx stage part off items =
    let g1 := giveAll (startBase l r isL tid idx stage part off items.length) ((List.range items.length).zip items)
    if r.active then wrVals g1 7 (vlanes (~~~maskOf (List.range items.length)) fun _ => 0xFFFF000000000000) else g1 := by
  simp only [startGroup, wrVals, vlanes, List.foldl_map]
  rfl

theorem startGroup_only : OnlyElems (startBase l r isL tid idx stage part off items.length) (startGroup l r isL tid idx stage part off items) := by
  rw [startGroup_eq]
  dsimp only
  split
  · exact (giveAll_only _ _).trans (wrVals_frame _ _ _)
  · exact giveAll_only _ _

/-- The lanes of the items hold them (R48). -/
theorem startGroup_velem (hn : items.length ≤ 32) {m j : Nat} (hm : m < 8) (hj : j < items.length) :
    (startGroup l r isL tid idx stage part off items).velem m j = itemReg (nthD 0 items j) m := by
  have hj32 : j < 32 := by omega
  have hg := giveAll_velem m j hj32 (List.range items.length) items (startBase l r isL tid idx stage part off items.length) List.nodup_range
    fun k hk => (List.mem_range.1 hk).trans_le hn
  have hidx : (List.range items.length).idxOf j = j := by
    have := List.nodup_range.idxOf_getElem j (by simpa using hj)
    simpa using this
  have hmem : j ∈ (List.range items.length).take items.length := by simp [List.take_of_length_le, hj]
  rw [if_pos ⟨hm, hmem⟩, hidx] at hg
  rw [startGroup_eq]
  dsimp only
  split
  · have hnot : j ∉ lanesOf (~~~maskOf (List.range items.length)) := by
      have hin : inMask (maskOf (List.range items.length)) j = true := by
        rw [inMask_maskOf fun k hk => (List.mem_range.1 hk).trans_le hn]; simpa using hj
      simp only [mem_lanesOf, not_and]
      intro _
      simpa [inMask, hj32] using hin
    rw [vlanes, wrVals_velem 7 _ m j hj32 _ _ fun k hk => (mem_lanesOf.1 hk).1, if_neg (by simp [hnot]), hg]
  · exact hg

end

section
variable (l : Launch) (r : EntryRow) (isL : Bool) (tid idx stage part off : Nat) (items : List (BitVec 512))

/-- What a group starts with of its role, and its control registers (R34, R72, R76). -/
theorem startGroup_fields : let g := startGroup l r isL tid idx stage part off items
    g.team = tid ∧ g.idx = idx ∧ g.stage = stage ∧ g.allot = nthD 0 l.allots stage ∧ g.part = part ∧ g.nrm = 2 ∧ g.trapen = 0 ∧ g.exited = 0 ∧ g.q = [] ∧ g.tx = [] := by
  intro g
  have h : OnlyElems _ g := startGroup_only l r isL tid idx stage part off items
  unfold OnlyElems at h
  refine ⟨?_, ?_, ?_, ?_, ?_, ?_, ?_, ?_, ?_, ?_⟩ <;> · rw [h]; rfl

/-- The scalar registers that a group starts with (R49). -/
theorem startGroup_sreg : let g := startGroup l r isL tid idx stage part off items
    g.sreg 1 = BitVec.ofNat 64 l.addr ∧ g.sreg 2 = BitVec.ofNat 64 (7 * 2 ^ 21 + off) ∧ g.sreg 3 = BitVec.ofNat 64 l.scratch ∧
    g.sreg 4 = BitVec.ofNat 64 items.length := by
  intro g
  have hs : g.s = (startBase l r isL tid idx stage part off items.length).s := by
    have h : OnlyElems _ g := startGroup_only l r isL tid idx stage part off items
    rw [h]
  simp only [Group.sreg, hs, startBase, msetAll, List.foldl_cons, List.foldl_nil, mget_mset]
  simp

/-- The split that a group starts with, and the lanes that start as done (R48). -/
theorem startGroup_lanes (hn : items.length ≤ 32) : let g := startGroup l r isL tid idx stage part off items
    ∃ p, g.splits = [p] ∧ p.pc = (rolePc r isL stage).1 ∧ p.lpc = (rolePc r isL stage).2 ∧ p.hold = .none ∧
      ∀ j, j < 32 → inMask p.mask j = (r.active || decide (j < items.length)) ∧ inMask g.done j = !(r.active || decide (j < items.length)) := by
  intro g
  have h : OnlyElems _ g := startGroup_only l r isL tid idx stage part off items
  have hdone : g.done = if r.active then 0 else ~~~maskOf (List.range items.length) := by rw [h]; rfl
  have hocc : ∀ j, inMask (maskOf (List.range items.length)) j = decide (j < items.length) := fun j => by
    rw [inMask_maskOf fun k hk => (List.mem_range.1 hk).trans_le hn]; simp
  have hall : ∀ j, j < 32 → inMask 0xFFFFFFFF j = true := by decide
  refine ⟨_, by rw [h]; rfl, rfl, rfl, rfl, fun j hj => ?_⟩
  rw [hdone]
  cases r.active
  · have hnot : inMask (~~~maskOf (List.range items.length)) j = !inMask (maskOf (List.range items.length)) j := by simp [inMask, hj]
    simpa [hnot] using hocc j
  · exact ⟨by simpa using hall j hj, by simp [inMask]⟩

end

/-! The start of the team. -/

theorem assign_length : ∀ (as : List Nat) (ps : List (Nat × Nat)) (ks : List Nat), assign as ps = some ks → ks.length = as.length
  | [], _, ks, h => by obtain rfl : [] = ks := by simpa [assign] using h
                       rfl
  | a :: as, ps, ks, h => by
    obtain ⟨k, -, hk⟩ := List.exists_of_findSome?_eq_some h
    dsimp only at hk
    split at hk
    · obtain ⟨ks', hks, rfl⟩ := Option.map_eq_some_iff.1 hk
      simp [assign_length as _ ks' hks]
    · cases hk

theorem canStart_length {s : State} {l : Launch} {r : EntryRow} {core : Nat} {ps : List Nat} {off : Nat} (h : canStart s l r core = some (ps, off)) :
    ps.length = (rowRoles r).length := by
  unfold canStart at h
  split at h
  · split at h
    next ps' o hps _ =>
      obtain ⟨rfl, rfl⟩ := Prod.mk.inj (Option.some.inj h)
      simpa [rowAllots] using assign_length _ _ _ hps
    · cases h
  · cases h

/-- Groups of a team written one by one, each at its own index. -/
theorem foldl_setGrp_grp {α : Type} (tid : Nat) (G : Nat × α → Group) : ∀ (xs : List (Nat × α)) (s : State), (xs.map Prod.fst).Nodup →
    (∀ k, k ∉ xs.map (fun x => handle tid x.1) → (xs.foldl (fun s x => s.setGrp (handle tid x.1) (G x)) s).grp k = s.grp k) ∧
    ∀ x ∈ xs, (xs.foldl (fun s x => s.setGrp (handle tid x.1) (G x)) s).grp (handle tid x.1) = G x
  | [], s, _ => ⟨fun _ _ => rfl, by simp⟩
  | y :: xs, s, h => by
    obtain ⟨hy, hn⟩ := List.nodup_cons.1 h
    obtain ⟨ih1, ih2⟩ := foldl_setGrp_grp tid G xs (s.setGrp (handle tid y.1) (G y)) hn
    simp only [List.foldl_cons]
    refine ⟨fun k hk => ?_, fun x hx => ?_⟩
    · simp only [List.map_cons, List.mem_cons, not_or] at hk
      rw [ih1 k hk.2, State.grp_setGrp_ne _ _ hk.1]
    · rcases List.mem_cons.1 hx with rfl | hx
      · have hnot : handle tid x.1 ∉ xs.map fun z => handle tid z.1 := by
          intro hmem
          obtain ⟨z, hz, he⟩ := List.mem_map.1 hmem
          refine hy (List.mem_map.2 ⟨z, hz, ?_⟩)
          simp only [handle] at he
          omega
        rw [ih1 _ hnot, State.grp_setGrp]
      · exact ih2 x hx

/-- Contexts, cores, teams and groups may differ; the rest of the device is as before. -/
def OnlyTeams (s t : State) : Prop := t = { s with ctxs := t.ctxs, cores := t.cores, teams := t.teams, groups := t.groups }

theorem OnlyTeams.trans {s t u : State} (h : OnlyTeams s t) (k : OnlyTeams t u) : OnlyTeams s u := by
  unfold OnlyTeams at *
  rw [k, h]

theorem takeSerial_only (s : State) (c slot die : Nat) : OnlyTeams s (takeSerial s c slot die).1 := by
  unfold takeSerial
  dsimp only
  split <;> rfl

theorem foldl_setGrp_only {α : Type} (h : α → Nat) (G : α → Group) (xs : List α) (s : State) :
    OnlyTeams s (xs.foldl (fun s x => s.setGrp (h x) (G x)) s) ∧ (xs.foldl (fun s x => s.setGrp (h x) (G x)) s).teams = s.teams := by
  induction xs generalizing s with
  | nil => exact ⟨rfl, rfl⟩
  | cons x xs ih => exact ⟨OnlyTeams.trans (t := s.setGrp (h x) (G x)) rfl (ih _).1, (ih _).2⟩

/-- A team that starts, its windows bound to the resident teams it finds (R257). -/
def ownBound (s : State) (tid : Nat) : State :=
  let t := s.team tid
  let own := (List.range 5).filterMap fun p =>
    if p = posOf t.core then none else (peerOn s t.ctx t.slot t.entry (peerCore t.core p)).map fun u => (p, Peer.team u)
  s.setTeam tid { t with peers := msetAll .unbound t.peers own }

/-- The windows of a team that starts may be bound; else it is as it was made (R257). -/
theorem bindWindows_team (s : State) (tid : Nat) : ∃ p, (bindWindows s tid).team tid = { s.team tid with peers := p } := by
  have hfixed : (bindWindows s tid).team tid = (ownBound s tid).team tid :=
    mget_map_fixed Team.init (fun e => (e.1, bindTo tid (s.team tid) e)) tid (fun _ => rfl) (ownBound s tid).teams (by simp [bindTo])
  exact ⟨_, hfixed.trans (State.team_setTeam _ _ _)⟩

theorem bindWindows_only (s : State) (tid : Nat) : OnlyTeams s (bindWindows s tid) ∧ (bindWindows s tid).groups = s.groups := ⟨rfl, rfl⟩

/-- The team that starts (R59, R72). -/
def startTeam (s : State) (l : Launch) (c slot e core : Nat) (n off : Nat) : Team :=
  { Team.init with
    ctx := c, slot := slot, entry := e, core := core, isL := coreIsL core
    reg := BitVec.ofNat 64 (dieOf core * 2 ^ 29 + (takeSerial s c slot (dieOf core)).2 % 2 ^ 29)
    size := n, off := off, bytes := l.scratch, ntiles := (l.row e).tiles, age := s.seq, gone := false }

section
variable (s : State) (l : Launch) (c slot e core : Nat) (ps : List Nat) (off : Nat) (items : List (BitVec 512))

/-- The team stands on its core, with an empty allocation (R256). -/
def gangOpened : State :=
  let s1 := (takeSerial s c slot (dieOf core)).1.setTeam (freshKey s.teams) (startTeam s l c slot e core ps.length off)
  s1.setCore core { clearAlloc (s1.core core) off l.scratch with ro := [] }

/-- Its groups have started; x: index, role and partition. -/
def gangGrouped : State :=
  ((List.range ps.length).zip ((rowRoles (l.row e)).zip ps)).foldl (fun s' x =>
    s'.setGrp (handle (freshKey s.teams) x.1) (startGroup l (l.row e) (coreIsL core) (freshKey s.teams) x.1 x.2.1 x.2.2 off items))
    (gangOpened s l c slot e core ps off)

/-- The state before the start is traced. -/
def gangPlaced : State := bindWindows (gangGrouped s l c slot e core ps off items) (freshKey s.teams)

theorem gangStart_eq : gangStart s l c slot e core ps off items = traceRec (gangPlaced s l c slot e core ps off items) (dieOf core) core c 3
    (dieOf core * 2 ^ 29 + (takeSerial s c slot (dieOf core)).2 % 2 ^ 29) (e + items.length * 2 ^ 8) := rfl

theorem gangOpened_only : OnlyTeams s (gangOpened s l c slot e core ps off) := by
  have h := takeSerial_only s c slot (dieOf core)
  unfold OnlyTeams at h ⊢
  simp only [gangOpened, State.setCore, State.setTeam]
  rw [h]

theorem gangGrouped_frame : OnlyTeams (gangOpened s l c slot e core ps off) (gangGrouped s l c slot e core ps off items) ∧
    (gangGrouped s l c slot e core ps off items).teams = (gangOpened s l c slot e core ps off).teams :=
  foldl_setGrp_only _ _ _ _

theorem gangPlaced_only : OnlyTeams s (gangPlaced s l c slot e core ps off items) :=
  ((gangOpened_only s l c slot e core ps off).trans (gangGrouped_frame s l c slot e core ps off items).1).trans (bindWindows_only _ _).1

theorem gangPlaced_team : ∃ p, (gangPlaced s l c slot e core ps off items).team (freshKey s.teams) = { startTeam s l c slot e core ps.length off with peers := p } := by
  obtain ⟨p, hp⟩ := bindWindows_team (gangGrouped s l c slot e core ps off items) (freshKey s.teams)
  have hteam : (gangGrouped s l c slot e core ps off items).team (freshKey s.teams) = startTeam s l c slot e core ps.length off := by
    rw [State.team, (gangGrouped_frame s l c slot e core ps off items).2]
    exact mget_mset_same _ _ _ _
  exact ⟨p, by rw [gangPlaced, hp, hteam]⟩

theorem gangPlaced_grp (hlen : ps.length = (rowRoles (l.row e)).length) {i : Nat} (hi : i < ps.length) :
    (gangPlaced s l c slot e core ps off items).grp (handle (freshKey s.teams) i) =
      startGroup l (l.row e) (coreIsL core) (freshKey s.teams) i (nthD 0 (rowRoles (l.row e)) i) (nthD 0 ps i) off items := by
  have hz : ps.length ≤ ((rowRoles (l.row e)).zip ps).length := by simp [hlen]
  have hfst : ((List.range ps.length).zip ((rowRoles (l.row e)).zip ps)).map Prod.fst = List.range ps.length := List.map_fst_zip (by simpa using hz)
  have hmem : (i, nthD 0 (rowRoles (l.row e)) i, nthD 0 ps i) ∈ (List.range ps.length).zip ((rowRoles (l.row e)).zip ps) := by
    rw [nthD_eq_getElem _ _ _ (hlen ▸ hi), nthD_eq_getElem _ _ _ hi]
    refine List.mem_iff_getElem.2 ⟨i, by simp [hi, hlen ▸ hi], by simp⟩
  exact (foldl_setGrp_grp (freshKey s.teams)
    (fun x => startGroup l (l.row e) (coreIsL core) (freshKey s.teams) x.1 x.2.1 x.2.2 off items) _ (gangOpened s l c slot e core ps off)
    (by rw [hfst]; exact List.nodup_range)).2 _ hmem

end

/-! The event. -/

/-- The bin after it fired: its timer runs on where items are left (R373). -/
def firedBin (s : State) (l : Launch) (core e : Nat) : State :=
  let r := popItems l core e 32 s []
  let b := r.2.bin core e
  r.2.setBin core e { b with timer := decide (0 < binCount b), expired := false, waited := false }

theorem firedBin_only (s : State) (l : Launch) (core e : Nat) : OnlyBin s (firedBin s l core e) core e :=
  (popItems_only l core e 32 s []).1.trans (OnlyBin.setBin _ _ _ _)

/-- A ripe bin that a core can start a team from fires (R372, R373). -/
theorem execBinFire_eq {s : State} {core e c slot off : Nat} {l : Launch} {ps : List Nat} (hl : coreLaunch s core = some (c, slot, l))
    (hs : canStart s l (l.row e) core = some (ps, off)) (hr : binRipe (s.bin core e) = true) (hw : fillable s (takeWaiters s core e) = [])
    (hp : poisonAt (popItems l core e 32 s []).1 = none) :
    exec (.binFire core e) s = .next (gangStart (firedBin s l core e) l c slot e core ps off ((popItems l core e 32 s []).1.map (·.item))) := by
  change execBinFire core e s = _
  simp only [execBinFire, hl, hs, hr, hw, hp, List.isEmpty_nil, Bool.and_self, if_true]
  rfl

theorem execBinTimerExpiry_eq {s : State} {core e : Nat} (ht : (s.bin core e).timer = true) (hx : (s.bin core e).expired = false)
    (hb : 0 < binCount (s.bin core e)) : exec (.binTimerExpiry core e) s = .next (s.setBin core e { s.bin core e with expired := true }) := by
  change execBinTimerExpiry core e s = _
  simp [execBinTimerExpiry, ht, hx, hb]

end Sys2Proof.Machine

open Sys2Proof Sys2Proof.Machine

/-- Settles O43: the team and its groups are written as they start, and neither the binding of windows nor the trace record touches what they
start with. -/
theorem teamsStart : Obligations.TeamsStart := by
  unfold Obligations.TeamsStart
  intro s core e c slot off l ps items tid r isL pc
  have honly := firedBin_only s l core e
  have hplaced := gangPlaced_only (firedBin s l core e) l c slot e core ps off items
  have htid : freshKey (firedBin s l core e).teams = tid := by rw [honly.1]
  refine ⟨execBinTimerExpiry_eq, fun hl hs hr hw hp _ => ⟨_, execBinFire_eq hl hs hr hw hp, ?_, ?_, fun i hi => ?_⟩⟩
  · intro a ha hout
    have hsame : SameMem s (gangPlaced (firedBin s l core e) l c slot e core ps off items) :=
      sameMem_of_eq (by rw [hplaced, honly.1]) (by rw [hplaced, honly.1]) (by rw [hplaced, honly.1]) (by rw [hplaced, honly.1])
    have htail : traceSlot (gangPlaced (firedBin s l core e) l c slot e core ps off items) (dieOf core) = traceSlot s (dieOf core) := by
      rw [hplaced, honly.1]; rfl
    rw [gangStart_eq, ← hsame a ha]
    exact traceRec_sameMemBut _ _ _ _ _ _ _ a ha (by rw [htail]; exact hout)
  · obtain ⟨p, hteam⟩ := gangPlaced_team (firedBin s l core e) l c slot e core ps off items
    rw [htid] at hteam
    rw [gangStart_eq, traceRec_team, hteam]
    exact ⟨rfl, rfl, rfl, rfl, rfl, rfl, rfl, rfl, rfl, rfl, rfl, rfl⟩
  · have hlen : items.length ≤ 32 := by simpa [items] using (popItems_only l core e 32 s []).2
    have hplace := gangPlaced_grp (firedBin s l core e) l c slot e core ps off items (canStart_length hs) hi
    rw [htid] at hplace
    obtain ⟨h1, h2, h3, h4, h5, h6, h7, h8, h9, htx⟩ := startGroup_fields l r isL tid i (nthD 0 (rowRoles r) i) (nthD 0 ps i) off items
    have hgrp := fun a0 a1 => (traceRec_grp _ (dieOf core) core c 3 a0 a1 (by rw [hplace]; exact htx)).trans hplace
    obtain ⟨hs1, hs2, hs3, hs4⟩ := startGroup_sreg l r isL tid i (nthD 0 (rowRoles r) i) (nthD 0 ps i) off items
    rw [gangStart_eq, hgrp]
    refine ⟨h1, h2, h3, h4, h5, h6, h7, h8, h9, hs1, hs2, hs3, hs4, fun j m hj hm => ?_, fun j hj => ?_, startGroup_lanes _ _ _ _ _ _ _ _ _ hlen⟩
    · exact (startGroup_velem _ _ _ _ _ _ _ _ _ hlen (by omega) hj).trans (if_pos hm)
    · exact startGroup_velem _ _ _ _ _ _ _ _ _ hlen (by omega) hj
end

section
/-! The encoding is read back (R77 to R93, R126, R128): the fields of a word, the S-words, the V-words by their shapes, and the parcels as bytes. -/
namespace Sys2Proof

@[simp] theorem need_true (e : DecErr) : need true e = .ok () := rfl
@[simp] theorem dec_ok_bind {α β : Type} (a : α) (f : α → Dec β) : (Except.ok a >>= f) = f a := rfl

theorem checked_of_wellFormed {i : Instr} (h : i.wellFormed = true) : checked i = .ok i := if_pos h

theorem bitAt_eq {w k : Nat} {b : Bool} (h : w / 2 ^ k % 2 = b.toNat) : bitAt w k = b := by cases b <;> simp [bitAt, h]

/-- A 96-bit word whose top parcel starts a V-word (its major is 192 or more, R91) and which reads as a V-word instruction. -/
def VWord (w : Nat) (i : Instr) : Prop := w < 2 ^ 96 ∧ 192 * 2 ^ 88 ≤ w ∧ decodeV w = .ok i

/-- The fields of an encoded V-word are those it was made of. -/
theorem vf_of_encV {maj mi ty d a b c x : Nat} {h : VH} (hm : maj < 256) (hmi : mi < 16) (hh : h.ok = true) (ht : ty < 16) (hd : d < 1024)
    (ha : a < 1024) (hb : b < 1024) (hc : c < 1024) (hx : x < 2 ^ 32) :
    VF.of (encV maj mi h ty d a b c x) = ⟨maj, ty, d, h.n, h.g, h.gs, a, b, c, mi, x⟩ := by
  simp only [VH.ok, Bool.and_eq_true, decide_eq_true_eq] at hh
  obtain ⟨⟨hg, hgs⟩, -⟩ := hh
  have hn := h.n.toNat_lt
  simp only [VF.of, VF.mk.injEq, bits, encV]
  refine ⟨?_, ?_, ?_, bitAt_eq ?_, ?_, ?_, ?_, ?_, ?_, ?_, ?_⟩ <;> omega

theorem vWord_encV {maj mi ty d a b c x : Nat} {h : VH} {i : Instr} (hm : 192 ≤ maj ∧ maj < 256) (hmi : mi < 16) (hh : h.ok = true) (ht : ty < 16) (hd : d < 1024)
    (ha : a < 1024) (hb : b < 1024) (hc : c < 1024) (hx : x < 2 ^ 32)
    (hdec : ∀ w y, y = x → VF.of w = ⟨maj, ty, d, h.n, h.g, h.gs, a, b, c, mi, y⟩ → decodeV w = .ok i) : VWord (encV maj mi h ty d a b c x) i := by
  refine ⟨?_, ?_, hdec _ _ rfl (vf_of_encV hm.2 hmi hh ht hd ha hb hc hx)⟩
  all_goals
    simp only [VH.ok, Bool.and_eq_true, decide_eq_true_eq] at hh
    obtain ⟨⟨hg, hgs⟩, -⟩ := hh
    have hn := h.n.toNat_lt
    simp only [encV]
    omega

@[simp] theorem Ty.ofCode_code (t : Ty) : Ty.ofCode t.code = .ok t := by cases t <;> rfl
theorem Ty.code_lt (t : Ty) : t.code < 16 := by cases t <;> decide
theorem Opnd.code_lt {o : Opnd} (h : o.ok = true) : o.code < 1024 := by
  cases o <;> simp_all [Opnd.ok, Opnd.code] <;> omega
theorem Opnd.ofCode_code {o : Opnd} (h : o.ok = true) : Opnd.ofCode o.code = .ok o := by
  cases o with
  | v k => exact if_pos (of_decide_eq_true h)
  | s k =>
    have hk : k < 128 := of_decide_eq_true h
    simp [Opnd.ofCode, Opnd.code, show 768 + k < 896 by omega]
  | b k => 
    have hk : k < 4 := of_decide_eq_true h
    simp [Opnd.ofCode, Opnd.code, show ¬ 896 + k < 768 by omega, show 896 + k < 900 by omega]
  | zero | lane | grp | stage => rfl
theorem vreg_of_lt {d : Nat} (h : d < 768) : vreg d = .ok d := if_pos h
theorem sreg_add {k : Nat} (h : k < 128) : sreg (768 + k) = .ok k := by simp [sreg]; omega
@[simp] theorem unused_900 : unused 900 = .ok () := rfl
@[simp] theorem xzero_zero : xzero 0 = .ok () := rfl

theorem Opnd.ok_of_srcOk {t : Ty} {o : Opnd} (h : o.srcOk t = true) : o.ok = true := by
  simp only [Opnd.srcOk, Bool.and_eq_true] at h
  exact h.1.1
theorem Opnd.ok_of_addrOk {o : Opnd} (h : o.addrOk = true) : o.ok = true := by
  cases o with
  | v k | s k => exact h
  | b k | lane | grp | stage => cases h
  | zero => rfl

theorem lt_of_vdstOk {t : Ty} {d : Nat} (h : vdstOk t d = true) : d < 768 := by
  simp only [vdstOk, Bool.and_eq_true, decide_eq_true_eq] at h
  exact h.1

@[simp] theorem VF.h_mk (maj ty d a b c mi x : Nat) (h : VH) : VF.h ⟨maj, ty, d, h.n, h.g, h.gs, a, b, c, mi, x⟩ = h := rfl
theorem VH.ok_of_okNoN {h : VH} (hh : h.okNoN = true) : h.ok = true := (Bool.and_eq_true_iff.1 hh).1

section
variable {tys : Ty → Bool} {h : VH} {t : Ty} {d : Nat} {a b c : Opnd}
theorem bounds_of_v1ok (hw : v1ok tys h t d a = true) : h.ok = true ∧ d < 768 ∧ a.ok = true := by
  simp only [v1ok, Bool.and_eq_true] at hw
  obtain ⟨⟨⟨hh, -⟩, hd⟩, ha⟩ := hw
  exact ⟨hh, lt_of_vdstOk hd, Opnd.ok_of_srcOk ha⟩
theorem bounds_of_v2ok (hw : v2ok tys h t d a b = true) : h.ok = true ∧ d < 768 ∧ a.ok = true ∧ b.ok = true := by
  simp only [v2ok, Bool.and_eq_true] at hw
  obtain ⟨⟨⟨⟨hh, -⟩, hd⟩, ha⟩, hb⟩ := hw
  exact ⟨hh, lt_of_vdstOk hd, Opnd.ok_of_srcOk ha, Opnd.ok_of_srcOk hb⟩
theorem bounds_of_v3ok (hw : v3ok tys h t d a b c = true) : h.ok = true ∧ d < 768 ∧ a.ok = true ∧ b.ok = true ∧ c.ok = true := by
  simp only [v3ok, Bool.and_eq_true] at hw
  obtain ⟨⟨⟨⟨⟨hh, -⟩, hd⟩, ha⟩, hb⟩, hc⟩ := hw
  exact ⟨hh, lt_of_vdstOk hd, Opnd.ok_of_srcOk ha, Opnd.ok_of_srcOk hb, Opnd.ok_of_srcOk hc⟩
end

/-- The fields of a memory X word fit their bits (R87). -/
def MemX.fits (x : MemX) : Prop := x.stream < 16 ∧ x.scope < 8 ∧ x.order < 8 ∧ x.hint < 8 ∧ x.form < 8

theorem MemX.fits_of_ok {x : MemX} {order hint : Nat → Bool} {top : Nat} {t : Ty} (h : x.ok order top hint t = true) (ho : ∀ o, order o = true → o < 8)
    (hh : ∀ k, hint k = true → k < 8) (ht : top < 8) : x.fits := by
  simp only [MemX.ok, scopeOk, formOk, Bool.and_eq_true, Bool.or_eq_true, decide_eq_true_eq, beq_iff_eq] at h
  obtain ⟨⟨⟨⟨hs, hord⟩, hscope, -⟩, hhint⟩, hform⟩ := h
  exact ⟨hs, by omega, ho _ hord, hh _ hhint, by omega⟩

theorem MemX.word_lt {x : MemX} (h : x.fits) : x.word < 2 ^ 32 := by
  obtain ⟨h1, h2, h3, h4, h5⟩ := h
  have := x.off.isLt
  simp only [MemX.word]
  omega

theorem memX_word {x : MemX} (h : x.fits) : memX x.word = x := by
  obtain ⟨h1, h2, h3, h4, h5⟩ := h
  have := x.off.isLt
  cases x with | mk st sc o hi fo off =>
  simp only [memX, MemX.word, bits, MemX.mk.injEq] at *
  refine ⟨by omega, by omega, by omega, by omega, by omega, BitVec.eq_of_toNat_eq ?_⟩
  simp only [BitVec.toNat_ofNat]
  omega

section
variable {maj mi : Nat} {h : VH} {t : Ty} {d : Nat} {a b c : Opnd} (hm : 192 ≤ maj ∧ maj < 256) (hmi : mi < 16)
include hm hmi

theorem vWord_shape1 {k : VH → Ty → Nat → Opnd → Instr} (hb : h.ok = true ∧ d < 768 ∧ a.ok = true)
    (hc : checked (k h t d a) = .ok (k h t d a)) (hdec : ∀ w, (VF.of w).maj = maj → (VF.of w).mi = mi → decodeV w = shape1 (VF.of w) k) :
    VWord (encV maj mi h t.code d a.code 900 900 0) (k h t d a) := by
  obtain ⟨hh, hd, ha⟩ := hb
  refine vWord_encV hm hmi hh t.code_lt (by omega) (Opnd.code_lt ha) (by decide) (by decide) (by decide) fun w y hy hf => ?_
  subst hy
  rw [hdec w (by rw [hf]) (by rw [hf]), hf]
  simp [shape1, vreg_of_lt hd, Opnd.ofCode_code ha, hc]

theorem vWord_shape2 {k : VH → Ty → Nat → Opnd → Opnd → Instr} (hb : h.ok = true ∧ d < 768 ∧ a.ok = true ∧ b.ok = true)
    (hc : checked (k h t d a b) = .ok (k h t d a b)) (hdec : ∀ w, (VF.of w).maj = maj → (VF.of w).mi = mi → decodeV w = shape2 (VF.of w) k) :
    VWord (encV maj mi h t.code d a.code b.code 900 0) (k h t d a b) := by
  obtain ⟨hh, hd, ha, hb⟩ := hb
  refine vWord_encV hm hmi hh t.code_lt (by omega) (Opnd.code_lt ha) (Opnd.code_lt hb) (by decide) (by decide) fun w y hy hf => ?_
  subst hy
  rw [hdec w (by rw [hf]) (by rw [hf]), hf]
  simp [shape2, vreg_of_lt hd, Opnd.ofCode_code ha, Opnd.ofCode_code hb, hc]

theorem vWord_shape3 {k : VH → Ty → Nat → Opnd → Opnd → Opnd → Instr} (hb : h.ok = true ∧ d < 768 ∧ a.ok = true ∧ b.ok = true ∧ c.ok = true)
    (hc : checked (k h t d a b c) = .ok (k h t d a b c)) (hdec : ∀ w, (VF.of w).maj = maj → (VF.of w).mi = mi → decodeV w = shape3 (VF.of w) k) :
    VWord (encV maj mi h t.code d a.code b.code c.code 0) (k h t d a b c) := by
  obtain ⟨hh, hd, ha, hb, hcc⟩ := hb
  refine vWord_encV hm hmi hh t.code_lt (by omega) (Opnd.code_lt ha) (Opnd.code_lt hb) (Opnd.code_lt hcc) (by decide) fun w y hy hf => ?_
  subst hy
  rw [hdec w (by rw [hf]) (by rw [hf]), hf]
  simp [shape3, vreg_of_lt hd, Opnd.ofCode_code ha, Opnd.ofCode_code hb, Opnd.ofCode_code hcc, hc]

theorem vWord_load {k : VH → Ty → MemX → Nat → Opnd → Instr} {x : MemX} (hx : x.fits) (hh : h.ok = true) (hd : vdstOk t d = true)
    (ha : a.addrOk = true) (hc : checked (k h t x d a) = .ok (k h t x d a))
    (hdec : ∀ w, (VF.of w).maj = maj → (VF.of w).mi = mi → memX (VF.of w).x = x → decodeV w = shapeLoad (VF.of w) k) :
    VWord (encV maj mi h t.code d a.code 900 900 x.word) (k h t x d a) := by
  have hd := lt_of_vdstOk hd
  have ha := Opnd.ok_of_addrOk ha
  refine vWord_encV hm hmi hh t.code_lt (by omega) (Opnd.code_lt ha) (by decide) (by decide) (MemX.word_lt hx) fun w y hy hf => ?_
  subst hy
  rw [hdec w (by rw [hf]) (by rw [hf]) (by rw [hf]; exact memX_word hx), hf]
  simp [shapeLoad, vreg_of_lt hd, Opnd.ofCode_code ha, memX_word hx, hc]

theorem vWord_store {k : VH → Ty → MemX → Opnd → Opnd → Instr} {x : MemX} (hx : x.fits) (hh : h.okNoN = true) (ha : a.addrOk = true) (hb : b.srcOk t = true)
    (hc : checked (k h t x a b) = .ok (k h t x a b))
    (hdec : ∀ w, (VF.of w).maj = maj → (VF.of w).mi = mi → decodeV w = shapeStore (VF.of w) k) :
    VWord (encV maj mi h t.code 900 a.code b.code 900 x.word) (k h t x a b) := by
  have ha := Opnd.ok_of_addrOk ha
  have hb := Opnd.ok_of_srcOk hb
  refine vWord_encV hm hmi (VH.ok_of_okNoN hh) t.code_lt (by decide) (Opnd.code_lt ha) (Opnd.code_lt hb) (by decide) (MemX.word_lt hx) fun w y hy hf => ?_
  subst hy
  rw [hdec w (by rw [hf]) (by rw [hf]), hf]
  simp [shapeStore, Opnd.ofCode_code ha, Opnd.ofCode_code hb, memX_word hx, hc]

theorem vWord_touch {k : VH → MemX → Opnd → Instr} {x : MemX} (hx : x.fits) (hh : h.okNoN = true) (ha : a.addrOk = true)
    (hc : checked (k h x a) = .ok (k h x a)) (hdec : ∀ w, (VF.of w).maj = maj → (VF.of w).mi = mi → decodeV w = shapeTouch (VF.of w) k) :
    VWord (encV maj mi h Ty.b64.code 900 a.code 900 900 x.word) (k h x a) := by
  have ha := Opnd.ok_of_addrOk ha
  refine vWord_encV hm hmi (VH.ok_of_okNoN hh) Ty.b64.code_lt (by decide) (Opnd.code_lt ha) (by decide) (by decide) (MemX.word_lt hx) fun w y hy hf => ?_
  subst hy
  rw [hdec w (by rw [hf]) (by rw [hf]), hf]
  simp [shapeTouch, tyIs, Ty.code, Opnd.ofCode_code ha, memX_word hx, hc]

end

theorem lt_of_redOk {op : Nat} {t : Ty} (h : redOk op t = true) : op < 8 := by
  by_contra hge
  obtain ⟨k, rfl⟩ := Nat.exists_eq_add_of_le (Nat.le_of_not_lt hge)
  rw [Nat.add_comm] at h
  cases h

theorem lt_of_cvtFmtOk {f : Nat} (h : cvtFmtOk f = true) : f < 32 := by
  simp only [cvtFmtOk, Bool.or_eq_true, Bool.and_eq_true, decide_eq_true_eq] at h
  omega

theorem cvtCount_bounds (f : Nat) : 1 ≤ cvtCount f ∧ cvtCount f ≤ 8 := by
  unfold cvtCount
  split <;> decide

theorem lt_of_cvtPartOk {df sf part : Nat} (h : cvtPartOk df sf part = true) : part < 8 := by
  obtain ⟨hs, hs8⟩ := cvtCount_bounds sf
  obtain ⟨hd, hd8⟩ := cvtCount_bounds df
  have h1 : cvtCount sf / cvtCount df ≤ cvtCount sf := Nat.div_le_self _ _
  have h2 : cvtCount df / cvtCount sf ≤ cvtCount df := Nat.div_le_self _ _
  simp only [cvtPartOk] at h
  split_ifs at h <;> simp at h <;> omega

theorem vWord_encQ {maj mi pd pa pb sub x : Nat} {h : VH} {i : Instr} (hx : x = sub * 2 ^ 12 + pb * 2 ^ 8 + pa * 2 ^ 4 + pd) (hm : 192 ≤ maj ∧ maj < 256) (hmi : mi < 16) (hh : h.okNoN = true) (hd : pd < 16) (ha : pa < 16)
    (hb : pb < 16) (hs : sub < 4)
    (hdec : ∀ w y, VF.of w = ⟨maj, 4, 900, h.n, h.g, h.gs, 900, 900, 900, mi, y⟩ → bits y 31 14 = 0 → bits y 3 0 = pd → bits y 7 4 = pa →
      bits y 11 8 = pb → bits y 13 12 = sub → decodeV w = .ok i) :
    VWord (encV maj mi h 4 900 900 900 900 x) i := by
  refine vWord_encV hm hmi (VH.ok_of_okNoN hh) (by decide) (by decide) (by decide) (by decide) (by decide) (by omega) fun w y hy hf =>
    hdec w y hf ?_ ?_ ?_ ?_ ?_ <;> simp only [bits] <;> omega

theorem rowField_eq {f : VF} {row : Nat ⊕ Nat} (hr : rowOk row = true) (hb : f.b = (rowCode row).1) (hx : bits f.x 22 0 = (rowCode row).2) :
    rowField f = .ok row := by
  cases row with
  | inl r =>
    have hr : r < 64 := of_decide_eq_true hr
    have h1 : bits f.x 22 7 = 0 := by simp only [bits, rowCode] at hx ⊢; omega
    have h2 : bitAt f.x 6 = false := bitAt_eq (by simp only [bits, rowCode] at hx; simp; omega)
    have h3 : bits f.x 5 0 = r := by simp only [bits, rowCode] at hx ⊢; omega
    simp [rowField, h1, h2, h3, hb, rowCode]
  | inr k =>
    have hr : k < 128 := of_decide_eq_true hr
    have h1 : bits f.x 22 7 = 0 := by simp only [bits, rowCode] at hx ⊢; omega
    have h2 : bitAt f.x 6 = true := bitAt_eq (by simp only [bits, rowCode] at hx; simp; omega)
    have h3 : bits f.x 5 0 = 0 := by simp only [bits, rowCode] at hx ⊢; omega
    simp [rowField, h1, h2, h3, hb, rowCode, sreg_add hr, Except.map]

theorem rowCode_lt {row : Nat ⊕ Nat} (hr : rowOk row = true) : (rowCode row).1 < 1024 ∧ (rowCode row).2 < 128 := by
  cases row <;> simp [rowOk, rowCode] at * <;> omega

theorem mopnd_mopndCode {src : Bool} {k : Nat} (h : mopndOk src k = true) : mopnd src (mopndCode src k) = .ok k ∧ mopndCode src k < 1024 := by
  cases src <;> simp [mopndOk] at h <;> simp [mopnd, mopndCode]
  · exact ⟨vreg_of_lt h.1, by omega⟩
  · exact ⟨sreg_add (by omega), by omega⟩

theorem lt_of_mfmtOk {a b : Nat} (h : mfmtOk a b = true) : a < 8 ∧ b < 8 := by
  simp only [mfmtOk, Bool.or_eq_true, Bool.and_eq_true, decide_eq_true_eq, beq_iff_eq] at h
  omega

theorem mfmtMode_lt (f : Nat) : (mfmtMode f).1 < 4 ∧ (mfmtMode f).2 < 16 := by
  unfold mfmtMode
  split_ifs <;> decide

theorem lt_of_redopOk {r : Nat} {t : Ty} (h : redopOk r t = true) : r < 8 := by
  by_contra hge
  obtain ⟨k, rfl⟩ := Nat.exists_eq_add_of_le (Nat.le_of_not_lt hge)
  rw [Nat.add_comm] at h
  cases h

theorem lt_of_aopOk {r : Nat} {t : Ty} (h : aopOk r t = true) : r < 8 := by
  by_contra hge
  obtain ⟨k, rfl⟩ := Nat.exists_eq_add_of_le (Nat.le_of_not_lt hge)
  rw [Nat.add_comm] at h
  cases h

theorem lt_of_loadOrder {o : Nat} (h : loadOrder o = true) : o < 8 := by
  simp only [loadOrder, Bool.or_eq_true, beq_iff_eq] at h
  omega

theorem lt_of_storeOrder {o : Nat} (h : storeOrder o = true) : o < 8 := by
  simp only [storeOrder, Bool.or_eq_true, beq_iff_eq] at h
  omega

theorem lt_of_loadHint {o k : Nat} (h : loadHint o k = true) : k < 8 := by
  simp only [loadHint, Bool.or_eq_true, Bool.and_eq_true, beq_iff_eq] at h
  omega

theorem lt_of_storeHint {k : Nat} (h : storeHint k = true) : k < 8 := by
  simp only [storeHint, Bool.or_eq_true, beq_iff_eq] at h
  omega

theorem lt_of_pfchHint {k : Nat} (h : pfchHint k = true) : k < 8 := by
  simp only [pfchHint, Bool.or_eq_true, beq_iff_eq] at h
  omega

theorem hint_of_plainOk {x : MemX} {t : Ty} {k : Nat} (h : x.plainOk (· == k) t = true) : x.hint = k := by
  simp only [MemX.plainOk, MemX.ok, Bool.and_eq_true, beq_iff_eq] at h
  exact h.1.2

theorem bounds_of_atomOk {t : Ty} {x : MemX} {d a b c : Opnd} (h : atomOk t x d a b c = true) :
    x.fits ∧ d.ok = true ∧ a.ok = true ∧ b.ok = true ∧ c.ok = true := by
  simp only [atomOk, scopeOk, Bool.and_eq_true, Bool.or_eq_true, decide_eq_true_eq] at h
  obtain ⟨⟨⟨⟨⟨⟨⟨⟨⟨hs, ho⟩, hsc, -⟩, hh⟩, haop⟩, ha⟩, hb⟩, hc⟩, -⟩, hd⟩ := h
  refine ⟨⟨hs, by omega, by omega, by omega, lt_of_aopOk haop⟩, ?_, Opnd.ok_of_addrOk ha, Opnd.ok_of_srcOk hb, Opnd.ok_of_srcOk hc⟩
  cases d with
  | v k => exact decide_eq_true (lt_of_vdstOk hd)
  | s k =>
    simp only [Bool.and_eq_true, decide_eq_true_eq] at hd
    exact decide_eq_true (by omega)
  | zero => rfl
  | b k | lane | grp | stage => cases hd

theorem decodeV_vbcast {h : VH} {t : Ty} {d a : Opnd} {src w : Nat} {sel : Option Nat} (hw : (Instr.vbcast h t d a src sel).wellFormed = true)
    (he : encodeV (.vbcast h t d a src sel) = some w) : VWord w (.vbcast h t d a src sel) := by
  have hc := checked_of_wellFormed hw
  unfold Instr.wellFormed at hw
  simp only [Bool.and_eq_true, decide_eq_true_eq] at hw
  obtain ⟨⟨⟨⟨⟨⟨hh, -⟩, ha⟩, hsrc⟩, -⟩, hsel⟩, hd⟩ := hw
  have ha := Opnd.ok_of_srcOk ha
  have hd : d.ok = true := by
    cases d with
    | v k => exact hd
    | s k => exact (Bool.and_eq_true_iff.1 hd).1
    | b k | zero | lane | grp | stage => cases hd
  cases sel with
  | none =>
    cases he
    refine vWord_encV (by decide) (by decide) hh t.code_lt (Opnd.code_lt hd) (Opnd.code_lt ha) (by decide) (by decide) (by omega) fun w y hy hf => ?_
    have h1 : bits y 31 6 = 0 := by simp only [bits]; omega
    have h2 : bitAt y 5 = false := bitAt_eq (by simp; omega)
    have h3 : bits y 4 0 = src := by simp only [bits]; omega
    unfold decodeV; simp [hf, decodeLane, h1, h2, h3, Opnd.ofCode_code hd, Opnd.ofCode_code ha, hc]
  | some b =>
    have hb : b < 128 := of_decide_eq_true hsel
    cases he
    refine vWord_encV (by decide) (by decide) hh t.code_lt (Opnd.code_lt hd) (Opnd.code_lt ha) (by omega) (by decide) (by omega) fun w y hy hf => ?_
    have h1 : bits y 31 6 = 0 := by simp only [bits]; omega
    have h2 : bitAt y 5 = true := bitAt_eq (by simp; omega)
    have h3 : bits y 4 0 = src := by simp only [bits]; omega
    unfold decodeV; simp [hf, decodeLane, h1, h2, h3, Opnd.ofCode_code hd, Opnd.ofCode_code ha, sreg_add hb, hc]

theorem mloopC_lt {c : Option Nat} (h : c.all (· < 128) = true) : (match c with | none => 900 | some k => 768 + k) < 1024 := by
  cases c with
  | none => decide
  | some k =>
    have hk : k < 128 := of_decide_eq_true h
    dsimp only
    omega

theorem decodeV_mloop {f : MloopF} {w : Nat} (hw : (Instr.mloop f).wellFormed = true) (he : encodeV (.mloop f) = some w) : VWord w (.mloop f) := by
  have hc := checked_of_wellFormed hw
  unfold Instr.wellFormed at hw
  simp only [Bool.and_eq_true, decide_eq_true_eq] at hw
  obtain ⟨⟨⟨⟨⟨⟨hs, ht⟩, hm⟩, hk⟩, ha⟩, hb⟩, hcc⟩ := hw
  obtain ⟨haf, hbf⟩ := lt_of_mfmtOk hm
  obtain ⟨ha, ha'⟩ := mopnd_mopndCode ha
  obtain ⟨hb, hb'⟩ := mopnd_mopndCode hb
  obtain ⟨hmode, hty⟩ := mfmtMode_lt f.afmt
  have b1 := f.asrc.toNat_lt
  have b2 := f.bsrc.toNat_lt
  have b3 := f.pair.toNat_lt
  cases he
  refine vWord_encV (by decide) (by decide) rfl hty (by decide) ha' hb' (mloopC_lt hcc) (by simp only [stTile]; omega) fun w y hy hf => ?_
  simp only [stTile] at hy
  have h1 : bits y 31 28 = f.stream := by simp only [bits]; omega
  have h2 : bits y 27 23 = f.tile := by simp only [bits]; omega
  have h3 : bits y 22 20 = f.afmt := by simp only [bits]; omega
  have h4 : bits y 19 17 = f.bfmt := by simp only [bits]; omega
  have h5 : bitAt y 16 = f.asrc := bitAt_eq (by omega)
  have h6 : bitAt y 15 = f.bsrc := bitAt_eq (by omega)
  have h7 : bitAt y 14 = f.pair := bitAt_eq (by omega)
  have h8 : bits y 13 12 = (mfmtMode f.afmt).1 := by simp only [bits]; omega
  have h9 : bits y 11 0 = f.ksteps := by simp only [bits]; omega
  unfold decodeV
  simp only [hf, decodeMatrix, decodeMloop, noGuard, VH.plain, h1, h2, h3, h4, h5, h6, h7, h8, h9, ha, hb]
  cases f with | mk st tile af bf asrc bsrc pair ks a b c =>
  cases c with
  | none => simp [hc]
  | some k =>
    have hk : k < 128 := of_decide_eq_true hcc
    simp [hc, show 768 + k ≠ 900 by omega, sreg_add hk, Except.map]

theorem decodeV_encodeV {i : Instr} {w : Nat} (hw : i.wellFormed = true) (he : encodeV i = some w) : VWord w i := by
  have hc := checked_of_wellFormed hw
  cases i
  case vbcast h t d a src sel => exact decodeV_vbcast hw he
  case mloop f => exact decodeV_mloop hw he
  all_goals cases he <;> (unfold Instr.wellFormed at hw; simp only [Bool.and_eq_true, Bool.or_eq_true, decide_eq_true_eq] at hw)
  case vadd.refl h t d a b | vsub.refl h t d a b | vmul.refl h t d a b | vmulh.refl h t d a b | vdiv.refl h t d a b | vrem.refl h t d a b
      | vmin.refl h t d a b | vmax.refl h t d a b | vand.refl h t d a b | vor.refl h t d a b | vxor.refl h t d a b | vshl.refl h t d a b
      | vshr.refl h t d a b | vsra.refl h t d a b | xadd.refl h t d a b | xsub.refl h t d a b | xmul.refl h t d a b | xdiv.refl h t d a b
      | xmin.refl h t d a b | xmax.refl h t d a b | xhull.refl h t d a b | xmeet.refl h t d a b | xmake.refl h t d a b | vshfIdx.refl h t d a b =>
    exact vWord_shape2 (by decide) (by decide) (bounds_of_v2ok hw) hc fun w h1 h2 => by unfold decodeV; simp [h1, h2, decodeLane]
  case vabs.refl h t d a | vneg.refl h t d a | vclz.refl h t d a | vpop.refl h t d a | vnot.refl h t d a | vmov.refl h t d a | xrecip.refl h t d a
      | xsqr.refl h t d a | xsqrt.refl h t d a | xabs.refl h t d a | xneg.refl h t d a | xexp.refl h t d a | xexp2.refl h t d a | xlog.refl h t d a
      | xlog2.refl h t d a | xsin.refl h t d a | xcos.refl h t d a | xtanh.refl h t d a | xmid.refl h t d a | xrad.refl h t d a
      | xwid.refl h t d a | xlo.refl h t d a | xhi.refl h t d a =>
    exact vWord_shape1 (by decide) (by decide) (bounds_of_v1ok hw) hc fun w h1 h2 => by unfold decodeV; simp [h1, h2]
  case xcls.refl h t d a =>
    obtain ⟨⟨⟨hh, -⟩, hd⟩, ha⟩ := hw
    exact vWord_shape1 (by decide) (by decide) ⟨hh, hd, Opnd.ok_of_srcOk ha⟩ hc fun w h1 h2 => by unfold decodeV; simp [h1, h2]
  case vmad.refl h t d a b c | xfma.refl h t d a b c =>
    exact vWord_shape3 (by decide) (by decide) (bounds_of_v3ok hw) hc fun w h1 h2 => by unfold decodeV; simp [h1, h2]
  case vsel.refl h t d a b c p =>
    obtain ⟨hw, hp⟩ := hw
    obtain ⟨hh, hd, ha, hb, hcc⟩ := bounds_of_v3ok hw
    refine vWord_encV (by decide) (by decide) hh t.code_lt (by omega) (Opnd.code_lt ha) (Opnd.code_lt hb) (Opnd.code_lt hcc) (by omega) fun w y hy hf => ?_
    have h1 : bits y 31 4 = 0 := by simp only [bits]; omega
    have h2 : bits y 3 0 = p := by simp only [bits]; omega
    unfold decodeV; simp [hf, h1, h2, vreg_of_lt hd, Opnd.ofCode_code ha, Opnd.ofCode_code hb, Opnd.ofCode_code hcc, hc]
  case vbfe.refl h t d a pos len | vbfi.refl h t d a pos len =>
    obtain ⟨hw, hf⟩ := hw
    obtain ⟨hh, hd, ha⟩ := bounds_of_v1ok hw
    simp only [bfOk, Bool.and_eq_true, decide_eq_true_eq] at hf
    obtain ⟨⟨⟨hp, -⟩, hl⟩, -⟩ := hf
    refine vWord_encV (by decide) (by decide) hh t.code_lt (by omega) (Opnd.code_lt ha) (by decide) (by decide) (by omega) fun w y hy hf => ?_
    have h1 : bits y 31 15 = 0 := by simp only [bits]; omega
    have h2 : bits y 7 6 = 0 := by simp only [bits]; omega
    have h3 : bits y 5 0 = pos := by simp only [bits]; omega
    have h4 : bits y 14 8 = len := by simp only [bits]; omega
    unfold decodeV; simp [hf, h1, h2, h3, h4, vreg_of_lt hd, Opnd.ofCode_code ha, hc]
  case vmovi.refl h t d x =>
    obtain ⟨⟨hh, -⟩, hd⟩ := hw
    refine vWord_encV (by decide) (by decide) hh t.code_lt (by omega) (by decide) (by decide) (by decide) x.isLt fun w y hy hf => ?_
    unfold decodeV; simp [hf, hy, vreg_of_lt hd, hc]
  case vidxRead.refl h t d j off =>
    obtain ⟨⟨⟨⟨hh, -⟩, hd⟩, hj⟩, ho⟩ := hw
    refine vWord_encV (by decide) (by decide) hh t.code_lt (by omega) (by decide) (by decide) (by decide) (by omega) fun w y hy hf => ?_
    have h1 : bits y 31 14 = 0 := by simp only [bits]; omega
    have h2 : bitAt y 3 = false := bitAt_eq (by simp; omega)
    have h3 : bitAt y 2 = false := bitAt_eq (by simp; omega)
    have h4 : bits y 1 0 = j := by simp only [bits]; omega
    have h5 : bits y 13 4 = off := by simp only [bits]; omega
    unfold decodeV; simp [hf, h1, h2, h3, h4, h5, vreg_of_lt hd, hc]
  case vidxWrite.refl h t j off a =>
    obtain ⟨⟨⟨⟨hh, -⟩, hj⟩, ho⟩, ha⟩ := hw
    have ha := Opnd.ok_of_srcOk ha
    refine vWord_encV (by decide) (by decide) (VH.ok_of_okNoN hh) t.code_lt (by decide) (Opnd.code_lt ha) (by decide) (by decide) (by omega) fun w y hy hf => ?_
    have h1 : bits y 31 14 = 0 := by simp only [bits]; omega
    have h2 : bitAt y 3 = false := bitAt_eq (by simp; omega)
    have h3 : bitAt y 2 = true := bitAt_eq (by simp; omega)
    have h4 : bits y 1 0 = j := by simp only [bits]; omega
    have h5 : bits y 13 4 = off := by simp only [bits]; omega
    unfold decodeV; simp [hf, h1, h2, h3, h4, h5, Opnd.ofCode_code ha, hc]
  case vcmp.refl h t p c a b =>
    obtain ⟨⟨⟨⟨⟨⟨hh, -⟩, hp⟩, hcnd⟩, -⟩, ha⟩, hb⟩ := hw
    have ha := Opnd.ok_of_srcOk ha
    have hb := Opnd.ok_of_srcOk hb
    refine vWord_encV (by decide) (by decide) (VH.ok_of_okNoN hh) t.code_lt (by decide) (Opnd.code_lt ha) (Opnd.code_lt hb) (by decide) (by omega) fun w y hy hf => ?_
    have h1 : bits y 31 8 = 0 := by simp only [bits]; omega
    have h2 : bits y 3 0 = p := by simp only [bits]; omega
    have h3 : bits y 7 4 = c := by simp only [bits]; omega
    unfold decodeV; simp [hf, h1, h2, h3, Opnd.ofCode_code ha, Opnd.ofCode_code hb, hc]
  case xcmp.refl h t p c a b =>
    obtain ⟨⟨⟨⟨⟨hh, -⟩, hp⟩, hcnd⟩, ha⟩, hb⟩ := hw
    have ha := Opnd.ok_of_srcOk ha
    have hb := Opnd.ok_of_srcOk hb
    refine vWord_encV (by decide) (by decide) (VH.ok_of_okNoN hh) t.code_lt (by decide) (Opnd.code_lt ha) (Opnd.code_lt hb) (by decide) (by omega) fun w y hy hf => ?_
    have h1 : bits y 31 8 = 0 := by simp only [bits]; omega
    have h2 : bits y 3 0 = p := by simp only [bits]; omega
    have h3 : bits y 7 4 = c := by simp only [bits]; omega
    unfold decodeV; simp [hf, h1, h2, h3, Opnd.ofCode_code ha, Opnd.ofCode_code hb, hc]
  case xdec.refl h op dec =>
    obtain ⟨⟨hh, ho⟩, hd⟩ := hw
    refine vWord_encV (by decide) (by decide) (VH.ok_of_okNoN hh) (by decide) (by decide) (by decide) (by decide) (by decide) (by omega) fun w y hy hf => ?_
    have h1 : bits y 31 4 = 0 := by simp only [bits]; omega
    have h2 : bits y 3 2 = op := by simp only [bits]; omega
    have h3 : bits y 1 0 = dec := by simp only [bits]; omega
    unfold decodeV; simp [hf, tyIs, allUnused, h1, h2, h3, hc]
  case xbis.refl h t d a u pen p =>
    obtain ⟨⟨⟨hw, hp⟩, -⟩, -⟩ := hw
    obtain ⟨hh, hd, ha⟩ := bounds_of_v1ok hw
    have hu := u.toNat_lt
    have hb := pen.toNat_lt
    refine vWord_encV (by decide) (by decide) hh t.code_lt (by omega) (Opnd.code_lt ha) (by decide) (by decide) (by omega) fun w y hy hf => ?_
    have h1 : bits y 31 6 = 0 := by simp only [bits]; omega
    have h2 : bitAt y 0 = u := bitAt_eq (by omega)
    have h3 : bitAt y 1 = pen := bitAt_eq (by omega)
    have h4 : bits y 5 2 = p := by simp only [bits]; omega
    unfold decodeV; simp [hf, h1, h2, h3, h4, vreg_of_lt hd, Opnd.ofCode_code ha, hc]
  case qand.refl h pd pa pb | qor.refl h pd pa pb | qxor.refl h pd pa pb =>
    obtain ⟨⟨⟨hh, hd⟩, ha⟩, hb⟩ := hw
    refine vWord_encQ rfl (by decide) (by decide) hh hd ha hb (by decide) fun w y hf h1 h2 h3 h4 h5 => ?_
    unfold decodeV; simp [hf, decodePred, shapeQ, tyIs, h1, h2, h3, h4, h5, hc]
  case qnot.refl h pd pa | qmov.refl h pd pa =>
    obtain ⟨⟨hh, hd⟩, ha⟩ := hw
    refine vWord_encQ rfl (by decide) (by decide) hh hd ha (by decide) (by decide) fun w y hf h1 h2 h3 h4 h5 => ?_
    unfold decodeV; simp [hf, decodePred, shapeQ, tyIs, h1, h2, h3, h4, h5, hc]
  case qset.refl h pd v =>
    obtain ⟨⟨hh, hd⟩, hv⟩ := hw
    refine vWord_encQ rfl (by decide) (by decide) hh hd (by decide) (by decide) (by omega) fun w y hf h1 h2 h3 h4 h5 => ?_
    unfold decodeV; simp [hf, decodePred, shapeQ, tyIs, h1, h2, h3, h4, h5, hc]
  case qfix.refl h pd pa v =>
    obtain ⟨⟨⟨hh, hd⟩, ha⟩, hv⟩ := hw
    refine vWord_encQ rfl (by decide) (by decide) hh hd ha (by decide) (by omega) fun w y hf h1 h2 h3 h4 h5 => ?_
    unfold decodeV; simp [hf, decodePred, shapeQ, tyIs, h1, h2, h3, h4, h5, hc]
  case qmovToScalar.refl h d pa =>
    obtain ⟨⟨hh, hd⟩, ha⟩ := hw
    refine vWord_encV (by decide) (by decide) (VH.ok_of_okNoN hh) (by decide) (by omega) (by decide) (by decide) (by decide) (by omega) fun w y hy hf => ?_
    have h1 : bits y 31 14 = 0 := by simp only [bits]; omega
    have h2 : bits y 11 8 = 0 := by simp only [bits]; omega
    have h3 : bits y 3 0 = 0 := by simp only [bits]; omega
    have h4 : bits y 7 4 = pa := by simp only [bits]; omega
    have h5 : bits y 13 12 = 1 := by simp only [bits]; omega
    unfold decodeV; simp [hf, decodePred, tyIs, h1, h2, h3, h4, h5, sreg_add hd, hc]
  case qmovFromScalar.refl h pd a =>
    obtain ⟨⟨hh, hd⟩, ha⟩ := hw
    refine vWord_encV (by decide) (by decide) (VH.ok_of_okNoN hh) (by decide) (by decide) (by omega) (by decide) (by decide) (by omega) fun w y hy hf => ?_
    have h1 : bits y 31 14 = 0 := by simp only [bits]; omega
    have h2 : bits y 11 8 = 0 := by simp only [bits]; omega
    have h3 : bits y 3 0 = pd := by simp only [bits]; omega
    have h4 : bits y 7 4 = 0 := by simp only [bits]; omega
    have h5 : bits y 13 12 = 2 := by simp only [bits]; omega
    unfold decodeV; simp [hf, decodePred, tyIs, h1, h2, h3, h4, h5, sreg_add ha, hc]
  case vbal.refl h d pa =>
    obtain ⟨⟨⟨hh, -⟩, hd⟩, ha⟩ := hw
    refine vWord_encV (by decide) (by decide) (VH.ok_of_okNoN hh) (by decide) (by omega) (by decide) (by decide) (by decide) (by omega) fun w y hy hf => ?_
    have h1 : bits y 31 8 = 0 := by simp only [bits]; omega
    have h2 : bits y 3 0 = 0 := by simp only [bits]; omega
    have h3 : bits y 7 4 = pa := by simp only [bits]; omega
    unfold decodeV; simp [hf, decodeLane, tyIs, h1, h2, h3, sreg_add (show d < 128 by omega), hc]
  case vvote.refl h op pd pa =>
    obtain ⟨⟨⟨hh, ho⟩, hd⟩, ha⟩ := hw
    refine vWord_encQ (pb := 0) (sub := op) (pa := pa) (pd := pd) (by omega) (by decide) (by decide) hh hd ha (by decide) (by omega) fun w y hf h1 h2 h3 h4 h5 => ?_
    unfold decodeV; simp [hf, decodeLane, shapeQ, tyIs, h1, h2, h3, h4, h5, hc]
  case vshfXor.refl h t d a k | vshfUp.refl h t d a k | vshfDn.refl h t d a k =>
    obtain ⟨hw, hk⟩ := hw
    obtain ⟨hh, hd, ha⟩ := bounds_of_v1ok hw
    refine vWord_encV (by decide) (by decide) hh t.code_lt (by omega) (Opnd.code_lt ha) (by decide) (by decide) (by omega) fun w y hy hf => ?_
    have h1 : bits y 31 5 = 0 := by simp only [bits]; omega
    have h2 : bits y 4 0 = k := by simp only [bits]; omega
    unfold decodeV; simp [hf, decodeLane, shapeDist, h1, h2, vreg_of_lt hd, Opnd.ofCode_code ha, hc]
  case vred.refl h op t d a =>
    obtain ⟨⟨⟨hh, ho⟩, ha⟩, hd⟩ := hw
    have ha := Opnd.ok_of_srcOk ha
    have ho := lt_of_redOk ho
    have hd : d.ok = true := by
      cases d with
      | v k => exact decide_eq_true (lt_of_vdstOk hd)
      | s k => exact (Bool.and_eq_true_iff.1 (Bool.and_eq_true_iff.1 hd).1).1
      | b k | zero | lane | grp | stage => cases hd
    refine vWord_encV (by decide) (by decide) hh t.code_lt (Opnd.code_lt hd) (Opnd.code_lt ha) (by decide) (by decide) (by omega) fun w y hy hf => ?_
    have h1 : bits y 31 4 = 0 := by simp only [bits]; omega
    have h2 : bits y 3 0 = op := by simp only [bits]; omega
    unfold decodeV; simp [hf, decodeLane, h1, h2, Opnd.ofCode_code hd, Opnd.ofCode_code ha, hc]
  case cvt.refl h df sf part d a =>
    obtain ⟨⟨⟨⟨⟨⟨⟨⟨hh, hdf⟩, hsf⟩, hp⟩, hd⟩, -⟩, ha⟩, -⟩, -⟩ := hw
    have hdf := lt_of_cvtFmtOk hdf
    have hsf := lt_of_cvtFmtOk hsf
    have hp := lt_of_cvtPartOk hp
    refine vWord_encV (by decide) (by decide) hh (by decide) (by omega) (Opnd.code_lt ha) (by decide) (by decide) (by omega) fun w y hy hf => ?_
    have h1 : bits y 31 19 = 0 := by simp only [bits]; omega
    have h2 : bits y 15 13 = 0 := by simp only [bits]; omega
    have h3 : bits y 7 5 = 0 := by simp only [bits]; omega
    have h4 : bits y 4 0 = df := by simp only [bits]; omega
    have h5 : bits y 12 8 = sf := by simp only [bits]; omega
    have h6 : bits y 18 16 = part := by simp only [bits]; omega
    unfold decodeV; simp [hf, tyIs, h1, h2, h3, h4, h5, h6, vreg_of_lt hd, Opnd.ofCode_code ha, hc]
  case qnt.refl h tgt scf d a | dqnt.refl h tgt scf d a =>
    obtain ⟨⟨⟨⟨hh, ht⟩, hs⟩, hd⟩, ha⟩ := hw
    have ha := Opnd.ok_of_srcOk ha
    refine vWord_encV (by decide) (by decide) hh (by decide) (by omega) (Opnd.code_lt ha) (by decide) (by decide) (by omega) fun w y hy hf => ?_
    have h1 : bits y 31 3 = 0 := by simp only [bits]; omega
    have h2 : bits y 1 0 = tgt := by simp only [bits]; omega
    have h3 : bits y 2 2 = scf := by simp only [bits]; omega
    unfold decodeV; simp [hf, shapeQnt, tyIs, h1, h2, h3, vreg_of_lt hd, Opnd.ofCode_code ha, hc]
  case mrdy.refl st =>
    refine vWord_encV (by decide) (by decide) rfl (by decide) (by decide) (by decide) (by decide) (by decide) (by simp only [stTile]; omega) fun w y hy hf => ?_
    simp only [stTile] at hy
    have h1 : bits y 31 28 = st := by simp only [bits]; omega
    have h2 : bits y 27 23 = 0 := by simp only [bits]; omega
    have h3 : bits y 22 0 = 0 := by simp only [bits]; omega
    unfold decodeV; simp [hf, decodeMatrix, tyIs, noGuard, allUnused, VH.plain, h1, h2, h3, hc]
  case mwait.refl st tile all =>
    obtain ⟨⟨hs, ht⟩, -⟩ := hw
    have hb := all.toNat_lt
    refine vWord_encV (by decide) (by decide) rfl (by decide) (by decide) (by decide) (by decide) (by decide) (by simp only [stTile]; omega) fun w y hy hf => ?_
    simp only [stTile] at hy
    have h1 : bits y 31 28 = st := by simp only [bits]; omega
    have h2 : bits y 27 23 = tile := by simp only [bits]; omega
    have h3 : bits y 21 0 = 0 := by simp only [bits]; omega
    have h4 : bitAt y 22 = all := bitAt_eq (by omega)
    unfold decodeV; simp [hf, decodeMatrix, tyIs, noGuard, allUnused, VH.plain, h1, h2, h3, h4, hc]
  case mzero.refl st tile =>
    obtain ⟨hs, ht⟩ := hw
    refine vWord_encV (by decide) (by decide) rfl (by decide) (by decide) (by decide) (by decide) (by decide) (by simp only [stTile]; omega) fun w y hy hf => ?_
    simp only [stTile] at hy
    have h1 : bits y 31 28 = st := by simp only [bits]; omega
    have h2 : bits y 27 23 = tile := by simp only [bits]; omega
    have h3 : bits y 22 0 = 0 := by simp only [bits]; omega
    unfold decodeV; simp [hf, decodeMatrix, tyIs, noGuard, allUnused, VH.plain, h1, h2, h3, hc]
  case mld.refl st tile a =>
    obtain ⟨⟨hs, ht⟩, ha⟩ := hw
    refine vWord_encV (by decide) (by decide) rfl (by decide) (by decide) (by omega) (by decide) (by decide) (by simp only [stTile]; omega) fun w y hy hf => ?_
    simp only [stTile] at hy
    have h1 : bits y 31 28 = st := by simp only [bits]; omega
    have h2 : bits y 27 23 = tile := by simp only [bits]; omega
    have h3 : bits y 22 0 = 0 := by simp only [bits]; omega
    unfold decodeV; simp [hf, decodeMatrix, tyIs, noGuard, VH.plain, h1, h2, h3, sreg_add ha, hc]
  case mdrn.refl f =>
    simp only [MdrnF.ok, Bool.and_eq_true, Bool.or_eq_true, decide_eq_true_eq] at hw
    obtain ⟨⟨⟨⟨⟨⟨⟨⟨⟨hs, ht⟩, ha⟩, hm⟩, hq⟩, hsc⟩, -⟩, hr⟩, hn⟩, -⟩ := hw
    have b1 := f.amax.toNat_lt
    have b2 := f.bias.toNat_lt
    have b3 := f.act.toNat_lt
    have b4 := f.qnt.toNat_lt
    have b5 := f.glob.toNat_lt
    refine vWord_encV (by decide) (by decide) rfl (by decide) (by decide) (by omega) (by decide) (by decide) (by simp only [stTile]; omega) fun w y hy hf => ?_
    simp only [stTile] at hy
    have h1 : bits y 31 28 = f.stream := by simp only [bits]; omega
    have h2 : bits y 27 23 = f.tile := by simp only [bits]; omega
    have h3 : bits y 22 21 = f.mode := by simp only [bits]; omega
    have h4 : bitAt y 20 = f.amax := bitAt_eq (by omega)
    have h5 : bitAt y 19 = f.bias := bitAt_eq (by omega)
    have h6 : bitAt y 18 = f.act := bitAt_eq (by omega)
    have h7 : bitAt y 17 = f.qnt := bitAt_eq (by omega)
    have h8 : bits y 16 15 = f.qtgt := by simp only [bits]; omega
    have h9 : bits y 14 14 = f.qscf := by simp only [bits]; omega
    have h10 : bitAt y 13 = f.glob := bitAt_eq (by omega)
    have h11 : bits y 12 7 = f.row0 := by simp only [bits]; omega
    have h12 : bits y 6 1 = f.nrows := by simp only [bits]; omega
    have h13 : bitAt y 0 = false := bitAt_eq (by simp; omega)
    unfold decodeV
    simp [hf, decodeMatrix, tyIs, noGuard, VH.plain, h1, h2, h3, h4, h5, h6, h7, h8, h9, h10, h11, h12, h13, sreg_add ha, hc]
  case acrd.refl h st tile d row =>
    obtain ⟨⟨⟨⟨hh, hs⟩, ht⟩, hd⟩, hr⟩ := hw
    obtain ⟨hr1, hr2⟩ := rowCode_lt hr
    refine vWord_encV (by decide) (by decide) (VH.ok_of_okNoN hh) (by decide) (by omega) (by decide) hr1 (by decide) (by simp only [stTile]; omega) fun w y hy hf => ?_
    simp only [stTile] at hy
    have h1 : bits y 31 28 = st := by simp only [bits]; omega
    have h2 : bits y 27 23 = tile := by simp only [bits]; omega
    have h3 : bits y 22 0 = (rowCode row).2 := by simp only [bits]; omega
    unfold decodeV
    simp [hf, decodeMatrix, tyIs, h1, h2, vreg_of_lt (show d < 768 by omega), rowField_eq (f := ⟨_, _, _, _, _, _, _, (rowCode row).1, _, _, y⟩) hr rfl h3, hc]
  case acwr.refl h st tile a row =>
    obtain ⟨⟨⟨⟨hh, hs⟩, ht⟩, hd⟩, hr⟩ := hw
    obtain ⟨hr1, hr2⟩ := rowCode_lt hr
    refine vWord_encV (by decide) (by decide) (VH.ok_of_okNoN hh) (by decide) (by decide) (by omega) hr1 (by decide) (by simp only [stTile]; omega) fun w y hy hf => ?_
    simp only [stTile] at hy
    have h1 : bits y 31 28 = st := by simp only [bits]; omega
    have h2 : bits y 27 23 = tile := by simp only [bits]; omega
    have h3 : bits y 22 0 = (rowCode row).2 := by simp only [bits]; omega
    unfold decodeV
    simp [hf, decodeMatrix, tyIs, h1, h2, vreg_of_lt (show a < 768 by omega), rowField_eq (f := ⟨_, _, _, _, _, _, _, (rowCode row).1, _, _, y⟩) hr rfl h3, hc]
  case mpairOn.refl d =>
    refine vWord_encV (by decide) (by decide) rfl (by decide) (by omega) (by decide) (by decide) (by decide) (by decide) fun w y hy hf => ?_
    have h1 : bits y 31 28 = 0 := by simp only [bits]; omega
    have h2 : bits y 27 23 = 0 := by simp only [bits]; omega
    have h3 : bits y 21 0 = 0 := by simp only [bits]; omega
    have h4 : bitAt y 22 = false := bitAt_eq (by simp; omega)
    unfold decodeV; simp [hf, decodeMatrix, tyIs, noGuard, VH.plain, h1, h2, h3, h4, sreg_add hw, hc]
  case mpairOff.refl =>
    refine vWord_encV (by decide) (by decide) rfl (by decide) (by decide) (by decide) (by decide) (by decide) (by decide) fun w y hy hf => ?_
    have h1 : bits y 31 28 = 0 := by simp only [bits]; omega
    have h2 : bits y 27 23 = 0 := by simp only [bits]; omega
    have h3 : bits y 21 0 = 0 := by simp only [bits]; omega
    have h4 : bitAt y 22 = true := bitAt_eq (by simp; omega)
    unfold decodeV; simp [hf, decodeMatrix, tyIs, noGuard, VH.plain, h1, h2, h3, h4, hc]
  case mcfg.refl sel a =>
    obtain ⟨hs, ha⟩ := hw
    refine vWord_encV (by decide) (by decide) rfl (by decide) (by decide) (by omega) (by decide) (by decide) (by omega) fun w y hy hf => ?_
    have h1 : bits y 31 3 = 0 := by simp only [bits]; omega
    have h2 : bits y 2 0 = sel := by simp only [bits]; omega
    unfold decodeV; simp [hf, decodeMatrix, tyIs, noGuard, VH.plain, h1, h2, sreg_add ha, hc]
  case ldg.refl h t x d a =>
    obtain ⟨⟨⟨hh, hx⟩, hd⟩, ha⟩ := hw
    exact vWord_load (by decide) (by decide) (MemX.fits_of_ok hx (fun _ => lt_of_loadOrder) (fun _ => lt_of_loadHint) (by decide)) hh hd ha hc
      fun w h1 h2 _ => by unfold decodeV; simp [h1, h2, decodeMemory]
  case lds.refl h t x d a =>
    obtain ⟨⟨⟨hh, hx⟩, hd⟩, ha⟩ := hw
    exact vWord_load (by decide) (by decide) (MemX.fits_of_ok hx (fun _ => lt_of_loadOrder) (by simp) (by decide)) hh hd ha hc
      fun w h1 h2 _ => by unfold decodeV; simp [h1, h2, decodeMemory]
  case ldfeKeep.refl h t x d a | ldfeTake.refl h t x d a =>
    obtain ⟨⟨⟨hh, hx⟩, hd⟩, ha⟩ := hw
    refine vWord_load (by decide) (by decide) (MemX.fits_of_ok hx (by simp) (by simp) (by decide)) hh hd ha hc fun w h1 h2 h3 => ?_
    have h4 : bits (VF.of w).x 21 19 = _ := (congrArg MemX.hint h3).trans (hint_of_plainOk hx)
    unfold decodeV; simp [h1, h2, h4, decodeMemory]
  case stg.refl h t x a b =>
    obtain ⟨⟨⟨hh, hx⟩, ha⟩, hb⟩ := hw
    exact vWord_store (by decide) (by decide) (MemX.fits_of_ok hx (fun _ => lt_of_storeOrder) (fun _ => lt_of_storeHint) (by decide)) hh ha hb hc
      fun w h1 h2 => by unfold decodeV; simp [h1, h2, decodeMemory]
  case sts.refl h t x a b =>
    obtain ⟨⟨⟨hh, hx⟩, ha⟩, hb⟩ := hw
    exact vWord_store (by decide) (by decide) (MemX.fits_of_ok hx (fun _ => lt_of_storeOrder) (by simp) (by decide)) hh ha hb hc
      fun w h1 h2 => by unfold decodeV; simp [h1, h2, decodeMemory]
  case stfe.refl h t x a b =>
    obtain ⟨⟨⟨hh, hx⟩, ha⟩, hb⟩ := hw
    exact vWord_store (by decide) (by decide) (MemX.fits_of_ok hx (by simp) (by simp) (by decide)) hh ha hb hc
      fun w h1 h2 => by unfold decodeV; simp [h1, h2, decodeMemory]
  case pst.refl h t x a b c =>
    obtain ⟨⟨⟨⟨hh, hx⟩, ha⟩, hb⟩, hcc⟩ := hw
    have ha := Opnd.ok_of_addrOk ha
    have hb := Opnd.ok_of_srcOk hb
    have hfits := MemX.fits_of_ok hx (by simp) (by simp) (by decide)
    refine vWord_encV (by decide) (by decide) (VH.ok_of_okNoN hh) t.code_lt (by decide) (Opnd.code_lt ha) (Opnd.code_lt hb)
      (Opnd.code_lt (decide_eq_true hcc)) (MemX.word_lt hfits) fun w y hy hf => ?_
    unfold decodeV
    simp [hf, decodeMemory, hy, memX_word hfits, Opnd.ofCode_code ha, Opnd.ofCode_code hb, show (Opnd.s c).code = 768 + c from rfl, sreg_add hcc, hc]
  case pfch.refl h x a =>
    obtain ⟨⟨⟨hh, hx⟩, -⟩, ha⟩ := hw
    exact vWord_touch (by decide) (by decide) (MemX.fits_of_ok hx (by simp) (fun _ => lt_of_pfchHint) (by decide)) hh ha hc
      fun w h1 h2 => by unfold decodeV; simp [h1, h2, decodeMemory]
  case drop.refl h x a =>
    obtain ⟨⟨⟨hh, hx⟩, -⟩, ha⟩ := hw
    exact vWord_touch (by decide) (by decide) (MemX.fits_of_ok hx (by simp) (by simp) (by decide)) hh ha hc
      fun w h1 h2 => by unfold decodeV; simp [h1, h2, decodeMemory]
  case atom.refl h t x d a b c =>
    obtain ⟨⟨hh, -⟩, hat⟩ := hw
    obtain ⟨hfits, hd, ha, hb, hcc⟩ := bounds_of_atomOk hat
    refine vWord_encV (by decide) (by decide) hh t.code_lt (Opnd.code_lt hd) (Opnd.code_lt ha) (Opnd.code_lt hb) (Opnd.code_lt hcc)
      (MemX.word_lt hfits) fun w y hy hf => ?_
    unfold decodeV
    simp [hf, decodeMemory, hy, memX_word hfits, Opnd.ofCode_code hd, Opnd.ofCode_code ha, Opnd.ofCode_code hb, Opnd.ofCode_code hcc, hc]
  case fence.refl st sc o =>
    obtain ⟨⟨⟨hs, hsc⟩, -⟩, ho⟩ := hw
    refine vWord_encV (by decide) (by decide) rfl (by decide) (by decide) (by decide) (by decide) (by decide) (by omega) fun w y hy hf => ?_
    have h1 : bits y 31 28 = st := by simp only [bits]; omega
    have h2 : bits y 27 25 = sc := by simp only [bits]; omega
    have h3 : bits y 24 22 = o := by simp only [bits]; omega
    have h4 : bits y 21 0 = 0 := by simp only [bits]; omega
    unfold decodeV; simp [hf, decodeMemory, tyIs, noGuard, allUnused, VH.plain, h1, h2, h3, h4, hc]
  case fencex.refl sc o m =>
    simp only [scopeOk, Bool.and_eq_true, decide_eq_true_eq] at hw
    obtain ⟨⟨ho, hsc, -⟩, -⟩ := hw
    have hm := m.isLt
    refine vWord_encV (by decide) (by decide) rfl (by decide) (by decide) (by decide) (by decide) (by decide) (by omega) fun w y hy hf => ?_
    have h1 : bits y 31 28 = 0 := by simp only [bits]; omega
    have h2 : bits y 27 25 = sc := by simp only [bits]; omega
    have h3 : bits y 24 22 = o := by simp only [bits]; omega
    have h4 : bits y 21 16 = 0 := by simp only [bits]; omega
    have h5 : bits y 15 0 = m.toNat := by simp only [bits]; omega
    unfold decodeV; simp [hf, decodeMemory, tyIs, noGuard, allUnused, VH.plain, h1, h2, h3, h4, h5, hc]
  case cpy.refl f =>
    simp only [scopeOk, Bool.and_eq_true, Bool.or_eq_true, beq_iff_eq, decide_eq_true_eq] at hw
    obtain ⟨⟨⟨⟨⟨⟨⟨⟨⟨hs, ho⟩, hsc, -⟩, hh⟩, hr⟩, hst⟩, -⟩, hd⟩, ha⟩, hcc⟩ := hw
    have hr := lt_of_redopOk hr
    have b1 := f.fe.toNat_lt
    have b2 := f.step.toNat_lt
    refine vWord_encV (by decide) (by decide) rfl f.t.code_lt (by decide) (by omega) (by omega) (by omega) (by omega) fun w y hy hf => ?_
    have h1 : bits y 31 28 = f.stream := by simp only [bits]; omega
    have h2 : bits y 27 25 = f.scope := by simp only [bits]; omega
    have h3 : bits y 24 22 = f.order := by simp only [bits]; omega
    have h4 : bits y 21 19 = f.hint := by simp only [bits]; omega
    have h5 : bits y 18 16 = f.redop := by simp only [bits]; omega
    have h6 : bitAt y 15 = f.fe := bitAt_eq (by omega)
    have h7 : bitAt y 14 = f.step := bitAt_eq (by omega)
    have h8 : bits y 13 0 = f.stepid := by simp only [bits]; omega
    unfold decodeV
    simp [hf, decodeMemory, noGuard, VH.plain, h1, h2, h3, h4, h5, h6, h7, h8, sreg_add hd, sreg_add ha, sreg_add hcc, hc]
  case cwait.refl st =>
    refine vWord_encV (by decide) (by decide) rfl (by decide) (by decide) (by decide) (by decide) (by decide) (by omega) fun w y hy hf => ?_
    have h1 : bits y 31 28 = st := by simp only [bits]; omega
    have h2 : bits y 27 0 = 0 := by simp only [bits]; omega
    unfold decodeV; simp [hf, decodeMemory, tyIs, noGuard, allUnused, VH.plain, h1, h2, hc]
  case spawn.refl h a b =>
    obtain ⟨⟨hh, ha⟩, hb⟩ := hw
    have hb : b.ok = true := by
      cases b with
      | v k | s k => exact hb
      | zero => rfl
      | b k | lane | grp | stage => cases hb
    refine vWord_encV (by decide) (by decide) (VH.ok_of_okNoN hh) (by decide) (by decide) (by omega) (Opnd.code_lt hb) (by decide) (by decide) fun w y hy hf => ?_
    unfold decodeV; simp [hf, tyIs, hy, vreg_of_lt (show a < 768 by omega), Opnd.ofCode_code hb, hc]
  case tbegin.refl h st d =>
    obtain ⟨⟨hh, hs⟩, hd⟩ := hw
    refine vWord_encV (by decide) (by decide) (VH.ok_of_okNoN hh) (by decide) (by omega) (by decide) (by decide) (by decide) (by omega) fun w y hy hf => ?_
    have h1 : bits y 31 28 = st := by simp only [bits]; omega
    have h2 : bits y 27 0 = 0 := by simp only [bits]; omega
    unfold decodeV; simp [hf, tyIs, h1, h2, vreg_of_lt hd, hc]
  case tcommit.refl h st =>
    obtain ⟨hh, hs⟩ := hw
    refine vWord_encV (by decide) (by decide) (VH.ok_of_okNoN hh) (by decide) (by decide) (by decide) (by decide) (by decide) (by omega) fun w y hy hf => ?_
    have h1 : bits y 31 28 = st := by simp only [bits]; omega
    have h2 : bits y 27 0 = 0 := by simp only [bits]; omega
    unfold decodeV; simp [hf, tyIs, h1, h2, hc]
  case tabort.refl h code =>
    obtain ⟨hh, hs⟩ := hw
    refine vWord_encV (by decide) (by decide) (VH.ok_of_okNoN hh) (by decide) (by decide) (by decide) (by decide) (by decide) (by omega) fun w y hy hf => ?_
    have h1 : bits y 31 8 = 0 := by simp only [bits]; omega
    have h2 : bits y 7 0 = code := by simp only [bits]; omega
    unfold decodeV; simp [hf, tyIs, h1, h2, hc]
  case tstat.refl h d | crdV.refl h d =>
    obtain ⟨hh, hd⟩ := hw
    refine vWord_encV (by decide) (by decide) (VH.ok_of_okNoN hh) (by decide) (by omega) (by decide) (by decide) (by decide) (by decide) fun w y hy hf => ?_
    unfold decodeV; simp [hf, tyIs, hy, vreg_of_lt hd, hc]
  case cwrV.refl h a =>
    obtain ⟨hh, ha⟩ := hw
    refine vWord_encV (by decide) (by decide) (VH.ok_of_okNoN hh) (by decide) (by decide) (Opnd.code_lt ha) (by decide) (by decide) (by decide) fun w y hy hf => ?_
    unfold decodeV; simp [hf, tyIs, hy, Opnd.ofCode_code ha, hc]

/-- A parcel that starts no V-word (its major is below 48, R91) and reads as an S-word instruction. -/
def SWord (w : Nat) (i : Instr) : Prop := w < 48 * 2 ^ 26 ∧ decodeS w = .ok i

theorem sWord_encSR {maj d a b fn : Nat} {i : Instr} (hm : maj < 48) (hd : d < 128) (ha : a < 128) (hb : b < 128) (hf : fn < 32)
    (hdec : ∀ w, bits w 31 26 = maj → bits w 25 19 = d → bits w 18 12 = a → bits w 11 5 = b → bits w 4 0 = fn → decodeS w = .ok i) :
    SWord (encSR maj d a b fn) i := by
  refine ⟨?_, hdec _ ?_ ?_ ?_ ?_ ?_⟩ <;> simp only [bits, encSR] <;> omega

theorem sWord_encSI {maj d a imm : Nat} {i : Instr} (hm : maj < 48) (hd : d < 128) (ha : a < 128) (hi : imm < 2 ^ 12)
    (hdec : ∀ w, bits w 31 26 = maj → bits w 25 19 = d → bits w 18 12 = a → bits w 11 0 = imm → decodeS w = .ok i) : SWord (encSI maj d a imm) i := by
  refine ⟨?_, hdec _ ?_ ?_ ?_ ?_⟩ <;> simp only [bits, encSI] <;> omega

theorem sWord_encSL {maj d imm : Nat} {i : Instr} (hm : maj < 48) (hd : d < 128) (hi : imm < 2 ^ 19)
    (hdec : ∀ w, bits w 31 26 = maj → bits w 25 19 = d → bits w 18 0 = imm → decodeS w = .ok i) : SWord (encSL maj d imm) i := by
  refine ⟨?_, hdec _ ?_ ?_ ?_⟩ <;> simp only [bits, encSL] <;> omega

theorem sWord_encSBR {maj a cond off : Nat} {i : Instr} (hm : maj < 48) (ha : a < 128) (hc : cond < 8) (ho : off < 2 ^ 16)
    (hdec : ∀ w, bits w 31 26 = maj → bits w 25 19 = a → bits w 18 16 = cond → bits w 15 0 = off → decodeS w = .ok i) :
    SWord (encSBR maj a cond off) i := by
  refine ⟨?_, hdec _ ?_ ?_ ?_ ?_⟩ <;> simp only [bits, encSBR] <;> omega

theorem sWord_encSY {maj fn imm : Nat} {i : Instr} (hm : maj < 48) (hf : fn < 64) (hi : imm < 2 ^ 20)
    (hdec : ∀ w, bits w 31 26 = maj → bits w 25 20 = fn → bits w 19 0 = imm → decodeS w = .ok i) : SWord (encSY maj fn imm) i := by
  refine ⟨?_, hdec _ ?_ ?_ ?_⟩ <;> simp only [bits, encSY] <;> omega

/-- A word of a layout of its own: its major, and the other 26 bits as one number. -/
theorem sWord_of {w maj y : Nat} {i : Instr} (hw : w = maj * 2 ^ 26 + y) (hm : maj < 48) (hy : y < 2 ^ 26)
    (hdec : ∀ w, bits w 31 26 = maj → bits w 25 0 = y → decodeS w = .ok i) : SWord w i := by
  refine ⟨by omega, hdec _ ?_ ?_⟩ <;> simp only [bits] <;> omega

theorem lt_of_cregNamed {n : Nat} (h : cregNamed n = true) : n < 2 ^ 12 := by
  simp only [cregNamed, Bool.or_eq_true, Bool.and_eq_true, decide_eq_true_eq, beq_iff_eq] at h
  omega

theorem decodeS_encodeS {i : Instr} {w : Nat} (hw : i.wellFormed = true) (he : encodeS i = some w) : SWord w i := by
  have hc := checked_of_wellFormed hw
  cases i <;> cases he <;> (unfold Instr.wellFormed at hw; simp only [Bool.and_eq_true, Bool.or_eq_true, decide_eq_true_eq] at hw)
  case sadd.refl d a b | ssub.refl d a b | smul.refl d a b | smulh.refl d a b | sdiv.refl d a b | srem.refl d a b | sand.refl d a b | sor.refl d a b
      | sxor.refl d a b | sshl.refl d a b | sshr.refl d a b | ssra.refl d a b | smin.refl d a b | smax.refl d a b | smulhN64.refl d a b
      | sdivN64.refl d a b | sremN64.refl d a b | sminN64.refl d a b | smaxN64.refl d a b | ssel.refl d a b =>
    obtain ⟨⟨hd, ha⟩, hb⟩ := hw
    exact sWord_encSR (by decide) hd ha hb (by decide) fun w h1 h2 h3 h4 h5 => by unfold decodeS; simp [h1, h2, h3, h4, h5, hc]
  case scmp.refl c d a b =>
    obtain ⟨⟨⟨hf, hd⟩, ha⟩, hb⟩ := hw
    exact sWord_encSR (by decide) hd ha hb (by omega) fun w h1 h2 h3 h4 h5 => by unfold decodeS; simp [h1, h2, h3, h4, h5, hc]
  case sclz.refl d a | spop.refl d a | smov.refl d a | jmpx.refl d a =>
    obtain ⟨hd, ha⟩ := hw
    exact sWord_encSR (by decide) hd ha (by decide) (by decide) fun w h1 h2 h3 h4 h5 => by unfold decodeS; simp [h1, h2, h3, h4, h5, hc]
  case gdefer.refl a b =>
    obtain ⟨ha, hb⟩ := hw
    exact sWord_encSR (by decide) (by decide) ha hb (by decide) fun w h1 h2 h3 h4 h5 => by unfold decodeS; simp [h1, h2, h3, h4, h5, hc]
  case ret.refl a =>
    exact sWord_encSR (by decide) (by decide) hw (by decide) (by decide) fun w h1 h2 h3 h4 h5 => by unfold decodeS; simp [h1, h2, h3, h4, h5, hc]
  case gwait.refl d | gnum.refl d | clock.refl d =>
    exact sWord_encSR (by decide) hw (by decide) (by decide) (by decide) fun w h1 h2 h3 h4 h5 => by unfold decodeS; simp [h1, h2, h3, h4, h5, hc]
  case qpoint.refl =>
    exact sWord_encSR (by decide) (by decide) (by decide) (by decide) (by decide) fun w h1 h2 h3 h4 h5 => by unfold decodeS; simp [h1, h2, h3, h4, h5, hc]
  case saddImm.refl d a i | sandImm.refl d a i | sorImm.refl d a i | sxorImm.refl d a i | sld.refl d a i | sst.refl d a i =>
    obtain ⟨hd, ha⟩ := hw
    exact sWord_encSI (by decide) hd ha i.isLt fun w h1 h2 h3 h4 => by unfold decodeS; simp [h1, h2, h3, h4, hc]
  case sshlImm.refl d a c | sshrImm.refl d a c | ssraImm.refl d a c =>
    obtain ⟨⟨hd, ha⟩, hi⟩ := hw
    exact sWord_encSI (by decide) hd ha (by omega) fun w h1 h2 h3 h4 => by unfold decodeS; simp [h1, h2, h3, h4, hc]
  case sli.refl d i | slih.refl d i =>
    exact sWord_encSL (by decide) hw i.isLt fun w h1 h2 h3 => by unfold decodeS; simp [h1, h2, h3, hc]
  case venq.refl c o =>
    obtain ⟨⟨h1, h2⟩, h3⟩ := hw
    exact sWord_encSL (by decide) (by omega) h3 fun w h1 h2 h3 => by unfold decodeS; simp [h1, h2, h3, hc]
  case crd.refl d n =>
    obtain ⟨hd, hn⟩ := hw
    exact sWord_encSI (by decide) hd (by decide) (lt_of_cregNamed hn) fun w h1 h2 h3 h4 => by unfold decodeS; simp [h1, h2, h3, h4, hc]
  case cwr.refl a n =>
    obtain ⟨⟨ha, hn⟩, -⟩ := hw
    exact sWord_encSI (by decide) (by decide) ha (lt_of_cregNamed hn) fun w h1 h2 h3 h4 => by unfold decodeS; simp [h1, h2, h3, h4, hc]
  case mig.refl d k =>
    have hk := k.toNat_lt
    refine sWord_encSI (by decide) hw (by decide) (by omega) fun w h1 h2 h3 h4 => ?_
    have h5 : bits w 11 1 = 0 := by simp only [bits] at h4 ⊢; omega
    have h6 : bitAt w 0 = k := bitAt_eq (by simp only [bits] at h4; omega)
    unfold decodeS; simp [h1, h2, h3, h5, h6, hc]
  case br.refl o =>
    exact sWord_encSBR (by decide) (by decide) (by decide) o.isLt fun w h1 h2 h3 h4 => by unfold decodeS; simp [h1, h2, h3, h4, hc]
  case bc.refl c a o =>
    obtain ⟨hf, ha⟩ := hw
    exact sWord_encSBR (by decide) ha (by omega) o.isLt fun w h1 h2 h3 h4 => by unfold decodeS; simp [h1, h2, h3, h4, hc]
  case call.refl a o =>
    exact sWord_encSBR (by decide) hw (by decide) o.isLt fun w h1 h2 h3 h4 => by unfold decodeS; simp [h1, h2, h3, h4, hc]
  case bq.refl s p o =>
    obtain ⟨⟨-, hs⟩, hp⟩ := hw
    refine sWord_encSBR (by decide) (by omega) (by omega) o.isLt fun w h1 h2 h3 h4 => ?_
    have h5 : bits w 25 23 = 0 := by simp only [bits] at h2 ⊢; omega
    have h6 : bits w 22 19 = p := by simp only [bits] at h2 ⊢; omega
    unfold decodeS; simp [h1, h3, h4, h5, h6, hc]
  case tbar.refl | done.refl | exit.refl | nop.refl | tret.refl =>
    exact sWord_encSY (by decide) (by decide) (by decide) fun w h1 h2 h3 => by unfold decodeS; simp [h1, h2, h3, hc]
  case trap.refl c =>
    exact sWord_encSY (by decide) (by decide) hw fun w h1 h2 h3 => by unfold decodeS; simp [h1, h2, h3, hc]
  case qbar.refl m =>
    refine sWord_encSY (by decide) (by decide) (by omega) fun w h1 h2 h3 => ?_
    have h4 : bits w 19 5 = 0 := by simp only [bits] at h3 ⊢; omega
    have h5 : bits w 4 0 = m := by simp only [bits] at h3 ⊢; omega
    unfold decodeS; simp [h1, h2, h4, h5, hc]
  case take.refl dr d =>
    have hb := dr.toNat_lt
    refine sWord_encSY (by decide) (by decide) (by omega) fun w h1 h2 h3 => ?_
    have h4 : bits w 19 8 = 0 := by simp only [bits] at h3 ⊢; omega
    have h5 : bits w 6 0 = d := by simp only [bits] at h3 ⊢; omega
    have h6 : bitAt w 7 = dr := bitAt_eq (by simp only [bits] at h3; omega)
    unfold decodeS; simp [h1, h2, h4, h5, h6, hc]
  case hinge.refl k =>
    refine sWord_encSY (by decide) (by decide) (by omega) fun w h1 h2 h3 => ?_
    have h4 : bits w 19 16 = 0 := by simp only [bits] at h3 ⊢; omega
    have h5 : bits w 15 0 = k := by simp only [bits] at h3 ⊢; omega
    unfold decodeS; simp [h1, h2, h4, h5, hc]
  case mark.refl s c =>
    have hb := s.toNat_lt
    refine sWord_encSY (by decide) (by decide) (by omega) fun w h1 h2 h3 => ?_
    have h4 : bits w 18 0 = c := by simp only [bits] at h3 ⊢; omega
    have h5 : bitAt w 19 = s := bitAt_eq (by simp only [bits] at h3; omega)
    unfold decodeS; simp [h1, h2, h4, h5, hc]
  case bq3.refl p f oa ob =>
    obtain ⟨hp, hf⟩ := hw
    have ha := oa.isLt
    have hb := ob.isLt
    refine sWord_of (maj := 0x13) (y := p * 2 ^ 22 + f * 2 ^ 20 + oa.toNat * 2 ^ 10 + ob.toNat) (by omega) (by decide) (by omega) fun w h1 h2 => ?_
    have h3 : bits w 25 22 = p := by simp only [bits] at h2 ⊢; omega
    have h4 : bits w 21 20 = f := by simp only [bits] at h2 ⊢; omega
    have h5 : bits w 19 10 = oa.toNat := by simp only [bits] at h2 ⊢; omega
    have h6 : bits w 9 0 = ob.toNat := by simp only [bits] at h2 ⊢; omega
    unfold decodeS; simp [h1, h3, h4, h5, h6, hc]
  case waitc.refl vm sm as xl =>
    obtain ⟨⟨⟨hv, hs⟩, ha⟩, hx⟩ := hw
    refine sWord_of (maj := 0x16) (y := vm * 2 ^ 20 + sm * 2 ^ 14 + as * 2 ^ 8 + xl * 2 ^ 2) (by omega) (by decide) (by omega) fun w h1 h2 => ?_
    have h3 : bits w 1 0 = 0 := by simp only [bits] at h2 ⊢; omega
    have h4 : bits w 25 20 = vm := by simp only [bits] at h2 ⊢; omega
    have h5 : bits w 19 14 = sm := by simp only [bits] at h2 ⊢; omega
    have h6 : bits w 13 8 = as := by simp only [bits] at h2 ⊢; omega
    have h7 : bits w 7 2 = xl := by simp only [bits] at h2 ⊢; omega
    unfold decodeS; simp [h1, h3, h4, h5, h6, h7, hc]
  case nbarImm.refl c i =>
    obtain ⟨⟨h1, hb⟩, hi⟩ := hw
    refine sWord_of (maj := 0x18) (y := c * 2 ^ 6 + i) (by omega) (by decide) (by omega) fun w h1 h2 => ?_
    have h3 : bits w 25 19 = 0 := by simp only [bits] at h2 ⊢; omega
    have h4 : bits w 5 4 = 0 := by simp only [bits] at h2 ⊢; omega
    have h5 : bits w 11 6 = c := by simp only [bits] at h2 ⊢; omega
    have h6 : bits w 18 12 = 0 := by simp only [bits] at h2 ⊢; omega
    have h7 : bits w 3 0 = i := by simp only [bits] at h2 ⊢; omega
    have h8 : c ≠ 0 := by omega
    unfold decodeS; simp [h1, h3, h4, h5, h6, h7, h8, hc]
  case nbarReg.refl a i =>
    obtain ⟨⟨h1, hb⟩, hi⟩ := hw
    refine sWord_of (maj := 0x18) (y := a * 2 ^ 12 + i) (by omega) (by decide) (by omega) fun w h1 h2 => ?_
    have h3 : bits w 25 19 = 0 := by simp only [bits] at h2 ⊢; omega
    have h4 : bits w 5 4 = 0 := by simp only [bits] at h2 ⊢; omega
    have h5 : bits w 11 6 = 0 := by simp only [bits] at h2 ⊢; omega
    have h6 : bits w 18 12 = a := by simp only [bits] at h2 ⊢; omega
    have h7 : bits w 3 0 = i := by simp only [bits] at h2 ⊢; omega
    unfold decodeS; simp [h1, h3, h4, h5, h6, h7, hc]
  case split.refl pen p a v u =>
    obtain ⟨⟨⟨hp, -⟩, ha⟩, hv⟩ := hw
    have hb := pen.toNat_lt
    have hu := u.toNat_lt
    refine sWord_of (maj := 0x1A) (y := pen.toNat * 2 ^ 23 + p * 2 ^ 19 + a * 2 ^ 12 + v * 2 ^ 2 + u.toNat * 2) (by omega) (by decide) (by omega)
      fun w h1 h2 => ?_
    have h3 : bits w 25 24 = 0 := by simp only [bits] at h2 ⊢; omega
    have h4 : bitAt w 0 = false := bitAt_eq (by simp only [bits] at h2; simp; omega)
    have h5 : bitAt w 23 = pen := bitAt_eq (by simp only [bits] at h2; omega)
    have h6 : bits w 22 19 = p := by simp only [bits] at h2 ⊢; omega
    have h7 : bits w 18 12 = a := by simp only [bits] at h2 ⊢; omega
    have h8 : bits w 11 2 = v := by simp only [bits] at h2 ⊢; omega
    have h9 : bitAt w 1 = u := bitAt_eq (by simp only [bits] at h2; omega)
    unfold decodeS; simp [h1, h3, h4, h5, h6, h7, h8, h9, hc]

theorem encode_isSome {i : Instr} (he : i.isEvent = false) : (encode i).isSome = true := by
  cases i <;> cases he
  case vbcast.refl h t d a src sel => cases sel <;> rfl
  all_goals rfl

/-! Parcels as bytes (R4, R91). -/

open Machine in
theorem toBytes_four {p : Nat} (hp : p < 2 ^ 32) : ∃ b0 b1 b2 b3, toBytes 4 p = [b0, b1, b2, b3] ∧ parcelOf b0 b1 b2 b3 = p := by
  refine ⟨_, _, _, _, rfl, ?_⟩
  simp only [parcelOf, BitVec.toNat_ofNat]
  omega

open Machine in
theorem decodeBytes_sWord {w : Nat} {i : Instr} (h : SWord w i) (rest : List Byte) : decodeBytes (toBytes 4 w ++ rest) = .ok (i, rest) := by
  obtain ⟨hlt, hdec⟩ := h
  obtain ⟨b0, b1, b2, b3, hb, hp⟩ := toBytes_four (show w < 2 ^ 32 by omega)
  have hs : isVParcel w = false := beq_eq_false_iff_ne.2 (by simp only [bits]; omega)
  simp only [hb, List.cons_append, List.nil_append, decodeBytes, hp, hs, hdec]
  rfl

theorem bits_lt_parcel (w lo : Nat) : bits w (lo + 31) lo < 2 ^ 32 := by
  rw [bits, show lo + 31 + 1 - lo = 32 by omega]
  exact Nat.mod_lt _ (by decide)

open Machine in
theorem decodeBytes_vWord {w : Nat} {i : Instr} (h : VWord w i) (rest : List Byte) :
    decodeBytes (toBytes 4 (bits w 95 64) ++ (toBytes 4 (bits w 63 32) ++ (toBytes 4 (bits w 31 0) ++ rest))) = .ok (i, rest) := by
  obtain ⟨hlt, hge, hdec⟩ := h
  obtain ⟨a0, a1, a2, a3, ha, hpa⟩ := toBytes_four (bits_lt_parcel w 64)
  obtain ⟨b0, b1, b2, b3, hb, hpb⟩ := toBytes_four (bits_lt_parcel w 32)
  obtain ⟨c0, c1, c2, c3, hc, hpc⟩ := toBytes_four (bits_lt_parcel w 0)
  have hv : isVParcel (bits w 95 64) = true := beq_iff_eq.2 (by simp only [bits]; omega)
  have hw : bits w 95 64 * 2 ^ 64 + bits w 63 32 * 2 ^ 32 + bits w 31 0 = w := by simp only [bits]; omega
  simp only [ha, hb, hc, List.cons_append, List.nil_append, decodeBytes, hpa, hpb, hpc, hv, hw, hdec, if_true]
  rfl

end Sys2Proof

open Sys2Proof Sys2Proof.Machine

/-- Settles O59: a word is an S-word or a V-word by its top parcel, and each of its fields is read back. -/
theorem decodeInvertsEncode : Obligations.DecodeInvertsEncode := by
  unfold Obligations.DecodeInvertsEncode
  intro i rest hw he
  unfold encodeParcels
  cases hs : encodeS i with
  | some w => simpa using decodeBytes_sWord (decodeS_encodeS hw hs) rest
  | none =>
    cases hv : encodeV i with
    | some w => simpa using decodeBytes_vWord (decodeV_encodeV hw hv) rest
    | none =>
      have henc := encode_isSome he
      simp [encode, hs, hv] at henc
end

section
open Sys2Proof Sys2Proof.Machine

/-- Settles O58, by evaluation of the decoder on each word. -/
theorem decodeWords : Obligations.DecodeWords := by
  unfold Obligations.DecodeWords
  decide +kernel
end

section
/-! Issue (R39, R40, R379) and the fetch of a word (R91, R92, R97, R102): what the choice among ready splits is, and what a try of a word comes to. -/
namespace Sys2Proof.Machine

/-! The word in hand stays the one in hand while a fault of it is recorded. -/

@[simp] theorem perform_cur (s : State) (l : List Host.Cell) : (s.perform l).cur = s.cur := by rw [State.perform, performFor_only]
@[simp] theorem msix_cur (s : State) (v : Nat) : (msix s v).cur = s.cur := by
  unfold msix
  split_ifs <;> rfl
@[simp] theorem traceRec_cur (s : State) (die core ctx ev a0 a1 : Nat) : (traceRec s die core ctx ev a0 a1).cur = s.cur := by
  rcases traceRec_cases s die core ctx ev a0 a1 with h | ⟨r, r', io, bs, -, h⟩ <;> rw [h]
  · rfl
  · exact perform_cur _ _
@[simp] theorem now_cur (s : State) : s.now.cur = s.cur := rfl
@[simp] theorem discardWork_cur (s : State) (c : Nat) : (discardWork s c).cur = s.cur := by
  unfold discardWork
  dsimp only
  split_ifs <;> rfl
@[simp] theorem writeRecord_cur (s : State) (c : Nat) (a : FaultAt) (code detail addr : Nat) (mask : Word32) (first : Bool) :
    (writeRecord s c a code detail addr mask first).cur = s.cur := by
  unfold writeRecord
  dsimp only
  split_ifs
  · rfl
  · rfl
  · simp only [State.setReg_cur, perform_cur]
theorem fatalAll_cur (s : State) (c : Nat) (f : FaultRec) (more : List FaultRec) : (fatalAll s c f more).cur = s.cur := by
  have key : ∀ (l : List FaultRec) (s : State),
      (l.foldl (fun s r => writeRecord s c r.1 r.2.1 r.2.2.1 r.2.2.2.1 r.2.2.2.2 false) s).cur = s.cur := by
    intro l
    induction l with
    | nil => exact fun _ => rfl
    | cons r l ih => exact fun s => (ih _).trans (writeRecord_cur _ _ _ _ _ _ _ _)
  simp only [fatalAll, msix_cur, traceRec_cur, key, writeRecord_cur, now_cur, discardWork_cur]
@[simp] theorem fatal_cur (s : State) (code detail addr : Nat) (mask : Word32) : (fatal s code detail addr mask).cur = s.cur := fatalAll_cur _ _ _ []

/-! The order of keys, and the entry of least key. -/

theorem keyLt_asymm : ∀ {a b : List Int}, keyLt a b = true → keyLt b a = false
  | [], _, h => by simp [keyLt] at h
  | _ :: _, [], h => by simp [keyLt] at h
  | x :: a, y :: b, h => by
    simp only [keyLt] at h ⊢
    by_cases hxy : x < y
    · simp [hxy, not_lt.2 hxy.le]
    · by_cases hyx : y < x
      · simp [hxy, hyx] at h
      · simp only [hxy, hyx, if_false] at h ⊢
        exact keyLt_asymm h

theorem keyLt_cons_false {x y : Int} {a b : List Int} : keyLt (x :: a) (y :: b) = false ↔ y < x ∨ (x = y ∧ keyLt a b = false) := by
  rcases lt_trichotomy x y with h | rfl | h
  · simp [keyLt, h, h.ne, not_lt.2 h.le]
  · simp [keyLt]
  · simp [keyLt, h, not_lt.2 h.le]

/-- Among keys of one length, what comes before neither of two comes not before the first of them. -/
theorem keyLt_false_trans : ∀ {a b c : List Int}, a.length = b.length → b.length = c.length → keyLt a b = false → keyLt b c = false → keyLt a c = false
  | [], _, _, _, _, _, _ => rfl
  | _ :: _, [], _, h, _, _, _ => by simp at h
  | _ :: _, _ :: _, [], _, h, _, _ => by simp at h
  | x :: a, y :: b, z :: c, hab, hbc, h1, h2 => by
    simp only [List.length_cons, Nat.add_right_cancel_iff] at hab hbc
    rw [keyLt_cons_false] at h1 h2 ⊢
    rcases h1 with h1 | ⟨rfl, h1⟩
    · exact .inl (h2.elim (·.trans h1) fun h => h.1 ▸ h1)
    · exact h2.imp_right fun ⟨hyz, h2⟩ => ⟨hyz, keyLt_false_trans hab hbc h1 h2⟩

theorem leastBy_mem {α : Type} {key : α → List Int} : ∀ {l : List α} {r : α}, leastBy key l = some r → r ∈ l
  | [], _, h => by simp [leastBy] at h
  | x :: l, r, h => by
    simp only [leastBy] at h
    split at h
    · cases h; simp
    next y hy =>
      split_ifs at h
      · cases h; exact List.mem_cons_of_mem _ (leastBy_mem hy)
      · cases h; simp

theorem leastBy_eq_none {α : Type} {key : α → List Int} {l : List α} (h : leastBy key l = none) : l = [] := by
  cases l with
  | nil => rfl
  | cons x l =>
    simp only [leastBy] at h
    split at h
    · cases h
    · split_ifs at h

/-- No entry has a key before the least one's, where keys have one length. -/
theorem leastBy_least {α : Type} {key : α → List Int} {n : Nat} (hn : ∀ x, (key x).length = n) :
    ∀ {l : List α} {r : α}, leastBy key l = some r → ∀ x ∈ l, keyLt (key x) (key r) = false
  | [], _, h => by simp [leastBy] at h
  | x :: l, r, h => by
    have irrefl (k : List Int) : keyLt k k = false := by
      by_contra hk
      rw [Bool.not_eq_false] at hk
      rw [keyLt_asymm hk] at hk
      cases hk
    simp only [leastBy] at h
    split at h
    next hnone =>
      cases h
      simp [leastBy_eq_none hnone, irrefl]
    next y hy =>
      have ih := leastBy_least hn hy
      split_ifs at h with hlt
      · cases h
        exact fun z hz => (List.mem_cons.1 hz).elim (fun e => e ▸ keyLt_asymm hlt) (ih z)
      · cases h
        refine fun z hz => (List.mem_cons.1 hz).elim (fun e => e ▸ irrefl _) fun hz => ?_
        exact keyLt_false_trans (by rw [hn, hn]) (by rw [hn, hn]) (ih z hz) (by simpa using hlt)

theorem mem_rotated {α : Type} {x : α} (n : Nat) {l : List α} : x ∈ rotated n l ↔ x ∈ l := by
  match l with
  | [] | [_] => rfl
  | y :: z :: l =>
    rw [rotated, List.mem_append, or_comm, ← List.mem_append, List.take_append_drop]

/-- The choice among ready splits is one of them, and within its group none comes before it (R40). -/
theorem bestOf_spec {s : State} {ready : List (Nat × Nat)} {gh k : Nat} (h : bestOf s ready = some (gh, k)) : (gh, k) ∈ ready ∧
    ∀ j, (gh, j) ∈ ready → keyLt (splitKey (s.splitAt (gh, j))) (splitKey (s.splitAt (gh, k))) = false := by
  obtain ⟨i, -, hi⟩ := List.mem_filterMap.1 (leastBy_mem h)
  have hmem : (gh, k) ∈ ready ∧ gh = i := by simpa [mem_rotated] using leastBy_mem hi
  obtain ⟨hready, rfl⟩ := hmem
  refine ⟨hready, fun j hj => leastBy_least (n := 3) (fun c => ?_) hi (gh, j) (by simp [mem_rotated, hj])⟩
  unfold splitKey
  split_ifs <;> rfl

theorem issueChoice_spec {s : State} {core part gh k : Nat} {one : Bool} (h : issueChoice s core part = some ((gh, k), one)) : (gh, k) ∈ readyOn s core part ∧
    ∀ j, one = false → (gh, j) ∈ readyOn s core part → keyLt (splitKey (s.splitAt (gh, j))) (splitKey (s.splitAt (gh, k))) = false := by
  simp only [issueChoice] at h
  split at h
  next c hc =>
    cases h
    have hmem := (bestOf_spec hc).1
    unfold slot1 at hmem
    split_ifs at hmem
    · cases hmem
    · exact ⟨(List.mem_filter.1 hmem).1, by simp⟩
  next hc =>
    obtain ⟨c, hc, h⟩ := Option.map_eq_some_iff.1 h
    cases h
    exact ⟨(bestOf_spec hc).1, fun j _ => (bestOf_spec hc).2 j⟩

/-! A cycle of a partition. -/

/-- A map of the values of a finite map relates what is read under each key, where it relates its entries. -/
theorem mget_map_rel {α : Type} {d : α} {R : α → α → Prop} (hd : R d d) {F : Nat × α → Nat × α} (hk : ∀ e, (F e).1 = e.1) (hR : ∀ e, R (F e).2 e.2) (i : Nat) :
    ∀ m : AMap α, R (mget d (m.map F) i) (mget d m i)
  | [] => hd
  | (k, x) :: m => by
    have ih := mget_map_rel hd hk hR i m
    rw [List.map_cons, show F (k, x) = (k, (F (k, x)).2) from Prod.ext (hk (k, x)) rfl]
    simp only [mget]
    split_ifs
    · exact hR (k, x)
    · exact ih

/-- A split as it is but for how long it has been ready. -/
def Split.ageless (p : Split) : Split := { p with age := 0, aged := false }
/-- A group as it is but for how long its splits have been ready. -/
def SameButAges (g' g : Group) : Prop := g' = { g with splits := g'.splits } ∧ g'.splits.map Split.ageless = g.splits.map Split.ageless

theorem SameButAges.refl (g : Group) : SameButAges g g := ⟨rfl, rfl⟩

theorem ageSplits_sameButAges (ready : List (Nat × Nat)) (gh : Nat) (g : Group) : SameButAges (ageSplits ready gh g) g := by
  refine ⟨rfl, ?_⟩
  have hfun : (Split.ageless ∘ fun e : Nat × Split => if ready.contains (gh, e.1) then { e.2 with age := e.2.age + 1 } else { e.2 with age := 0, aged := false }) =
      Split.ageless ∘ Prod.snd := by
    funext e
    simp only [Function.comp]
    split_ifs <;> rfl
  rw [ageSplits, List.map_map, hfun, ← List.map_map, List.map_snd_zip (by simp)]

theorem startCycle_only (s : State) (core part : Nat) (ready : List (Nat × Nat)) (c : (Nat × Nat) × Bool) :
    startCycle s core part ready c = { s with groups := (startCycle s core part ready c).groups, cores := (startCycle s core part ready c).cores } := by
  simp only [startCycle]
  split_ifs <;> rfl

theorem startCycle_grp (s : State) (core part : Nat) (ready : List (Nat × Nat)) (c : (Nat × Nat) × Bool) (i : Nat) :
    SameButAges ((startCycle s core part ready c).grp i) (s.grp i) := by
  simp only [startCycle]
  split_ifs
  · exact SameButAges.refl _
  · refine mget_map_rel (SameButAges.refl _) (fun e => ?_) (fun e => ?_) i s.groups <;> split_ifs
    · rfl
    · rfl
    · exact ageSplits_sameButAges _ _ _
    · exact SameButAges.refl _

theorem step_issue {s : State} {core part : Nat} {rest : List Move} (ha : s.agenda = .issue core part :: rest) :
    step s = issueOn ({ s with agenda := rest } : State).draw.tick core part := by
  simp only [step, ha, runMove]

theorem issueOn_none {s : State} {core part : Nat} (h : issueChoice s core part = none) : issueOn s core part = .next s := by
  simp only [issueOn, h]

theorem issueOn_some {s : State} {core part : Nat} {c : (Nat × Nat) × Bool} (h : issueChoice s core part = some c) :
    issueOn s core part = tryWord (startCycle s core part (readyOn s core part) c).draw c.1.1 c.1.2 := by
  simp only [issueOn, h]

/-! The split moves past the word it fetched. -/

/-- The word in hand once the split has moved past it. -/
def movedCur (gh k : Nat) (p : Split) (isL isV ahead : Bool) : Cur := match isL, inQueue p ahead with
  | false, q :: _ => ⟨gh, k, q.pc, q.off, true, q.last, false⟩
  | _, _ => ⟨gh, k, p.pc, if isL then 0 else lanePc p, isV, true, false⟩
/-- The split once it has moved past the word. -/
def movedSplit (gh k : Nat) (p : Split) (isL isV ahead : Bool) : Split :=
  let p1 := { p with hold := if committing p.hold then p.hold else .none, aged := false, age := 0, first := false
                     fromA := (movedCur gh k p isL isV ahead).pcA, fromB := (movedCur gh k p isL isV ahead).pcB }
  match isL, inQueue p ahead with
  | false, q :: rest => { p1 with queue := rest, lpc := (match rest with | r :: _ => r.off | [] => q.off + 1) }
  | _, _ => { p1 with pc := p.pc + (if isV then 12 else 4) }
/-- The core once the split's group has issued. -/
def issuedCore (s : State) (gh : Nat) (p : Split) : CoreSt :=
  let part := (s.grp gh).part
  let t := s.team (s.grp gh).team
  let c := (endTries s t.ctx t.core (whoFetch gh)).core t.core
  let lat := mget (0, []) c.latch part
  if inFlight p then c else
    { c with latch := mset (0, []) c.latch part (if lat.1 = gh then lat else (gh, [])), lastg := mset 0 c.lastg part gh
             lastt := mset 0 c.lastt part s.seq }

theorem advance_eq (s : State) (gh k : Nat) (isL isV ahead : Bool) : advance s gh k isL isV ahead =
    { (s.setCore (s.team (s.grp gh).team).core (issuedCore s gh (nthD Split.init (s.grp gh).splits k))).setGrp gh
        { s.grp gh with splits := setAt (s.grp gh).splits k (movedSplit gh k (nthD Split.init (s.grp gh).splits k) isL isV ahead) } with
      cur := movedCur gh k (nthD Split.init (s.grp gh).splits k) isL isV ahead } := by
  unfold advance movedSplit movedCur
  dsimp only
  cases isL <;> cases inQueue (nthD Split.init (s.grp gh).splits k) ahead <;> rfl

theorem endTries_core_cur (s : State) (cu : Cur) (c core : Nat) (who : List Nat) (i : Nat) :
    (endTries { s with cur := cu } c core who).core i = (endTries s c core who).core i := by
  unfold endTries
  change (if ((s.core core).tries.any _) = true then _ else _ : State).core i = _
  split_ifs <;> rfl
theorem issuedCore_cur (s : State) (cu : Cur) (gh : Nat) (p : Split) : issuedCore { s with cur := cu } gh p = issuedCore s gh p := by
  unfold issuedCore
  dsimp only
  rw [endTries_core_cur]
  rfl
/-- Which word is in hand before makes no difference. -/
theorem advance_with_cur (s : State) (gh k : Nat) (cu : Cur) (isL isV ahead : Bool) :
    advance { s with cur := cu } gh k isL isV ahead = advance s gh k isL isV ahead := by
  rw [advance_eq, advance_eq, issuedCore_cur]
  rfl

section
variable (s : State) (gh k : Nat) (isL isV ahead : Bool)

theorem advance_only : advance s gh k isL isV ahead = { s with cur := (advance s gh k isL isV ahead).cur, groups := (advance s gh k isL isV ahead).groups,
                                                               cores := (advance s gh k isL isV ahead).cores } := rfl
theorem advance_cur : (advance s gh k isL isV ahead).cur = movedCur gh k (nthD Split.init (s.grp gh).splits k) isL isV ahead := by rw [advance_eq]
theorem advance_grp (i : Nat) : (advance s gh k isL isV ahead).grp i = if i = gh then
    { s.grp gh with splits := setAt (s.grp gh).splits k (movedSplit gh k (nthD Split.init (s.grp gh).splits k) isL isV ahead) } else s.grp i := by
  rw [advance_eq]
  exact mget_mset _ _ _ _ _
theorem movedCur_place (p : Split) : (movedCur gh k p isL isV ahead).gh = gh ∧ (movedCur gh k p isL isV ahead).sp = k ∧ (movedCur gh k p isL isV ahead).held = false := by
  unfold movedCur
  split <;> exact ⟨rfl, rfl, rfl⟩
theorem advance_cg : (advance s gh k isL isV ahead).cg =
    { s.grp gh with splits := setAt (s.grp gh).splits k (movedSplit gh k (nthD Split.init (s.grp gh).splits k) isL isV ahead) } := by
  rw [State.cg, advance_cur, (movedCur_place gh k isL isV ahead _).1, advance_grp, if_pos rfl]
theorem advance_sp (hk : k < (s.grp gh).splits.length) :
    (advance s gh k isL isV ahead).sp = movedSplit gh k (nthD Split.init (s.grp gh).splits k) isL isV ahead := by
  rw [State.sp, advance_cg, advance_cur, (movedCur_place gh k isL isV ahead _).2.1, nthD_setAt_same _ _ _ _ hk]
end

/-! What a fetch comes to where the split alone stands at its PC and nothing else comes first. -/

/-- The state in which a split's next word is fetched: the word that passed control is in hand. -/
def fetching (s : State) (gh k : Nat) : State :=
  { s with cur := ⟨gh, k, (nthD Split.init (s.grp gh).splits k).fromA, (nthD Split.init (s.grp gh).splits k).fromB, false, true, false⟩ }

theorem grp_with_cur (s : State) (cu : Cur) (i : Nat) : ({ s with cur := cu } : State).grp i = s.grp i := rfl

theorem mergeHere_alone {s : State} (h : joins s.isL s.cg s.cur.sp = []) : mergeHere s = s := by
  simp [mergeHere, h]

section
variable {s : State} {gh k : Nat} {l : Launch} {ahead : Bool}
  (htrap : ∀ code m imm a b, (nthD Split.init (s.grp gh).splits k).hold ≠ .trapw code m imm a b)
  (hdoom : doomedLanes (s.grp gh) (nthD Split.init (s.grp gh).splits k).mask = [])
  (hjoin : joins (s.team (s.grp gh).team).isL (s.grp gh) k = [])
  (hl : teamLaunch s (s.team (s.grp gh).team) = some l)
include htrap hdoom hjoin hl

theorem fetch_outside (hc : fetchCode (fetching s gh k) (s.team (s.grp gh).team) l (nthD Split.init (s.grp gh).splits k) ahead = .outside) :
    fetch s gh k ahead = .ended (fatal (fetching s gh k) ILLEGAL_INST 2 (nthD Split.init (s.grp gh).splits k).pc 0) := by
  have hl' : teamLaunch (fetching s gh k) (s.team (s.grp gh).team) = some l := hl
  unfold fetch
  unfold fetching at hc hl'
  cases hp : (nthD Split.init (s.grp gh).splits k).hold
  case trapw => exact absurd hp (htrap _ _ _ _ _)
  all_goals
    simp only [hjoin, firstDoomed, hdoom, ite_self, hp, hl', hc]
    rfl

theorem fetch_ok {bs : List Byte} (hc : fetchCode (fetching s gh k) (s.team (s.grp gh).team) l (nthD Split.init (s.grp gh).splits k) ahead = .ok bs) :
    fetch s gh k ahead = 
      let x := s.team (s.grp gh).team
      let t := advance s gh k x.isL (x.isL && decide (192 ≤ (nthD 0 bs 3).toNat)) ahead
      match decodeHere x.isL (!x.isL && !(inQueue (nthD Split.init (s.grp gh).splits k) ahead).isEmpty) (s.grp gh).allot bs with
      | none => .ended (fatal t ILLEGAL_INST 0 (wordAddr t) 0)
      | some i => .word i t none := by
  have hl' : teamLaunch (fetching s gh k) (s.team (s.grp gh).team) = some l := hl
  unfold fetch
  unfold fetching at hc hl'
  have halone (cu : Cur) (hg : cu.gh = gh) (hk : cu.sp = k) : mergeHere { s with cur := cu } = { s with cur := cu } :=
    mergeHere_alone (by subst hg hk; exact hjoin)
  obtain ⟨hcg, hcs, -⟩ := movedCur_place gh k (s.team (s.grp gh).team).isL
    ((s.team (s.grp gh).team).isL && decide (192 ≤ (nthD 0 bs 3).toNat)) ahead (nthD Split.init (s.grp gh).splits k)
  cases hp : (nthD Split.init (s.grp gh).splits k).hold
  case trapw => exact absurd hp (htrap _ _ _ _ _)
  all_goals
    simp only [hjoin, firstDoomed, hdoom, ite_self, hp, hl', hc, advance_with_cur]
    cases decodeHere _ _ _ _ with
    | none => rfl
    | some i =>
      simp only [advance_cur, halone _ hcg hcs, hcs, grp_with_cur, Nat.lt_irrefl, if_false, advance_with_cur]
end


/-! Tries. -/

theorem tryAt_ended {s t : State} {gh k : Nat} {ahead : Bool} (h : fetch s gh k ahead = .ended t) (hh : t.cur.held = false) :
    tryAt s gh k ahead = .next t := by
  simp [tryAt, h, hh]

theorem tryAt_held {s t : State} {gh k : Nat} {ahead : Bool} {i : Instr} (h : fetch s gh k ahead = .word i t none)
    (hw : wordHolds (inFlight (nthD Split.init (s.grp gh).splits k)) t i = true) : tryAt s gh k ahead = .next (unissue s (retry t) gh) := by
  simp only [tryAt, h]
  exact if_pos hw

theorem tryAt_word {s t : State} {gh k : Nat} {ahead : Bool} {i : Instr} (h : fetch s gh k ahead = .word i t none)
    (hw : wordHolds (inFlight (nthD Split.init (s.grp gh).splits k)) t i = false) :
    tryAt s gh k ahead = match exec i t with
      | .next u => .next (if u.cur.held then unissue s u gh else u)
      | r => r := by
  simp only [tryAt, h]
  exact (if_neg (by rw [State.splitAt, hw]; decide)).trans (by cases exec i t <;> rfl)

theorem tryWord_first {s : State} {gh k : Nat} (h : (s.team (s.grp gh).team).isL = true ∨ (nthD Split.init (s.grp gh).splits k).queue = [] ∨
    inFlight (nthD Split.init (s.grp gh).splits k) = true) : tryWord s gh k = tryAt s gh k (scalarFlies (nthD Split.init (s.grp gh).splits k)) := by
  unfold tryWord State.splitAt
  dsimp only
  cases ht : tryAt s gh k (scalarFlies (nthD Split.init (s.grp gh).splits k)) with
  | next u => rcases h with h | h | h <;> simp [h]
  | fault r => rfl
  | refused r => rfl

theorem scalarFlies_of_not_inFlight {p : Split} (h : inFlight p = false) : scalarFlies p = false := by
  have hm : p.mem = none := by simpa [inFlight] using (Bool.or_eq_false_iff.1 (Bool.or_eq_false_iff.1 h).1).1
  simp [scalarFlies, hm]

theorem tryWord_queued {s u : State} {gh k : Nat} (hL : (s.team (s.grp gh).team).isL = false) (hq : (nthD Split.init (s.grp gh).splits k).queue ≠ [])
    (hf : inFlight (nthD Split.init (s.grp gh).splits k) = false) (ht : tryAt s gh k false = .next u) :
    tryWord s gh k = if u.cur.held then (aheadOf u gh k).getD (.next u) else .next u := by
  unfold tryWord State.splitAt
  simp only [scalarFlies_of_not_inFlight hf, ht, hL, hf]
  by_cases hu : u.cur.held = true <;> simp [hu, hq]

theorem aheadOf_some {u : State} {gh k : Nat} {r : Out} (h : aheadOf u gh k = some r) :
    ∃ i t bad, fetch u gh k true = .word i t bad ∧ mayAhead t i = true ∧ r = tryAt u gh k true := by
  unfold aheadOf at h
  split at h
  · cases h
  next i t bad hf =>
    refine ⟨i, t, bad, hf, ?_⟩
    split_ifs at h with hm
    refine ⟨by simpa using hm, ?_⟩
    split at h
    next v hv =>
      split_ifs at h
      rw [hv, Option.some.inj h]
    next => exact (Option.some.inj h).symm


/-! What the moved split holds. -/

section
variable (gh k : Nat) (p : Split) (isL isV ahead : Bool)

theorem movedSplit_kept : (movedSplit gh k p isL isV ahead).mask = p.mask ∧ (movedSplit gh k p isL isV ahead).age = 0 ∧
    (committing p.hold = false → (movedSplit gh k p isL isV ahead).hold = .none) := by
  unfold movedSplit
  dsimp only
  split <;> exact ⟨rfl, rfl, fun h => by simp [h]⟩

/-- A word of the scalar stream, or of the L-encoding's one stream (R91, R97). -/
theorem moved_scalar (h : isL = true ∨ inQueue p ahead = []) : (movedCur gh k p isL isV ahead).pcA = p.pc ∧
    (movedSplit gh k p isL isV ahead).pc = p.pc + (if isV then 12 else 4) ∧ (movedSplit gh k p isL isV ahead).queue = p.queue := by
  unfold movedSplit movedCur
  rcases h with rfl | h
  · exact ⟨rfl, rfl, rfl⟩
  · rw [h]
    cases isL <;> exact ⟨rfl, rfl, rfl⟩

/-- A word of the lane queue (R97). -/
theorem moved_queued {q : QEnt} {qs : List QEnt} (h : inQueue p ahead = q :: qs) : (movedCur gh k p false isV ahead).pcA = q.pc ∧
    (movedCur gh k p false isV ahead).pcB = q.off ∧ (movedCur gh k p false isV ahead).isV = true ∧ (movedSplit gh k p false isV ahead).pc = p.pc ∧
    (movedSplit gh k p false isV ahead).queue = qs := by
  unfold movedSplit movedCur
  rw [h]
  exact ⟨rfl, rfl, rfl, rfl, rfl⟩
end

theorem fetching_cur (s : State) (gh k : Nat) : (fetching s gh k).cur.held = false := rfl

/-- Without an agenda the step runs what autoMove names. -/
theorem step_auto {s : State} {m : Move} (ha : s.agenda = []) (hm : autoMove s = some m) : step s = runMove m s := by
  simp only [step, ha, hm]

theorem autoMove_of_autoEvent {s : State} {i : Instr} (h : autoEvent s = some i) : autoMove s = some (.ev i) := by
  simp only [autoMove, h]

end Sys2Proof.Machine

open Sys2Proof Sys2Proof.Machine

/-- Settles O57: the agenda's event runs as it is; an issue goes to the split that the choice among ready splits names, and its try fetches,
decodes and executes the word, or is taken back. -/
theorem stepRunsDecodedWord : Obligations.StepRunsDecodedWord := by
  unfold Obligations.StepRunsDecodedWord
  refine ⟨fun s i rest ha => ?_, fun s i ha hi => ?_, fun s ha hm => ?_, fun s core part ha hm => ?_, fun s core part gh k one h => issueChoice_spec h,
    fun s core part gh k one rest ha => ?_, fun s gh k l ahead => ?_⟩
  · simp only [step, ha, runMove]
  · rw [step_auto ha (autoMove_of_autoEvent hi)]
    rfl
  · simp only [step, ha, hm]
  · rw [step_auto ha hm, step_issue (s := { s with agenda := [.issue core part] }) rfl]
    rw [show ({ s with agenda := [] } : State) = s by rw [← ha]]
    rfl
  · refine ⟨fun hc => (step_issue ha).trans (issueOn_none hc), fun hc => ⟨(step_issue ha).trans (issueOn_some hc), ?_, fun i => ?_⟩⟩
    · exact congrArg State.draw (startCycle_only _ _ _ _ _)
    · exact startCycle_grp _ _ _ _ _ i
  · intro g x p q c0 hk htrap hdoom hjoin hl
    refine ⟨tryWord_first, fun u hL hq hf ht => ?_, fun hc => ?_, fun bs hc => ?_⟩
    · rw [tryWord_queued hL hq hf ht]
      refine ⟨fun hu => by simp [hu], fun hu => ?_⟩
      rw [if_pos hu]
      cases ha : aheadOf u gh k with
      | none => exact .inl rfl
      | some r =>
        obtain ⟨i, t, bad, hfetch, hmay, rfl⟩ := aheadOf_some ha
        exact .inr ⟨i, t, bad, hfetch, hmay, rfl⟩
    · exact tryAt_ended (fetch_outside htrap hdoom hjoin hl hc) (by rw [fatal_cur])
    · intro t
      have hfetch := fetch_ok htrap hdoom hjoin hl hc
      have hcur : t.cur = movedCur gh k p x.isL (x.isL && decide (192 ≤ (nthD 0 bs 3).toNat)) ahead := advance_cur _ _ _ _ _ _
      have hsp : t.sp = movedSplit gh k p x.isL (x.isL && decide (192 ≤ (nthD 0 bs 3).toNat)) ahead := advance_sp _ _ _ _ _ _ hk
      obtain ⟨hcg, hcs, hheld⟩ := movedCur_place gh k x.isL (x.isL && decide (192 ≤ (nthD 0 bs 3).toNat)) ahead p
      obtain ⟨hmask, hage, hhold⟩ := movedSplit_kept gh k p x.isL (x.isL && decide (192 ≤ (nthD 0 bs 3).toNat)) ahead
      have hword (i : Instr) (hdec : decodeHere x.isL (!x.isL && !q.isEmpty) g.allot bs = some i) : fetch s gh k ahead = .word i t none := by
        simp only [x, p, g, q] at hdec
        simp only [hfetch, hdec]
        rfl
      rw [hsp, hcur]
      refine ⟨⟨advance_only _ _ _ _ _ _, advance_cg _ _ _ _ _ _, fun j hj => ?_, hcg, hcs, hheld, hmask, hage, hhold, fun hL => ?_, fun hL hq => ?_,
        fun h hs hL hq => ?_⟩, fun hdec => ?_, fun i hdec => ⟨fun hw => ?_, fun hw => ?_⟩⟩
      · rw [advance_grp, if_neg hj]
      · simpa [hL] using moved_scalar gh k p x.isL (x.isL && decide (192 ≤ (nthD 0 bs 3).toNat)) ahead (.inl hL)
      · simpa [hL] using moved_scalar gh k p x.isL (x.isL && decide (192 ≤ (nthD 0 bs 3).toNat)) ahead (.inr hq)
      · rw [hL]
        exact moved_queued gh k p _ ahead hq
      · have hend : fetch s gh k ahead = .ended (fatal t ILLEGAL_INST 0 (wordAddr t) 0) := by
          simp only [x, p, g, q] at hdec
          simp only [hfetch, hdec]
          rfl
        exact tryAt_ended hend (by rw [fatal_cur, hcur]; exact hheld)
      · exact tryAt_held (hword i hdec) hw
      · exact tryAt_word (hword i hdec) hw
end

section
/-! Cross-lane words (R94, R200 to R205): what a counted word whose operands are ready does, in both encodings; votes, ballots and shuffles. -/
namespace Sys2Proof.Machine

/-! A counted word's results. -/

/-- The results of a counted word, in the L-encoding: they are pending under its counter (R94). -/
theorem putCounted_pending {s : State} (hL : s.isL = true) (cls : Nat) (n : Bool) (rs : List (Nat × LaneVals)) (ex : List PW) :
    let t := putCounted s cls n rs ex
    OnlyVector s.tick t ∧ t.seq = s.seq + 1 ∧
      t.cg = { s.cg with pend := s.cg.pend ++ [⟨cls, s.seq, false, (if n then [] else pws rs) ++ ex⟩], tags := t.cg.tags } := by
  have key : ∀ (rs : List (Nat × LaneVals)) (u : State), let t := rs.foldl (fun s' r => pushLatch s' r.1 n r.2 (some s.seq)) u
      OnlyVector u t ∧ t.seq = u.seq ∧ t.cg = { u.cg with tags := t.cg.tags } := by
    intro rs
    induction rs with
    | nil => exact fun u => ⟨OnlyVector.refl u, rfl, rfl⟩
    | cons r rs ih =>
      intro u
      obtain ⟨hv, hq, hg⟩ := ih (pushLatch u r.1 n r.2 (some s.seq))
      refine ⟨(pushLatch_only _ _ _ _ _).trans hv, hq.trans rfl, ?_⟩
      rw [pushLatch_cg] at hg
      exact hg
  intro t
  have ht : t = rs.foldl (fun s' r => pushLatch s' r.1 n r.2 (some s.seq))
      (s.tick.setCg { s.cg with pend := s.cg.pend ++ [⟨cls, s.seq, false, (if n then [] else pws rs) ++ ex⟩] }) := if_pos hL
  obtain ⟨hv, hq, hg⟩ := key rs (s.tick.setCg { s.cg with pend := s.cg.pend ++ [⟨cls, s.seq, false, (if n then [] else pws rs) ++ ex⟩] })
  rw [← ht] at hv hq hg
  rw [State.cg_setCg] at hg
  exact ⟨(OnlyGroup.setCg s.tick _).toVector.trans hv, hq, hg⟩

/-- In the D-encoding they are made at once (R100). -/
theorem putCounted_made {s : State} (hL : s.isL = false) (cls : Nat) (n : Bool) (rs : List (Nat × LaneVals)) (ex : List PW) :
    putCounted s cls n rs ex = s.setCg (ex.foldl writeNow (rs.foldl (fun g r => wrVals g r.1 r.2) s.cg)) := if_neg (by simp [hL])

theorem isL_afterRead (s : State) (act : Word32) (lat : List Nat) : (afterRead s act lat).isL = s.isL := by
  rw [State.isL, (SplitsKept.afterRead s act lat).ct, State.isL]

/-- The status words after the operands were read. -/
theorem afterRead_statusBy {s t : State} {act : Word32} {lat : List Nat} (h : t.cg.status = (afterRead s act lat).cg.status) :
    StatusBy s t act lat keepStatus := by
  intro l hl
  have hst : t.cg.st l = (afterRead s act lat).cg.st l := by rw [Group.st, Group.st, h]
  rw [hst, afterRead_st s act lat l hl, keepStatus, latchStatus]
  by_cases ha : inMask act l = true <;> simp [ha]

/-! Vector results. -/

/-- The lanes' results that a word has a value for. -/
def someLanes (act : Word32) (val : Nat → Option (Word64 × Word64)) : LaneVals :=
  (lanesOf act).filterMap fun l => (val l).map fun x => (l, x.1)

theorem vecWrites_i64 (h : VH) (act : Word32) (d : Nat) (val : Nat → Option (Word64 × Word64)) :
    vecWrites h act .i64 d val = if h.n then [] else pws [(d, someLanes act val)] := by
  simp [vecWrites, pws, someLanes, List.map_filterMap, Function.comp_def]

theorem wrVals_someLanes (g : Group) (act : Word32) (d : Nat) (val : Nat → Option (Word64 × Word64)) {r l : Nat} (hl : l < 32) :
    (wrVals g d (someLanes act val)).velem r l =
      if inMask act l = false then g.velem r l else if r = d then ((val l).map Prod.fst).getD (g.velem r l) else g.velem r l := by
  have hmap : someLanes act val = ((lanesOf act).filter fun k => (val k).isSome).map fun k => (k, ((val k).map Prod.fst).getD 0) := by
    rw [someLanes, ← List.filterMap_eq_map, List.filterMap_filter]
    refine List.filterMap_congr fun k _ => ?_
    cases hv : val k <;> simp [hv]
  rw [hmap, wrVals_velem d _ r l hl _ _ fun k hk => (mem_lanesOf.1 (List.mem_filter.1 hk).1).1]
  simp only [List.mem_filter, mem_lanesOf]
  by_cases ha : inMask act l = true <;> by_cases hr : r = d <;> cases val l <;> simp [ha, hr, hl]

/-- Everything a counted word with one vector result can do once its operands are ready and its counter has room. -/
theorem countedVec_of {s : State} {h : VH} {cls d : Nat} {regs lat : List Nat} {val : Nat → Option (Word64 × Word64)} {o : Out}
    (ho : o = Res.out (counted s cls (do
      let s1 ← vpre s (active s h) regs lat
      .ok (putCounted s1 cls h.n [(d, someLanes (active s h) val)] [])))) :
    CountedVec s h cls .i64 d regs lat val keepStatus o := by
  intro hr hroom _
  let s1 := afterRead s (active s h) lat
  have hpre : vpre s (active s h) regs lat = .ok s1 := vpre_ready hr
  have hread : OnlyGroup s s1 := afterRead_only s _ lat
  have hcg : s1.cg = { s.cg with status := s1.cg.status } := afterRead_cg s _ lat
  have hseq : s1.seq = s.seq := by simp only [s1, afterRead]; split_ifs <;> rfl
  refine ⟨putCounted s1 cls h.n [(d, someLanes (active s h) val)] [], ?_, afterRead_statusBy ?_, fun hL => ?_, fun hL => ?_⟩
  · rw [ho, counted, if_pos hroom, hpre]
    rfl
  · cases hL : s1.isL with
    | true => rw [(putCounted_pending hL _ _ _ _).2.2]
    | false =>
      rw [putCounted_made hL, State.cg_setCg]
      change (wrVals s1.cg d _).status = _
      rw [wrVals_frame]
  · obtain ⟨hv, hq, hg⟩ := putCounted_pending ((isL_afterRead s _ lat).trans hL) cls h.n [(d, someLanes (active s h) val)] []
    have hall : OnlyVector s1 s1.tick → OnlyVector s (putCounted s1 cls h.n [(d, someLanes (active s h) val)] []) := fun ht => (hread.toVector.trans ht).trans hv
    obtain ⟨h1, h2, h3⟩ := hall ⟨rfl, fun _ => rfl, fun _ _ => rfl⟩
    refine ⟨?_, ?_, h2, h3⟩
    · rw [hq, hseq] at h1
      exact h1
    · rw [hg, hcg, hseq, vecWrites_i64, List.append_nil]
  · rw [putCounted_made ((isL_afterRead s _ lat).trans hL)]
    refine ⟨hread.trans (OnlyGroup.setCg s1 _), ?_, fun r l hl => ?_⟩
    · rw [State.cg_setCg]
      change OnlyVecs _ (wrVals s1.cg d _)
      rw [wrVals_frame, hcg]
      rfl
    · rw [State.cg_setCg]
      change (wrVals s1.cg d _).velem r l = _
      have hvel : s1.cg.velem r l = s.cg.velem r l := by rw [Group.velem, hcg]; rfl
      rw [wrVals_someLanes _ _ _ _ hl, hvel]
      simp

/-! Scalar and predicate results. -/

theorem writeNow_status (g : Group) (w : PW) (st : AMap Word32) : writeNow { g with status := st } w = { writeNow g w with status := st } := by
  unfold writeNow Group.wS
  split_ifs <;> rfl

theorem foldl_writeNow_status (st : AMap Word32) : ∀ (ws : List PW) (g : Group), ws.foldl writeNow { g with status := st } = { ws.foldl writeNow g with status := st }
  | [], _ => rfl
  | w :: ws, g => by rw [List.foldl_cons, writeNow_status, foldl_writeNow_status st ws, List.foldl_cons]

theorem foldl_writeNow (ws : List PW) (hk : ∀ w ∈ ws, w.kind = 1 ∨ w.kind = 2) (g : Group) :
    ws.foldl writeNow g = ws.foldl (fun g w => if w.kind = 1 then g.wS w.key w.val else g.wQ (w.key / 32) (w.key % 32) w.val.toNat) g := by
  refine List.foldl_ext _ _ _ fun g w hw => ?_
  rcases hk w hw with h | h <;> simp [writeNow, h]

theorem countedWrites_of {s : State} {h : VH} {cls : Nat} {regs lat : List Nat} {n : Bool} {ws : List PW} {o : Out} (hk : ∀ w ∈ ws, w.kind = 1 ∨ w.kind = 2)
    (ho : o = Res.out (counted s cls (do
      let s1 ← vpre s (active s h) regs lat
      .ok (putCounted s1 cls n [] ws)))) :
    CountedWrites s h cls regs lat ws keepStatus o := by
  intro hr hroom
  let s1 := afterRead s (active s h) lat
  have hpre : vpre s (active s h) regs lat = .ok s1 := vpre_ready hr
  have hread : OnlyGroup s s1 := afterRead_only s _ lat
  have hcg : s1.cg = { s.cg with status := s1.cg.status } := afterRead_cg s _ lat
  have hseq : s1.seq = s.seq := by simp only [s1, afterRead]; split_ifs <;> rfl
  have hout : o = .next (putCounted s1 cls n [] ws) := by
    rw [ho, counted, if_pos hroom, hpre]
    rfl
  cases hL : s.isL with
  | true =>
    have hput : putCounted s1 cls n [] ws = s1.tick.setCg { s1.cg with pend := s1.cg.pend ++ [⟨cls, s1.seq, false, ws⟩] } := by
      simp [putCounted, isL_afterRead, s1, hL, pws]
    refine ⟨_, hout, ?_, ?_, fun _ => ?_, by simp⟩
    · rw [hput]
      exact (hread.trans (u := s1.tick) ⟨rfl, fun _ _ => rfl⟩).trans (OnlyGroup.setCg s1.tick _)
    · exact afterRead_statusBy (by rw [hput]; simp [s1])
    · rw [hput]
      refine ⟨congrArg (· + 1) hseq, ?_⟩
      rw [State.cg_setCg, hcg, hseq]
  | false =>
    have hput := putCounted_made ((isL_afterRead s (active s h) lat).trans hL) cls n [] ws
    have hfold : ws.foldl writeNow s1.cg = { ws.foldl writeNow s.cg with status := s1.cg.status } := by
      conv_lhs => rw [hcg]
      exact foldl_writeNow_status _ _ _
    rw [List.foldl_nil, hfold] at hput
    refine ⟨_, hout, ?_, ?_, by simp, fun _ => ?_⟩ <;> rw [hput]
    · exact hread.trans (OnlyGroup.setCg s1 _)
    · exact afterRead_statusBy (by rw [State.cg_setCg])
    · exact ⟨hseq, by rw [State.cg_setCg, foldl_writeNow ws hk]⟩


/-! Votes and ballots. -/

theorem mem_triRead (x : Nat) : triRead x = 0 ∨ triRead x = 1 ∨ triRead x = 2 := by
  have h4 : x % 4 < 4 := Nat.mod_lt _ (by norm_num)
  unfold triRead
  interval_cases x % 4 <;> simp

theorem foldl_triAnd : ∀ (xs : List Tri), (∀ x ∈ xs, x = 0 ∨ x = 1 ∨ x = 2) → ∀ y, y = 0 ∨ y = 1 ∨ y = 2 →
    xs.foldl triAnd y = if ∀ x ∈ y :: xs, x = 1 then 1 else if ∃ x ∈ y :: xs, x = 0 then 0 else 2
  | [], _, y, hy => by rcases hy with rfl | rfl | rfl <;> simp
  | x :: xs, hx, y, hy => by
    have ih := foldl_triAnd xs (fun z hz => hx z (by simp [hz]))
    rw [List.foldl_cons]
    rcases hx x (by simp) with rfl | rfl | rfl <;> rcases hy with rfl | rfl | rfl <;> rw [ih _ (by simp [triAnd])] <;> simp [triAnd]

theorem foldl_triOr : ∀ (xs : List Tri), (∀ x ∈ xs, x = 0 ∨ x = 1 ∨ x = 2) → ∀ y, y = 0 ∨ y = 1 ∨ y = 2 →
    xs.foldl triOr y = if ∃ x ∈ y :: xs, x = 1 then 1 else if ∀ x ∈ y :: xs, x = 0 then 0 else 2
  | [], _, y, hy => by rcases hy with rfl | rfl | rfl <;> simp
  | x :: xs, hx, y, hy => by
    have ih := foldl_triOr xs (fun z hz => hx z (by simp [hz]))
    rw [List.foldl_cons]
    rcases hx x (by simp) with rfl | rfl | rfl <;> rcases hy with rfl | rfl | rfl <;> rw [ih _ (by simp [triOr])] <;> simp [triOr]

theorem all_headD (xs : List Tri) : (xs.all (· == xs.headD 0)) = true ↔ ∀ x ∈ xs, ∀ y ∈ xs, x = y := by
  cases xs with
  | nil => simp
  | cons z xs =>
    simp only [List.headD_cons, List.all_eq_true, beq_iff_eq]
    exact ⟨fun h x hx y hy => (h x hx).trans (h y hy).symm, fun h x hx => h x hx z (by simp)⟩

/-- The vote over the lanes' values (R203). -/
theorem voteOf_spec (op : Nat) (ls : List Nat) (q : Nat → Tri) (hq : ∀ l, q l = 0 ∨ q l = 1 ∨ q l = 2) : voteOf op (ls.map q) = match op with
    | 0 => if ∀ l ∈ ls, q l = 1 then 1 else if ∃ l ∈ ls, q l = 0 then 0 else 2
    | 1 => if ∃ l ∈ ls, q l = 1 then 1 else if ∀ l ∈ ls, q l = 0 then 0 else 2
    | _ => if ∀ l ∈ ls, ∀ m ∈ ls, q l = q m then 1 else 0 := by
  have hmem : ∀ x ∈ ls.map q, x = 0 ∨ x = 1 ∨ x = 2 := by simpa using fun l _ => hq l
  match op with
  | 0 => simp [voteOf, foldl_triAnd _ hmem]
  | 1 => simp [voteOf, foldl_triOr _ hmem]
  | n + 2 =>
    have hall : ((ls.map q).all (· == (ls.map q).headD 0)) = true ↔ ∀ l ∈ ls, ∀ m ∈ ls, q l = q m := by rw [all_headD]; simp
    simp only [voteOf, boolTri, hall]

theorem inMask_lanesWith (s : State) (act : Word32) (p : Nat) (x : Tri) (l : Nat) (hl : l < 32) :
    inMask (lanesWith s act p x) l = (inMask act l && decide (s.cg.rQ s.free p l = x)) := by
  rw [lanesWith, inMask_maskOf fun k hk => (mem_lanesOf.1 (List.mem_filter.1 hk).1).1]
  simp [mem_lanesOf, hl]

theorem getLsbD_mk64 (hi lo : Word32) (l : Nat) (hl : l < 32) : (mk64 hi lo).getLsbD l = inMask lo l ∧ (mk64 hi lo).getLsbD (32 + l) = inMask hi l := by
  have h64 : 32 + l < 64 := by omega
  have h1 : l < 64 := by omega
  simp [mk64, inMask, hl, h64, h1]

theorem vpre_nil (s : State) (act : Word32) : vpre s act [] [] = .ok s := rfl

theorem rQ_tri (s : State) (p l : Nat) : s.cg.rQ s.free p l = 0 ∨ s.cg.rQ s.free p l = 1 ∨ s.cg.rQ s.free p l = 2 := mem_triRead _

theorem getLsbD_lanesWith (s : State) (act : Word32) (p : Nat) (x y : Tri) {l : Nat} (hl : l < 32) :
    let w := mk64 (lanesWith s act p y) (lanesWith s act p x)
    w.getLsbD l = (inMask act l && decide (s.cg.rQ s.free p l = x)) ∧ w.getLsbD (32 + l) = (inMask act l && decide (s.cg.rQ s.free p l = y)) := by
  intro w
  obtain ⟨hlo, hhi⟩ := getLsbD_mk64 (lanesWith s act p y) (lanesWith s act p x) l hl
  exact ⟨hlo.trans (inMask_lanesWith s act p x l hl), hhi.trans (inMask_lanesWith s act p y l hl)⟩

/-! Shuffles and broadcasts. -/

/-- What a lane gets whose source is lane `i`: nothing where that lane is not active (R200). -/
def fromLane (s : State) (act : Word32) (ty : Ty) (a : Opnd) (i : Int) : Option (Word64 × Word64) :=
  if 0 ≤ i ∧ i < 32 ∧ inMask act i.toNat = true then some (BitVec.ofNat 64 (rdW s ty a i.toNat), 0) else none

theorem shuffle_countedVec (s : State) (h : VH) (ty : Ty) (d : Nat) (ops : List Opnd) (a : Opnd) {src : State → Nat → Option Nat} {i : Nat → Int}
    (hi : ∀ l, src s l = if 0 ≤ i l then some (i l).toNat else none) :
    CountedVec s h 3 .i64 d (ops.flatMap (opRegs false)) (ops.flatMap (opLatches false)) (fun l => fromLane s (active s h) ty a (i l)) keepStatus
      (shuffle h ty d ops a src s) := by
  refine countedVec_of ?_
  have hrs : ((lanesOf (active s h)).filterMap fun l => match src s l with
      | some k => if k < 32 && inMask (active s h) k then some (l, BitVec.ofNat 64 (rdW s ty a k)) else none
      | none => none) = someLanes (active s h) fun l => fromLane s (active s h) ty a (i l) := by
    refine List.filterMap_congr fun l _ => ?_
    simp only [hi, fromLane]
    by_cases h0 : 0 ≤ i l
    · by_cases h1 : i l < 32 <;> simp [h0, h1, Int.toNat_lt h0]
    · simp [h0]
  rw [← hrs]
  rfl

/-- The lane that vbcast reads (R205). -/
def bcastSource (s : State) (src : Nat) (sel : Option Nat) : Nat := match sel with
  | some r => (s.rS r).toNat % 32
  | none => src

theorem inMask_lt {m : Word32} {l : Nat} (h : inMask m l = true) : l < 32 := BitVec.lt_of_getLsbD h

theorem fromLane_ofNat (s : State) (act : Word32) (ty : Ty) (a : Opnd) (k : Nat) :
    fromLane s act ty a k = if inMask act k = true then some (BitVec.ofNat 64 (rdW s ty a k), 0) else none := by
  by_cases ha : inMask act k = true
  · have := inMask_lt ha
    simp [fromLane, ha, this]
  · simp [fromLane, ha]

/-- What vbcast writes (R205). -/
def bcastResult (act : Word32) (d : Opnd) (x : Option (Word64 × Word64)) : List (Nat × LaneVals) × List PW := match x with
  | some x => resultFor act d x.1
  | none => (resultNone d, [])

theorem execVbcast_eq (s : State) (h : VH) (ty : Ty) (d a : Opnd) (src : Nat) (sel : Option Nat) :
    execVbcast h ty d a src sel s = Res.out (counted s 3 (do
      let s1 ← vpre s (active s h) (opRegs false a) (opLatches false a)
      let r := bcastResult (active s h) d (fromLane s (active s h) ty a (bcastSource s src sel))
      .ok (putCounted s1 3 h.n r.1 r.2))) := by
  refine congrArg (fun r => Res.out (counted s 3 (vpre s (active s h) (opRegs false a) (opLatches false a) >>= r))) (funext fun s1 => ?_)
  rw [fromLane_ofNat]
  by_cases ha : inMask (active s h) (bcastSource s src sel) = true
  · rw [if_pos ha]
    exact if_pos ha
  · rw [if_neg ha]
    exact if_neg ha

theorem vbcast_vector (s : State) (h : VH) (ty : Ty) (d : Nat) (a : Opnd) (src : Nat) (sel : Option Nat) :
    CountedVec s h 3 .i64 d (opRegs false a) (opLatches false a) (fun _ => fromLane s (active s h) ty a (bcastSource s src sel)) keepStatus
      (execVbcast h ty (.v d) a src sel s) := by
  refine countedVec_of ?_
  rw [execVbcast_eq]
  cases fromLane s (active s h) ty a (bcastSource s src sel) with
  | none => simp [bcastResult, resultNone, someLanes]
  | some x => simp [bcastResult, resultFor, vlanes, someLanes]

theorem vbcast_scalar (s : State) (h : VH) (ty : Ty) (k : Nat) (a : Opnd) (src : Nat) (sel : Option Nat) :
    CountedWrites s h 3 (opRegs false a) (opLatches false a)
      ((fromLane s (active s h) ty a (bcastSource s src sel)).map fun x => (⟨1, k, x.1, false⟩ : PW)).toList keepStatus
      (execVbcast h ty (.s k) a src sel s) := by
  rw [execVbcast_eq]
  cases fromLane s (active s h) ty a (bcastSource s src sel) with
  | none => exact countedWrites_of (n := h.n) (by simp) rfl
  | some x => exact countedWrites_of (n := h.n) (by simp) rfl

theorem vbal_writes (s : State) (h : VH) (d pa : Nat) :
    CountedWrites s h 3 [] [] [⟨1, d, mk64 (lanesWith s (active s h) pa 0) (lanesWith s (active s h) pa 1), false⟩,
      ⟨1, d + 1, (lanesWith s (active s h) pa 2).zeroExtend 64, false⟩] keepStatus (execVbal h d pa s) :=
  countedWrites_of (n := false) (by simp) rfl

theorem vvote_writes (s : State) (h : VH) (op pd pa : Nat) :
    CountedWrites s h 3 [] [] ((lanesOf (active s h)).map fun l =>
      ⟨2, pd * 32 + l, BitVec.ofNat 64 (voteOf op ((lanesOf (active s h)).map fun l => s.cg.rQ s.free pa l)), false⟩) keepStatus (execVvote h op pd pa s) :=
  countedWrites_of (n := false) (by simp) rfl

end Sys2Proof.Machine
open Sys2Proof Sys2Proof.Machine

/-- Settles O26: each word is a counted word whose results are those of `shuffle_countedVec`, `vbcast_vector`, `vbcast_scalar`, `vbal_writes` or
`vvote_writes`. -/
theorem crossLaneWords : Obligations.CrossLaneWords := by
  unfold Obligations.CrossLaneWords
  intro s h ty d pa pd op dist src k a b sel act q el from_ vote shuffles source
  have hvote : voteOf op ((lanesOf act).map q) = vote := voteOf_spec op (lanesOf act) q (rQ_tri s pa)
  have hmaybe (l : Nat) (hl : l < 32) : ((lanesWith s act pa 2).zeroExtend 64).getLsbD l = (inMask act l && decide (q l = 2)) ∧
      ((lanesWith s act pa 2).zeroExtend 64).getLsbD (32 + l) = false := by
    rw [← inMask_lanesWith s act pa 2 l hl, BitVec.getLsbD_setWidth, BitVec.getLsbD_setWidth]
    simp [inMask, show l < 64 by omega]
  have hsource : source = bcastSource s src sel := by cases sel <;> rfl
  refine ⟨⟨_, _, fun l hl => ?_, vbal_writes s h d pa⟩, ?_, ?_, ?_, ?_, ?_, ?_, ?_⟩
  · obtain ⟨htrue, hfalse⟩ := getLsbD_lanesWith s act pa 1 0 hl
    exact ⟨htrue, hfalse, hmaybe l hl⟩
  · rw [← hvote]
    exact vvote_writes s h op pd pa
  · exact shuffle_countedVec s h ty d [a, b] a (src := fun s l => some ((rdOp s b l).toNat % 32)) fun l => by
      rw [if_pos (by omega)]
      exact congrArg some (by omega)
  · exact shuffle_countedVec s h ty d [a] a (src := fun _ l => some (l ^^^ dist)) fun l => by simp
  · exact shuffle_countedVec s h ty d [a] a (src := fun _ l => if dist ≤ l then some (l - dist) else none) fun l => by simp
  · exact shuffle_countedVec s h ty d [a] a (src := fun _ l => some (l + dist)) fun l => by
      rw [if_pos (by omega)]
      exact congrArg some (by omega)
  · have hv := vbcast_vector s h ty d a src sel
    rw [← hsource] at hv
    simp only [shuffles, List.flatMap_singleton]
    exact hv
  · have hv := vbcast_scalar s h ty k a src sel
    rw [← hsource] at hv
    exact hv
end

section
/-! The words that order (R95, R98, R101, R280, R281, R331, R335): waits, fences and what they leave. -/
namespace Sys2Proof.Machine

theorem forbidTx_of_noTx {s : State} (hn : NoTx s) : forbidTx s s.sp.mask = .ok s := by simp [forbidTx, show txLanes s.cg s.sp.mask = [] from hn]

/-- A wait ends the word, or takes the try back. -/
theorem out_waitUnless (s : State) (c : Bool) : Res.out (waitUnless s c) = .next (if c then s else retry s) := by cases c <;> rfl

/-- cwait asks that no command of the group on the stream is left (R335). -/
theorem cq_done_iff (s : State) (st : Nat) :
    (s.cc.cq.all fun c => c.gh != s.cur.gh || c.f.stream != st) = true ↔ ∀ q ∈ s.cc.cq, q.gh ≠ s.cur.gh ∨ q.f.stream ≠ st := by simp

theorem execVenq_eq {s : State} {l : Launch} {c o : Nat} (hl : teamLaunch s s.ct = some l) (ho : o + c ≤ l.dllen) :
    execVenq c o s = .next (if 64 < s.sp.queue.length + c then retry s else s.setSp { s.sp with queue := s.sp.queue ++ runOf s.cur.pcA o c }) := by
  rw [execVenq, hl]
  simp only [if_neg (Nat.not_lt.2 ho)]
  exact (apply_ite Res.out _ _ _).trans (apply_ite Host.Outcome.next _ _ _).symm

theorem execCwait_eq {s : State} (hn : NoTx s) (st : Nat) :
    execCwait st s = .next (if s.cc.cq.all fun c => c.gh != s.cur.gh || c.f.stream != st then s else retry s) := by
  rw [← out_waitUnless, execCwait, forbidTx_of_noTx hn]
  rfl

/-! Release fences. -/

/-- One stream's release fences (R280). -/
theorem mget_foldl_agents (st v : Nat) (as : List Nat) (m : AMap Nat) (j : Nat) :
    mget 0 (as.foldl (fun m l => mset 0 m (st * 33 + l) v) m) j = if ∃ l ∈ as, st * 33 + l = j then v else mget 0 m j := by
  induction as generalizing m with
  | nil => simp
  | cons a as ih =>
    rw [List.foldl_cons, ih, mget_mset, if_congr (Q := st * 33 + a = j) eq_comm rfl rfl]
    by_cases h : ∃ l ∈ as, st * 33 + l = j <;> by_cases ha : st * 33 + a = j <;> simp [h, ha]

theorem mget_foldl_streams (v : Nat) (as sts : List Nat) (m : AMap Nat) (j : Nat) :
    mget 0 (sts.foldl (fun m st => as.foldl (fun m l => mset 0 m (st * 33 + l) v) m) m) j =
      if ∃ st ∈ sts, ∃ l ∈ as, st * 33 + l = j then v else mget 0 m j := by
  induction sts generalizing m with
  | nil => simp
  | cons st sts ih =>
    rw [List.foldl_cons, ih, mget_foldl_agents]
    by_cases h : ∃ st ∈ sts, ∃ l ∈ as, st * 33 + l = j <;> by_cases ha : ∃ l ∈ as, st * 33 + l = j <;> simp [h, ha]

theorem mem_fenceAgents {s : State} {a : Nat} : a ∈ fenceAgents s ↔ a = 32 ∨ inMask s.sp.mask a = true := by
  rw [fenceAgents, List.mem_append, mem_lanesOf, List.mem_singleton, or_comm]
  exact or_congr_right ⟨And.right, fun h => ⟨BitVec.lt_of_getLsbD h, h⟩⟩

theorem le_of_mem_fenceAgents {s : State} {a : Nat} (h : a ∈ fenceAgents s) : a ≤ 32 := by
  rcases mem_fenceAgents.1 h with rfl | h
  · exact le_rfl
  · exact (BitVec.lt_of_getLsbD h).le

/-- A release fence marks each agent of the split on each of its streams, and no other (R280). -/
theorem frel_fenceRelease (s : State) (scope : Nat) (sts : List Nat) {k a : Nat} (ha : a < 33) :
    mget 0 (fenceRelease s scope (fenceAgents s) sts).cg.frel (k * 33 + a) =
      if k ∈ sts ∧ a ∈ fenceAgents s then scope + 1 else mget 0 s.cg.frel (k * 33 + a) := by
  rw [fenceRelease, State.cg_setCg]
  refine (mget_foldl_streams _ _ _ _ _).trans (if_congr ⟨?_, ?_⟩ rfl rfl)
  · rintro ⟨st, hst, l, hl, heq⟩
    have hle := le_of_mem_fenceAgents hl
    have hk : st = k := by omega
    have hla : l = a := by omega
    exact ⟨hk ▸ hst, hla ▸ hl⟩
  · rintro ⟨hk, hl⟩
    exact ⟨k, hk, a, hl, rfl⟩

/-! Acquires. -/

/-- What an acquire leaves in the core: the read-only path is fresh from DIE scope on (R267), and late accesses are taken on (R279). -/
def acquiredCore (s : State) (order scope : Nat) : CoreSt :=
  { s.cc with
    ro := if acquires order = true ∧ 3 ≤ scope then [] else s.cc.ro
    late := if acquires order = true then (syncLate s scope).cc.late else s.cc.late }

/-- Only the core of the executing word may differ. -/
def OnlyOwnCore (s t : State) : Prop := t = { s with cores := t.cores } ∧ ∀ k, k ≠ s.ct.core → t.core k = s.core k

theorem OnlyOwnCore.refl (s : State) : OnlyOwnCore s s := ⟨rfl, fun _ _ => rfl⟩

theorem OnlyOwnCore.setCore (s : State) (x : CoreSt) : OnlyOwnCore s (s.setCore s.ct.core x) := ⟨rfl, fun _ h => State.core_setCore_ne s x h⟩

theorem OnlyOwnCore.trans {s t u : State} (h : OnlyOwnCore s t) (k : OnlyOwnCore t u) : OnlyOwnCore s u := by
  have hct : t.ct = s.ct := by rw [h.1]; rfl
  exact ⟨by rw [k.1, h.1], fun i hi => (k.2 i (by rwa [hct])).trans (h.2 i hi)⟩

theorem OnlyOwnCore.ct {s t : State} (h : OnlyOwnCore s t) : t.ct = s.ct := by rw [h.1]; rfl

theorem OnlyOwnCore.cur {s t : State} (h : OnlyOwnCore s t) : t.cur = s.cur := by rw [h.1]

/-- An acquire at a scope takes a late access on (R279, R285). -/
def takesOn (gh scope : Nat) (w : LateW) : Bool := w.pass.any (spSyncs gh scope) && !w.sync.contains gh

/-- The late accesses of a core after an acquire at a scope. -/
def lateSynced (gh scope : Nat) (late : List LateW) : List LateW :=
  if late.any (takesOn gh scope) then late.map fun w => if takesOn gh scope w then { w with sync := gh :: w.sync } else w else late

theorem syncLate_spec (s : State) (scope : Nat) :
    OnlyOwnCore s (syncLate s scope) ∧ (syncLate s scope).cc = { s.cc with late := lateSynced s.cur.gh scope s.cc.late } := by
  unfold lateSynced
  by_cases h : s.cc.late.any (takesOn s.cur.gh scope) = true
  · rw [if_pos h, show syncLate s scope = s.setCore s.ct.core _ from if_pos h]
    exact ⟨OnlyOwnCore.setCore s _, State.core_setCore _ _ _⟩
  · rw [if_neg h, show syncLate s scope = s from if_neg h]
    exact ⟨OnlyOwnCore.refl s, rfl⟩

theorem acquiredOn_spec (s : State) (order scope : Nat) :
    OnlyOwnCore s (acquiredOn s s.ct.core order scope) ∧
      (acquiredOn s s.ct.core order scope).cc = { s.cc with ro := if acquires order = true ∧ 3 ≤ scope then [] else s.cc.ro } := by
  by_cases h : acquires order = true ∧ 3 ≤ scope
  · have heq : acquiredOn s s.ct.core order scope = s.setCore s.ct.core { s.cc with ro := [] } := if_pos (by simpa using h)
    rw [heq, if_pos h]
    exact ⟨OnlyOwnCore.setCore s _, State.core_setCore _ _ _⟩
  · have heq : acquiredOn s s.ct.core order scope = s := if_neg (by simpa using h)
    rw [heq, if_neg h]
    exact ⟨OnlyOwnCore.refl s, rfl⟩

theorem acquired_spec (s : State) (order scope : Nat) :
    OnlyOwnCore s (acquired s order scope) ∧ (acquired s order scope).cc = acquiredCore s order scope := by
  obtain ⟨hon, hro⟩ := acquiredOn_spec s order scope
  obtain ⟨hsync, hlate⟩ := syncLate_spec (acquiredOn s s.ct.core order scope) scope
  unfold acquiredCore
  by_cases ha : acquires order = true
  · rw [show acquired s order scope = syncLate _ scope from if_pos ha, if_pos ha, (syncLate_spec s scope).2, hlate, hro, hon.cur]
    exact ⟨hon.trans hsync, rfl⟩
  · rw [show acquired s order scope = acquiredOn s s.ct.core order scope from if_neg ha, if_neg ha]
    exact ⟨hon, hro⟩

/-! What a fence leaves. -/

/-- A fence leaves its release marks in the group and its acquire in the core, and nothing else. -/
def FenceLeaves (s : State) (scope order : Nat) (sts : List Nat) (t : State) : Prop :=
  t = { s with cores := t.cores, groups := t.groups } ∧ (∀ k, k ≠ s.ct.core → t.core k = s.core k) ∧ (∀ k, k ≠ s.cur.gh → t.grp k = s.grp k) ∧
    t.cg = { s.cg with frel := t.cg.frel } ∧
    (∀ k a, a < 33 → mget 0 t.cg.frel (k * 33 + a) =
      if releases order = true ∧ k ∈ sts ∧ a ∈ fenceAgents s then scope + 1 else mget 0 s.cg.frel (k * 33 + a)) ∧
    t.core s.ct.core = acquiredCore s order scope

/-- What a fence leaves in its group: the release marks (R280). -/
def fenceMarked (s : State) (scope order : Nat) (sts : List Nat) : State :=
  if releases order then fenceRelease s scope (fenceAgents s) sts else s

theorem fenceMarked_spec (s : State) (scope order : Nat) (sts : List Nat) :
    OnlyGroup s (fenceMarked s scope order sts) ∧
      (fenceMarked s scope order sts).cg = { s.cg with frel := (fenceMarked s scope order sts).cg.frel } ∧
      (fenceMarked s scope order sts).seq = s.seq ∧
      ∀ k a, a < 33 → mget 0 (fenceMarked s scope order sts).cg.frel (k * 33 + a) =
        if releases order = true ∧ k ∈ sts ∧ a ∈ fenceAgents s then scope + 1 else mget 0 s.cg.frel (k * 33 + a) := by
  by_cases hr : releases order = true
  · rw [fenceMarked, if_pos hr]
    refine ⟨OnlyGroup.setCg s _, by rw [fenceRelease, State.cg_setCg], rfl, fun k a ha => ?_⟩
    simp [frel_fenceRelease s scope sts ha, hr]
  · rw [fenceMarked, if_neg hr]
    exact ⟨OnlyGroup.refl s, rfl, rfl, fun k a _ => by simp [hr]⟩

theorem acquiredCore_congr {s u : State} (hcur : u.cur = s.cur) (hcc : u.cc = s.cc) (order scope : Nat) :
    acquiredCore u order scope = acquiredCore s order scope := by
  simp only [acquiredCore, (syncLate_spec _ scope).2, hcur, hcc]

theorem fenced_leaves (s : State) (scope order : Nat) (sts : List Nat) : FenceLeaves s scope order sts (fenced s scope order sts) := by
  obtain ⟨⟨hu, hgrp⟩, hcg, hseq, hfrel⟩ := fenceMarked_spec s scope order sts
  change FenceLeaves s scope order sts (acquired (fenceMarked s scope order sts) order scope)
  generalize fenceMarked s scope order sts = u at hu hgrp hcg hseq hfrel
  obtain ⟨⟨ht, hcore⟩, hcc⟩ := acquired_spec u order scope
  generalize acquired u order scope = t at ht hcore hcc
  have hcur : u.cur = s.cur := by rw [hu]
  have hct : u.ct = s.ct := by
    have hteam : u.cg.team = s.cg.team := by rw [hcg]
    rw [State.ct, hteam, hu]
    rfl
  have hcores : ∀ k, u.core k = s.core k := fun k => by rw [hu]; rfl
  have hgroups : ∀ k, t.grp k = u.grp k := fun k => by rw [ht]; rfl
  have htcg : t.cg = u.cg := by rw [ht]; rfl
  have htct : t.ct = s.ct := (show t.ct = u.ct by rw [ht]; rfl).trans hct
  refine ⟨?_, fun k hk => ?_, fun k hk => (hgroups k).trans (hgrp k hk), ?_, fun k a ha => ?_, ?_⟩
  · rw [ht, hu, hseq]
  · rw [hcore k (by rwa [hct]), hcores]
  · rw [htcg, ← hcg]
  · rw [htcg, hfrel k a ha]
  · rw [← acquiredCore_congr hcur (by rw [State.cc, hct, hcores]; rfl), ← hcc, State.cc, htct]

/-! What the fences wait for. -/

theorem execFence_eq {s : State} (hn : NoTx s) (st scope order : Nat) :
    execFence st scope order s =
      .next (if releases order = true ∧ ¬ relReady s s.cur.gh st s.seq = true then retry s else fenced s scope order [st]) := by
  rw [execFence, forbidTx_of_noTx hn]
  change Res.out (if _ then _ else _) = _
  cases hr : releases order <;> cases hy : relReady s s.cur.gh st s.seq <;> rfl

/-- The streams of a mask (R281). -/
def streamsOf (m : BitVec 16) : List Nat := (List.range 16).filter fun k => m.getLsbD k

theorem mem_streamsOf {m : BitVec 16} {k : Nat} : k ∈ streamsOf m ↔ k < 16 ∧ m.getLsbD k = true := by simp [streamsOf]

theorem one_lt_streamsOf (m : BitVec 16) : 1 < (streamsOf m).length ↔ ∃ j k, j ∈ streamsOf m ∧ k ∈ streamsOf m ∧ j ≠ k := by
  have hnd : (streamsOf m).Nodup := List.Nodup.filter _ List.nodup_range
  rw [← List.toFinset_card_of_nodup hnd, Finset.one_lt_card_iff]
  simp

theorem execFencex_eq {s : State} (hn : NoTx s) (scope order : Nat) (m : BitVec 16) :
    execFencex scope order m s =
      .next (if (releases order = true ∨ 1 < (streamsOf m).length) ∧ ∃ k ∈ streamsOf m, ¬ relReady s s.cur.gh k s.seq = true then retry s
        else fenced s scope order (streamsOf m)) := by
  rw [execFencex, forbidTx_of_noTx hn]
  have hcond : ((releases order || decide (1 < (streamsOf m).length)) && (streamsOf m).any fun st => !relReady s s.cur.gh st s.seq) = true ↔
      (releases order = true ∨ 1 < (streamsOf m).length) ∧ ∃ k ∈ streamsOf m, ¬ relReady s s.cur.gh k s.seq = true := by simp
  rw [← if_congr hcond rfl rfl]
  exact apply_ite Res.out _ _ _ |>.trans (apply_ite Host.Outcome.next _ _ _).symm

end Sys2Proof.Machine
open Sys2Proof Sys2Proof.Machine

/-- Settles O7: each word either takes its try back or leaves what `fenced_leaves` says. -/
theorem orderingWords : Obligations.OrderingWords := by
  unfold Obligations.OrderingWords
  intro s vm sm as xl c o st scope order m l sts ready fenced'
  have hleft (on : Nat → Prop) (ks : List Nat) (hon : ∀ k, k ∈ ks ↔ on k) : fenced' on (fenced s scope order ks) := by
    obtain ⟨hstate, hcores, hgroups, hcg, hfrel, hcore⟩ := fenced_leaves s scope order ks
    refine ⟨hstate, hcores, hgroups, hcg, fun k a ha hk hr hl => ?_, fun k a ha hno => ?_, hcore⟩
    · rw [hfrel k a ha, if_pos ⟨hr, (hon k).2 hk, mem_fenceAgents.2 hl⟩]
    · rw [hfrel k a ha, if_neg fun ⟨hr, hk, hl⟩ => hno ⟨(hon k).1 hk, hr, mem_fenceAgents.1 hl⟩]
  have hsts (k : Nat) : k ∈ streamsOf m ↔ sts k := mem_streamsOf
  refine ⟨rfl, ?_, fun hl ho hq => ?_, fun hl ho hq => ?_, fun hn hc => ?_, fun hn hc => ?_, fun hn hc => ?_, fun hn hr hc => ?_, fun hn hc => ?_, fun hn hc hw => ?_⟩
  · refine (out_waitUnless s _).trans (congrArg Host.Outcome.next (if_congr ?_ rfl rfl))
    simp [and_assoc]
  · exact (execVenq_eq hl ho).trans (congrArg Host.Outcome.next (if_neg (Nat.not_lt.2 hq)))
  · exact (execVenq_eq hl ho).trans (congrArg Host.Outcome.next (if_pos hq))
  · exact (execCwait_eq hn st).trans (congrArg Host.Outcome.next (if_pos ((cq_done_iff s st).2 hc)))
  · refine (execCwait_eq hn st).trans (congrArg Host.Outcome.next (if_neg fun h => ?_))
    obtain ⟨q, hq, hgh, hst⟩ := hc
    exact ((cq_done_iff s st).1 h q hq).elim (· hgh) (· hst)
  · refine ⟨_, (execFence_eq hn st scope order).trans (congrArg Host.Outcome.next (if_neg ?_)), hleft _ [st] (by simp)⟩
    rintro ⟨hr, hnot⟩
    rcases hc with h | h
    · simp [hr] at h
    · exact hnot h
  · exact (execFence_eq hn st scope order).trans (congrArg Host.Outcome.next (if_pos ⟨hr, hc⟩))
  · refine ⟨_, (execFencex_eq hn scope order m).trans (congrArg Host.Outcome.next (if_neg ?_)), hleft _ _ hsts⟩
    rintro ⟨hmany, k, hk, hnot⟩
    rcases hc with ⟨hr, hone⟩ | hall
    · rcases hmany with h | h
      · simp [hr] at h
      · obtain ⟨i, j, hi, hj, hne⟩ := (one_lt_streamsOf m).1 h
        exact hne (hone i j ((hsts i).1 hi) ((hsts j).1 hj))
    · exact hnot (hall k ((hsts k).1 hk))
  · obtain ⟨k, hk, hnot⟩ := hw
    have hmany : releases order = true ∨ 1 < (streamsOf m).length :=
      hc.imp_right fun ⟨i, j, hi, hj, hne⟩ => (one_lt_streamsOf m).2 ⟨i, j, (hsts i).2 hi, (hsts j).2 hj, hne⟩
    exact (execFencex_eq hn scope order m).trans (congrArg Host.Outcome.next (if_pos ⟨hmany, k, (hsts k).2 hk, hnot⟩))
end

section
/-! Copies (R332 to R335): what cpy does at issue, and what the engine leaves of a range of scratchpad of its own core. -/
namespace Sys2Proof.Machine

/-! Bytes of a number. -/

theorem byte_of_ofBytes : ∀ (bs : List Byte) (k : Nat), BitVec.ofNat 8 (ofBytes bs / 2 ^ (8 * k)) = nthD 0 bs k
  | [], k => by simp [ofBytes, nthD]
  | b :: bs, 0 => by
    refine BitVec.eq_of_toNat_eq ?_
    simpa [ofBytes, nthD] using b.isLt
  | b :: bs, k + 1 => by
    have hdiv : ofBytes (b :: bs) / 2 ^ (8 * (k + 1)) = ofBytes bs / 2 ^ (8 * k) := by
      rw [show 2 ^ (8 * (k + 1)) = 256 * 2 ^ (8 * k) by rw [Nat.mul_succ, pow_add]; ring, ← Nat.div_div_eq_div_mul, ofBytes]
      congr 1
      have := b.isLt
      omega
    rw [hdiv, byte_of_ofBytes bs k]
    rfl

theorem nthD_map_range {α : Type} (d : α) (f : Nat → α) {n k : Nat} (h : k < n) : nthD d ((List.range n).map f) k = f k := by
  rw [nthD_map 0 d f _ _ (by rwa [List.length_range]), nthD_range h]

/-- Bytes read as a number are its bytes. -/
theorem nthD_toBytes_rdSp (c : CoreSt) (o : Nat) {n k : Nat} (h : k < n) : nthD 0 (toBytes n (c.rdSp o n)) k = mget 0 c.sp (o + k) := by
  rw [toBytes, nthD_map_range 0 _ h, CoreSt.rdSp, byte_of_ofBytes, nthD_map_range 0 _ h]

theorem mget_wrSp (c : CoreSt) (o : Nat) (bs : List Byte) (j : Nat) :
    mget 0 (c.wrSp o bs).sp j = if o ≤ j ∧ j < o + bs.length then nthD 0 bs (j - o) else mget 0 c.sp j := by
  have hcells : cellsOf o bs = (List.range bs.length).map fun i => (o + i, (fun x => nthD 0 bs (x - o)) (o + i)) := by simp [cellsOf]
  change mget 0 (msetAll 0 c.sp (cellsOf o bs)) j = _
  rw [hcells]
  split_ifs with h
  · exact mget_msetAll_run 0 c.sp o bs.length (fun x => nthD 0 bs (x - o)) h.1 h.2
  · exact mget_msetAll_out 0 c.sp o bs.length (fun x => nthD 0 bs (x - o)) (by omega)

/-! A granule of a copy from scratchpad to scratchpad of one core. -/

/-- A change of the scratchpads and of the waits for pages, and of no queue. -/
def SpStep (core : Nat) (u t : State) : Prop := t = { u with cores := t.cores } ∧ (t.core core).cq = (u.core core).cq

theorem endTries_spec (u : State) (ctx k : Nat) (who : List Nat) (core : Nat) :
    SpStep core u (endTries u ctx k who) ∧ ((endTries u ctx k who).core core).sp = (u.core core).sp ∧
      ((endTries u ctx k who).core core).full = (u.core core).full := by
  unfold endTries
  split_ifs
  · by_cases hk : core = k
    · subst hk
      exact ⟨⟨rfl, by rw [State.core_setCore]⟩, by rw [State.core_setCore], by rw [State.core_setCore]⟩
    · rw [State.core_setCore_ne _ _ hk]
      exact ⟨⟨rfl, by rw [State.core_setCore_ne _ _ hk]⟩, rfl, rfl⟩
  · exact ⟨⟨rfl, rfl⟩, rfl, rfl⟩

theorem SpStep.trans {core : Nat} {s t u : State} (h : SpStep core s t) (k : SpStep core t u) : SpStep core s u :=
  ⟨by rw [k.1, h.1], k.2.trans h.2⟩

/-- A granule without a combination: the target's bytes become the source's, its bit full where the copy sets it. -/
theorem cpyPutSp_spec (u : State) {f : CpyF} (hf : f.redop = 0) (core src dst : Nat) (po : Bool) :
    let t := cpyPutSp u f core dst ((u.core core).rdSp src 16) po
    SpStep core u t ∧
      (∀ j, mget 0 (t.core core).sp j = if dst ≤ j ∧ j < dst + 16 then mget 0 (u.core core).sp (src + (j - dst)) else mget 0 (u.core core).sp j) ∧
      ∀ k, (t.core core).isFull k = ((u.core core).isFull k || (f.fe && decide (k = dst / 16))) := by
  intro t
  have hlen : (toBytes 16 ((u.core core).rdSp src 16)).length = 16 := by simp [toBytes]
  have hv : cpyCombine f ((u.core core).rdSp dst 16) ((u.core core).rdSp src 16) = (u.core core).rdSp src 16 := if_pos hf
  have hcore : ∃ sp', t.core core = { (u.core core) with
      sp := ((u.core core).wrSp dst (toBytes 16 ((u.core core).rdSp src 16))).sp
      spois := sp'
      full := if f.fe then mset false (u.core core).full (dst / 16) true else (u.core core).full } := by
    refine ⟨(t.core core).spois, ?_⟩
    simp only [t, cpyPutSp, State.core_setCore, hv]
    cases f.fe <;> rfl
  obtain ⟨sp', hcore⟩ := hcore
  refine ⟨⟨rfl, by rw [hcore]⟩, fun j => ?_, fun k => ?_⟩
  · rw [hcore]
    simp only [mget_wrSp, hlen]
    refine if_ctx_congr Iff.rfl (fun h => ?_) fun _ => rfl
    exact nthD_toBytes_rdSp _ _ (by omega)
  · rw [hcore]
    cases f.fe <;> simp [CoreSt.isFull, mget_mset, Bool.or_comm]

/-- A range in the team's own window of scratchpad (R53, R268). -/
def Placed (tm : Team) (a len : Nat) : Prop :=
  a < 2 ^ 32 ∧ a / 2 ^ 24 = 0 ∧ a / 2 ^ 21 % 8 = 7 ∧ tm.off ≤ a % 2 ^ 21 ∧ a % 2 ^ 21 + len ≤ tm.off + tm.bytes ∧ a % 2 ^ 21 + len ≤ 0x180000 ∧ a % 2 ^ 21 % 16 = 0

theorem cpyPlace_placed {u : State} {tid : Nat} {x : Word64} {len i : Nat} (hp : Placed (u.team tid) x.toNat len) (hi : 16 * i + 16 ≤ len)
    (w : Bool) (who : List Nat) :
    cpyPlace u tid true ((cpyAddr true x + 16 * i) % 2 ^ 64) w who = .sp (u.team tid).core (x.toNat % 2 ^ 21 + 16 * i) := by
  obtain ⟨hlt, hhi, hpos, hoff, hend, htop, _⟩ := hp
  have ha : (cpyAddr true x + 16 * i) % 2 ^ 64 = x.toNat + 16 * i := by
    rw [cpyAddr, if_pos rfl, Nat.mod_eq_of_lt hlt]
    exact Nat.mod_eq_of_lt (by omega)
  have hr : spRange u (u.team tid) 16 (x.toNat + 16 * i) = .at_ (u.team tid).core (x.toNat % 2 ^ 21 + 16 * i) := by
    generalize x.toNat = a at *
    have hoff' : (a + 16 * i) % 2 ^ 21 = a % 2 ^ 21 + 16 * i := by omega
    have hpos' : (a + 16 * i) / 2 ^ 21 % 8 = 7 := by omega
    have hhi' : (a + 16 * i) / 2 ^ 24 = 0 := by omega
    simp only [spRange, hoff', hpos', hhi']
    rw [if_neg (by omega), if_pos (by simp), if_pos (by simp; omega)]
  rw [ha, cpyPlace, if_pos rfl, hr]

/-- The first command of a core's queue copies within its team's window there, without a combination; its ranges are apart. -/
structure WindowCopy (s : State) (core : Nat) (c : CCmd) (len : Nat) : Prop where
  home : (s.team (s.grp c.gh).team).core = core
  begun : c.begun = true
  plain : c.f.redop = 0
  toSp : cpyDsp c.ctl = true
  ofSp : cpySsp c.ctl = true
  src : Placed (s.team (s.grp c.gh).team) c.src.toNat len
  dst : Placed (s.team (s.grp c.gh).team) c.dst.toNat len
  apart : c.src.toNat % 2 ^ 21 + len ≤ c.dst.toNat % 2 ^ 21 ∨ c.dst.toNat % 2 ^ 21 + len ≤ c.src.toNat % 2 ^ 21

theorem WindowCopy.granule {u : State} {core : Nat} {c : CCmd} {len i : Nat} (hc : WindowCopy u core c len) (hi : 16 * i + 16 ≤ len) :
    ∃ po ctx w w', cpyGranule u c i = .next (endTries (endTries
      (cpyPutSp u c.f core (c.dst.toNat % 2 ^ 21 + 16 * i) ((u.core core).rdSp (c.src.toNat % 2 ^ 21 + 16 * i) 16) po) ctx core w) ctx core w') := by
  refine ⟨(u.core core).spPoison (c.src.toNat % 2 ^ 21 + 16 * i) 16, (u.team (u.grp c.gh).team).ctx, c.who i false, c.who i true, ?_⟩
  have hb : cpyBegin u c = u := if_pos hc.begun
  simp only [cpyGranule, hc.ofSp, hc.toSp, cpyPlace_placed hc.src hi, cpyPlace_placed hc.dst hi, cpySource, cpyPut, hb, hc.home]

theorem WindowCopy.of_step {s u : State} {core : Nat} {c : CCmd} {len : Nat} (hc : WindowCopy s core c len) (h : SpStep core s u) (n : Nat) :
    WindowCopy u core { c with pos := n } len := by
  have hteam : u.team (u.grp c.gh).team = s.team (s.grp c.gh).team := by rw [h.1]; rfl
  exact ⟨by rw [hteam]; exact hc.home, hc.begun, hc.plain, hc.toSp, hc.ofSp, by rw [hteam]; exact hc.src, by rw [hteam]; exact hc.dst, hc.apart⟩

/-- The first n granules of a copy have been written, and nothing else. -/
structure Copied (s : State) (core : Nat) (c : CCmd) (n : Nat) (u : State) : Prop where
  step : SpStep core s u
  bytes : ∀ j, mget 0 (u.core core).sp j = if c.dst.toNat % 2 ^ 21 ≤ j ∧ j < c.dst.toNat % 2 ^ 21 + 16 * n
    then mget 0 (s.core core).sp (c.src.toNat % 2 ^ 21 + (j - c.dst.toNat % 2 ^ 21)) else mget 0 (s.core core).sp j
  full : ∀ k, (u.core core).isFull k =
    ((s.core core).isFull k || (c.f.fe && decide (c.dst.toNat % 2 ^ 21 / 16 ≤ k) && decide (k < c.dst.toNat % 2 ^ 21 / 16 + n)))

theorem Copied.start (s : State) (core : Nat) (c : CCmd) : Copied s core c 0 s :=
  ⟨⟨rfl, rfl⟩, fun j => by rw [if_neg (by omega)], fun k => by
    have hno : ¬ (c.dst.toNat % 2 ^ 21 / 16 ≤ k ∧ k < c.dst.toNat % 2 ^ 21 / 16 + 0) := by omega
    rw [Bool.and_assoc, ← Bool.decide_and, decide_eq_false hno, Bool.and_false, Bool.or_false]⟩

theorem Copied.next {s u : State} {core : Nat} {c : CCmd} {len n : Nat} (hc : WindowCopy s core c len) (hn : 16 * n + 16 ≤ len) (hu : Copied s core c n u) :
    ∃ t, cpyGranule u { c with pos := n } n = .next t ∧ Copied s core c (n + 1) t := by
  obtain ⟨po, ctx, w, w', hg⟩ := (hc.of_step hu.step n).granule hn
  refine ⟨_, hg, ?_⟩
  have hdst : c.dst.toNat % 2 ^ 21 % 16 = 0 := hc.dst.2.2.2.2.2.2
  have hapart := hc.apart
  obtain ⟨hput, hbytes, hfull⟩ := cpyPutSp_spec u hc.plain core (c.src.toNat % 2 ^ 21 + 16 * n) (c.dst.toNat % 2 ^ 21 + 16 * n) po
  dsimp only
  generalize cpyPutSp u c.f core (c.dst.toNat % 2 ^ 21 + 16 * n) ((u.core core).rdSp (c.src.toNat % 2 ^ 21 + 16 * n) 16) po = t at hput hbytes hfull ⊢
  obtain ⟨h1, hsp1, hfull1⟩ := endTries_spec t ctx core w core
  obtain ⟨h2, hsp2, hfull2⟩ := endTries_spec (endTries t ctx core w) ctx core w' core
  refine ⟨((hu.step.trans hput).trans h1).trans h2, fun j => ?_, fun k => ?_⟩
  · rw [hsp2, hsp1, hbytes, hu.bytes, hu.bytes]
    generalize c.dst.toNat % 2 ^ 21 = d at *
    generalize c.src.toNat % 2 ^ 21 = e at *
    by_cases hnew : d + 16 * n ≤ j ∧ j < d + 16 * n + 16
    · rw [if_pos hnew, if_neg (by omega), if_pos (by omega)]
      exact congrArg (mget 0 (s.core core).sp) (by omega)
    · rw [if_neg hnew]
      exact if_congr (by omega) rfl rfl
  · rw [CoreSt.isFull, hfull2, hfull1]
    refine (hfull k).trans ?_
    rw [hu.full, Bool.or_assoc]
    generalize c.dst.toNat % 2 ^ 21 = d at *
    have hk : (decide (d / 16 ≤ k) && decide (k < d / 16 + n) || decide (k = (d + 16 * n) / 16)) = (decide (d / 16 ≤ k) && decide (k < d / 16 + (n + 1))) := by
      rw [Bool.eq_iff_iff]
      simp only [Bool.or_eq_true, Bool.and_eq_true, decide_eq_true_eq]
      omega
    rw [Bool.and_assoc, Bool.and_assoc, ← Bool.and_or_distrib_left, hk]

theorem Copied.run {s : State} {core : Nat} {c : CCmd} {len : Nat} (hc : WindowCopy s core c len) (he : c.early = []) :
    ∀ (m n : Nat) (u : State), 16 * (n + m) ≤ len → Copied s core c n u →
      ∃ t, cpyRun m u { c with pos := n } = (.next t, { c with pos := n + m }) ∧ Copied s core c (n + m) t
  | 0, n, u, _, hu => ⟨u, rfl, hu⟩
  | m + 1, n, u, hlen, hu => by
    obtain ⟨t, hg, ht⟩ := hu.next hc (by omega)
    obtain ⟨v, hr, hv⟩ := Copied.run hc he m (n + 1) t (by omega) ht
    have hbegun : ({ c with pos := n + 1, begun := true } : CCmd) = { c with pos := n + 1 } := by rw [← hc.begun]
    refine ⟨v, ?_, by rwa [Nat.add_right_comm] at hv⟩
    rw [cpyRun, if_neg (by simp [he])]
    simp only [hg, hbegun, hr, Nat.add_right_comm n 1 m]
    rfl

/-! The end of a command. -/

theorem setHead_none {t : State} {core : Nat} {c : CCmd} {rest : List CCmd} (h : (t.core core).cq = c :: rest) :
    setHead t core none = t.setCore core { t.core core with cq := rest } := by
  simp [setHead, h]

theorem stepRec_plain (s : State) {c : CCmd} (h : c.f.step = false) (ev : Nat) : stepRec s c ev = s := by simp [stepRec, h]

theorem execCopyCommandComplete_done {s t : State} {core : Nat} {c c' : CCmd} {rest : List CCmd} (hq : (s.core core).cq = c :: rest) (hb : c.begun = true)
    (hr : cpyRun (cpyLen c.ctl / 16 - c.pos) s c = (.next t, c')) (hp : (t.io.peerOut.any fun p => p.id == c.id && p.gh == c.gh) = false)
    (hs : c.f.step = false) : execCopyCommandComplete core s = .next (dropPend (setHead t core none) c.gh c.id) := by
  have hready : cpyReady s c = true := by simp [cpyReady, hb]
  simp only [execCopyCommandComplete, hq, hready, if_true, hr, hp, stepRec_plain _ hs]
  rfl

/-- The engine copies the whole range at one event, and the command leaves. -/
theorem WindowCopy.complete {s : State} {core : Nat} {c : CCmd} {rest : List CCmd} (hc : WindowCopy s core c (cpyLen c.ctl))
    (hq : (s.core core).cq = c :: rest) (hpos : c.pos = 0) (he : c.early = []) (hp : ∀ p ∈ s.io.peerOut, ¬ (p.id = c.id ∧ p.gh = c.gh))
    (hs : c.f.step = false) :
    ∃ u, Copied s core c (cpyLen c.ctl / 16) u ∧
      execCopyCommandComplete core s = .next (dropPend (u.setCore core { u.core core with cq := rest }) c.gh c.id) := by
  obtain ⟨u, hr, hu⟩ := Copied.run hc he (cpyLen c.ctl / 16) 0 s (by omega) (Copied.start s core c)
  have hc0 : ({ c with pos := 0 } : CCmd) = c := by rw [← hpos]
  rw [Nat.zero_add, hc0] at hr
  rw [Nat.zero_add] at hu
  have hnone : (u.io.peerOut.any fun p => p.id == c.id && p.gh == c.gh) = false := by
    rw [hu.step.1]
    simpa using hp
  have hrun : cpyRun (cpyLen c.ctl / 16 - c.pos) s c = (.next u, { c with pos := cpyLen c.ctl / 16 }) := by rw [hpos]; exact hr
  refine ⟨u, hu, ?_⟩
  rw [execCopyCommandComplete_done hq hc.begun hrun hnone hs, setHead_none (hu.step.2.trans hq)]

/-! At issue. -/

theorem execCpy_eq {s : State} {f : CpyF} (hn : NoTx s) (hroom : roomCounter s 2 = true) (hfe : f.fe = true → cpyDsp (s.rS f.ctl) = true)
    (hdst : cpyAddr (cpyDsp (s.rS f.ctl)) (s.rS f.dst) % 16 = 0) (hsrc : cpyAddr (cpySsp (s.rS f.ctl)) (s.rS f.src) % 16 = 0)
    (hlen : cpyLen (s.rS f.ctl) % 16 = 0)
    (hd : ∃ c o, cpyRange s (cpyDsp (s.rS f.ctl)) (cpyAddr (cpyDsp (s.rS f.ctl)) (s.rS f.dst)) (cpyLen (s.rS f.ctl)) = .at_ c o)
    (hs : ∃ c o, cpyRange s (cpySsp (s.rS f.ctl)) (cpyAddr (cpySsp (s.rS f.ctl)) (s.rS f.src)) (cpyLen (s.rS f.ctl)) = .at_ c o) :
    execCpy f s = .next (
      let c : CCmd := ⟨f, s.seq, s.cur.gh, s.rS f.dst, s.rS f.src, s.rS f.ctl, false, 0, [], wordPlace s⟩
      if cpyLen (s.rS f.ctl) = 0 then stepRec (stepRec s c 10) c 11
      else
        let s2 := s.setCg { s.cg with pend := s.cg.pend ++ [⟨2, s.seq, true, []⟩] }
        s2.setCore s2.ct.core { s2.cc with cq := s2.cc.cq ++ [c] }) := by
  obtain ⟨cd, od, hd⟩ := hd
  obtain ⟨cs, os, hs⟩ := hs
  have hbad : (f.fe && !cpyDsp (s.rS f.ctl)) = false := by cases h : f.fe <;> simp [hfe, h]
  rw [execCpy, forbidTx_of_noTx hn]
  change Res.out (if _ then _ else if _ then _ else if _ then _ else _) = _
  rw [if_neg (by simp [hbad]), if_neg (by simp [cASYNC, hroom]), if_neg (by simp [hdst, hsrc, hlen])]
  simp only [hd, hs]
  exact (apply_ite Res.out _ _ _).trans (apply_ite Host.Outcome.next _ _ _).symm

end Sys2Proof.Machine
open Sys2Proof Sys2Proof.Machine

/-- Settles O38: `execCpy_eq` at issue; the engine's granules by `Copied.run`. -/
theorem copyCommands : Obligations.CopyCommands := by
  unfold Obligations.CopyCommands
  constructor
  · intro s f hn hroom ctl dst src len hfe hdst hsrc hlen hd hs
    have heq := execCpy_eq hn hroom hfe hdst hsrc hlen hd hs
    refine ⟨fun h0 hstep => ?_, fun h0 => ⟨_, heq.trans (congrArg Host.Outcome.next (if_neg h0)), ?_⟩⟩
    · refine heq.trans (congrArg Host.Outcome.next ((if_pos h0).trans ?_))
      rw [stepRec_plain _ hstep, stepRec_plain _ hstep]
    · let s2 := s.setCg { s.cg with pend := s.cg.pend ++ [⟨2, s.seq, true, []⟩] }
      have hct : s2.ct = s.ct := by rw [State.ct, State.cg_setCg]; rfl
      have hcc : s2.cc = s.cc := by rw [State.cc, hct]; rfl
      refine ⟨rfl, ?_, fun k hk => ?_, fun i hi => State.grp_setCg_ne s _ hi, State.cg_setCg s _⟩
      · rw [← hct, State.core_setCore, hcc]
      · exact State.core_setCore_ne s2 _ (by rwa [hct])
  · intro s core c rest tm len src dst inside hq hhome hb hpos he hpeer hstep hredop hdsp hssp hs32 hd32 hlen hsi hdi hapart
    have hplaced (a : Word64) (h32 : a.toNat < 2 ^ 32) (ha : inside a.toNat (a.toNat % 2 ^ 21)) : Placed tm a.toNat len := by
      obtain ⟨hhi, hwin, hoff, hend, htop, hgran⟩ := ha
      rw [Nat.mod_eq_of_lt h32] at hhi
      exact ⟨h32, hhi, hwin, hoff, hend, htop, hgran⟩
    have hc : WindowCopy s core c len := ⟨hhome, hb, hredop, hdsp, hssp, hplaced _ hs32 hsi, hplaced _ hd32 hdi, hapart⟩
    have hlen16 : 16 * (len / 16) = len := by omega
    obtain ⟨u, (hu : Copied s core c (len / 16) u), hexec⟩ := hc.complete hq hpos he hpeer hstep
    refine ⟨_, hexec, ?_⟩
    have hcore : (dropPend (u.setCore core { u.core core with cq := rest }) c.gh c.id).core core = { u.core core with cq := rest } := State.core_setCore u core _
    refine ⟨?_, by rw [hcore], fun o => ?_, fun k => ?_, ?_⟩
    · rw [hu.step.1]
      rfl
    · rw [hcore]
      exact (hu.bytes o).trans (by rw [hlen16])
    · rw [hcore]
      have hend : dst / 16 + len / 16 = (dst + len) / 16 := by omega
      exact (hu.full k).trans (by rw [hend])
    · rw [dropPend, State.grp_setGrp, hu.step.1]
      rfl
end

section
/-! Events of the issue machinery (R94 to R96, R347, R379, R382, R400) and of the waits that end (R269, R377, R398, R399). -/
namespace Sys2Proof.Machine

/-! COUNTED_RESULT_WRITE (R94 to R96). -/

section
variable (n : Nat) (g : Group) {w : PW} (hc : w.con = false)
include hc

theorem writePW_velem (r : Nat) {l : Nat} (hl : l < 32) :
    (writePW n g w).velem r l = if (w.kind == 0 && w.key == r * 32 + l) = true then w.val else g.velem r l := by
  have hkey : w.key % 32 < 32 := Nat.mod_lt _ (by norm_num)
  have hsplit : (r = w.key / 32 ∧ l = w.key % 32) ↔ w.key = r * 32 + l := by omega
  obtain ⟨kind, key, val, con⟩ := w
  dsimp only at hc hkey hsplit
  match kind with
  | 0 => simp [writePW, hc, Group.velem_wV _ _ _ _ _ _ hl hkey, hsplit]
  | 1 => simp [writePW, Group.velem]
  | 2 => simp [writePW, hc, Group.velem, Group.wQ]
  | k + 3 => simp [writePW]

theorem writePW_sreg (k : Nat) : (writePW n g w).sreg k = if (w.kind == 1 && w.key == k && k != 0) = true then w.val else g.sreg k := by
  obtain ⟨kind, key, val, con⟩ := w
  dsimp only at hc
  match kind with
  | 0 => simp [writePW, Group.sreg]
  | 1 =>
    simp only [writePW, hc, Group.sreg_wS]
    by_cases he : k = key
    · subst he
      simp
    · simp [he, Ne.symm he]
  | 2 => simp [writePW, hc, Group.sreg, Group.wQ]
  | j + 3 => simp [writePW]

end

theorem conPend_ids (kind key : Nat) (ps : List Pend) : (conPend kind key ps).map (·.id) = ps.map (·.id) := by simp [conPend]

theorem Group.wS_ids (g : Group) (k : Nat) (x : Word64) : (g.wS k x).pend.map (·.id) = g.pend.map (·.id) := by
  unfold Group.wS
  split_ifs
  · rfl
  · exact conPend_ids _ _ _

theorem writePW_ids (n : Nat) (g : Group) (w : PW) : (writePW n g w).pend.map (·.id) = g.pend.map (·.id) := by
  obtain ⟨kind, key, val, con⟩ := w
  match kind with
  | 0 => exact conPend_ids _ _ _
  | 1 => exact Group.wS_ids g _ _
  | 2 =>
    simp only [writePW, Group.wQ]
    split_ifs
    · rfl
    · exact conPend_ids _ _ _
  | k + 3 => rfl

/-- Writes to places of their own: a place receives the value of the write that names it. -/
theorem foldl_written {ws : List PW} {step : Group → PW → Group} {f : Group → Word64} {P : PW → Bool} {place : Nat × Nat}
    (hstep : ∀ g, ∀ w ∈ ws, f (step g w) = if P w = true then w.val else f g) (hP : ∀ w, P w = true → (w.kind, w.key) = place)
    (hn : (ws.map fun w => (w.kind, w.key)).Nodup) (g : Group) : f (ws.foldl step g) = ((ws.find? P).map PW.val).getD (f g) := by
  induction ws generalizing g with
  | nil => rfl
  | cons w ws ih =>
    obtain ⟨hnot, hn⟩ := List.nodup_cons.1 hn
    rw [List.foldl_cons, ih (fun g v hv => hstep g v (List.mem_cons_of_mem _ hv)) hn, hstep g w (by simp), List.find?_cons]
    by_cases hw : P w = true
    · have hnone : ws.find? P = none := List.find?_eq_none.2 fun v hv hPv => hnot (List.mem_map.2 ⟨v, hv, (hP v hPv).trans (hP w hw).symm⟩)
      simp [hw, hnone]
    · simp [hw]

theorem landLatch_only (s : State) (gh id : Nat) : landLatch s gh id = { s with cores := (landLatch s gh id).cores } := by
  unfold landLatch
  dsimp only
  split_ifs <;> rfl

theorem finishPend_only (s : State) (gh : Nat) (p : Pend) :
    let g1 : Group := { s.grp gh with pend := (s.grp gh).pend.filter fun q => q.id != p.id }
    let t := finishPend s gh p
    t = { s with free := t.free, groups := t.groups, cores := t.cores } ∧ (∀ i, i ≠ gh → t.grp i = s.grp i) ∧
      t.grp gh = p.ws.foldl (writePW s.free) g1 := by
  intro g1 t
  have ht : t = landLatch (s.draw.setGrp gh (p.ws.foldl (writePW s.free) g1)) gh p.id := rfl
  have hgroups (i : Nat) : t.grp i = (s.draw.setGrp gh (p.ws.foldl (writePW s.free) g1)).grp i := by
    rw [ht, landLatch_only]
    rfl
  refine ⟨by rw [ht, landLatch_only]; rfl, fun i hi => ?_, ?_⟩
  · rw [hgroups, State.grp_setGrp_ne _ _ hi]
    rfl
  · rw [hgroups, State.grp_setGrp]

theorem countedResultWrite_eq {s : State} {gh cls : Nat} {p : Pend} (hf : (s.grp gh).pend.find? (fun p => p.cls == cls) = some p) (hw : p.wait = false)
    (hcls : cls ≠ 2) : execCountedResultWrite gh cls s = .next (finishPend s gh p) := by
  have hp : oldestPend (s.grp gh) cls = some p := by simp [oldestPend, hf, hw, cASYNC, hcls]
  simp only [execCountedResultWrite, hp]

theorem foldl_writePW_ids (n : Nat) (ws : List PW) (g : Group) : (ws.foldl (writePW n) g).pend.map (·.id) = g.pend.map (·.id) :=
  List.foldlRecOn (motive := fun g' : Group => g'.pend.map (·.id) = g.pend.map (·.id)) ws _ rfl fun g' ih w _ => (writePW_ids n g' w).trans ih

/-- The results of the oldest counted instruction, where no later word has written. -/
theorem finishPend_velem {s : State} {gh : Nat} {p : Pend} (hws : ∀ w ∈ p.ws, w.con = false) (hn : (p.ws.map fun w => (w.kind, w.key)).Nodup)
    (r : Nat) {l : Nat} (hl : l < 32) :
    ((finishPend s gh p).grp gh).velem r l = ((p.ws.find? fun w => w.kind == 0 && w.key == r * 32 + l).map PW.val).getD ((s.grp gh).velem r l) := by
  obtain ⟨-, -, hgrp⟩ := finishPend_only s gh p
  rw [hgrp]
  exact foldl_written (f := fun g => g.velem r l) (place := (0, r * 32 + l)) (fun g w hw => writePW_velem s.free g (hws w hw) r hl) (by simp) hn _

theorem finishPend_sreg {s : State} {gh : Nat} {p : Pend} (hws : ∀ w ∈ p.ws, w.con = false) (hn : (p.ws.map fun w => (w.kind, w.key)).Nodup)
    {k : Nat} (hk : k ≠ 0) :
    ((finishPend s gh p).grp gh).sreg k = ((p.ws.find? fun w => w.kind == 1 && w.key == k).map PW.val).getD ((s.grp gh).sreg k) := by
  obtain ⟨-, -, hgrp⟩ := finishPend_only s gh p
  rw [hgrp]
  refine foldl_written (f := fun g => g.sreg k) (place := (1, k)) (fun g w hw => ?_) (by simp) hn _
  simpa [hk] using writePW_sreg s.free g (hws w hw) k

theorem finishPend_ids (s : State) (gh : Nat) (p : Pend) :
    ((finishPend s gh p).grp gh).pend.map (·.id) = ((s.grp gh).pend.map (·.id)).filter (· != p.id) := by
  obtain ⟨-, -, hgrp⟩ := finishPend_only s gh p
  rw [hgrp, foldl_writePW_ids, List.filter_map]
  rfl

/-! ISSUE_AGE_BOUND (R379) and GROUP_RELEASE (R400). -/

theorem issueAgeBound_eq {s : State} {gh sp : Nat} (hsp : sp < (s.grp gh).splits.length)
    (hready : splitReady (s.grp gh) (nthD Split.init (s.grp gh).splits sp) = true) (hmay : groupMay s (s.grp gh) = true)
    (haged : (nthD Split.init (s.grp gh).splits sp).aged = false) (hage : 64 ≤ (nthD Split.init (s.grp gh).splits sp).age) :
    execIssueAgeBound gh sp s =
      .next (s.setGrp gh { s.grp gh with splits := setAt (s.grp gh).splits sp { nthD Split.init (s.grp gh).splits sp with aged := true } }) :=
  if_pos (by simp [hsp, hready, hmay, haged, hage])

theorem dropLatch_spec (s : State) (gh core part : Nat) :
    dropLatch s gh core part = { s with cores := (dropLatch s gh core part).cores } ∧
      ∀ k, (dropLatch s gh core part).core k = { s.core k with latch := ((dropLatch s gh core part).core k).latch } := by
  unfold dropLatch
  dsimp only
  split_ifs
  · refine ⟨rfl, fun k => ?_⟩
    by_cases hk : k = core
    · subst hk
      rw [State.core_setCore]
    · rw [State.core_setCore_ne _ _ hk]
  · exact ⟨rfl, fun _ => rfl⟩

theorem dropTeam_only (s : State) (tid : Nat) : dropTeam s tid = { s with teams := (dropTeam s tid).teams } := by
  unfold dropTeam
  split_ifs <;> rfl

theorem groupRelease_spec {s : State} {gh : Nat} (hr : (s.grp gh).retired = true) (hq : groupQuiet s gh = true) :
    ∃ t, execGroupRelease gh s = .next t ∧ t = { s with groups := merase s.groups gh, cores := t.cores, teams := t.teams } ∧
      ∀ k, t.core k = { s.core k with latch := (t.core k).latch } := by
  refine ⟨_, if_pos (by simp [hr, hq]), ?_⟩
  obtain ⟨hu, hlatch⟩ := dropLatch_spec { s with groups := merase s.groups gh } gh (s.team (s.grp gh).team).core (s.grp gh).part
  generalize dropLatch { s with groups := merase s.groups gh } gh (s.team (s.grp gh).team).core (s.grp gh).part = u at hu hlatch
  rw [dropTeam_only]
  exact ⟨by rw [hu], hlatch⟩

/-! SLACK_TIMEOUT and the arbiters (R382). -/

theorem find?_setTag_same (m : Msg) {x : ReqTag} (hx : x.msg = m) : ∀ ts : List ReqTag, (setTag m (some x) ts).find? (fun t => t.msg == m) = some x
  | [] => by simp [setTag, hx]
  | t :: ts => by
    by_cases ht : t.msg = m
    · simp [setTag, ht, hx]
    · simp [setTag, ht, find?_setTag_same m hx ts]

theorem find?_setTag_ne {m y : Msg} (hy : y ≠ m) {x : ReqTag} (hx : x.msg = m) :
    ∀ ts : List ReqTag, (setTag m (some x) ts).find? (fun t => t.msg == y) = ts.find? fun t => t.msg == y
  | [] => by simp [setTag, hx, Ne.symm hy]
  | t :: ts => by
    by_cases ht : t.msg = m
    · simp [setTag, ht, hx, Ne.symm hy]
    · simp only [setTag, if_neg ht, List.find?_cons, find?_setTag_ne hy hx ts]

theorem tagOf_msg (s : State) (m : Msg) : (s.tagOf m).msg = m := by
  unfold State.tagOf
  cases h : s.tags.find? fun t => t.msg == m with
  | none => rfl
  | some t => simpa using List.find?_some h

theorem slackTimeout_spec {s : State} {req : Nat} {m : Msg} (hm : s.net[req]? = some m) (hreq : isReq m.kind = true) (harr : (s.tagOf m).arr = 0) :
    ∃ t, execSlackTimeout req s = .next t ∧ t = { s with tags := t.tags } ∧ t.tagOf m = { s.tagOf m with out := true } ∧
      ∀ y, y ≠ m → t.tagOf y = s.tagOf y := by
  have hmsg : ({ s.tagOf m with out := true } : ReqTag).msg = m := tagOf_msg s m
  refine ⟨{ s with tags := setTag m (some { s.tagOf m with out := true }) s.tags }, ?_, rfl, ?_, fun y hy => ?_⟩
  · simp only [execSlackTimeout, hm]
    exact if_pos (by simp [hreq, harr])
  · rw [State.tagOf, find?_setTag_same m hmsg]
    rfl
  · rw [State.tagOf, find?_setTag_ne hy hmsg]
    rfl

/-- A request that no earlier one of its core to its line stands before. -/
def FirstOfLine (l : List ReqTag) (i : Nat) (y : ReqTag) : Prop :=
  l[i]? = some y ∧ ∀ (j : Nat) (x : ReqTag), j < i → l[j]? = some x → ¬ (x.msg.core = y.msg.core ∧ x.msg.line = y.msg.line)

/-- The requests among which an arbiter chooses, with their places. -/
def mayGrant (l : List ReqTag) : List (Nat × ReqTag) :=
  ((List.range l.length).zip l).filter fun e => (l.take e.1).all fun x => x.msg.core != e.2.msg.core || x.msg.line != e.2.msg.line

/-- What an arbiter goes by: the slack, the time since when the request waits, the core (R382). -/
def grantKey (e : Nat × ReqTag) : List Int := [(if e.2.out then 0 else (e.2.slack : Int)), (e.2.since : Int), (e.2.msg.core : Int)]

theorem mem_mayGrant {l : List ReqTag} {i : Nat} {y : ReqTag} : (i, y) ∈ mayGrant l ↔ FirstOfLine l i y := by
  have hzip : (i, y) ∈ (List.range l.length).zip l ↔ l[i]? = some y := by
    simp only [List.mem_iff_getElem?, List.getElem?_zip_eq_some]
    constructor
    · rintro ⟨j, hj, hy⟩
      obtain ⟨hlt, hget⟩ := List.getElem?_eq_some_iff.1 hj
      rw [List.getElem_range] at hget
      rwa [← hget]
    · exact fun h => ⟨i, List.getElem?_range (List.getElem?_eq_some_iff.1 h).1, h⟩
  rw [mayGrant, List.mem_filter, hzip, FirstOfLine]
  refine and_congr_right fun hi => ?_
  simp only [List.all_eq_true, List.mem_take_iff_getElem, lt_min_iff, Bool.or_eq_true, bne_iff_ne, ← not_and_or]
  constructor
  · intro h j x hj hx
    obtain ⟨hlt, hget⟩ := List.getElem?_eq_some_iff.1 hx
    exact h x ⟨j, ⟨hj, hlt⟩, hget⟩
  · rintro h x ⟨j, ⟨hj, hlt⟩, hget⟩
    exact h j x hj (List.getElem?_eq_some_iff.2 ⟨hlt, hget⟩)

theorem keyLt_grantKey_false {e f : Nat × ReqTag} (h : keyLt (grantKey e) (grantKey f) = false) :
    let slack (y : ReqTag) : Nat := if y.out then 0 else y.slack
    slack f.2 < slack e.2 ∨ (slack f.2 = slack e.2 ∧ (f.2.since < e.2.since ∨ (f.2.since = e.2.since ∧ f.2.msg.core ≤ e.2.msg.core))) := by
  intro slack
  have hs (y : ReqTag) : (if y.out then 0 else (y.slack : Int)) = (slack y : Int) := by simp only [slack]; split_ifs <;> rfl
  simp only [grantKey, hs, keyLt] at h
  split_ifs at h <;> omega

theorem arbiter_spec {l : List ReqTag} {a : ReqTag} (h : arbiter l = some a) :
    ∃ i, FirstOfLine l i a ∧ ∀ j y, FirstOfLine l j y → keyLt (grantKey (j, y)) (grantKey (i, a)) = false := by
  obtain ⟨⟨i, a'⟩, hleast, rfl⟩ := Option.map_eq_some_iff.1 (show (leastBy grantKey (mayGrant l)).map Prod.snd = some a from h)
  exact ⟨i, mem_mayGrant.1 (leastBy_mem hleast), fun j y hy => leastBy_least (n := 3) (fun _ => rfl) hleast _ (mem_mayGrant.2 hy)⟩

/-! TAKE_FILL (R377). -/

theorem popItem_seq {s t : State} {l : Launch} {core e : Nat} {i : PoolItem} (h : popItem s l core e = some (i, t)) : t.seq = s.seq := by
  unfold popItem at h
  dsimp only at h
  split at h
  · cases h
  · cases h
    rfl

theorem popItems_seq (l : Launch) (core e : Nat) : ∀ (n : Nat) (s : State) (acc : List PoolItem), (popItems l core e n s acc).2.seq = s.seq
  | 0, _, _ => rfl
  | n + 1, s, acc => by
    rcases h : popItem s l core e with _ | ⟨i, t⟩
    · simp only [popItems, h]
    · simp only [popItems, h]
      exact (popItems_seq l core e n t _).trans (popItem_seq h)

theorem stopIfEmpty_seq (s : State) (core e : Nat) : (stopIfEmpty s core e).seq = s.seq := by
  unfold stopIfEmpty
  dsimp only
  split_ifs <;> rfl

theorem length_lanesOf_maskOf {ls : List Nat} (hl : ∀ k ∈ ls, k < 32) (hn : ls.Nodup) : (lanesOf (maskOf ls)).length = ls.length := by
  refine ((List.perm_ext_iff_of_nodup (nodup_lanesOf _) hn).2 fun k => ?_).length_eq
  rw [mem_lanesOf, inMask_maskOf hl, decide_eq_true_eq]
  exact ⟨And.right, fun h => ⟨hl k h, h⟩⟩

section
variable {s : State} {l : Launch} {gh k d : Nat}

/-- The items that a fill of a group's done lanes takes, and the state that the pops leave. -/
def fillPops (s : State) (l : Launch) (gh : Nat) : List PoolItem × State :=
  let t := s.team (s.grp gh).team
  popItems l t.core t.entry (lanesOf (s.grp gh).done).length s []

/-- The lanes that a fill gives items. -/
def fillMask (s : State) (l : Launch) (gh : Nat) : Word32 := maskOf ((lanesOf (s.grp gh).done).take (fillPops s l gh).1.length)

theorem fillPops_only : OnlyBin s (stopIfEmpty (fillPops s l gh).2 (s.team (s.grp gh).team).core (s.team (s.grp gh).team).entry)
    (s.team (s.grp gh).team).core (s.team (s.grp gh).team).entry :=
  (popItems_only l _ _ _ s []).1.trans (stopIfEmpty_only _ _ _)

theorem fillPops_length : (fillPops s l gh).1.length ≤ (lanesOf (s.grp gh).done).length :=
  (popItems_only l _ _ _ s []).2.trans (by simp)

/-- A fill of a group from items that are not poison changes the bin, the core's read-only path and the group alone. -/
theorem fillLanes_group (hp : poisonAt (fillPops s l gh).1 = none) :
    let t := fillLanes s l gh k d
    t = { s with groups := t.groups, cores := t.cores, free := t.free } ∧ t.grp gh = filledGroup (s.grp gh) k d ((fillPops s l gh).1.map (·.item)) := by
  have honly := fillPops_only (s := s) (l := l) (gh := gh)
  have hg := honly.grp gh
  have hseq : (stopIfEmpty (fillPops s l gh).2 (s.team (s.grp gh).team).core (s.team (s.grp gh).team).entry).seq = s.seq :=
    (stopIfEmpty_seq _ _ _).trans (popItems_seq l _ _ _ s [])
  have heq : fillLanes s l gh k d = ((stopIfEmpty (fillPops s l gh).2 (s.team (s.grp gh).team).core (s.team (s.grp gh).team).entry).setCore
      (s.team (s.grp gh).team).core { (stopIfEmpty (fillPops s l gh).2 (s.team (s.grp gh).team).core (s.team (s.grp gh).team).entry).core
        (s.team (s.grp gh).team).core with ro := [] }).setGrp gh (filledGroup (s.grp gh) k d ((fillPops s l gh).1.map (·.item))) := by
    rw [fillPops] at hp hg ⊢
    simp only [fillLanes, hp, hg, filledGroup, giveAll]
  intro t
  rw [show t = _ from heq]
  generalize stopIfEmpty (fillPops s l gh).2 (s.team (s.grp gh).team).core (s.team (s.grp gh).team).entry = s1 at honly hseq
  refine ⟨?_, State.grp_setGrp _ _ _⟩
  simp only [State.setGrp, State.setCore]
  rw [honly.1, hseq]

theorem length_fillMask : (lanesOf (fillMask s l gh)).length = (fillPops s l gh).1.length := by
  rw [fillMask, length_lanesOf_maskOf (fun k hk => (mem_lanesOf.1 (List.mem_of_mem_take hk)).1) ((nodup_lanesOf _).sublist (List.take_sublist _ _)),
    List.length_take, min_eq_left fillPops_length]

theorem fillMask_done : fillMask s l gh &&& ~~~(s.grp gh).done = 0 := by
  refine BitVec.eq_of_getLsbD_eq fun i hi => ?_
  have hm : (fillMask s l gh).getLsbD i = decide (i ∈ (lanesOf (s.grp gh).done).take (fillPops s l gh).1.length) :=
    inMask_maskOf (fun k hk => (mem_lanesOf.1 (List.mem_of_mem_take hk)).1) i
  rw [BitVec.getLsbD_and, hm]
  by_cases h : i ∈ (lanesOf (s.grp gh).done).take (fillPops s l gh).1.length
  · have hd : (s.grp gh).done.getLsbD i = true := (mem_lanesOf.1 (List.mem_of_mem_take h)).2
    simp [hd]
  · simp [h]

/-- The split that began to wait first receives its bin's items (R377). -/
theorem takeFill_eq {drain : Bool} {since : Nat} (hh : (nthD Split.init (s.grp gh).splits k).hold = .take drain d since)
    (hl : teamLaunch s (s.team (s.grp gh).team) = some l)
    (hw : firstWaiter (fillable s (takeWaiters s (s.team (s.grp gh).team).core (s.team (s.grp gh).team).entry)) = some (gh, k))
    (hb : binCount (s.bin (s.team (s.grp gh).team).core (s.team (s.grp gh).team).entry) ≠ 0) (hd : (s.grp gh).done ≠ 0) :
    execTakeFill gh k s = .next (fillLanes s l gh k d) := by
  simp only [execTakeFill, hh, hl]
  exact if_pos ⟨hw, hb, hd⟩

end

/-! TAKE_DRAIN_RELEASE (R398, R399). -/

/-- One split of a drained group: its take.drain ends with 0. -/
def drainOne (g : Group) (k : Nat) : Group :=
  let p := nthD Split.init g.splits k
  match p.hold with
  | .take true d _ => { g.wS d 0 with splits := setAt g.splits k { p with hold := .none } }
  | _ => g

theorem drainSplits_eq (g : Group) : drainSplits g = (List.range g.splits.length).foldl drainOne g := rfl

theorem drainOne_take {g : Group} {k d since : Nat} (h : (nthD Split.init g.splits k).hold = .take true d since) :
    drainOne g k = { g.wS d 0 with splits := setAt g.splits k { nthD Split.init g.splits k with hold := .none } } := by
  simp only [drainOne, h]

theorem drainOne_cases (g : Group) (k : Nat) :
    (∃ d since, (nthD Split.init g.splits k).hold = .take true d since) ∨ drainOne g k = g := by
  cases h : (nthD Split.init g.splits k).hold with
  | take drain d since =>
    cases drain with
    | true => exact .inl ⟨d, since, rfl⟩
    | false => simp only [drainOne, h, or_true]
  | _ => simp only [drainOne, h, or_true]

theorem drainOne_length (g : Group) (k : Nat) : (drainOne g k).splits.length = g.splits.length := by
  rcases drainOne_cases g k with ⟨d, since, h⟩ | h
  · rw [drainOne_take h]
    exact setAt_length _ _ _
  · rw [h]

theorem drainOne_other (g : Group) {k j : Nat} (hj : j ≠ k) : nthD Split.init (drainOne g k).splits j = nthD Split.init g.splits j := by
  rcases drainOne_cases g k with ⟨d, since, h⟩ | h
  · rw [drainOne_take h]
    exact nthD_setAt_ne _ _ _ _ _ (Ne.symm hj)
  · rw [h]

/-- A register that holds 0 keeps it. -/
theorem drainOne_zero {g : Group} {d : Nat} (hz : g.sreg d = 0) (k : Nat) : (drainOne g k).sreg d = 0 := by
  rcases drainOne_cases g k with ⟨d', since, h⟩ | h
  · rw [drainOne_take h]
    change (g.wS d' 0).sreg d = 0
    rw [Group.sreg_wS, hz, ite_self]
  · rw [h, hz]

theorem drainOne_done {g : Group} {k d since : Nat} (hk : k < g.splits.length) (h : (nthD Split.init g.splits k).hold = .take true d since) :
    (drainOne g k).sreg d = 0 ∧ nthD Split.init (drainOne g k).splits k = { nthD Split.init g.splits k with hold := .none } := by
  rw [drainOne_take h]
  refine ⟨?_, nthD_setAt_same _ _ _ _ hk⟩
  change (g.wS d 0).sreg d = 0
  rw [Group.sreg_wS]
  by_cases hd : d = 0 <;> simp [hd, Group.sreg]

theorem drainSplits_done {g : Group} {k d since : Nat} (hk : k < g.splits.length) (h : (nthD Split.init g.splits k).hold = .take true d since) :
    (drainSplits g).sreg d = 0 ∧ nthD Split.init (drainSplits g).splits k = { nthD Split.init g.splits k with hold := .none } := by
  have key : ∀ n, ((List.range n).foldl drainOne g).splits.length = g.splits.length ∧
      (n ≤ k → nthD Split.init ((List.range n).foldl drainOne g).splits k = nthD Split.init g.splits k) ∧
      (k < n → ((List.range n).foldl drainOne g).sreg d = 0 ∧
        nthD Split.init ((List.range n).foldl drainOne g).splits k = { nthD Split.init g.splits k with hold := .none }) := by
    intro n
    induction n with
    | zero => exact ⟨rfl, fun _ => rfl, fun hn => absurd hn (Nat.not_lt_zero k)⟩
    | succ n ih =>
      obtain ⟨hlen, hbefore, hafter⟩ := ih
      rw [List.range_succ, List.foldl_append, List.foldl_cons, List.foldl_nil]
      refine ⟨(drainOne_length _ _).trans hlen, fun hn => ?_, fun hn => ?_⟩
      · rw [drainOne_other _ (by omega)]
        exact hbefore (by omega)
      · rcases Nat.lt_succ_iff_lt_or_eq.1 hn with hlt | rfl
        · obtain ⟨hz, hsp⟩ := hafter hlt
          exact ⟨drainOne_zero hz n, (drainOne_other _ (by omega)).trans hsp⟩
        · have hsame := hbefore le_rfl
          rw [← hsame]
          exact drainOne_done (by rwa [hlen]) (by rw [hsame, h])
  exact (key g.splits.length).2.2 hk

/-- An entry that is in a map, after a change of its values. -/
theorem mget_map_of_any {α : Type} (d : α) (F : Nat × α → α) (i : Nat) : ∀ m : AMap α, (m.any fun e => e.1 == i) = true →
    mget d (m.map fun e => (e.1, F e)) i = F (i, mget d m i)
  | [], h => by simp at h
  | (k, x) :: m, h => by
    by_cases hk : k = i
    · simp [mget, hk]
    · have hm : (m.any fun e => e.1 == i) = true := by simpa [hk] using h
      simp only [List.map_cons, mget, if_neg hk, mget_map_of_any d F i m hm]

theorem takeDrainRelease_spec {s : State} {c : Nat} (hd : drained s c = true) (hw : drainWaits s c = true) :
    ∃ t, execTakeDrainRelease c s = .next t ∧ t = { s with groups := t.groups, ctxs := t.ctxs } ∧
      t.ctx c = { s.ctx c with saves := (s.ctx c).saves.map fun v => { v with groups := v.groups.map fun e => (e.1, drainSplits e.2) } } ∧
      (∀ n, n ≠ c → t.ctx n = s.ctx n) ∧
      ∀ gh, (s.groups.any fun e => e.1 == gh) = true → (s.team (s.grp gh).team).ctx = c → t.grp gh = drainSplits (s.grp gh) := by
  refine ⟨_, if_pos (by simp [hd, hw]), rfl, mget_mset_same _ _ _ _, fun n hn => mget_mset_ne _ _ _ hn, fun gh hgh hc => ?_⟩
  have hmap := mget_map_of_any Group.init (fun e => if (s.team e.2.team).ctx = c then drainSplits e.2 else e.2) gh s.groups hgh
  refine Eq.trans (congrArg (fun m => mget Group.init m gh) (List.map_congr_left fun e _ => ?_)) (hmap.trans (if_pos hc))
  split_ifs <;> rfl

/-! LDFE_SERVE (R269, R324). -/

/-- Only the latches of cores differ. -/
def OnlyLatches (s t : State) : Prop := t = { s with cores := t.cores } ∧ ∀ k, t.core k = { s.core k with latch := (t.core k).latch }

theorem OnlyLatches.refl (s : State) : OnlyLatches s s := ⟨rfl, fun _ => rfl⟩

theorem OnlyLatches.trans {s t u : State} (h : OnlyLatches s t) (k : OnlyLatches t u) : OnlyLatches s u :=
  ⟨by rw [k.1, h.1], fun i => by rw [k.2 i, h.2 i]⟩

theorem OnlyLatches.setCore (s : State) (c : Nat) (x : AMap (Nat × List LatchEnt)) : OnlyLatches s (s.setCore c { s.core c with latch := x }) := by
  refine ⟨rfl, fun k => ?_⟩
  by_cases hk : k = c
  · subst hk
    rw [State.core_setCore]
  · rw [State.core_setCore_ne _ _ hk]

theorem fillLatch_only (s : State) (gh id : Nat) (r : Nat × LaneVals) : OnlyLatches s (fillLatch s gh id r) := by
  unfold fillLatch
  dsimp only
  split_ifs
  · exact OnlyLatches.setCore s _ _
  · exact OnlyLatches.refl s

theorem foldl_fillLatch_only (gh id : Nat) (rs : List (Nat × LaneVals)) (s : State) : OnlyLatches s (rs.foldl (fun s r => fillLatch s gh id r) s) :=
  List.foldlRecOn (motive := OnlyLatches s) rs _ (OnlyLatches.refl s) fun u h r _ => h.trans (fillLatch_only u gh id r)

/-- Groups and latches alone differ, and a group is as given. -/
def Leads (s t : State) (gh : Nat) (g : Group) : Prop :=
  t = { s with groups := t.groups, cores := t.cores } ∧ (∀ k, t.core k = { s.core k with latch := (t.core k).latch }) ∧ t.grp gh = g

theorem Leads.setGrp (s : State) (gh : Nat) (g : Group) : Leads s (s.setGrp gh g) gh g := ⟨rfl, fun _ => rfl, State.grp_setGrp _ _ _⟩

theorem Leads.latches {s t u : State} {gh : Nat} {g : Group} (h : Leads s t gh g) (k : OnlyLatches t u) : Leads s u gh g := by
  obtain ⟨hs, hc, hg⟩ := h
  obtain ⟨ks, kc⟩ := k
  exact ⟨by rw [ks, hs], fun i => by rw [kc i, hc i], by rw [ks]; exact hg⟩

theorem Leads.trans {s t u : State} {gh : Nat} {g g' : Group} (h : Leads s t gh g) (k : Leads t u gh g') : Leads s u gh g' := by
  obtain ⟨hs, hc, -⟩ := h
  obtain ⟨ks, kc, kg⟩ := k
  exact ⟨by rw [ks, hs], fun i => by rw [kc i, hc i], kg⟩

theorem Leads.team {s t : State} {gh : Nat} {g : Group} (h : Leads s t gh g) (i : Nat) : t.team i = s.team i := by rw [h.1]; rfl

/-- In the L-encoding the elements join the writes of the pending result (R94). -/
theorem feServed_pending {s : State} {gh : Nat} (hL : (s.team (s.grp gh).team).isL = true) (id : Nat) (n : Bool) (rs : List (Nat × LaneVals)) :
    Leads s (feServed s gh id n rs) gh
      { s.grp gh with pend := (s.grp gh).pend.map fun p => if p.id = id then { p with ws := p.ws ++ if n then [] else pws rs } else p } := by
  rw [show feServed s gh id n rs = rs.foldl (fun s r => fillLatch s gh id r) _ from if_pos hL]
  exact (Leads.setGrp s gh _).latches (foldl_fillLatch_only gh id rs _)

/-- In the D-encoding they are written (R100). -/
theorem feServed_written {s : State} {gh : Nat} (hL : (s.team (s.grp gh).team).isL = false) (id : Nat) (rs : List (Nat × LaneVals)) :
    Leads s (feServed s gh id false rs) gh (rs.foldl (fun g r => wrVals g r.1 r.2) (s.grp gh)) := by
  rw [show feServed s gh id false rs = s.setGrp gh _ from if_neg (by simp [hL])]
  exact Leads.setGrp s gh _

/-- Elements of an ldfe that are served: pending in the L-encoding, written in the D-encoding. -/
theorem feServed_leads (s : State) (gh id : Nat) (n : Bool) (rs : List (Nat × LaneVals)) :
    ∃ g', Leads s (feServed s gh id n rs) gh g' ∧
      ((s.team (s.grp gh).team).isL = true → g'.team = (s.grp gh).team ∧ g'.v = (s.grp gh).v ∧ g'.pend.map (fun p => (p.id, p.ws)) =
        (s.grp gh).pend.map fun p => (p.id, p.ws ++ if p.id = id ∧ n = false then pws rs else [])) ∧
      ((s.team (s.grp gh).team).isL = false → n = false → g' = rs.foldl (fun g r => wrVals g r.1 r.2) (s.grp gh)) := by
  cases hL : (s.team (s.grp gh).team).isL with
  | true =>
    refine ⟨_, feServed_pending hL id n rs, fun _ => ⟨rfl, rfl, ?_⟩, by simp⟩
    rw [List.map_map]
    refine List.map_congr_left fun p _ => ?_
    by_cases hp : p.id = id <;> cases n <;> simp [hp]
  | false =>
    cases n with
    | false => exact ⟨_, feServed_written hL id rs, by simp, fun _ _ => rfl⟩
    | true => exact ⟨s.grp gh, by rw [show feServed s gh id true rs = s from if_neg (by simp [hL])]; exact ⟨rfl, fun _ => rfl, rfl⟩, by simp, by simp⟩

/-- The last lane's service ends the wait of the result, or the counter falls: no write is added or lost in the L-encoding. -/
theorem feComplete_leads (s : State) (gh id : Nat) : ∃ ps, Leads s (feComplete s gh id) gh { s.grp gh with pend := ps } ∧
    ((s.team (s.grp gh).team).isL = true → ps.map (fun p => (p.id, p.ws)) = (s.grp gh).pend.map fun p => (p.id, p.ws)) := by
  cases hL : (s.team (s.grp gh).team).isL with
  | true =>
    rw [show feComplete s gh id = s.setGrp gh _ from if_pos hL]
    refine ⟨_, Leads.setGrp s gh _, fun _ => ?_⟩
    rw [List.map_map]
    exact List.map_congr_left fun p _ => by simp only [Function.comp_apply]; split_ifs <;> rfl
  | false =>
    rw [show feComplete s gh id = dropPend s gh id from if_neg (by simp [hL])]
    exact ⟨_, Leads.setGrp s gh _, by simp⟩

theorem feRelease_leads (s : State) (gh : Nat) : ∃ qs, Leads s (feRelease s gh) gh { s.grp gh with splits := qs } := ⟨_, Leads.setGrp s gh _⟩

/-- The elements of one lane of a loaded register, or pair. -/
theorem loadRes_velem (g : Group) (ty : Ty) (d : Nat) {l : Nat} (hl : l < 32) (v : Word64 × Word64 × Bool) (r : Nat) {i : Nat} (hi : i < 32) :
    ((loadRes ty d [(l, v)]).foldl (fun g r => wrVals g r.1 r.2) g).velem r i =
      if i = l ∧ r = d then v.1 else if i = l ∧ ty = .x64 ∧ r = d + 1 then v.2.1 else g.velem r i := by
  by_cases ht : ty = .x64
  · have hres : (loadRes ty d [(l, v)]).foldl (fun g r => wrVals g r.1 r.2) g = (g.wV d l v.1).wV (d + 1) l v.2.1 := by rw [loadRes, if_pos ht]; rfl
    rw [hres, Group.velem_wV _ _ _ _ _ _ hi hl, Group.velem_wV _ _ _ _ _ _ hi hl]
    by_cases hil : i = l <;> by_cases hr : r = d <;> simp [hil, hr, ht]
  · have hres : (loadRes ty d [(l, v)]).foldl (fun g r => wrVals g r.1 r.2) g = g.wV d l v.1 := by rw [loadRes, if_neg ht]; rfl
    rw [hres, Group.velem_wV _ _ _ _ _ _ hi hl]
    simp [ht, and_comm]

theorem feResult_leads (s : State) (w : Waiter) (hw : w.lane < 32) (v : Word64 × Word64 × Bool) (last : Bool) :
    ∃ g', Leads s (feResult s w v last) w.gh g' ∧
      ((s.team (s.grp w.gh).team).isL = true → g'.v = (s.grp w.gh).v ∧ g'.pend.map (fun p => (p.id, p.ws)) = (s.grp w.gh).pend.map fun p =>
        (p.id, p.ws ++ if p.id = w.pend ∧ w.n = false then pws (loadRes w.ty w.d [(w.lane, v)]) else [])) ∧
      ((s.team (s.grp w.gh).team).isL = false → w.n = false → ∀ r i, i < 32 → g'.velem r i =
        if i = w.lane ∧ r = w.d then v.1 else if i = w.lane ∧ w.ty = .x64 ∧ r = w.d + 1 then v.2.1 else (s.grp w.gh).velem r i) := by
  obtain ⟨g1, hu, hteam, hv, hpend⟩ : ∃ g1, (if v.2.2 then (s.grp w.gh).orSt w.lane bNAI else s.grp w.gh) = g1 ∧ g1.team = (s.grp w.gh).team ∧
      g1.v = (s.grp w.gh).v ∧ g1.pend = (s.grp w.gh).pend := by
    refine ⟨_, rfl, ?_⟩
    split_ifs <;> exact ⟨rfl, rfl, rfl⟩
  obtain ⟨g2, hserved, hpending, hwritten⟩ := feServed_leads (s.setGrp w.gh g1) w.gh w.pend w.n (loadRes w.ty w.d [(w.lane, v)])
  rw [State.grp_setGrp, hteam] at hpending hwritten
  have hlead := (Leads.setGrp s w.gh g1).trans hserved
  obtain ⟨ps, hdone, hps⟩ := feComplete_leads (feServed (s.setGrp w.gh g1) w.gh w.pend w.n (loadRes w.ty w.d [(w.lane, v)])) w.gh w.pend
  rw [hserved.2.2, hserved.team] at hps
  rw [hserved.2.2] at hdone
  have hfinal : ∃ ps', Leads s (feResult s w v last) w.gh { g2 with pend := ps' } ∧
      ((s.team g2.team).isL = true → ps'.map (fun p => (p.id, p.ws)) = g2.pend.map fun p => (p.id, p.ws)) := by
    cases last with
    | false => exact ⟨g2.pend, by rw [feResult, hu]; exact hlead, fun _ => rfl⟩
    | true => exact ⟨ps, by rw [feResult, hu]; exact hlead.trans hdone, hps⟩
  obtain ⟨ps', hres, hids⟩ := hfinal
  refine ⟨_, hres, fun hL => ?_, fun hL hn r i hi => ?_⟩
  · obtain ⟨hteam2, hv2, hpend2⟩ := hpending hL
    exact ⟨hv2.trans hv, (hids (by rw [hteam2]; exact hL)).trans (hpend2.trans (by rw [hpend]))⟩
  · have hvelem : g1.velem r i = (s.grp w.gh).velem r i := by rw [Group.velem, hv]; rfl
    rw [← hvelem, ← loadRes_velem g1 w.ty w.d hw v r hi, ← hwritten hL hn]
    rfl

theorem dropAt_length {α : Type} : ∀ (l : List α) (j : Nat), j < l.length → (dropAt l j).length + 1 = l.length
  | [], _, h => absurd h (Nat.not_lt_zero _)
  | _ :: _, 0, _ => rfl
  | x :: l, j + 1, h => by
    have ih := dropAt_length l j (Nat.lt_of_succ_lt_succ h)
    simp only [dropAt, List.length_cons, ih]

/-- The core whose granule is read: one lane waits less, and the granule is empty after a take (R324). -/
def servedCore (c : CoreSt) (gran : Nat) (w : Waiter) (i : Nat) : CoreSt :=
  if w.take then { c with waits := dropAt c.waits i }.setFull gran false else { c with waits := dropAt c.waits i }

theorem servedCore_spec {c : CoreSt} {gran : Nat} (hf : c.isFull gran = true) (w : Waiter) {i : Nat} (hi : i < c.waits.length) :
    (servedCore c gran w i).isFull gran = !w.take ∧ (servedCore c gran w i).waits.length + 1 = c.waits.length ∧ (servedCore c gran w i).sp = c.sp := by
  unfold servedCore
  cases w.take with
  | false => exact ⟨hf, dropAt_length _ _ hi, rfl⟩
  | true => exact ⟨by simp [CoreSt.isFull, CoreSt.setFull], dropAt_length _ _ hi, rfl⟩

theorem ldfeServe_eq {s : State} {core gran : Nat} {w : Waiter}
    (hw : (s.core core).waits.find? (fun w => w.granule == core * 2 ^ 17 + gran && feResident s w core) = some w) (hf : (s.core core).isFull gran = true)
    (hp : (s.core core).spPoison w.addr (formBytes w.ty w.form) = false) :
    ∃ i last, execLdfeServe core gran s =
      .next (feRelease (feResult (s.setCore core (servedCore (s.core core) gran w i)) w (spLoad s w.ty w.form core w.addr) last) w.gh) ∧
      i < (s.core core).waits.length := by
  let i := (s.core core).waits.findIdx fun w => w.granule == core * 2 ^ 17 + gran && feResident s w core
  let last := (s.setCore core (servedCore (s.core core) gran w i)).cores.all fun c => c.2.waits.all fun x => x.gh != w.gh || x.pend != w.pend
  refine ⟨i, last, ?_, ?_⟩
  · simp only [execLdfeServe, hw, hf, hp, if_true]
    rfl
  · obtain ⟨hfound, -⟩ := List.find?_eq_some_iff_append.1 hw
    exact List.findIdx_lt_length_of_exists ⟨w, List.mem_of_find?_eq_some hw, hfound⟩

/-- The lane that waited first is served (R269). -/
theorem ldfeServe_spec {s : State} {core gran : Nat} {w : Waiter}
    (hw : (s.core core).waits.find? (fun w => w.granule == core * 2 ^ 17 + gran && feResident s w core) = some w) (hf : (s.core core).isFull gran = true)
    (hp : (s.core core).spPoison w.addr (formBytes w.ty w.form) = false) (hl : w.lane < 32) :
    let v := loadForm w.ty w.form ((s.core core).rdSp w.addr (formBytes w.ty w.form))
    ∃ t, execLdfeServe core gran s = .next t ∧ t = { s with groups := t.groups, cores := t.cores } ∧
      (t.core core).isFull gran = !w.take ∧ (t.core core).waits.length + 1 = (s.core core).waits.length ∧ (t.core core).sp = (s.core core).sp ∧
      ((s.team (s.grp w.gh).team).isL = true → (t.grp w.gh).v = (s.grp w.gh).v ∧
        (t.grp w.gh).pend.map (fun p => (p.id, p.ws)) = (s.grp w.gh).pend.map fun p =>
          (p.id, p.ws ++ if p.id = w.pend ∧ w.n = false then pws (loadRes w.ty w.d [(w.lane, v)]) else [])) ∧
      ((s.team (s.grp w.gh).team).isL = false → w.n = false → ∀ r i, i < 32 → (t.grp w.gh).velem r i = if i = w.lane ∧ r = w.d then v.1
        else if i = w.lane ∧ w.ty = .x64 ∧ r = w.d + 1 then v.2.1 else (s.grp w.gh).velem r i) := by
  intro v
  obtain ⟨i, last, heq, hi⟩ := ldfeServe_eq hw hf hp
  obtain ⟨hfull, hwaits, hsp⟩ := servedCore_spec hf w hi
  obtain ⟨g', hresult, hpending, hwritten⟩ := feResult_leads (s.setCore core (servedCore (s.core core) gran w i)) w hl v last
  obtain ⟨qs, hrelease⟩ := feRelease_leads (feResult (s.setCore core (servedCore (s.core core) gran w i)) w v last) w.gh
  obtain ⟨hstate, hcores, hgrp⟩ := hresult.trans hrelease
  rw [hresult.2.2] at hgrp
  have hcore := hcores core
  rw [State.core_setCore] at hcore
  refine ⟨feRelease (feResult (s.setCore core (servedCore (s.core core) gran w i)) w v last) w.gh, heq, hstate, ?_, ?_, ?_, fun hL => ?_, fun hL hn r j hj => ?_⟩
  · rw [hcore]
    exact hfull
  · rw [hcore]
    exact hwaits
  · rw [hcore]
    exact hsp
  · rw [hgrp]
    exact hpending hL
  · rw [hgrp]
    exact hwritten hL hn r j hj

end Sys2Proof.Machine
open Sys2Proof Sys2Proof.Machine

/-- Settles O40: what each event leaves is `finishPend_only` and its values, `groupRelease_spec`, `slackTimeout_spec`, `arbiter_spec`,
`fillLanes_group`, `takeDrainRelease_spec` and `ldfeServe_spec`. -/
theorem issueAndWaitEvents : Obligations.IssueAndWaitEvents := by
  unfold Obligations.IssueAndWaitEvents
  constructor
  · intro s gh cls sp c req p m g q
    refine ⟨fun hf hw hcls hws hn => ?_, issueAgeBound_eq, fun hr hq => groupRelease_spec hr hq, fun rest htok hq => ?_,
      fun hm hreq harr => slackTimeout_spec hm hreq harr, fun l a ha => ?_⟩
    · obtain ⟨hstate, hgroups, -⟩ := finishPend_only s gh p
      have hfresh : ∀ w ∈ p.ws, w.con = false := fun w h => (hws w h).1
      refine ⟨finishPend s gh p, countedResultWrite_eq hf hw hcls, hstate, hgroups, finishPend_ids s gh p, fun r l hl => ?_, fun k => ?_⟩
      · rw [finishPend_velem hfresh hn r hl]
        cases p.ws.find? fun w => w.kind == 0 && w.key == r * 32 + l <;> rfl
      · by_cases hk : k = 0
        · rw [hk]
          rfl
        · rw [if_neg hk, finishPend_sreg hfresh hn hk]
          cases p.ws.find? fun w => w.kind == 1 && w.key == k <;> rfl
    · change execIrrevocableTokenGrant c s = _
      simp only [execIrrevocableTokenGrant, htok, hq]
    · obtain ⟨i, hfirst, hleast⟩ := arbiter_spec ha
      exact ⟨i, hfirst, fun j y hy => keyLt_grantKey_false (hleast j y hy)⟩
  · intro s gh k d since c core gran drain l w g t0
    refine ⟨fun hh hk hl hw hb hd hp => ?_, fun hd hw => ?_, fun hw hf hp hl => ldfeServe_spec hw hf hp hl⟩
    · obtain ⟨hstate, hgrp⟩ := fillLanes_group (s := s) (l := l) (gh := gh) (k := k) (d := d) hp
      have hlen : ((fillPops s l gh).1.map (·.item)).length = (fillPops s l gh).1.length := List.length_map _
      have hmask : maskOf ((lanesOf g.done).take ((fillPops s l gh).1.map (·.item)).length) = fillMask s l gh := by rw [hlen]; rfl
      have hsplit := filledGroup_splits g k d (is := (fillPops s l gh).1.map (·.item))
      refine ⟨fillLanes s l gh k d, fillMask s l gh, takeFill_eq hh hl hw hb hd, hstate, ?_, ?_, fillMask_done, ?_, ?_, ?_⟩
      · exact sameMem_of_eq (by rw [hstate]) (by rw [hstate]) (by rw [hstate]) (by rw [hstate])
      · rw [hgrp, filledGroup_done, hmask]
      · rw [hgrp, filledGroup_sreg _ _ _ (by rw [hlen]; exact fillPops_length), hlen, length_fillMask]
        by_cases hd0 : d = 0 <;> simp [hd0, Group.sreg]
      · rw [hgrp, hsplit, nthD_setAt_same _ _ _ _ hk, hmask]
      · rw [hgrp, hsplit, nthD_setAt_same _ _ _ _ hk]
    · obtain ⟨t, hexec, hstate, hctx, hctxs, hgroups⟩ := takeDrainRelease_spec hd hw
      refine ⟨t, hexec, hstate, hctx, hctxs, fun hc hany hk hh => ?_⟩
      rw [hgroups gh hany hc]
      exact drainSplits_done hk hh
end

section
/-! Commands of the matrix engine as they retire (R227, R232, R245, R247, R248). -/
namespace Sys2Proof.Machine

/-! Runs of keys that agree at one of them. -/

/-- A key that a run of writes names holds the value that every write of it gives. -/
theorem mget_msetAll_agree {α : Type} [DecidableEq α] (d : α) {k : Nat} {x : α} :
    ∀ (l : List (Nat × α)) (m : AMap α), (∀ e ∈ l, e.1 = k → e.2 = x) → (∃ e ∈ l, e.1 = k) → mget d (msetAll d m l) k = x
  | [], _, _, h => by simp at h
  | e :: l, m, hall, hex => by
    change mget d (msetAll d (mset d m e.1 e.2) l) k = x
    by_cases hl : ∃ e' ∈ l, e'.1 = k
    · exact mget_msetAll_agree d l _ (fun e' h => hall e' (List.mem_cons_of_mem _ h)) hl
    · have he : e.1 = k := by
        obtain ⟨e', he', hk⟩ := hex
        rcases List.mem_cons.1 he' with rfl | h
        · exact hk
        · exact absurd ⟨e', h, hk⟩ hl
      rw [mget_msetAll_ne d l k (fun e' h hk => hl ⟨e', h, hk⟩), ← hall e (List.mem_cons_self ..) he, he, mget_mset_same]

/-- A look-up by key finds the value that every entry of the key gives. -/
theorem find?_key_agree {α : Type} {k : Nat} {x : α} {l : List (Nat × α)} (hall : ∀ e ∈ l, e.1 = k → e.2 = x) (hex : ∃ e ∈ l, e.1 = k) :
    ∃ e, l.find? (fun e => e.1 == k) = some e ∧ e.2 = x := by
  cases hf : l.find? (fun e => e.1 == k) with
  | none =>
    obtain ⟨e, he, hk⟩ := hex
    simpa [hk] using List.find?_eq_none.1 hf e he
  | some e => exact ⟨e, rfl, hall e (List.mem_of_find?_eq_some hf) (by simpa using List.find?_some hf)⟩

theorem mget_filter_key {α : Type} (d : α) (p : Nat → Bool) (k : Nat) : ∀ m : AMap α, mget d (m.filter fun e => p e.1) k = if p k then mget d m k else d
  | [] => by simp
  | (j, x) :: m => by
    have ih := mget_filter_key d p k m
    by_cases hp : p j = true <;> by_cases hj : j = k
    · subst hj; simp [mget, hp]
    · simp [mget, hp, hj, ih]
    · subst hj; simp [hp, ih]
    · simp [mget, hp, hj, ih]

/-! Elements of a tile. -/

theorem tileKey_div {k i j : Nat} (hi : i < 64) (hj : j < 64) : tileKey k i j / 4096 = k := by simp only [tileKey]; omega

theorem tileKey_inj {k i j k' i' j' : Nat} (hi : i < 64) (hj : j < 64) (hi' : i' < 64) (hj' : j' < 64) (h : tileKey k i j = tileKey k' i' j') :
    k = k' ∧ i = i' ∧ j = j' := by
  simp only [tileKey] at h
  omega

theorem tileZero_elem (t : Team) (tile : Nat) {k i j : Nat} (hi : i < 64) (hj : j < 64) :
    (tileZero t tile).elem k i j = if k = tile then 0 else t.elem k i j := by
  change mget 0 (t.tiles.filter fun e => e.1 / 4096 != tile) _ = _
  rw [mget_filter_key 0 (fun e => e / 4096 != tile), tileKey_div hi hj]
  by_cases hk : k = tile <;> simp [hk, Team.elem]

theorem tilePut_elem_agree {t : Team} {l : List (Nat × Word64)} {k i j : Nat} {x : Word64} (hall : ∀ e ∈ l, e.1 = tileKey k i j → e.2 = x)
    (hex : ∃ e ∈ l, e.1 = tileKey k i j) : (tilePut t l).elem k i j = x := mget_msetAll_agree 0 l t.tiles hall hex

theorem tilePut_elem_ne {t : Team} {l : List (Nat × Word64)} {k i j : Nat} (h : ∀ e ∈ l, e.1 ≠ tileKey k i j) : (tilePut t l).elem k i j = t.elem k i j :=
  mget_msetAll_ne 0 l _ h t.tiles

/-! A command leaves its queue. -/

theorem dropCmd_only (s : State) (core idx : Nat) : dropCmd s core idx = { s with groups := (dropCmd s core idx).groups, cores := (dropCmd s core idx).cores } := rfl

theorem dropCmd_core (s : State) (core idx : Nat) : (dropCmd s core idx).core core = { s.core core with mq := dropAt (s.core core).mq idx } :=
  State.core_setCore s core _

theorem dropCmd_grp (s : State) (core idx : Nat) : (dropCmd s core idx).grp (cmdAt s core idx).gh =
    { s.grp (cmdAt s core idx).gh with pend := (s.grp (cmdAt s core idx).gh).pend.filter fun p => p.id != (cmdAt s core idx).id } :=
  State.grp_setGrp ..

/-- A command leaves where the event has changed no queue and no group. -/
theorem dropCmd_retired {s u : State} {core idx : Nat} (hmq : (u.core core).mq = (s.core core).mq) (hg : u.groups = s.groups) :
    RetiredCmd s (dropCmd u core idx) core idx := by
  have hc : cmdAt u core idx = cmdAt s core idx := by rw [cmdAt, hmq, cmdAt]
  have hgrp : u.grp (cmdAt s core idx).gh = s.grp (cmdAt s core idx).gh := by rw [State.grp, hg, State.grp]
  refine ⟨by rw [dropCmd_core, hmq], ?_⟩
  rw [← hc, dropCmd_grp, hc, hgrp]

/-! acrd (R96, R248). -/

theorem mem_acrdVals {t : Team} {tile d row : Nat} {act : Word32} {e : Nat × Word64} : e ∈ acrdVals t tile act d row ↔
    ∃ l, l < 32 ∧ inMask act l = true ∧ (e = (d * 32 + l, t.elem tile row l) ∨ e = ((d + 1) * 32 + l, t.elem tile row (32 + l))) := by
  simp only [acrdVals, List.mem_flatMap, mem_lanesOf, List.mem_cons, List.not_mem_nil, or_false, and_assoc]
  rfl

section
variable (t : Team) (tile d row : Nat) (act : Word32) {l : Nat} (hl : l < 32)
include hl

/-- The even register's values. -/
theorem acrdVals_even : ∀ e ∈ acrdVals t tile act d row, e.1 = d * 32 + l → e.2 = t.elem tile row l := by
  intro e he hk
  obtain ⟨k, hk32, -, rfl | rfl⟩ := mem_acrdVals.1 he
  · rw [show k = l by simpa using hk]
  · simp only at hk
    omega

/-- The odd register's values. -/
theorem acrdVals_odd : ∀ e ∈ acrdVals t tile act d row, e.1 = (d + 1) * 32 + l → e.2 = t.elem tile row (32 + l) := by
  intro e he hk
  obtain ⟨k, hk32, -, rfl | rfl⟩ := mem_acrdVals.1 he
  · simp only at hk
    omega
  · rw [show k = l by simpa using hk]

/-- Only the pair's elements in active lanes are named. -/
theorem acrdVals_other {r : Nat} (h : ¬ (inMask act l = true ∧ (r = d ∨ r = d + 1))) : ∀ e ∈ acrdVals t tile act d row, e.1 ≠ r * 32 + l := by
  intro e he hk
  obtain ⟨k, hk32, hm, rfl | rfl⟩ := mem_acrdVals.1 he <;>
  · simp only at hk
    have : k = l := by omega
    subst this
    exact h ⟨hm, by omega⟩

theorem acrdVals_has_even (h : inMask act l = true) : ∃ e ∈ acrdVals t tile act d row, e.1 = d * 32 + l :=
  ⟨_, mem_acrdVals.2 ⟨l, hl, h, .inl rfl⟩, rfl⟩

theorem acrdVals_has_odd (h : inMask act l = true) : ∃ e ∈ acrdVals t tile act d row, e.1 = (d + 1) * 32 + l :=
  ⟨_, mem_acrdVals.2 ⟨l, hl, h, .inr rfl⟩, rfl⟩

end

/-- No lane of an acrd reads a poisoned tile element. -/
theorem acrd_clean {t : Team} {tile row : Nat} (act : Word32)
    (h : ∀ l, l < 32 → mget false t.tpois (tileKey tile row l) = false ∧ mget false t.tpois (tileKey tile row (32 + l)) = false) :
    (act ≠ 0 && (lanesOf act).any fun l => mget false t.tpois (tileKey tile row l) || mget false t.tpois (tileKey tile row (32 + l))) = false := by
  rw [Bool.and_eq_false_iff]
  right
  simp only [List.any_eq_false, mem_lanesOf]
  intro l hl
  simp [h l hl.1]

/-- An acrd that has its values has written no register. -/
theorem acrdForm_v (s : State) (c : MCmd) (vals : List (Nat × Word64)) : ((acrdForm s c vals).grp c.gh).v = (s.grp c.gh).v := by
  rw [acrdForm, State.grp_setGrp]

/-- The writes of an acrd that has its values. -/
theorem acrdForm_pend {s : State} {c : MCmd} {vals : List (Nat × Word64)} {p : Pend} (hp : p ∈ ((acrdForm s c vals).grp c.gh).pend) (hid : p.id = c.id)
    {w : PW} (hw : w ∈ p.ws) {x : Word64} (hall : ∀ e ∈ vals, e.1 = w.key → e.2 = x) (hex : ∃ e ∈ vals, e.1 = w.key) : w.kind = 0 ∧ w.val = x := by
  rw [acrdForm, State.grp_setGrp] at hp
  obtain ⟨q, -, rfl⟩ := List.mem_map.1 hp
  by_cases hq : q.id = c.id
  · rw [if_pos hq] at hw
    obtain ⟨v, -, rfl⟩ := List.mem_map.1 hw
    cases hf : vals.find? fun e => e.1 == v.key with
    | none =>
      simp only [hf] at hall hex
      obtain ⟨e, he, -⟩ := find?_key_agree hall hex
      rw [hf] at he
      exact nomatch he
    | some e =>
      simp only [hf] at hall ⊢
      exact ⟨trivial, hall e (List.mem_of_find?_eq_some hf) (by simpa using List.find?_some hf)⟩
  · rw [if_neg hq] at hid
    exact absurd hid hq

/-- Where no later instruction has written its places, an acrd writes all its values. -/
theorem acrdWrite_v {n : Nat} {isL : Bool} {p : Pend} (hp : ∀ w ∈ p.ws, w.con = false) :
    ∀ (vals : List (Nat × Word64)) (g : Group), (acrdWrite n isL p vals g).v = msetAll 0 g.v vals
  | [], _ => rfl
  | x :: vals, g => by
    have hcon : (p.ws.any fun w => w.key == x.1 && w.con) = false := by
      simp only [List.any_eq_false]
      intro w hw
      simp [hp w hw]
    have ih := acrdWrite_v (n := n) (isL := isL) hp vals (g.wV (x.1 / 32) (x.1 % 32) x.2)
    have hstep : acrdWrite n isL p (x :: vals) g = acrdWrite n isL p vals (g.wV (x.1 / 32) (x.1 % 32) x.2) := by
      simp only [acrdWrite, List.foldl_cons, hcon]
      rfl
    rw [hstep, ih, Group.wV]
    simp only [Nat.div_add_mod' x.1 32]
    rfl

/-- The registers after an acrd has written its pair. -/
theorem acrdWrite_velem {n : Nat} {isL : Bool} {p : Pend} (hp : ∀ w ∈ p.ws, w.con = false) (t : Team) (tile d row : Nat) (act : Word32) (g : Group)
    (r : Nat) {l : Nat} (hl : l < 32) : (acrdWrite n isL p (acrdVals t tile act d row) g).velem r l =
      if inMask act l = true ∧ r = d then t.elem tile row l else if inMask act l = true ∧ r = d + 1 then t.elem tile row (32 + l) else g.velem r l := by
  rw [Group.velem, acrdWrite_v hp]
  split_ifs with h0 h1
  · obtain ⟨hm, rfl⟩ := h0
    exact mget_msetAll_agree 0 _ _ (acrdVals_even t tile r row act hl) (acrdVals_has_even t tile r row act hl hm)
  · obtain ⟨hm, rfl⟩ := h1
    exact mget_msetAll_agree 0 _ _ (acrdVals_odd t tile d row act hl) (acrdVals_has_odd t tile d row act hl hm)
  · exact mget_msetAll_ne 0 _ _ (acrdVals_other t tile d row act hl (by tauto)) g.v

/-! acwr (R248). -/

theorem mk64_halves (x : Word64) : mk64 (hi32 x) (lo32 x) = x := by
  refine BitVec.eq_of_getLsbD_eq fun i hi => ?_
  by_cases h : i < 32
  · simp [mk64, lo32, h, hi]
  · have hsub : i - 32 < 32 := by omega
    have hadd : 32 + (i - 32) = i := by omega
    simp [mk64, hi32, lo32, h, hsub, hadd, hi]

theorem mixHalf_self (n kind key : Nat) (x : Word64) : mixHalf n kind key x x = x := by
  simp only [mixHalf, ite_self]
  exact mk64_halves x

/-- The tile elements that acwr writes, from the registers at issue and as they stand (R243, R248). -/
def acwrVals (n : Nat) (old new : AMap Word64) (tile : Nat) (act : Word32) (a row : Nat) : List (Nat × Word64) :=
  let v (k : Nat) : Word64 := mixHalf n 0 k (mget 0 old k) (mget 0 new k)
  (lanesOf act).flatMap fun l => [(tileKey tile row l, v (a * 32 + l)), (tileKey tile row (32 + l), v ((a + 1) * 32 + l))]

/-- Where the registers stand as at issue, each element comes from the lane and the register that its column names. -/
theorem mem_acwrVals {n : Nat} {g : Group} {tile a row : Nat} {act : Word32} {e : Nat × Word64} : e ∈ acwrVals n g.v g.v tile act a row ↔
    ∃ j, j < 64 ∧ inMask act (j % 32) = true ∧ e = (tileKey tile row j, g.velem (a + j / 32) (j % 32)) := by
  simp only [acwrVals, mixHalf_self, List.mem_flatMap, mem_lanesOf, List.mem_cons, List.not_mem_nil, or_false]
  constructor
  · rintro ⟨l, ⟨hl, hm⟩, rfl | rfl⟩
    · refine ⟨l, by omega, by rwa [Nat.mod_eq_of_lt hl], ?_⟩
      rw [Nat.mod_eq_of_lt hl, Nat.div_eq_of_lt hl]
      rfl
    · have hmod : (32 + l) % 32 = l := by omega
      have hdiv : (32 + l) / 32 = 1 := by omega
      refine ⟨32 + l, by omega, by rwa [hmod], ?_⟩
      rw [hmod, hdiv]
      rfl
  · rintro ⟨j, hj, hm, rfl⟩
    refine ⟨j % 32, ⟨Nat.mod_lt _ (by omega), hm⟩, ?_⟩
    by_cases hlow : j < 32
    · left
      rw [Nat.mod_eq_of_lt hlow, Nat.div_eq_of_lt hlow]
      rfl
    · right
      have hdiv : j / 32 = 1 := by omega
      rw [hdiv, show 32 + j % 32 = j by omega]
      rfl

theorem acwr_elem (n : Nat) (t : Team) (g : Group) (tile a : Nat) {row : Nat} (act : Word32) (hrow : row < 64) {k i j : Nat} (hi : i < 64) (hj : j < 64) :
    (tilePut t (acwrVals n g.v g.v tile act a row)).elem k i j =
      if k = tile ∧ i = row ∧ inMask act (j % 32) = true then g.velem (a + j / 32) (j % 32) else t.elem k i j := by
  split_ifs with h
  · obtain ⟨rfl, rfl, hm⟩ := h
    refine tilePut_elem_agree (fun e he hk => ?_) ⟨_, mem_acwrVals.2 ⟨j, hj, hm, rfl⟩, rfl⟩
    obtain ⟨j', hj', -, rfl⟩ := mem_acwrVals.1 he
    obtain ⟨-, -, rfl⟩ := tileKey_inj hi hj' hi hj hk
    rfl
  · refine tilePut_elem_ne fun e he hk => h ?_
    obtain ⟨j', hj', hm, rfl⟩ := mem_acwrVals.1 he
    obtain ⟨rfl, rfl, rfl⟩ := tileKey_inj hrow hj' hi hj hk
    exact ⟨rfl, rfl, hm⟩

/-! mld (R245). -/

/-- The tile elements that mld reads from the scratchpad. -/
def mldVals (k : CoreSt) (tile o pitch : Nat) : List (Nat × Word64) :=
  (List.range 64).flatMap fun i => (List.range 64).map fun j => (tileKey tile i j, BitVec.ofNat 64 (k.rdSp (o + i * pitch + 8 * j) 8))

theorem mem_mldVals {c : CoreSt} {tile o pitch : Nat} {e : Nat × Word64} : e ∈ mldVals c tile o pitch ↔
    ∃ i j, i < 64 ∧ j < 64 ∧ e = (tileKey tile i j, BitVec.ofNat 64 (c.rdSp (o + i * pitch + 8 * j) 8)) := by
  simp only [mldVals, List.mem_flatMap, List.mem_map, List.mem_range]
  constructor
  · rintro ⟨i, hi, j, hj, rfl⟩
    exact ⟨i, j, hi, hj, rfl⟩
  · rintro ⟨i, j, hi, hj, rfl⟩
    exact ⟨i, hi, j, hj, rfl⟩

theorem mld_elem (c : CoreSt) (t : Team) (tile o pitch : Nat) {k i j : Nat} (hi : i < 64) (hj : j < 64) :
    (tilePut t (mldVals c tile o pitch)).elem k i j = if k = tile then BitVec.ofNat 64 (c.rdSp (o + i * pitch + 8 * j) 8) else t.elem k i j := by
  split_ifs with h
  · subst h
    refine tilePut_elem_agree (fun e he hk => ?_) ⟨_, mem_mldVals.2 ⟨i, j, hi, hj, rfl⟩, rfl⟩
    obtain ⟨i', j', hi', hj', rfl⟩ := mem_mldVals.1 he
    obtain ⟨-, rfl, rfl⟩ := tileKey_inj hi' hj' hi hj hk
    rfl
  · refine tilePut_elem_ne fun e he hk => h ?_
    obtain ⟨i', j', hi', hj', rfl⟩ := mem_mldVals.1 he
    exact (tileKey_inj hi' hj' hi hj hk).1.symm

/-! What the event comes to, by the command's kind (R227). -/

section
variable {s : State} {core idx : Nat} (hr : retireReady s core idx = true)
include hr

theorem retire_loop {f : MloopF} {a0 a1 b0 b1 : Word64} {ai bi : Nat} (hop : (cmdAt s core idx).op = .loop f a0 a1 b0 b1 ai bi) (hp : f.pair = false) :
    execMatrixCommandRetire core idx s = .next (dropCmd s core idx) := by
  simp [execMatrixCommandRetire, hr, hop, MCmd.paired, hp]

theorem retire_zero (hop : (cmdAt s core idx).op = .zero) : execMatrixCommandRetire core idx s =
    .next (dropCmd (s.setTeam ((cmdAt s core idx).gh / 32) (tileZero (s.team ((cmdAt s core idx).gh / 32)) (cmdAt s core idx).tile)) core idx) := by
  simp [execMatrixCommandRetire, hr, hop]

theorem retire_load {o pitch : Nat} (hop : (cmdAt s core idx).op = .load o pitch)
    (hc : ∀ i, i < 64 → (s.core core).spPoison (o + i * pitch) 512 = false) : execMatrixCommandRetire core idx s =
    .next (dropCmd (s.setTeam ((cmdAt s core idx).gh / 32) (tilePut (s.team ((cmdAt s core idx).gh / 32)) (mldVals (s.core core) (cmdAt s core idx).tile o pitch))) core idx) := by
  have hbad : (List.range 64).find? (fun i => (s.core core).spPoison (o + i * pitch) 512) = none := by
    simp only [List.find?_eq_none, List.mem_range]
    intro i hi
    simp [hc i hi]
  simp only [execMatrixCommandRetire, hr, hop, hbad]
  rfl

theorem retire_rd {act : Word32} {d row : Nat} (hop : (cmdAt s core idx).op = .rd act d row)
    (hc : ∀ l, l < 32 → mget false (s.team ((cmdAt s core idx).gh / 32)).tpois (tileKey (cmdAt s core idx).tile row l) = false ∧
      mget false (s.team ((cmdAt s core idx).gh / 32)).tpois (tileKey (cmdAt s core idx).tile row (32 + l)) = false) :
    execMatrixCommandRetire core idx s =
      let c := cmdAt s core idx
      let t := s.team (c.gh / 32)
      let vals := acrdVals t c.tile act d row
      if t.isL && c.step = 0 then .next (putCmd (acrdForm s c vals) core idx { c with step := 1 })
      else .next ((dropCmd s core idx).setGrp c.gh
        (acrdWrite s.free t.isL (((s.grp c.gh).pend.find? fun p => p.id == c.id).getD ⟨cASYNC, c.id, true, []⟩) vals ((dropCmd s core idx).grp c.gh))) := by
  simp only [execMatrixCommandRetire, hr, hop, acrd_clean act hc]
  rfl

theorem retire_wr {act : Word32} {a row : Nat} (hop : (cmdAt s core idx).op = .wr act a row) : execMatrixCommandRetire core idx s =
    let c := cmdAt s core idx
    let t1 := tilePut (s.team (c.gh / 32)) (acwrVals s.free c.vSnap (s.grp c.gh).v c.tile act a row)
    .next (dropCmd (s.setTeam (c.gh / 32) { t1 with ovf := mset false t1.ovf c.tile false }) core idx) := by
  simp only [execMatrixCommandRetire, hr, hop]
  rfl

theorem retire_drain {f : MdrnF} {dst : Word64} {m : GMisc} (hop : (cmdAt s core idx).op = .drain f dst m) :
    execMatrixCommandRetire core idx s = .next (runDrain s core idx (cmdAt s core idx) f dst m) := by
  simp [execMatrixCommandRetire, hr, hop]

end

/-! A plain drain to the scratchpad (R232, R247). -/

theorem nthD_append_right {α : Type} (d : α) : ∀ (l r : List α) (i : Nat), nthD d (l ++ r) (l.length + i) = nthD d r i
  | [], _, _ => by simp
  | _ :: l, r, i => by
    rw [List.length_cons, Nat.add_right_comm]
    exact nthD_append_right d l r i

/-- A list made of pieces of one length, by piece and place. -/
theorem nthD_flatMap_pieces {α β : Type} (d : α) (e : β) (f : β → List α) (n : Nat) (hf : ∀ x, (f x).length = n) {b : Nat} (hb : b < n) :
    ∀ (l : List β) (j : Nat), j < l.length → nthD d (l.flatMap f) (n * j + b) = nthD d (f (nthD e l j)) b
  | [], _, h => by simp at h
  | x :: l, 0, _ => by
    rw [List.flatMap_cons, Nat.mul_zero, Nat.zero_add, nthD_append_left _ _ _ _ (by rw [hf]; exact hb)]
    rfl
  | x :: l, j + 1, h => by
    have ih := nthD_flatMap_pieces d e f n hf hb l j (by simpa using h)
    rw [List.flatMap_cons, show n * (j + 1) + b = (f x).length + (n * j + b) by rw [hf]; ring, nthD_append_right, ih]
    rfl

theorem length_flatMap_pieces {α β : Type} (f : β → List α) (n : Nat) (hf : ∀ x, (f x).length = n) (l : List β) : (l.flatMap f).length = n * l.length := by
  simp [List.length_flatMap, hf, Nat.mul_comm]

theorem nthD_drop {α : Type} (d : α) : ∀ (l : List α) (k i : Nat), nthD d (l.drop k) i = nthD d l (k + i)
  | [], k, i => by simp [nthD]
  | _ :: _, 0, i => by simp
  | _ :: l, k + 1, i => by
    rw [List.drop_succ_cons, nthD_drop d l k i, Nat.add_right_comm]
    rfl

theorem nthD_take {α : Type} (d : α) : ∀ (l : List α) {k i : Nat}, i < k → nthD d (l.take k) i = nthD d l i
  | [], _, _, _ => by simp
  | _ :: _, k + 1, 0, _ => rfl
  | _ :: l, k + 1, i + 1, h => nthD_take d l (by omega)

@[simp] theorem toBytes_length (n v : Nat) : (toBytes n v).length = n := by simp [toBytes]

theorem nthD_toBytes {n k : Nat} (v : Nat) (h : k < n) : nthD 0 (toBytes n v) k = BitVec.ofNat 8 (v / 2 ^ (8 * k)) := nthD_map_range 0 _ h

/-- The bytes of a number, read as a number. -/
theorem ofBytes_toBytes : ∀ (n v : Nat), ofBytes (toBytes n v) = v % 2 ^ (8 * n)
  | 0, v => by simp [toBytes, ofBytes, Nat.mod_one]
  | n + 1, v => by
    have ih := ofBytes_toBytes n (v / 2 ^ 8)
    have htail : (List.range n).map (fun k => BitVec.ofNat 8 (v / 2 ^ (8 * (k + 1)))) = toBytes n (v / 2 ^ 8) := by
      refine List.map_congr_left fun k _ => ?_
      rw [Nat.div_div_eq_div_mul, ← pow_add, show 8 + 8 * k = 8 * (k + 1) by ring]
    have hsplit : toBytes (n + 1) v = BitVec.ofNat 8 v :: toBytes n (v / 2 ^ 8) := by
      rw [toBytes, List.range_succ_eq_map, List.map_cons, List.map_map, ← htail]
      simp [Function.comp_def]
    rw [hsplit, ofBytes, ih, BitVec.toNat_ofNat, show 8 * (n + 1) = 8 + 8 * n by ring, pow_add, Nat.mod_mul]
    rfl

/-- The bytes of a tile row whose intervals are written in their canonical form (R134, R232). -/
def drainedRow (t : Team) (tile row : Nat) : List Byte := (List.range 64).flatMap fun j => toBytes 8 (x32Write (x32Read (t.elem tile row j))).toNat

theorem drainedRow_length (t : Team) (tile row : Nat) : (drainedRow t tile row).length = 512 := by
  rw [drainedRow, length_flatMap_pieces _ 8 (fun _ => toBytes_length 8 _), List.length_range]

theorem nthD_drainedRow (t : Team) (tile row : Nat) {j b : Nat} (hj : j < 64) (hb : b < 8) :
    nthD 0 (drainedRow t tile row) (8 * j + b) = BitVec.ofNat 8 ((x32Write (x32Read (t.elem tile row j))).toNat / 2 ^ (8 * b)) := by
  rw [drainedRow, nthD_flatMap_pieces 0 0 _ 8 (fun _ => toBytes_length 8 _) hb _ _ (by rwa [List.length_range]), nthD_range hj, nthD_toBytes _ hb]

/-- A drain without a stage, to the scratchpad. -/
structure PlainDrain (f : MdrnF) : Prop where
  mode : f.mode = 0
  qnt : f.qnt = false
  bias : f.bias = false
  act : f.act = false
  amax : f.amax = false
  sp : f.glob = false

/-- The writes of a plain drain: its rows in order, in pieces of 16 bytes. -/
theorem drainWrites_plain (s : State) (core : Nat) (c : MCmd) {f : MdrnF} (hf : PlainDrain f) (dst : Word64) (m : GMisc) :
    ∃ bad : Nat → Nat → Bool, drainWrites s core c f dst m = (List.range (f.nrows + 1)).flatMap fun r => (List.range 32).map fun q =>
      ((dst.toNat + r * m.dpitch.toNat + 16 * q) % 2 ^ 32, ((drainedRow (s.team (c.gh / 32)) c.tile (f.row0 + r)).drop (16 * q)).take 16, bad r q) := by
  refine ⟨fun r q => (List.range 64).any fun j => j * drainBytes f / 16 == q && mget false (s.team (c.gh / 32)).tpois (tileKey c.tile (f.row0 + r) j), ?_⟩
  have hrow (r : Nat) : drainRow f c.nrm m.biasoff.toNat m.actoff.toNat (fun o => (s.core core).rdSp o 4)
      ((List.range 64).map fun j => mget 0 (s.team (c.gh / 32)).tiles (tileKey c.tile (f.row0 + r) j)) =
      (drainedRow (s.team (c.gh / 32)) c.tile (f.row0 + r), []) := by
    simp only [drainRow, hf.mode, hf.qnt, hf.bias, hf.act, List.flatMap_map]
    rfl
  simp only [drainWrites, hrow, List.length_map, List.length_range, ← List.map_prod_left_eq_zip, List.flatMap_map, drainedRow_length, hf.sp]
  refine List.flatMap_congr fun r _ => ?_
  simp

theorem msetAll_append {α : Type} [DecidableEq α] (d : α) (m : AMap α) (l r : List (Nat × α)) : msetAll d m (l ++ r) = msetAll d (msetAll d m l) r :=
  List.foldl_append

/-- One write to the scratchpad changes the core's bytes and their marks. -/
theorem drainPut_scratchpad (s : State) (core : Nat) (c : MCmd) (w : Nat × List Byte × Bool) : ∃ t p,
    drainPut s core c false w = .done t ∧ t = { s with cores := t.cores } ∧
      t.core core = { s.core core with sp := msetAll 0 (s.core core).sp (cellsOf (w.1 % 2 ^ 21) w.2.1), spois := p } := by
  obtain ⟨a, bs, bad⟩ := w
  cases bad
  · exact ⟨_, _, rfl, rfl, State.core_setCore ..⟩
  · exact ⟨_, _, rfl, rfl, State.core_setCore ..⟩

/-- A run of writes to the scratchpad goes to its end. -/
theorem drainRun_scratchpad (core : Nat) (c : MCmd) : ∀ (ws : List (Nat × List Byte × Bool)) (s : State) (k : Nat), ∃ t p,
    drainRun core c false ws s k = (.done t, k + ws.length) ∧ t = { s with cores := t.cores } ∧
      t.core core = { s.core core with sp := msetAll 0 (s.core core).sp (ws.flatMap fun w => cellsOf (w.1 % 2 ^ 21) w.2.1), spois := p }
  | [], s, k => ⟨s, (s.core core).spois, rfl, rfl, rfl⟩
  | w :: ws, s, k => by
    obtain ⟨s1, p1, hput, hs1, hcore1⟩ := drainPut_scratchpad s core c w
    obtain ⟨t, p, hrun, ht, hcore⟩ := drainRun_scratchpad core c ws s1 (k + 1)
    refine ⟨t, p, ?_, by rw [ht, hs1], ?_⟩
    · rw [drainRun, hput]
      simp only [hrun, List.length_cons]
      rw [Nat.add_right_comm, Nat.add_assoc]
    · rw [hcore, hcore1, List.flatMap_cons, msetAll_append]

/-- A number below 2^n bytes is read back from the bytes that spell it. -/
theorem rdSp_of_bytes {k : CoreSt} {o n v : Nat} (hv : v < 2 ^ (8 * n)) (h : ∀ b, b < n → mget 0 k.sp (o + b) = BitVec.ofNat 8 (v / 2 ^ (8 * b))) :
    k.rdSp o n = v := by
  have hbytes : (List.range n).map (fun b => mget 0 k.sp (o + b)) = toBytes n v := List.map_congr_left fun b hb => h b (List.mem_range.1 hb)
  rw [CoreSt.rdSp, hbytes, ofBytes_toBytes, Nat.mod_eq_of_lt hv]

theorem mem_cellsOf {a : Nat} {bs : List Byte} {e : Host.Cell} : e ∈ cellsOf a bs ↔ ∃ k, k < bs.length ∧ e = (a + k, nthD 0 bs k) := by
  simp only [cellsOf, List.mem_map, List.mem_range]
  constructor <;> rintro ⟨k, hk, rfl⟩ <;> exact ⟨k, hk, rfl⟩

/-- Place x of row r, in a picture of rows that are a pitch apart. -/
theorem row_place {r r' x x' p : Nat} (hx : x < p) (hx' : x' < p) (h : r * p + x = r' * p + x') : r = r' ∧ x = x' := by
  have hp : 0 < p := by omega
  have h1 := congrArg (· / p) h
  simp only [Nat.mul_comm _ p, Nat.mul_add_div hp, Nat.div_eq_of_lt hx, Nat.div_eq_of_lt hx', Nat.add_zero] at h1
  subst h1
  exact ⟨rfl, by omega⟩

section
variable {s : State} {core : Nat} {c : MCmd} {f : MdrnF} {dst : Word64} {m : GMisc} (hf : PlainDrain f)
  (hr : dst.toNat % 2 ^ 21 + f.nrows * m.dpitch.toNat + 512 ≤ 2 ^ 21)
include hf hr

/-- The bytes that a plain drain writes: of each row, at its pitch, below the end of the scratchpads' window. -/
theorem mem_drainCells {e : Host.Cell} : e ∈ (drainWrites s core c f dst m).flatMap (fun w => cellsOf (w.1 % 2 ^ 21) w.2.1) ↔
    ∃ r x, r ≤ f.nrows ∧ x < 512 ∧
      e = (dst.toNat % 2 ^ 21 + r * m.dpitch.toNat + x, nthD 0 (drainedRow (s.team (c.gh / 32)) c.tile (f.row0 + r)) x) := by
  obtain ⟨bad, hw⟩ := drainWrites_plain s core c hf dst m
  have haddr {r q : Nat} (hr' : r ≤ f.nrows) (hq : q < 32) :
      (dst.toNat + r * m.dpitch.toNat + 16 * q) % 2 ^ 32 % 2 ^ 21 = dst.toNat % 2 ^ 21 + r * m.dpitch.toNat + 16 * q := by
    have hmul : r * m.dpitch.toNat ≤ f.nrows * m.dpitch.toNat := Nat.mul_le_mul_right _ hr'
    generalize r * m.dpitch.toNat = y at *
    omega
  have hlen {r q : Nat} (hq : q < 32) : (((drainedRow (s.team (c.gh / 32)) c.tile (f.row0 + r)).drop (16 * q)).take 16).length = 16 := by
    simp only [List.length_take, List.length_drop, drainedRow_length]
    omega
  have hbyte {r q k : Nat} (hk : k < 16) : nthD 0 (((drainedRow (s.team (c.gh / 32)) c.tile (f.row0 + r)).drop (16 * q)).take 16) k =
      nthD 0 (drainedRow (s.team (c.gh / 32)) c.tile (f.row0 + r)) (16 * q + k) := by rw [nthD_take _ _ hk, nthD_drop]
  simp only [hw, List.mem_flatMap, List.mem_map, List.mem_range, mem_cellsOf]
  constructor
  · rintro ⟨-, ⟨r, hr', q, hq, rfl⟩, k, hk, rfl⟩
    simp only [hlen hq] at hk
    refine ⟨r, 16 * q + k, by omega, by omega, ?_⟩
    simp only
    rw [haddr (by omega) hq, hbyte hk, Nat.add_assoc _ (16 * q)]
  · rintro ⟨r, x, hr', hx, rfl⟩
    refine ⟨_, ⟨r, by omega, x / 16, by omega, rfl⟩, x % 16, ?_, ?_⟩
    · simp only [hlen (show x / 16 < 32 by omega)]
      omega
    · simp only
      rw [haddr hr' (by omega), hbyte (by omega), Nat.add_assoc _ (16 * (x / 16)), Nat.div_add_mod]

/-- Each element of a drained row, read back from the scratchpad. -/
theorem rdSp_drained (hp : 512 ≤ m.dpitch.toNat) {k : CoreSt} {sp : AMap Byte} (hk : k.sp = msetAll 0 sp ((drainWrites s core c f dst m).flatMap fun w => cellsOf (w.1 % 2 ^ 21) w.2.1))
    {r j : Nat} (hr' : r ≤ f.nrows) (hj : j < 64) : k.rdSp (dst.toNat % 2 ^ 21 + r * m.dpitch.toNat + 8 * j) 8 =
      (x32Write (x32Read ((s.team (c.gh / 32)).elem c.tile (f.row0 + r) j))).toNat := by
  refine rdSp_of_bytes (BitVec.isLt _) fun b hb => ?_
  rw [hk, ← nthD_drainedRow _ _ _ hj hb, Nat.add_assoc _ (8 * j)]
  refine mget_msetAll_agree 0 _ sp (fun e he hkey => ?_) ⟨_, (mem_drainCells hf hr).2 ⟨r, 8 * j + b, hr', by omega, rfl⟩, rfl⟩
  obtain ⟨r2, x2, hr2, hx2, rfl⟩ := (mem_drainCells hf hr).1 he
  simp only [Nat.add_assoc, Nat.add_left_cancel_iff] at hkey
  obtain ⟨rfl, rfl⟩ := row_place (by omega) (by omega) hkey
  rfl

end

/-- A plain drain whose accesses are made at once leaves its queue. -/
theorem runDrain_plain {s : State} {core idx : Nat} {f : MdrnF} (hf : PlainDrain f) (dst : Word64) (m : GMisc) (hstep : (cmdAt s core idx).step = 0)
    (hlog : ∀ e ∈ (s.core core).slog, e.gh = (cmdAt s core idx).gh → e.id ≠ (cmdAt s core idx).id)
    (hpeer : ∀ p ∈ s.io.peerOut, p.gh = (cmdAt s core idx).gh → p.id ≠ (cmdAt s core idx).id) :
    ∃ u p, runDrain s core idx (cmdAt s core idx) f dst m = dropCmd u core idx ∧ u = { s with cores := u.cores } ∧
      u.core core = { s.core core with
        sp := msetAll 0 (s.core core).sp ((drainWrites s core (cmdAt s core idx) f dst m).flatMap fun w => cellsOf (w.1 % 2 ^ 21) w.2.1), spois := p } := by
  obtain ⟨u, p, hrun, hu, hcore⟩ := drainRun_scratchpad core (cmdAt s core idx) (drainWrites s core (cmdAt s core idx) f dst m) s 0
  refine ⟨u, p, ?_, hu, hcore⟩
  have hpois : drainPoison s core (cmdAt s core idx) f m = none := by simp [drainPoison, hf.amax, hf.bias, hf.act, hf.qnt]
  have hdone : cmdPerformed u core { cmdAt s core idx with step := max (0 + (drainWrites s core (cmdAt s core idx) f dst m).length) 0 } = true := by
    have hio : u.io = s.io := by rw [hu]
    simp only [cmdPerformed, hcore, hio, Bool.and_eq_true, List.all_eq_true, Bool.or_eq_true, bne_iff_ne]
    exact ⟨fun e he => by have := hlog e he; tauto, fun e he => by have := hpeer e he; tauto⟩
  simp only [runDrain, hpois, hstep, List.drop_zero, hf.sp, hrun, hf.amax, Bool.false_and, endDrain, hdone, if_true]
  rfl

end Sys2Proof.Machine
open Sys2Proof Sys2Proof.Machine

/-- Settles O32: the event by the command's kind (`retire_loop` to `retire_drain`), what leaves the queue (`dropCmd_retired`), and the elements that
each kind moves (`tileZero_elem`, `mld_elem`, `acrdForm_pend`, `acrdWrite_velem`, `acwr_elem`, `rdSp_drained`). -/
theorem matrixRetirement : Obligations.MatrixRetirement := by
  unfold Obligations.MatrixRetirement
  intro s core idx act d a row o pitch f g a0 a1 b0 b1 dst ai bi m c tm out hr _
  refine ⟨fun hop hpair => ?_, fun hop => ?_, fun hop hclean => ?_, fun hop hL hstep hclean => ?_, fun hop hlate hclean hcon => ?_,
    fun hop hsnap hrow => ?_, fun hop hstep hmode hqnt hbias hact hamax hglob _ hlog hpeer _ hpitch hend => ?_⟩
  · exact ⟨_, retire_loop hr hop hpair, dropCmd_retired rfl rfl, dropCmd_only ..⟩
  · refine ⟨_, retire_zero hr hop, dropCmd_retired rfl rfl, rfl, fun k i j hi hj => ?_⟩
    exact (congrArg (Team.elem · k i j) (State.team_setTeam ..)).trans (tileZero_elem tm c.tile hi hj)
  · refine ⟨_, retire_load hr hop hclean, dropCmd_retired rfl rfl, rfl, fun k i j hi hj => ?_⟩
    exact (congrArg (Team.elem · k i j) (State.team_setTeam ..)).trans (mld_elem (s.core core) tm c.tile o pitch hi hj)
  · refine ⟨putCmd (acrdForm s c (acrdVals tm c.tile act d row)) core idx { c with step := 1 }, ?_, rfl, ?_, ?_, ?_⟩
    · exact (retire_rd hr hop hclean).trans (if_pos (by rw [Bool.and_eq_true, decide_eq_true_eq]; exact ⟨hL, hstep⟩))
    · rw [putCmd, State.core_setCore]
      rfl
    · exact acrdForm_v s c _
    · intro p hp hid w hw l hl hm
      constructor <;> intro hkey
      · refine acrdForm_pend hp hid hw ?_ ?_ <;> rw [hkey]
        · exact acrdVals_even tm c.tile d row act hl
        · exact acrdVals_has_even tm c.tile d row act hl hm
      · refine acrdForm_pend hp hid hw ?_ ?_ <;> rw [hkey]
        · exact acrdVals_odd tm c.tile d row act hl
        · exact acrdVals_has_odd tm c.tile d row act hl hm
  · refine ⟨_, (retire_rd hr hop hclean).trans (if_neg (by simpa [Bool.and_eq_true, or_iff_not_imp_left] using hlate)), ?_, rfl, fun r l hl => ?_⟩
    · exact congrArg CoreSt.mq (dropCmd_core s core idx)
    · have hfound : ∀ w ∈ (((s.grp c.gh).pend.find? fun p => p.id == c.id).getD ⟨cASYNC, c.id, true, []⟩).ws, w.con = false := by
        cases hf : (s.grp c.gh).pend.find? fun p => p.id == c.id with
        | none => simp
        | some p => exact hcon p (List.mem_of_find?_eq_some hf)
      have hold : ((dropCmd s core idx).grp c.gh).velem r l = (s.grp c.gh).velem r l := (congrArg (Group.velem · r l) (dropCmd_grp s core idx)).trans rfl
      rw [State.grp_setGrp, acrdWrite_velem hfound tm c.tile d row act _ r hl, hold]
  · have hexec := retire_wr hr hop
    simp only [show (cmdAt s core idx).vSnap = _ from hsnap] at hexec
    refine ⟨_, hexec, dropCmd_retired rfl rfl, rfl, fun k i j hi hj => ?_⟩
    exact (congrArg (Team.elem · k i j) (State.team_setTeam ..)).trans (acwr_elem s.free tm (s.grp c.gh) c.tile a act hrow hi hj)
  · have hf : PlainDrain g := ⟨hmode, hqnt, hbias, hact, hamax, hglob⟩
    obtain ⟨u, p, hrun, hu, hcore⟩ := runDrain_plain hf dst m hstep hlog hpeer
    refine ⟨dropCmd u core idx, (retire_drain hr hop).trans (congrArg _ hrun), dropCmd_retired (by rw [hcore]) (by rw [hu]), ?_, fun r j hrow hj => ?_⟩
    · rw [dropCmd_only, hu]
    · exact rdSp_drained hf hend hpitch (by rw [dropCmd_core, hcore]) hrow hj
end

section
/-! Exact rationals (R150): what each operation on a fraction does to the number that it stands for. -/
namespace Sys2Proof.Machine

/-- The number that a fraction stands for. -/
def Q.rat (q : Q) : ℚ := q.n / q.d

/-! Denominators stay positive. -/

theorem qNorm_pos {a : Q} (h : 0 < a.d) : 0 < (qNorm a).d := by
  unfold qNorm
  simp only
  split_ifs
  · exact h
  · exact Nat.div_pos (Nat.le_of_dvd h (Nat.gcd_dvd_right _ _)) (Nat.gcd_pos_of_pos_right _ h)

theorem qAdd_pos {a b : Q} (ha : 0 < a.d) (hb : 0 < b.d) : 0 < (qAdd a b).d := by
  unfold qAdd
  split_ifs
  · exact ha
  · exact qNorm_pos (Nat.mul_pos ha hb)

theorem qSub_pos {a b : Q} (ha : 0 < a.d) (hb : 0 < b.d) : 0 < (qSub a b).d := qAdd_pos ha hb

theorem qMul_pos {a b : Q} (ha : 0 < a.d) (hb : 0 < b.d) : 0 < (qMul a b).d := Nat.mul_pos ha hb

theorem qDiv_pos {a b : Q} (ha : 0 < a.d) (hb : b.n ≠ 0) : 0 < (qDiv a b).d := by
  have := Nat.mul_pos ha (Int.natAbs_pos.2 hb)
  unfold qDiv
  split_ifs <;> exact this

theorem qMax_pos {a b : Q} (ha : 0 < a.d) (hb : 0 < b.d) : 0 < (qMax a b).d := by
  unfold qMax
  split_ifs
  · exact hb
  · exact ha

theorem qPow2_pos (e : Int) : 0 < (qPow2 e).d := by
  unfold qPow2
  split_ifs
  · exact Nat.two_pow_pos _
  · exact Nat.one_pos

/-! The numbers. -/

@[simp] theorem rat_qInt (n : Int) : (qInt n).rat = n := by simp [Q.rat, qInt]

@[simp] theorem rat_qNeg (a : Q) : (qNeg a).rat = -a.rat := by simp [Q.rat, qNeg, neg_div]

@[simp] theorem rat_qMul (a b : Q) : (qMul a b).rat = a.rat * b.rat := by simp [Q.rat, qMul, div_mul_div_comm]

@[simp] theorem rat_qAbs (a : Q) : (qAbs a).rat = |a.rat| := by
  simp [Q.rat, qAbs, abs_div]

theorem rat_qNorm (a : Q) : (qNorm a).rat = a.rat := by
  unfold qNorm
  simp only
  split_ifs with h
  · rfl
  · have hg : ((a.n.natAbs.gcd a.d : Nat) : ℚ) ≠ 0 := by
      have : a.n.natAbs.gcd a.d ≠ 0 := by omega
      exact_mod_cast this
    have hn : ((a.n.natAbs.gcd a.d : Nat) : Int) ∣ a.n := Int.natCast_dvd.2 (Nat.gcd_dvd_left _ _)
    have hd : a.n.natAbs.gcd a.d ∣ a.d := Nat.gcd_dvd_right _ _
    simp only [Q.rat]
    rw [Int.tdiv_eq_ediv_of_dvd hn, Int.cast_div hn (by exact_mod_cast hg), Nat.cast_div hd hg]
    exact div_div_div_cancel_right₀ (by exact_mod_cast hg) _ _

theorem rat_qAdd {a b : Q} (ha : 0 < a.d) (hb : 0 < b.d) : (qAdd a b).rat = a.rat + b.rat := by
  have ha' : (a.d : ℚ) ≠ 0 := by positivity
  have hb' : (b.d : ℚ) ≠ 0 := by positivity
  unfold qAdd
  split_ifs with h
  · simp [Q.rat, h, add_div]
  · rw [rat_qNorm]
    simp only [Q.rat]
    push_cast
    field_simp

theorem rat_qSub {a b : Q} (ha : 0 < a.d) (hb : 0 < b.d) : (qSub a b).rat = a.rat - b.rat := by
  rw [qSub, rat_qAdd ha (show 0 < (qNeg b).d from hb), rat_qNeg, sub_eq_add_neg]

theorem rat_qDiv (a b : Q) : (qDiv a b).rat = a.rat / b.rat := by
  have key : ((a.n * b.d : Int) : ℚ) / ((a.d * b.n.natAbs : Nat) : ℚ) = a.n / a.d / (|(b.n : ℚ)| / b.d) := by
    rw [div_div_div_eq]
    push_cast
    simp
  unfold qDiv
  split_ifs with h
  · have hb : (b.n : ℚ) < 0 := by exact_mod_cast h
    simp only [Q.rat, Int.cast_neg, neg_div, key, abs_of_neg hb, div_neg, neg_neg]
  · have hb : (0 : ℚ) ≤ b.n := by exact_mod_cast not_lt.1 h
    simp only [Q.rat, key, abs_of_nonneg hb]

theorem rat_qPow2 (e : Int) : (qPow2 e).rat = 2 ^ e := by
  unfold qPow2
  split_ifs with h
  · obtain ⟨n, rfl⟩ : ∃ n : Nat, e = -n := ⟨e.natAbs, by omega⟩
    simp [Q.rat]
  · obtain ⟨n, rfl⟩ : ∃ n : Nat, e = n := ⟨e.natAbs, by omega⟩
    simp [Q.rat]

/-! Signs and order. -/

theorem rat_eq_zero {a : Q} (ha : 0 < a.d) : a.rat = 0 ↔ a.n = 0 := by
  have : (a.d : ℚ) ≠ 0 := by positivity
  simp [Q.rat, this]

theorem rat_neg_iff {a : Q} (ha : 0 < a.d) : a.rat < 0 ↔ a.n < 0 := by
  have hd : (0 : ℚ) < a.d := by positivity
  rw [Q.rat, div_lt_iff₀ hd, zero_mul]
  exact_mod_cast Iff.rfl

theorem qLe_iff {a b : Q} (ha : 0 < a.d) (hb : 0 < b.d) : qLe a b = true ↔ a.rat ≤ b.rat := by
  have ha' : (0 : ℚ) < a.d := by positivity
  have hb' : (0 : ℚ) < b.d := by positivity
  rw [qLe, decide_eq_true_eq, Q.rat, Q.rat, div_le_div_iff₀ ha' hb']
  exact_mod_cast Iff.rfl

theorem qLt_iff {a b : Q} (ha : 0 < a.d) (hb : 0 < b.d) : qLt a b = true ↔ a.rat < b.rat := by
  have ha' : (0 : ℚ) < a.d := by positivity
  have hb' : (0 : ℚ) < b.d := by positivity
  rw [qLt, decide_eq_true_eq, Q.rat, Q.rat, div_lt_div_iff₀ ha' hb']
  exact_mod_cast Iff.rfl

theorem qEq_iff {a b : Q} (ha : 0 < a.d) (hb : 0 < b.d) : qEq a b = true ↔ a.rat = b.rat := by
  have ha' : (a.d : ℚ) ≠ 0 := by positivity
  have hb' : (b.d : ℚ) ≠ 0 := by positivity
  rw [qEq, decide_eq_true_eq, Q.rat, Q.rat, div_eq_div_iff ha' hb']
  exact_mod_cast Iff.rfl

theorem rat_qMax {a b : Q} (ha : 0 < a.d) (hb : 0 < b.d) : (qMax a b).rat = max a.rat b.rat := by
  unfold qMax
  split_ifs with h
  · rw [max_eq_right ((qLe_iff ha hb).1 h)]
  · rw [max_eq_left (le_of_not_ge fun hle => h ((qLe_iff ha hb).2 hle))]

theorem qFloor_eq (a : Q) : qFloor a = ⌊a.rat⌋ := by
  rw [qFloor, Q.rat, Rat.floor_intCast_div_natCast, Int.fdiv_eq_ediv_of_nonneg _ (by positivity)]

/-- The power of two at or below a positive fraction. -/
theorem qLog2_spec {n d : Nat} (hn : 0 < n) (hd : 0 < d) : (2 : ℚ) ^ qLog2 n d ≤ n / d ∧ (n / d : ℚ) < 2 ^ (qLog2 n d + 1) := by
  have hd' : (0 : ℚ) < d := by positivity
  have hn1 : (2 : ℚ) ^ n.log2 ≤ n := by exact_mod_cast Nat.log2_self_le hn.ne'
  have hn2 : (n : ℚ) < 2 ^ (n.log2 + 1) := by exact_mod_cast Nat.lt_log2_self
  have hd1 : (2 : ℚ) ^ d.log2 ≤ d := by exact_mod_cast Nat.log2_self_le hd.ne'
  have hd2 : (d : ℚ) < 2 ^ (d.log2 + 1) := by exact_mod_cast Nat.lt_log2_self
  set e : Int := (n.log2 : Int) - d.log2 with he
  have hpow (k : Int) : (2 : ℚ) ^ (e + k) * 2 ^ d.log2 = 2 ^ ((n.log2 : Int) + k) := by
    rw [← zpow_natCast 2 d.log2, ← zpow_add₀ (by norm_num), he]
    congr 1
    ring
  -- the quotient lies between the powers at e - 1 and e + 1
  have hlow : (2 : ℚ) ^ (e + -1) ≤ n / d := by
    rw [le_div_iff₀ hd']
    calc (2 : ℚ) ^ (e + -1) * d ≤ 2 ^ (e + -1) * 2 ^ (d.log2 + 1) := by gcongr
      _ = 2 ^ n.log2 := by
        rw [pow_succ, ← mul_assoc, hpow, ← zpow_natCast 2 n.log2, ← zpow_add_one₀ (by norm_num)]
        congr 1
        ring
      _ ≤ n := hn1
  have hhigh : (n / d : ℚ) < 2 ^ (e + 1) := by
    rw [div_lt_iff₀ hd']
    calc (n : ℚ) < 2 ^ (n.log2 + 1) := hn2
      _ = 2 ^ (e + 1) * 2 ^ d.log2 := by rw [hpow]; exact_mod_cast rfl
      _ ≤ 2 ^ (e + 1) * d := by gcongr
  -- the test compares it with the power at e
  have htest : (if e < 0 then decide (n * 2 ^ e.natAbs < d) else decide (n < d * 2 ^ e.natAbs)) = true ↔ (n / d : ℚ) < 2 ^ e := by
    rw [div_lt_iff₀ hd']
    split_ifs with h
    · obtain ⟨k, hk⟩ : ∃ k : Nat, e = -k := ⟨e.natAbs, by omega⟩
      rw [hk, decide_eq_true_eq, Int.natAbs_neg, Int.natAbs_natCast, zpow_neg, zpow_natCast, inv_mul_eq_div, lt_div_iff₀ (by positivity)]
      exact_mod_cast Iff.rfl
    · obtain ⟨k, hk⟩ : ∃ k : Nat, e = k := ⟨e.natAbs, by omega⟩
      rw [hk, decide_eq_true_eq, Int.natAbs_natCast, zpow_natCast, mul_comm]
      exact_mod_cast Iff.rfl
  have hdef : qLog2 n d = if (n / d : ℚ) < 2 ^ e then e - 1 else e := if_congr htest rfl rfl
  rw [hdef]
  split_ifs with h
  · exact ⟨hlow, by rwa [sub_add_cancel]⟩
  · exact ⟨le_of_not_gt h, hhigh⟩

end Sys2Proof.Machine
end

section
/-! Binary formats and rounding (R131, R150, R151): the values of magnitude codes rise with the code, and a rounded magnitude stands next to the
exact one. -/
namespace Sys2Proof.Machine

/-- The number of a magnitude code. -/
def Fmt.val (f : Fmt) (k : Nat) : ℚ := (magVal f k).rat

/-- The exponent of the unit of the subnormal codes. -/
def Fmt.tiny (f : Fmt) : Int := 1 - (f.bias : Int) - (f.p - 1 : Nat)

theorem magVal_pos (f : Fmt) (k : Nat) : 0 < (magVal f k).d := by
  unfold magVal
  simp only
  split_ifs <;> exact qMul_pos Nat.one_pos (qPow2_pos _)

theorem fpVal_pos (f : Fmt) (neg : Bool) (k : Nat) : 0 < (fpVal f neg k).d := by
  cases neg <;> exact magVal_pos f k

theorem rat_fpVal (f : Fmt) (neg : Bool) (k : Nat) : (fpVal f neg k).rat = if neg then -f.val k else f.val k := by
  cases neg
  · rfl
  · exact rat_qNeg _

section
variable (f : Fmt)

/-- A code of m units at t steps above the subnormal exponent: m below the hidden bit only where t is 0. -/
theorem val_code {t m : Nat} (hm : m ≤ 2 * 2 ^ (f.p - 1)) (ht : t = 0 ∨ 2 ^ (f.p - 1) ≤ m) :
    f.val (t * 2 ^ (f.p - 1) + m) = m * 2 ^ ((t : Int) + f.tiny) := by
  have hh : 0 < 2 ^ (f.p - 1) := Nat.two_pow_pos _
  simp only [Fmt.val, magVal, Fmt.tiny]
  generalize hH : 2 ^ (f.p - 1) = h at *
  rcases Nat.lt_or_ge m h with hlow | hge
  · obtain rfl : t = 0 := by omega
    rw [Nat.zero_mul, Nat.zero_add, Nat.div_eq_of_lt hlow, if_pos rfl, rat_qMul, rat_qInt, rat_qPow2]
    simp
  · rcases Nat.lt_or_ge m (2 * h) with hmid | htop
    · have hone : m / h = 1 := Nat.div_eq_of_lt_le (by omega) (by omega)
      have hdiv : (t * h + m) / h = t + 1 := by rw [Nat.mul_comm, Nat.mul_add_div hh, hone]
      have hmod : (t * h + m) % h = m - h := by
        rw [Nat.mul_comm, Nat.mul_add_mod, Nat.mod_eq_sub_mod hge, Nat.mod_eq_of_lt (by omega)]
      rw [hdiv, hmod, if_neg (by omega), rat_qMul, rat_qInt, rat_qPow2, show h + (m - h) = m by omega]
      push_cast
      congr 2
      ring
    · obtain rfl : m = 2 * h := by omega
      have hdiv : (t * h + 2 * h) / h = t + 2 := by rw [← Nat.add_mul, Nat.mul_div_cancel _ hh]
      have hmod : (t * h + 2 * h) % h = 0 := by rw [← Nat.add_mul, Nat.mul_mod_left]
      rw [hdiv, hmod, if_neg (by omega), rat_qMul, rat_qInt, rat_qPow2]
      push_cast
      rw [show (t : Int) + 2 - f.bias - (f.p - 1 : Nat) = 1 + (t + (1 - f.bias - (f.p - 1 : Nat))) by ring, zpow_add₀ (by norm_num) 1]
      simp
      ring

/-- The value of one more unit. -/
theorem val_succ_code {t m : Nat} (hm : m < 2 * 2 ^ (f.p - 1)) (ht : t = 0 ∨ 2 ^ (f.p - 1) ≤ m) :
    f.val (t * 2 ^ (f.p - 1) + m + 1) = (m + 1) * 2 ^ ((t : Int) + f.tiny) := by
  have h := val_code f (t := t) (m := m + 1) hm (by omega)
  exact_mod_cast h

/-- Every code is one of m units at t steps. -/
theorem exists_code (k : Nat) : ∃ t m, k = t * 2 ^ (f.p - 1) + m ∧ m < 2 * 2 ^ (f.p - 1) ∧ (t = 0 ∨ 2 ^ (f.p - 1) ≤ m) := by
  have hh : 0 < 2 ^ (f.p - 1) := Nat.two_pow_pos _
  have hsum := Nat.div_add_mod' k (2 ^ (f.p - 1))
  have hlt := Nat.mod_lt k hh
  generalize 2 ^ (f.p - 1) = h at *
  rcases Nat.eq_zero_or_pos (k / h) with h0 | hpos
  · exact ⟨0, k, by simp, by rw [h0] at hsum; omega, .inl rfl⟩
  · obtain ⟨e, he⟩ : ∃ e, k / h = e + 1 := ⟨k / h - 1, by omega⟩
    refine ⟨e, h + k % h, ?_, by omega, .inr (by omega)⟩
    rw [he, Nat.add_mul] at hsum
    omega

theorem val_strictMono : StrictMono f.val := by
  refine strictMono_nat_of_lt_succ fun k => ?_
  obtain ⟨t, m, rfl, hm, ht⟩ := exists_code f k
  rw [val_code f hm.le ht, val_succ_code f hm ht]
  have : (0 : ℚ) < 2 ^ ((t : Int) + f.tiny) := by positivity
  nlinarith

theorem val_zero : f.val 0 = 0 := by
  have h := val_code f (t := 0) (m := 0) (by omega) (.inl rfl)
  simpa using h

theorem val_pos {k : Nat} (hk : 0 < k) : 0 < f.val k := by
  have h := val_strictMono f hk
  rwa [val_zero f] at h

theorem val_nonneg (k : Nat) : 0 ≤ f.val k := by
  rw [← val_zero f]
  exact (val_strictMono f).monotone (Nat.zero_le k)

end

/-! A magnitude between two neighbouring codes. -/

/-- The code at or below a positive magnitude. -/
def floorCode (f : Fmt) (n d : Nat) : Nat :=
  let e := qLog2 n d
  let q := ulpExp f e
  magCode f e ((if q < 0 then n * 2 ^ q.natAbs else n) / (if q < 0 then d else d * 2 ^ q.natAbs))

/-- Whether something is left above that code. -/
def floorRest (f : Fmt) (n d : Nat) : Nat :=
  let q := ulpExp f (qLog2 n d)
  (if q < 0 then n * 2 ^ q.natAbs else n) % (if q < 0 then d else d * 2 ^ q.natAbs)

/-- The units of the last place in a magnitude, as a fraction. -/
theorem units_eq (n : Nat) {d : Nat} (q : Int) :
    (((if q < 0 then n * 2 ^ q.natAbs else n : Nat) : ℚ) / (if q < 0 then d else d * 2 ^ q.natAbs : Nat)) = n / d / 2 ^ q := by
  split_ifs with h
  · obtain ⟨k, rfl⟩ : ∃ k : Nat, q = -k := ⟨q.natAbs, by omega⟩
    simp [mul_div_right_comm]
  · obtain ⟨k, rfl⟩ : ∃ k : Nat, q = k := ⟨q.natAbs, by omega⟩
    simp [div_div]

section
variable (f : Fmt) (hp : 0 < f.p) {n d : Nat} (hn : 0 < n) (hd : 0 < d)
include hp hn hd

/-- The magnitude stands at the code below it, or between it and the next; something is left exactly where it does not stand at it; its whole units
are those of the code. -/
theorem floorCode_spec : f.val (floorCode f n d) ≤ (n / d : ℚ) ∧ (n / d : ℚ) < f.val (floorCode f n d + 1) ∧
    (floorRest f n d = 0 ↔ f.val (floorCode f n d) = (n / d : ℚ)) ∧
    f.val (floorCode f n d) = ⌊(n / d : ℚ) / 2 ^ ulpExp f (qLog2 n d)⌋ * 2 ^ ulpExp f (qLog2 n d) := by
  obtain ⟨hlow, hhigh⟩ := qLog2_spec hn hd
  have hd' : 0 < if ulpExp f (qLog2 n d) < 0 then d else d * 2 ^ (ulpExp f (qLog2 n d)).natAbs := by split_ifs <;> positivity
  have hu := units_eq n (d := d) (ulpExp f (qLog2 n d))
  have hcode : floorCode f n d = (max (qLog2 n d) (1 - (f.bias : Int)) - (1 - (f.bias : Int))).toNat * 2 ^ (f.p - 1) +
      (if ulpExp f (qLog2 n d) < 0 then n * 2 ^ (ulpExp f (qLog2 n d)).natAbs else n) /
        (if ulpExp f (qLog2 n d) < 0 then d else d * 2 ^ (ulpExp f (qLog2 n d)).natAbs) := rfl
  have hrest : floorRest f n d = (if ulpExp f (qLog2 n d) < 0 then n * 2 ^ (ulpExp f (qLog2 n d)).natAbs else n) %
        (if ulpExp f (qLog2 n d) < 0 then d else d * 2 ^ (ulpExp f (qLog2 n d)).natAbs) := rfl
  rw [hcode, hrest]
  generalize (if ulpExp f (qLog2 n d) < 0 then n * 2 ^ (ulpExp f (qLog2 n d)).natAbs else n) = num at *
  generalize (if ulpExp f (qLog2 n d) < 0 then d else d * 2 ^ (ulpExp f (qLog2 n d)).natAbs) = den at *
  set e := qLog2 n d
  set t := (max e (1 - (f.bias : Int)) - (1 - (f.bias : Int))).toNat with ht
  have hq : ulpExp f e = t + f.tiny := by simp only [ulpExp, Fmt.tiny]; omega
  have hpow : (0 : ℚ) < 2 ^ ulpExp f e := by positivity
  have hden : (0 : ℚ) < den := by exact_mod_cast hd'
  -- the magnitude in units, and its whole part
  have hx : (n / d : ℚ) = num / den * 2 ^ ulpExp f e := by rw [hu, div_mul_cancel₀ _ hpow.ne']
  have hdm : (num : ℚ) = den * (num / den : Nat) + (num % den : Nat) := by exact_mod_cast (Nat.div_add_mod num den).symm
  have hmod : ((num % den : Nat) : ℚ) < den := by exact_mod_cast Nat.mod_lt num hd'
  have hle : ((num / den : Nat) : ℚ) ≤ num / den := by rw [le_div_iff₀ hden]; nlinarith [Nat.cast_nonneg (α := ℚ) (num % den)]
  have hlt : (num / den : ℚ) < (num / den : Nat) + 1 := by rw [div_lt_iff₀ hden]; nlinarith
  have hfloor : ⌊(num / den : ℚ)⌋ = ((num / den : Nat) : Int) := Int.floor_eq_iff.2 ⟨by exact_mod_cast hle, by exact_mod_cast hlt⟩
  -- the whole part fits the significand
  have htop : num / den < 2 * 2 ^ (f.p - 1) := by
    have h : (num / den : ℚ) < 2 ^ f.p := by
      rw [hu, div_lt_iff₀ hpow, ← zpow_natCast, ← zpow_add₀ (by norm_num)]
      refine hhigh.trans_le (zpow_le_zpow_right₀ (by norm_num) ?_)
      simp only [hq, ht, Fmt.tiny]
      omega
    have hcast : ((num / den : Nat) : ℚ) < (2 * 2 ^ (f.p - 1) : Nat) := by
      rw [← pow_succ', Nat.sub_add_cancel hp]
      exact_mod_cast hle.trans_lt h
    exact_mod_cast hcast
  have hnormal : t = 0 ∨ 2 ^ (f.p - 1) ≤ num / den := by
    refine or_iff_not_imp_left.2 fun h0 => ?_
    have h : ((2 ^ (f.p - 1) : Nat) : ℚ) ≤ num / den := by
      rw [hu, le_div_iff₀ hpow, Nat.cast_pow, Nat.cast_ofNat, ← zpow_natCast, ← zpow_add₀ (by norm_num)]
      refine (zpow_le_zpow_right₀ (by norm_num) ?_).trans hlow
      simp only [hq, Fmt.tiny]
      omega
    have h1 : (2 ^ (f.p - 1) : Nat) < num / den + 1 := by exact_mod_cast h.trans_lt hlt
    omega
  rw [val_code f htop.le hnormal, val_succ_code f htop hnormal, ← hq, hx, mul_le_mul_iff_left₀ hpow, mul_lt_mul_iff_left₀ hpow,
    mul_left_inj' hpow.ne', mul_div_cancel_right₀ _ hpow.ne', hfloor]
  refine ⟨hle, hlt, ?_, rfl⟩
  rw [eq_div_iff hden.ne', hdm]
  constructor
  · intro h
    simp [h, mul_comm]
  · intro h
    have : ((num % den : Nat) : ℚ) = 0 := by linarith
    exact_mod_cast this

/-- A magnitude that is a number of units not below the format's stands at its code. -/
theorem floorCode_exact {j : Nat} {s : Int} (hj : j < 2 ^ f.p) (hs : f.tiny ≤ s) (hx : (n / d : ℚ) = j * 2 ^ s) : f.val (floorCode f n d) = (n / d : ℚ) := by
  obtain ⟨-, -, -, hunits⟩ := floorCode_spec f hp hn hd
  obtain ⟨hlow, -⟩ := qLog2_spec hn hd
  have hexp : ulpExp f (qLog2 n d) ≤ s := by
    have h : (2 : ℚ) ^ qLog2 n d < 2 ^ ((f.p : Int) + s) := by
      rw [zpow_add₀ (by norm_num), zpow_natCast]
      refine hlow.trans_lt ?_
      rw [hx]
      have hj' : (j : ℚ) < 2 ^ f.p := by exact_mod_cast hj
      gcongr
    have he := (zpow_lt_zpow_iff_right₀ (by norm_num)).1 h
    simp only [Fmt.tiny, ulpExp] at *
    omega
  obtain ⟨k, hk⟩ : ∃ k : Nat, s = k + ulpExp f (qLog2 n d) := ⟨(s - ulpExp f (qLog2 n d)).toNat, by omega⟩
  have hpow : (2 : ℚ) ^ ulpExp f (qLog2 n d) ≠ 0 := by positivity
  have hwhole : (n / d : ℚ) / 2 ^ ulpExp f (qLog2 n d) = ((j * 2 ^ k : Nat) : Int) := by
    rw [hx, hk, zpow_add₀ (by norm_num), ← mul_assoc, mul_div_cancel_right₀ _ hpow]
    push_cast
    rfl
  rw [hunits, hwhole, Int.floor_intCast, ← hwhole, div_mul_cancel₀ _ hpow]

end

/-! Rounding a magnitude. -/

/-- Whether a magnitude goes to the code above: the last place of what is left decides (R150, R151). -/
def roundsUp (f : Fmt) (n d away : Nat) : Bool :=
  let q := ulpExp f (qLog2 n d)
  let den := if q < 0 then d else d * 2 ^ q.natAbs
  let m := (if q < 0 then n * 2 ^ q.natAbs else n) / den
  let r := floorRest f n d
  if away = 0 then false else if away = 1 then decide (r ≠ 0) else decide (den < 2 * r) || (decide (2 * r = den) && decide (m % 2 = 1))

section
variable (f : Fmt) (n d : Nat)

theorem roundMag_eq (away : Nat) : roundMag f n d away =
    let k := floorCode f n d + (roundsUp f n d away).toNat
    if k ≤ f.top then k else if away = 0 then f.top else f.top + 1 := by
  have h : roundMag f n d away =
      let k := magCode f (qLog2 n d) (if roundsUp f n d away then _ + 1 else _)
      if k ≤ f.top then k else if away = 0 then f.top else f.top + 1 := rfl
  rw [h]
  cases roundsUp f n d away <;> rfl

theorem roundMag_toward : roundMag f n d 0 = min (floorCode f n d) f.top := by
  rw [roundMag_eq]
  change (if floorCode f n d ≤ f.top then floorCode f n d else f.top) = _
  split_ifs <;> omega

theorem roundMag_away : roundMag f n d 1 = min (if floorRest f n d = 0 then floorCode f n d else floorCode f n d + 1) (f.top + 1) := by
  have hup : roundsUp f n d 1 = decide (floorRest f n d ≠ 0) := rfl
  rw [roundMag_eq, hup]
  simp only [Nat.one_ne_zero, if_false]
  by_cases hr : floorRest f n d = 0
  · simp only [hr, ne_eq, not_true_eq_false, decide_false, Bool.toNat_false, if_true, Nat.add_zero]
    split_ifs <;> omega
  · simp only [hr, ne_eq, not_false_eq_true, decide_true, Bool.toNat_true, if_false]
    split_ifs <;> omega

/-- A magnitude that stands at its code is not changed, whatever the direction. -/
theorem roundMag_exact (hd : 0 < d) (hr : floorRest f n d = 0) (ht : floorCode f n d ≤ f.top) (away : Nat) : roundMag f n d away = floorCode f n d := by
  have hden : (if ulpExp f (qLog2 n d) < 0 then d else d * 2 ^ (ulpExp f (qLog2 n d)).natAbs) ≠ 0 := by split_ifs <;> positivity
  have hup : roundsUp f n d away = false := by
    simp only [roundsUp, hr]
    generalize (if ulpExp f (qLog2 n d) < 0 then d else d * 2 ^ (ulpExp f (qLog2 n d)).natAbs) = den at *
    split_ifs <;> simp [hden.symm]
  rw [roundMag_eq, hup]
  exact if_pos ht

end

end Sys2Proof.Machine
end

section
/-! Rounded fractions, and intervals rounded outward (R133, R134, R150). -/
namespace Sys2Proof.Machine

/-! A fraction rounded into a format. -/

theorem natAbs_div {q : Q} : ((q.n.natAbs : ℚ) / q.d) = |q.rat| := by simp [Q.rat, abs_div]

section
variable (f : Fmt) {q : Q} (hq : 0 < q.d)

theorem roundQ_zero (r : Rnd) (h : q.n = 0) : roundQ f r q = .fin false 0 := if_pos h

theorem roundQ_of_ne (r : Rnd) (h : q.n ≠ 0) : roundQ f r q =
    let neg := decide (q.n < 0)
    let k := roundMag f q.n.natAbs q.d (awayOf r neg)
    if k = 0 then .fin false 0 else if k ≤ f.top then .fin neg k else .inf neg := if_neg h

/-- What a rounding gives: a code of the format, a zero without its sign, or an infinity where the magnitude is rounded away or to nearest. -/
theorem roundQ_cases (r : Rnd) : (∃ neg k, roundQ f r q = .fin neg k ∧ k ≤ f.top ∧ (k = 0 → neg = false)) ∨
    (roundQ f r q = .inf (decide (q.n < 0)) ∧ awayOf r (decide (q.n < 0)) ≠ 0) := by
  by_cases h : q.n = 0
  · exact .inl ⟨false, 0, roundQ_zero f r h, Nat.zero_le _, fun _ => rfl⟩
  · rw [roundQ_of_ne f r h]
    simp only
    split_ifs with h0 hk
    · exact .inl ⟨_, _, rfl, Nat.zero_le _, fun _ => rfl⟩
    · exact .inl ⟨_, _, rfl, hk, fun h => absurd h h0⟩
    · refine .inr ⟨rfl, fun ha => hk ?_⟩
      rw [ha, roundMag_toward]
      exact Nat.min_le_right _ _

theorem roundQ_down_ne : roundQ f .down q ≠ .inf false := by
  rcases roundQ_cases f (q := q) .down with ⟨_, _, h, -, -⟩ | ⟨h, ha⟩
  · rw [h]; exact nofun
  · rw [h]
    intro he
    simp only [Fp.inf.injEq] at he
    simp [he, awayOf] at ha

theorem roundQ_up_ne : roundQ f .up q ≠ .inf true := by
  rcases roundQ_cases f (q := q) .up with ⟨_, _, h, -, -⟩ | ⟨h, ha⟩
  · rw [h]; exact nofun
  · rw [h]
    intro he
    simp only [Fp.inf.injEq] at he
    simp [he, awayOf] at ha

theorem roundQ_toward_ne (b : Bool) : roundQ f .zero q ≠ .inf b := by
  rcases roundQ_cases f (q := q) .zero with ⟨_, _, h, -, -⟩ | ⟨-, ha⟩
  · rw [h]; exact nofun
  · exact absurd rfl ha

section
variable (hp : 0 < f.p)
include hp hq

/-- A magnitude rounded toward zero does not exceed the exact one. -/
theorem val_roundMag_toward (h : q.n ≠ 0) : f.val (roundMag f q.n.natAbs q.d 0) ≤ |q.rat| := by
  obtain ⟨hle, -⟩ := floorCode_spec f hp (Int.natAbs_pos.2 h) hq
  rw [natAbs_div] at hle
  rw [roundMag_toward]
  exact ((val_strictMono f).monotone (Nat.min_le_left _ _)).trans hle

/-- A magnitude rounded away from zero is not below the exact one, unless it overflows; it is no zero. -/
theorem val_roundMag_away (h : q.n ≠ 0) : roundMag f q.n.natAbs q.d 1 ≠ 0 ∧
    (roundMag f q.n.natAbs q.d 1 ≤ f.top → |q.rat| ≤ f.val (roundMag f q.n.natAbs q.d 1)) := by
  obtain ⟨-, hlt, hrest, -⟩ := floorCode_spec f hp (Int.natAbs_pos.2 h) hq
  rw [natAbs_div] at hlt hrest
  have hpos : 0 < |q.rat| := abs_pos.2 fun h0 => h ((rat_eq_zero hq).1 h0)
  have hmag := roundMag_away f q.n.natAbs q.d
  by_cases hr : floorRest f q.n.natAbs q.d = 0
  · rw [if_pos hr] at hmag
    have hval := hrest.1 hr
    constructor
    · intro h0
      have hc : floorCode f q.n.natAbs q.d = 0 := by omega
      rw [hc, val_zero] at hval
      exact hpos.ne hval
    · intro ht
      rw [show roundMag f q.n.natAbs q.d 1 = floorCode f q.n.natAbs q.d by omega, hval]
  · rw [if_neg hr] at hmag
    constructor
    · omega
    · intro ht
      rw [show roundMag f q.n.natAbs q.d 1 = floorCode f q.n.natAbs q.d + 1 by omega]
      exact hlt.le

/-- Rounding down gives a bound below. -/
theorem roundQ_down_le : xLe (fpXR f (roundQ f .down q)) (.fin q) = true := by
  by_cases h : q.n = 0
  · rw [roundQ_zero f _ h]
    exact (qLe_iff (magVal_pos f 0) hq).2 ((val_zero f).le.trans ((rat_eq_zero hq).2 h).ge)
  rw [roundQ_of_ne f _ h]
  by_cases hn : q.n < 0
  · have hneg : q.rat < 0 := (rat_neg_iff hq).2 hn
    obtain ⟨hne, hge⟩ := val_roundMag_away f hq hp h
    simp only [hn, decide_true, awayOf, if_true, hne, if_false]
    split_ifs with ht
    · refine (qLe_iff (fpVal_pos f true _) hq).2 ?_
      rw [rat_fpVal, if_pos rfl, neg_le, ← abs_of_neg hneg]
      exact hge ht
    · rfl
  · have hpos : 0 ≤ q.rat := not_lt.1 fun h => hn ((rat_neg_iff hq).1 h)
    have hle := val_roundMag_toward f hq hp h
    rw [abs_of_nonneg hpos] at hle
    have ht : roundMag f q.n.natAbs q.d 0 ≤ f.top := by rw [roundMag_toward]; exact Nat.min_le_right _ _
    simp only [hn, decide_false, awayOf, Bool.false_eq_true, if_false, ht, if_true]
    split_ifs with h0
    · exact (qLe_iff (magVal_pos f 0) hq).2 ((val_zero f).le.trans hpos)
    · exact (qLe_iff (magVal_pos f _) hq).2 hle

/-- Rounding up gives a bound above. -/
theorem roundQ_up_ge : xLe (.fin q) (fpXR f (roundQ f .up q)) = true := by
  by_cases h : q.n = 0
  · rw [roundQ_zero f _ h]
    exact (qLe_iff hq (magVal_pos f 0)).2 (((rat_eq_zero hq).2 h).le.trans (val_zero f).ge)
  rw [roundQ_of_ne f _ h]
  by_cases hn : q.n < 0
  · have hneg : q.rat < 0 := (rat_neg_iff hq).2 hn
    have hle := val_roundMag_toward f hq hp h
    rw [abs_of_neg hneg] at hle
    have ht : roundMag f q.n.natAbs q.d 0 ≤ f.top := by rw [roundMag_toward]; exact Nat.min_le_right _ _
    simp only [hn, decide_true, awayOf, if_true, ht]
    split_ifs with h0
    · exact (qLe_iff hq (magVal_pos f 0)).2 (hneg.le.trans (val_zero f).ge)
    · refine (qLe_iff hq (fpVal_pos f true _)).2 ?_
      rw [rat_fpVal, if_pos rfl, le_neg]
      exact hle
  · have hpos : 0 ≤ q.rat := not_lt.1 fun h => hn ((rat_neg_iff hq).1 h)
    obtain ⟨hne, hge⟩ := val_roundMag_away f hq hp h
    simp only [hn, decide_false, awayOf, Bool.false_eq_true, if_false, hne]
    split_ifs with ht
    · refine (qLe_iff hq (magVal_pos f _)).2 ?_
      rw [← abs_of_nonneg hpos]
      exact hge ht
    · rfl

/-- A number that the format has is not changed by rounding, in any direction: j units of 2^s, no more than the greatest. -/
theorem roundQ_exact {j : Nat} {s : Int} (h : q.n ≠ 0) (hj : j < 2 ^ f.p) (hs : f.tiny ≤ s) (hx : |q.rat| = j * 2 ^ s) (ht : |q.rat| ≤ f.val f.top) (r : Rnd) :
    ∃ k, 0 < k ∧ k ≤ f.top ∧ f.val k = |q.rat| ∧ roundQ f r q = .fin (decide (q.n < 0)) k := by
  have hn := Int.natAbs_pos.2 h
  have hval := floorCode_exact f hp hn hq hj hs (natAbs_div.trans hx)
  have hrest := (floorCode_spec f hp hn hq).2.2.1.2 hval
  rw [natAbs_div] at hval
  have hk : floorCode f q.n.natAbs q.d ≤ f.top := (val_strictMono f).le_iff_le.1 (hval.le.trans ht)
  have hpos : floorCode f q.n.natAbs q.d ≠ 0 := by
    intro h0
    rw [h0, val_zero] at hval
    exact h ((rat_eq_zero hq).1 (abs_eq_zero.1 hval.symm))
  refine ⟨_, Nat.pos_of_ne_zero hpos, hk, hval, ?_⟩
  rw [roundQ_of_ne f r h]
  simp only [roundMag_exact f _ _ hq hrest hk, hpos, if_false, hk, if_true]

end

end

/-- A code's value in units. -/
theorem val_units (f : Fmt) (hp : 0 < f.p) (k : Nat) : ∃ (j : Nat) (s : Int), j < 2 ^ f.p ∧ f.tiny ≤ s ∧ f.val k = j * 2 ^ s := by
  obtain ⟨t, m, rfl, hm, ht⟩ := exists_code f k
  refine ⟨m, t + f.tiny, ?_, by omega, val_code f hm.le ht⟩
  rwa [← Nat.sub_add_cancel hp, pow_succ']

/-- Every finite datum of a format is one of a format that is at least as fine and as wide. -/
theorem roundQ_wider (f g : Fmt) (hf : 0 < f.p) (hg : 0 < g.p) (hfine : g.p ≤ f.p) (htiny : f.tiny ≤ g.tiny) (hwide : g.val g.top ≤ f.val f.top)
    {q : Q} (hq : 0 < q.d) {neg : Bool} {k : Nat} (hk : k ≤ g.top) (hv : q.rat = (fpVal g neg k).rat) (r : Rnd) :
    ∃ k', k' ≤ f.top ∧ f.val k' = g.val k ∧ roundQ f r q = .fin (neg && decide (k ≠ 0)) k' := by
  have habs : |q.rat| = g.val k := by
    rw [hv, rat_fpVal]
    cases neg
    · exact abs_of_nonneg (val_nonneg g k)
    · exact (abs_neg _).trans (abs_of_nonneg (val_nonneg g k))
  rcases Nat.eq_zero_or_pos k with rfl | hpos
  · have hz : q.n = 0 := (rat_eq_zero hq).1 (abs_eq_zero.1 (habs.trans (val_zero g)))
    refine ⟨0, Nat.zero_le _, (val_zero f).trans (val_zero g).symm, ?_⟩
    rw [roundQ_zero f r hz]
    simp
  · obtain ⟨j, s, hj, hs, hu⟩ := val_units g hg k
    have hne : q.n ≠ 0 := fun h => (val_pos g hpos).ne' (by rw [← habs, (rat_eq_zero hq).2 h, abs_zero])
    have hle : |q.rat| ≤ f.val f.top := by
      rw [habs]
      exact ((val_strictMono g).monotone hk).trans hwide
    obtain ⟨k', -, hk', hval, hround⟩ := roundQ_exact f hq hf hne (hj.trans_le (Nat.pow_le_pow_right (by omega) hfine)) (htiny.trans hs) (habs.trans hu) hle r
    refine ⟨k', hk', hval.trans habs, ?_⟩
    have hsign : decide (q.n < 0) = neg := by
      rw [Bool.eq_iff_iff, decide_eq_true_eq, ← rat_neg_iff hq, hv, rat_fpVal]
      cases neg
      · simp [val_nonneg g k]
      · simp [val_pos g hpos]
    rw [hround, hsign]
    simp [hpos.ne']

/-- A datum of the format itself. -/
theorem roundQ_fpVal (f : Fmt) (hf : 0 < f.p) {q : Q} (hq : 0 < q.d) {neg : Bool} {k : Nat} (hk : k ≤ f.top) (hv : q.rat = (fpVal f neg k).rat) (r : Rnd) :
    roundQ f r q = .fin (neg && decide (k ≠ 0)) k := by
  obtain ⟨k', -, hval, hround⟩ := roundQ_wider f f hf hf le_rfl le_rfl le_rfl hq hk hv r
  rw [hround, (val_strictMono f).injective hval]

/-! Bits of data. -/

/-- A format whose codes, infinities and NaN stand apart below its sign bit. -/
structure Fmt.Ok (f : Fmt) : Prop where
  prec : 0 < f.p
  inf : f.inf = true
  nan : f.top + 1 < f.nan
  sign : f.nan < 2 ^ (f.w - 1)

theorem fp64_ok : fp64.Ok := ⟨by decide, rfl, by decide, by decide⟩
theorem fp32_ok : fp32.Ok := ⟨by decide, rfl, by decide, by decide⟩
theorem bf16_ok : bf16.Ok := ⟨by decide, rfl, by decide, by decide⟩
theorem fp16_ok : fp16.Ok := ⟨by decide, rfl, by decide, by decide⟩

/-- A datum that a rounding gives: a finite one has a code of the format, and a zero no sign. -/
def Fp.canon (f : Fmt) : Fp → Prop
  | .fin neg k => k ≤ f.top ∧ (k = 0 → neg = false)
  | _ => True

theorem roundQ_canon (f : Fmt) (r : Rnd) (q : Q) : (roundQ f r q).canon f := by
  rcases roundQ_cases f (q := q) r with ⟨neg, k, h, hk, h0⟩ | ⟨h, -⟩
  · rw [h]; exact ⟨hk, h0⟩
  · rw [h]; trivial

theorem rdX_canon {f : Fmt} (hf : 0 < f.top) : ∀ x, (rdX f x).canon f
  | .fin q => roundQ_canon f .down q
  | .ninf => trivial
  | .pinf => ⟨le_rfl, fun h => absurd h hf.ne'⟩

theorem ruX_canon {f : Fmt} (hf : 0 < f.top) : ∀ x, (ruX f x).canon f
  | .fin q => roundQ_canon f .up q
  | .pinf => trivial
  | .ninf => ⟨le_rfl, fun h => absurd h hf.ne'⟩

/-- A magnitude below the sign bit, with a sign. -/
theorem fpOf_signed {f : Fmt} {k : Nat} (hk : k < 2 ^ (f.w - 1)) (neg : Bool) :
    fpOf f ((if neg then 2 ^ (f.w - 1) else 0) + k) = if k ≤ f.top then .fin neg k else if f.inf && decide (k = f.top + 1) then .inf neg else .nan := by
  cases neg
  · simp [fpOf, Nat.mod_eq_of_lt hk, Nat.div_eq_of_lt hk]
  · have hdiv : (2 ^ (f.w - 1) + k) / 2 ^ (f.w - 1) = 1 := by rw [Nat.add_div_left _ (Nat.two_pow_pos _), Nat.div_eq_of_lt hk]
    simp [fpOf, Nat.mod_eq_of_lt hk, hdiv]

section
variable {f : Fmt} (hf : f.Ok)
include hf

/-- The bits of a datum are read back. -/
theorem fpOf_fpBits : ∀ {x : Fp}, x.canon f → fpOf f (fpBits f x) = x
  | .nan, _ => by
    have hn := hf.nan
    have h := fpOf_signed hf.sign false
    rw [if_neg (show ¬ f.nan ≤ f.top by omega), if_neg (show ¬ (f.inf && decide (f.nan = f.top + 1)) = true by simp; omega)] at h
    simpa [fpBits] using h
  | .inf neg, _ => by
    have hn := hf.nan
    have h := fpOf_signed (f := f) (k := f.top + 1) (by have := hf.sign; omega) neg
    rw [if_neg (show ¬ f.top + 1 ≤ f.top by omega), if_pos (show (f.inf && decide (f.top + 1 = f.top + 1)) = true by simp [hf.inf])] at h
    exact h
  | .fin neg k, ⟨hk, h0⟩ => by
    have hn := hf.nan
    have h := fpOf_signed (f := f) (k := k) (by have := hf.sign; omega) neg
    rw [if_pos hk] at h
    rcases Nat.eq_zero_or_pos k with rfl | hpos
    · rw [h0 rfl] at h ⊢
      exact h
    · rw [fpBits, if_neg hpos.ne']
      exact h

theorem fpBits_lt (hw : 0 < f.w) : ∀ {x : Fp}, x.canon f → fpBits f x < 2 ^ f.w := by
  have hn := hf.nan
  have hs := hf.sign
  have hpow : 2 ^ f.w = 2 * 2 ^ (f.w - 1) := by rw [← pow_succ', Nat.sub_add_cancel hw]
  rintro (_ | neg | ⟨neg, k⟩) hx
  · simp only [fpBits]
    omega
  · simp only [fpBits]
    split_ifs <;> omega
  · obtain ⟨hk, -⟩ := hx
    simp only [fpBits]
    split_ifs <;> omega

end

/-! Intervals written and read. -/

/-- A finite bound is a fraction. -/
def XR.ok : XR → Prop
  | .fin q => 0 < q.d
  | _ => True

theorem xLe_trans {a b c : XR} (ha : a.ok) (hb : b.ok) (hc : c.ok) (h1 : xLe a b = true) (h2 : xLe b c = true) : xLe a c = true := by
  cases a <;> cases b <;> cases c <;> simp only [xLe, Bool.false_eq_true] at h1 h2 ⊢
  exact (qLe_iff ha hc).2 (((qLe_iff ha hb).1 h1).trans ((qLe_iff hb hc).1 h2))

theorem fpXR_ok (f : Fmt) : ∀ x, (fpXR f x).ok
  | .nan => Nat.one_pos
  | .inf true => trivial
  | .inf false => trivial
  | .fin neg k => fpVal_pos f neg k

/-- The bounds of an interval are fractions and in order. -/
def Ivl.Good : Ivl → Prop
  | .mk lo hi => lo.ok ∧ hi.ok ∧ xLe lo hi = true
  | _ => True

section
variable {f : Fmt} (hp : 0 < f.p)
include hp

theorem rdX_le : ∀ {x : XR}, x.ok → xLe (fpXR f (rdX f x)) x = true
  | .fin _, h => roundQ_down_le f h hp
  | .ninf, _ => rfl
  | .pinf, _ => rfl

theorem ruX_ge : ∀ {x : XR}, x.ok → xLe x (fpXR f (ruX f x)) = true
  | .fin _, h => roundQ_up_ge f h hp
  | .ninf, _ => rfl
  | .pinf, _ => rfl

theorem outward_ordered {lo hi : XR} (h : (Ivl.mk lo hi).Good) : xLe (fpXR f (rdX f lo)) (fpXR f (ruX f hi)) = true := by
  obtain ⟨hlo, hhi, hle⟩ := h
  exact xLe_trans (fpXR_ok f _) hlo (fpXR_ok f _) (rdX_le hp hlo) (xLe_trans hlo hhi (fpXR_ok f _) hle (ruX_ge hp hhi))

/-- Rounding outward keeps every number (R150). -/
theorem outward_has : ∀ {i : Ivl} {q : Q}, i.Good → 0 < q.d → i.has q → (outward f i).has q
  | .mk _ hi, _, ⟨hlo, hhi, _⟩, hq, ⟨h1, h2⟩ =>
    ⟨xLe_trans (fpXR_ok f _) hlo hq (rdX_le hp hlo) h1, xLe_trans (b := hi) hq hhi (fpXR_ok f _) h2 (ruX_ge hp hhi)⟩

end

theorem rdX_ne_nan (f : Fmt) : ∀ x, rdX f x ≠ .nan
  | .fin q => by
    rcases roundQ_cases f (q := q) .down with ⟨_, _, h, -, -⟩ | ⟨h, -⟩ <;> (rw [rdX, h]; exact nofun)
  | .ninf => nofun
  | .pinf => nofun

theorem rdX_ne_pinf (f : Fmt) : ∀ x, rdX f x ≠ .inf false
  | .fin _ => roundQ_down_ne f
  | .ninf => nofun
  | .pinf => nofun

theorem ruX_ne_nan (f : Fmt) : ∀ x, ruX f x ≠ .nan
  | .fin q => by
    rcases roundQ_cases f (q := q) .up with ⟨_, _, h, -, -⟩ | ⟨h, -⟩ <;> (rw [ruX, h]; exact nofun)
  | .ninf => nofun
  | .pinf => nofun

theorem ruX_ne_ninf (f : Fmt) : ∀ x, ruX f x ≠ .inf true
  | .fin _ => roundQ_up_ne f
  | .ninf => nofun
  | .pinf => nofun

/-- Two data in order that are a lower and an upper bound. -/
theorem ivlOf_bounds {f : Fmt} {a b : Fp} (ha : a ≠ .nan) (ha' : a ≠ .inf false) (hb : b ≠ .nan) (hb' : b ≠ .inf true)
    (h : xLe (fpXR f a) (fpXR f b) = true) : ivlOf f a b = .mk (fpXR f a) (fpXR f b) := by
  unfold ivlOf
  split
  · exact absurd rfl ha
  · exact absurd rfl hb
  · exact absurd rfl ha'
  · exact absurd rfl hb'
  · exact if_pos h

/-- An interval that is written is read back as its hull in the format (R134, R150). -/
theorem ivlBits_ivlWrite {f : Fmt} (hf : f.Ok) (ht : 0 < f.top) : ∀ {i : Ivl}, i.Good → ivlBits f (ivlWrite f i).1 (ivlWrite f i).2 = outward f i
  | .nai, _ => by simp only [ivlBits, ivlWrite, show f.nan = fpBits f .nan from rfl, fpOf_fpBits hf (x := .nan) trivial]; rfl
  | .empty, _ => by simp only [ivlBits, ivlWrite, fpOf_fpBits hf (x := .inf _) trivial]; rfl
  | .mk lo hi, h => by
    simp only [ivlBits, ivlWrite, fpOf_fpBits hf (rdX_canon ht lo), fpOf_fpBits hf (ruX_canon ht hi)]
    exact ivlOf_bounds (rdX_ne_nan f lo) (rdX_ne_pinf f lo) (ruX_ne_nan f hi) (ruX_ne_ninf f hi) (outward_ordered hf.prec h)

theorem ivlWrite_lt {f : Fmt} (hf : f.Ok) (hw : 0 < f.w) (ht : 0 < f.top) : ∀ i, (ivlWrite f i).1 < 2 ^ f.w ∧ (ivlWrite f i).2 < 2 ^ f.w
  | .nai => ⟨fpBits_lt hf hw (x := .nan) trivial, fpBits_lt hf hw (x := .nan) trivial⟩
  | .empty => ⟨fpBits_lt hf hw (x := .inf false) trivial, fpBits_lt hf hw (x := .inf true) trivial⟩
  | .mk lo hi => ⟨fpBits_lt hf hw (rdX_canon ht lo), fpBits_lt hf hw (ruX_canon ht hi)⟩

/-- An interval that is read is in order; its bounds are data of the format. -/
theorem ivlOf_cases (f : Fmt) (a b : Fp) : ivlOf f a b = .nai ∨ ivlOf f a b = .empty ∨
    (ivlOf f a b = .mk (fpXR f a) (fpXR f b) ∧ a ≠ .nan ∧ a ≠ .inf false ∧ b ≠ .nan ∧ b ≠ .inf true ∧ xLe (fpXR f a) (fpXR f b) = true) := by
  unfold ivlOf
  split
  · exact .inl rfl
  · exact .inl rfl
  · exact .inr (.inl rfl)
  · exact .inr (.inl rfl)
  · next _ _ ha ha' hb hb' =>
    split_ifs with h
    · exact .inr (.inr ⟨rfl, ha, ha', hb, hb', h⟩)
    · exact .inr (.inl rfl)

theorem ivlBits_good (f : Fmt) (a b : Nat) : (ivlBits f a b).Good := by
  rcases ivlOf_cases f (fpOf f a) (fpOf f b) with h | h | ⟨h, -, -, -, -, hle⟩ <;> rw [ivlBits, h]
  · trivial
  · trivial
  · exact ⟨fpXR_ok f _, fpXR_ok f _, hle⟩

/-! .x32 elements (R129). -/

theorem lo32_ofNat {a b : Nat} (ha : a < 2 ^ 32) : (lo32 (BitVec.ofNat 64 (b * 2 ^ 32 + a))).toNat = a := by
  simp only [lo32, BitVec.truncate_eq_setWidth, BitVec.toNat_setWidth, BitVec.toNat_ofNat]
  omega

theorem hi32_ofNat {a b : Nat} (ha : a < 2 ^ 32) (hb : b < 2 ^ 32) : (hi32 (BitVec.ofNat 64 (b * 2 ^ 32 + a))).toNat = b := by
  simp only [hi32, BitVec.truncate_eq_setWidth, BitVec.toNat_setWidth, BitVec.toNat_ushiftRight, BitVec.toNat_ofNat, Nat.shiftRight_eq_div_pow]
  omega

theorem x32Read_x32Write {i : Ivl} (h : i.Good) : x32Read (x32Write i) = outward fp32 i := by
  obtain ⟨ha, hb⟩ := ivlWrite_lt fp32_ok (by decide) (by decide) i
  rw [x32Read, x32Write, lo32_ofNat ha, hi32_ofNat ha hb, ivlBits_ivlWrite fp32_ok (by decide) h]

theorem x32Read_good (w : Word64) : (x32Read w).Good := ivlBits_good fp32 _ _

theorem isNai_eq (i : Ivl) : i.isNai = decide (i = .nai) := by cases i <;> simp [Ivl.isNai]

end Sys2Proof.Machine
end

section
/-! Words that convert (R209, R212): registers, status bits, then the trap. -/
namespace Sys2Proof.Machine

/-! Any number of vector results. -/

theorem foldl_pushLatch (n : Bool) (pend : Option Nat) : ∀ (rs : List (Nat × LaneVals)) (s : State), let t := rs.foldl (fun u r => pushLatch u r.1 n r.2 pend) s
    OnlyVector s t ∧ t.cg = { s.cg with tags := t.cg.tags }
  | [], s => ⟨OnlyVector.refl s, rfl⟩
  | r :: rs, s => by
    obtain ⟨hv, hg⟩ := foldl_pushLatch n pend rs (pushLatch s r.1 n r.2 pend)
    refine ⟨(pushLatch_only _ _ _ _ _).trans hv, ?_⟩
    rw [pushLatch_cg] at hg
    exact hg

theorem OnlyVecs.trans {g g' g'' : Group} (h : OnlyVecs g g') (k : OnlyVecs g' g'') : OnlyVecs g g'' := by
  unfold OnlyVecs at *
  rw [k, h]

theorem foldl_wrVals_only : ∀ (rs : List (Nat × LaneVals)) (g : Group),
    OnlyVecs g (rs.foldl (fun g r => wrVals g r.1 r.2) g) ∧ (rs.foldl (fun g r => wrVals g r.1 r.2) g).status = g.status
  | [], _ => ⟨rfl, rfl⟩
  | r :: rs, g => by
    obtain ⟨hv, hs⟩ := foldl_wrVals_only rs (wrVals g r.1 r.2)
    have hr := wrVals_frame r.1 r.2 g
    refine ⟨OnlyVecs.trans ?_ hv, hs.trans ?_⟩
    · rw [hr]; rfl
    · rw [hr]

/-- The group after a word outside the counter classes has written its registers. -/
def written (g : Group) (n : Bool) (rs : List (Nat × LaneVals)) : Group := if n then g else rs.foldl (fun g r => wrVals g r.1 r.2) g

theorem written_only (g : Group) (n : Bool) (rs : List (Nat × LaneVals)) : OnlyVecs g (written g n rs) ∧ (written g n rs).status = g.status := by
  cases n
  · exact foldl_wrVals_only rs g
  · exact ⟨rfl, rfl⟩

/-- The results of a word outside the counter classes: the registers unless N is set, then the latches. -/
theorem putVec_spec (s : State) (n : Bool) (rs : List (Nat × LaneVals)) :
    OnlyVector s (putVec s n rs) ∧ (putVec s n rs).cg = { written s.cg n rs with tags := (putVec s n rs).cg.tags } := by
  let s1 := if n then s else s.setCg (rs.foldl (fun g r => wrVals g r.1 r.2) s.cg)
  have h1 : OnlyVector s s1 ∧ s1.cg = written s.cg n rs := by
    cases n
    · exact ⟨(OnlyGroup.setCg s _).toVector, State.cg_setCg ..⟩
    · exact ⟨OnlyVector.refl s, rfl⟩
  have hput : putVec s n rs = if s.isL then rs.foldl (fun u r => pushLatch u r.1 n r.2 none) s1 else s1 := rfl
  rw [hput, ← h1.2]
  cases s.isL
  · exact ⟨h1.1, rfl⟩
  · obtain ⟨hv, hg⟩ := foldl_pushLatch n none rs s1
    exact ⟨h1.1.trans hv, hg⟩

/-- A register's results, and its odd neighbour's for .x64. -/
def pairResult (act : Word32) (ty : Ty) (d : Nat) (f : Nat → Word64 × Word64) : List (Nat × LaneVals) :=
  (d, vlanes act fun l => (f l).1) :: if ty = .x64 then [(d + 1, vlanes act fun l => (f l).2)] else []

theorem wrVals_vlanes (g : Group) (act : Word32) (d : Nat) (f : Nat → Word64) {r l : Nat} (hl : l < 32) :
    (wrVals g d (vlanes act f)).velem r l = if r = d ∧ inMask act l = true then f l else g.velem r l := by
  rw [vlanes, wrVals_velem d f r l hl _ _ fun k hk => (mem_lanesOf.1 hk).1]
  simp [mem_lanesOf, hl]

theorem velem_pairResult (g : Group) (act : Word32) (ty : Ty) (d : Nat) (f : Nat → Word64 × Word64) {r l : Nat} (hl : l < 32) :
    ((pairResult act ty d f).foldl (fun g r => wrVals g r.1 r.2) g).velem r l =
      if inMask act l = true ∧ r = d then (f l).1 else if inMask act l = true ∧ ty = .x64 ∧ r = d + 1 then (f l).2 else g.velem r l := by
  by_cases hty : ty = .x64
  · by_cases hd : r = d
    · simp [pairResult, hty, wrVals_vlanes _ _ _ _ hl, hd]
    · simp [pairResult, hty, wrVals_vlanes _ _ _ _ hl, hd, and_comm]
  · simp [pairResult, hty, wrVals_vlanes _ _ _ _ hl, and_comm]

theorem putVec_pair (s : State) (h : VH) (act : Word32) (ty : Ty) (d : Nat) (f : Nat → Word64 × Word64) : let t := putVec s h.n (pairResult act ty d f)
    WritesPair s t h act ty d f ∧ t.cg.status = s.cg.status ∧ OnlyVecs s.cg t.cg ∧ OnlyVector s t := by
  intro t
  obtain ⟨hv, hg⟩ := putVec_spec s h.n (pairResult act ty d f)
  obtain ⟨honly, hst⟩ := written_only s.cg h.n (pairResult act ty d f)
  refine ⟨fun r l hl => ?_, ?_, ?_, hv⟩
  · have hvel : t.cg.velem r l = (written s.cg h.n (pairResult act ty d f)).velem r l := by rw [Group.velem, hg]; rfl
    rw [hvel]
    cases h.n
    · simp only [written, Bool.false_eq_true, if_false, velem_pairResult _ _ _ _ _ hl, true_and]
    · simp [written]
  · rw [hg]
    exact hst
  · rw [hg]
    exact honly.trans rfl

/-! The status bits and the trap. -/

/-- A word that gives its results, sets SAT and NAI, and traps where a lane offends (R212). -/
theorem convWord {s : State} {h : VH} {ty : Ty} {d : Nat} {regs lat : List Nat} {f : Nat → Word64 × Word64} {sat nai : Nat → Bool} {o : Out}
    (ho : o = Res.out (do
      let s1 ← vpre s (active s h) regs lat
      convStatus s (putVec s1 h.n (pairResult (active s h) ty d f)) ((lanesOf (active s h)).filter sat) ((lanesOf (active s h)).filter nai))) :
    let bad := (lanesOf (active s h)).filter nai
    let st (l : Nat) (w : Word32) : Word32 := orBit (nai l) bNAI (orBit (sat l) bSAT w)
    (trapNai s = false ∨ bad = [] → PairWord s h ty d regs lat f st o) ∧ NaiTrap s (active s h) bad regs lat (PairEffect s h ty d lat f st) o := by
  intro bad st
  let act := active s h
  let s1 := afterRead s act lat
  let s2 := putVec s1 h.n (pairResult act ty d f)
  let t := s2.setCg ((s2.cg.orSts bSAT ((lanesOf act).filter sat)).orSts bNAI bad)
  obtain ⟨hw, hst, hvecs, honly⟩ := putVec_pair s1 h act ty d f
  have hread : OnlyGroup s s1 := afterRead_only s act lat
  have hcg : s1.cg = { s.cg with status := s1.cg.status } := afterRead_cg s act lat
  have htcg : t.cg = { s2.cg with status := t.cg.status } := by
    simp only [t, State.cg_setCg]
    rw [Group.orSts_only, Group.orSts_only]
  have hall : OnlyVector s t := (hread.toVector.trans honly).trans (OnlyGroup.setCg s2 _).toVector
  have heff : PairEffect s h ty d lat f st t := by
    refine ⟨fun r l hl => ?_, fun l hl => ?_, ?_, hall⟩
    · have h1 : t.cg.velem r l = s2.cg.velem r l := by rw [Group.velem, htcg]; rfl
      have h2 : s1.cg.velem r l = s.cg.velem r l := by rw [Group.velem, hcg]; rfl
      rw [h1, hw r l hl, h2]
    · have h1 : s2.cg.st l = s1.cg.st l := by rw [Group.st, hst]; rfl
      have hb : bad = (lanesOf act).filter nai := rfl
      simp only [t, State.cg_setCg, Group.st_orSts, h1, hb, List.mem_filter, mem_lanesOf, hl, true_and, s1, afterRead_st s act lat l hl, latchStatus]
      by_cases ha : inMask act l = true
      · cases hs : sat l <;> cases hn : nai l <;> simp [ha, st, hs, hn, orBit, act]
      · simp [ha, act]
    · rw [htcg]
      exact (OnlyVecs.trans (by rw [hcg]; rfl) hvecs).trans rfl
  have hrun (hr : Ready s act (regs ++ latchRegs s lat)) : o = Res.out (trapIf (trapNai s) INTERVAL_NAI bad t) := by
    rw [ho, vpre_ready hr]
    rfl
  refine ⟨fun hcase hr => ⟨t, ?_, heff⟩, fun htrap hbad hr => ⟨t, ?_, heff⟩⟩
  · have hno : (trapNai s && !bad.isEmpty) = false := by
      rcases hcase with h | h <;> simp [h]
    rw [hrun hr, trapIf, hno]
    rfl
  · have hyes : (trapNai s && !bad.isEmpty) = true := by simp [htrap, hbad]
    rw [hrun hr, trapIf, if_pos hyes, hall.cur]

end Sys2Proof.Machine
end

section
/-! cvt, slot by slot (R208, R209). -/
namespace Sys2Proof.Machine

/-! Fields of an element. -/

/-- An element with one field of w bits replaced. -/
def putField (w e : Nat) (p : Nat × Nat) : Nat := e % 2 ^ (w * p.1) + p.2 % 2 ^ w * 2 ^ (w * p.1) + e / 2 ^ (w * (p.1 + 1)) * 2 ^ (w * (p.1 + 1))

theorem testBit_putField (w e k x i : Nat) : (putField w e (k, x)).testBit i = if w * k ≤ i ∧ i < w * k + w then x.testBit (i - w * k) else e.testBit i := by
  have hlow : e % 2 ^ (w * k) < 2 ^ (w * k) := Nat.mod_lt _ (Nat.two_pow_pos _)
  have hmid : x % 2 ^ w < 2 ^ w := Nat.mod_lt _ (Nat.two_pow_pos _)
  have hform : putField w e (k, x) = 2 ^ (w * k) * (2 ^ w * (e / 2 ^ (w * (k + 1))) + x % 2 ^ w) + e % 2 ^ (w * k) := by
    simp only [putField, Nat.mul_succ, pow_add]
    ring
  rw [hform, Nat.testBit_two_pow_mul_add _ hlow, Nat.testBit_two_pow_mul_add _ hmid]
  by_cases h1 : i < w * k
  · simp [h1, Nat.not_le.2 h1, Nat.testBit_mod_two_pow]
  · by_cases h2 : i - w * k < w
    · have h3 : i < w * k + w := by omega
      simp [h1, h2, h3, not_lt.1 h1, Nat.testBit_mod_two_pow]
    · have h3 : ¬ i < w * k + w := by omega
      simp only [h1, h2, h3, if_false, and_false, Nat.testBit_div_two_pow]
      congr 1
      rw [Nat.mul_succ]
      omega

theorem field_putField (w e k x j : Nat) : putField w e (k, x) / 2 ^ (w * j) % 2 ^ w = if j = k then x % 2 ^ w else e / 2 ^ (w * j) % 2 ^ w := by
  refine Nat.eq_of_testBit_eq fun i => ?_
  rcases Nat.lt_trichotomy j k with h | rfl | h
  · have hle : w * j + w ≤ w * k := by rw [← Nat.mul_succ]; exact Nat.mul_le_mul_left w h
    simp only [Nat.testBit_mod_two_pow, Nat.testBit_div_two_pow, testBit_putField, h.ne, if_false]
    by_cases hi : i < w
    · rw [if_neg (by omega)]
    · simp [hi]
  · simp only [Nat.testBit_mod_two_pow, Nat.testBit_div_two_pow, testBit_putField, if_true]
    by_cases hi : i < w
    · rw [if_pos (by omega), Nat.add_sub_cancel]
    · simp [hi]
  · have hle : w * k + w ≤ w * j := by rw [← Nat.mul_succ]; exact Nat.mul_le_mul_left w h
    simp only [Nat.testBit_mod_two_pow, Nat.testBit_div_two_pow, testBit_putField, h.ne', if_false]
    rw [if_neg (by omega)]

theorem putField_lt {w c e k x : Nat} (he : e < 2 ^ (w * c)) (hk : k < c) : putField w e (k, x) < 2 ^ (w * c) := by
  refine Nat.lt_pow_two_of_testBit _ fun i hi => ?_
  have hle : w * k + w ≤ w * c := by rw [← Nat.mul_succ]; exact Nat.mul_le_mul_left w hk
  rw [testBit_putField, if_neg (by omega)]
  exact Nat.testBit_lt_two_pow (he.trans_le (Nat.pow_le_pow_right (by norm_num) hi))

/-- Fields written in a row from place p. -/
theorem foldl_putField {w c p : Nat} (x : Nat → Nat) {e : Nat} (he : e < 2 ^ (w * c)) : ∀ n, p + n ≤ c →
    let t := ((List.range n).map fun k => (p + k, x k)).foldl (putField w) e
    t < 2 ^ (w * c) ∧ ∀ j, t / 2 ^ (w * j) % 2 ^ w = if p ≤ j ∧ j < p + n then x (j - p) % 2 ^ w else e / 2 ^ (w * j) % 2 ^ w
  | 0, _ => ⟨he, fun j => by rw [if_neg (by omega)]; rfl⟩
  | n + 1, h => by
    obtain ⟨hlt, hfield⟩ := foldl_putField (p := p) x he n (by omega)
    simp only [List.range_succ, List.map_append, List.foldl_append, List.map_cons, List.map_nil, List.foldl_cons, List.foldl_nil]
    refine ⟨putField_lt hlt (by omega), fun j => ?_⟩
    rw [field_putField, hfield]
    by_cases hj : j = p + n
    · rw [if_pos hj, if_pos (by omega), hj, Nat.add_sub_cancel_left]
    · have : (p ≤ j ∧ j < p + (n + 1)) ↔ (p ≤ j ∧ j < p + n) := by omega
      simp only [hj, if_false, this]

/-! The lanes of a cvt. -/

section
variable (df sf part nrm : Nat)

/-- The source slot of the k-th conversion. -/
def cvtSource (k : Nat) : Nat := if cvtCnt df < cvtCnt sf then part * cvtCnt df + k else k

/-- The destination slot of the first. -/
def cvtFirst : Nat := if cvtCnt sf < cvtCnt df then part * cvtCnt sf else 0

/-- A converted slot of a lane's source. -/
def cvtAt (a hi k : Nat) : Nat × Nat × Bool × Bool := cvtSlot df sf nrm (a / 2 ^ (cvtWidth sf * k) % 2 ^ cvtWidth sf) (cvtRead sf k a hi)

/-- The source slots of a cvt. -/
def cvtSources : List Nat := (List.range (min (cvtCnt sf) (cvtCnt df))).map (cvtSource df sf part)

theorem cvtCnt_pos (f : Nat) : 0 < cvtCnt f := by unfold cvtCnt; split <;> omega

theorem cvtLane_eq (old a hi : Nat) : cvtLane df sf part nrm old a hi =
    (((List.range (min (cvtCnt sf) (cvtCnt df))).map fun k => (cvtFirst df sf part + k, (cvtAt df sf nrm a hi (cvtSource df sf part k)).1)).foldl
        (putField (cvtWidth df)) (if cvtCnt sf < cvtCnt df then old else 0),
      (cvtAt df sf nrm a hi ((cvtSources df sf part).headD 0)).2.1,
      (cvtSources df sf part).any fun k => (cvtAt df sf nrm a hi k).2.2.1,
      (cvtSources df sf part).any fun k => (cvtAt df sf nrm a hi k).2.2.2) := by
  obtain ⟨n, hn⟩ : ∃ n, min (cvtCnt sf) (cvtCnt df) = n + 1 := ⟨min (cvtCnt sf) (cvtCnt df) - 1, by have := cvtCnt_pos sf; have := cvtCnt_pos df; omega⟩
  have hplace (k : Nat) : (if cvtCnt sf < cvtCnt df then part * cvtCnt sf + k else k) = cvtFirst df sf part + k := by
    unfold cvtFirst; split_ifs <;> omega
  simp only [cvtLane, List.foldl_map, List.any_map, List.map_map, cvtSources, hplace]
  refine Prod.ext rfl (Prod.ext ?_ rfl)
  simp only [hn, List.range_succ_eq_map, List.map_cons, List.headD_cons]
  rfl

end

end Sys2Proof.Machine
end

section
/-! What cvt does (R208, R209, R212). -/
namespace Sys2Proof.Machine

/-- The element that a cvt reads in a lane, and its odd neighbour for .x64. -/
def cvtLo (s : State) (sf : Nat) (a : Opnd) (l : Nat) : Nat := (if sf == 7 then rdOpLo s a l else rdOp s a l).toNat
def cvtHi (s : State) (sf : Nat) (a : Opnd) (l : Nat) : Nat := if sf == 7 then (rdOpHi s a l).toNat else 0

/-- A lane's conversion from the state. -/
def cvtOf (s : State) (df sf part d : Nat) (a : Opnd) (l : Nat) : Nat × Nat × Bool × Bool :=
  cvtLane df sf part s.cg.nrm (s.cg.rV s.free d l).toNat (cvtLo s sf a l) (cvtHi s sf a l)

/-- The type of what cvt writes: a pair of registers for .x64. -/
def cvtTy (df : Nat) : Ty := if df = 7 then .x64 else .i64

theorem map_filter_vlanes {α : Type} (act : Word32) (f : Nat → α) (p : α → Bool) :
    ((vlanes act f).filter fun r => p r.2).map Prod.fst = (lanesOf act).filter fun l => p (f l) := by
  simp only [vlanes, List.filter_map, List.map_map, Function.comp_def, List.map_id']

theorem cvt_word (s : State) (h : VH) (df sf part d : Nat) (a : Opnd) :
    let regs := opRegs (sf == 7) a ++ if cvtCnt sf < cvtCnt df then [d] else []
    let lane := cvtOf s df sf part d a
    let f (l : Nat) : Word64 × Word64 := (BitVec.ofNat 64 (lane l).1, BitVec.ofNat 64 (lane l).2.1)
    let bad := (lanesOf (active s h)).filter fun l => (lane l).2.2.2
    let st (l : Nat) (w : Word32) : Word32 := orBit (lane l).2.2.2 bNAI (orBit (lane l).2.2.1 bSAT w)
    (trapNai s = false ∨ bad = [] → PairWord s h (cvtTy df) d regs (opLatches (sf == 7) a) f st (exec (.cvt h df sf part d a) s)) ∧
      NaiTrap s (active s h) bad regs (opLatches (sf == 7) a) (PairEffect s h (cvtTy df) d (opLatches (sf == 7) a) f st) (exec (.cvt h df sf part d a) s) := by
  intro regs lane f bad st
  refine convWord (sat := fun l => (lane l).2.2.1) (nai := fun l => (lane l).2.2.2) ?_
  have hres : ∀ rs : List (Nat × LaneVals), rs = pairResult (active s h) (cvtTy df) d f → (rs = (d, (vlanes (active s h) lane).map fun r => (r.1, BitVec.ofNat 64 r.2.1)) ::
      if df = 7 then [(d + 1, (vlanes (active s h) lane).map fun r => (r.1, BitVec.ofNat 64 r.2.2.1))] else []) := by
    intro rs hrs
    rw [hrs]
    by_cases h7 : df = 7 <;> simp [pairResult, cvtTy, h7, vlanes, f, Function.comp_def]
  rw [hres _ rfl, ← map_filter_vlanes _ lane fun r => r.2.2.1, ← map_filter_vlanes _ lane fun r => r.2.2.2]
  rfl

/-- The fields of a converted element (R208, R209). -/
theorem cvtOf_fields (s : State) {df sf part : Nat} (d : Nat) (a : Opnd) (hdf : df < 20)
    (hpart : if cvtCnt sf < cvtCnt df then (part + 1) * cvtCnt sf ≤ cvtCnt df else (part + 1) * cvtCnt df ≤ cvtCnt sf) (l : Nat) :
    let at' := cvtAt df sf s.cg.nrm (cvtLo s sf a l) (cvtHi s sf a l)
    let wd := cvtWidth df
    let e := (BitVec.ofNat 64 (cvtOf s df sf part d a l).1).toNat
    e < 2 ^ (wd * cvtCnt df) ∧ ∀ j, j < cvtCnt df → e / 2 ^ (wd * j) % 2 ^ wd =
      if cvtCnt df < cvtCnt sf then (at' (part * cvtCnt df + j)).1 % 2 ^ wd
      else if cvtCnt sf < cvtCnt df then
        (if part * cvtCnt sf ≤ j ∧ j < part * cvtCnt sf + cvtCnt sf then (at' (j - part * cvtCnt sf)).1 % 2 ^ wd
          else (s.cg.rV s.free d l).toNat / 2 ^ (wd * j) % 2 ^ wd)
      else (at' j).1 % 2 ^ wd := by
  intro at' wd e
  have hwidth : wd * cvtCnt df ≤ 64 ∧ (1 < cvtCnt df → wd * cvtCnt df = 64) := by
    simp only [wd]
    interval_cases df <;> decide
  have hold : (if cvtCnt sf < cvtCnt df then (s.cg.rV s.free d l).toNat else 0) < 2 ^ (wd * cvtCnt df) := by
    split_ifs with h
    · rw [hwidth.2 (by have := cvtCnt_pos sf; omega)]
      exact (s.cg.rV s.free d l).isLt
    · exact Nat.two_pow_pos _
  have hfirst : cvtFirst df sf part + min (cvtCnt sf) (cvtCnt df) ≤ cvtCnt df := by
    unfold cvtFirst
    split_ifs at hpart ⊢ with h
    · rw [Nat.add_one_mul] at hpart
      omega
    · omega
  obtain ⟨hlt, hfield⟩ := foldl_putField (fun k => (at' (cvtSource df sf part k)).1) hold (min (cvtCnt sf) (cvtCnt df)) hfirst
  have hform : ∀ x, x = (cvtOf s df sf part d a l).1 → x < 2 ^ (wd * cvtCnt df) → e = x := by
    rintro x rfl hx
    exact (BitVec.toNat_ofNat ..).trans (Nat.mod_eq_of_lt (hx.trans_le (Nat.pow_le_pow_right (by norm_num) hwidth.1)))
  have he := hform _ (by rw [cvtOf, cvtLane_eq]) hlt
  rw [he]
  refine ⟨hlt, fun j hj => (hfield j).trans ?_⟩
  rcases Nat.lt_trichotomy (cvtCnt df) (cvtCnt sf) with h | h | h
  · have hsf : ¬ cvtCnt sf < cvtCnt df := by omega
    have hin : 0 ≤ j ∧ j < 0 + min (cvtCnt sf) (cvtCnt df) := by omega
    simp only [cvtFirst, cvtSource, hsf, h, if_true, if_false, hin, and_self, Nat.sub_zero]
  · have hin : 0 ≤ j ∧ j < 0 + min (cvtCnt sf) (cvtCnt df) := by omega
    simp only [cvtFirst, cvtSource, h, lt_irrefl, if_false, Nat.sub_zero]
    rw [if_pos (by omega)]
  · have hdf' : ¬ cvtCnt df < cvtCnt sf := by omega
    simp only [cvtFirst, cvtSource, hdf', h, if_true, if_false, Nat.min_eq_left h.le]

end Sys2Proof.Machine
end

section
/-! cvt between integers (R210). -/
namespace Sys2Proof.Machine

@[simp] theorem rat_half : (⟨1, 2⟩ : Q).rat = 1 / 2 := by simp [Q.rat]

theorem qFloor_qInt (z : Int) : qFloor (qInt z) = z := by rw [qFloor_eq, rat_qInt, Int.floor_intCast]

/-- A whole number is not changed by rounding to an integer. -/
theorem qRoundInt_qInt (r : Rnd) (z : Int) : qRoundInt r (qInt z) = z := by
  have hneg : -(qFloor (qNeg (qInt z))) = z := by rw [show qNeg (qInt z) = qInt (-z) from rfl, qFloor_qInt, neg_neg]
  have hhalf : (qSub (qSub (qInt z) (qInt z)) ⟨1, 2⟩).n < 0 := by
    have h1 : 0 < (qSub (qInt z) (qInt z)).d := qSub_pos Nat.one_pos Nat.one_pos
    rw [← rat_neg_iff (qSub_pos h1 (by norm_num)), rat_qSub h1 (by norm_num), rat_qSub Nat.one_pos Nat.one_pos, sub_self, rat_half]
    norm_num
  cases r
  · exact qFloor_qInt z
  · exact hneg
  · simp only [qRoundInt, qFloor_qInt]
    rw [if_pos hhalf]
  · simp only [qRoundInt, hneg, qFloor_qInt, ite_self]

/-- A whole number into an integer range: clamped, and SAT where it was outside. -/
theorem ptInt_qInt {least most : Int} (h : least ≤ most) (r : Rnd) (z : Int) :
    ptInt (least, most) (.val (.fin (qInt z)) r) = (max least (min most z), decide (z < least) || decide (most < z)) := by
  simp only [ptInt, qRoundInt_qInt]
  split_ifs with h1 h2
  · rw [min_eq_right (by omega), max_eq_left h1.le]; simp [h1]
  · rw [min_eq_left h2.le, max_eq_right h]; simp [h2]
  · rw [min_eq_right (by omega), max_eq_right (by omega)]; simp [h1, h2]

theorem intRange_ordered {df : Nat} (h : df < 4) : (intRange df).1 ≤ (intRange df).2 := by interval_cases df <;> decide

/-- The value that an integer source has (R208). -/
theorem cvtRead_int {sf : Nat} (h : sf < 4) (x : Word64) (hi : Nat) : cvtRead sf 0 x.toNat hi = .int (valW (cvtInt sf) (x.toNat % 2 ^ wOf (cvtInt sf))) := by
  have hx := x.isLt
  interval_cases sf
  · simp [cvtRead, valW, cvtInt, isSigned, wOf, sext]
  · simp [cvtRead, valW, cvtInt, isSigned, wOf]
  · simp [cvtRead, valW, cvtInt, isSigned, wOf, sext]
  · simp [cvtRead, valW, cvtInt, isSigned, wOf, Nat.mod_eq_of_lt hx]

theorem cvtSlot_int {df : Nat} (h : df < 4) (sf nrm raw : Nat) (z : Int) :
    cvtSlot df sf nrm raw (.int z) = (((max (intRange df).1 (min (intRange df).2 z)) % 2 ^ 64).toNat, 0,
      decide (z < (intRange df).1) || decide ((intRange df).2 < z), false) := by
  have hpt := ptInt_qInt (intRange_ordered h) (nrmRnd nrm) z
  have hslot : cvtSlot df sf nrm raw (.int z) = (((ptInt (intRange df) (.val (.fin (qInt z)) (nrmRnd nrm))).1 % 2 ^ 64).toNat, 0,
      (ptInt (intRange df) (.val (.fin (qInt z)) (nrmRnd nrm))).2, false) := by interval_cases df <;> rfl
  rw [hslot, hpt]

/-- A number modulo 2^64 and then cut to the width of an integer type. -/
theorem elemW_of_mod {df : Nat} (h : df < 4) (z : Int) : BitVec.ofNat 64 ((z % 2 ^ 64).toNat % 2 ^ cvtWidth df) = elemW (cvtInt df) z := by
  have hw : wOf (cvtInt df) = cvtWidth df ∧ cvtWidth df ≤ 64 := by interval_cases df <;> decide
  have hdvd : ((2 ^ cvtWidth df : Nat) : Int) ∣ 2 ^ 64 := by exact_mod_cast Nat.pow_dvd_pow 2 hw.2
  have hz : ((((z % 2 ^ 64).toNat % 2 ^ cvtWidth df : Nat) : Int)) = z % ((2 ^ cvtWidth df : Nat) : Int) := by
    push_cast
    rw [Int.toNat_of_nonneg (Int.emod_nonneg _ (by norm_num)), Int.emod_emod_of_dvd _ (by exact_mod_cast hdvd)]
  rw [elemW, hw.1, ← hz, Int.toNat_natCast]

theorem cvtOf_int (s : State) {df sf : Nat} (hdf : df < 4) (hsf : sf < 4) (d : Nat) (a : Opnd) (l : Nat) :
    let x := valW (cvtInt sf) (rdW s (cvtInt sf) a l)
    let lane := cvtOf s df sf 0 d a l
    (BitVec.ofNat 64 lane.1, BitVec.ofNat 64 lane.2.1) = (elemW (cvtInt df) (max (intRange df).1 (min (intRange df).2 x)), 0) ∧
      lane.2.2 = (decide (x < (intRange df).1) || decide ((intRange df).2 < x), false) := by
  intro x lane
  have hcs : cvtCnt sf = 1 := by interval_cases sf <;> rfl
  have hcd : cvtCnt df = 1 := by interval_cases df <;> rfl
  have hlo : cvtLo s sf a l = (rdOp s a l).toNat := by interval_cases sf <;> rfl
  have hat : cvtAt df sf s.cg.nrm (cvtLo s sf a l) (cvtHi s sf a l) 0 =
      (((max (intRange df).1 (min (intRange df).2 x)) % 2 ^ 64).toNat, 0, decide (x < (intRange df).1) || decide ((intRange df).2 < x), false) := by
    rw [cvtAt, hlo, cvtRead_int hsf]
    exact cvtSlot_int hdf ..
  have hlane : lane = (((max (intRange df).1 (min (intRange df).2 x)) % 2 ^ 64).toNat % 2 ^ cvtWidth df, 0,
      decide (x < (intRange df).1) || decide ((intRange df).2 < x), false) := by
    simp only [lane, cvtOf, cvtLane_eq, cvtSources, cvtSource, cvtFirst, hcs, hcd, lt_irrefl, if_false, Nat.min_self, List.range_one, List.map_cons, List.map_nil,
      List.headD_cons, List.any_cons, List.any_nil, Bool.or_false, List.foldl_cons, List.foldl_nil, hat, putField]
    simp
  rw [hlane]
  exact ⟨by rw [elemW_of_mod hdf]; rfl, rfl⟩

/-- An integer into an integer is clamped, with SAT where it was outside; no lane offends. -/
theorem cvt_ints (s : State) (h : VH) {df sf : Nat} (hdf : df < 4) (hsf : sf < 4) (d : Nat) (a : Opnd) :
    let x (l : Nat) : Int := valW (cvtInt sf) (rdW s (cvtInt sf) a l)
    PairWord s h .i64 d (opRegs false a) (opLatches false a) (fun l => (elemW (cvtInt df) (max (intRange df).1 (min (intRange df).2 (x l))), 0))
      (fun l w => orBit (decide (x l < (intRange df).1) || decide ((intRange df).2 < x l)) bSAT w) (exec (.cvt h df sf 0 d a) s) := by
  intro x
  have hcs : cvtCnt sf = 1 := by interval_cases sf <;> rfl
  have hcd : cvtCnt df = 1 := by interval_cases df <;> rfl
  have hpair : (sf == 7) = false := by simp; omega
  have hty : cvtTy df = .i64 := if_neg (by omega)
  obtain ⟨hword, -⟩ := cvt_word s h df sf 0 d a
  simp only [hcs, hcd, lt_irrefl, if_false, List.append_nil, hpair, hty] at hword
  have hlane (l : Nat) := cvtOf_int s hdf hsf d a l
  simp only [fun l => (hlane l).1, fun l => (hlane l).2] at hword
  exact hword (.inr (by simp))

end Sys2Proof.Machine
end

section
/-! What a conversion keeps of a number: intervals contain it, points are rounded as the mode says (R208, R210). -/
namespace Sys2Proof.Machine

theorem qLe_refl (q : Q) : qLe q q = true := decide_eq_true le_rfl

theorem point_has (q : Q) : (Ivl.mk (.fin q) (.fin q)).has q := ⟨qLe_refl q, qLe_refl q⟩

theorem point_good {q : Q} (hq : 0 < q.d) : (Ivl.mk (.fin q) (.fin q)).Good := ⟨hq, hq, qLe_refl q⟩

theorem qNeg_pos {a : Q} (h : 0 < a.d) : 0 < (qNeg a).d := h

theorem mk8Mag_pos (b : Nat) : 0 < (mk8Mag b).d := by
  unfold mk8Mag
  split_ifs <;> norm_num [qInt]

theorem mk8Val_pos {b : Nat} {q : Q} (h : mk8Val b = some q) : 0 < q.d := by
  unfold mk8Val at h
  split_ifs at h
  · rw [← Option.some.inj h]; exact qNeg_pos (mk8Mag_pos _)
  · rw [← Option.some.inj h]; exact mk8Mag_pos _

theorem XR.ok_of_ivl_ok : ∀ {lo hi : XR}, (Ivl.mk lo hi).ok → lo.ok ∧ hi.ok
  | .fin _, .fin _, h => h
  | .fin _, .ninf, h => ⟨h, trivial⟩
  | .fin _, .pinf, h => ⟨h, trivial⟩
  | .ninf, .fin _, h => ⟨trivial, h⟩
  | .pinf, .fin _, h => ⟨trivial, h⟩
  | .ninf, .ninf, _ => ⟨trivial, trivial⟩
  | .ninf, .pinf, _ => ⟨trivial, trivial⟩
  | .pinf, .ninf, _ => ⟨trivial, trivial⟩
  | .pinf, .pinf, _ => ⟨trivial, trivial⟩

/-- An interval that contains a number is in order. -/
theorem Ivl.good_of_has : ∀ {i : Ivl} {q : Q}, i.ok → 0 < q.d → i.has q → i.Good
  | .mk _ _, q, hok, hq, ⟨h1, h2⟩ => by
    obtain ⟨hlo, hhi⟩ := XR.ok_of_ivl_ok hok
    exact ⟨hlo, hhi, xLe_trans (b := .fin q) hlo hq hhi h1 h2⟩

/-- A source's interval contains the source's number. -/
theorem cvalIvl_has : ∀ {v : CVal} {q : Q}, v.is q → (cvalIvl v).Good ∧ 0 < q.d ∧ (cvalIvl v).has q
  | .int _, _, rfl => ⟨point_good Nat.one_pos, Nat.one_pos, point_has _⟩
  | .pt f (.fin neg k), _, ⟨_, _, rfl⟩ => ⟨point_good (fpVal_pos f neg k), fpVal_pos f neg k, point_has _⟩
  | .mk8 b, q, ⟨_, h⟩ => by
    have hq := mk8Val_pos h
    simp only [cvalIvl, mk8Ivl, h]
    exact ⟨point_good hq, hq, point_has q⟩
  | .ivl _, _, ⟨hok, hq, hhas⟩ => ⟨Ivl.good_of_has hok hq hhas, hq, hhas⟩

/-- The two fields of a packed interval. -/
theorem ivlBits_packed {f : Fmt} (hf : f.Ok) (hw : 0 < f.w) (ht : 0 < f.top) {i : Ivl} (h : i.Good) :
    ivlBits f (((ivlWrite f i).2 * 2 ^ f.w + (ivlWrite f i).1) % 2 ^ f.w) (((ivlWrite f i).2 * 2 ^ f.w + (ivlWrite f i).1) / 2 ^ f.w) = outward f i := by
  obtain ⟨hlo, -⟩ := ivlWrite_lt hf hw ht i
  rw [Nat.mul_comm, Nat.mul_add_mod, Nat.mod_eq_of_lt hlo, Nat.mul_add_div (Nat.two_pow_pos _), Nat.div_eq_of_lt hlo, Nat.add_zero,
    ivlBits_ivlWrite hf ht h]

/-- A conversion into an interval contains the number that it read (R210). -/
theorem convertedIvl_has {df : Nat} (hdf : df ∈ [6, 7, 8, 9]) (sf nrm raw : Nat) {v : CVal} {q : Q} (h : v.is q) :
    (convertedIvl df (cvtSlot df sf nrm raw v)).has q := by
  obtain ⟨hgood, hq, hhas⟩ := cvalIvl_has h
  simp only [List.mem_cons, List.not_mem_nil, or_false] at hdf
  obtain rfl | rfl | rfl | rfl := hdf
  · have hx : convertedIvl 6 (cvtSlot 6 sf nrm raw v) = x32Read (x32Write (cvalIvl v)) := by simp only [convertedIvl, cvtSlot, x32Write]
    rw [hx, x32Read_x32Write hgood]
    exact outward_has (by decide) hgood hq hhas
  · rw [show convertedIvl 7 (cvtSlot 7 sf nrm raw v) = ivlBits fp64 (ivlWrite fp64 (cvalIvl v)).1 (ivlWrite fp64 (cvalIvl v)).2 from rfl,
      ivlBits_ivlWrite fp64_ok (by decide) hgood]
    exact outward_has (by decide) hgood hq hhas
  · have hp := ivlBits_packed bf16_ok (by decide) (by decide) hgood
    rw [show convertedIvl 8 (cvtSlot 8 sf nrm raw v) = _ from hp]
    exact outward_has (by decide) hgood hq hhas
  · have hp := ivlBits_packed fp16_ok (by decide) (by decide) hgood
    rw [show convertedIvl 9 (cvtSlot 9 sf nrm raw v) = _ from hp]
    exact outward_has (by decide) hgood hq hhas

/-! Points. -/

/-- A zero has one value, whatever its sign. -/
theorem fpVal_zero (f : Fmt) (neg : Bool) : fpVal f neg 0 = magVal f 0 := by
  have hn : (magVal f 0).n = 0 := by simp [magVal, qMul, qInt]
  cases neg
  · rfl
  · simp only [fpVal, if_true, qNeg, hn, neg_zero]
    rw [← hn]

/-- A sign that is left open on a zero does not change what the bits stand for. -/
theorem fpXR_openZero {f : Fmt} (hf : f.Ok) {x : Fp} (hx : x.canon f) (c : Bool) :
    fpXR f (fpOf f (if fpBits f x = 0 && c then 2 ^ (f.w - 1) else fpBits f x)) = fpXR f x := by
  have hback := fpOf_fpBits hf hx
  split_ifs with h
  · simp only [Bool.and_eq_true, decide_eq_true_eq] at h
    have hneg := fpOf_signed (f := f) (Nat.two_pow_pos (f.w - 1)) true
    have hpos := fpOf_signed (f := f) (Nat.two_pow_pos (f.w - 1)) false
    simp only [if_true, Nat.add_zero, Nat.zero_le, Bool.false_eq_true, if_false] at hneg hpos
    rw [h.1, hpos] at hback
    rw [hneg, ← hback]
    simp only [fpXR, fpVal_zero]
  · rw [hback]

/-- Where an infinity of the target stays, a finite source gives its rounding. -/
theorem ptFp_down {f : Fmt} (hf : f.inf = true) (q : Q) : ptFp f (.val (.fin q) .down) = (roundQ f .down q, false) := by
  have hne := roundQ_down_ne f (q := q)
  simp only [ptFp, hf, if_true]
  cases hr : roundQ f .down q with
  | nan => rfl
  | inf neg =>
    cases neg
    · exact absurd hr hne
    · simp
  | fin neg k => rfl

theorem ptFp_up {f : Fmt} (hf : f.inf = true) (q : Q) : ptFp f (.val (.fin q) .up) = (roundQ f .up q, false) := by
  have hne := roundQ_up_ne f (q := q)
  simp only [ptFp, hf, if_true]
  cases hr : roundQ f .up q with
  | nan => rfl
  | inf neg =>
    cases neg
    · simp
    · exact absurd hr hne
  | fin neg k => rfl

theorem cvalPt_is : ∀ {v : CVal} {q : Q}, v.is q → (∀ i, v ≠ .ivl i) → ∀ nrm, cvalPt nrm v = .val (.fin q) (nrmRnd nrm)
  | .int _, _, rfl, _, _ => rfl
  | .pt _ (.fin _ _), _, ⟨_, _, rfl⟩, _, _ => rfl
  | .mk8 b, q, ⟨_, h⟩, _, nrm => by simp only [cvalPt, h]
  | .ivl i, _, _, h, _ => absurd rfl (h i)

theorem cvtPt_ok {df : Nat} (hdf : df ∈ [16, 17, 18, 19]) : (cvtPt df).Ok := by
  simp only [List.mem_cons, List.not_mem_nil, or_false] at hdf
  obtain rfl | rfl | rfl | rfl := hdf
  · exact fp32_ok
  · exact fp64_ok
  · exact bf16_ok
  · exact fp16_ok

/-- The datum of a converted point. -/
theorem fpXR_cvtSlot {df : Nat} (hdf : df ∈ [16, 17, 18, 19]) (sf nrm raw : Nat) (v : CVal) {x : Fp} (hx : x.canon (cvtPt df))
    (h : (ptFp (cvtPt df) (cvalPt nrm v)).1 = x) : fpXR (cvtPt df) (fpOf (cvtPt df) (cvtSlot df sf nrm raw v).1) = fpXR (cvtPt df) x := by
  have hbits : (cvtSlot df sf nrm raw v).1 = if fpBits (cvtPt df) x = 0 && (zeroOpen v && Config.zeroSign df sf raw nrm) then 2 ^ ((cvtPt df).w - 1)
      else fpBits (cvtPt df) x := by
    rw [← h, ← Bool.and_assoc]
    simp only [List.mem_cons, List.not_mem_nil, or_false] at hdf
    obtain rfl | rfl | rfl | rfl := hdf <;> rfl
  rw [hbits, fpXR_openZero (cvtPt_ok hdf) hx]

/-- A number into a binary point rounds below under LOWER and above under UPPER (R210). -/
theorem cvtSlot_point {df : Nat} (hdf : df ∈ [16, 17, 18, 19]) (sf nrm raw : Nat) {v : CVal} {q : Q} (h : v.is q) (hv : ∀ i, v ≠ .ivl i) :
    let r := fpXR (cvtPt df) (fpOf (cvtPt df) (cvtSlot df sf nrm raw v).1)
    (nrm = 0 → xLe r (.fin q) = true) ∧ (nrm = 1 → xLe (.fin q) r = true) := by
  have hok := cvtPt_ok hdf
  have hq : 0 < q.d := (cvalIvl_has h).2.1
  refine ⟨?_, ?_⟩ <;> rintro rfl
  · rw [fpXR_cvtSlot hdf sf 0 raw v (roundQ_canon _ .down q) (by rw [cvalPt_is h hv]; exact congrArg Prod.fst (ptFp_down hok.inf q))]
    exact roundQ_down_le _ hq hok.prec
  · rw [fpXR_cvtSlot hdf sf 1 raw v (roundQ_canon _ .up q) (by rw [cvalPt_is h hv]; exact congrArg Prod.fst (ptFp_up hok.inf q))]
    exact roundQ_up_ge _ hq hok.prec

end Sys2Proof.Machine
end

section
/-! Block quantisation (R142, R213) and its inverse (R141, R214). -/
namespace Sys2Proof.Machine

theorem fpQ_pos (f : Fmt) : ∀ x, 0 < (fpQ f x).d
  | .nan => Nat.one_pos
  | .inf _ => Nat.one_pos
  | .fin neg k => fpVal_pos f neg k

theorem qntMax_pos {tgt : Nat} (h : tgt < 3) : 0 < (qntMax tgt).d ∧ 0 < (qntMax tgt).n := by interval_cases tgt <;> decide

/-- The magnitude of a point. -/
def ptMag (x : Fp) : Q := qAbs (fpQ fp32 x)

theorem ptMag_pos (x : Fp) : 0 < (ptMag x).d := fpQ_pos fp32 x

/-- The largest magnitude of a block. -/
def blockMax (m : Q) (pts : List Fp) : Q := pts.foldl (fun m x => qMax m (ptMag x)) m

theorem blockMax_spec : ∀ (pts : List Fp) {m : Q}, 0 < m.d → 0 < (blockMax m pts).d ∧ m.rat ≤ (blockMax m pts).rat ∧
    (∀ x ∈ pts, (ptMag x).rat ≤ (blockMax m pts).rat) ∧ ((blockMax m pts).rat = m.rat ∨ ∃ x ∈ pts, (blockMax m pts).rat = (ptMag x).rat)
  | [], _, hm => ⟨hm, le_rfl, by simp, .inl rfl⟩
  | x :: pts, m, hm => by
    obtain ⟨hd, hle, hall, hwit⟩ := blockMax_spec pts (qMax_pos hm (ptMag_pos x))
    have hmax := rat_qMax hm (ptMag_pos x)
    have heq : blockMax m (x :: pts) = blockMax (qMax m (ptMag x)) pts := rfl
    rw [heq]
    rw [hmax] at hle hwit
    refine ⟨hd, (le_max_left _ _).trans hle, ?_, ?_⟩
    · simp only [List.mem_cons, forall_eq_or_imp]
      exact ⟨(le_max_right _ _).trans hle, hall⟩
    · rcases hwit with h | ⟨y, hy, h⟩
      · rcases max_choice m.rat (ptMag x).rat with hc | hc
        · exact .inl (h.trans hc)
        · exact .inr ⟨x, by simp, h.trans hc⟩
      · exact .inr ⟨y, by simp [hy], h⟩

/-! Scales. -/

theorem scaleVal_bf16 {k : Nat} (h0 : k ≠ 0) (hk : k ≤ bf16.top) : scaleVal 0 k = some (magVal bf16 k) := by
  have hlt : k < 2 ^ 15 := hk.trans_lt (by decide)
  have hof : fpOf bf16 k = .fin false k := by
    have h := fpOf_signed (f := bf16) (k := k) hlt false
    simpa [hk] using h
  have hmod : k % 2 ^ 16 = k := Nat.mod_eq_of_lt (by omega)
  simp only [scaleVal, if_true, hmod, hof, h0, if_false]

/-- A valid scale is a positive number, and no BF16 scale exceeds the largest. -/
theorem scaleVal_spec {scf c : Nat} {w : Q} (h : scaleVal scf c = some w) : 0 < w.d ∧ 0 < w.rat ∧ w.rat ≤ if scf = 0 then bf16.val bf16.top else 2 ^ (127 : Int) := by
  unfold scaleVal at h
  split_ifs at h with h0 h255
  · split at h
    · next k hof =>
      split_ifs at h with hk
      have hle : k ≤ bf16.top := by
        unfold fpOf at hof
        simp only at hof
        split_ifs at hof with htop
        obtain ⟨-, rfl⟩ := Fp.fin.inj hof
        exact htop
      rw [← Option.some.inj h, if_pos h0]
      exact ⟨magVal_pos bf16 k, val_pos bf16 (Nat.pos_of_ne_zero hk), (val_strictMono bf16).monotone hle⟩
    · exact absurd h nofun
  · rw [← Option.some.inj h, if_neg h0, rat_qPow2]
    refine ⟨qPow2_pos _, by positivity, zpow_le_zpow_right₀ (by norm_num) ?_⟩
    omega

theorem xLe_fin {a b : Q} (ha : 0 < a.d) (hb : 0 < b.d) : xLe (.fin a) (.fin b) = true ↔ a.rat ≤ b.rat := qLe_iff ha hb

/-- The BF16 scale: the next above the quotient, or the largest. -/
theorem qntScale_bf16 {q : Q} (hq : 0 < q.d) (hpos : 0 < q.rat) : let s := qntScale 0 q
    scaleVal 0 s.1 = some s.2.1 ∧ (q.rat ≤ s.2.1.rat ∨ s.2.1.rat = bf16.val bf16.top) := by
  have hge := roundQ_up_ge bf16 hq (by decide)
  have hne : q.n ≠ 0 := fun h => hpos.ne' ((rat_eq_zero hq).2 h)
  have hsign : decide (q.n < 0) = false := decide_eq_false fun h => hpos.not_gt ((rat_neg_iff hq).2 h)
  simp only [qntScale, if_true]
  rcases roundQ_cases bf16 (q := q) .up with ⟨neg, k, h, hk, -⟩ | ⟨h, -⟩
  · rw [h] at hge ⊢
    have hle := (xLe_fin hq (fpVal_pos bf16 neg k)).1 hge
    rw [rat_fpVal] at hle
    have hval : q.rat ≤ bf16.val k := by
      cases neg
      · exact hle
      · exact absurd (hpos.trans_le hle) (by simp [val_nonneg])
    have hk0 : k ≠ 0 := by
      rintro rfl
      rw [val_zero] at hval
      exact hval.not_gt hpos
    exact ⟨scaleVal_bf16 hk0 hk, .inl hval⟩
  · rw [h]
    exact ⟨scaleVal_bf16 (by decide) le_rfl, .inr rfl⟩

/-- The power-of-two scale. -/
theorem qntScale_pow2 {q : Q} (hq : 0 < q.d) (hpos : 0 < q.rat) : let s := qntScale 1 q
    scaleVal 1 s.1 = some s.2.1 ∧ (q.rat ≤ s.2.1.rat ∨ s.2.1.rat = 2 ^ (127 : Int)) := by
  have hn : 0 < q.n.natAbs := Int.natAbs_pos.2 fun h => hpos.ne' ((rat_eq_zero hq).2 h)
  obtain ⟨-, hlt⟩ := qLog2_spec hn hq
  rw [natAbs_div, abs_of_pos hpos] at hlt
  have hk : q.rat ≤ 2 ^ (if qEq q (qPow2 (qLog2 q.n.natAbs q.d)) then qLog2 q.n.natAbs q.d else qLog2 q.n.natAbs q.d + 1) := by
    split_ifs with h
    · rw [(qEq_iff hq (qPow2_pos _)).1 h, rat_qPow2]
    · exact hlt.le
  simp only [qntScale, Nat.one_ne_zero, if_false]
  generalize (if qEq q (qPow2 (qLog2 q.n.natAbs q.d)) then qLog2 q.n.natAbs q.d else qLog2 q.n.natAbs q.d + 1) = k at *
  split_ifs with hlow hhigh
  · refine ⟨rfl, .inl ?_⟩
    rw [rat_qPow2]
    exact hk.trans (zpow_le_zpow_right₀ (by norm_num) (by omega))
  · exact ⟨rfl, .inr (rat_qPow2 127)⟩
  · have h255 : (k + 127).toNat % 256 ≠ 255 := by omega
    have hback : (((k + 127).toNat % 256 : Nat) : Int) - 127 = k := by omega
    refine ⟨?_, .inl (by rw [rat_qPow2]; exact hk)⟩
    simp only [scaleVal, Nat.one_ne_zero, if_false, h255, hback]

/-- A block's scale: valid, and not below the quotient unless it is the largest (R142). -/
theorem qntScale_spec {scf : Nat} (h : scf < 2) {q : Q} (hq : 0 < q.d) (hpos : 0 < q.rat) : let s := qntScale scf q
    scaleVal scf s.1 = some s.2.1 ∧ (q.rat ≤ s.2.1.rat ∨ ∀ c w, scaleVal scf c = some w → qLe w s.2.1 = true) := by
  have hspec : let s := qntScale scf q
      scaleVal scf s.1 = some s.2.1 ∧ (q.rat ≤ s.2.1.rat ∨ s.2.1.rat = if scf = 0 then bf16.val bf16.top else 2 ^ (127 : Int)) := by
    interval_cases scf
    · exact qntScale_bf16 hq hpos
    · exact qntScale_pow2 hq hpos
  obtain ⟨hval, hcover⟩ := hspec
  refine ⟨hval, hcover.imp_right fun hmax c w hw => ?_⟩
  rw [qLe_iff (scaleVal_spec hw).1 (scaleVal_spec hval).1, hmax]
  exact (scaleVal_spec hw).2.2

end Sys2Proof.Machine
end

section
/-! What a block is quantised to (R142, R213). -/
namespace Sys2Proof.Machine

/-- A point that is a number. -/
def Fp.isFin : Fp → Bool
  | .fin _ _ => true
  | _ => false

theorem Fp.isFin_iff : ∀ {x : Fp}, x.isFin = true ↔ ∃ neg k, x = .fin neg k
  | .nan => by simp [Fp.isFin]
  | .inf _ => by simp [Fp.isFin]
  | .fin _ _ => by simp [Fp.isFin]

/-- The byte of a point under a block's scale. -/
def scaledByte (tgt : Nat) (s : Nat × Q × Bool) (bm : Q) (x : Fp) : Nat × Bool :=
  let r := qntByte tgt x (qDiv (fpQ fp32 x) s.2.1)
  (r.1, r.2 || (s.2.2 && qEq (ptMag x) bm))

section
variable (tgt scf : Nat) (pts : List Fp)

theorem qntBlock_eq : qntBlock tgt scf pts =
    if pts.any (fun x => !x.isFin) then (if scf = 0 then 0x7FC0 else 0xFF, pts.map fun _ => (qntNan tgt, false))
    else if (blockMax (qInt 0) pts).n = 0 then (if scf = 0 then 0x3F80 else 0x7F, pts.map fun _ => (0, false))
    else
      let s := qntScale scf (qDiv (blockMax (qInt 0) pts) (qntMax tgt))
      (s.1, pts.map (scaledByte tgt s (blockMax (qInt 0) pts))) := by
  have hbad : (pts.any fun x => match x with
      | .fin _ _ => false
      | _ => true) = pts.any fun x => !x.isFin := by
    congr 1
    funext x
    cases x <;> rfl
  rw [← hbad]
  rfl

theorem qntBlock_length : (qntBlock tgt scf pts).2.length = pts.length := by
  rw [qntBlock_eq]
  split_ifs <;> simp

/-- A point that is no number makes the whole block NaN. -/
theorem qntBlock_nan (h : ∃ x ∈ pts, ∀ neg k, x ≠ .fin neg k) :
    qntBlock tgt scf pts = (if scf = 0 then 0x7FC0 else 0xFF, pts.map fun _ => (qntNan tgt, false)) := by
  obtain ⟨x, hx, hne⟩ := h
  have hany : pts.any (fun x => !x.isFin) = true := by
    rw [List.any_eq_true]
    refine ⟨x, hx, ?_⟩
    have hno : ¬ x.isFin = true := fun h => by
      obtain ⟨neg, k, rfl⟩ := Fp.isFin_iff.1 h
      exact hne neg k rfl
    simpa using hno
  rw [qntBlock_eq, if_pos hany]

variable (hfin : ∀ x ∈ pts, ∃ neg k, x = .fin neg k)
include hfin

theorem any_not_isFin : ¬ pts.any (fun x => !x.isFin) = true := by
  simp only [List.any_eq_true, not_exists, not_and, Bool.not_eq_true', Bool.not_eq_false]
  exact fun x hx => Fp.isFin_iff.2 (hfin x hx)

/-- A block of zeros has a scale of one. -/
theorem qntBlock_zeros (h : ∀ x ∈ pts, (ptMag x).n = 0) : qntBlock tgt scf pts = (if scf = 0 then 0x3F80 else 0x7F, pts.map fun _ => (0, false)) := by
  obtain ⟨hd, -, -, hwit⟩ := blockMax_spec pts (m := qInt 0) Nat.one_pos
  have hzero : (blockMax (qInt 0) pts).n = 0 := by
    rw [← rat_eq_zero hd]
    rcases hwit with hw | ⟨x, hx, hw⟩
    · rw [hw, rat_qInt, Int.cast_zero]
    · rw [hw, rat_eq_zero (ptMag_pos x)]
      exact h x hx
  rw [qntBlock_eq, if_neg (any_not_isFin pts hfin), if_pos hzero]

variable (htgt : tgt < 3) (hscf : scf < 2) (hne : ∃ x ∈ pts, (ptMag x).n ≠ 0)
include htgt hscf hne

/-- Every other block has a valid scale that covers it, unless it is the largest, and each byte is the rounded quotient. -/
theorem qntBlock_scaled : ∃ sv, scaleVal scf (qntBlock tgt scf pts).1 = some sv ∧
    ((∀ x ∈ pts, qLe (ptMag x) (qMul sv (qntMax tgt)) = true) ∨ ∀ c w, scaleVal scf c = some w → qLe w sv = true) ∧
    ∀ j, j < pts.length → (nthD (0, false) (qntBlock tgt scf pts).2 j).1 = (qntByte tgt (nthD .nan pts j) (qDiv (fpQ fp32 (nthD .nan pts j)) sv)).1 := by
  obtain ⟨hd, -, hall, -⟩ := blockMax_spec pts (m := qInt 0) Nat.one_pos
  obtain ⟨hMd, hMn⟩ := qntMax_pos htgt
  have hM : 0 < (qntMax tgt).rat := div_pos (by exact_mod_cast hMn) (by exact_mod_cast hMd)
  have hbm : 0 < (blockMax (qInt 0) pts).rat := by
    obtain ⟨x, hx, hn⟩ := hne
    refine lt_of_lt_of_le ?_ (hall x hx)
    exact lt_of_le_of_ne (by rw [ptMag, rat_qAbs]; exact abs_nonneg _) (Ne.symm fun h => hn ((rat_eq_zero (ptMag_pos x)).1 h))
  have hbn : (blockMax (qInt 0) pts).n ≠ 0 := fun h => hbm.ne' ((rat_eq_zero hd).2 h)
  have hq : 0 < (qDiv (blockMax (qInt 0) pts) (qntMax tgt)).d := qDiv_pos hd hMn.ne'
  have hqpos : 0 < (qDiv (blockMax (qInt 0) pts) (qntMax tgt)).rat := by rw [rat_qDiv]; exact div_pos hbm hM
  obtain ⟨hval, hcover⟩ := qntScale_spec hscf hq hqpos
  rw [qntBlock_eq, if_neg (any_not_isFin pts hfin), if_neg hbn]
  refine ⟨_, hval, hcover.imp_left fun hle x hx => ?_, fun j hj => ?_⟩
  · rw [rat_qDiv, div_le_iff₀ hM] at hle
    rw [qLe_iff (ptMag_pos x) (qMul_pos (scaleVal_spec hval).1 hMd), rat_qMul]
    exact (hall x hx).trans hle
  · rw [nthD_map .nan (0, false) _ _ _ hj]
    rfl

end

/-! Dequantised bytes. -/

theorem dqntI_nai {tgt scf byte scale : Nat} (h : scaleVal scf scale = none ∨
    (if tgt = 0 then byte = 0x80 else fpOf (if tgt = 1 then e4m3 else e5m2) byte = .nan)) : dqntI tgt scf byte scale = .nai := by
  unfold dqntI
  cases hs : scaleVal scf scale with
  | none => rfl
  | some w =>
    rcases h with h | h
    · rw [hs] at h
      exact absurd h nofun
    · by_cases h0 : tgt = 0
      · rw [if_pos h0] at h
        simp only [h0, if_true, h]
        rfl
      · rw [if_neg h0] at h
        simp only [h0, if_false, h]

/-- A number and a valid scale give an interval that contains the product (R214). -/
theorem dqntI_has {tgt scf byte scale : Nat} {sv q : Q} (hs : scaleVal scf scale = some sv)
    (h : if tgt = 0 then mk8Val byte = some q else ∃ neg k, fpOf (if tgt = 1 then e4m3 else e5m2) byte = .fin neg k ∧ q = fpVal (if tgt = 1 then e4m3 else e5m2) neg k) :
    (x32Read (x32Write (dqntI tgt scf byte scale))).has (qMul q sv) := by
  have hpoint : 0 < q.d ∧ dqntI tgt scf byte scale = .mk (.fin (qMul q sv)) (.fin (qMul q sv)) := by
    unfold dqntI
    rw [hs]
    by_cases h0 : tgt = 0
    · rw [if_pos h0] at h
      simp only [h0, if_true, h]
      exact ⟨mk8Val_pos h, trivial⟩
    · rw [if_neg h0] at h
      obtain ⟨neg, k, hof, rfl⟩ := h
      simp only [h0, if_false, hof]
      exact ⟨fpVal_pos _ neg k, trivial⟩
  have hd : 0 < (qMul q sv).d := qMul_pos hpoint.1 (scaleVal_spec hs).1
  rw [hpoint.2, x32Read_x32Write (point_good hd)]
  exact outward_has (by decide) (point_good hd) hd (point_has _)

/-! The words. -/

theorem zip_findPos {α : Type} (dflt : α) : ∀ (ls : List Nat) (ys : List α), ls.Nodup → ys.length = ls.length →
    ls.zip ys = ls.map fun l => (l, nthD dflt ys (findPos (· == l) ls)) := by
  intro ls ys hnd hlen
  refine List.ext_getElem (by simp [hlen]) fun i h1 h2 => ?_
  have hi : i < ls.length := by simpa using h2
  simp only [List.getElem_zip, List.getElem_map, findPos_eq_idxOf, hnd.idxOf_getElem i hi]
  rw [nthD_eq_getElem dflt ys i (by omega)]

/-- What a word with one vector result, status bits and a trap does. -/
def TrappedWord (s : State) (h : VH) (d : Nat) (a : Opnd) (f : Nat → Word64 × Word64) (st : Nat → Word32 → Word32) (bad : List Nat) (o : Out) : Prop :=
  (trapNai s = false ∨ bad = [] → PairWord s h .i64 d (opRegs false a) (opLatches false a) f st o) ∧
    NaiTrap s (active s h) bad (opRegs false a) (opLatches false a) (PairEffect s h .i64 d (opLatches false a) f st) o

/-- The block that a qnt forms. -/
def qntOf (s : State) (h : VH) (tgt scf : Nat) (a : Opnd) : Nat × List (Nat × Bool) :=
  qntBlock tgt scf ((lanesOf (active s h)).map fun l => (narrowFp fp32 s.cg.nrm (rdIvl s .x32 a l 0)).1)

/-- A lane's byte of it. -/
def qntLane (s : State) (h : VH) (tgt scf : Nat) (a : Opnd) (l : Nat) : Nat × Bool :=
  nthD (0, false) (qntOf s h tgt scf a).2 (findPos (· == l) (lanesOf (active s h)))

theorem qnt_word (s : State) (h : VH) (tgt scf d : Nat) (a : Opnd) :
    TrappedWord s h d a (fun l => (BitVec.ofNat 64 ((qntOf s h tgt scf a).1 * 2 ^ 16 + (qntLane s h tgt scf a l).1), 0))
      (fun l w => orBit (rdIvl s .x32 a l 0).isNai bNAI (orBit (qntLane s h tgt scf a l).2 bSAT w))
      ((lanesOf (active s h)).filter fun l => (rdIvl s .x32 a l 0).isNai) (exec (.qnt h tgt scf d a) s) := by
  refine convWord (sat := fun l => (qntLane s h tgt scf a l).2) (nai := fun l => (rdIvl s .x32 a l 0).isNai) ?_
  have hzip : (lanesOf (active s h)).zip (qntOf s h tgt scf a).2 = vlanes (active s h) (qntLane s h tgt scf a) :=
    zip_findPos (0, false) _ _ (nodup_lanesOf _) ((qntBlock_length _ _ _).trans (by simp))
  have hexec : exec (.qnt h tgt scf d a) s = Res.out (do
      let s1 ← vpre s (active s h) (opRegs false a) (opLatches false a)
      let rs := (lanesOf (active s h)).zip (qntOf s h tgt scf a).2
      convStatus s (putVec s1 h.n [(d, rs.map fun r => (r.1, BitVec.ofNat 64 ((qntOf s h tgt scf a).1 * 2 ^ 16 + r.2.1)))])
        ((rs.filter fun r => r.2.2).map Prod.fst) ((lanesOf (active s h)).filter fun l => (rdIvl s .x32 a l 0).isNai)) := rfl
  rw [hexec, hzip]
  simp only [map_filter_vlanes (active s h) (qntLane s h tgt scf a) fun r => r.2]
  simp only [pairResult, vlanes, List.map_map, Function.comp_def]
  rfl

theorem dqnt_word (s : State) (h : VH) (tgt scf d : Nat) (a : Opnd) :
    let y (l : Nat) : Ivl := dqntI tgt scf ((rdOp s a l).toNat % 2 ^ 8) ((rdOp s a l).toNat / 2 ^ 16 % 2 ^ 16)
    TrappedWord s h d a (fun l => (x32Write (y l), 0)) (fun l w => orBit (y l).isNai bNAI w) ((lanesOf (active s h)).filter fun l => (y l).isNai)
      (exec (.dqnt h tgt scf d a) s) := by
  intro y
  refine convWord (sat := fun _ => false) (nai := fun l => (y l).isNai) ?_
  rw [List.filter_false]
  rfl

end Sys2Proof.Machine

open Sys2Proof Sys2Proof.Machine
/-- Settles O28: the words' effects are `cvt_word`, `cvt_ints`, `qnt_word` and `dqnt_word`; what the values are is `cvtOf_fields`,
`convertedIvl_has`, `cvtSlot_point`, the three cases of `qntBlock_eq`, and `dqntI_has`. -/
theorem conversions : Obligations.Conversions := by
  unfold Obligations.Conversions
  refine ⟨fun s h df sf part d a hdf _ => ?_, fun s h df sf d a hdf hsf => ?_, fun df sf nrm raw v q hq _ => ⟨fun h => convertedIvl_has h sf nrm raw hq,
    fun h hv => cvtSlot_point h sf nrm raw hq hv⟩, fun s h tgt scf d a _ _ => ⟨qnt_word s h tgt scf d a, dqnt_word s h tgt scf d a⟩,
    fun tgt scf byte scale pts htgt hscf _ => ?_⟩
  · intro pair cs cd wd regs lat act lo hi slot slots sat nai bad ty st hpart
    refine ⟨fun l => BitVec.ofNat 64 (cvtOf s df sf part d a l).1, fun l => cvtOf_fields s d a hdf hpart l, ?_⟩
    have hword := cvt_word s h df sf part d a
    simp only [cvtOf, cvtLane_eq] at hword ⊢
    exact hword
  · have hword := cvt_ints s h hdf hsf d a
    interval_cases df <;> exact hword
  · intro fmt mag number b
    refine ⟨qntBlock_length tgt scf pts, fun h => ?_, fun h => ?_, fun hnum hne => ?_, dqntI_nai, fun sv q hs h => dqntI_has hs h⟩
    · have hb : b = _ := qntBlock_nan tgt scf pts h
      rw [hb]
      refine ⟨rfl, fun r hr => ?_⟩
      obtain ⟨-, -, rfl⟩ := List.mem_map.1 hr
      interval_cases tgt <;> rfl
    · have hb : b = _ := qntBlock_zeros tgt scf pts (fun x hx => by obtain ⟨⟨neg, k, hk, -⟩, -⟩ := h x hx; exact ⟨neg, k, hk⟩) fun x hx => (h x hx).2
      rw [hb]
      refine ⟨rfl, fun r hr => ?_⟩
      obtain ⟨-, -, rfl⟩ := List.mem_map.1 hr
      rfl
    · exact qntBlock_scaled tgt scf pts (fun x hx => by obtain ⟨neg, k, hk, -⟩ := hnum x hx; exact ⟨neg, k, hk⟩) htgt hscf hne
end

section
/-! Memory forms (R143 to R145, R160): raw, pairs and points. -/
namespace Sys2Proof.Machine

/-! Raw values and pairs. -/

theorem loadForm_raw {ty : Ty} {v : Nat} (hv : v < 2 ^ (8 * formBytes ty 0)) :
    (loadForm ty 0 v).1.toNat + (if ty = .x64 then (loadForm ty 0 v).2.1.toNat * 2 ^ 64 else 0) = v ∧ (loadForm ty 0 v).2.2 = false := by
  cases ty <;> simp only [formBytes, loadForm, reduceCtorEq, if_false, if_true, BitVec.toNat_ofNat, and_true] at hv ⊢ <;> omega

theorem storeForm_raw (ty : Ty) (nrm : Nat) (a b : Word64) :
    (storeForm ty 0 nrm a b).1 = if ty = .x64 then a.toNat + b.toNat * 2 ^ 64 else a.toNat % 2 ^ (8 * formBytes ty 0) := by
  cases ty with
  | x64 => exact Nat.add_comm _ _
  | i32 | n32 | b32 => rfl
  | _ => exact (Nat.mod_eq_of_lt a.isLt).symm

/-- A datum of a finer format that stands for a number of this one is rounded to that number. -/
theorem fpXR_roundQ_same {f : Fmt} (hf : 0 < f.p) {neg : Bool} {k : Nat} (hk : k ≤ f.top) {q : Q} (hq : 0 < q.d) (hv : q.rat = (fpVal f neg k).rat) (r : Rnd) :
    fpXR f (roundQ f r q) = .fin (fpVal f neg k) := by
  rw [roundQ_fpVal f hf hq hk hv]
  rcases Nat.eq_zero_or_pos k with rfl | hpos
  · simp only [fpXR, fpVal_zero]
  · simp [fpXR, hpos.ne']

/-- A number of binary32 is one of binary64. -/
theorem fp64_of_fp32 {k : Nat} (hk : k ≤ fp32.top) (neg : Bool) (r : Rnd) :
    ∃ q, fpXR fp64 (roundQ fp64 r (fpVal fp32 neg k)) = .fin q ∧ 0 < q.d ∧ q.rat = (fpVal fp32 neg k).rat := by
  have hwide : fp32.val fp32.top ≤ fp64.val fp64.top := (qLe_iff (magVal_pos _ _) (magVal_pos _ _)).1 (by decide +kernel)
  obtain ⟨k', hk', hval, hround⟩ := roundQ_wider fp64 fp32 (by decide) (by decide) (by decide) (by decide) hwide (fpVal_pos fp32 neg k) hk rfl r
  refine ⟨fpVal fp64 (neg && decide (k ≠ 0)) k', by rw [hround]; rfl, fpVal_pos _ _ _, ?_⟩
  rw [rat_fpVal, rat_fpVal, hval]
  rcases Nat.eq_zero_or_pos k with rfl | hpos
  · simp [val_zero]
  · simp [hpos.ne']

theorem fpOf_fin_le {f : Fmt} {v : Nat} {neg : Bool} {k : Nat} (h : fpOf f v = .fin neg k) : k ≤ f.top := by
  unfold fpOf at h
  simp only at h
  split_ifs at h with htop
  obtain ⟨-, rfl⟩ := Fp.fin.inj h
  exact htop

/-- A lower bound of binary32 goes to binary64 and back. -/
theorem rdX_back {A : Fp} (hle : ∀ neg k, A = .fin neg k → k ≤ fp32.top) (hn : A ≠ .nan) (hi : A ≠ .inf false) :
    fpXR fp32 (rdX fp32 (fpXR fp64 (rdX fp64 (fpXR fp32 A)))) = fpXR fp32 A := by
  match A with
  | .nan => exact absurd rfl hn
  | .inf false => exact absurd rfl hi
  | .inf true => rfl
  | .fin neg k =>
    obtain ⟨q, h, hq, hv⟩ := fp64_of_fp32 (hle neg k rfl) neg .down
    simp only [fpXR, rdX] at h ⊢
    rw [h]
    exact fpXR_roundQ_same (by decide) (hle neg k rfl) hq hv .down

theorem ruX_back {A : Fp} (hle : ∀ neg k, A = .fin neg k → k ≤ fp32.top) (hn : A ≠ .nan) (hi : A ≠ .inf true) :
    fpXR fp32 (ruX fp32 (fpXR fp64 (ruX fp64 (fpXR fp32 A)))) = fpXR fp32 A := by
  match A with
  | .nan => exact absurd rfl hn
  | .inf true => exact absurd rfl hi
  | .inf false => rfl
  | .fin neg k =>
    obtain ⟨q, h, hq, hv⟩ := fp64_of_fp32 (hle neg k rfl) neg .up
    simp only [fpXR, ruX] at h ⊢
    rw [h]
    exact fpXR_roundQ_same (by decide) (hle neg k rfl) hq hv .up

theorem outward_good {f : Fmt} (hp : 0 < f.p) : ∀ {i : Ivl}, i.Good → (outward f i).Good
  | .nai, _ => trivial
  | .empty, _ => trivial
  | .mk _ _, h => ⟨fpXR_ok f _, fpXR_ok f _, outward_ordered hp h⟩

/-- An .x32 interval goes through binary64 unchanged. -/
theorem outward_fp64_fp32 (a : Word64) : outward fp32 (outward fp64 (x32Read a)) = x32Read a := by
  rcases ivlOf_cases fp32 (fpOf fp32 (lo32 a).toNat) (fpOf fp32 (hi32 a).toNat) with h | h | ⟨h, ha, ha', hb, hb', -⟩ <;> rw [x32Read, ivlBits, h]
  · rfl
  · rfl
  · simp only [outward, rdX_back (fun _ _ => fpOf_fin_le) ha ha', ruX_back (fun _ _ => fpOf_fin_le) hb hb']

/-- The pair form (R143, R144). -/
theorem storeForm_pair (nrm : Nat) (a b : Word64) :
    let w := (storeForm .x32 1 nrm a b).1
    ivlBits fp64 (w % 2 ^ 64) (w / 2 ^ 64) = outward fp64 (x32Read a) ∧ x32Read (loadForm .x32 1 w).1 = x32Read a := by
  have hpack := ivlBits_packed fp64_ok (by decide) (by decide) (x32Read_good a)
  refine ⟨hpack, ?_⟩
  have hload : (loadForm .x32 1 (storeForm .x32 1 nrm a b).1).1 = x32Write (outward fp64 (x32Read a)) := congrArg x32Write hpack
  rw [hload, x32Read_x32Write (outward_good (by decide) (x32Read_good a)), outward_fp64_fp32]

/-! Points read. -/

/-- The bits of a finite datum. -/
theorem fpOf_fin_bits {f : Fmt} (hw : 0 < f.w) {v : Nat} (hv : v < 2 ^ f.w) {neg : Bool} {k : Nat} (h : fpOf f v = .fin neg k) :
    v = (if neg then 2 ^ (f.w - 1) else 0) + k := by
  have hpow : 2 ^ f.w = 2 * 2 ^ (f.w - 1) := by rw [← pow_succ', Nat.sub_add_cancel hw]
  unfold fpOf at h
  simp only at h
  split_ifs at h with htop
  obtain ⟨rfl, rfl⟩ := Fp.fin.inj h
  have hdm := Nat.div_add_mod v (2 ^ (f.w - 1))
  have hdiv : v / 2 ^ (f.w - 1) < 2 := Nat.div_lt_of_lt_mul (by omega)
  generalize v / 2 ^ (f.w - 1) = t at *
  obtain rfl | rfl : t = 0 ∨ t = 1 := by omega
  · simp only [Nat.zero_mod, Nat.zero_ne_one, decide_false, Bool.false_eq_true, if_false]
    omega
  · simp only [Nat.mod_eq_of_lt (by norm_num : 1 < 2), decide_true, if_true]
    omega

/-- A point interval as it is written. -/
theorem x32Write_point {q : Q} {neg : Bool} {k : Nat} (h : ∀ r, roundQ fp32 r q = .fin (neg && decide (k ≠ 0)) k) :
    x32Write (.mk (.fin q) (.fin q)) = if k = 0 then 0 else BitVec.ofNat 64 (((if neg then 2 ^ 31 else 0) + k) * 2 ^ 32 + ((if neg then 2 ^ 31 else 0) + k)) := by
  have hbits : fpBits fp32 (.fin (neg && decide (k ≠ 0)) k) = if k = 0 then 0 else (if neg then 2 ^ 31 else 0) + k := by
    by_cases hk : k = 0
    · simp [fpBits, hk]
    · simp only [fpBits, hk, if_false, ne_eq, not_false_eq_true, decide_true, Bool.and_true]
      rfl
  simp only [x32Write, ivlWrite, rdX, ruX, h, hbits]
  split_ifs <;> rfl

theorem loadForm_fp32 {v : Nat} (hv : v < 2 ^ 32) : match fpOf fp32 v with
    | .nan => loadForm .x32 3 v = (x32Write .nai, 0, true)
    | .inf neg => loadForm .x32 3 v = (if neg then 0xFF7FFFFFFF800000 else 0x7F8000007F7FFFFF, 0, false)
    | .fin _ k => loadForm .x32 3 v = (if k = 0 then 0 else BitVec.ofNat 64 (v * 2 ^ 32 + v), 0, false) := by
  have hload : loadForm .x32 3 v = (x32Write (ptIvl fp32 (fpOf fp32 v)), 0, (ptIvl fp32 (fpOf fp32 v)).isNai) := rfl
  cases h : fpOf fp32 v with
  | nan => simp only [hload, h]; rfl
  | inf neg =>
    simp only [hload, h]
    cases neg
    · exact congrArg (·, 0, false) (by decide +kernel)
    · exact congrArg (·, 0, false) (by decide +kernel)
  | fin neg k =>
    simp only [hload, h]
    have hbits := fpOf_fin_bits (f := fp32) (by decide) hv h
    have hk := fpOf_fin_le h
    refine congrArg (·, 0, false) ((x32Write_point fun r => roundQ_fpVal fp32 (by decide) (fpVal_pos fp32 neg k) hk rfl r).trans ?_)
    rw [hbits]
    rfl

end Sys2Proof.Machine
end

section
/-! Memory forms of points: BF16 and MK8 read, points and MK8 written (R139, R140, R145, R160). -/
namespace Sys2Proof.Machine

/-- A format with m more significand bits gives the same numbers to codes m places longer. -/
theorem val_longer {f g : Fmt} {m : Nat} (hp : f.p - 1 = g.p - 1 + m) (hbias : f.bias = g.bias) (k : Nat) : f.val (k * 2 ^ m) = g.val k := by
  obtain ⟨t, j, rfl, hj, ht⟩ := exists_code g k
  have hpow : 2 ^ (f.p - 1) = 2 ^ (g.p - 1) * 2 ^ m := by rw [hp, pow_add]
  have hj' : j * 2 ^ m ≤ 2 * 2 ^ (f.p - 1) := by rw [hpow, ← Nat.mul_assoc]; exact Nat.mul_le_mul_right _ hj.le
  have ht' : t = 0 ∨ 2 ^ (f.p - 1) ≤ j * 2 ^ m := ht.imp_right fun h => by rw [hpow]; exact Nat.mul_le_mul_right _ h
  have htiny : f.tiny = g.tiny - m := by simp only [Fmt.tiny, hbias]; omega
  rw [Nat.add_mul, Nat.mul_assoc, ← hpow, val_code f hj' ht', val_code g hj.le ht, htiny, ← add_sub_assoc, zpow_sub₀ (by norm_num), zpow_natCast]
  push_cast
  field_simp

/-- A BF16 number as it is rounded into binary32. -/
theorem roundQ_bf16 {k : Nat} (hk : k ≤ bf16.top) (neg : Bool) (r : Rnd) : roundQ fp32 r (fpVal bf16 neg k) = .fin (neg && decide (k * 2 ^ 16 ≠ 0)) (k * 2 ^ 16) := by
  have htop : k * 2 ^ 16 ≤ fp32.top := (Nat.mul_le_mul_right _ hk).trans (by decide)
  refine roundQ_fpVal fp32 (by decide) (fpVal_pos bf16 neg k) htop ?_ r
  rw [rat_fpVal, rat_fpVal, val_longer (f := fp32) (g := bf16) rfl rfl]

theorem loadForm_bf16 {v : Nat} (hv : v < 2 ^ 16) : match fpOf bf16 v with
    | .nan => loadForm .x32 5 v = (x32Write .nai, 0, true)
    | .inf neg => loadForm .x32 5 v = (if neg then 0xFF7F0000FF800000 else 0x7F8000007F7F0000, 0, false)
    | .fin _ k => loadForm .x32 5 v = (if k = 0 then 0 else BitVec.ofNat 64 (v * 2 ^ 48 + v * 2 ^ 16), 0, false) := by
  have hload : loadForm .x32 5 v = (x32Write (ptIvl bf16 (fpOf bf16 v)), 0, (ptIvl bf16 (fpOf bf16 v)).isNai) := rfl
  cases h : fpOf bf16 v with
  | nan => simp only [hload, h]; rfl
  | inf neg =>
    simp only [hload, h]
    cases neg
    · exact congrArg (·, 0, false) (by decide +kernel)
    · exact congrArg (·, 0, false) (by decide +kernel)
  | fin neg k =>
    simp only [hload, h]
    have hbits := fpOf_fin_bits (f := bf16) (by decide) hv h
    refine congrArg (·, 0, false) ((x32Write_point fun r => roundQ_bf16 (fpOf_fin_le h) neg r).trans ?_)
    have hz : k * 2 ^ 16 = 0 ↔ k = 0 := by omega
    have hword : ((if neg then 2 ^ 31 else 0) + k * 2 ^ 16) * 2 ^ 32 + ((if neg then 2 ^ 31 else 0) + k * 2 ^ 16) = v * 2 ^ 48 + v * 2 ^ 16 := by
      rw [hbits, show bf16.w - 1 = 15 from rfl]
      cases neg <;> simp <;> omega
    simp only [hz, hword]

/-- An MK8 byte read (R140). -/
theorem loadForm_mk8 (v : Nat) : match mk8Val v with
    | none => loadForm .x32 4 v = (x32Write .nai, 0, true)
    | some q => loadForm .x32 4 v = (x32Write (.mk (.fin q) (.fin q)), 0, false) ∧ (x32Read (loadForm .x32 4 v).1).has q := by
  have hload : loadForm .x32 4 v = (x32Write (mk8Ivl v), 0, (mk8Ivl v).isNai) := rfl
  cases h : mk8Val v with
  | none => simp only [hload, mk8Ivl, h]; rfl
  | some q =>
    have hq := mk8Val_pos h
    simp only [hload, mk8Ivl, h]
    refine ⟨rfl, ?_⟩
    rw [x32Read_x32Write (point_good hq)]
    exact outward_has (by decide) (point_good hq) hq (point_has q)

/-! Points written. -/

/-- The point that a narrowed interval is, where the format has infinities (R160). -/
def narrowed (f : Fmt) (nrm : Nat) (x : Ivl) : Fp := match x, nrm with
  | .mk (.fin l) _, 0 => roundQ f .down l
  | .mk _ _, 0 => .inf true
  | .mk _ (.fin h), 1 => roundQ f .up h
  | .mk _ _, 1 => .inf false
  | .mk (.fin l) (.fin h), 2 => roundQ f .near (qMul (qAdd l h) ⟨1, 2⟩)
  | .mk (.fin l) (.fin h), _ => roundQ f .zero (qMul (qAdd l h) ⟨1, 2⟩)
  | .mk .ninf (.fin _), _ => .fin true f.top
  | .mk (.fin _) .pinf, _ => .fin false f.top
  | .mk _ _, _ => .fin false 0
  | _, _ => .nan

theorem ptFp_near {f : Fmt} (hf : f.inf = true) (q : Q) : ptFp f (.val (.fin q) .near) = (roundQ f .near q, false) := by
  simp only [ptFp, hf, if_true]
  cases hr : roundQ f .near q <;> simp

theorem ptFp_toward {f : Fmt} (hf : f.inf = true) (q : Q) : ptFp f (.val (.fin q) .zero) = (roundQ f .zero q, false) := by
  simp only [ptFp, hf, if_true]
  cases hr : roundQ f .zero q with
  | nan => rfl
  | inf neg => exact absurd hr (roundQ_toward_ne f neg)
  | fin neg k => rfl

/-- An interval's bounds are not the infinities of the other side. -/
def Ivl.Bounds : Ivl → Prop
  | .mk lo hi => lo ≠ .pinf ∧ hi ≠ .ninf
  | _ => True

theorem fpXR_ne_pinf {f : Fmt} : ∀ {x : Fp}, x ≠ .nan → x ≠ .inf false → fpXR f x ≠ .pinf
  | .nan, h, _ => absurd rfl h
  | .inf true, _, _ => nofun
  | .inf false, _, h => absurd rfl h
  | .fin _ _, _, _ => nofun

theorem fpXR_ne_ninf {f : Fmt} : ∀ {x : Fp}, x ≠ .nan → x ≠ .inf true → fpXR f x ≠ .ninf
  | .nan, h, _ => absurd rfl h
  | .inf false, _, _ => nofun
  | .inf true, _, h => absurd rfl h
  | .fin _ _, _, _ => nofun

theorem x32Read_bounds (a : Word64) : (x32Read a).Bounds := by
  rcases ivlOf_cases fp32 (fpOf fp32 (lo32 a).toNat) (fpOf fp32 (hi32 a).toNat) with h | h | ⟨h, ha, ha', hb, hb', -⟩ <;> rw [x32Read, ivlBits, h]
  · trivial
  · trivial
  · exact ⟨fpXR_ne_pinf ha ha', fpXR_ne_ninf hb hb'⟩

theorem narrowFp_eq {f : Fmt} (hf : f.inf = true) (nrm : Nat) : ∀ {x : Ivl}, x.Bounds → (narrowFp f nrm x).1 = narrowed f nrm x
  | .nai, _ => rfl
  | .empty, _ => rfl
  | .mk lo hi, ⟨hlo, hhi⟩ => by
    match nrm with
    | 0 => cases lo with
      | fin l => exact congrArg Prod.fst (ptFp_down hf l)
      | ninf => simp [narrowFp, narrow, ptFp, hf, narrowed]
      | pinf => exact absurd rfl hlo
    | 1 => cases hi with
      | fin h => cases lo <;> exact congrArg Prod.fst (ptFp_up hf h)
      | pinf => cases lo <;> simp [narrowFp, narrow, ptFp, hf, narrowed]
      | ninf => exact absurd rfl hhi
    | n + 2 =>
      have hzero : (ptFp f (.val xZero .near)).1 = .fin false 0 := congrArg Prod.fst (ptFp_near hf _)
      cases lo with
      | pinf => exact absurd rfl hlo
      | ninf => cases hi with
        | ninf => exact absurd rfl hhi
        | pinf => exact hzero
        | fin h => rfl
      | fin l => cases hi with
        | ninf => exact absurd rfl hhi
        | pinf => cases n <;> rfl
        | fin h =>
          match n with
          | 0 => exact congrArg Prod.fst (ptFp_near hf _)
          | n + 1 => exact congrArg Prod.fst (ptFp_toward hf _)

theorem storeForm_point (nrm : Nat) (a b : Word64) :
    (storeForm .x32 3 nrm a b).1 = fpBits fp32 (narrowed fp32 nrm (x32Read a)) ∧ (storeForm .x32 5 nrm a b).1 = fpBits bf16 (narrowed bf16 nrm (x32Read a)) ∧
      storeForm .x32 4 nrm a b = mk8OfFp32 (narrowed fp32 nrm (x32Read a)) := by
  have h32 := narrowFp_eq fp32_ok.inf nrm (x32Read_bounds a)
  exact ⟨congrArg (fpBits fp32) h32, congrArg (fpBits bf16) (narrowFp_eq bf16_ok.inf nrm (x32Read_bounds a)), congrArg mk8OfFp32 h32⟩

end Sys2Proof.Machine
end

section
/-! The MK8 byte of a value (R137, R139). -/
namespace Sys2Proof.Machine

/-- The number of an MK8 body. -/
def mk8Num (b : Nat) : ℚ := (mk8Mag b).rat

theorem mk8Num_zero : mk8Num 0 = 0 := rat_qInt 0

theorem mk8Num_succ {b : Nat} (h : b < 127) : mk8Num b < mk8Num (b + 1) := by
  have hall : ∀ b < 127, qLt (mk8Mag b) (mk8Mag (b + 1)) = true := by decide +kernel
  exact (qLt_iff (mk8Mag_pos _) (mk8Mag_pos _)).1 (hall b h)

/-- The bodies' numbers rise. -/
theorem mk8Num_lt {b c : Nat} (h : b < c) (hc : c ≤ 127) : mk8Num b < mk8Num c := by
  induction c, h using Nat.le_induction with
  | base => exact mk8Num_succ (by omega)
  | succ c h ih => exact (ih (by omega)).trans (mk8Num_succ (by omega))

theorem mk8Num_le {b c : Nat} (h : b ≤ c) (hc : c ≤ 127) : mk8Num b ≤ mk8Num c := by
  rcases h.eq_or_lt with rfl | h
  · exact le_rfl
  · exact (mk8Num_lt h hc).le

/-- A body whose search window is n bodies wide. -/
def InWindow (x : ℚ) (n b : Nat) : Prop := b + n ≤ 128 ∧ mk8Num b ≤ x ∧ (b + n < 128 → x < mk8Num (b + n))

theorem InWindow.half {x : Q} (hx : 0 < x.d) {k b : Nat} (h : InWindow x.rat (k + k) b) (hk : 0 < k) :
    InWindow x.rat k (if qLe (mk8Mag (b + k)) x then b + k else b) := by
  obtain ⟨hle, hlow, hhigh⟩ := h
  have htest := qLe_iff (mk8Mag_pos (b + k)) hx
  split_ifs with hq
  · exact ⟨by omega, htest.1 hq, fun hlt => by rw [Nat.add_assoc] at hlt ⊢; exact hhigh hlt⟩
  · exact ⟨by omega, hlow, fun _ => lt_of_not_ge fun hge => hq (htest.2 hge)⟩

/-- The search finds the body at or below a magnitude. -/
theorem mk8Floor_spec {x : Q} (hx : 0 < x.d) (h0 : 0 ≤ x.rat) : InWindow x.rat 1 (mk8Floor x) := by
  have hstart : InWindow x.rat (64 + 64) 0 := ⟨le_rfl, by rw [mk8Num_zero]; exact h0, fun h => absurd h (lt_irrefl _)⟩
  have h32 := ((hstart.half hx (by norm_num)).half (k := 32) hx (by norm_num)).half (k := 16) hx (by norm_num)
  have h4 := ((h32.half (k := 8) hx (by norm_num)).half (k := 4) hx (by norm_num)).half (k := 2) hx (by norm_num)
  exact h4.half (k := 1) hx (by norm_num)

/-- The body nearest to a magnitude: ties go to the even one. -/
def mk8Near (a : Q) : Nat :=
  let b := mk8Floor a
  if b = 127 then 127
  else
    let d := qSub a (mk8Mag b)
    let u := qSub (mk8Mag (b + 1)) a
    if qLt d u then b else if qLt u d then b + 1 else if b % 2 = 0 then b else b + 1

theorem mk8Of_fin (neg : Bool) (k : Nat) (x : Q) : mk8Of (.fin neg k) x =
    if qLt (mk8Mag 127) (qAbs x) then (if x.n < 0 then 255 else 127, true)
    else (if mk8Near (qAbs x) = 0 then 0 else if x.n < 0 then 128 + mk8Near (qAbs x) else mk8Near (qAbs x), false) := rfl

/-- The body that is not farther than its neighbour on the other side of a magnitude is nearest of all. -/
theorem mk8_nearest {b k o : Nat} {x : ℚ} (hb : b < 127) (h1 : mk8Num b ≤ x) (h2 : x < mk8Num (b + 1)) (hko : k = b ∧ o = b + 1 ∨ k = b + 1 ∧ o = b)
    (hle : |mk8Num k - x| ≤ |mk8Num o - x|) (htie : |mk8Num o - x| ≤ |mk8Num k - x| → k % 2 = 0) {j : Nat} (hj : j ≤ 127) :
    |mk8Num k - x| ≤ |mk8Num j - x| ∧ (j ≠ k → |mk8Num j - x| ≤ |mk8Num k - x| → k % 2 = 0) := by
  have hb0 : |mk8Num b - x| = x - mk8Num b := by rw [abs_sub_comm, abs_of_nonneg (by linarith)]
  have hb1 : |mk8Num (b + 1) - x| = mk8Num (b + 1) - x := abs_of_pos (by linarith)
  have hk : |mk8Num k - x| ≤ |mk8Num b - x| ∧ |mk8Num k - x| ≤ |mk8Num (b + 1) - x| := by
    rcases hko with ⟨rfl, rfl⟩ | ⟨rfl, rfl⟩
    · exact ⟨le_rfl, hle⟩
    · exact ⟨hle, le_rfl⟩
  -- a body beyond a neighbour is farther than that neighbour
  have hfar : j ≠ b → j ≠ b + 1 → |mk8Num k - x| < |mk8Num j - x| := by
    intro hjb hjb1
    rcases (by omega : j < b ∨ b + 1 < j) with h | h
    · have := mk8Num_lt h (by omega)
      refine hk.1.trans_lt ?_
      rw [hb0, abs_of_neg (by linarith)]
      linarith
    · have := mk8Num_lt h hj
      refine hk.2.trans_lt ?_
      rw [hb1, abs_of_pos (by linarith)]
      linarith
  by_cases hjk : j = k
  · exact ⟨by rw [hjk], fun h => absurd hjk h⟩
  · by_cases hjo : j = o
    · exact ⟨by rw [hjo]; exact hle, fun _ h => htie (hjo ▸ h)⟩
    · have := hfar (by omega) (by omega)
      exact ⟨this.le, fun _ h => absurd h (not_le.2 this)⟩

theorem mk8Near_spec {x : Q} (hx : 0 < x.d) (h0 : 0 ≤ x.rat) (htop : x.rat ≤ mk8Num 127) : mk8Near x ≤ 127 ∧
    ∀ j, j ≤ 127 → |mk8Num (mk8Near x) - x.rat| ≤ |mk8Num j - x.rat| ∧
      (j ≠ mk8Near x → |mk8Num j - x.rat| ≤ |mk8Num (mk8Near x) - x.rat| → mk8Near x % 2 = 0) := by
  obtain ⟨hle, hlow, hhigh⟩ := mk8Floor_spec hx h0
  simp only [mk8Near]
  generalize mk8Floor x = b at *
  by_cases hb : b = 127
  · subst hb
    rw [if_pos rfl, le_antisymm htop hlow, sub_self, abs_zero]
    refine ⟨le_rfl, fun j hj => ⟨abs_nonneg _, fun hne h => ?_⟩⟩
    have := mk8Num_lt (lt_of_le_of_ne hj hne) le_rfl
    rw [abs_of_neg (by linarith)] at h
    linarith
  · have hb' : b < 127 := by omega
    have hx2 := hhigh (by omega)
    have hd : 0 < (qSub x (mk8Mag b)).d := qSub_pos hx (mk8Mag_pos b)
    have hu : 0 < (qSub (mk8Mag (b + 1)) x).d := qSub_pos (mk8Mag_pos _) hx
    have hb0 : (qSub x (mk8Mag b)).rat = |mk8Num b - x.rat| := by rw [rat_qSub hx (mk8Mag_pos b), abs_sub_comm, abs_of_nonneg (sub_nonneg.2 hlow)]; rfl
    have hb1 : (qSub (mk8Mag (b + 1)) x).rat = |mk8Num (b + 1) - x.rat| := by rw [rat_qSub (mk8Mag_pos _) hx, abs_of_pos (sub_pos.2 hx2)]; rfl
    have hnear {k o : Nat} (hko : k = b ∧ o = b + 1 ∨ k = b + 1 ∧ o = b) (hle : |mk8Num k - x.rat| ≤ |mk8Num o - x.rat|)
        (htie : |mk8Num o - x.rat| ≤ |mk8Num k - x.rat| → k % 2 = 0) := fun j (hj : j ≤ 127) => mk8_nearest hb' hlow hx2 hko hle htie hj
    simp only [if_neg hb, qLt_iff hd hu, qLt_iff hu hd, hb0, hb1]
    split_ifs with hc1 hc2 hev
    · exact ⟨by omega, hnear (.inl ⟨rfl, rfl⟩) hc1.le fun h => absurd h (not_le.2 hc1)⟩
    · exact ⟨by omega, hnear (.inr ⟨rfl, rfl⟩) hc2.le fun h => absurd h (not_le.2 hc2)⟩
    · exact ⟨by omega, hnear (.inl ⟨rfl, rfl⟩) (not_lt.1 hc2) fun _ => hev⟩
    · exact ⟨by omega, hnear (.inr ⟨rfl, rfl⟩) (not_lt.1 hc1) fun _ => by omega⟩

/-! Values of either sign. -/

/-- The byte of a body and a sign. -/
def mk8Byte (neg : Bool) (k : Nat) : Nat := if k = 0 then 0 else if neg then 128 + k else k

/-- The bytes that have a value, and their values. -/
theorem mk8Val_some {c : Nat} (hc : c < 256) {u : Q} (h : mk8Val c = some u) :
    ∃ neg k, k ≤ 127 ∧ (k = 0 → neg = false) ∧ c = mk8Byte neg k ∧ 0 < u.d ∧ u.rat = if neg then -mk8Num k else mk8Num k := by
  have hd := mk8Val_pos h
  unfold mk8Val at h
  split_ifs at h with h1 h2
  · refine ⟨true, c - 128, by omega, by omega, by simp only [mk8Byte, if_true]; split_ifs <;> omega, hd, ?_⟩
    rw [← Option.some.inj h, rat_qNeg]
    rfl
  · refine ⟨false, c, by omega, fun _ => rfl, by simp [mk8Byte], hd, ?_⟩
    rw [← Option.some.inj h]
    rfl

theorem mk8Val_byte {neg : Bool} {k : Nat} (hk : k ≤ 127) : mk8Byte neg k < 256 ∧ mk8Byte neg k % 2 = k % 2 ∧
    ∃ u, mk8Val (mk8Byte neg k) = some u ∧ 0 < u.d ∧ u.rat = if neg then -mk8Num k else mk8Num k := by
  have hbyte : mk8Byte neg k ≠ 128 ∧ mk8Byte neg k < 256 ∧ mk8Byte neg k % 2 = k % 2 := by
    unfold mk8Byte
    split_ifs <;> omega
  obtain ⟨u, hu⟩ : ∃ u, mk8Val (mk8Byte neg k) = some u := by
    unfold mk8Val
    split_ifs with h1
    · exact absurd h1 hbyte.1
    · exact ⟨_, rfl⟩
    · exact ⟨_, rfl⟩
  obtain ⟨neg', k', hk', h0, he, hd, hr⟩ := mk8Val_some hbyte.2.1 hu
  refine ⟨hbyte.2.1, hbyte.2.2, u, hu, hd, hr.trans ?_⟩
  have hkk : k' = k ∧ (k ≠ 0 → neg' = neg) := by
    revert he
    unfold mk8Byte
    cases neg <;> cases neg' <;> simp <;> split_ifs <;> omega
  obtain ⟨rfl, hneg⟩ := hkk
  by_cases hz : k' = 0
  · simp [hz, mk8Num_zero]
  · rw [hneg hz]

/-- The distance of a value from a number, by the magnitudes: values of the other sign are farther than zero. -/
theorem mk8_distance {sgn neg : Bool} {j : Nat} {q u : ℚ} (hq : q = if sgn then -|q| else |q|) (hu : u = if neg then -mk8Num j else mk8Num j) (hj : j ≤ 127) :
    ((j = 0 ∨ neg = sgn) → |u - q| = |mk8Num j - (|q|)|) ∧ (j ≠ 0 → neg ≠ sgn → |q| < |u - q|) := by
  have hneg (x y : ℚ) : |-x - -y| = |x - y| := by rw [neg_sub_neg, abs_sub_comm]
  constructor
  · rintro (rfl | rfl)
    · rw [mk8Num_zero, neg_zero, ite_self] at hu
      rw [hu, mk8Num_zero, zero_sub, zero_sub, abs_neg, abs_neg, abs_abs]
    · cases neg
      · simp only [Bool.false_eq_true, if_false] at hq hu
        rw [hu, ← hq]
      · simp only [if_true] at hq hu
        rw [hu]
        conv_lhs => rw [hq]
        exact hneg _ _
  · intro h0 hne
    have hpos : 0 < mk8Num j := mk8Num_zero ▸ mk8Num_lt (Nat.pos_of_ne_zero h0) hj
    have := abs_nonneg q
    cases neg <;> cases sgn <;> simp only [ne_eq, not_true_eq_false, if_true, if_false, Bool.false_eq_true] at hne hq hu
    · rw [hu, abs_of_pos (by linarith : 0 < mk8Num j - q)]
      linarith
    · rw [hu, abs_of_neg (by linarith : -mk8Num j - q < 0)]
      linarith

theorem mk8Byte_inj {neg neg' : Bool} {k : Nat} (h : k = 0 ∨ neg = neg') : mk8Byte neg k = mk8Byte neg' k := by
  rcases h with rfl | rfl <;> rfl

/-- A number within range is written as the nearest MK8 value, of two equally near ones the even (R139). -/
theorem mk8Of_nearest {neg : Bool} {k : Nat} {q : Q} (hq : 0 < q.d) (hle : |q.rat| ≤ mk8Num 127) :
    ∃ w, mk8Of (.fin neg k) q = (w, false) ∧ w < 256 ∧ ∃ u, mk8Val w = some u ∧ ∀ c u', c < 256 → mk8Val c = some u' →
      qLe (qAbs (qSub u q)) (qAbs (qSub u' q)) = true ∧ (c ≠ w → qLe (qAbs (qSub u' q)) (qAbs (qSub u q)) = true → w % 2 = 0) := by
  have ha : 0 < (qAbs q).d := hq
  have habs : (qAbs q).rat = |q.rat| := rat_qAbs q
  have hnot : ¬ qLt (mk8Mag 127) (qAbs q) = true := by
    rw [qLt_iff (mk8Mag_pos _) ha, habs]
    exact not_lt.2 hle
  obtain ⟨hk, hnear⟩ := mk8Near_spec ha (by rw [habs]; exact abs_nonneg _) (by rw [habs]; exact hle)
  rw [habs] at hnear
  have hw : mk8Of (.fin neg k) q = (mk8Byte (decide (q.n < 0)) (mk8Near (qAbs q)), false) := by
    rw [mk8Of_fin, if_neg hnot, mk8Byte]
    simp only [decide_eq_true_eq]
  have hsign : q.rat = if decide (q.n < 0) then -|q.rat| else |q.rat| := by
    by_cases hn : q.n < 0
    · simp [hn, abs_of_neg ((rat_neg_iff hq).2 hn)]
    · simp [hn, abs_of_nonneg (not_lt.1 (mt (rat_neg_iff hq).1 hn))]
  obtain ⟨hlt, hpar, u, hu, hud, hur⟩ := mk8Val_byte (neg := decide (q.n < 0)) hk
  refine ⟨_, hw, hlt, u, hu, fun c u' hc hcu => ?_⟩
  obtain ⟨neg', j, hj, -, hcb, hud', hur'⟩ := mk8Val_some hc hcu
  have hrat {v : Q} (hv : 0 < v.d) : 0 < (qAbs (qSub v q)).d ∧ (qAbs (qSub v q)).rat = |v.rat - q.rat| :=
    ⟨qSub_pos hv hq, by rw [rat_qAbs, rat_qSub hv hq]⟩
  rw [qLe_iff (hrat hud).1 (hrat hud').1, qLe_iff (hrat hud').1 (hrat hud).1, (hrat hud).2, (hrat hud').2, hpar]
  rw [(mk8_distance hsign hur hk).1 (.inr rfl)]
  obtain ⟨hsame, hother⟩ := mk8_distance hsign hur' hj
  by_cases hs : j = 0 ∨ neg' = decide (q.n < 0)
  · rw [hsame hs]
    refine ⟨(hnear j hj).1, fun hne h => (hnear j hj).2 (fun he => hne ?_) h⟩
    rw [hcb, he]
    exact mk8Byte_inj (he ▸ hs)
  · have hfar := hother (fun h => hs (.inl h)) fun h => hs (.inr h)
    have hzero := (hnear 0 (by norm_num)).1
    rw [mk8Num_zero, zero_sub, abs_neg, abs_abs] at hzero
    exact ⟨hzero.trans hfar.le, fun _ h => absurd h (not_le.2 (hzero.trans_lt hfar))⟩

/-- One beyond the greatest MK8 value saturates. -/
theorem mk8Of_saturates {neg : Bool} {k : Nat} (h : mk8Num 127 < |(fpVal fp32 neg k).rat|) :
    mk8Of (.fin neg k) (fpVal fp32 neg k) = (if neg then 255 else 127, true) := by
  have hq := fpVal_pos fp32 neg k
  have ha : 0 < (qAbs (fpVal fp32 neg k)).d := hq
  have hlt : qLt (mk8Mag 127) (qAbs (fpVal fp32 neg k)) = true := by
    rw [qLt_iff (mk8Mag_pos _) ha, rat_qAbs]
    exact h
  have hsign : (fpVal fp32 neg k).n < 0 ↔ neg = true := by
    have h0 : 0 ≤ mk8Num 127 := mk8Num_zero ▸ mk8Num_le (Nat.zero_le _) le_rfl
    have hnn := val_nonneg fp32 k
    rw [← rat_neg_iff hq]
    rw [rat_fpVal] at h ⊢
    cases neg
    · simp [hnn]
    · simp only [if_true, abs_neg, abs_of_nonneg hnn] at h ⊢
      simp [h0.trans_lt h]
  rw [mk8Of_fin, if_pos hlt]
  simp only [hsign]

end Sys2Proof.Machine
end

section
/-! cm words: a midpoint of 16 significand bits and a radius code (R146, R147). -/
namespace Sys2Proof.Machine

/-! Loading. -/

/-- The midpoint of a cm word, as binary32. -/
theorem cm_midpoint {v : Nat} (hv : v < 2 ^ 32) : fpOf fp32 (v / 256 * 256) =
    if v / 2 ^ 23 % 2 ^ 8 ≠ 255 then .fin (decide (2 ^ 31 ≤ v)) (v % 2 ^ 31 / 2 ^ 8 * 2 ^ 8)
    else if v / 2 ^ 8 % 2 ^ 15 = 0 then .inf (decide (2 ^ 31 ≤ v)) else .nan := by
  have hsplit : v / 256 * 256 = (if decide (2 ^ 31 ≤ v) then 2 ^ (fp32.w - 1) else 0) + v % 2 ^ 31 / 2 ^ 8 * 2 ^ 8 := by
    simp only [decide_eq_true_eq, show fp32.w - 1 = 31 from rfl]
    split_ifs <;> omega
  have hlt : v % 2 ^ 31 / 2 ^ 8 * 2 ^ 8 < 2 ^ (fp32.w - 1) := by
    simp only [show fp32.w - 1 = 31 from rfl]
    omega
  rw [hsplit, fpOf_signed hlt]
  have htop : fp32.top = 0x7F7FFFFF := rfl
  have hinf : fp32.inf = true := rfl
  simp only [htop, hinf, Bool.true_and, decide_eq_true_eq]
  by_cases he : v / 2 ^ 23 % 2 ^ 8 ≠ 255
  · rw [if_pos he, if_pos (by omega)]
  · rw [if_neg he, if_neg (by omega)]
    refine if_congr ?_ rfl rfl
    omega

theorem cmUlp_pos (e : Nat) : 0 < (cmUlp e).d ∧ 0 < (cmUlp e).rat := by
  unfold cmUlp
  split_ifs
  · exact ⟨qPow2_pos _, by rw [rat_qPow2]; positivity⟩
  · exact ⟨qPow2_pos _, by rw [rat_qPow2]; positivity⟩

/-- The radius of code r where the midpoint's exponent field is e. -/
def cmArm (e r : Nat) : Q := qMul (qInt r) (cmUlp e)

theorem cmArm_spec (e r : Nat) : 0 < (cmArm e r).d ∧ (cmArm e r).rat = r * (cmUlp e).rat ∧ 0 ≤ (cmArm e r).rat := by
  have hrat : (cmArm e r).rat = r * (cmUlp e).rat := by rw [cmArm, rat_qMul, rat_qInt, Int.cast_natCast]
  exact ⟨qMul_pos Nat.one_pos (cmUlp_pos e).1, hrat, hrat ▸ mul_nonneg (Nat.cast_nonneg r) (cmUlp_pos e).2.le⟩

theorem cmLoad_eq {v : Nat} (hv : v < 2 ^ 32) : cmLoad v =
    if v / 2 ^ 23 % 2 ^ 8 ≠ 255 then
      if v % 2 ^ 8 = 255 then .mk .ninf .pinf
      else
        let m := fpVal fp32 (decide (2 ^ 31 ≤ v)) (v % 2 ^ 31 / 2 ^ 8 * 2 ^ 8)
        .mk (.fin (qSub m (cmArm (v / 2 ^ 23 % 2 ^ 8) (v % 2 ^ 8)))) (.fin (qAdd m (cmArm (v / 2 ^ 23 % 2 ^ 8) (v % 2 ^ 8))))
    else if v / 2 ^ 8 % 2 ^ 15 = 0 then (if v = 0x7F800000 then .empty else .mk .ninf .pinf) else .nai := by
  have hmid := cm_midpoint hv
  by_cases he : v / 2 ^ 23 % 2 ^ 8 ≠ 255
  · rw [if_pos he] at hmid ⊢
    simp only [cmLoad, hmid]
    rfl
  · rw [if_neg he] at hmid ⊢
    by_cases hf : v / 2 ^ 8 % 2 ^ 15 = 0
    · rw [if_pos hf] at hmid ⊢
      simp only [cmLoad, hmid]
      refine if_congr ?_ rfl rfl
      simp only [Bool.and_eq_true, Bool.not_eq_true', decide_eq_false_iff_not, decide_eq_true_eq]
      omega
    · rw [if_neg hf] at hmid ⊢
      simp only [cmLoad, hmid]

theorem x32Write_entire : x32Write (.mk .ninf .pinf) = 0x7F800000FF800000 := by decide +kernel

theorem loadForm_cm (v : Nat) : loadForm .x32 2 v = (x32Write (cmLoad v), 0, (cmLoad v).isNai) := rfl

theorem mid_good {m a : Q} (hm : 0 < m.d) (ha : 0 < a.d) (h0 : 0 ≤ a.rat) : (Ivl.mk (.fin (qSub m a)) (.fin (qAdd m a))).Good := by
  refine ⟨qSub_pos hm ha, qAdd_pos hm ha, (xLe_fin (qSub_pos hm ha) (qAdd_pos hm ha)).2 ?_⟩
  rw [rat_qSub hm ha, rat_qAdd hm ha]
  linarith

/-! Storing. -/

theorem lt_qCeilDiv {x u : Q} (hu : 0 < u.rat) (r : Nat) : r < qCeilDiv x u ↔ r * u.rat < x.rat := by
  have hceil : qCeilDiv x u = ⌈x.rat / u.rat⌉₊ := by
    rw [qCeilDiv, qFloor_eq, rat_qNeg, rat_qDiv, Int.floor_neg, neg_neg, Int.ceil_toNat]
  rw [hceil, Nat.lt_ceil, lt_div_iff₀ hu]

/-- The least radius code by which a midpoint's set encloses two bounds. -/
def cmRadius (l h m u : Q) : Nat := max (qCeilDiv (qMax (qSub m l) (qInt 0)) u) (qCeilDiv (qMax (qSub h m) (qInt 0)) u)

theorem lt_cmRadius {l h m u : Q} (hl : 0 < l.d) (hh : 0 < h.d) (hm : 0 < m.d) (hu : 0 < u.rat) (r : Nat) :
    r < cmRadius l h m u ↔ r * u.rat < m.rat - l.rat ∨ r * u.rat < h.rat - m.rat := by
  have h0 : ¬ (r * u.rat < 0) := not_lt.2 (mul_nonneg (Nat.cast_nonneg r) hu.le)
  rw [cmRadius, lt_max_iff, lt_qCeilDiv hu, lt_qCeilDiv hu, rat_qMax (qSub_pos hm hl) Nat.one_pos, rat_qMax (qSub_pos hh hm) Nat.one_pos, rat_qSub hm hl,
    rat_qSub hh hm, rat_qInt, Int.cast_zero, lt_max_iff, lt_max_iff]
  simp only [h0, or_false]

/-- The sign bit and the code of a midpoint. -/
theorem fpBitsOpen_cm (c : Q) (neg : Bool) (k : Nat) : ∃ s : Bool, (k ≠ 0 → s = neg) ∧ fpBitsOpen cmFmt 20 c (.fin neg k) = (if s then 2 ^ 23 else 0) + k := by
  rcases Nat.eq_zero_or_pos k with rfl | hpos
  · exact ⟨decide (c.n < 0) && Config.zeroSign (256 + 20) c.d c.n.natAbs 0, fun h => absurd rfl h, rfl⟩
  · refine ⟨neg, fun _ => rfl, ?_⟩
    obtain ⟨k, rfl⟩ : ∃ j, k = j + 1 := ⟨k - 1, by omega⟩
    rfl

section
variable {l h : Q} {neg : Bool} {k : Nat} (hmid : roundQ cmFmt .near (qMul (qAdd l h) ⟨1, 2⟩) = .fin neg k)
include hmid

/-- A cm word of finite bounds: sign, midpoint code and radius code. -/
theorem cmStore_fin : ∃ s : Bool, (k ≠ 0 → s = neg) ∧
    cmStore (.mk (.fin l) (.fin h)) = ((if s then 2 ^ 23 else 0) + k) * 256 + min (cmRadius l h (fpVal cmFmt neg k) (cmUlp (k / 2 ^ 15))) 255 := by
  obtain ⟨s, hs, hbits⟩ := fpBitsOpen_cm (qMul (qAdd l h) ⟨1, 2⟩) neg k
  refine ⟨s, hs, ?_⟩
  rw [← hbits]
  simp only [cmStore, hmid]
  rfl

theorem cm_code_le : k ≤ 0x7F7FFF := by
  have h := roundQ_canon cmFmt .near (qMul (qAdd l h) ⟨1, 2⟩)
  rw [hmid] at h
  exact h.1

/-- The fields of that word. -/
theorem cmStore_fields : let w := cmStore (.mk (.fin l) (.fin h))
    w < 2 ^ 32 ∧ w / 2 ^ 8 % 2 ^ 23 = k ∧ (k ≠ 0 → w / 2 ^ 31 = if neg then 1 else 0) ∧
      w % 2 ^ 8 = min (cmRadius l h (fpVal cmFmt neg k) (cmUlp (k / 2 ^ 15))) 255 := by
  obtain ⟨s, hs, hw⟩ := cmStore_fin hmid
  have hk := cm_code_le hmid
  simp only [hw]
  generalize cmRadius l h (fpVal cmFmt neg k) (cmUlp (k / 2 ^ 15)) = r
  refine ⟨?_, ?_, fun hk0 => ?_, ?_⟩
  · cases s <;> simp <;> omega
  · cases s <;> simp <;> omega
  · rw [← hs hk0]
    cases s <;> simp <;> omega
  · omega

/-- What that word is read as: the entire set, or the midpoint and the radius. -/
theorem cmLoad_cmStore : ∃ m, 0 < m.d ∧ m.rat = (fpVal cmFmt neg k).rat ∧
    let r := cmRadius l h (fpVal cmFmt neg k) (cmUlp (k / 2 ^ 15))
    cmLoad (cmStore (.mk (.fin l) (.fin h))) =
      if 255 ≤ r then .mk .ninf .pinf else .mk (.fin (qSub m (cmArm (k / 2 ^ 15) r))) (.fin (qAdd m (cmArm (k / 2 ^ 15) r))) := by
  obtain ⟨hlt, hcode, hsign, hrad⟩ := cmStore_fields hmid
  have hk := cm_code_le hmid
  have hload := cmLoad_eq hlt
  generalize cmStore (.mk (.fin l) (.fin h)) = w at *
  generalize cmRadius l h (fpVal cmFmt neg k) (cmUlp (k / 2 ^ 15)) = r at *
  have he : w / 2 ^ 23 % 2 ^ 8 = k / 2 ^ 15 := by omega
  have hk' : w % 2 ^ 31 / 2 ^ 8 = k := by omega
  have hne : k / 2 ^ 15 ≠ 255 := by omega
  rw [he, hk', if_pos hne, hrad] at hload
  refine ⟨fpVal fp32 (decide (2 ^ 31 ≤ w)) (k * 2 ^ 8), fpVal_pos _ _ _, ?_, ?_⟩
  · rw [rat_fpVal, rat_fpVal, val_longer (f := fp32) (g := cmFmt) rfl rfl]
    by_cases h0 : k = 0
    · simp [h0, val_zero]
    · have := hsign h0
      have hneg : decide (2 ^ 31 ≤ w) = neg := by
        cases neg
        · simp only [Bool.false_eq_true, if_false] at this
          exact decide_eq_false (by omega)
        · simp only [if_true] at this
          exact decide_eq_true (by omega)
      rw [hneg]
  · rw [hload]
    dsimp only
    by_cases hr : 255 ≤ r
    · rw [if_pos hr, if_pos (by omega)]
    · rw [if_neg hr, if_neg (by omega), min_eq_left (by omega)]

end

/-- The word of an interval that has an infinite bound, or whose midpoint overflows. -/
theorem cmStore_inf : ∀ {l h : XR}, xIsFin l = false ∨ xIsFin h = false → cmStore (.mk l h) = 0xFF
  | .fin _, .fin _, h => absurd h (by simp [xIsFin])
  | .fin _, .ninf, _ => rfl
  | .fin _, .pinf, _ => rfl
  | .ninf, _, _ => rfl
  | .pinf, _, _ => rfl

theorem cmStore_overflow {l h : Q} (hmid : ∀ neg k, roundQ cmFmt .near (qMul (qAdd l h) ⟨1, 2⟩) ≠ .fin neg k) : cmStore (.mk (.fin l) (.fin h)) = 0xFF := by
  cases hr : roundQ cmFmt .near (qMul (qAdd l h) ⟨1, 2⟩) with
  | nan => simp only [cmStore, hr]
  | inf neg => simp only [cmStore, hr]
  | fin neg k => exact absurd hr (hmid neg k)

theorem cmLoad_entire : cmLoad 0xFF = .mk .ninf .pinf := by decide +kernel

/-- What is loaded after a cm store has every number of a finite interval (R147). -/
theorem cmLoad_has {l h : Q} (hl : 0 < l.d) (hh : 0 < h.d) {q : Q} (hq : 0 < q.d) (h1 : xLe (.fin l) (.fin q) = true) (h2 : xLe (.fin q) (.fin h) = true) :
    (cmLoad (cmStore (.mk (.fin l) (.fin h)))).Good ∧ (cmLoad (cmStore (.mk (.fin l) (.fin h)))).has q := by
  by_cases hfin : ∃ neg k, roundQ cmFmt .near (qMul (qAdd l h) ⟨1, 2⟩) = .fin neg k
  · obtain ⟨neg, k, hmid⟩ := hfin
    obtain ⟨m, hm, hmr, hload⟩ := cmLoad_cmStore hmid
    have hcover := mt (lt_cmRadius hl hh (fpVal_pos cmFmt neg k) (cmUlp_pos (k / 2 ^ 15)).2 _).2 (lt_irrefl _)
    rw [hload]
    generalize cmRadius l h (fpVal cmFmt neg k) (cmUlp (k / 2 ^ 15)) = r at *
    obtain ⟨hd, hrat, h0⟩ := cmArm_spec (k / 2 ^ 15) r
    simp only [not_or, not_lt] at hcover
    have hlq := (xLe_fin hl hq).1 h1
    have hqh := (xLe_fin hq hh).1 h2
    split_ifs
    · exact ⟨⟨trivial, trivial, rfl⟩, rfl, rfl⟩
    · refine ⟨mid_good hm hd h0, (xLe_fin (qSub_pos hm hd) hq).2 ?_, (xLe_fin hq (qAdd_pos hm hd)).2 ?_⟩
      · rw [rat_qSub hm hd, hrat, hmr]
        linarith [hcover.1]
      · rw [rat_qAdd hm hd, hrat, hmr]
        linarith [hcover.2]
  · rw [cmStore_overflow fun neg k h => hfin ⟨neg, k, h⟩, cmLoad_entire]
    exact ⟨⟨trivial, trivial, rfl⟩, rfl, rfl⟩

/-- A cm store followed by a cm load encloses the interval (R147). -/
theorem cm_encloses {x : Ivl} (hx : x.Good) {q : Q} (hq : 0 < q.d) (hhas : x.has q) : (x32Read (loadForm .x32 2 (cmStore x)).1).has q := by
  have hload : (cmLoad (cmStore x)).Good ∧ (cmLoad (cmStore x)).has q := by
    cases x with
    | nai => exact hhas.elim
    | empty => exact hhas.elim
    | mk lo hi =>
      by_cases hinf : xIsFin lo = false ∨ xIsFin hi = false
      · rw [cmStore_inf hinf, cmLoad_entire]
        exact ⟨⟨trivial, trivial, rfl⟩, rfl, rfl⟩
      · obtain ⟨hl, hh, -⟩ := hx
        obtain ⟨h1, h2⟩ := hhas
        cases lo <;> cases hi <;> simp [xIsFin] at hinf
        exact cmLoad_has hl hh hq h1 h2
  rw [loadForm_cm, x32Read_x32Write hload.1]
  exact outward_has (by decide) hload.1 hq hload.2

/-- No smaller radius code encloses it. -/
theorem cm_least {l h : Q} (hl : 0 < l.d) (hh : 0 < h.d) {neg : Bool} {k : Nat} (hmid : roundQ cmFmt .near (qMul (qAdd l h) ⟨1, 2⟩) = .fin neg k)
    {r : Nat} (hr : r < cmStore (.mk (.fin l) (.fin h)) % 2 ^ 8) :
    (qLe (qSub (fpVal cmFmt neg k) (cmArm (k / 2 ^ 15) r)) l && qLe h (qAdd (fpVal cmFmt neg k) (cmArm (k / 2 ^ 15) r))) = false := by
  obtain ⟨-, -, -, hrad⟩ := cmStore_fields hmid
  have hm := fpVal_pos cmFmt neg k
  obtain ⟨hd, hrat, -⟩ := cmArm_spec (k / 2 ^ 15) r
  have hlt := (lt_cmRadius hl hh hm (cmUlp_pos (k / 2 ^ 15)).2 r).1 (by omega)
  rw [Bool.and_eq_false_iff]
  rcases hlt with hlt | hlt
  · refine .inl (Bool.eq_false_iff.2 fun hle => ?_)
    rw [qLe_iff (qSub_pos hm hd) hl, rat_qSub hm hd, hrat] at hle
    linarith
  · refine .inr (Bool.eq_false_iff.2 fun hle => ?_)
    rw [qLe_iff hh (qAdd_pos hm hd), rat_qAdd hm hd, hrat] at hle
    linarith

end Sys2Proof.Machine
end

section
/-! The memory forms together (R139, R140, R143 to R147, R160). -/
namespace Sys2Proof.Machine

/-- A cm word by its rows (R146). -/
theorem loadForm_cm_rows {v : Nat} (hv : v < 2 ^ 32) :
    let e := v / 2 ^ 23 % 2 ^ 8
    let r := v % 2 ^ 8
    let fract := v / 2 ^ 8 % 2 ^ 15
    let m := fpVal fp32 (decide (2 ^ 31 ≤ v)) (v % 2 ^ 31 / 2 ^ 8 * 2 ^ 8)
    (e = 255 → fract ≠ 0 → loadForm .x32 2 v = (x32Write .nai, 0, true)) ∧ (v = 0x7F800000 → loadForm .x32 2 v = (x32Write .empty, 0, false)) ∧
      (v ≠ 0x7F800000 → (e = 255 ∧ fract = 0) ∨ (e ≠ 255 ∧ r = 255) → loadForm .x32 2 v = (0x7F800000FF800000, 0, false)) ∧
      (e ≠ 255 → r ≠ 255 → loadForm .x32 2 v = (x32Write (.mk (.fin (qSub m (cmArm e r))) (.fin (qAdd m (cmArm e r)))), 0, false)) := by
  intro e r fract m
  have hload (i : Ivl) (hi : cmLoad v = i) : loadForm .x32 2 v = (x32Write i, 0, i.isNai) := by rw [loadForm_cm, hi]
  have hentire (hi : cmLoad v = .mk .ninf .pinf) : loadForm .x32 2 v = (0x7F800000FF800000, 0, false) := by rw [hload _ hi, x32Write_entire]; rfl
  have heq : cmLoad v = if e ≠ 255 then (if r = 255 then .mk .ninf .pinf else .mk (.fin (qSub m (cmArm e r))) (.fin (qAdd m (cmArm e r))))
      else if fract = 0 then (if v = 0x7F800000 then .empty else .mk .ninf .pinf) else .nai := cmLoad_eq hv
  refine ⟨fun he hf => hload .nai ?_, ?_, fun hne hcase => hentire ?_, fun he hr => hload _ ?_⟩
  · rw [heq, if_neg (not_not.2 he), if_neg hf]
  · rintro rfl
    exact hload .empty (by decide +kernel)
  · rcases hcase with ⟨he, hf⟩ | ⟨he, hr⟩
    · rw [heq, if_neg (not_not.2 he), if_pos hf, if_neg hne]
    · rw [heq, if_pos he, if_pos hr]
  · rw [heq, if_pos he, if_neg hr]

/-- A point in the k8 form (R139). -/
theorem mk8OfFp32_spec (x : Fp) : match x with
    | .nan => mk8OfFp32 x = (0x80, false)
    | .inf neg => mk8OfFp32 x = (if neg then 0xFF else 0x7F, true)
    | .fin neg k =>
      (mk8Num 127 < |(fpVal fp32 neg k).rat| → mk8OfFp32 x = (if neg then 0xFF else 0x7F, true)) ∧
      (|(fpVal fp32 neg k).rat| ≤ mk8Num 127 → ∃ w, mk8OfFp32 x = (w, false) ∧ w < 256 ∧ ∃ u, mk8Val w = some u ∧ ∀ c u', c < 256 → mk8Val c = some u' →
        qLe (qAbs (qSub u (fpVal fp32 neg k))) (qAbs (qSub u' (fpVal fp32 neg k))) = true ∧
          (c ≠ w → qLe (qAbs (qSub u' (fpVal fp32 neg k))) (qAbs (qSub u (fpVal fp32 neg k))) = true → w % 2 = 0)) := by
  cases x with
  | nan => rfl
  | inf neg => rfl
  | fin neg k => exact ⟨mk8Of_saturates, mk8Of_nearest (fpVal_pos fp32 neg k)⟩

end Sys2Proof.Machine
end

section
/-! A memory word all of whose lanes' addresses answer (R320 to R322): each active lane acts once, in increasing order, and the word finishes. -/
namespace Sys2Proof.Machine

/-- One lane's turn in a pass. -/
def laneTurn (write : Bool) (loc : Nat → Nat) (act : MPass → Nat → Nat → MPass) (p : MPass) (l : Nat) : MPass :=
  if inMask p.m.got l || (write && p.bad.isSome) then p else act p l (loc l)

theorem lanesOf_sorted (m : Word32) : (lanesOf m).Pairwise (· < ·) := List.pairwise_lt_range.filter _

/-- What holds after each lane's act holds after the pass. -/
theorem foldl_laneTurn {I : List Nat → MPass → Prop} {write : Bool} {loc : Nat → Nat} {act : MPass → Nat → Nat → MPass}
    (hopen : ∀ done p l, I done p → l ∉ done → inMask p.m.got l = false ∧ p.bad = none) :
    ∀ (ls done : List Nat) (p : MPass), (∀ l ∈ ls, ∀ k ∈ done, k < l) → ls.Pairwise (· < ·) →
      (∀ done p l, l ∈ ls → I done p → (∀ k ∈ done, k < l) → I (done ++ [l]) (act p l (loc l))) → I done p →
      I (done ++ ls) (ls.foldl (laneTurn write loc act) p)
  | [], done, p, _, _, _, h => by simpa using h
  | l :: ls, done, p, hlt, hs, hact, h => by
    obtain ⟨hl, hs'⟩ := List.pairwise_cons.1 hs
    have hnew : l ∉ done := fun hm => absurd (hlt l (by simp) l hm) (lt_irrefl l)
    obtain ⟨hgot, hbad⟩ := hopen done p l h hnew
    have hturn : laneTurn write loc act p l = act p l (loc l) := by simp [laneTurn, hgot, hbad]
    have hstep := hact done p l (by simp) h (hlt l (by simp))
    rw [List.foldl_cons, hturn, show done ++ l :: ls = (done ++ [l]) ++ ls by simp]
    refine foldl_laneTurn hopen ls (done ++ [l]) _ (fun k hk j hj => ?_) hs' (fun done p k hk => hact done p k (by simp [hk])) hstep
    rcases List.mem_append.1 hj with hj | hj
    · exact hlt k (by simp [hk]) j hj
    · rw [List.mem_singleton.1 hj]
      exact hl k hk

theorem and_not_zero32 (m : Word32) : m &&& ~~~0 = m := BitVec.and_allOnes

theorem maskOf_nil : maskOf [] = 0#32 := rfl

/-- A word whose active lanes have all acted has none left. -/
theorem MemW.rest_all {m : MemW} (h : ∀ l, inMask m.got l = decide (l ∈ lanesOf m.act)) : m.rest = [] := by
  rw [MemW.rest, List.eq_nil_iff_forall_not_mem]
  intro l hl
  obtain ⟨h32, hin⟩ := mem_lanesOf.1 hl
  simp only [inMask, BitVec.getLsbD_and, BitVec.getLsbD_not, Bool.and_eq_true, Bool.not_eq_true'] at hin
  have hgot := h l
  rw [decide_eq_true (mem_lanesOf.2 ⟨h32, hin.1⟩), inMask, hin.2.2] at hgot
  exact absurd hgot (by decide)

/-- A word that has not begun, whose lanes' addresses all answer. -/
theorem memDrive_hits {s : State} {m : MemW} {loc : Nat → Nat} {write : Bool} {act : MPass → Nat → Nat → MPass} {fin : State → MemW → Res}
    {log : Option (State → MemW → List Nat → Option State)} (sw : Bool) (all : Word32) (np : Bool) {p : MPass} (hgot : m.got = 0)
    (hx : ∀ l ∈ lanesOf m.act, xlate s s.ct.ctx s.ct.core (m.va l) write = .hit (loc l) ∧ isPeer (loc l) = false)
    (hp : (lanesOf m.act).foldl (laneTurn write loc act) ⟨s, m, [], false, none⟩ = p) (hbad : p.bad = none) (hab : p.ab = [])
    (hmask : p.s.sp.mask ≠ 0) (hrest : p.m.rest = []) :
    memDrive s sw all np m write act log fin = fin (p.s.setSp { p.s.sp with mem := none, pmask := 0 }) p.m := by
  have hmrest : m.rest = lanesOf m.act := by rw [MemW.rest, hgot, and_not_zero32]
  have hxs : (m.rest.map fun l => (l, notPeer s np l (xlate s s.ct.ctx s.ct.core (m.va l) write))) = (lanesOf m.act).map fun l => (l, XRes.hit (loc l)) := by
    rw [hmrest]
    refine List.map_congr_left fun l hl => ?_
    rw [(hx l hl).1]
    simp [notPeer, (hx l hl).2]
  have hprot : protFail m ((lanesOf m.act).map fun l => (l, XRes.hit (loc l))) = none := by
    simp [protFail, List.find?_map]
  have hun : (((lanesOf m.act).map fun l => (l, XRes.hit (loc l))).filter fun x => x.2 == .unmapped) = [] := by
    simp [List.filter_eq_nil_iff]
  have hmiss : (((lanesOf m.act).map fun l => (l, XRes.hit (loc l))).any fun x => x.2 == .miss) = false := by simp
  have hfresh : freshPages s s.ct.ctx m ((lanesOf m.act).map fun l => (l, XRes.hit (loc l))) = [] := by
    simp [freshPages, List.filterMap_map]
  have hev : evicted m [] = [] := by simp [evicted]
  have hask : askPages s s.ct.ctx m write ((lanesOf m.act).map fun l => (l, XRes.hit (loc l))) = s := by
    rw [askPages, List.foldl_map]
    exact List.foldlRecOn (motive := fun t => t = s) _ _ rfl fun _ h _ _ => h
  have hnote : noteMisses m ((lanesOf m.act).map fun l => (l, XRes.hit (loc l))) [] = m := by
    have hfold : ((lanesOf m.act).map fun l => (l, XRes.hit (loc l))).foldl (fun a x => if x.2 == .unmapped then mset 0 a (pageOf (m.va x.1)) 1 else a) m.again = m.again := by
      rw [List.foldl_map]
      exact List.foldlRecOn (motive := fun t => t = m.again) _ _ rfl fun _ h _ _ => h
    simp only [noteMisses, hfold, List.foldl_nil]
  have hact : p.m.act &&& ~~~maskOf [] = p.m.act := and_not_zero32 _
  have hlive : ¬ p.s.sp.mask &&& ~~~maskOf [] = 0 := by rw [maskOf_nil]; exact (and_not_zero32 _).symm ▸ hmask
  unfold laneTurn at hp
  unfold memDrive
  simp only [hxs, hprot, hun, List.map_nil, List.find?_nil, hfresh, hev, hmiss, Bool.false_eq_true, if_false, hask, hnote, List.foldl_map, hp]
  have habort : abortLanes p.s p.s.cur.gh p.s.cur.sp false [] = .ok p.s := rfl
  have hdone : ∀ x : Res, (if p.m.rest.isEmpty then fin (p.s.setSp { p.s.sp with mem := none, pmask := 0 }) p.m else x) =
      fin (p.s.setSp { p.s.sp with mem := none, pmask := 0 }) p.m := fun x => if_pos (by rw [hrest]; rfl)
  simp only [hbad, hab, List.map_nil, hact, hlive, habort, if_false]
  cases log <;> exact hdone _

end Sys2Proof.Machine
end

section
/-! A load that hits its core's L1 (R265, R301, R321): it gives the bytes as memory has them and touches nothing but the line. -/
namespace Sys2Proof.Machine

/-! Lines of the L1. -/

theorem l1Find_line {c : CoreSt} {line : Nat} {x : L1Line} (h : l1Find c line = some x) : x.line = line := by
  simpa using List.find?_some h

/-- A line put in a state in which it stays. -/
theorem l1Find_put (c : CoreSt) {x : L1Line} (hx : x.st ≠ .i) (line : Nat) : l1Find (l1Put c x) line = if line = x.line then some x else l1Find c line := by
  have hput : (l1Put c x).l1 = x :: c.l1.filter (·.line != x.line) := by simp [l1Put, hx]
  rw [l1Find, hput]
  by_cases hl : line = x.line
  · rw [if_pos hl, List.find?_cons_of_pos]
    simp [hl]
  · rw [if_neg hl, List.find?_cons_of_neg (by simpa using Ne.symm hl), List.find?_filter]
    refine List.find?_congr fun y _ => ?_
    by_cases hy : y.line = line
    · simp [hy, hl]
    · simp [hy]

/-- A state in which nothing but lines of the executing core's L1 has been touched: each that was there is there, with its state and its poison. -/
structure OnlyHits (s u : State) : Prop where
  only : u = { s with cores := u.cores }
  core : ∀ c, u.core c = { s.core c with l1 := (u.core c).l1, ret := (u.core c).ret }
  found : ∀ {line x}, l1Find (s.core s.ct.core) line = some x → ∃ y, l1Find (u.core s.ct.core) line = some y ∧ y.st = x.st ∧ y.pois = x.pois

theorem OnlyHits.refl (s : State) : OnlyHits s s := ⟨rfl, fun _ => rfl, fun h => ⟨_, h, rfl, rfl⟩⟩

theorem OnlyHits.cg {s u : State} (h : OnlyHits s u) : u.cg = s.cg := by rw [h.only]; rfl
theorem OnlyHits.ct {s u : State} (h : OnlyHits s u) : u.ct = s.ct := by rw [h.only]; rfl
theorem OnlyHits.cur {s u : State} (h : OnlyHits s u) : u.cur = s.cur := by rw [h.only]
theorem OnlyHits.rdNat {s u : State} (h : OnlyHits s u) (a n : Nat) : u.rdNat a n = s.rdNat a n := by rw [h.only]; rfl

theorem OnlyHits.trans {s t u : State} (h : OnlyHits s t) (k : OnlyHits t u) : OnlyHits s u := by
  refine ⟨by rw [k.only, h.only], fun c => by rw [k.core c, h.core c], fun hx => ?_⟩
  obtain ⟨y, hy, hst, hp⟩ := h.found hx
  obtain ⟨z, hz, hst', hp'⟩ := k.found (h.ct ▸ hy)
  exact ⟨z, h.ct ▸ hz, hst'.trans hst, hp'.trans hp⟩

/-- A hit of a load. -/
theorem OnlyHits.hit {s : State} {line : Nat} {x : L1Line} (h : l1Find (s.core s.ct.core) line = some x) (hx : x.st ≠ .i) (a : Acc) :
    OnlyHits s (l1Hit s s.ct.core x x.st false a) := by
  refine ⟨rfl, fun c => ?_, fun {line' y} hy => ?_⟩
  · by_cases hc : c = s.ct.core
    · subst hc
      simp only [l1Hit, Bool.false_eq_true, if_false, State.core_setCore, l1Put]
    · simp only [l1Hit, Bool.false_eq_true, if_false, State.core_setCore_ne _ _ hc]
  · have hfind := l1Find_put (s.core s.ct.core) (x := { x with st := x.st, prio := max x.prio a.prio, push := if a.touch then none else x.push, sbytes := x.sbytes, pois := x.pois }) hx line'
    simp only [l1Hit, Bool.false_eq_true, if_false, State.core_setCore]
    by_cases hl : line' = x.line
    · have hyx : y = x := by
        rw [hl, l1Find_line h] at hy
        exact Option.some.inj (hy.symm.trans h)
      rw [if_pos hl] at hfind
      exact ⟨_, hfind, by rw [hyx], by rw [hyx]⟩
    · rw [if_neg hl] at hfind
      exact ⟨y, hfind.trans hy, rfl, rfl⟩

theorem isHost_of_isDev {a : Nat} (h : isDev a = true) : isHost a = false ∧ isPeer a = false := by
  simp only [isDev, decide_eq_true_eq] at h
  simp only [isHost, isPeer, Bool.and_eq_false_iff, decide_eq_false_iff_not]
  omega

theorem headD_locs {loc n d : Nat} (hn : 0 < n) : ((List.range n).map (loc + ·)).headD d = loc := by
  obtain ⟨k, rfl⟩ : ∃ k, n = k + 1 := ⟨n - 1, by omega⟩
  simp [List.range_succ_eq_map]

theorem formBytes_pos (ty : Ty) (form : Nat) : 0 < formBytes ty form := by
  match form with
  | 0 => cases ty <;> decide
  | 1 | 2 | 3 | 4 => exact Nat.succ_pos _
  | n + 5 => exact Nat.succ_pos _

/-- Nothing of a line of device memory is asked of the host (R310, R311). -/
theorem hostWait_dev {s : State} {core loc : Nat} (h : isDev loc = true) (write : Bool) : hostWait s core loc write = none := by
  simp [hostWait, (isHost_of_isDev h).1]

/-- A load hits a line that its core has, that nothing locks and to which no push is on its way (R275, R301, R347). -/
theorem lineAccess_read {s : State} {core loc : Nat} {x : L1Line} {a : Acc} (hdev : isDev loc = true) (hlock : lineLocked s (lineOf loc) none = false)
    (hpush : pushPending s core (lineOf loc) = false) (hloc : a.locs.headD (128 * lineOf loc) = loc) (hx : l1Find (s.core core) (lineOf loc) = some x)
    (hst : x.st ∈ [L1St.s, .e, .o, .m]) : lineAccess s core (lineOf loc) false a = .ready (l1Hit s core x x.st false a) := by
  rw [lineAccess, hlock, hpush, hloc, hostWait_dev hdev, hx]
  simp only [List.mem_cons, List.not_mem_nil, or_false] at hst
  rcases hst with h | h | h | h <;> simp [h, hostDirty]

/-- What a lane's load finds at hand. -/
structure LoadReady (s : State) (stream id va n loc : Nat) : Prop where
  log : logHolds s s.cur.gh stream id va n = false
  dev : isDev loc = true
  lock : lineLocked s (lineOf loc) none = false
  push : pushPending s s.ct.core (lineOf loc) = false
  line : LineIn s loc [.s, .e, .o, .m]
  clean : copyPoison s s.ct.core loc n false = false

theorem LoadReady.hits {s u : State} {stream id va n loc : Nat} (h : LoadReady s stream id va n loc) (hu : OnlyHits s u) : LoadReady u stream id va n loc := by
  have hcc : u.cc = { s.cc with l1 := u.cc.l1, ret := u.cc.ret } := by rw [State.cc, hu.ct]; exact hu.core _
  obtain ⟨x, hx, hst⟩ := h.line
  obtain ⟨y, hy, hst', hp⟩ := hu.found hx
  have hnet : u.net = s.net := by rw [hu.only]
  have hgroups : u.groups = s.groups := by rw [hu.only]
  refine ⟨?_, h.dev, ?_, ?_, ⟨y, by rw [hu.ct]; exact hy, hst' ▸ hst⟩, ?_⟩
  · rw [hu.cur, ← h.log]
    simp only [logHolds, logMeets, lateHolds]
    rw [hcc]
  · rw [← h.lock]
    simp only [lineLocked, hgroups]
  · rw [← h.push, hu.ct]
    simp only [pushPending, hnet]
  · have hdir : u.dirE (lineOf loc) = s.dirE (lineOf loc) := by rw [hu.only]; rfl
    have hpois : u.isPoison loc n = s.isPoison loc n := by rw [hu.only]; rfl
    have hclean := h.clean
    rw [hu.ct]
    simp only [copyPoison, hdir, hpois, hy, hx, Option.any_some, hp] at hclean ⊢
    exact hclean

/-- A load of a lane outside a transaction. -/
theorem ldPlain_ready {t : Ty} {x : MemX} (hhint : x.hint ≠ 1) {p : MPass} {l loc : Nat} (h : LoadReady p.s x.stream p.m.id (p.m.va l) (formBytes t x.form) loc) :
    ∃ u, OnlyHits p.s u ∧ ldPlain t x p l loc = ldPut t x.form { p with s := u } l (p.s.rdNat loc (formBytes t x.form)) false := by
  obtain ⟨y, hy, hst⟩ := h.line
  let a := accOf p.s p.s.ct.ctx (p.m.va l) loc (formBytes t x.form) x.hint x.order x.stream
  have hne : y.st ≠ .i := by rintro he; rw [he] at hst; simp at hst
  have hit := OnlyHits.hit hy hne a
  have hacc : lineAccess p.s p.s.ct.core (lineOf loc) false a = _ :=
    lineAccess_read h.dev h.lock h.push (headD_locs (formBytes_pos t x.form)) hy hst
  have hread (own : Nat × Nat) : readsLocked p.s (lineOf loc) (some own) = false := by simp [readsLocked, h.lock]
  have hro : (x.hint == 1) = false := by simpa using hhint
  refine ⟨_, hit, ?_⟩
  have hclean := (h.hits hit).clean
  rw [hit.ct] at hclean
  have hat : ldAt p.s (p.s.cur.gh, l) p.s.ct.core loc (formBytes t x.form) (x.hint == 1) a =
      .ok (l1Hit p.s p.s.ct.core y y.st false a, p.s.rdNat loc (formBytes t x.form), false) := by
    simp only [ldAt, hro, Bool.false_eq_true, if_false, hread, hacc, hit.rdNat, hclean]
  simp only [ldPlain, h.log, (isHost_of_isDev h.dev).2, Bool.false_eq_true, if_false]
  rw [show ldAt p.s (p.s.cur.gh, l) p.s.ct.core loc (formBytes t x.form) (x.hint == 1) (accOf p.s p.s.ct.ctx (p.m.va l) loc (formBytes t x.form) x.hint x.order x.stream) = _ from hat]

end Sys2Proof.Machine
end

section
/-! The pass of a load over its lanes (R321). -/
namespace Sys2Proof.Machine

/-- A load's pass in which some lanes have read their values. -/
structure Loaded (s : State) (m : MemW) (v : Nat → Word64 × Word64 × Bool) (done : List Nat) (p : MPass) : Prop where
  hits : OnlyHits s p.s
  word : p.m = { m with got := p.m.got, vals := p.m.vals, nai := p.m.nai }
  aborts : p.ab = []
  bad : p.bad = none
  got : ∀ l, inMask p.m.got l = decide (l ∈ done)
  vals : ∀ l ∈ done, l < 32 ∧ mget 0 p.m.vals l = (v l).1 ∧ mget 0 p.m.vals (32 + l) = (v l).2.1
  nai : ∀ l, inMask p.m.nai l = (decide (l ∈ done) && (v l).2.2)

theorem Loaded.act {s : State} {m : MemW} {v : Nat → Word64 × Word64 × Bool} {done : List Nat} {p : MPass} (h : Loaded s m v done p) : p.m.act = m.act := by
  rw [h.word]

theorem Loaded.start (s : State) {m : MemW} (hgot : m.got = 0) (hnai : m.nai = 0) (v : Nat → Word64 × Word64 × Bool) : Loaded s m v [] ⟨s, m, [], false, none⟩ :=
  ⟨OnlyHits.refl s, rfl, rfl, rfl, fun l => by simp [hgot, inMask], by simp, fun l => by simp [hnai, inMask]⟩

theorem inMask_orBit (m : Word32) {l : Nat} (hl : l < 32) (k : Nat) : inMask (m ||| (1#32 <<< l)) k = (inMask m k || decide (k = l)) := by
  rw [inMask_or, inMask_bit hl]

/-- A lane's value enters the results. -/
theorem Loaded.put {s : State} {m : MemW} {v : Nat → Word64 × Word64 × Bool} {done : List Nat} {p : MPass} (h : Loaded s m v done p) {u : State} (hu : OnlyHits p.s u)
    {t : Ty} {form l val : Nat} (hl : l < 32) (hnew : l ∉ done) (hv : loadForm t form val = v l) :
    Loaded s m v (done ++ [l]) (ldPut t form { p with s := u } l val false) := by
  let vals := mset 0 (mset 0 p.m.vals (0 * 32 + l) (v l).1) (1 * 32 + l) (v l).2.1
  let nai := if (v l).2.2 then p.m.nai ||| (1#32 <<< l) else p.m.nai
  have hput : ldPut t form { p with s := u } l val false = { p with s := u, m := { p.m with got := p.m.got ||| (1#32 <<< l), vals := vals, nai := nai } } := by
    simp only [ldPut, Bool.false_eq_true, if_false, hv, nai]
    cases (v l).2.2 <;> rfl
  have hnai (k : Nat) : inMask nai k = (inMask p.m.nai k || (decide (k = l) && (v l).2.2)) := by
    simp only [nai]
    split_ifs with hb
    · rw [inMask_orBit _ hl, hb, Bool.and_true]
    · simp [hb]
  rw [hput]
  refine ⟨h.hits.trans hu, ?_, h.aborts, h.bad, fun k => ?_, fun k hk => ?_, fun k => ?_⟩
  · simp only
    rw [h.word]
  · simp only
    rw [inMask_orBit _ hl, h.got]
    simp [Bool.decide_or]
  · rcases List.mem_append.1 hk with hk | hk
    · obtain ⟨hk32, h0, h1⟩ := h.vals k hk
      have hkl : k ≠ l := fun he => hnew (he ▸ hk)
      refine ⟨hk32, ?_, ?_⟩
      · rw [← h0]
        simp only [vals]
        rw [mget_mset_ne _ _ _ (by omega), mget_mset_ne _ _ _ (by omega)]
      · rw [← h1]
        simp only [vals]
        rw [mget_mset_ne _ _ _ (by omega), mget_mset_ne _ _ _ (by omega)]
    · obtain rfl := List.mem_singleton.1 hk
      refine ⟨hl, ?_, ?_⟩
      · simp only [vals]
        rw [mget_mset_ne _ _ _ (by omega), Nat.zero_mul, Nat.zero_add, mget_mset_same]
      · simp only [vals]
        rw [Nat.one_mul, mget_mset_same]
  · simp only
    rw [hnai, h.nai]
    by_cases hk : k = l
    · subst hk
      simp [hnew]
    · simp [hk]

section
variable {s : State} {m : MemW} {t : Ty} {x : MemX} {loc : Nat → Nat} {act : MPass → Nat → Nat → MPass}
  (hready : ∀ l ∈ lanesOf m.act, LoadReady s x.stream m.id (m.va l) (formBytes t x.form) (loc l))
  (hhint : x.hint ≠ 1) (hgot : m.got = 0) (hnai : m.nai = 0)
  (hact : ∀ p l, OnlyHits s p.s → l ∈ lanesOf m.act → act p l (loc l) = ldPlain t x p l (loc l))
include hready hhint hgot hnai hact

/-- Every active lane reads the bytes at its location. -/
theorem loads_pass : Loaded s m (fun l => loadForm t x.form (s.rdNat (loc l) (formBytes t x.form))) (lanesOf m.act)
    ((lanesOf m.act).foldl (laneTurn false loc act) ⟨s, m, [], false, none⟩) := by
  refine foldl_laneTurn (I := Loaded s m _) (fun done p l h hl => ⟨by rw [h.got]; simpa using hl, h.bad⟩) _ [] _ (by simp) (lanesOf_sorted _)
    (fun done p l hl h hlt => ?_) (Loaded.start s hgot hnai _)
  have hva : p.m.va l = m.va l := by rw [h.word]; rfl
  have hid : p.m.id = m.id := by rw [h.word]
  have hr := (hready l hl).hits h.hits
  rw [← hva, ← hid] at hr
  obtain ⟨u, hu, heq⟩ := ldPlain_ready hhint hr
  rw [hact p l h.hits hl, heq, h.hits.rdNat]
  exact h.put hu (mem_lanesOf.1 hl).1 (fun hm => absurd (hlt l hm) (lt_irrefl l)) rfl

/-- A load that has all its lanes' data at hand finishes with them. -/
theorem memDrive_loads {sw : Bool} {all : Word32} {np : Bool} {fin : State → MemW → Res}
    (hx : ∀ l ∈ lanesOf m.act, xlate s s.ct.ctx s.ct.core (m.va l) false = .hit (loc l)) (hmask : s.sp.mask ≠ 0) :
    ∃ p, Loaded s m (fun l => loadForm t x.form (s.rdNat (loc l) (formBytes t x.form))) (lanesOf m.act) p ∧
      memDrive s sw all np m false act none fin = fin (p.s.setSp { p.s.sp with mem := none, pmask := 0 }) p.m := by
  have hp := loads_pass hready hhint hgot hnai hact
  refine ⟨_, hp, memDrive_hits (loc := loc) sw all np hgot (fun l hl => ⟨hx l hl, (isHost_of_isDev (hready l hl).dev).2⟩) rfl hp.bad hp.aborts ?_ ?_⟩
  · have hsp : ∀ u, OnlyHits s u → u.sp = s.sp := fun u hu => by rw [State.sp, State.sp, hu.cg, hu.cur]
    rw [hsp _ hp.hits]
    exact hmask
  · refine MemW.rest_all fun l => ?_
    rw [hp.got l, hp.act]

end

end Sys2Proof.Machine
end

section
/-! How a memory word issues and finishes (R94, R317, R319): its checks pass, its counter rises, its results stay pending or are made. -/
namespace Sys2Proof.Machine

/-! Checks. -/

theorem forbidTx_sub {s : State} (hn : NoTx s) {m : Word32} (hm : ∀ l, inMask m l = true → inMask s.sp.mask l = true) : forbidTx s m = .ok s := by
  have hnone : txLanes s.cg m = [] := by
    rw [txLanes, List.filter_eq_nil_iff]
    intro l hl
    exact (List.filter_eq_nil_iff.1 hn) l (mem_lanesOf.2 ⟨(mem_lanesOf.1 hl).1, hm l (mem_lanesOf.1 hl).2⟩)
  simp [forbidTx, hnone]

theorem forbidMem_of_noTx {s : State} (hn : NoTx s) (h : VH) (x : MemX) : forbidMem s (active s h) x = .ok s := by
  refine forbidTx_sub hn fun l hl => ?_
  rw [inMask_maskOf fun k hk => (mem_lanesOf.1 (List.mem_filter.1 hk).1).1] at hl
  exact inMask_active (mem_lanesOf.1 (List.mem_filter.1 (of_decide_eq_true hl)).1).2

theorem txOf_of_noTx {s : State} (hn : NoTx s) {h : VH} {l : Nat} (hl : l ∈ lanesOf (active s h)) : (txOf s.cg l).active = false := by
  obtain ⟨hl32, hla⟩ := mem_lanesOf.1 hl
  simpa using (List.filter_eq_nil_iff.1 hn) l (mem_lanesOf.2 ⟨hl32, inMask_active hla⟩)

/-- Addresses that are aligned and canonical pass (R319). -/
theorem gCheck_ok {n a : Nat} (ha : a % n = 0) (hc : canonical a = true) : gCheck n a = none := by simp [gCheck, ha, hc]

theorem gChecks_ok {s : State} {act : Word32} {n : Nat} {addr : Nat → Nat} (h : ∀ l ∈ lanesOf act, gCheck n (addr l) = none) : gChecks s act n addr = .ok s := by
  have hfind : (((lanesOf act).map fun l => (l, gCheck n (addr l))).find? fun f => f.2.isSome) = none := by
    rw [List.find?_eq_none]
    intro f hf
    obtain ⟨l, hl, rfl⟩ := List.mem_map.1 hf
    simp [h l hl]
  simp only [gChecks, raiseFail, firstFail, hfind]

/-! What an issue leaves as it was. -/

theorem lineLocked_setCg {s : State} {g : Group} (h : g.tx = s.cg.tx) {line : Nat} {own : Option (Nat × Nat)} (hl : lineLocked s line own = false) :
    lineLocked (s.setCg g) line own = false := by
  simp only [lineLocked, List.any_eq_false, List.any_eq_true, not_exists, not_and] at hl ⊢
  intro e he t ht
  rcases mem_of_mem_mset he with rfl | hold
  · by_cases hd : s.cg = Group.init
    · rw [h, hd] at ht
      exact absurd ht (by simp [Group.init])
    · exact hl _ (mem_of_mget_ne hd) t (h ▸ ht)
  · exact hl e hold t ht

/-- A state that the issue of a memory word leads to: of its group only the status words, the latch tags and the pending results differ. -/
structure Issued (s u : State) : Prop where
  vec : OnlyVector s u
  seq : u.seq = s.seq
  cg : u.cg = { s.cg with status := u.cg.status, tags := u.cg.tags, pend := u.cg.pend }
  lock : ∀ {line own}, lineLocked s line own = false → lineLocked u line own = false

theorem Issued.refl (s : State) : Issued s s := ⟨OnlyVector.refl s, rfl, rfl, id⟩

theorem Issued.trans {s t u : State} (h : Issued s t) (k : Issued t u) : Issued s u :=
  ⟨h.vec.trans k.vec, k.seq.trans h.seq, by rw [k.cg, h.cg], fun hl => k.lock (h.lock hl)⟩

theorem Issued.setCg {s : State} {g : Group} (hg : g = { s.cg with status := g.status, tags := g.tags, pend := g.pend }) : Issued s (s.setCg g) :=
  ⟨(OnlyGroup.setCg s g).toVector, rfl, by rw [State.cg_setCg]; exact hg, lineLocked_setCg (by rw [hg])⟩

theorem Issued.ofRead (s : State) (act : Word32) (lat : List Nat) : Issued s (afterRead s act lat) := by
  unfold afterRead
  split_ifs
  · refine Issued.setCg ?_
    rw [Group.orSts_only]
  · exact Issued.refl s

theorem Issued.latched (s : State) (d : Nat) (n : Bool) (vals : LaneVals) (pend : Option Nat) : Issued s (pushLatch s d n vals pend) :=
  ⟨pushLatch_only s d n vals pend, rfl, by rw [pushLatch_cg], fun hl => by
    unfold pushLatch
    dsimp only
    refine lineLocked_setCg ?_ ?_
    · rfl
    · exact hl⟩

/-- An issue raises the counter (R94). -/
theorem Issued.counted (s : State) (cls id : Nat) (n : Bool) (rs sd : List Nat) (act : Word32) :
    Issued s (issueCounted s cls id n rs sd act) ∧
      (issueCounted s cls id n rs sd act).cg.pend = s.cg.pend ++ [⟨cls, id, true, (sd.filter (· != 0)).map fun k => ⟨4, k, 0, false⟩⟩] ∧
      (issueCounted s cls id n rs sd act).cg.status = s.cg.status := by
  let s1 := s.setCg { s.cg with pend := s.cg.pend ++ [⟨cls, id, true, (sd.filter (· != 0)).map fun k => ⟨4, k, 0, false⟩⟩] }
  have h1 : Issued s s1 := Issued.setCg rfl
  have hcg : s1.cg = { s.cg with pend := s.cg.pend ++ [⟨cls, id, true, (sd.filter (· != 0)).map fun k => ⟨4, k, 0, false⟩⟩] } := State.cg_setCg ..
  have hfold : ∀ (rs : List Nat) (u : State), let v := rs.foldl (fun s r => pushLatch s r n (vlanes act fun _ => 0) (some id)) u
      Issued u v ∧ v.cg.pend = u.cg.pend ∧ v.cg.status = u.cg.status := by
    intro rs
    induction rs with
    | nil => exact fun u => ⟨Issued.refl u, rfl, rfl⟩
    | cons r rs ih =>
      intro u
      obtain ⟨h, hp, hs⟩ := ih (pushLatch u r n (vlanes act fun _ => 0) (some id))
      rw [pushLatch_cg] at hp hs
      exact ⟨(Issued.latched u r n _ _).trans h, hp, hs⟩
  unfold issueCounted
  dsimp only
  split_ifs
  · obtain ⟨h, hp, hs⟩ := hfold rs s1
    refine ⟨h1.trans h, hp.trans ?_, hs.trans ?_⟩ <;> rw [hcg]
  · exact ⟨h1, by rw [State.cg_setCg], by rw [State.cg_setCg]⟩

theorem Issued.cur {s u : State} (h : Issued s u) : u.cur = s.cur := h.vec.cur

theorem Issued.ct {s u : State} (h : Issued s u) : u.ct = s.ct := by
  have hteam : u.cg.team = s.cg.team := by rw [h.cg]
  rw [State.ct, hteam, h.vec.1]
  rfl

theorem Issued.sp {s u : State} (h : Issued s u) : u.sp = s.sp := by
  rw [State.sp, h.cg, h.cur]
  rfl

theorem Issued.cc {s u : State} (h : Issued s u) : u.cc = { s.cc with latch := u.cc.latch } := by
  rw [State.cc, h.ct]
  exact h.vec.2.1 _

theorem Issued.tx {s u : State} (h : Issued s u) (l : Nat) : txOf u.cg l = txOf s.cg l := by rw [txOf, h.cg]; rfl

/-- Addresses are translated as before. -/
theorem Issued.xlate_eq {s u : State} (h : Issued s u) (c core va : Nat) (write : Bool) : xlate u c core va write = xlate s c core va write := by
  obtain ⟨hu, hcore, -⟩ := h.vec
  have hdies : u.dies = s.dies := by rw [hu]
  have hentry : xEntry u c core va = xEntry s c core va := by
    simp only [xEntry, State.die, hdies]
    rw [hcore core]
  unfold xlate
  rw [hentry, hu]
  rfl

theorem Issued.logHolds_eq {s u : State} (h : Issued s u) (gh stream id va n : Nat) : logHolds u gh stream id va n = logHolds s gh stream id va n := by
  simp only [logHolds, logMeets, lateHolds]
  rw [h.cc]

theorem Issued.pushPending_eq {s u : State} (h : Issued s u) (core line : Nat) : pushPending u core line = pushPending s core line := by
  have hnet : u.net = s.net := by rw [h.vec.1]
  simp only [pushPending, hnet]

theorem Issued.l1Find_eq {s u : State} (h : Issued s u) (core line : Nat) : l1Find (u.core core) line = l1Find (s.core core) line := by
  simp only [l1Find]
  rw [h.vec.2.1 core]

theorem Issued.lineIn {s u : State} (h : Issued s u) {loc : Nat} {sts : List L1St} (hl : LineIn s loc sts) : LineIn u loc sts := by
  rw [LineIn, h.ct]
  simp only [h.l1Find_eq]
  exact hl

theorem Issued.copyPoison_eq {s u : State} (h : Issued s u) (core loc n : Nat) (ro : Bool) : copyPoison u core loc n ro = copyPoison s core loc n ro := by
  have hdir : u.dirE (lineOf loc) = s.dirE (lineOf loc) := by rw [h.vec.1]; rfl
  have hpois : u.isPoison loc n = s.isPoison loc n := by rw [h.vec.1]; rfl
  simp only [copyPoison, hdir, hpois, h.l1Find_eq]

theorem Issued.rdNat_eq {s u : State} (h : Issued s u) (a n : Nat) : u.rdNat a n = s.rdNat a n := by
  have hb : ∀ x, u.rdByte x = s.rdByte x := fun x => by rw [h.vec.1]; rfl
  simp only [State.rdNat, State.rdBytes, hb]

/-- A lane's load finds the same at hand after the issue. -/
theorem Issued.loadReady {s u : State} (h : Issued s u) {stream id va n loc : Nat} {write : Bool} (hloc : LaneLoc s va n write loc)
    (hlog : logHolds s s.cur.gh stream id va n = false) (hline : LineIn s loc [.s, .e, .o, .m])
    (hclean : copyPoison s s.ct.core loc n false = false) :
    LoadReady u stream id va n loc := by
  obtain ⟨-, -, -, hdev, hlock, hpush⟩ := hloc
  exact ⟨by rw [h.cur, h.logHolds_eq]; exact hlog, hdev, h.lock hlock, by rw [h.ct, h.pushPending_eq]; exact hpush, h.lineIn hline, by rw [h.ct, h.copyPoison_eq]; exact hclean⟩

end Sys2Proof.Machine
end

section
/-! Loads from global memory (R301, R317, R321). -/
namespace Sys2Proof.Machine

/-! Finishing (R94, R96, R100). -/

/-- Groups, cores and the order number alone may differ. -/
def OnlyGroupsCores (s u : State) : Prop := u = { s with seq := u.seq, groups := u.groups, cores := u.cores }

theorem OnlyGroupsCores.trans {s t u : State} (h : OnlyGroupsCores s t) (k : OnlyGroupsCores t u) : OnlyGroupsCores s u := by
  unfold OnlyGroupsCores at *
  rw [k, h]

theorem OnlyGroupsCores.sameMem {s u : State} (h : OnlyGroupsCores s u) : SameMem s u := by
  refine sameMem_of_eq ?_ ?_ ?_ ?_ <;> rw [h]

theorem OnlyVector.groupsCores {s u : State} (h : OnlyVector s u) : OnlyGroupsCores s u := h.1

theorem OnlyHits.groupsCores {s u : State} (h : OnlyHits s u) : OnlyGroupsCores s u := by
  unfold OnlyGroupsCores
  rw [h.only]

theorem OnlyOwnCore.groupsCores {s u : State} (h : OnlyOwnCore s u) : OnlyGroupsCores s u := by
  unfold OnlyGroupsCores
  rw [h.1]

theorem OnlyLatches.groupsCores {s u : State} (h : OnlyLatches s u) : OnlyGroupsCores s u := by
  unfold OnlyGroupsCores
  rw [h.1]

/-- The pending entry of an order number that no earlier one has. -/
theorem map_last_fresh {P : List Pend} {id : Nat} (hP : ∀ p ∈ P, p.id ≠ id) {e : Pend} (he : e.id = id) (f : Pend → Pend) :
    (P ++ [e]).map (fun p => if p.id = id then f p else p) = P ++ [f e] := by
  have hmap : P.map (fun p => if p.id = id then f p else p) = P := by
    conv_rhs => rw [← List.map_id P]
    exact List.map_congr_left fun p hp => if_neg (hP p hp)
  rw [List.map_append, hmap, List.map_singleton, if_pos he]

theorem filter_last_fresh {P : List Pend} {id : Nat} (hP : ∀ p ∈ P, p.id ≠ id) {e : Pend} (he : e.id = id) : (P ++ [e]).filter (fun p => p.id != id) = P := by
  rw [List.filter_append, List.filter_eq_self.2 fun p hp => by simpa using hP p hp]
  simp [he]

section
variable {u : State} {P : List Pend} {e : Pend} {id : Nat} (hpend : u.cg.pend = P ++ [e]) (hid : e.id = id) (hP : ∀ p ∈ P, p.id ≠ id)
include hpend hid hP

/-- In the L-encoding the results of a word that finishes stay pending. -/
theorem finishCounted_pending (hL : u.isL = true) (n : Bool) (rs : List (Nat × LaneVals)) (extra : List PW) :
    OnlyGroupsCores u (finishCounted u id n rs extra) ∧ (finishCounted u id n rs extra).seq = u.seq ∧
      (finishCounted u id n rs extra).cg = { u.cg with pend := P ++ [{ e with wait := false, ws := formWrites e.ws ((if n then [] else pws rs) ++ extra) }] } := by
  let f (p : Pend) : Pend := { p with wait := false, ws := formWrites p.ws ((if n then [] else pws rs) ++ extra) }
  let u1 := u.setCg { u.cg with pend := u.cg.pend.map fun p => if p.id = id then f p else p }
  have hfin : finishCounted u id n rs extra = rs.foldl (fun s r => fillLatch s s.cur.gh id r) u1 := if_pos hL
  have hfold : ∀ (rs : List (Nat × LaneVals)) (v : State), OnlyLatches v (rs.foldl (fun s r => fillLatch s s.cur.gh id r) v) := fun rs v =>
    List.foldlRecOn (motive := OnlyLatches v) rs _ (OnlyLatches.refl v) fun w h r _ => h.trans (fillLatch_only w _ id r)
  have h1 : u1.cg = { u.cg with pend := P ++ [f e] } := by
    simp only [u1, State.cg_setCg]
    rw [hpend, map_last_fresh hP hid]
  have hl := hfold rs u1
  rw [← hfin] at hl
  refine ⟨OnlyGroupsCores.trans (t := u1) rfl hl.groupsCores, by rw [hl.1]; rfl, ?_⟩
  have hcg : (finishCounted u id n rs extra).cg = u1.cg := by rw [hl.1]; rfl
  rw [hcg, h1]

/-- In the D-encoding they are made, and the counter falls. -/
theorem finishCounted_made (hL : u.isL = false) (n : Bool) (rs : List (Nat × LaneVals)) (extra : List PW) :
    OnlyGroupsCores u (finishCounted u id n rs extra) ∧ (finishCounted u id n rs extra).seq = u.seq ∧
      (finishCounted u id n rs extra).cg = extra.foldl writeNow (rs.foldl (fun g r => wrVals g r.1 r.2) { u.cg with pend := P }) := by
  have hfin : finishCounted u id n rs extra = (dropPend u u.cur.gh id).setCg (extra.foldl writeNow (rs.foldl (fun g r => wrVals g r.1 r.2) (dropPend u u.cur.gh id).cg)) :=
    if_neg (by simp [hL])
  have hdrop : (dropPend u u.cur.gh id).cg = { u.cg with pend := P } := by
    have h : (dropPend u u.cur.gh id).cg = { u.cg with pend := u.cg.pend.filter fun p => p.id != id } := State.grp_setGrp u u.cur.gh _
    rw [h, hpend, filter_last_fresh hP hid]
  refine ⟨by rw [hfin]; rfl, by rw [hfin]; rfl, ?_⟩
  rw [hfin, State.cg_setCg, hdrop]

end

/-- Writes that nothing has marked meanwhile. -/
theorem formWrites_unmarked {old ws : List PW} (hk : ∀ w ∈ old, w.kind = 4 ∧ w.con = false) : formWrites old ws = ws := by
  have hold : old.filter (fun w => w.kind != 4) = [] := List.filter_eq_nil_iff.2 fun w hw => by simp [(hk w hw).1]
  have hmark (w : PW) : (old.any fun o => o.kind == 4 && w.kind == 1 && o.key == w.key && o.con) = false := by
    rw [List.any_eq_false]
    intro o ho
    simp [(hk o ho).2]
  rw [formWrites, hold, List.nil_append]
  conv_rhs => rw [← List.map_id ws]
  exact List.map_congr_left fun w _ => by rw [hmark w, Bool.or_false]; rfl

/-- The results of a load: a register, or a pair. -/
theorem ldResults_eq (t : Ty) (d : Nat) {m : MemW} {v : Nat → Word64 × Word64 × Bool}
    (hv : ∀ l ∈ lanesOf m.act, mget 0 m.vals l = (v l).1 ∧ mget 0 m.vals (32 + l) = (v l).2.1) :
    ldResults t d m = pairResult m.act t d fun l => ((v l).1, (v l).2.1) := by
  have h0 : (vlanes m.act fun l => mget 0 m.vals l) = vlanes m.act fun l => (v l).1 := List.map_congr_left fun l hl => congrArg (l, ·) (hv l hl).1
  have h1 : (vlanes m.act fun l => mget 0 m.vals (32 + l)) = vlanes m.act fun l => (v l).2.1 := List.map_congr_left fun l hl => congrArg (l, ·) (hv l hl).2
  simp only [ldResults, pairResult, h0, h1]

/-- Those of a register, or a pair, as the writes to come. -/
theorem pws_pairResult (h : VH) (act : Word32) (t : Ty) (d : Nat) (f : Nat → Word64 × Word64) :
    (if h.n then [] else pws (pairResult act t d f)) = vecWrites h act t d fun l => some (f l) := by
  cases hn : h.n
  · by_cases ht : t = .x64 <;> simp [vecWrites, hn, pairResult, vlanes, pws, ht, List.map_map, Function.comp_def]
  · simp [vecWrites, hn]

end Sys2Proof.Machine
end

section
/-! A load from global memory that finds its lanes' data at hand (R301, R317, R319, R321). -/
namespace Sys2Proof.Machine

/-! From its last access to its results. -/

/-- A state that a counted word is about to finish in: of the group only its status words, latch tags and splits differ, and its entry is pending. -/
structure Finishing (s w : State) (e : Pend) : Prop where
  frame : OnlyGroupsCores s w
  seq : w.seq = s.seq
  cg : w.cg = { s.cg with status := w.cg.status, tags := w.cg.tags, splits := w.cg.splits, pend := s.cg.pend ++ [e] }

theorem Finishing.ct {s w : State} {e : Pend} (h : Finishing s w e) : w.ct = s.ct := by
  have hteam : w.cg.team = s.cg.team := by rw [h.cg]
  rw [State.ct, hteam, h.frame]
  rfl

theorem Finishing.isL {s w : State} {e : Pend} (h : Finishing s w e) : w.isL = s.isL := by rw [State.isL, h.ct, State.isL]

/-- The word leaves its split after its last access. -/
theorem Finishing.ofPass {s u v : State} {e : Pend} (hu : Issued s u) (hpend : u.cg.pend = s.cg.pend ++ [e]) (hv : OnlyHits u v) (p : Split) :
    Finishing s (v.setSp p) e := by
  refine ⟨(hu.vec.groupsCores.trans hv.groupsCores).trans rfl, ?_, ?_⟩
  · rw [State.setSp_seq, hv.only]
    exact hu.seq
  · rw [State.cg_setSp, hv.cg, hu.cg, hpend]

theorem Finishing.acquired {s w : State} {e : Pend} (h : Finishing s w e) (order scope : Nat) : Finishing s (acquired w order scope) e := by
  have hacq := (acquired_spec w order scope).1
  have hcg : (Machine.acquired w order scope).cg = w.cg := by rw [hacq.1]; rfl
  refine ⟨h.frame.trans hacq.groupsCores, ?_, by rw [hcg]; exact h.cg⟩
  rw [hacq.1]
  exact h.seq

theorem Finishing.orSts {s w : State} {e : Pend} (h : Finishing s w e) (b : Nat) (ls : List Nat) : Finishing s (w.setCg (w.cg.orSts b ls)) e := by
  refine ⟨h.frame.trans rfl, h.seq, ?_⟩
  rw [State.cg_setCg, Group.orSts_only, h.cg]

/-- A load gives its values. -/
theorem Finishing.givesVec {s w : State} {cls : Nat} {ws : List PW} (hw : Finishing s w ⟨cls, s.seq, true, ws⟩) (hk : ∀ w ∈ ws, w.kind = 4 ∧ w.con = false)
    (hP : ∀ p ∈ s.cg.pend, p.id ≠ s.seq) (h : VH) (ty : Ty) (d : Nat) (act : Word32) (f : Nat → Word64 × Word64) :
    let t := finishCounted w s.seq h.n (pairResult act ty d f) []
    GivesVec s t h cls ty d act f ∧ KeepsGroup s t ∧ OnlyGroupsCores s t ∧ t.cg.status = w.cg.status := by
  intro t
  have hpend : w.cg.pend = s.cg.pend ++ [⟨cls, s.seq, true, ws⟩] := by rw [hw.cg]
  cases hL : s.isL
  · obtain ⟨hframe, hseq, hcg⟩ := finishCounted_made hpend rfl hP (hw.isL.trans hL) h.n (pairResult act ty d f) []
    obtain ⟨hvecs, hst⟩ := foldl_wrVals_only (pairResult act ty d f) { w.cg with pend := s.cg.pend }
    change t.cg = _ at hcg
    rw [List.foldl_nil] at hcg
    rw [← hcg] at hvecs hst
    have hwv : w.cg.v = s.cg.v := by rw [hw.cg]
    refine ⟨⟨by simp [hL], fun _ => ⟨hseq.trans hw.seq, fun r l hl => ?_⟩⟩, ?_, hw.frame.trans hframe, hst⟩
    · have hvel : ({ w.cg with pend := s.cg.pend } : Group).velem r l = s.cg.velem r l := by simp only [Group.velem, hwv]
      rw [hcg, velem_pairResult _ _ _ _ _ hl, hvel]
      cases inMask act l <;> simp
    · rw [KeepsGroup, hvecs, hw.cg]
  · obtain ⟨hframe, hseq, hcg⟩ := finishCounted_pending hpend rfl hP (hw.isL.trans hL) h.n (pairResult act ty d f) []
    change t.cg = _ at hcg
    rw [List.append_nil, pws_pairResult, formWrites_unmarked hk] at hcg
    refine ⟨⟨fun _ => ⟨hseq.trans hw.seq, ?_, ?_⟩, by simp [hL]⟩, ?_, hw.frame.trans hframe, by rw [hcg]⟩
    · rw [hcg, hw.cg]
    · rw [hcg]
    · rw [KeepsGroup, hcg, hw.cg]

/-! Its issue. -/

/-- An operand kept with a word, in an active lane. -/
theorem mget_vlanes {α : Type} [DecidableEq α] (d : α) {act : Word32} (f : Nat → α) {l : Nat} (hl : l ∈ lanesOf act) :
    mget d (msetAll d [] (vlanes act f)) l = f l := by
  refine mget_msetAll_agree d _ _ (fun e he hk => ?_) ⟨(l, f l), List.mem_map_of_mem hl, rfl⟩
  obtain ⟨k, -, rfl⟩ := List.mem_map.1 he
  rw [← show k = l from hk]

theorem memStart_fresh {s : State} (h : s.sp.mem = none) (mk : State → Except State (State × MemW)) : memStart s mk = mk s := by rw [memStart, h]

theorem ldStart_ok {s : State} {h : VH} {t : Ty} {x : MemX} {d : Nat} {a : Opnd} (hf : FreshWord s)
    (hr : Ready s (active s h) (opRegs false a ++ latchRegs s (opLatches false a))) (hroom : roomCounter s 0 = true)
    (hchk : ∀ l ∈ lanesOf (active s h), gCheck (formBytes t x.form) (gAddr s a x.off l) = none) :
    ldStart h t x d a s = .ok (issueCounted (afterRead s (active s h) (opLatches false a)) 0 s.seq h.n (destRegs t d) [] (active s h),
      memOps s false false x.stream (active s h) (gAddr s a x.off) noOp noOp noOp noOp 0) := by
  obtain ⟨hmem, -, hn, -⟩ := hf
  rw [ldStart, memCounted, memStart_fresh hmem, cVMEM, hroom]
  simp only [Bool.not_true, Bool.false_eq_true, if_false]
  rw [forbidMem_of_noTx hn]
  simp only [bind, Except.bind]
  rw [vpre_ready hr]
  simp only
  rw [gChecks_ok hchk]
  rfl

/-- The status words where a sticky bit is set in some of the active lanes. -/
theorem statusBy_orSts {s t : State} {g : Group} {act : Word32} {lat ls : List Nat} {b : Nat} {set : Nat → Bool} (ht : t.cg.status = (g.orSts b ls).status)
    (hg : g.status = (afterRead s act lat).cg.status) (hls : ∀ l, l < 32 → (l ∈ ls ↔ inMask act l = true ∧ set l = true)) :
    StatusBy s t act lat fun l w => orBit (set l) b w := by
  intro l hl
  have hst : t.cg.st l = (g.orSts b ls).st l := by rw [Group.st, Group.st, ht]
  have hbase : g.st l = (afterRead s act lat).cg.st l := by rw [Group.st, Group.st, hg]
  rw [hst, Group.st_orSts, hbase, afterRead_st s act lat l hl, latchStatus]
  by_cases hin : inMask act l = true <;> cases hset : set l <;> simp [hls l hl, hin, hset, orBit]

/-- What a load does once all its lanes have their values (R279, R183). -/
def ldDone (h : VH) (ty : Ty) (x : MemX) (d : Nat) (s : State) (m : MemW) : State :=
  let s2 := acquired s x.order (actScope s m false x.scope)
  finishCounted (s2.setCg (s2.cg.orSts bNAI (lanesOf m.nai))) m.id h.n (ldResults ty d m) []

theorem ldDone_eq (h : VH) {ty : Ty} (x : MemX) (d : Nat) (s : State) {m : MemW} {id : Nat} {act : Word32} {v : Nat → Word64 × Word64 × Bool} (hid : m.id = id) (hact : m.act = act)
    (hv : ∀ l ∈ lanesOf m.act, mget 0 m.vals l = (v l).1 ∧ mget 0 m.vals (32 + l) = (v l).2.1) :
    ldDone h ty x d s m = finishCounted ((acquired s x.order (actScope s m false x.scope)).setCg ((acquired s x.order (actScope s m false x.scope)).cg.orSts bNAI (lanesOf m.nai)))
      id h.n (pairResult act ty d fun l => ((v l).1, (v l).2.1)) [] := by
  rw [ldDone, ldResults_eq ty d hv, hid, hact]

section
variable {s : State} {h : VH} {ty : Ty} {x : MemX} {d : Nat} {a : Opnd} {loc : Nat → Nat} (hf : FreshWord s) (hhint : x.hint ≠ 1)
  (hr : Ready s (active s h) (opRegs false a ++ latchRegs s (opLatches false a))) (hroom : roomCounter s 0 = true)
  (hlog : ∀ l, l < 32 → inMask (active s h) l = true → logHolds s s.cur.gh x.stream s.seq (gAddr s a x.off l) (formBytes ty x.form) = false)
  (hloc : ∀ l, l < 32 → inMask (active s h) l = true → LaneLoc s (gAddr s a x.off l) (formBytes ty x.form) false (loc l) ∧
    LineIn s (loc l) [.s, .e, .o, .m] ∧ copyPoison s s.ct.core (loc l) (formBytes ty x.form) false = false)
include hf hhint hr hroom hlog hloc

theorem execLdg_hits : let v (l : Nat) := loadForm ty x.form (s.rdNat (loc l) (formBytes ty x.form))
    ∃ t, execLdg h ty x d a s = .next t ∧ GivesVec s t h 0 ty d (active s h) (fun l => ((v l).1, (v l).2.1)) ∧ KeepsGroup s t ∧ SameMem s t ∧
      StatusBy s t (active s h) (opLatches false a) (fun l w => orBit (v l).2.2 bNAI w) ∧ OnlyGroupsCores s t := by
  intro v
  let act := active s h
  let lat := opLatches false a
  let s1 := afterRead s act lat
  let u := issueCounted s1 0 s.seq h.n (destRegs ty d) [] act
  let m := memOps s false false x.stream act (gAddr s a x.off) noOp noOp noOp noOp 0
  obtain ⟨hcount, hpend, hstat⟩ := Issued.counted s1 0 s.seq h.n (destRegs ty d) [] act
  have hread : s1.cg = { s.cg with status := s1.cg.status } := afterRead_cg s act lat
  have hu : Issued s u := (Issued.ofRead s act lat).trans hcount
  have hpend : u.cg.pend = s.cg.pend ++ [⟨0, s.seq, true, []⟩] := by rw [hpend, hread]; rfl
  have hat {l : Nat} (hl : l ∈ lanesOf act) := hloc l (mem_lanesOf.1 hl).1 (mem_lanesOf.1 hl).2
  have hva {l : Nat} (hl : l ∈ lanesOf act) : m.va l = gAddr s a x.off l := mget_vlanes 0 _ hl
  have hready (l : Nat) (hl : l ∈ lanesOf m.act) : LoadReady u x.stream m.id (m.va l) (formBytes ty x.form) (loc l) := by
    obtain ⟨hlane, hline, hclean⟩ := hat hl
    rw [hva hl]
    exact hu.loadReady hlane (hlog l (mem_lanesOf.1 hl).1 (mem_lanesOf.1 hl).2) hline hclean
  have hx (l : Nat) (hl : l ∈ lanesOf m.act) : xlate u u.ct.ctx u.ct.core (m.va l) false = .hit (loc l) := by
    rw [hva hl, hu.ct, hu.xlate_eq]
    exact (hat hl).1.2.2.1
  have hact (p : MPass) (l : Nat) (hp : OnlyHits u p.s) (hl : l ∈ lanesOf m.act) : ldLane ty x p l (loc l) = ldPlain ty x p l (loc l) := by
    have htx : (txOf p.s.cg l).active = false := by
      rw [hp.cg, hu.tx]
      exact txOf_of_noTx hf.2.2.1 hl
    simp [ldLane, htx]
  obtain ⟨p, hp, hdrive⟩ := memDrive_loads (sw := false) (all := 0) (np := x.hint == 1) (fin := fun s m => .ok (ldDone h ty x d s m))
    hready hhint rfl rfl hact hx (by rw [hu.sp]; exact hf.2.2.2.2.1)
  have hw := Finishing.ofPass hu hpend hp.hits { p.s.sp with mem := none, pmask := 0 }
  have hstw : (p.s.setSp { p.s.sp with mem := none, pmask := 0 }).cg.status = s1.cg.status := by rw [State.cg_setSp, hp.hits.cg, hstat]
  generalize p.s.setSp { p.s.sp with mem := none, pmask := 0 } = w at hdrive hw hstw
  have hid : p.m.id = s.seq := by rw [hp.word]; rfl
  have hpact : p.m.act = act := by rw [hp.word]; rfl
  have hvals : ∀ l ∈ lanesOf p.m.act, mget 0 p.m.vals l = (v l).1 ∧ mget 0 p.m.vals (32 + l) = (v l).2.1 := fun l hl => by
    have hg := (hp.vals l (by rw [← show p.m.act = m.act from hpact]; exact hl)).2
    rw [hu.rdNat_eq] at hg
    exact hg
  have hdone : ldDone h ty x d w p.m = _ := ldDone_eq h x d w hid hpact hvals
  let wa := acquired w x.order (actScope w p.m false x.scope)
  have hwa : Finishing s wa _ := hw.acquired x.order (actScope w p.m false x.scope)
  obtain ⟨hgives, hkeeps, hframe, hst⟩ := (hwa.orSts bNAI (lanesOf p.m.nai)).givesVec (by simp) hf.2.2.2.2.2 h ty d act (fun l => ((v l).1, (v l).2.1))
  refine ⟨_, ?_, hgives, hkeeps, hframe.sameMem, ?_, hframe⟩
  · rw [execLdg, ldStart_ok hf hr hroom fun l hl => gCheck_ok (hat hl).1.1 (hat hl).1.2.1, ← hdone]
    exact congrArg Res.out hdrive
  · have hwst : wa.cg.status = s1.cg.status := by
      have hcg : wa.cg = w.cg := by
        simp only [wa]
        rw [(acquired_spec w _ _).1.1]
        rfl
      rw [hcg, hstw]
    refine statusBy_orSts (set := fun l => (v l).2.2) (hst.trans (by rw [State.cg_setCg])) hwst fun k hk => ?_
    rw [mem_lanesOf, hp.nai k, hu.rdNat_eq]
    simp [hk, v, m, memOps, mem_lanesOf, act]
end

end Sys2Proof.Machine
end

section
/-! What a store that hits its core's L1 touches (R265, R280, R284, R301, R305, R321). -/
namespace Sys2Proof.Machine

/-- Nothing but what a store that hits can touch has been touched: bytes and their marks, what readers of them saw, what releases left, and lines
of the executing core's L1, of which those that were there in E or M are. -/
structure OnlyStores (s t : State) : Prop where
  only : t = { s with mem := t.mem, enc := t.enc, poison := t.poison, groups := t.groups, cores := t.cores, dir := t.dir }
  cg : t.cg = { s.cg with tx := t.cg.tx, frel := t.cg.frel }
  active : ∀ l, (txOf t.cg l).active = (txOf s.cg l).active
  lock : ∀ {line}, lineLocked s line none = false → lineLocked t line none = false
  core : ∀ c, t.core c = { s.core c with l1 := (t.core c).l1, ret := (t.core c).ret, ro := (t.core c).ro }
  found : ∀ {line x}, l1Find (s.core s.ct.core) line = some x → x.st ∈ [L1St.e, .m] → ∃ y, l1Find (t.core s.ct.core) line = some y ∧ y.st ∈ [L1St.e, .m]

theorem OnlyStores.refl (s : State) : OnlyStores s s := ⟨rfl, rfl, fun _ => rfl, id, fun _ => rfl, fun h hx => ⟨_, h, hx⟩⟩

theorem OnlyStores.cur {s t : State} (h : OnlyStores s t) : t.cur = s.cur := by rw [h.only]

theorem OnlyStores.ct {s t : State} (h : OnlyStores s t) : t.ct = s.ct := by
  have hteam : t.cg.team = s.cg.team := by rw [h.cg]
  rw [State.ct, hteam, h.only]
  rfl

theorem OnlyStores.sp {s t : State} (h : OnlyStores s t) : t.sp = s.sp := by
  rw [State.sp, h.cg, h.cur]
  rfl

theorem OnlyStores.trans {s t u : State} (h : OnlyStores s t) (k : OnlyStores t u) : OnlyStores s u := by
  refine ⟨by rw [k.only, h.only], by rw [k.cg, h.cg], fun l => (k.active l).trans (h.active l), fun hl => k.lock (h.lock hl), fun c => by rw [k.core c, h.core c],
    fun hx hst => ?_⟩
  obtain ⟨y, hy, hyst⟩ := h.found hx hst
  obtain ⟨z, hz, hzst⟩ := k.found (h.ct ▸ hy) hyst
  exact ⟨z, h.ct ▸ hz, hzst⟩

/-! The line. -/

/-- A store that hits takes the line to M. -/
theorem OnlyStores.hit (s : State) (x : L1Line) (a : Acc) : OnlyStores s (l1Hit s s.ct.core x .m true a) := by
  refine ⟨rfl, rfl, fun _ => rfl, id, fun c => ?_, fun {line' y} hy hst => ?_⟩
  · by_cases hc : c = s.ct.core
    · subst hc
      simp only [l1Hit, if_true, State.core_setCore, l1Put]
    · simp only [l1Hit, if_true, State.core_setCore_ne _ _ hc]
      rfl
  · simp only [l1Hit, if_true, State.core_setCore]
    have hfind := l1Find_put (s.core s.ct.core) (x := { x with st := .m, prio := max x.prio a.prio, push := if a.touch then none else x.push, sbytes := x.sbytes.filter (fun b => !a.locs.contains b), pois := [] }) (by simp) line'
    by_cases hl : line' = x.line
    · rw [if_pos hl] at hfind
      exact ⟨_, hfind, by simp⟩
    · rw [if_neg hl] at hfind
      exact ⟨y, hfind.trans hy, hst⟩

/-! The bytes. -/

/-- A group some of whose lanes have been doomed. -/
def Doomed (g g' : Group) : Prop := g' = { g with tx := g'.tx } ∧ ∀ l, (txOf g' l).active = (txOf g l).active

theorem doomLanes_doomed (s : State) (ls : List Nat) (p : Option (Nat × Nat)) (i : Nat) : Doomed (s.grp i) ((doomLanes s ls p).grp i) := by
  refine mget_map_rel (R := fun g' g => Doomed g g') (d := Group.init) ⟨rfl, fun _ => rfl⟩ (fun e => ?_) (fun e => ?_) i s.groups
  · dsimp only
    split <;> rfl
  · dsimp only
    split_ifs
    · exact ⟨rfl, fun _ => rfl⟩
    · refine ⟨rfl, fun l => ?_⟩
      refine mget_map_rel (R := fun t' t => t'.active = t.active) (d := Tx.init) rfl (fun t => ?_) (fun t => ?_) l e.2.tx
      · split <;> rfl
      · split <;> rfl

theorem lineLocked_doomLanes {s : State} {line : Nat} (ls : List Nat) (p : Option (Nat × Nat)) (h : lineLocked s line none = false) :
    lineLocked (doomLanes s ls p) line none = false := by
  simp only [lineLocked, doomLanes, List.any_map, List.any_eq_false, Function.comp_apply] at h ⊢
  intro e he
  have hold := h e he
  split_ifs
  · exact hold
  · simp only [List.any_map, List.any_eq_true, not_exists, not_and, Function.comp_apply] at hold ⊢
    intro t ht
    have := hold t ht
    split_ifs <;> exact this

/-- What a core's read-only path holds after it has seen a write. -/
def roNoted (s : State) (l : List Host.Cell) (e : Nat × CoreSt) : Nat × CoreSt :=
  (e.1, { e.2 with ro := e.2.ro.map fun r =>
    let old := (l.filter fun c => lineOf c.1 == r.line).map fun c => (c.1, s.rdByte c.1)
    if old = [] then r else { r with old := old :: r.old } })

theorem roNote_core (s : State) (l : List Host.Cell) (c : Nat) : (roNote s l).core c = { s.core c with ro := ((roNote s l).core c).ro } :=
  mget_map_rel (R := fun k' k => k' = { k with ro := k'.ro }) (d := CoreSt.init) rfl (F := roNoted s l) (fun _ => rfl) (fun _ => rfl) c s.cores

theorem OnlyStores.perform (s : State) (l : List Host.Cell) : OnlyStores s (s.perform l) := by
  have hgroups : (s.perform l).groups = (doomLanes (roNote s l) ((l.map fun c => lineOf c.1).eraseDups) none).groups := by
    simp only [State.perform, State.performFor]
    rw [wrCells_only]
  have hcores : (s.perform l).cores = (roNote s l).cores := by
    simp only [State.perform, State.performFor]
    rw [wrCells_only]
    rfl
  have hcore (c : Nat) : (s.perform l).core c = { s.core c with ro := ((s.perform l).core c).ro } := by
    have h : (s.perform l).core c = (roNote s l).core c := congrArg (mget CoreSt.init · c) hcores
    rw [h]
    exact roNote_core s l c
  have hcg : (s.perform l).cg = (doomLanes (roNote s l) ((l.map fun c => lineOf c.1).eraseDups) none).grp s.cur.gh := by
    rw [State.cg, perform_cur]
    exact congrArg (mget Group.init · s.cur.gh) hgroups
  obtain ⟨hgrp, hactive⟩ := doomLanes_doomed (roNote s l) ((l.map fun c => lineOf c.1).eraseDups) none s.cur.gh
  rw [← hcg] at hgrp hactive
  refine ⟨?_, ?_, hactive, fun hl => ?_, fun c => by rw [hcore c], fun {line x} hx hst => ⟨x, ?_, hst⟩⟩
  · rw [State.perform, performFor_only]
  · rw [hgrp]
    rfl
  · have hl' : lineLocked (roNote s l) _ none = false := hl
    have := lineLocked_doomLanes ((l.map fun c => lineOf c.1).eraseDups) none hl'
    rw [← this]
    simp only [lineLocked, hgroups]
  · rw [← hx]
    simp only [l1Find]
    rw [hcore]

/-! The release. -/

theorem OnlyStores.setDirE (s : State) (line : Nat) (e : DirEnt) : OnlyStores s (s.setDirE line e) :=
  ⟨rfl, rfl, fun _ => rfl, id, fun _ => rfl, fun h hx => ⟨_, h, hx⟩⟩

theorem OnlyStores.fenceUsed (s : State) (stream agent : Nat) : OnlyStores s (fenceUsed s s.cur.gh stream agent) := by
  have hset : Machine.fenceUsed s s.cur.gh stream agent = s.setCg { s.cg with frel := mset 0 s.cg.frel (stream * 33 + agent) 0 } := rfl
  rw [hset]
  exact ⟨rfl, by rw [State.cg_setCg], fun l => by rw [State.cg_setCg]; rfl, fun hl => lineLocked_setCg (g := { s.cg with frel := mset 0 s.cg.frel (stream * 33 + agent) 0 }) rfl hl, fun _ => rfl, fun h hx => ⟨_, h, hx⟩⟩

theorem OnlyStores.noteRelease (s : State) (stream agent line core order scope : Nat) : OnlyStores s (noteRelease s s.cur.gh stream agent line core order scope) := by
  have hnarrow : ∀ scopes, OnlyStores s (noteNarrow s s.cur.gh stream line core scopes) := fun scopes => by
    unfold noteNarrow
    dsimp only
    split_ifs
    · exact OnlyStores.setDirE s _ _
    · exact OnlyStores.refl s
  have h := hnarrow ((if releases order then [scope] else []) ++ (fenceScope (s.grp s.cur.gh) stream agent).toList)
  have hused := OnlyStores.fenceUsed (noteNarrow s s.cur.gh stream line core ((if releases order then [scope] else []) ++ (fenceScope (s.grp s.cur.gh) stream agent).toList)) stream agent
  rw [h.cur] at hused
  exact h.trans hused

end Sys2Proof.Machine
end

section
/-! The pass of a store over its lanes (R321): the highest lane last. -/
namespace Sys2Proof.Machine

/-! Bytes stored. -/

/-- A place that a run of cells names reads as the byte that every cell of it gives. -/
theorem rdByte_wrCells_agree {o : Nat} {b : Byte} (hp : isPeer o = false) :
    ∀ (l : List Host.Cell) (s : State), (∀ c ∈ l, c.1 = o → c.2 = b) → (∃ c ∈ l, c.1 = o) → (s.wrCells l).rdByte o = b
  | [], _, _, h => by simp at h
  | c :: l, s, hall, hex => by
    change ((s.wrByte c.1 c.2).wrCells l).rdByte o = b
    by_cases hl : ∃ e ∈ l, e.1 = o
    · exact rdByte_wrCells_agree hp l _ (fun e he => hall e (List.mem_cons_of_mem _ he)) hl
    · have hc : c.1 = o := by
        obtain ⟨e, he, ho⟩ := hex
        rcases List.mem_cons.1 he with rfl | he
        · exact ho
        · exact absurd ⟨e, he, ho⟩ hl
      rw [rdByte_wrCells_ne l _ fun e he ho => hl ⟨e, he, ho⟩, ← hall c (List.mem_cons_self ..) hc, hc]
      exact rdByte_wrByte_same s o c.2 hp

/-- Bytes stored from a location. -/
theorem rdByte_perform_at (s : State) {loc o : Nat} {bs : List Byte} (hp : isPeer o = false) :
    (s.perform (cellsOf loc bs)).rdByte o = if loc ≤ o ∧ o < loc + bs.length then nthD 0 bs (o - loc) else s.rdByte o := by
  split_ifs with h
  · refine rdByte_wrCells_agree hp (cellsOf loc bs) (doomLanes (roNote s (cellsOf loc bs)) _ none) (fun c hc ho => ?_) ⟨(o, nthD 0 bs (o - loc)), ?_, rfl⟩
    · obtain ⟨k, -, rfl⟩ := List.mem_map.1 hc
      rw [← show loc + k = o from ho, Nat.add_sub_cancel_left]
    · refine List.mem_map.2 ⟨o - loc, List.mem_range.2 (by omega), ?_⟩
      rw [Nat.add_sub_cancel' h.1]
  · exact rdByte_perform_cellsOf s bs (by omega)

theorem rdByte_noteRelease (s : State) (gh stream agent line core order scope o : Nat) (hp : isPeer o = false) :
    (noteRelease s gh stream agent line core order scope).rdByte o = s.rdByte o := by
  refine sameMem_of_eq (s := s) ?_ ?_ ?_ ?_ o hp <;> (unfold noteRelease noteNarrow; dsimp only; split_ifs <;> rfl)

/-! One lane. -/

/-- What a lane's store finds at hand. -/
structure StoreReady (s : State) (stream id va n loc : Nat) : Prop where
  log : logHolds s s.cur.gh stream id va n = false
  dev : isDev loc = true
  lock : lineLocked s (lineOf loc) none = false
  push : pushPending s s.ct.core (lineOf loc) = false
  line : LineIn s loc [.e, .m]

theorem StoreReady.stores {s u : State} {stream id va n loc : Nat} (h : StoreReady s stream id va n loc) (hu : OnlyStores s u) : StoreReady u stream id va n loc := by
  have hcc : u.cc = { s.cc with l1 := u.cc.l1, ret := u.cc.ret, ro := u.cc.ro } := by rw [State.cc, hu.ct]; exact hu.core _
  obtain ⟨x, hx, hst⟩ := h.line
  obtain ⟨y, hy, hyst⟩ := hu.found hx hst
  have hnet : u.net = s.net := by rw [hu.only]
  refine ⟨?_, h.dev, hu.lock h.lock, ?_, ⟨y, by rw [hu.ct]; exact hy, hyst⟩⟩
  · rw [hu.cur, ← h.log]
    simp only [logHolds, logMeets, lateHolds]
    rw [hcc]
  · rw [← h.push, hu.ct]
    simp only [pushPending, hnet]

/-- A store to a line that its core holds alone (R301). -/
theorem lineAccess_write {s : State} {core loc : Nat} {x : L1Line} {a : Acc} (hdev : isDev loc = true) (hlock : lineLocked s (lineOf loc) none = false)
    (hpush : pushPending s core (lineOf loc) = false) (hloc : a.locs.headD (128 * lineOf loc) = loc) (hx : l1Find (s.core core) (lineOf loc) = some x)
    (hst : x.st ∈ [L1St.e, .m]) : lineAccess s core (lineOf loc) true a = .ready (l1Hit s core x .m true a) := by
  have hhost : ∀ u, hostDirty u (lineOf loc) true = u := fun u => by
    have hd : isHost (128 * lineOf loc) = false := by
      simp only [isDev, decide_eq_true_eq] at hdev
      have hle := Nat.mul_div_le loc 128
      exact Bool.and_eq_false_iff.2 (Or.inl (decide_eq_false (by rw [lineOf]; omega)))
    simp [hostDirty, hd]
  rw [lineAccess, hlock, hpush, hloc, hostWait_dev hdev, hx]
  simp only [List.mem_cons, List.not_mem_nil, or_false] at hst
  rcases hst with h | h <;> simp [h, hhost]

/-- A store of a lane outside a transaction. -/
theorem stPlain_ready {sw : Bool} {x : MemX} {p : MPass} {l loc n : Nat} (hn : 0 < n) (v : Nat) (h : StoreReady p.s x.stream p.m.id (p.m.va l) n loc) :
    ∃ u, OnlyStores p.s u ∧ stPlain sw x p l loc (toBytes n v) = ({ p with s := u } : MPass).done l ∧
      ∀ o, isPeer o = false → u.rdByte o = if loc ≤ o ∧ o < loc + n then BitVec.ofNat 8 (v / 2 ^ (8 * (o - loc))) else p.s.rdByte o := by
  obtain ⟨y, hy, hst⟩ := h.line
  have hlen : (toBytes n v).length = n := toBytes_length n v
  let a := accOf p.s p.s.ct.ctx (p.m.va l) loc n x.hint x.order x.stream
  let hit := l1Hit p.s p.s.ct.core y .m true a
  have h1 : OnlyStores p.s hit := OnlyStores.hit p.s y a
  have h2 : OnlyStores hit (hit.perform (cellsOf loc (toBytes n v))) := OnlyStores.perform hit _
  have h3 := OnlyStores.noteRelease (hit.perform (cellsOf loc (toBytes n v))) x.stream (agentOf sw l) (lineOf loc) p.s.ct.core x.order x.scope
  rw [(h1.trans h2).cur] at h3
  refine ⟨_, (h1.trans h2).trans h3, ?_, fun o ho => ?_⟩
  · have hacc : lineAccess p.s p.s.ct.core (lineOf loc) true a = .ready hit := lineAccess_write h.dev h.lock h.push (headD_locs hn) hy hst
    simp only [stPlain, stAt, hlen, h.log, (isHost_of_isDev h.dev).2, Bool.false_eq_true, if_false]
    rw [show lineAccess p.s p.s.ct.core (lineOf loc) true (accOf p.s p.s.ct.ctx (p.m.va l) loc n x.hint x.order x.stream) = _ from hacc]
  · rw [rdByte_noteRelease _ _ _ _ _ _ _ _ _ ho, rdByte_perform_at hit ho, hlen]
    refine if_ctx_congr Iff.rfl (fun hin => nthD_toBytes v (by omega)) fun _ => ?_
    exact sameMem_of_eq (s := p.s) (t := hit) rfl rfl rfl rfl o ho

/-! The pass. -/

/-- A store's pass in which some lanes have written their bytes. -/
structure Stored (s : State) (m : MemW) (loc v : Nat → Nat) (n : Nat) (done : List Nat) (p : MPass) : Prop where
  stores : OnlyStores s p.s
  word : p.m = { m with got := p.m.got }
  aborts : p.ab = []
  bad : p.bad = none
  got : ∀ l, inMask p.m.got l = decide (l ∈ done)
  kept : ∀ o, isPeer o = false → (∀ l ∈ done, ¬ (loc l ≤ o ∧ o < loc l + n)) → p.s.rdByte o = s.rdByte o
  wrote : ∀ l ∈ done, ∀ o, isPeer o = false → loc l ≤ o ∧ o < loc l + n → (∀ k ∈ done, l < k → ¬ (loc k ≤ o ∧ o < loc k + n)) →
    p.s.rdByte o = BitVec.ofNat 8 (v l / 2 ^ (8 * (o - loc l)))

theorem Stored.act {s : State} {m : MemW} {loc v : Nat → Nat} {n : Nat} {done : List Nat} {p : MPass} (h : Stored s m loc v n done p) : p.m.act = m.act := by
  rw [h.word]

theorem Stored.start (s : State) {m : MemW} (hgot : m.got = 0) (loc v : Nat → Nat) (n : Nat) : Stored s m loc v n [] ⟨s, m, [], false, none⟩ :=
  ⟨OnlyStores.refl s, rfl, rfl, rfl, fun l => by simp [hgot, inMask], fun _ _ _ => rfl, by simp⟩

/-- A lane above those that have written writes. -/
theorem Stored.put {s : State} {m : MemW} {loc v : Nat → Nat} {n : Nat} {done : List Nat} {p : MPass} (h : Stored s m loc v n done p) {u : State} (hu : OnlyStores p.s u)
    {l : Nat} (hl : l < 32) (hlt : ∀ k ∈ done, k < l)
    (hb : ∀ o, isPeer o = false → u.rdByte o = if loc l ≤ o ∧ o < loc l + n then BitVec.ofNat 8 (v l / 2 ^ (8 * (o - loc l))) else p.s.rdByte o) :
    Stored s m loc v n (done ++ [l]) (({ p with s := u } : MPass).done l) := by
  refine ⟨h.stores.trans hu, ?_, h.aborts, h.bad, fun k => ?_, fun o ho hno => ?_, fun k hk o ho hin hno => ?_⟩
  · simp only [MPass.done]
    rw [h.word]
  · simp only [MPass.done]
    rw [inMask_orBit _ hl, h.got]
    simp [Bool.decide_or]
  · refine (hb o ho).trans ((if_neg (hno l (by simp))).trans (h.kept o ho fun k hk => hno k (by simp [hk])))
  · rcases List.mem_append.1 hk with hk | hk
    · refine (hb o ho).trans ((if_neg (hno l (by simp) (hlt k hk))).trans (h.wrote k hk o ho hin fun j hj => hno j (by simp [hj])))
    · obtain rfl := List.mem_singleton.1 hk
      exact (hb o ho).trans (if_pos hin)

section
variable {s : State} {m : MemW} {x : MemX} {loc v : Nat → Nat} {n : Nat} {sw : Bool} {act : MPass → Nat → Nat → MPass} (hn : 0 < n)
  (hready : ∀ l ∈ lanesOf m.act, StoreReady s x.stream m.id (m.va l) n (loc l)) (hgot : m.got = 0)
  (hact : ∀ p l, OnlyStores s p.s → p.m = { m with got := p.m.got } → l ∈ lanesOf m.act → act p l (loc l) = stPlain sw x p l (loc l) (toBytes n (v l)))
include hn hready hgot hact

/-- Every active lane writes its bytes. -/
theorem stores_pass : Stored s m loc v n (lanesOf m.act) ((lanesOf m.act).foldl (laneTurn true loc act) ⟨s, m, [], false, none⟩) := by
  refine foldl_laneTurn (I := Stored s m loc v n) (fun done p l h hl => ⟨by rw [h.got]; simpa using hl, h.bad⟩) _ [] _ (by simp) (lanesOf_sorted _)
    (fun done p l hl h hlt => ?_) (Stored.start s hgot loc v n)
  have hva : p.m.va l = m.va l := by rw [h.word]; rfl
  have hid : p.m.id = m.id := by rw [h.word]
  have hr := (hready l hl).stores h.stores
  rw [← hva, ← hid] at hr
  obtain ⟨u, hu, heq, hb⟩ := stPlain_ready (sw := sw) hn (v l) hr
  rw [hact p l h.stores h.word hl, heq]
  exact h.put hu (mem_lanesOf.1 hl).1 hlt hb

/-- A store all of whose lines are at hand finishes. -/
theorem memDrive_stores {msw : Bool} {all : Word32} {np : Bool} {fin : State → MemW → Res} (log : Option (State → MemW → List Nat → Option State))
    (hx : ∀ l ∈ lanesOf m.act, xlate s s.ct.ctx s.ct.core (m.va l) true = .hit (loc l)) (hmask : s.sp.mask ≠ 0) :
    ∃ p, Stored s m loc v n (lanesOf m.act) p ∧
      memDrive s msw all np m true act log fin = fin (p.s.setSp { p.s.sp with mem := none, pmask := 0 }) p.m := by
  have hp := stores_pass hn hready hgot hact
  refine ⟨_, hp, memDrive_hits (loc := loc) msw all np hgot (fun l hl => ⟨hx l hl, (isHost_of_isDev (hready l hl).dev).2⟩) rfl hp.bad hp.aborts ?_ ?_⟩
  · rw [hp.stores.sp]
    exact hmask
  · refine MemW.rest_all fun l => ?_
    rw [hp.got l, hp.act]

end

end Sys2Proof.Machine
end

section
/-! A store to global memory that finds its lanes' lines at hand (R301, R317, R319, R321). -/
namespace Sys2Proof.Machine

theorem Issued.team_eq {s u : State} (h : Issued s u) (i : Nat) : u.team i = s.team i := by rw [h.vec.1]; rfl

theorem Issued.frame {s u : State} (h : Issued s u) : u = { s with groups := u.groups, cores := u.cores } := by
  have hu := h.vec.1
  rwa [h.seq] at hu

/-- A release finds performed what it found so before the issue. -/
theorem Issued.relReady_eq {s u : State} (h : Issued s u) (stream id : Nat) : relReady u u.cur.gh stream id = relReady s s.cur.gh stream id := by
  have hgrp : u.grp u.cur.gh = { s.grp s.cur.gh with status := u.cg.status, tags := u.cg.tags, pend := u.cg.pend } := h.cg
  have hio : u.io = s.io := by rw [h.vec.1]
  simp only [relReady, performed, hgrp, hio, h.team_eq]
  rw [h.vec.2.1, h.cur]

theorem Issued.storeReady {s u : State} (h : Issued s u) {stream id va n loc : Nat} (hloc : LaneLoc s va n true loc)
    (hlog : logHolds s s.cur.gh stream id va n = false) (hline : LineIn s loc [.e, .m]) : StoreReady u stream id va n loc := by
  obtain ⟨-, -, -, hdev, hlock, hpush⟩ := hloc
  exact ⟨by rw [h.cur, h.logHolds_eq]; exact hlog, hdev, h.lock hlock, by rw [h.ct, h.pushPending_eq]; exact hpush, h.lineIn hline⟩

theorem formBytes_le (ty : Ty) (form : Nat) : formBytes ty form ≤ 16 := by
  match form with
  | 0 => cases ty <;> decide
  | 1 => exact le_refl _
  | 2 | 3 | 4 => exact Nat.le_of_ble_eq_true rfl
  | n + 5 => exact Nat.le_of_ble_eq_true rfl

/-- What a store leaves: of the state, and of its group. -/
structure StoreLeaves (s t : State) : Prop where
  only : t = { s with mem := t.mem, enc := t.enc, poison := t.poison, groups := t.groups, cores := t.cores, dir := t.dir }
  cg : t.cg = { s.cg with status := t.cg.status, splits := t.cg.splits, tags := t.cg.tags, pend := t.cg.pend, tx := t.cg.tx, frel := t.cg.frel }

theorem StoreLeaves.ofPass {s u v : State} (hu : Issued s u) (hv : OnlyStores u v) (p : Split) :
    StoreLeaves s (v.setSp p) := by
  refine ⟨?_, ?_⟩
  · have h : (v.setSp p) = { v with groups := (v.setSp p).groups } := rfl
    rw [h, hv.only, hu.frame]
  · rw [State.cg_setSp, hv.cg, hu.cg]

theorem StoreLeaves.orSts {s w : State} (h : StoreLeaves s w) (b : Nat) (ls : List Nat) : StoreLeaves s (w.setCg (w.cg.orSts b ls)) := by
  refine ⟨?_, ?_⟩
  · have hset : w.setCg (w.cg.orSts b ls) = { w with groups := (w.setCg (w.cg.orSts b ls)).groups } := rfl
    rw [hset, h.only]
  · rw [State.cg_setCg, Group.orSts_only, h.cg]

theorem StoreLeaves.keeps {s t : State} (h : StoreLeaves s t) : KeepsGroup s t ∧ t.cg.v = s.cg.v ∧ t.cg.s = s.cg.s := by
  refine ⟨?_, ?_, ?_⟩
  · rw [KeepsGroup, h.cg]
  · rw [h.cg]
  · rw [h.cg]

theorem stStart_ok {s : State} {h : VH} {t : Ty} {x : MemX} {a b : Opnd} (ctl : Word64) (hf : FreshWord s)
    (hr : Ready s (active s h) (opRegs false a ++ opRegs (t == .x64) b ++ latchRegs s (opLatches false a ++ opLatches (t == .x64) b)))
    (hchk : ∀ l ∈ lanesOf (active s h), gCheck (formBytes t x.form) (gAddr s a x.off l) = none) :
    stStart s h t x a b ctl = .ok (afterRead s (active s h) (opLatches false a ++ opLatches (t == .x64) b),
      memOps s false true x.stream (active s h) (gAddr s a x.off) (data0 s t b) (data1 s t b) noOp noOp ctl) := by
  obtain ⟨-, -, hn, -⟩ := hf
  rw [stStart, forbidMem_of_noTx hn]
  simp only [bind, Except.bind]
  rw [vpre_ready hr]
  simp only
  rw [gChecks_ok hchk]
  rfl

section
variable {s : State} {h : VH} {ty : Ty} {x : MemX} {a b : Opnd} {loc : Nat → Nat} (hf : FreshWord s)
  (hr : Ready s (active s h) (opRegs false a ++ opRegs (ty == .x64) b ++ latchRegs s (opLatches false a ++ opLatches (ty == .x64) b)))
  (hrel : releases x.order = false ∨ relReady s s.cur.gh x.stream s.seq = true)
  (hlog : ∀ l, l < 32 → inMask (active s h) l = true → logHolds s s.cur.gh x.stream s.seq (gAddr s a x.off l) (formBytes ty x.form) = false)
  (hloc : ∀ l, l < 32 → inMask (active s h) l = true → LaneLoc s (gAddr s a x.off l) (formBytes ty x.form) true (loc l) ∧ LineIn s (loc l) [.e, .m])
include hf hr hrel hlog hloc

theorem execStg_hits : let n := formBytes ty x.form
    let hits (o l : Nat) : Prop := inMask (active s h) l = true ∧ loc l ≤ o ∧ o < loc l + n
    ∃ t, execStg h ty x a b s = .next t ∧ StoreLeaves s t ∧
      (∀ o, isPeer o = false → (∀ l, l < 32 → ¬ hits o l) → t.rdByte o = s.rdByte o) ∧
      ∀ l o, l < 32 → hits o l → (∀ k, k < 32 → l < k → ¬ hits o k) →
        t.rdByte o = BitVec.ofNat 8 ((storeForm ty x.form s.cg.nrm (data0 s ty b l) (data1 s ty b l)).1 / 2 ^ (8 * (o - loc l))) := by
  intro n hits
  let act := active s h
  let lat := opLatches false a ++ opLatches (ty == .x64) b
  let u := afterRead s act lat
  let m := memOps s false true x.stream act (gAddr s a x.off) (data0 s ty b) (data1 s ty b) noOp noOp 0
  let v (l : Nat) : Nat := (storeForm ty x.form s.cg.nrm (data0 s ty b l) (data1 s ty b l)).1
  have hu : Issued s u := Issued.ofRead s act lat
  have hat {l : Nat} (hl : l ∈ lanesOf act) := hloc l (mem_lanesOf.1 hl).1 (mem_lanesOf.1 hl).2
  have hva {l : Nat} (hl : l ∈ lanesOf act) : m.va l = gAddr s a x.off l := mget_vlanes 0 _ hl
  have hready (l : Nat) (hl : l ∈ lanesOf m.act) : StoreReady u x.stream m.id (m.va l) n (loc l) := by
    rw [hva hl]
    exact hu.storeReady (hat hl).1 (hlog l (mem_lanesOf.1 hl).1 (mem_lanesOf.1 hl).2) (hat hl).2
  have hx (l : Nat) (hl : l ∈ lanesOf m.act) : xlate u u.ct.ctx u.ct.core (m.va l) true = .hit (loc l) := by
    rw [hva hl, hu.ct, hu.xlate_eq]
    exact (hat hl).1.2.2.1
  have hact (p : MPass) (l : Nat) (hp : OnlyStores u p.s) (hm : p.m = { m with got := p.m.got }) (hl : l ∈ lanesOf m.act) :
      stLane ty x p l (loc l) = stPlain false x p l (loc l) (toBytes n (v l)) := by
    have htx : (txOf p.s.cg l).active = false := by
      rw [hp.active, hu.tx]
      exact txOf_of_noTx hf.2.2.1 hl
    have hbytes : (stBytes ty x.form p.m l).1 = toBytes n (v l) := by
      have h0 : mget 0 p.m.d0 l = data0 s ty b l := by rw [hm]; exact mget_vlanes 0 _ hl
      have h1 : mget 0 p.m.d1 l = data1 s ty b l := by rw [hm]; exact mget_vlanes 0 _ hl
      have hnrm : p.m.nrm = s.cg.nrm := by rw [hm]; rfl
      simp only [stBytes, h0, h1, hnrm, n, v]
    simp only [stLane, htx, hbytes, Bool.false_eq_true, if_false]
  obtain ⟨p, hp, hdrive⟩ := memDrive_stores (formBytes_pos ty x.form) hready rfl hact (msw := false) (all := 0) (np := false)
    (fin := fun s m => .ok (satLanes ty x.form s m))
    (some fun s m ls => logLanes s false x (fun _ => .store) m (fun l => (stBytes ty x.form m l).1) ls) hx (by rw [hu.sp]; exact hf.2.2.2.2.1)
  have hleaves := StoreLeaves.ofPass hu hp.stores { p.s.sp with mem := none, pmask := 0 }
  have hmem (o : Nat) (ho : isPeer o = false) : u.rdByte o = s.rdByte o := hu.vec.sameMem o ho
  refine ⟨satLanes ty x.form (p.s.setSp { p.s.sp with mem := none, pmask := 0 }) p.m, ?_, hleaves.orSts bSAT _, fun o ho hno => ?_, fun l o hl32 hh hlast => ?_⟩
  · have hgo : (releases x.order && m.got == 0 && !relReady u u.cur.gh x.stream m.id) = false := by
      rw [hu.relReady_eq]
      rcases hrel with h | h
      · simp [h]
      · simp [show m.id = s.seq from rfl, h]
    rw [execStg, memStart_fresh hf.1, stStart_ok 0 hf hr fun l hl => gCheck_ok (hat hl).1.1 (hat hl).1.2.1]
    simp only [bind, Except.bind, relWait]
    rw [if_neg (by rw [Bool.not_eq_true]; exact hgo)]
    exact congrArg Res.out hdrive
  · exact (hp.kept o ho fun l hl hin => hno l (mem_lanesOf.1 hl).1 ⟨(mem_lanesOf.1 hl).2, hin⟩).trans (hmem o ho)
  · have hl : l ∈ lanesOf act := mem_lanesOf.2 ⟨hl32, hh.1⟩
    have ho : isPeer o = false := by
      have hdev := (hat hl).1.2.2.2.1
      have hlt := hh.2.2
      have hn16 : n ≤ 16 := formBytes_le ty x.form
      simp only [isDev, decide_eq_true_eq] at hdev
      exact decide_eq_false (by omega)
    exact hp.wrote l hl o ho hh.2 fun k hk hlt hin => hlast k (mem_lanesOf.1 hk).1 hlt ⟨(mem_lanesOf.1 hk).2, hin⟩

end

end Sys2Proof.Machine
end

section
/-! Scalar loads and stores: 8 bytes for the split as a whole (R252, R317, R319, R336). -/
namespace Sys2Proof.Machine

theorem lanesOf_one : lanesOf 1 = [0] := by decide

/-- A scalar load gives its value. -/
theorem Finishing.givesScalar {s w : State} {ws : List PW} (hw : Finishing s w ⟨1, s.seq, true, ws⟩) (hk : ∀ w ∈ ws, w.kind = 4 ∧ w.con = false)
    (hP : ∀ p ∈ s.cg.pend, p.id ≠ s.seq) (d : Nat) (val : Word64) :
    let t := finishCounted w s.seq false [] [⟨1, d, val, false⟩]
    KeepsGroup s t ∧ t.cg.v = s.cg.v ∧ OnlyGroupsCores s t ∧
      (s.isL = true → t.cg.pend = s.cg.pend ++ [⟨1, s.seq, false, [⟨1, d, val, false⟩]⟩] ∧ t.cg.s = s.cg.s) ∧
      (s.isL = false → ∀ k, t.cg.sreg k = if k = d ∧ d ≠ 0 then val else s.cg.sreg k) := by
  intro t
  have hpend : w.cg.pend = s.cg.pend ++ [⟨1, s.seq, true, ws⟩] := by rw [hw.cg]
  cases hL : s.isL
  · obtain ⟨hframe, -, hcg⟩ := finishCounted_made hpend rfl hP (hw.isL.trans hL) false [] [⟨1, d, val, false⟩]
    have hcg : t.cg = ({ w.cg with pend := s.cg.pend } : Group).wS d val := hcg
    refine ⟨?_, ?_, hw.frame.trans hframe, by simp, fun _ k => ?_⟩
    · rw [KeepsGroup, hcg, hw.cg, Group.wS]
      split_ifs <;> rfl
    · rw [hcg, hw.cg, Group.wS]
      split_ifs <;> rfl
    · rw [hcg, hw.cg, Group.wS, Group.sreg, Group.sreg]
      by_cases hd : d = 0 <;> by_cases hk0 : k = 0 <;> by_cases hkd : k = d <;> simp_all [mget_mset]
  · obtain ⟨hframe, -, hcg⟩ := finishCounted_pending hpend rfl hP (hw.isL.trans hL) false [] [⟨1, d, val, false⟩]
    change t.cg = _ at hcg
    rw [formWrites_unmarked hk] at hcg
    refine ⟨by rw [KeepsGroup, hcg, hw.cg], by rw [hcg, hw.cg], hw.frame.trans hframe, fun _ => ⟨by rw [hcg]; rfl, by rw [hcg, hw.cg]⟩, by simp⟩

/-- The checks of a scalar access (R319). -/
theorem sStart_ok {s : State} {wr : Bool} {a : Nat} {i : BitVec 12} {x : Word64} (ha : sAddr s a i % 8 = 0) (hc : canonical (sAddr s a i) = true) :
    sStart wr s a i x = .ok (s, { memOps s false wr s.cg.dstrm 1 (fun _ => sAddr s a i) (fun _ => x) noOp noOp noOp 0 with sw := true }) := by
  rw [sStart, gCheck_ok ha hc]

theorem sStart_misaligned {s : State} {wr : Bool} {a : Nat} {i : BitVec 12} {x : Word64} (ha : sAddr s a i % 8 ≠ 0) :
    sStart wr s a i x = .error (fatal s MISALIGN 8 (sAddr s a i) 0) := by
  rw [sStart, gCheck, if_pos ha]

theorem sldStart_eq {s : State} (hf : FreshWord s) (hroom : roomCounter s 1 = true) (d a : Nat) (i : BitVec 12) :
    sldStart d a i s = (sStart false s a i 0).map fun r => (issueCounted r.1 1 r.2.id false [] [d] r.2.act, r.2) := by
  rw [sldStart, memCounted, memStart_fresh hf.1, cSMEM, hroom]
  simp only [Bool.not_true, Bool.false_eq_true, if_false]
  cases sStart false s a i 0 <;> rfl

section
variable {s : State} {a : Nat} {i : BitVec 12} {loc : Nat} (hf : FreshWord s) (hlog : logHolds s s.cur.gh s.cg.dstrm s.seq (sAddr s a i) 8 = false)
include hf

theorem execSld_misaligned {d : Nat} (ha : sAddr s a i % 8 ≠ 0) (hroom : roomCounter s 1 = true) : execSld d a i s = .next (fatal s MISALIGN 8 (sAddr s a i) 0) := by
  rw [execSld, forbidTx_of_noTx hf.2.2.1]
  simp only [bind, Except.bind]
  rw [sldStart_eq hf hroom, sStart_misaligned ha]
  rfl

theorem execSst_misaligned {d : Nat} (ha : sAddr s a i % 8 ≠ 0) : execSst d a i s = .next (fatal s MISALIGN 8 (sAddr s a i) 0) := by
  rw [execSst, forbidTx_of_noTx hf.2.2.1]
  simp only [bind, Except.bind]
  rw [memStart_fresh hf.1, sStart_misaligned ha]
  rfl

include hlog

theorem execSld_hits {d : Nat} (hroom : roomCounter s 1 = true) (hloc : LaneLoc s (sAddr s a i) 8 false loc) (hline : LineIn s loc [.s, .e, .o, .m])
    (hclean : copyPoison s s.ct.core loc 8 false = false) : let val := BitVec.ofNat 64 (s.rdNat loc 8)
    ∃ t, execSld d a i s = .next t ∧ KeepsGroup s t ∧ t.cg.v = s.cg.v ∧ OnlyGroupsCores s t ∧
      (s.isL = true → t.cg.pend = s.cg.pend ++ [⟨1, s.seq, false, [⟨1, d, val, false⟩]⟩] ∧ t.cg.s = s.cg.s) ∧
      (s.isL = false → ∀ k, t.cg.sreg k = if k = d ∧ d ≠ 0 then val else s.cg.sreg k) := by
  intro val
  let m : MemW := { memOps s false false s.cg.dstrm 1 (fun _ => sAddr s a i) (fun _ => 0) noOp noOp noOp 0 with sw := true }
  let x : MemX := ⟨m.strm, 0, 0, 0, 0, 0⟩
  let u := issueCounted s 1 s.seq false [] [d] 1
  obtain ⟨hu, hpend, -⟩ := Issued.counted s 1 s.seq false [] [d] 1
  have hmarks : ∀ w ∈ ([d].filter (· != 0)).map fun k => (⟨4, k, 0, false⟩ : PW), w.kind = 4 ∧ w.con = false := fun w hw => by
    obtain ⟨k, -, rfl⟩ := List.mem_map.1 hw
    exact ⟨rfl, rfl⟩
  have hva {l : Nat} (hl : l ∈ lanesOf m.act) : m.va l = sAddr s a i := mget_vlanes 0 _ hl
  have hready (l : Nat) (hl : l ∈ lanesOf m.act) : LoadReady u x.stream m.id (m.va l) (formBytes .b64 x.form) loc := by
    rw [hva hl]
    exact hu.loadReady hloc hlog hline hclean
  have hx (l : Nat) (hl : l ∈ lanesOf m.act) : xlate u u.ct.ctx u.ct.core (m.va l) false = .hit loc := by
    rw [hva hl, hu.ct, hu.xlate_eq]
    exact hloc.2.2.1
  obtain ⟨p, hp, hdrive⟩ := memDrive_loads (sw := true) (all := 0) (np := false) (loc := fun _ => loc)
    (fin := fun s m => .ok (finishCounted s m.id false [] [⟨1, d, mget 0 m.vals 0, false⟩]))
    hready Nat.zero_ne_one rfl rfl (fun _ _ _ _ => rfl) hx (by rw [hu.sp]; exact hf.2.2.2.2.1)
  have hw := Finishing.ofPass hu hpend hp.hits { p.s.sp with mem := none, pmask := 0 }
  have hid : p.m.id = s.seq := by rw [hp.word]; rfl
  have hval : mget 0 p.m.vals 0 = val := by
    have h0 := (hp.vals 0 (by rw [show m.act = 1 from rfl, lanesOf_one]; exact List.mem_singleton_self 0)).2.1
    rw [hu.rdNat_eq] at h0
    exact h0
  rw [hid, hval] at hdrive
  refine ⟨_, ?_, hw.givesScalar hmarks hf.2.2.2.2.2 d val⟩
  rw [execSld, forbidTx_of_noTx hf.2.2.1]
  simp only [bind, Except.bind]
  rw [sldStart_eq hf hroom, sStart_ok hloc.1 hloc.2.1]
  exact congrArg Res.out hdrive

theorem execSst_hits {d : Nat} (hloc : LaneLoc s (sAddr s a i) 8 true loc) (hline : LineIn s loc [.e, .m]) :
    ∃ t, execSst d a i s = .next t ∧ StoreLeaves s t ∧ ∀ o, isPeer o = false →
      t.rdByte o = if loc ≤ o ∧ o < loc + 8 then BitVec.ofNat 8 ((s.rS d).toNat / 2 ^ (8 * (o - loc))) else s.rdByte o := by
  let m : MemW := { memOps s false true s.cg.dstrm 1 (fun _ => sAddr s a i) (fun _ => s.rS d) noOp noOp noOp 0 with sw := true }
  let x : MemX := ⟨m.strm, 0, 0, 0, 0, 0⟩
  have hu : Issued s s := Issued.refl s
  have hva {l : Nat} (hl : l ∈ lanesOf m.act) : m.va l = sAddr s a i := mget_vlanes 0 _ hl
  have hready (l : Nat) (hl : l ∈ lanesOf m.act) : StoreReady s x.stream m.id (m.va l) 8 loc := by
    rw [hva hl]
    exact hu.storeReady hloc hlog hline
  have hx (l : Nat) (hl : l ∈ lanesOf m.act) : xlate s s.ct.ctx s.ct.core (m.va l) true = .hit loc := by
    rw [hva hl]
    exact hloc.2.2.1
  have hact (p : MPass) (l : Nat) (_ : OnlyStores s p.s) (hm : p.m = { m with got := p.m.got }) (hl : l ∈ lanesOf m.act) :
      stPlain true x p l loc (stBytes .b64 0 p.m l).1 = stPlain true x p l loc (toBytes 8 (s.rS d).toNat) := by
    have h0 : mget 0 p.m.d0 l = s.rS d := by rw [hm]; exact mget_vlanes 0 _ hl
    have hbytes : (stBytes .b64 0 p.m l).1 = toBytes 8 (mget 0 p.m.d0 l).toNat := rfl
    rw [hbytes, h0]
  obtain ⟨p, hp, hdrive⟩ := memDrive_stores (loc := fun _ => loc) (v := fun _ => (s.rS d).toNat) (n := 8)
    (act := fun p l loc => stPlain true x p l loc (stBytes .b64 0 p.m l).1) (by decide) hready rfl hact
    (msw := true) (all := 0) (np := false) (fin := fun s _ => .ok s)
    (some fun s m ls => logLanes s true x (fun _ => .store) m (fun l => (stBytes .b64 0 m l).1) ls) hx hf.2.2.2.2.1
  have h0 : 0 ∈ lanesOf m.act := by rw [show m.act = 1 from rfl, lanesOf_one]; exact List.mem_singleton_self 0
  have hlane {l : Nat} (hl : l ∈ lanesOf m.act) : l = 0 := List.mem_singleton.1 (lanesOf_one ▸ hl)
  refine ⟨p.s.setSp { p.s.sp with mem := none, pmask := 0 }, ?_, StoreLeaves.ofPass hu hp.stores _, fun o ho => ?_⟩
  · rw [execSst, forbidTx_of_noTx hf.2.2.1]
    simp only [bind, Except.bind]
    rw [memStart_fresh hf.1, sStart_ok hloc.1 hloc.2.1]
    exact congrArg Res.out hdrive
  · rw [State.rdByte_setSp]
    split_ifs with hin
    · exact hp.wrote 0 h0 o ho hin fun k hk hlt => absurd (hlane hk) (by omega)
    · exact hp.kept o ho fun _ _ => hin

end

end Sys2Proof.Machine
end

section
open Sys2Proof Sys2Proof.Machine

/-- Settles O34: the value forms one by one; then each word finds its lanes' data at hand, acts lane by lane, and finishes. -/
theorem globalAndScalarLoadStore : Obligations.GlobalAndScalarLoadStore := by
  unfold Obligations.GlobalAndScalarLoadStore
  refine ⟨fun nrm v a b => ?_, ?_, ?_⟩
  · intro x load is store w bounds entire low high ulp arm point
    obtain ⟨h3, h5, h4⟩ := storeForm_point nrm a b
    have hpoint : point fp32 = narrowed fp32 nrm x := rfl
    have hgood : x.Good := x32Read_good a
    have hfin {l h : Q} (hx : x = .mk (.fin l) (.fin h)) : 0 < l.d ∧ 0 < h.d := by
      rw [hx] at hgood
      exact ⟨hgood.1, hgood.2.1⟩
    have h631 : (⟨631, 64⟩ : Q).rat = mk8Num 127 := rfl
    obtain ⟨hpair, hback⟩ := storeForm_pair nrm a b
    refine ⟨fun ty hv => ?_, ?_, ?_, hpair, hback, Nat.add_comm _ _, fun hv => ?_, fun hv => ?_, ?_, fun hv => ?_, h3, h5, ?_, fun hx => ?_, fun hx => ?_,
      fun l h hx hinf => ?_, fun q hq hhas => cm_encloses hgood hq hhas, fun l h neg k hx hmid => ?_⟩
    · obtain ⟨hl, hn⟩ := loadForm_raw hv
      exact ⟨hl, hn, storeForm_raw ty nrm a b⟩
    · exact congrArg (x32Write bounds, 0, ·) (isNai_eq bounds)
    · exact congrArg (BitVec.ofNat 64 (ivlWrite fp64 bounds).1, BitVec.ofNat 64 (ivlWrite fp64 bounds).2, ·) (isNai_eq bounds)
    · have h := loadForm_fp32 hv
      cases hof : fpOf fp32 v <;> simp only [hof] at h ⊢ <;> exact h
    · have h := loadForm_bf16 hv
      cases hof : fpOf bf16 v <;> simp only [hof] at h ⊢ <;> exact h
    · have h := loadForm_mk8 v
      cases hof : mk8Val v with
      | none => simp only [hof] at h ⊢; exact h
      | some q =>
        simp only [hof] at h ⊢
        exact ⟨h.1, fun _ => h.2⟩
    · obtain ⟨hnai, hempty, hentire, hmid⟩ := loadForm_cm_rows hv
      exact ⟨hnai, hempty, hentire, hmid⟩
    · have h := mk8OfFp32_spec (narrowed fp32 nrm x)
      rw [← h4] at h
      rw [hpoint]
      cases hp : narrowed fp32 nrm x with
      | nan => simp only [hp] at h ⊢; exact h
      | inf neg => simp only [hp] at h ⊢; exact h
      | fin neg k =>
        simp only [hp] at h ⊢
        obtain ⟨hsat, hnear⟩ := h
        have ha : 0 < (qAbs (fpVal fp32 neg k)).d := fpVal_pos fp32 neg k
        refine ⟨fun hlt => hsat ?_, fun hle => ?_⟩
        · rwa [qLt_iff (by norm_num) ha, h631, rat_qAbs] at hlt
        · rw [qLe_iff ha (by norm_num), h631, rat_qAbs] at hle
          obtain ⟨c, hc, hlt, hu⟩ := hnear hle
          have hc' : store 4 = c := congrArg Prod.fst hc
          rw [hc']
          exact ⟨congrArg Prod.snd hc, hlt, hu⟩
    · exact congrArg cmStore hx
    · exact congrArg cmStore hx
    · exact (congrArg cmStore hx).trans (cmStore_inf hinf)
    · have hw : w = cmStore (.mk (.fin l) (.fin h)) := congrArg cmStore hx
      obtain ⟨-, hcode, hsign, -⟩ := cmStore_fields hmid
      rw [hw]
      exact ⟨hcode, hsign, fun r hr => cm_least (hfin hx).1 (hfin hx).2 hmid hr⟩
  · intro s h ty x d a b loc hf act n pair va v bytes hits hlog
    refine ⟨fun hhint hr hroom _ hloc => ?_, fun hr hrel hloc => ?_⟩
    · obtain ⟨t, ht, hgives, hkeeps, hmem, hst, hframe⟩ := execLdg_hits (d := d) hf hhint hr hroom hlog hloc
      exact ⟨t, ht, hgives, hkeeps, hmem, hst, hframe⟩
    · obtain ⟨t, ht, hleaves, hkept, hwrote⟩ := execStg_hits hf hr hrel hlog hloc
      obtain ⟨hkeeps, hv, hs⟩ := hleaves.keeps
      exact ⟨t, ht, hkeeps, hv, hs, hkept, hwrote, hleaves.only⟩
  · intro s d a i loc hf va hlog
    refine ⟨fun hroom hloc hline hclean => ?_, fun hloc hline => ?_, fun hva => ⟨execSst_misaligned hf hva, execSld_misaligned hf hva⟩⟩
    · obtain ⟨t, ht, hkeeps, hv, hframe, hL, hD⟩ := execSld_hits (d := d) hf hlog hroom hloc hline hclean
      exact ⟨t, ht, hframe.sameMem, hkeeps, hv, hframe, hL, hD⟩
    · obtain ⟨t, ht, hleaves, hmem⟩ := execSst_hits (d := d) hf hlog hloc hline
      obtain ⟨hkeeps, hv, hs⟩ := hleaves.keeps
      exact ⟨t, ht, hkeeps, hv, hs, hleaves.only, hmem⟩

end
